-- ==== Sys2Proof/Syntax.lean ====
section
/-! DEFINITION. The commands of the block: one constructor of Instr per row of spec/opcode_table.json, with the operands the spec gives it. -/

namespace Sys2Proof

/-- Status codes of completions (12_host.md R313). -/
inductive Status where
  | ok | accepted | cancelled | alreadyDone | versionChanged | invalidArg | noRoom | engineAbsent | profileMismatch
  | lengthBudget | notReady | busy | denied | deadlineMiss | tickAbort | programFault | hwFault | partitionKilled
  deriving DecidableEq, Repr

/-- Source of a register or memory access: hart in machine, supervisor or user mode, the I3C port, the server (18_registers.md R407). -/
inductive Src where
  | m | s | u | i3c | server
  deriving DecidableEq, Repr

/-- A fetched command: the partition whose ring fetched it and its handle sequence (R296). -/
structure CmdId where
  part : Nat
  seq : Nat
  deriving DecidableEq, Repr

/-- Variant-table entry (10_contract.md R244). -/
structure VariantE where
  rows : Nat
  chunk : Nat
  draft : Nat
  kind : Nat
  wWorst : Nat
  wNom : Nat
  deriving DecidableEq, Repr

/-- Context declaration (R243, R245): band positions, one entry address per variant (an offset within its code), the code and its offset in the program image. -/
structure CtxDecl where
  stack : Nat
  idx : Nat
  positions : Nat
  bandFree : Bool
  entries : List Nat
  code : List Byte
  off : Nat
  deriving DecidableEq, Repr

/-- Element program (08_vector.md R191): formats and pair flags of the inputs and outputs, output registers, constants, words. -/
structure EProg where
  ins : List (Nat × Bool)
  outs : List (Nat × Bool × Nat)
  consts : List Word
  words : List Word
  deriving DecidableEq, Repr

/-- Shelf declaration (03_memory.md R72). -/
structure ShelfDecl where
  core : Nat
  shelf : Nat
  base : Nat
  lines : Nat
  slots : Nat
  deriving DecidableEq, Repr

/-- Window entry (R78). -/
structure Window where
  isOpen : Bool
  region : Bool
  base : Nat
  limit : Nat
  tag : Nat
  deriving DecidableEq, Repr

/-- One table of a lookup map (11_serving.md R269). -/
structure LookupTable where
  rows : Nat
  perShard : Nat
  cap : Nat
  shards : List Nat
  deriving DecidableEq, Repr

/-- What a declared range holds (R269): plain, or a serving range with the fields that fix its size. -/
inductive Serving where
  | plain
  | kv (slots ctx bytes : Nat)
  | plan (copyBytes embBytes : Nat)
  | prompt (tokens : Nat)
  | lookup (tables : List LookupTable)
  | badTag (tag : Nat)
  deriving DecidableEq, Repr

/-- A declared range of a core (R243): device address of its first byte and its length. -/
structure RangeDecl where
  lo : Nat
  len : Nat
  use : Serving
  deriving DecidableEq, Repr

/-- A tile group of one core (R124): layer, tile format code, count of tiles, row budget, store address of its first slot and of its block headers. -/
structure TileGroup where
  core : Nat
  layer : Nat
  fmt : Nat
  tiles : Nat
  budget : Nat
  base : Nat
  hdr : Nat
  deriving DecidableEq, Repr

/-- Cabinet declaration (04_weights.md R104): drawers, span, largest rank, base within a core's slice, bands, and the tile groups of an adapter (R91, R124), their bases and headers counted from the start of a drawer. -/
structure CabDecl where
  drawers : Nat
  span : Nat
  maxRank : Nat
  base : Nat
  bands : Nat
  groups : List TileGroup
  deriving DecidableEq, Repr

/-- Link-table entry of a used port (R243, R327). -/
structure LinkDecl where
  port : Nat
  nbrSym : Nat
  nbrPort : Nat
  period : Nat
  window : Nat
  relays : List (Nat × Nat)
  deriving DecidableEq, Repr

/-- Symbolic package block (R243). Descriptors are keyed core*256+i, chains core*64+i, programs core*16+i; `hostLen`: the host-area length. -/
structure PkgBlock where
  ctxs : List CtxDecl
  buoys : List (Nat × List Word)
  descs : Tab (List Byte)
  chains : Tab (List Byte)
  progs : Tab EProg
  shelves : List ShelfDecl
  windows : List (Nat × Nat × Window)
  ranges : List RangeDecl
  cabinet : CabDecl
  tiles : List TileGroup
  links : List LinkDecl
  hostLen : Nat
  deriving DecidableEq, Repr

/-- What another package of the job answers to the checks of LOAD_PROGRAM or START_JOB (R259, R265): the first failing step (0: none) and its status; the job tags and barrier groups it uses (R41, R296); the base of the buoys it gives each symbolic stack (R258); the version of its base sections, if they have one (R96). -/
structure PkgCheck where
  pkg : Nat
  step : Nat
  status : Status
  tags : List Nat
  groups : List Nat
  buoyBase : List Nat
  version : Option Nat
  deriving DecidableEq, Repr

/-- A job-scope command as the lead package passes it on to another package of its job (R259, R265, R308; log entry 52): the lead, the submitting partition and its tenant, generation and sequence of the job handle, the tag, flags and arguments of the descriptor; for LOAD_PROGRAM the image, the placement record and the barrier groups; for START_JOB the first entry reserved, for a park or a resume the request's entry, for PUT_ADAPTER and TRAIN_ADAPTER the drawer; the tick or edge that the lead has fixed, for a resume the key-value slot. -/
structure Relay where
  lead : Nat
  part : Nat
  tenant : Nat
  gen : Nat
  seq : Nat
  tag : Nat
  flags : Nat
  args : List Byte
  image : List Byte
  placement : List Byte
  groups : List Nat
  base : Nat
  tick : Option Nat
  deriving DecidableEq, Repr

/-- How a job-scope command comes to this package: as a descriptor fetched here, or as the lead package passes it on (log entry 52). -/
inductive Via where
  | ring (id : CmdId)
  | relay (r : Relay)
  deriving DecidableEq, Repr

/-- A job-scope command that the lead decides with what the other packages of the job answer (R98, R106). -/
structure Asked where
  via : Via
  others : List PkgCheck
  deriving DecidableEq, Repr

/-- SET_TICK of the domain, with whether a job of the domain runs on other packages only (R23). -/
structure TickCmd where
  id : CmdId
  elsewhere : Bool
  deriving DecidableEq, Repr

/-- A layer of a swap wave on a package of the job, by its symbolic index (R100, R103). -/
structure LayerPart where
  layer : Nat
  sym : Nat
  deriving DecidableEq, Repr

/-- How a fill stands on the other packages of the job (R94, R105, R106, R110, R118, R125): not verified on all of them yet; verified on all; refused there by the checks before anything is written; failed there. -/
inductive FarFill where
  | waiting
  | verified
  | refused (st : Status)
  | failed
  deriving DecidableEq, Repr

/-- A fill on demand as the lead passes it on (R104, R105, R110; log entry 52): adapter ID, the partition whose rules hold, the image. -/
structure FillStart where
  adapter : Nat
  part : Nat
  image : Nat
  deriving DecidableEq, Repr

/-- The command whose copy of a parked session has ended here, with whether the copies of all other packages have ended (R111). -/
structure CopyPart where
  id : CmdId
  elsewhere : Bool
  deriving DecidableEq, Repr

/-- A drawer, with how its fill stands on the other packages of the job; on a package that does not lead, the fill on demand that begins. -/
structure DrawerPart where
  drawer : Nat
  others : FarFill
  start : Option FillStart
  deriving DecidableEq, Repr

/-- Edge mark (02_beacon.md R24, 13_ihlan.md R321). The delay is in ps. -/
structure Mark where
  n : Nat
  epoch : Nat
  period : Nat
  origin : Nat
  delay : Nat
  deriving DecidableEq, Repr

inductive BuoyOp where
  | set | add | wait | testAndSet | clear
  deriving DecidableEq, Repr

/-- Buoy operation message (R321): global reference, operand, tag, tick, attempt, issuing core. -/
structure BuoyMsg where
  ref : Nat
  op : BuoyOp
  val : Word
  job : Nat
  tick : Nat
  attempt : Nat
  core : Nat
  deriving DecidableEq, Repr

/-- Barrier arrival or release (R42, R321). `core` is the arriving or released member (global core address). -/
structure BarrierMsg where
  group : Nat
  phase : Nat
  count : Nat
  job : Nat
  tick : Nat
  attempt : Nat
  core : Nat
  deriving DecidableEq, Repr

/-- A vote (15_safety.md R359). -/
structure VoteMsg where
  job : Nat
  pkg : Nat
  tick : Nat
  attempt : Nat
  yes : Bool
  cause : Nat
  loc : Nat
  deriving DecidableEq, Repr

inductive Verdict where
  | commit | abort | quarantine | kill
  deriving DecidableEq, Repr

/-- A verdict (R48, R360, R372), with the entries that the commit frees and those that it turns back to PROMPT (R267, R270, R282; log entry 25) and the source that a quarantine names. -/
structure VerdictMsg where
  job : Nat
  tick : Nat
  attempt : Nat
  kind : Verdict
  frees : List Nat
  srcPkg : Nat
  cause : Nat
  loc : Nat
  turned : List Nat
  deriving DecidableEq, Repr

/-- Plan row record (11_serving.md R277); kind 0 decode, 1 prompt segment, 2 margin. -/
structure PlanRow where
  entry : Nat
  kind : Nat
  rowFlags : Nat
  kvSlot : Nat
  drawer : Nat
  adGen : Nat
  pos : Nat
  count : Nat
  index : Nat
  aux : Nat
  deriving DecidableEq, Repr

/-- What a plan tells of a planned request beside its row (R49, R99-R102, R267): its entry, with generation, flags (bit 1 REBIND, bit 2 ENCODE_ONLY, bit 3 NO_DRAFT, bit 6 ADAPTER), committed length and steps for the mirrors; how many ticks ago its step entered layer 0, and the weight version of that step. Entry 0xFFFF: margin work. -/
structure StepInfo where
  entry : Nat
  gen : Nat
  flags : Nat
  kvLen : Nat
  step : Nat
  pos : Nat
  version : Nat
  deriving DecidableEq, Repr

/-- The plan of an attempt (R273, R277): header facts, rows in order, draw records (seed, step, position), token list, lookup list, optimiser constants; what it tells of each row's request; on the lead, the requests and the count of lookups that it deferred (R275, R284); the held drawer of the training that its margin work serves (R286). -/
structure Plan where
  variant : Nat
  n : Nat
  chunk : Nat
  k : Nat
  rows : List PlanRow
  draws : List (Dword × Nat × Nat)
  toks : List Word
  looks : List Dword
  consts : List Byte
  steps : List StepInfo
  deferred : List Nat
  lookDef : Nat
  train : Option Nat
  deriving DecidableEq, Repr

def Plan.idle : Plan := ⟨0, 0, 0, 0, [], [], [], [], [], [], [], 0, none⟩

/-- Plan message (R273, R321). -/
structure PlanMsg where
  job : Nat
  tick : Nat
  attempt : Nat
  variant : Nat
  k1 : Nat
  k2 : Nat
  k3 : Nat
  deriving DecidableEq, Repr

inductive EdgeKind where
  | replay | restart | deferred
  deriving DecidableEq, Repr

/-- Edge announcement (R53, R321): due domain edge and offset in CCLK. -/
structure Announce where
  job : Nat
  kind : EdgeKind
  tick : Nat
  due : Nat
  offset : Nat
  deriving DecidableEq, Repr

/-- Join message (R321, R331). -/
structure JoinMsg where
  domain : Nat
  pkg : Nat
  port : Nat
  epoch : Nat
  role : Nat
  width : Bool
  deriving DecidableEq, Repr

/-- Messages on the Beacon network (R321); the kill of R372 travels there too. -/
inductive BeaconMsg where
  | mark (m : Mark)
  | buoy (m : BuoyMsg)
  | arrival (m : BarrierMsg)
  | release (m : BarrierMsg)
  | vote (m : VoteMsg)
  | verdict (m : VerdictMsg)
  | hold (job tick : Nat)
  | plan (m : PlanMsg) (body : Plan)
  | announce (m : Announce)
  | query (job tick attempt : Nat)
  | answer (m : VerdictMsg)
  | join (m : JoinMsg)
  | kill (job : Nat) (clearAll : Bool)
  | reserved (type : Nat)
  deriving DecidableEq, Repr

/-- Header of a Beacon frame as it arrives (R321): which message of the port it is a copy of, DEST_PKG, SRC_PKG, and the slot boundary at which it left (R323). -/
structure BeaconHead where
  ident : Nat
  dest : Nat
  src : Nat
  slot : Nat
  deriving DecidableEq, Repr

/-- Data frame (R317). -/
structure Frame where
  cls : Nat
  retx : Bool
  wlen : Nat
  idx : Nat
  destPkg : Nat
  destAddr : Nat
  tag : Nat
  src : Nat
  seq : Nat
  tick : Nat
  attempt : Nat
  payload : List Byte
  deriving DecidableEq, Repr

/-- Control word (R320); its CRC travels beside it. -/
structure ControlWord where
  kind : Nat
  slot : Nat
  txSeq : Nat
  ackSeq : Nat
  nackSeq : Nat
  nackV : Bool
  deriving DecidableEq, Repr

/-- A control word as it arrives: its bits and its CRC field (R320). -/
structure ControlIn where
  word : ControlWord
  crc : Nat
  deriving DecidableEq, Repr

/-- A remote write as it reaches a core (R80): target device address, data, writer, tag, tick and attempt; the writer's long word where the writer is on this package. -/
structure RemoteWrite where
  addr : Nat
  data : List Byte
  src : Nat
  tag : Nat
  tick : Nat
  attempt : Nat
  lw : Nat
  deriving DecidableEq, Repr

/-- A shelf write as it reaches a core (R73, R236); the writer's long word where the writer is on this package. -/
structure ShelfWrite where
  core : Nat
  shelf : Nat
  slot : Nat
  data : List Byte
  src : Nat
  tag : Nat
  tick : Nat
  attempt : Nat
  lw : Nat
  deriving DecidableEq, Repr

/-- A remote read as it reaches a target bundle (R66). -/
structure RemoteRead where
  addr : Nat
  len : Nat
  src : Nat
  tag : Nat
  tick : Nat
  attempt : Nat
  deriving DecidableEq, Repr

/-- What the ROM reads from board flash (19_package.md R433) or the server pushes: header, body, flash records, certificate area. -/
structure BootImage where
  head : List Byte
  body : List Byte
  portRec : List Byte
  identRec : List Byte
  cert : List Byte
  deriving DecidableEq, Repr

/-- What port training measured (R315, R331): propagation in ns, pre-FEC error ratio in units of 10^-7, lane facts, the far end's width and presence. -/
structure Training where
  signal : Bool
  propNs : Nat
  ratio : Nat
  laneRev : Bool
  polarity : Nat
  width : Bool
  deriving DecidableEq, Repr

/-- What a peer or the host tier delivers for one section (04_weights.md R94, R95): whether the peer holds it verified, and then the bytes that its service frames bring, in the order of DATA_DIGEST (R91). -/
structure SectionIn where
  peerHolds : Bool
  bytes : List Byte
  deriving DecidableEq, Repr

/-- What a range-pair partner reports (14_reproducibility.md R346, R351). -/
structure PairReport where
  pkg : Nat
  matches_ : Bool
  firstTick : Nat
  listed : Nat
  sym : Nat
  m : Nat
  digest : BitVec 384
  deriving DecidableEq, Repr

/-- What the partner sends for a drill-down (R351): its commit-record hash, core digests and the log of one core. -/
structure DrillReport where
  held : Bool
  commitHash : Nat
  digests : List Nat
  log : List Nat
  deriving DecidableEq, Repr

inductive Tap where
  | bypass | sample | extest
  deriving DecidableEq, Repr

/-- What an error strikes at a core, found by the check that covers it: the next result of a lane's arithmetic, a lane's registers, a chain's descriptor or constants, an element program's words or constants, the special-function tables, the permute store (R206); a weight register after the next load, `sel` as the WEIGHT_REG injection selects it (R178, R179); a bond lane on the next store read (R356); bits of a stored word of 16 B of any memory under SEC-DED, by its address / 16 (R355). -/
inductive Upset where
  | adder (lane : Nat)
  | laneReg (lane : Nat)
  | chain (n : Nat)
  | prog (n : Nat)
  | tables
  | permute
  | weight (sel : Nat)
  | bond (lane : Nat)
  | word (w : Nat) (bits : List Nat)
  deriving DecidableEq, Repr

/-- What comes with a core's look at its FIFO (R221, R224): whether no word was damaged on its way to the core, and the errors that struck the core since the last. -/
structure TakeIn where
  crcOk : Bool
  upsets : List Upset
  deriving DecidableEq, Repr

/-- THE COMMANDS. One constructor per row of spec/opcode_table.json, in its order. -/
inductive Instr where
  | loadProgram (via : Via) (blocks : List PkgBlock) (bars : List (List (Nat × Nat))) (others : List PkgCheck)
  | loadImage (id : CmdId) (elastic : Bool)
  | swapLayers (cmd : Asked)
  | startJob (via : Via) (others : List PkgCheck)
  | stopJob (via : Via)
  | admitReq (id : CmdId)
  | append (id : CmdId)
  | cancel (id : CmdId)
  | query (id : CmdId)
  | putAdapter (cmd : Asked)
  | dropAdapter (via : Via)
  | trainAdapter (via : Via)
  | putCodeTable (via : Via)
  | withdraw (via : Via)
  | setTick (cmd : TickCmd)
  | setTickJob (via : Via)
  | killJob (id : CmdId)
  | releasePartition (id : CmdId)
  | armCapture (via : Via)
  | disarm (via : Via)
  | fog (id : CmdId)
  | rangePair (id : CmdId) (partner : Option PairReport)
  | rangePairStop (id : CmdId)
  | drillDown (id : CmdId) (partner : Option DrillReport)
  | parkSession (via : Via)
  | resumeSession (via : Via)
  | submissionDoorbell (part ring value : Nat)
  | consumerDoorbell (part ring value : Nat)
  | descriptorFetch (part ring : Nat)
  | fence (part ring : Nat)
  | coalTime (part ring : Nat)
  | assign (src : Src) (n : Nat) (bands : BitVec 16) (oper signedOnly keyValid : Bool)
  | unassign (src : Src) (n : Nat) (bands : BitVec 16) (oper signedOnly keyValid : Bool)
  | keyValid (src : Src) (n : Nat) (signedOnly : Bool)
  | keyValidClear (src : Src) (n : Nat) (signedOnly : Bool)
  | partCatalog (src : Src) (n : Nat) (value : Dword)
  | partAper (src : Src) (w : Nat) (value : Dword)
  | ringEnable (src : Src) (part ring : Nat) (value : Word)
  | ringDisable (src : Src) (part ring : Nat) (value : Word)
  | lighthouse (src : Src)
  | standby (src : Src)
  | member (src : Src)
  | beaconDomain (src : Src) (value : Word)
  | beaconPkg (src : Src) (value : Word)
  | beaconLead (src : Src) (value : Word)
  | statClear (src : Src) (cap : BitVec 2)
  | maxCap (src : Src) (cap : BitVec 2)
  | safeCntClear (src : Src) (value : Word)
  | arm (src : Src) (kind : BitVec 4) (core : BitVec 10) (tag : BitVec 16)
  | enterTestState (src : Src)
  | leaveTestState (src : Src)
  | linkEnable (src : Src) (port : Nat) (value : Word)
  | linkDisable (src : Src) (port : Nat) (value : Word)
  | retrain (src : Src) (port : Nat)
  | cntClear (src : Src) (port : Nat)
  | mgmtLogSel (src : Src) (value : Word)
  | recoveryGo (src : Src)
  | registerWrite (src : Src) (off size : Nat) (value : Dword)
  | hostAccess (src : Src) (addr size : Nat) (write : Option Dword)
  | identity
  | getVersion
  | getCapabilities
  | negotiateAlgorithms
  | getDigests
  | getCertificate (off len : Nat)
  | challenge (nonce : BitVec 256)
  | getMeasurements (index : Nat)
  | inBandInterrupt
  | pwrgoodRise
  | pwrgoodFall
  | verifyBootImage (img : BootImage)
  | perstAssert
  | perstDeassert
  | pcieLinkUp (cxl : Bool)
  | apertureTimeout (id : CmdId)
  | stackPowerUp (stack : Nat)
  | stackSelfTestDone (stack : Nat) (failCause : Nat)
  | wave (w : Nat)
  | ready
  | lampExit (stack : Nat)
  | lampTransitionDone (stack : Nat)
  | clockFault (monitor value : Nat)
  | voltageFault (monitor value : Nat)
  | thermalWarn (monitor value : Nat)
  | thermalTrip (monitor value : Nat)
  | originateMark
  | edgeMark (port : Nat) (crossings : Nat) (m : Mark)
  | fireEdge
  | plan (m : PlanMsg) (body : Plan)
  | lighthouseLost
  | standbyTakeover
  | domainHalted
  | buoyOperation (m : BuoyMsg)
  | waitRelease (core : Nat)
  | barrierArrival (m : BarrierMsg)
  | barrierRelease (m : BarrierMsg)
  | settle (job : Nat)
  | vote (m : VoteMsg)
  | voteTimeout (job : Nat)
  | progress (job : Nat)
  | verdict (m : VerdictMsg)
  | hold (job tick : Nat)
  | edgeAnnouncement (m : Announce)
  | replayEdge (job : Nat)
  | verdictQuery (job : Nat)
  | verdictQueryReceipt (job tick attempt : Nat)
  | verdictAnswer (m : VerdictMsg)
  | attemptDiscard (job : Nat)
  | killMessage (job : Nat) (clearAll : Bool)
  | join (port : Nat) (m : JoinMsg)
  | locked
  | signalLoss (port : Nat)
  | signalAppears (port : Nat)
  | trainingDone (port : Nat) (t : Training)
  | trainingTimeout (port : Nat) (t : Training)
  | frameDeparture (port slot pick : Nat)
  | dataFrame (port slot : Nat) (f : Frame) (fecOk : Bool) (crc : Nat)
  | release (port : Nat)
  | controlWord (port : Nat) (w : ControlIn)
  | resend (port slot : Nat)
  | linkRetry (port seq : Nat)
  | beaconFrame (port copy : Nat) (msg : BeaconMsg) (head : BeaconHead) (job : Nat) (fecOk : Bool) (crc : Nat)
  | remoteWrite (w : RemoteWrite)
  | shelfWrite (w : ShelfWrite)
  | remoteRead (r : RemoteRead)
  | scrub (near : Bool) (row : Nat) (upset : List (Nat × List Nat))
  | scrubWriteBack (word : Nat)
  | storeLate
  | nearLate
  | sectionVerified (id : CmdId) (inp : SectionIn)
  | layerRewrite (job : Nat) (part : LayerPart)
  | fill (job : Nat) (part : DrawerPart)
  | inputCopy (entry : Nat)
  | appendCopy (id : CmdId)
  | parkCopy (part : CopyPart)
  | resumeCopy (part : CopyPart)
  | trainedParameterWrite (job : Nat) (verified : Bool)
  | capture (job : Nat) (writeFailed : Bool)
  | clearing (job : Nat) (part : Nat)
  | digest (job tick value : Nat)
  | rangePairTimeout (job : Nat)
  | longWord (ctx : Nat) (agree : Bool)
  | take (core : Nat) (x : TakeIn)
  | credit (ctx : Nat)
  | queueStall (core : Nat) (queue : Nat)
  | mnop (core arr : Nat)
  | mload (core arr : Nat)
  | muse (core arr : Nat)
  | mouter (core arr : Nat)
  | mdrain (core arr : Nat)
  | mmerge (core arr : Nat)
  | vnop (core : Nat)
  | vchain (core : Nat)
  | vprog (core : Nat)
  | vred (core : Nat)
  | vperm (core : Nat)
  | vdraw (core : Nat)
  | vflag (core : Nat)
  | vtest (core : Nat)
  | bnop (core : Nat)
  | set (core : Nat)
  | add (core : Nat)
  | wait (core : Nat)
  | testAndSet (core : Nat)
  | clear (core : Nat)
  | barrier (core : Nat)
  | snop (core : Nat)
  | sbind (core : Nat)
  | sshelf (core : Nat)
  | smove (core : Nat)
  | hostTierMoveDone (core : Nat)
  | programLoaded (job : Nat) (verified : Bool)
  | configurationRequest
  | setdasa (addr : BitVec 7)
  | boundaryScan (op : Tap)
  deriving DecidableEq, Repr

end Sys2Proof
end

