-- ==== Sys2Proof/Decode.lean ====
section
/-! DEFINITION. Decoding of commands given as bits: spec/opcode_table.json gives no row any bits, so no word spells a command. -/

namespace Sys2Proof

/-- The command that `nbits` bits of value `w` spell: none, for every row of the table has no fields. -/
def decodeTableWord (_nbits _w : Nat) : Option Instr := none

end Sys2Proof
end

