-- ==== Sys2Proof/Machine/Crypto.lean ====
section
/-! DEFINITION. SHA-384, HMAC-SHA-384 and ECDSA P-384 verification, which 04_weights.md R91-R92, 10_contract.md R241 and 16_tenancy.md R382-R386 name (FIPS 180-4, FIPS 186; log entry 23). -/

namespace Sys2Proof.Machine

def shaK0 : List Nat :=
  [0x428A2F98D728AE22, 0x7137449123EF65CD, 0xB5C0FBCFEC4D3B2F, 0xE9B5DBA58189DBBC,
   0x3956C25BF348B538, 0x59F111F1B605D019, 0x923F82A4AF194F9B, 0xAB1C5ED5DA6D8118,
   0xD807AA98A3030242, 0x12835B0145706FBE, 0x243185BE4EE4B28C, 0x550C7DC3D5FFB4E2,
   0x72BE5D74F27B896F, 0x80DEB1FE3B1696B1, 0x9BDC06A725C71235, 0xC19BF174CF692694]
def shaK1 : List Nat :=
  [0xE49B69C19EF14AD2, 0xEFBE4786384F25E3, 0x0FC19DC68B8CD5B5, 0x240CA1CC77AC9C65,
   0x2DE92C6F592B0275, 0x4A7484AA6EA6E483, 0x5CB0A9DCBD41FBD4, 0x76F988DA831153B5,
   0x983E5152EE66DFAB, 0xA831C66D2DB43210, 0xB00327C898FB213F, 0xBF597FC7BEEF0EE4,
   0xC6E00BF33DA88FC2, 0xD5A79147930AA725, 0x06CA6351E003826F, 0x142929670A0E6E70]
def shaK2 : List Nat :=
  [0x27B70A8546D22FFC, 0x2E1B21385C26C926, 0x4D2C6DFC5AC42AED, 0x53380D139D95B3DF,
   0x650A73548BAF63DE, 0x766A0ABB3C77B2A8, 0x81C2C92E47EDAEE6, 0x92722C851482353B,
   0xA2BFE8A14CF10364, 0xA81A664BBC423001, 0xC24B8B70D0F89791, 0xC76C51A30654BE30,
   0xD192E819D6EF5218, 0xD69906245565A910, 0xF40E35855771202A, 0x106AA07032BBD1B8]
def shaK3 : List Nat :=
  [0x19A4C116B8D2D0C8, 0x1E376C085141AB53, 0x2748774CDF8EEB99, 0x34B0BCB5E19B48A8,
   0x391C0CB3C5C95A63, 0x4ED8AA4AE3418ACB, 0x5B9CCA4F7763E373, 0x682E6FF3D6B2B8A3,
   0x748F82EE5DEFB2FC, 0x78A5636F43172F60, 0x84C87814A1F0AB72, 0x8CC702081A6439EC,
   0x90BEFFFA23631E28, 0xA4506CEBDE82BDE9, 0xBEF9A3F7B2C67915, 0xC67178F2E372532B]
def shaK4 : List Nat :=
  [0xCA273ECEEA26619C, 0xD186B8C721C0C207, 0xEADA7DD6CDE0EB1E, 0xF57D4F7FEE6ED178,
   0x06F067AA72176FBA, 0x0A637DC5A2C898A6, 0x113F9804BEF90DAE, 0x1B710B35131C471B,
   0x28DB77F523047D84, 0x32CAAB7B40C72493, 0x3C9EBE0A15C9BEBC, 0x431D67C49C100D4C,
   0x4CC5D4BECB3E42B6, 0x597F299CFC657E2A, 0x5FCB6FAB3AD6FAEC, 0x6C44198C4A475817]

/-- Round constants of SHA-384. -/
def shaK : List Nat := shaK0 ++ shaK1 ++ shaK2 ++ shaK3 ++ shaK4

/-- Initial hash value of SHA-384. -/
def shaIv : List Nat :=
  [0xCBBB9D5DC1059ED8, 0x629A292A367CD507, 0x9159015A3070DD17, 0x152FECD8F70E5939,
   0x67332667FFC00B31, 0x8EB44A8768581511, 0xDB0C2E0D64F98FA7, 0x47B5481DBEFA4FA4]

def rotr64 (x n : Nat) : Nat := x / 2 ^ n ||| x % 2 ^ n * 2 ^ (64 - n)

/-- Padded message: the length in bits ends the last block of 128 bytes. -/
def shaPad (bs : List Byte) : List Byte :=
  let z := (111 + 128 - bs.length % 128) % 128
  bs ++ [0x80#8] ++ List.replicate z 0 ++ beBytes 16 (8 * bs.length)

/-- Message schedule, newest word first. -/
def shaSched (blk : List Byte) : List Nat :=
  let w0 := ((List.range 16).map (fun i => beNat ((blk.drop (8 * i)).take 8))).reverse
  let all := (List.range 64).foldl (fun (w : List Nat) _ =>
    let a := w.getD 14 0
    let b := w.getD 1 0
    let s0 := rotr64 a 1 ^^^ rotr64 a 8 ^^^ a / 2 ^ 7
    let s1 := rotr64 b 19 ^^^ rotr64 b 61 ^^^ b / 2 ^ 6
    ((w.getD 15 0 + s0 + w.getD 6 0 + s1) % 2 ^ 64) :: w) w0
  all.reverse

/-- The eight working words. -/
structure ShaW where
  a : Nat
  b : Nat
  c : Nat
  d : Nat
  e : Nat
  f : Nat
  g : Nat
  h : Nat

def shaRound (x : ShaW) (kw : Nat × Nat) : ShaW :=
  let s1 := rotr64 x.e 14 ^^^ rotr64 x.e 18 ^^^ rotr64 x.e 41
  let ch := (x.e &&& x.f) ^^^ ((2 ^ 64 - 1 - x.e) &&& x.g)
  let t1 := x.h + s1 + ch + kw.1 + kw.2
  let s0 := rotr64 x.a 28 ^^^ rotr64 x.a 34 ^^^ rotr64 x.a 39
  let mj := (x.a &&& x.b) ^^^ (x.a &&& x.c) ^^^ (x.b &&& x.c)
  ⟨(t1 + s0 + mj) % 2 ^ 64, x.a, x.b, x.c, (x.d + t1) % 2 ^ 64, x.e, x.f, x.g⟩

def shaBlock (h : List Nat) (blk : List Byte) : List Nat :=
  let g := fun i => h.getD i 0
  let r := (shaK.zip (shaSched blk)).foldl shaRound ⟨g 0, g 1, g 2, g 3, g 4, g 5, g 6, g 7⟩
  List.zipWith (fun x y => (x + y) % 2 ^ 64) h [r.a, r.b, r.c, r.d, r.e, r.f, r.g, r.h]

/-- SHA-384 of a list of bytes: its first byte is the most significant. -/
def sha384 (bs : List Byte) : BitVec 384 :=
  let m := shaPad bs
  let h := (List.range (m.length / 128)).foldl (fun h i => shaBlock h ((m.drop (128 * i)).take 128)) shaIv
  BitVec.ofNat 384 ((h.take 6).foldl (fun n w => n * 2 ^ 64 + w) 0)

/-- The 48 bytes of a digest, in the order they are stored. -/
def digestBytes (d : BitVec 384) : List Byte := beBytes 48 d.toNat

/-- HMAC-SHA-384 under a key of 48 bytes (R384). -/
def hmac384 (key : BitVec 384) (msg : List Byte) : BitVec 384 :=
  let k := digestBytes key ++ List.replicate 80 0
  sha384 (k.map (· ^^^ 0x5C#8) ++ digestBytes (sha384 (k.map (· ^^^ 0x36#8) ++ msg)))

/-! P-384. -/

def ecP : Nat := 2 ^ 384 - 2 ^ 128 - 2 ^ 96 + 2 ^ 32 - 1
def ecB : Nat := 0xB3312FA7E23EE7E4988E056BE3F82D19181D9C6EFE8141120314088F5013875AC656398D8A2ED19D2A85C8EDD3EC2AEF
def ecN : Nat := 0xFFFFFFFFFFFFFFFFFFFFFFFFFFFFFFFFFFFFFFFFFFFFFFFFC7634D81F4372DDF581A0DB248B0A77AECEC196ACCC52973
def ecGx : Nat := 0xAA87CA22BE8B05378EB1C71EF320AD746E1D3B628BA79B9859F741E082542A385502F25DBF55296C3A545E3872760AB7
def ecGy : Nat := 0x3617DE4A96262C6F5D9E98BF9292DC29F8F41DBD289A147CE9DA3113B5F0B8C00A60B1CE1D7E819D7A431D7C90EA0E5F

/-- b to the power e modulo m, for an exponent of 384 bits. -/
def powMod (b e m : Nat) : Nat :=
  (List.range 384).foldl (fun r i => let s := r * r % m; if bitOf e (383 - i) then s * b % m else s) 1

/-- A point in Jacobian coordinates; z = 0 is the point at infinity. -/
structure EcPt where
  x : Nat
  y : Nat
  z : Nat

def ecSub (a b : Nat) : Nat := (a + ecP - b % ecP) % ecP

def ecDouble (p : EcPt) : EcPt :=
  if p.z = 0 ∨ p.y = 0 then ⟨1, 1, 0⟩
  else
    let yy := p.y * p.y % ecP
    let s := 4 * p.x * yy % ecP
    let zz := p.z * p.z % ecP
    let m := 3 * ecSub p.x zz * (p.x + zz) % ecP
    let x := ecSub (m * m) (2 * s)
    ⟨x, ecSub (m * ecSub s x) (8 * yy * yy), 2 * p.y * p.z % ecP⟩

def ecAdd (p q : EcPt) : EcPt :=
  if p.z = 0 then q
  else if q.z = 0 then p
  else
    let zz1 := p.z * p.z % ecP
    let zz2 := q.z * q.z % ecP
    let u1 := p.x * zz2 % ecP
    let u2 := q.x * zz1 % ecP
    let s1 := p.y * zz2 * q.z % ecP
    let s2 := q.y * zz1 * p.z % ecP
    if u1 = u2 then (if s1 = s2 then ecDouble p else ⟨1, 1, 0⟩)
    else
      let h := ecSub u2 u1
      let r := ecSub s2 s1
      let hh := h * h % ecP
      let h3 := hh * h % ecP
      let v := u1 * hh % ecP
      let x := ecSub (ecSub (r * r) h3) (2 * v)
      ⟨x, ecSub (r * ecSub v x) (s1 * h3), h * p.z * q.z % ecP⟩

/-- k times a point. -/
def ecMul (k : Nat) (p : EcPt) : EcPt :=
  (List.range 384).foldl (fun r i => let d := ecDouble r; if bitOf k (383 - i) then ecAdd d p else d) ⟨1, 1, 0⟩

/-- Whether (x, y) is a point of the curve (R386). -/
def ecOn (x y : Nat) : Bool := decide (x < ecP) && decide (y < ecP) && y * y % ecP == (x * x * x + (ecP - 3) * x + ecB) % ecP

/-- ECDSA P-384: whether the signature (r, s) of a digest verifies under the public key (x, y). -/
def ecVerify (x y r s : Nat) (digest : BitVec 384) : Bool :=
  if !(ecOn x y) || r == 0 || s == 0 || decide (ecN ≤ r) || decide (ecN ≤ s) then false
  else
    let w := powMod s (ecN - 2) ecN
    let q := ecAdd (ecMul (digest.toNat * w % ecN) ⟨ecGx, ecGy, 1⟩) (ecMul (r * w % ecN) ⟨x, y, 1⟩)
    if q.z = 0 then false
    else
      let zi := powMod q.z (ecP - 2) ecP
      q.x * (zi * zi % ecP) % ecP % ecN == r

/-- A signature of 96 bytes over a digest, under a key of 96 bytes, both as two big-endian numbers (R92, R381). -/
def sigOk (key sig : List Byte) (digest : BitVec 384) : Bool :=
  ecVerify (beNat (key.take 48)) (beNat (key.drop 48)) (beNat (sig.take 48)) (beNat (sig.drop 48)) digest

end Sys2Proof.Machine
end

