-- ==== Sys2Proof/Machine/Crc.lean ====
section
/-! DEFINITION. The cyclic codes of the spec: CRC-16 of R221, CRC-32 of R319, CRC-64 of R347, and the draws of Philox (R199). -/

namespace Sys2Proof.Machine

/-- One bit entering a register of `w` bits, most significant bit first. -/
def crcBit (w poly reg : Nat) (b : Bool) : Nat :=
  let top := bitOf reg (w - 1)
  let sh := reg * 2 % 2 ^ w
  if top != b then sh ^^^ poly else sh

def crcByte (w poly reg : Nat) (b : Byte) : Nat :=
  [7, 6, 5, 4, 3, 2, 1, 0].foldl (fun r i => crcBit w poly r (b.getLsbD i)) reg

def crcOver (w poly init : Nat) (bs : List Byte) : Nat := bs.foldl (crcByte w poly) init

/-- CRC-16 of a long word (R221). -/
def crc16 (bs : List Byte) : Nat := crcOver 16 0x1021 0xFFFF bs

/-- The low `w` bits of a number in reverse order. -/
def mirrorBits (w n : Nat) : Nat := (List.range w).foldl (fun r i => 2 * r + n / 2 ^ i % 2) 0

/-- CRC-32 of IEEE 802.3 (R319): bytes enter least significant bit first, from all ones, and the register leaves mirrored and inverted. -/
def crc32 (bs : List Byte) : Nat :=
  mirrorBits 32 (bs.foldl (fun r b => [0, 1, 2, 3, 4, 5, 6, 7].foldl (fun r i => crcBit 32 0x04C11DB7 r (b.getLsbD i)) r) 0xFFFFFFFF) ^^^ 0xFFFFFFFF

/-- CRC-64 of ECMA-182, not reflected, initial value 0, no final inversion (R347). -/
def crc64 (bs : List Byte) : Nat := crcOver 64 0x42F0E1EBA9EA3693 0 bs

/-- One round of Philox-4x32 (R199): counter and key. -/
def philoxRound (x : (Nat × Nat × Nat × Nat) × Nat × Nat) : (Nat × Nat × Nat × Nat) × Nat × Nat :=
  let c := x.1
  let p0 := 0xD2511F53 * c.1
  let p1 := 0xCD9E8D57 * c.2.2.1
  ((p1 / 2 ^ 32 ^^^ c.2.1 ^^^ x.2.1, p1 % 2 ^ 32, p0 / 2 ^ 32 ^^^ c.2.2.2 ^^^ x.2.2, p0 % 2 ^ 32),
   (x.2.1 + 0x9E3779B9) % 2 ^ 32, (x.2.2 + 0xBB67AE85) % 2 ^ 32)

/-- First output word of Philox-4x32-10 for a draw record and a salt (R199). -/
def philox (seed step pos salt : Nat) : Nat :=
  ((List.range 10).foldl (fun x _ => philoxRound x)
    ((pos, step, salt, 0), seed % 2 ^ 32, seed / 2 ^ 32 % 2 ^ 32)).1.1

end Sys2Proof.Machine
end

