-- ==== Sys2Proof/Config.lean ====
section
/-! DEFINITION. What the part fixes (times in cycles of CCLK, 1.3 GHz, capacities) and the values the spec leaves open (opaque). -/

namespace Sys2Proof.Config

/-- Cycles of one microsecond (00_scope.md, Conventions: CCLK is 1.3 GHz). -/
def us : Nat := 1300
/-- Cycles of one millisecond. -/
def ms : Nat := 1300000
/-- One crossing of the stack ring (R24, R38, R66). -/
def ring : Nat := 30
/-- The domain hop, 310 ns (R24, R322). -/
def domainHop : Nat := 403
/-- The link hop of a latency profile (R322): 310 ns or 290 ns. -/
def hop (profile : Nat) : Nat := if profile = 2 then 377 else 403
/-- The store read of a latency profile (R64). -/
def storeRead (profile : Nat) : Nat := if profile = 2 then 22 else 26
/-- Settle time (R44). -/
def settle : Nat := 64
/-- Start of the aperture windows and size of one (R289). -/
def aperture : Nat := 0x9000000000
def apertureWindow : Nat := 0x40000000
def hostStore : Nat := 0x8000000000
def hostStoreSize : Nat := 0x20000000
def nearBase : Nat := 0x400000000
def statusBase : Nat := 0x500000000
def doorbellBase : Nat := 0x500010000
def setupBase : Nat := 0x500100000
def setupSize : Nat := 0x100000
/-- Where the model keeps the program store of stack `s` (no device address names it, R214). -/
def progBase (s : Nat) : Nat := 2 ^ 40 + s * 2 ^ 23
/-- What a byte of memory that nothing has written reads as. DESIGN CHOICE, log entry 2: zero (cleared SRAM, R62, R399). -/
def unlisted : Byte := 0

/-- A value the spec leaves open: nothing constrains it. Log entry 4. -/
opaque freeWord : Nat → BitVec 64
/-- A byte the spec leaves open. Log entry 4. -/
opaque freeByte : Nat → Byte
/-- The public key (x, then y) of a key pair derived from a 384-bit identifier (R384): the derivation is not stated. Log entry 13. -/
opaque deriveKey : BitVec 384 → BitVec 768
/-- An ECDSA signature made with a derived key (R384, R385): its nonce is not stated. Log entry 13. -/
opaque sign : BitVec 384 → BitVec 384 → Nat → BitVec 768
/-- Ticks after its entry into layer 0 in which a step passes a layer of a package (program digest, symbolic package, layer): how a program divides a step into stages is not stated anywhere that the device reads. Log entry 28. -/
opaque passTick : BitVec 384 → Nat → Nat → Nat

end Sys2Proof.Config
end

