-- ==== Sys2Proof/Machine/Numerics.lean ====
section
/-! DEFINITION. Exact values, the element formats and their one rounding (06_numerics.md R134-R137). -/

namespace Sys2Proof.Machine

/-- An exact value: NaN, an infinity, or (−1)^neg × m × 2^e (the sign of a zero is kept). -/
inductive Val where
  | nan
  | inf (neg : Bool)
  | fin (neg : Bool) (m : Nat) (e : Int)
  deriving DecidableEq, Repr

/-- The element formats of R134; `mxint8` is the MXINT8 element, a byte in units of 2^−6. -/
inductive Fmt where
  | b32 | b16 | bf16 | e4m3 | e5m2 | e3m2 | e2m3 | e2m1 | e8m0 | int8 | int32 | mxint8
  deriving DecidableEq, Repr

/-- Width of an element in bits (R134). -/
def fmtWidth : Fmt → Nat
  | .b32 => 32 | .b16 => 16 | .bf16 => 16 | .e4m3 => 8 | .e5m2 => 8 | .e3m2 => 6 | .e2m3 => 6 | .e2m1 => 4
  | .e8m0 => 8 | .int8 => 8 | .int32 => 32 | .mxint8 => 8

/-- Mantissa bits (R134). -/
def fmtMant : Fmt → Nat
  | .b32 => 23 | .b16 => 10 | .bf16 => 7 | .e4m3 => 3 | .e5m2 => 2 | .e3m2 => 2 | .e2m3 => 3 | .e2m1 => 1 | _ => 0

/-- Exponent bias (R134). -/
def fmtBias : Fmt → Int
  | .b32 => 127 | .b16 => 15 | .bf16 => 127 | .e4m3 => 7 | .e5m2 => 15 | .e3m2 => 3 | .e2m3 => 1 | .e2m1 => 1
  | .e8m0 => 127 | _ => 0

/-- Magnitude code of the largest finite value (R134). -/
def fmtMax : Fmt → Nat
  | .b32 => 0x7F7FFFFF | .b16 => 0x7BFF | .bf16 => 0x7F7F | .e4m3 => 0x7E | .e5m2 => 0x7B | .e3m2 => 0x1F
  | .e2m3 => 0x1F | .e2m1 => 0x7 | .e8m0 => 0xFE | .int8 => 127 | .int32 => 0x7FFFFFFF | .mxint8 => 127

/-- Magnitude code of infinity, where the format has one (R134). -/
def fmtInf : Fmt → Option Nat
  | .b32 => some 0x7F800000 | .b16 => some 0x7C00 | .bf16 => some 0x7F80 | .e5m2 => some 0x7C | _ => none

/-- The canonical NaN, where the format has one (R136). -/
def fmtNaN : Fmt → Option Nat
  | .b32 => some 0x7FC00000 | .b16 => some 0x7E00 | .bf16 => some 0x7FC0 | .e4m3 => some 0x7F | .e5m2 => some 0x7E
  | .e8m0 => some 0xFF | _ => none

def fmtIsInt : Fmt → Bool
  | .int8 => true | .int32 => true | .mxint8 => true | _ => false

/-- The exact value of an element code (R134). -/
def decodeVal (f : Fmt) (code : Nat) : Val :=
  match f with
  | .int8 => let i := signed 8 code; .fin (decide (i < 0)) i.natAbs 0
  | .int32 => let i := signed 32 code; .fin (decide (i < 0)) i.natAbs 0
  | .mxint8 => let i := signed 8 code; .fin (decide (i < 0)) i.natAbs (-6)
  | .e8m0 => if code % 256 = 255 then .nan else .fin false 1 ((code % 256 : Nat) - 127)
  | f =>
    let w := fmtWidth f
    let neg := bitOf code (w - 1)
    let mag := code % 2 ^ (w - 1)
    if fmtMax f < mag then
      (if fmtInf f = some mag then .inf neg else .nan)
    else
      let ex := mag / 2 ^ fmtMant f
      let man := mag % 2 ^ fmtMant f
      if ex = 0 then .fin neg man (1 - fmtBias f - fmtMant f)
      else .fin neg (2 ^ fmtMant f + man) ((ex : Int) - fmtBias f - fmtMant f)

/-- Round m × 2^e (a little more where `sticky`) to a whole number of 2^q, to nearest with ties to even: the number and whether it is inexact. -/
def rneAt (q : Int) (m : Nat) (e : Int) (sticky : Bool) : Nat × Bool :=
  if q ≤ e then (m * 2 ^ (e - q).toNat, sticky)
  else
    let sh := (q - e).toNat
    let keep := m / 2 ^ sh
    let rem := m % 2 ^ sh
    let half := 2 ^ (sh - 1)
    let up := half < rem || (rem == half && (sticky || keep % 2 == 1))
    (keep + b2n up, rem != 0 || sticky)

/-- What a rounding did: code of the result, whether it overflowed, was inexact, and was tiny after rounding (R137, R156). -/
structure Rounded where
  code : Nat
  ovf : Bool
  inexact : Bool
  tiny : Bool
  deriving DecidableEq, Repr

/-- Round a finite magnitude once into a floating format; `ovf` says that the rounded magnitude exceeds the largest finite value (R137). -/
def roundMag (f : Fmt) (m : Nat) (e : Int) (sticky : Bool) : Rounded :=
  if m = 0 then ⟨0, false, sticky, sticky⟩
  else
    let p : Int := fmtMant f
    let qmin : Int := 1 - fmtBias f - p
    let q0 : Int := (Nat.log2 m : Int) + e - p
    let q := max q0 qmin
    let r := rneAt q m e sticky
    let code := (q - qmin).toNat * 2 ^ fmtMant f + r.1
    let u := rneAt q0 m e sticky
    -- rounded to the format's precision with the exponent unbounded, against the smallest normal 2^(qmin + p)
    let tiny := decide ((Nat.log2 u.1 : Int) + q0 < qmin + p)
    ⟨code, decide (fmtMax f < code), r.2, tiny⟩

/-- The four sticky flags of a vector lane, at the bits of `VFLAG` (R156, R203). -/
abbrev VFlags := BitVec 4

def fInvalid : VFlags := 1
def fDivZero : VFlags := 2
def fOverflow : VFlags := 4
def fUnderflow : VFlags := 8

def withSign (f : Fmt) (neg : Bool) (code : Nat) : Nat := if neg then 2 ^ (fmtWidth f - 1) + code else code

/-- Round to the nearest integer, ties to even, clamped to `w` bits; the two's complement code (R137). -/
def roundInt (w : Nat) (neg : Bool) (m : Nat) (e : Int) (sticky : Bool) : Nat × Bool :=
  let r := (rneAt 0 m e sticky).1
  let lim := if neg then 2 ^ (w - 1) else 2 ^ (w - 1) - 1
  let k := min r lim
  (unsigned w (if neg then -(k : Int) else k), decide (lim < r))

/-- One conversion of an exact value (with a sticky remainder) into a format: its code and the flags of R137, R156 and R184. -/
def roundTo (f : Fmt) (v : Val) (sticky : Bool) : Nat × VFlags :=
  match v with
  | .nan =>
    match fmtNaN f with
    | some c => (c, 0)
    | none => (0, fInvalid)
  | .inf neg =>
    if fmtIsInt f then (if neg then 2 ^ (fmtWidth f - 1) else fmtMax f, 0)
    else withSign f neg ((fmtInf f).getD (fmtMax f)) |> (·, 0)
  | .fin neg m e =>
    if fmtIsInt f then
      let r := roundInt (fmtWidth f) neg m (if f = .mxint8 then e + 6 else e) sticky
      (r.1, if r.2 then fOverflow else 0)
    else
      let r := roundMag f m e sticky
      if r.ovf then
        (withSign f neg (if f = .e5m2 then fmtMax f else (fmtInf f).getD (fmtMax f)), fOverflow)
      else (withSign f neg r.code, if r.tiny && r.inexact then fUnderflow else 0)

/-- ⌊log2 of the magnitude⌋ of a nonzero finite value (R139). -/
def valExp (m : Nat) (e : Int) : Int := (Nat.log2 m : Int) + e

/-- Align two mantissas to the smaller exponent. -/
def align (m1 : Nat) (e1 : Int) (m2 : Nat) (e2 : Int) : Nat × Nat × Int :=
  let e := min e1 e2
  (m1 * 2 ^ (e1 - e).toNat, m2 * 2 ^ (e2 - e).toNat, e)

/-- Exact product; the truth value says that a zero met an infinity (R146, R151). -/
def valMul (a b : Val) : Val × Bool :=
  match a, b with
  | .nan, .inf _ => (.nan, false)
  | .nan, _ => (.nan, false)
  | _, .nan => (.nan, false)
  | .inf s, .inf t => (.inf (s != t), false)
  | .inf s, .fin t m _ => if m = 0 then (.nan, true) else (.inf (s != t), false)
  | .fin s m _, .inf t => if m = 0 then (.nan, true) else (.inf (s != t), false)
  | .fin s m e, .fin t n g => (.fin (s != t) (m * n) (e + g), false)

/-- Exact sum; the truth value says that infinities of opposite sign met. A zero sum is +0 unless both addends are −0 (R151). -/
def valAdd (a b : Val) : Val × Bool :=
  match a, b with
  | .nan, _ => (.nan, false)
  | _, .nan => (.nan, false)
  | .inf s, .inf t => if s = t then (.inf s, false) else (.nan, true)
  | .inf s, .fin _ _ _ => (.inf s, false)
  | .fin _ _ _, .inf t => (.inf t, false)
  | .fin s m e, .fin t n g =>
    let r := align m e n g
    let x : Int := if s then -(r.1 : Int) else r.1
    let y : Int := if t then -(r.2.1 : Int) else r.2.1
    let z := x + y
    if z = 0 then (.fin (s && t && m == 0 && n == 0) 0 0, false) else (.fin (decide (z < 0)) z.natAbs r.2.2, false)

def valNeg : Val → Val
  | .nan => .nan
  | .inf s => .inf (!s)
  | .fin s m e => .fin (!s) m e

def valIsNaN : Val → Bool
  | .nan => true
  | _ => false

/-- Numeric order of two values that are not NaN, −0 below +0 (R151, R155): whether a is below b. -/
def valLt (a b : Val) : Bool :=
  match a, b with
  | .nan, _ => false
  | _, .nan => false
  | .inf s, .inf t => s && !t
  | .inf s, .fin _ _ _ => s
  | .fin _ _ _, .inf t => !t
  | .fin s m e, .fin t n g =>
    let r := align m e n g
    if s && !t then true
    else if !s && t then false
    else if s then decide (r.2.1 < r.1) else decide (r.1 < r.2.1)

/-- Numeric equality with −0 = +0 and NaN unordered (R151). -/
def valEq (a b : Val) : Bool :=
  match a, b with
  | .inf s, .inf t => s == t
  | .fin s m e, .fin t n g =>
    let r := align m e n g
    r.1 == r.2.1 && (s == t || r.1 == 0)
  | _, _ => false

/-- ⌊√n⌋ by digits of the result, the highest first. -/
def isqrtAux : Nat → Nat → Nat → Nat
  | 0, _, r => r
  | b + 1, n, r =>
    let r' := r + 2 ^ b
    if r' * r' ≤ n then isqrtAux b n r' else isqrtAux b n r

def isqrt (n : Nat) : Nat := isqrtAux (Nat.log2 n / 2 + 1) n 0

end Sys2Proof.Machine
end

