-- ==== Sys2Proof/Machine/CoreState.lean ====
section
/-! DEFINITION. State of a core, a Keeper context, buoys and barrier groups (03, 07, 08, 09 and 02 of spec/). -/

namespace Sys2Proof.Machine

/-- A slot waiting in an engine queue: its 64 bits, the long-word address, the cycle of the take (R225). -/
structure QSlot where
  w : Dword
  lw : Nat
  taken : Nat
  deriving DecidableEq, Repr

/-- A long word in an inbound FIFO: header, slots in order M0, M1, V, S, B, C of the bits of PRESENT, address, arrival cycle, the CRC that travels beside it, and whether the core has checked it (R219-R223). -/
structure FWord where
  hdr : Word
  slots : List Dword
  lw : Nat
  arrive : Nat
  crc : Nat
  checked : Bool
  deriving DecidableEq, Repr

/-- A binding of a stream (R231-R236): 0 none, 1 address program, 2 shelf read, 3 shelf write. `seed`: of a gather, the index that the iteration at the cursor took (R232). -/
structure Bind where
  kind : Nat
  desc : List Byte
  rotOff : Nat
  shelf : Nat
  slot : Nat
  drain : Bool
  core : Nat
  cursor : Nat
  seed : Option Nat
  deriving DecidableEq, Repr

def Bind.none : Bind := ⟨0, [], 0, 0, 0, false, 0, 0, Option.none⟩

/-- A stream: its binding, and the binding that claims of cycle `at_` still see (R235). What holds it is told by the slots in flight (R234). -/
structure Stream where
  cur : Bind
  old : Bind
  at_ : Nat
  deriving DecidableEq, Repr

def Stream.unbound : Stream := ⟨Bind.none, Bind.none, 0⟩

/-- A window entry as it stands after its last change and before it; the change is seen from the cycle after `at_` (R78, R79). -/
structure WinState where
  cur : Window
  old : Window
  at_ : Nat
  deriving DecidableEq, Repr

/-- A shelf slot's guard: FULL or EMPTY since the cycle after `at_`, the opposite before (R73-R75). -/
structure Guard where
  full : Bool
  at_ : Nat
  deriving DecidableEq, Repr

/-- One accumulator with its flags, special bits and anchor (R143-R148). `live`: it holds a reduction. -/
structure Lane where
  sum : BitVec 152
  inexact : Bool
  ovf : Bool
  nan : Bool
  pinf : Bool
  ninf : Bool
  anchor : Int
  live : Bool
  deriving DecidableEq, Repr

def Lane.zero : Lane := ⟨0, false, false, false, false, false, 0, false⟩

/-- A tile in an array (R157, R163-R165): format code, exact scaled weights in logical-row order (32 per row), checksum sums per logical row and per column
as formed from the loaded data (R174, R178), weight term. -/
structure Tile where
  fmt : Nat
  weights : List Val
  sums : List Val
  colSums : List Val
  term : Int
  deriving DecidableEq, Repr

/-- A load wave (R164): the tile it brings, the cycle from which each of its six groups is in hand, the rows that have entered, the entry cycle of its last row. -/
structure LoadWave where
  tile : Nat
  hand : List Nat
  rows : Nat
  lastIn : Nat
  deriving DecidableEq, Repr

/-- A vector in the wave (R160, R170-R175): its slot in flight, its number there, the nominal entry cycle, the use cycle, the cycles in which it has entered the
cell rows (columns, in transposed reading) so far, and the lanes whose sums are added; one more lane stands for its comparison. -/
structure Vec where
  fl : Nat
  t : Nat
  due : Nat
  k : Nat
  rows : List Nat
  cols : Nat
  deriving DecidableEq, Repr

/-- A vector of results that waits for the drain (R161): its slot in flight, its number there, the entry (or row of cells) it leaves, of a use the cycle in which
each lane so far enters the drain, beats gone. -/
structure Drain where
  fl : Nat
  t : Nat
  place : Nat
  cells : Bool
  ins : Option (List Nat)
  beat : Nat
  deriving DecidableEq, Repr

/-- One matrix array (R160-R175). `tiles`: tiles by load number, the active and the shadow one among them; `loads`: load waves on their way, oldest first; `next`: no slot issues before it; `ready`: no use
before it; `tokens`: tokens that each row of cells has accumulated; `rowFree`, `colFree`: the cycle from which each row and each lane takes its next vector; `frozeAt`: the first of the
frozen cycles up to now. -/
structure MArray where
  tiles : Tab Tile
  active : Option Nat
  shadow : Option Nat
  loads : List LoadWave
  acc : Tab (List Lane)
  cells : Tab Lane
  tokens : Tab Nat
  next : Nat
  ready : Nat
  wave : List Vec
  drains : List Drain
  rowFree : List Nat
  colFree : List Nat
  frozeAt : Option Nat
  deriving DecidableEq, Repr

def MArray.empty : MArray := ⟨[], none, none, [], [], [], [], 0, 0, [], [], [], [], none⟩

/-- How a slot may reach memory: a vector engine, a matrix array, or the move unit (R234). -/
inductive Reach where
  | nearOnly | own | move
  deriving DecidableEq, Repr

/-- An operand element: its code, the scale code of its MX block, the byte address it came from. -/
structure Opnd where
  code : Nat
  scale : Option Nat
  addr : Option Nat
  deriving DecidableEq, Repr

def Opnd.zero : Opnd := ⟨0, none, none⟩

/-- A stream as a slot in flight uses it (R234): number, binding at the claim (its cursor is the slot's first element), element width, MX code, reach; lines
held since the last read (R185); the elements read, the first of them number `base`; for a gather, the operand that its indices come from, and the index in hand where the slot begins inside an
iteration (R232, R233). -/
structure OpStr where
  sid : Nat
  bind : Bind
  w : Nat
  mx : Option Nat
  reach : Reach
  ix : Option Nat
  seed : Option Nat
  lines : List (Nat × List Byte)
  base : Nat
  got : List Opnd
  deriving DecidableEq, Repr

/-- What a slot in flight does in a cycle: read elements of an operand, compute a unit, write element codes or MX blocks, finish the second cycle of a partial
write (R69), read a beat of a move and write one, write `n` bytes from byte `lo` of elements, take `n` granules of a store row for the expander, read block headers, fill the transpose buffer,
stay in flight. -/
inductive Act where
  | read (o k n : Nat)
  | calc (u : Nat)
  | write (o k : Nat) (codes : List Nat)
  | writeMx (o k n : Nat) (blocks : List (Nat × List Nat))
  | land (ws : List (Nat × List Byte))
  | fetch (b : Nat)
  | beat (b : Nat)
  | part (o k lo n : Nat) (codes : List Nat)
  | lines (o k n : Nat)
  | row (addr n : Nat)
  | heads (addr n : Nat)
  | stay
  deriving DecidableEq, Repr

/-- An act and its cycle. -/
structure Todo where
  at_ : Nat
  act : Act
  deriving DecidableEq, Repr

/-- A slot in flight: its number on this core, its slot and ordinal, its engine, issue cycle, operands (inputs first; the outputs from number `outs` on, held
until its last act), acts to come, bytes written so far, faults it has reported, values carried from one unit to the next, and for a load or use the tile it
names. -/
structure Flight where
  id : Nat
  slot : QSlot
  ord : Nat
  eng : Nat
  start : Nat
  ops : List OpStr
  outs : Nat
  todo : List Todo
  out : List (Nat × List Byte)
  told : List Nat
  carry : List (List Nat)
  tile : Nat
  deriving DecidableEq, Repr

/-- What has reached a core over the mesh (R66, R70). `write`: bytes of a remote write of `len` bytes from `lo`; `shelf`: bytes of a shelf write of `len` bytes, from byte `off` of its slot; `piece`: bytes of an admitted transfer from another package; with its last bytes the shelf slot, if it names one, is FULL; `back`: bytes of a read response. -/
inductive Arrival where
  | write (w : RemoteWrite) (lo len : Nat)
  | shelf (w : ShelfWrite) (off len : Nat)
  | piece (addr : Nat) (data : List Byte) (full : Option (Nat × Nat))
  | back (addr : Nat) (data : List Byte)
  | read (r : RemoteRead)
  deriving DecidableEq, Repr

/-- An arrival at the ejection port: the cycle of its arrival, bytes that have entered, whether its first line was admitted (R66, R70, R80). -/
structure Arr where
  at_ : Nat
  what : Arrival
  done : Nat
  ok : Bool
  deriving DecidableEq, Repr

/-- An access in the remote queue of a slice (R65): a row's bytes to write, or a read with the bytes of the rows it has had. -/
inductive RemAcc where
  | write (addr : Nat) (data : List Byte)
  | read (r : RemoteRead) (got : List Byte)
  deriving DecidableEq, Repr

/-- Flags a lane raises in cycle `at_` (R203). -/
structure FlagSet where
  at_ : Nat
  lane : Nat
  fl : VFlags
  deriving DecidableEq, Repr

/-- A write of predicate `p` in cycle `at_`, from the slot of order `ord` (M0 0, M1 1, V 2, S 3, B 4, C 5; R205, R227). -/
structure PredW where
  at_ : Nat
  ord : Nat
  p : Nat
  val : Bool
  deriving DecidableEq, Repr

/-- A move to or from the host tier in progress (R237): the streams it holds, where its data goes, the data, whether and where it notifies. -/
structure HostMove where
  sids : List Nat
  dst : List (Nat × List Byte)
  notify : Bool
  buoy : Nat
  lw : Nat
  attempt : Nat
  tick : Nat
  bad : Bool
  deriving DecidableEq, Repr

/-- A record of a slot that wrote memory (R347, R350). -/
structure LogRec where
  hash : Nat
  lw : Nat
  eng : Nat
  ord : Nat
  deriving DecidableEq, Repr

/-- A buoy operation on its way to its buoy on this package (R37, R38): the cycle in which it takes effect at the earliest, the operation, and for one issued here its engine, long word and the predicate of a TEST_AND_SET. -/
structure BuoyIn where
  at_ : Nat
  m : BuoyMsg
  eng : Nat
  lw : Nat
  pd : Nat
  deriving DecidableEq, Repr

/-- A core (01_package.md R17; 09_keeper.md R222-R229). `flights`: slots in flight, oldest first; `nextId`: number of the next; `xRead`, `xPrev`: next free read
cycle of the expander and the cycle of the last group it emitted (R122); `shift`: rows by which groups of the attempt exceeded their budgets (R126); `heads`: the row of block headers in hand (R121); `bundle`: the
cycle from which the bundle is free of the program's accesses (R63); `eject`: arrivals at the mesh ejection port (R70); `remq`: the remote queue of the slice
(R65); `replies`: rows read for other cores on their way out (cycle, read, bytes; R66); `landing`: writes under way (key, bytes to come, admitted; R80); `back`: bytes that the core's present read of another package has brought (address, bytes); `used`: bundle cycles that program accesses took in the present
block of 1,024 (R86); `bFree`: the cycle at which the held WAIT or BARRIER is released, once that is settled (R38, R42); `doneSaid`: the core has added to its stack's done buoy (R44); `upsets`: errors that no check has met yet, or that stay until the loader rewrites the thing, with whether a check has failed on each (R206, R356). -/
structure Core where
  fifo : List FWord
  dead : Bool
  ended : Bool
  lastTake : Nat
  lastWait : Nat
  lastLw : Option Nat
  takeTimes : List Nat
  m0 : List QSlot
  m1 : List QSlot
  v : List QSlot
  s : List QSlot
  b : List QSlot
  vReady : Nat
  sReady : Nat
  bReady : Nat
  moveReady : Nat
  bHeld : Option Nat
  bFree : Option Nat
  doneSaid : Bool
  issued : Tab Nat
  preds : List PredW
  streams : Tab Stream
  wins : Tab WinState
  guards : Tab Guard
  a0 : MArray
  a1 : MArray
  flags : List FlagSet
  flights : List Flight
  nextId : Nat
  xRead : Nat
  xPrev : Nat
  shift : Nat
  heads : Option Nat
  bundle : Nat
  eject : List Arr
  remq : List RemAcc
  replies : List (Nat × RemoteRead × List Byte)
  landing : List (Nat × Nat × Bool)
  back : List (Nat × List Byte)
  used : Nat
  moves : List HostMove
  recs : List LogRec
  idleTill : Nat
  retireAt : Nat
  upsets : List (Upset × Bool)
  deriving DecidableEq, Repr

/-- A core as every attempt finds it (R238): nothing in flight, predicates false, streams unbound, windows closed until the declared set is opened. -/
def Core.idle : Core :=
  ⟨[], false, false, 0, 0, none, [], [], [], [], [], [], 0, 0, 0, 0, none, none, false, [], [], [], [], [],
   MArray.empty, MArray.empty, [], [], 0, 0, 0, 0, none, 0, [], [], [], [], [], 0, [], [], 0, 0, []⟩

/-- A Keeper issue context (09_keeper.md R211-R223). -/
structure Ctx where
  job : Nat
  bands : BitVec 16
  run : Bool
  pc : Nat
  k : Tab Word
  loops : List (Nat × Nat × Nat)
  calls : List (Nat × Nat)
  sent : Nat
  back : Nat
  nextAt : Nat
  region : Nat × Nat
  deriving DecidableEq, Repr

def Ctx.free : Ctx := ⟨0, 0, false, 0, [], [], [], 0, 0, 0, (0, 0)⟩

/-- A barrier group (02_beacon.md R41, R42): job, member bands on each package, phase, member cores that arrived in the phase (global core addresses); the cycle in which the latest arrival reached the root, and the cycle of the fall once all have arrived (R42). -/
structure Bar where
  job : Nat
  members : List (Nat × Nat)
  phase : Nat
  arrived : List Nat
  rootAt : Nat
  fall : Option Nat
  deriving DecidableEq, Repr

def Bar.free : Bar := ⟨0, [], 0, [], 0, none⟩

/-- A buoy (R33): its value, the job that owns it (0: none) and its declared initial value. -/
structure Buoy where
  val : Word
  job : Nat
  init : Word
  deriving DecidableEq, Repr

def Buoy.free : Buoy := ⟨0, 0, 0⟩

end Sys2Proof.Machine
end

