-- ==== Sys2Proof/Machine/Flags.lean ====
section
/-! DEFINITION. Binary32 arithmetic of the vector engine with its sticky flags (06_numerics.md R151-R156). -/

namespace Sys2Proof.Machine

/-- A binary32 result and the flags it raises. -/
abbrev FRes := Nat × VFlags

def b32 (w : Nat) : Val := decodeVal .b32 w

/-- Round an exact value once to binary32 (R151). -/
def fround (v : Val) : FRes := roundTo .b32 v false

/-- Deliver an exact value, with INVALID where `bad`. -/
def fgive (r : Val × Bool) : FRes :=
  let q := fround r.1
  (q.1, if r.2 then q.2 ||| fInvalid else q.2)

def fadd (a b : Nat) : FRes := fgive (valAdd (b32 a) (b32 b))

def fneg (a : Nat) : Nat := if bitOf a 31 then a - 2 ^ 31 else a + 2 ^ 31

def fabs (a : Nat) : Nat := a % 2 ^ 31

def fsub (a b : Nat) : FRes := fgive (valAdd (b32 a) (valNeg (b32 b)))

def fmul (a b : Nat) : FRes := fgive (valMul (b32 a) (b32 b))

/-- a × b + c with one rounding; a zero times an infinity sets INVALID even when c is NaN (R151). -/
def fma (a b c : Nat) : FRes :=
  let p := valMul (b32 a) (b32 b)
  let s := valAdd p.1 (b32 c)
  fgive (s.1, p.2 || s.2)

/-- The exact sum of two exact products, rounded once: a component of a complex multiply (R151). -/
def fdot2 (a b c d : Nat) (subtract : Bool) : FRes :=
  let p := valMul (b32 a) (b32 b)
  let q := valMul (b32 c) (b32 d)
  let s := valAdd p.1 (if subtract then valNeg q.1 else q.1)
  fgive (s.1, p.2 || q.2 || s.2)

/-- n / d (both positive) with 80 bits more than the quotient needs, its exponent and its sticky bit. -/
def quot (n : Nat) (ne : Int) (d : Nat) (de : Int) : Nat × Int × Bool :=
  let k := 80 + Nat.log2 d
  let q := n * 2 ^ k / d
  (q, ne - de - k, q * d != n * 2 ^ k)

/-- Division (R151), IEEE 754 in the exceptional cases. -/
def fdiv (a b : Nat) : FRes :=
  match b32 a, b32 b with
  | .nan, _ => fround .nan
  | _, .nan => fround .nan
  | .inf _, .inf _ => ((fround .nan).1, fInvalid)
  | .inf s, .fin t _ _ => fround (.inf (s != t))
  | .fin s _ _, .inf t => fround (.fin (s != t) 0 0)
  | .fin s m e, .fin t n g =>
    if n = 0 then
      (if m = 0 then ((fround .nan).1, fInvalid) else ((fround (.inf (s != t))).1, fDivZero))
    else if m = 0 then fround (.fin (s != t) 0 0)
    else
      let q := quot m e n g
      roundTo .b32 (.fin (s != t) q.1 q.2.1) q.2.2

/-- Square root (R151). -/
def fsqrt (a : Nat) : FRes :=
  match b32 a with
  | .nan => fround .nan
  | .inf false => fround (.inf false)
  | .inf true => ((fround .nan).1, fInvalid)
  | .fin s m e =>
    if m = 0 then fround (.fin s 0 0)
    else if s then ((fround .nan).1, fInvalid)
    else
      let odd := decide (e % 2 = 1)
      let m' := if odd then 2 * m else m
      let e' := if odd then e - 1 else e
      let n := m' * 2 ^ 80
      let r := isqrt n
      roundTo .b32 (.fin false r (e' / 2 - 40)) (r * r != n)

/-- MIN and MAX of two operands: canonical NaN when either is NaN (R151). -/
def fmin (a b : Nat) : Nat :=
  if valIsNaN (b32 a) || valIsNaN (b32 b) then 0x7FC00000 else if valLt (b32 b) (b32 a) then b else a

def fmax (a b : Nat) : Nat :=
  if valIsNaN (b32 a) || valIsNaN (b32 b) then 0x7FC00000 else if valLt (b32 a) (b32 b) then b else a

/-- Order of R155 for argmax and top-k: every NaN above +Infinity, all NaNs equal. -/
def rankLt (a b : Nat) : Bool :=
  match valIsNaN (b32 a), valIsNaN (b32 b) with
  | true, _ => false
  | false, true => true
  | false, false => valLt (b32 a) (b32 b)

/-- EXPO (R153) as a signed integer. -/
def expo (a : Nat) : Int :=
  match b32 a with
  | .fin _ m e => if m = 0 then -150 else valExp m e
  | _ => 128

end Sys2Proof.Machine
end

