-- ==== Sys2Proof/Machine/Mx.lean ====
section
/-! DEFINITION. Format codes of slots, MX blocks and their conversion (05_expander.md R131-R133; 06_numerics.md R134, R135; 08_vector.md R184). -/

namespace Sys2Proof.Machine

/-- Element format of a stream format code (R184); codes 0x0 to 0xD are those of M slots too (R180). -/
def elemFmt (code : Nat) : Fmt :=
  match code with
  | 0 => .bf16 | 1 => .b16 | 2 => .e4m3 | 3 => .e5m2 | 4 => .e3m2 | 5 => .e2m3 | 6 => .e2m1 | 7 => .int8
  | 8 => .e4m3 | 9 => .e5m2 | 10 => .e3m2 | 11 => .e2m3 | 12 => .e2m1 | 13 => .mxint8 | 14 => .b32 | _ => .int32

def isMx (code : Nat) : Bool := decide (8 ≤ code) && decide (code ≤ 13)

def elemWidth (code : Nat) : Nat := fmtWidth (elemFmt code)

/-- emax of an MX format (R132, R184). -/
def mxEmax (code : Nat) : Int :=
  match code with
  | 8 => 8 | 9 => 15 | 10 => 4 | 11 => 2 | 12 => 2 | _ => 0

/-- Bytes of the elements of one MX block (R135). -/
def mxBlockBytes (code : Nat) : Nat := 32 * elemWidth code / 8

/-- Scale byte offset and element bit offset of element `i` of MX data of `n` elements: units of up to eight blocks, scales first (R131, R135). -/
def mxPlace (code n i : Nat) : Nat × Nat :=
  let bb := mxBlockBytes code
  let blocks := cdiv n 32
  let blk := i / 32
  let unit := blk / 8
  let inUnit := min 8 (blocks - unit * 8)
  let base := unit * 8 * (1 + bb)
  (base + blk % 8, 8 * (base + inUnit + blk % 8 * bb) + i % 32 * elemWidth code)

/-- Scale a value by the E8M0 code of its block; 0xFF makes it NaN (R134). -/
def mxScaled (scale : Nat) (v : Val) : Val :=
  if scale = 0xFF then .nan
  else match v with
    | .fin s m e => .fin s m (e + (scale : Int) - 127)
    | v => v

/-- Largest exponent ⌊log2 |v|⌋ of the nonzero values of a block, none when every value is zero. -/
def blockExp (vs : List Val) : Option Int :=
  vs.foldl (fun r v => match v with
    | .fin _ m e => if m = 0 then r else (match r with | none => some (valExp m e) | some x => some (max x (valExp m e)))
    | _ => r) none

def anySpecial (vs : List Val) : Bool := vs.any (fun v => match v with | .fin _ _ _ => false | _ => true)

/-- One block to MX: scale code, element codes, and the flags of each element (R132). -/
def mxBlock (code : Nat) (vs : List Val) : Nat × List (Nat × VFlags) :=
  let f := elemFmt code
  if anySpecial vs then (0xFF, vs.map (fun _ => (0, 0)))
  else match blockExp vs with
    | none => (0, vs.map (fun v => match v with | .fin s _ _ => (if f = .mxint8 then 0 else withSign f s 0, 0) | _ => (0, 0)))
    | some x0 =>
      let x := max (-127) (min 127 (x0 - mxEmax code))
      ((x + 127).toNat, vs.map (fun v => match v with
        | .fin s m e =>
          if f = .mxint8 then
            let r := (rneAt 0 m (e - x + 6) false).1
            let k := min r 127
            (unsigned 8 (if s then -(k : Int) else k), if 127 < r then fOverflow else 0)
          else
            let r := roundMag f m (e - x) false
            if r.ovf then (withSign f s (fmtMax f), fOverflow)
            else (withSign f s r.code, if r.tiny && r.inexact then fUnderflow else 0)
        | _ => (0, 0)))

/-- Bits of element codes packed low element first (R135), as bytes. -/
def packBits (w : Nat) (codes : List Nat) : List Byte :=
  let n := (codes.foldr (fun c acc => acc * 2 ^ w + c % 2 ^ w) 0)
  leBytes (cdiv (w * codes.length) 8) n

def unpackBits (w n : Nat) (bs : List Byte) : List Nat :=
  let v := leNat bs
  (List.range n).map (fun i => v / 2 ^ (w * i) % 2 ^ w)

/-- Split a list in pieces of `k`, by fuel. -/
def chunksAux {α : Type} : Nat → Nat → List α → List (List α)
  | 0, _, _ => []
  | fuel + 1, k, l => if l.isEmpty then [] else l.take k :: chunksAux fuel k (l.drop k)

def chunks {α : Type} (k : Nat) (l : List α) : List (List α) := chunksAux (l.length + 1) k l

/-- Values to MX bytes, the last block padded with zeros (R131). -/
def toMx (code : Nat) (vs : List Val) : List Byte :=
  let blocks := (chunks 32 vs).map (fun b => mxBlock code (b ++ List.replicate (32 - b.length) (Val.fin false 0 0)))
  (chunks 8 blocks).flatMap (fun u =>
    u.map (fun b => BitVec.ofNat 8 b.1) ++ u.flatMap (fun b => packBits (elemWidth code) (b.2.map Prod.fst)))

/-- MX bytes back to `n` exact values (R133). -/
def fromMx (code n : Nat) (bs : List Byte) : List Val :=
  (List.range n).map (fun i =>
    let p := mxPlace code n i
    let sc := field bs p.1 1
    let el := leNat ((bs.drop (p.2 / 8)).take 3) / 2 ^ (p.2 % 8) % 2 ^ elemWidth code
    mxScaled sc (decodeVal (elemFmt code) el))

end Sys2Proof.Machine
end

