-- ==== Sys2Proof/Machine/Accum.lean ====
section
/-! DEFINITION. Anchored accumulation: products, records, rounding, checksum (06_numerics.md R139-R149; 07_matrix.md R178). -/

namespace Sys2Proof.Machine

/-- A magnitude m × 2^e in units of 2^(a − 102), truncated toward zero, and whether a bit was lost (R144). -/
def toUnits (a : Int) (m : Nat) (e : Int) : Nat × Bool :=
  let w := a - 102
  if w ≤ e then (m * 2 ^ (e - w).toNat, false)
  else
    let sh := (w - e).toNat
    (m / 2 ^ sh, m % 2 ^ sh != 0)

def addSum (s : BitVec 152) (neg : Bool) (u : Nat) : BitVec 152 :=
  if neg then s - BitVec.ofNat 152 u else s + BitVec.ofNat 152 u

/-- Add one exact product to an accumulator (R144-R146); `big` limits it to ±2^(a + 2) with OVERFLOW (R145), as the checksum column does not (R178). -/
def accProduct (big : Bool) (l : Lane) (p : Val × Bool) : Lane :=
  match p.1 with
  | .nan => { l with nan := true, live := true }
  | .inf true => { l with ninf := true, live := true }
  | .inf false => { l with pinf := true, live := true }
  | .fin s m e =>
    let u := toUnits l.anchor m e
    let l := { l with inexact := l.inexact || u.2, live := true }
    if big && m != 0 && decide (l.anchor + 2 ≤ valExp m e) then { l with sum := addSum l.sum s (2 ^ 104), ovf := true }
    else { l with sum := addSum l.sum s u.1 }

def laneSpecial (l : Lane) : Bool := l.nan || l.pinf || l.ninf

/-- Combine a record into an accumulator (R148); `none` when the anchors differ. A lane that holds nothing takes the record's anchor. -/
def laneAdd (l r : Lane) : Option Lane :=
  if l.live && decide (l.anchor ≠ r.anchor) then none
  else some { sum := l.sum + r.sum, inexact := l.inexact || r.inexact, ovf := l.ovf || r.ovf, nan := l.nan || r.nan,
              pinf := l.pinf || r.pinf, ninf := l.ninf || r.ninf, anchor := r.anchor, live := true }

/-- OVERFLOW as it stands when the output is rounded: set before, or the final magnitude reaches 2^127 units (R145). -/
def laneOvf (l : Lane) : Bool := l.ovf || decide (2 ^ 127 ≤ l.sum.toInt.natAbs)

/-- The exact value an output delivers before its one rounding (R145-R147). -/
def laneValue (l : Lane) : Val :=
  if l.nan || (l.pinf && l.ninf) then .nan
  else if l.pinf then .inf false
  else if l.ninf then .inf true
  else if laneOvf l then .fin (decide (l.sum.toInt < 0)) (2 ^ 127 - 1) (l.anchor - 102)
  else if l.sum = 0 then .fin false 0 0
  else .fin (decide (l.sum.toInt < 0)) l.sum.toInt.natAbs (l.anchor - 102)

/-- Output format of an output code (R180); code 6 is a record. -/
def outFmt (code : Nat) : Fmt :=
  match code with
  | 0 => .b32 | 1 => .bf16 | 2 => .b16 | 3 => .e4m3 | 4 => .e5m2 | _ => .int32

/-- The 24-byte partial-sum record (R148); OVERFLOW as the products set it, for only the final rounding tests the sum (R145, R150). -/
def laneRecord (l : Lane) : List Byte :=
  leBytes 24 (l.sum.toNat + b2n l.inexact * 2 ^ 152 + b2n l.ovf * 2 ^ 153 + b2n l.nan * 2 ^ 154 + b2n l.pinf * 2 ^ 155
    + b2n l.ninf * 2 ^ 156 + unsigned 11 l.anchor * 2 ^ 160)

/-- A record read back (R148); reserved bits are ignored. -/
def recordLane (bs : List Byte) : Lane :=
  let n := leNat bs
  { sum := BitVec.ofNat 152 n, inexact := bitOf n 152, ovf := bitOf n 153, nan := bitOf n 154, pinf := bitOf n 155,
    ninf := bitOf n 156, anchor := signed 11 (n / 2 ^ 160), live := true }

/-- Flag-plane entry: INEXACT in the lower bit, OVERFLOW in the upper (R149). -/
def laneFlags (l : Lane) : Nat := b2n l.inexact + 2 * b2n (laneOvf l)

/-- Exact sum of values (a row's checksum S, R178). -/
def exactSum (vs : List Val) : Val := vs.foldl (fun s v => (valAdd s v).1) (.fin false 0 0)

end Sys2Proof.Machine
end

