-- ==== Sys2Proof/Machine/JobState.lean ====
section
/-! DEFINITION. State of a job, its requests, its cabinet and its commands in hand (02, 04, 10, 11, 12, 14 and 16 of spec/). -/

namespace Sys2Proof.Machine

/-- Job states (12_host.md R305). -/
inductive JobSt where
  | loading | loaded | running | stopping | stopped | killed | halted
  deriving DecidableEq, Repr

/-- States of an attempt on this package (02_beacon.md R52). `lateNo`: no after a yes. -/
inductive AttSt where
  | running | settling | votedYes | votedNo | lateNo
  deriving DecidableEq, Repr

/-- An attempt (R43-R46, R52). `startAt`: cycle in which it started here; `edgeAt`: cycle of the edge it started at (R252); `doneAt`: cycle it reached done; `cause`, `loc`: the first fault that covered it (R359); `recs`: records of its cores, moved here when a later attempt starts on them (R347). -/
structure Attempt where
  tick : Nat
  ord : Nat
  r : Nat
  runAhead : Bool
  st : AttSt
  startAt : Nat
  edgeAt : Nat
  doneAt : Nat
  cause : Nat
  loc : Nat
  faulted : Bool
  plan : Plan
  held : Bool
  overrun : Bool
  recs : List (Nat × List LogRec)
  deriving DecidableEq, Repr

/-- A count of consecutive aborts naming one source (15_safety.md R360). -/
structure Source where
  pkg : Nat
  cause : Nat
  loc : Nat
  count : Nat
  deriving DecidableEq, Repr

/-- A resident weight section of this package (04_weights.md R90-R96, R126, R128): layer, digest, version, excess rows over the groups' budgets, references to job-relative code-table slots and stack (key 128 × stack + slot; slot + 64: written against a held table), held slots that its own tables wait for (R130). `ok`: verified, and not marked absent. Base sections are keyed by layer, a drawer's by 65,536 × (drawer + 1) + layer. -/
structure Section where
  layer : Nat
  ok : Bool
  digest : BitVec 384
  version : Nat
  excess : Nat
  refs : Tab Nat
  holds : List Nat
  deriving DecidableEq, Repr

/-- Drawer states (R105). -/
inductive DrawerSt where
  | free | filling | ready | current | cached | retired
  deriving DecidableEq, Repr

/-- What fills a drawer: nothing, a fill on demand, PUT_ADAPTER, TRAIN_ADAPTER. -/
inductive Filler where
  | none | demand | put | train
  deriving DecidableEq, Repr

/-- A drawer (R104-R110). `made`: the sequence of the handle that its PUT_ADAPTER or TRAIN_ADAPTER was given (R296), 0 for a fill on demand; `verified`: here; `elsewhere`: on every other package of the job; `tables`: its fill carries code tables, so that its stacks must be LIT (R393). -/
structure Drawer where
  st : DrawerSt
  adapter : Nat
  gen : Nat
  rank : Nat
  pinned : Bool
  lastBound : Nat
  by_ : Filler
  cmd : Option CmdId
  image : Nat
  verified : Bool
  elsewhere : Bool
  made : Nat
  tables : Bool
  deriving DecidableEq, Repr

def Drawer.free : Drawer := ⟨.free, 0, 0, 0, false, 0, .none, none, 0, false, false, 0, false⟩

/-- A held code-table write (05_expander.md R129). `wake`: it waits only for its stacks to be LIT (17_power.md R393). -/
structure HeldTable where
  bytes : List Byte
  cmd : Option CmdId
  wake : Bool
  deriving DecidableEq, Repr

/-- A LOAD_IMAGE in progress (R93-R95): indices of the sections still to load; `tables`: a section carries code tables, so that its stacks must be LIT (R393). -/
structure Load where
  cmd : CmdId
  image : Nat
  left : List Nat
  done : Nat
  firstMissing : Option Nat
  peer : Bool
  skip : Bool
  tables : Bool
  deriving DecidableEq, Repr

/-- A swap wave (R98-R103): layers rewritten and verified, flipped, mismatches so far and the layer they are on; layers of other packages (symbolic package, layer) verified and flipped; own layers that carry code tables, whose stacks must be LIT (R393); requests whose old step entered in an aborted tick and is retried (R100). -/
structure Swap where
  cmd : CmdId
  image : Nat
  restart : Bool
  version : Nat
  barrier : Option Nat
  verified : List Nat
  flipped : List Nat
  mism : Nat
  misLayer : Nat
  far : List (Nat × Nat)
  farIn : List (Nat × Nat)
  tabled : List Nat
  retry : List Nat
  deriving DecidableEq, Repr

/-- A TRAIN_ADAPTER (11_serving.md R285, R286). `srcDrawer`, `srcGen`: the drawer and generation it starts from, once its first margin tick has been committed (generation 0: not yet). -/
structure Train where
  cmd : CmdId
  adapter : Nat
  drawer : Nat
  batch : Nat
  examples : Nat
  examplesAddr : Nat
  steps : Nat
  step : Nat
  constants : Nat
  seed : Nat
  srcGen : Nat
  srcDrawer : Nat
  deriving DecidableEq, Repr

/-- A STOP_JOB in progress (R309). `last`: the tick whose resolution ends the job. -/
structure Stop where
  cmd : CmdId
  drain : Bool
  unload : Bool
  last : Option Nat
  deriving DecidableEq, Repr

/-- An armed capture (16_tenancy.md R379). -/
structure Capture where
  cmd : CmdId
  addr : Nat
  len : Nat
  deriving DecidableEq, Repr

/-- What a capture records of the moment the contexts stopped (R380): tick, attempt, domain tick, cause, Keeper contexts and core states. -/
structure Snap where
  tick : Nat
  ord : Nat
  dtick : Nat
  cause : Nat
  body : List Byte
  deriving DecidableEq, Repr

/-- A range pair (14_reproducibility.md R346-R351). Before it has formed, `since` is the cycle its start was accepted; then the first job tick compared. `hold`: the tick whose log bank is kept; `drill`: the drill-down that runs, and its tick (R351). -/
structure Pair where
  cmd : CmdId
  partner : Nat
  port : Nat
  formed : Bool
  since : Nat
  delta : Int
  own : Tab Nat
  theirs : Tab Nat
  compared : Option Nat
  firstMiss : Option Nat
  hold : Option Nat
  misses : Nat
  answered : Bool
  drill : Option (CmdId × Nat)
  deriving DecidableEq, Repr

/-- Program-image header facts (10_contract.md R241). -/
structure ProgHdr where
  profile : Nat
  nclass : Nat
  engines : Nat
  stall : Nat
  reserve : Nat
  ctSlots : Nat
  implicitStart : Bool
  startToken : Nat
  warm : Nat
  digest : BitVec 384
  variants : List VariantE
  deriving DecidableEq, Repr

/-- A layer of a package as the program lists it (R91): symbolic package, layer, tiles, bytes of tile data, coded blocks. -/
structure LayerAt where
  sym : Nat
  layer : Nat
  tiles : Nat
  bytes : Nat
  blocks : Nat
  deriving DecidableEq, Repr

/-- Where the program lies (R255-R258): package IDs in symbolic order, own symbolic index, lead, bands here, partitions here, contexts, group numbers, buoy bases per stack, host area, the most cores that a package of the job gives it, program-store regions (address, length), every layer of every package, base and cabinet (R91), and what the other packages declare: their buoys (package, lowest local number, count; R35), ranges and shelves (package, address, bytes; R60, R76), each shelf under its global core address (R236). `toward`: the ports that begin a shortest route to another package, the lowest first (R50). -/
structure Place where
  pkgs : List Nat
  sym : Nat
  lead : Nat
  depth : Nat
  bands : BitVec 16
  parts : List Nat
  ctxs : List Nat
  entries : Tab (List Nat)
  groups : List Nat
  buoyBase : List Nat
  buoyInit : List (List Word)
  slotMap : List (List Nat)
  links : List LinkDecl
  hostBase : Nat
  hostLen : Nat
  maxCores : Nat
  regions : List (Nat × Nat)
  layout : List LayerAt
  cabLayout : List LayerAt
  far : List (Nat × Nat × Nat)
  farRanges : List (Nat × Nat × Nat)
  farShelves : List (Nat × Nat × Nat)
  farSlots : List ShelfDecl
  toward : Tab Nat
  deriving DecidableEq, Repr

/-- Declarations of this package, relocated (R243); descriptors keyed core*256+i, chains core*64+i, programs core*16+i, windows core*16+i. -/
structure Decls where
  descs : Tab (List Byte)
  chains : Tab (List Byte)
  progs : Tab EProg
  shelves : List ShelfDecl
  wins : Tab Window
  ranges : List RangeDecl
  cab : CabDecl
  tiles : List TileGroup
  deriving DecidableEq, Repr

/-- Arguments of START_JOB (12_host.md R309). `mNext`: a change of m, and the tick whose commit it waits for (R26). -/
structure RunArgs where
  strict : Bool
  elasticLen : Bool
  balancing : Bool
  abortLimit : Nat
  m : Nat
  mNext : Option (Nat × Option Nat)
  reqBase : Nat
  reqCount : Nat
  kJob : Nat
  lampCap : Nat
  budget : Nat
  fixedChunk : Nat
  group : Nat
  deriving DecidableEq, Repr

def RunArgs.none : RunArgs := ⟨false, false, false, 8, 1, .none, 0, 0, 0, 0, 0, 0, 0⟩

/-- The counters of the job record and slot (R305, R311), all saturating at 32 bits. -/
structure JobCnt where
  stretch : Nat
  replays : Nat
  misses : Nat
  deferrals : Nat
  deferredLookups : Nat
  excessRows : Nat
  freeze : Nat
  inexact : Nat
  overflow : Nat
  skips : Nat
  fillRefusals : Nat
  doneMax : Tab Nat
  deriving DecidableEq, Repr

def JobCnt.zero : JobCnt := ⟨0, 0, 0, 0, 0, 0, 0, 0, 0, 0, 0, []⟩

/-- Where the job stands in its ticks (02_beacon.md R26, R27, R45-R57). `due`: domain edge of the next nominal job edge; `next`: next job tick number; `q`: commit count, `gone`: attempts recorded as aborted or discarded (R82);
`edge`: the tick and the cycle of a job edge that fired and whose attempt has not started (no plan yet, or a stack not LIT), `planned`: its plan if that came; `halt`: the domain halted (R31); `ords`: next attempt ordinal of each tick that is not committed (R216); `dones`: the done buoy of each stack (R44); `commitAt`: cycle of the last commit point (R47); `writers`: the writes of the newest attempts into the plan area here, the last first: address, bytes, core (R279). -/
structure Ticks where
  due : Nat
  next : Nat
  q : Nat
  committed : Nat
  attempts : List Attempt
  votes : List VoteMsg
  verdicts : List VerdictMsg
  gone : List (Nat × Nat)
  sources : List Source
  fails : Nat
  announce : Option Announce
  replayPlan : Option Plan
  ords : Tab Nat
  arrival : Nat
  edge : Option (Nat × Nat)
  planned : Option (PlanMsg × Plan)
  halt : Bool
  dones : Tab Nat
  commitAt : Option Nat
  writers : List (Nat × Nat × Nat)
  deriving DecidableEq, Repr

def Ticks.zero : Ticks := ⟨0, 0, 0, 0, [], [], [], [], [], 0, none, none, [], 0, none, none, false, [], none, []⟩

/-- The weights of the job on this package (04_weights.md). `terms`: the maxima-table byte of each tile, by the tile's store address (R91, R140). -/
structure Weights where
  sections : Tab Section
  version : Nat
  layerVer : Tab Nat
  terms : Tab Nat
  held : Tab HeldTable
  drawers : Tab Drawer
  dir : Tab Nat
  gens : Tab Nat
  drops : List (Nat × CmdId)
  loads : List Load
  swap : Option Swap
  trains : List Train
  deriving DecidableEq, Repr

def Weights.none : Weights := ⟨[], 0, [], [], [], [], [], [], [], [], .none, []⟩

/-- Sections of drawers that hold nothing are absent; their blocks count against their tables until they are overwritten or cleared (R105, R128). -/
def Weights.tidy (w : Weights) : Weights :=
  { w with sections := w.sections.map (fun s => if s.1 < 65536 ∨ w.drawers.any (fun d => d.1 + 1 == s.1 / 65536 && d.2.st != .free) = true then s else (s.1, { s.2 with ok := false, holds := [] })) }

/-- The sections of one drawer are absent from now on. -/
def Weights.emptied (w : Weights) (d : Nat) : Weights :=
  { w with sections := w.sections.map (fun s => if s.1 / 65536 = d + 1 then (s.1, { s.2 with ok := false, holds := [] }) else s) }

/-- A core's log bank of a committed tick, with the core digest (R347, R350). -/
structure CoreLog where
  core : Nat
  digest : Nat
  recs : List LogRec
  deriving DecidableEq, Repr

/-- A job on this package (12_host.md R296, R305). `log`: the record-log banks by committed tick, with the commit-record hash, each core with its digest (14_reproducibility.md R347, R348, R350). `slotNo`: its job slot in each partition's status block (R305); `promptAt`: the token of the prompt area that the next copied token takes (R269; log entry 90). -/
structure Job where
  gen : Nat
  part : Nat
  seq : Nat
  st : JobSt
  tenant : Nat
  hdr : ProgHdr
  place : Place
  decl : Decls
  args : RunArgs
  cnt : JobCnt
  ticks : Ticks
  wts : Weights
  loadCmd : Option CmdId
  stop : Option Stop
  endSt : Status
  killCmds : List CmdId
  clearAll : Bool
  clearing : Bool
  capture : Option Capture
  captureRun : Option Snap
  pair : Option Pair
  log : Tab (Nat × List CoreLog)
  slotNo : Tab Nat
  promptAt : Nat
  deriving DecidableEq, Repr

/-- Request states (11_serving.md R270). -/
inductive ReqSt where
  | free | queued | waitAdapter | ready | prompt | decode | parking
  deriving DecidableEq, Repr

/-- An APPEND accepted and not committed (R272). -/
structure Appending where
  cmd : CmdId
  toks : List Word
  copied : Bool
  deriving DecidableEq, Repr

/-- A request-table entry (R266), with what the device keeps of the request beside it: its job, input, the ring facts of its FINAL, appends, park and resume in hand. -/
structure Req where
  st : ReqSt
  job : Nat
  cancel : Bool
  rebind : Bool
  encodeOnly : Bool
  noDraft : Bool
  mirror : Bool
  park : Bool
  adapter : Bool
  gen : Nat
  part : Nat
  seq : Nat
  adapterId : Nat
  drawer : Nat
  adapterGen : Nat
  rank : Nat
  promptLen : Nat
  promptDone : Nat
  kvLen : Nat
  maxNew : Nat
  delivered : Nat
  step : Nat
  seed : Nat
  kvSlot : Nat
  tokenRing : Nat
  complRing : Nat
  lookups : Nat
  deferrals : Nat
  arrival : Nat
  deriving DecidableEq, Repr

def Req.free : Req :=
  ⟨.free, 0, false, false, false, false, false, false, false, 0, 0, 0, 0, 0xFFFF, 0, 0, 0, 0, 0, 0, 0, 0, 0, 0xFFFF, 0, 0, 0, 0, 0⟩

/-- What the device keeps of a request beside its entry. `version`: weight version of its last step (0: none yet), `pos`: ticks since that step entered, 0 where it is complete (R99-R102; log entry 28); `fail`: the status that ends it at the next commit, its fill having failed or been refused (R110, R270); `farCopied`: the other packages have made their copies of a park or a resume (R111); `backBytes`: bytes that RESUME_SESSION copied (R309). -/
structure ReqSide where
  cmd : CmdId
  inAddr : Nat
  outAddr : Nat
  copied : Bool
  toks : List Word
  looks : List Dword
  appends : List Appending
  parkCmd : Option CmdId
  parkAddr : Nat
  parkLen : Nat
  parkBytes : Nat
  parkCopied : Bool
  resuming : Bool
  endSeen : Bool
  cancels : List CmdId
  version : Nat
  planned : Bool
  pos : Nat
  fail : Option Status
  farCopied : Bool
  backBytes : Option Nat
  deriving DecidableEq, Repr

def ReqSide.none : ReqSide := ⟨⟨0, 0⟩, 0, 0, false, [], [], [], Option.none, 0, 0, 0, false, false, false, [], 0, false, 0, Option.none, false, Option.none⟩

/-- Phase of a fetched command (12_host.md R297, R304): held behind a fence, started, accepted. -/
inductive CmdPhase where
  | held | started | accepted
  deriving DecidableEq, Repr

/-- A descriptor fetched and without its FINAL (R295-R298). `more`: extents that it accesses beside those its arguments tell of, known since its checks (R405, R414). -/
structure Cmd where
  id : CmdId
  sq : Nat
  opcode : Nat
  flags : Nat
  cq : Nat
  aux : Nat
  tag : Nat
  target : Nat
  args : List Byte
  phase : CmdPhase
  handle : Nat
  more : List (Nat × Nat)
  deriving DecidableEq, Repr

end Sys2Proof.Machine
end

