-- ==== Sys2Proof/Machine/HostState.lean ====
section
/-! DEFINITION. State of the host die, partitions, rings, links, Beacon, safety, lamps and boot (12, 13, 15, 16, 17, 18, 19 of spec/). -/

namespace Sys2Proof.Machine

/-- Fuses: fixed at manufacture, changed by no command (R3, R5, R15, R384). -/
structure Fuses where
  gradeC : Bool
  steppingB : Bool
  serial : Dword
  keyDigest : BitVec 384
  secret : BitVec 384
  rowMap : Tab Nat
  romVersion : Word
  romDigest : BitVec 384
  deriving DecidableEq, Repr

/-- Boot and device state (17_power.md R397-R405; 16_tenancy.md R381-R383; 18_registers.md R422). -/
structure Boot where
  pwrgood : Bool
  riseAt : Nat
  late : Nat
  arb : Nat
  udsLocked : Bool
  code : Nat
  failed : Bool
  failCause : Nat
  accepted : Bool
  version : Nat
  headDigest : BitVec 384
  deviceKey : BitVec 768
  aliasId : BitVec 384
  recovering : Bool
  stacksUp : BitVec 4
  stacksFailed : BitVec 4
  powering : BitVec 4
  waving : BitVec 4
  pcieUp : Bool
  cxl : Bool
  perst : Bool
  perstAt : Nat
  downAt : Nat
  ready : Bool
  test : Bool
  halted : Bool
  portRec : List Byte
  identRec : List Byte
  cert : List Byte
  thermtrip : Bool
  deriving DecidableEq, Repr

/-- A partition (16_tenancy.md R368-R370, 18_registers.md R413, R415). `rot`: the submission ring whose turn it is (12_host.md R303). -/
structure Part where
  state : Nat
  bands : BitVec 16
  tenant : Word
  operator : Bool
  signedOnly : Bool
  keyValid : Bool
  err : Bool
  key : BitVec 768
  catalog : Dword
  merge : Word
  seq : Nat
  eventsLost : Nat
  faultsLost : Nat
  rot : Nat
  newTenant : Word
  relCmd : Option CmdId
  deriving DecidableEq, Repr

/-- A partition as reset leaves it: `MERGE_CFG_n` at its reset value (R112), the handle sequence before its first descriptor (R296). -/
def Part.reset : Part := ⟨0, 0, 0, false, false, false, false, 0, 0, 0x00F84000, 1, 0, 0, 0, 0, none⟩

/-- A ring (12_host.md R291, R292, R307; 18_registers.md R416). `pend`: cycles at which its pending records were written, and whether each is a FINAL with IRQ; `base`: address bits [39:12]. -/
structure Ring where
  enable : Bool
  err : Bool
  log2 : Nat
  msix : Bool
  hart : Nat
  base : Nat
  irqId : Nat
  coalCount : Nat
  coalTime : Nat
  prod : Nat
  cons : Nat
  fetch : Nat
  armed : Bool
  pend : List (Nat × Bool)
  lost : Bool
  deriving DecidableEq, Repr

def Ring.reset : Ring := ⟨false, false, 0, false, 0, 0, 0, 0, 0, 0, 0, 0, false, [], false⟩

/-- A scheduled edge (R24): its number, the cycle it is due, the base period its mark carried. -/
structure DueEdge where
  n : Nat
  at_ : Nat
  period : Nat
  deriving DecidableEq, Repr

/-- A Beacon message received and held to its release (R253, R322, R323): the cycle of that, its port, DEST_PKG and SRC_PKG. -/
structure HeldMsg where
  at_ : Nat
  port : Nat
  dest : Nat
  src : Nat
  msg : BeaconMsg
  deriving DecidableEq, Repr

/-- The tick side of Beacon (02_beacon.md R23-R31; 18_registers.md R418-R420). `period`: the base period of the last mark received or edge originated, `inForce`: that of the last edge fired; `pending`: a new base period and the cycle from which an edge carries it;
`phase`: the last mark received or edge originated; `due`: edges to fire; `seen`: highest edge number seen; `choice`: mark number, port and delay that chose the upstream;
`stale`: messages of no attempt in progress, dropped and counted (R82); `lateMsgs`: messages released late (R323); `copies`: outcome of copy 0 of the last message of a port; `held`: messages that wait for their release. -/
structure Beacon where
  domain : Word
  pkg : Nat
  role : Nat
  lead : Nat
  period : Nat
  inForce : Nat
  pending : Option (Nat × Nat)
  locked : Bool
  dropped : Nat
  epoch : Nat
  origin : Option Nat
  lighthouse : Nat
  phase : Option DueEdge
  due : List DueEdge
  seen : Option Nat
  tick : Nat
  firedAt : Option Nat
  lostSaid : Bool
  stale : Nat
  lateMsgs : Nat
  copies : List (Nat × Nat)
  choice : Option (Nat × Nat × Nat)
  held : List HeldMsg
  deriving DecidableEq, Repr

def Beacon.reset : Beacon :=
  ⟨0, 0, 0, 0x2B2A, 0, 0, none, false, 0, 0, none, 0, none, [], none, 0, none, false, 0, 0, [], none, []⟩

/-- Port states of `LINK_STATUS_n` (13_ihlan.md R331; 18_registers.md R423). -/
inductive PortSt where
  | absent | down | training | up | failed
  deriving DecidableEq, Repr

/-- A fog setting (R335-R337): action, class mask, LFSR select, probability, pattern, LFSR state, delay in ns, frames counted. -/
structure Fog where
  action : Nat
  mask : Nat
  lfsr : Bool
  prob : Nat
  pattern : Dword
  state : Word
  delay : Nat
  count : Nat
  deriving DecidableEq, Repr

def Fog.off : Fog := ⟨0, 0, false, 0, 0, 0, 0, 0⟩

/-- A frame sent and not acknowledged: sequence, slot, frame, whether it was resent already (R320, R329). -/
structure SentFrame where
  seq : Nat
  slot : Nat
  f : Frame
  resends : Nat
  deriving DecidableEq, Repr

/-- A frame received and held to its release (R318, R322). -/
structure HeldFrame where
  f : Frame
  at_ : Nat
  slot : Nat
  deriving DecidableEq, Repr

/-- A frame that a port misses (R329): its sequence, the slot of the loss, the first slot in which a resend can still come, and the cycle at which that slot grid began. -/
structure Nack where
  seq : Nat
  slot : Nat
  again : Nat
  origin : Nat
  deriving DecidableEq, Repr

/-- A received frame that fog holds for its exchange, with the outcomes of its checks (R319, R336). -/
structure SwapFrame where
  f : Frame
  slot : Nat
  fec : Bool
  crc : Bool
  deriving DecidableEq, Repr

/-- An Ihlan port (13_ihlan.md R314-R337; 18_registers.md R423). `kept`: sent and not acknowledged; `relay`: relayed frames with their out-slots; `relayAgain`: relayed resends; `again`: to resend; `nacks`: missing frames;
`swapTx`, `swapRx`: a frame that fog holds for its exchange; `reserve`: first reserve slot not taken; `xfers`: transfers landing (key, frames left, admitted); `ackAt`: when the last frame was acknowledged; `waiting`: cycles at which Beacon messages reached the port that no insertion has been counted for; `shift`: slots by which insertions delay the data behind them; `grid`: the slot grid the delay is counted on, by its origin and the first slot not counted (R323, R324); `width` in force, `cfgWidth` as LINK_CFG asks from the next training (R423). -/
structure Port where
  enable : Bool
  width : Bool
  media : Nat
  part : Nat
  partEn : Bool
  st : PortSt
  cause : Nat
  laneRev : Bool
  polarity : Nat
  nbrPkg : Nat
  nbrPort : Nat
  joined : Bool
  unc : Nat
  crc : Nat
  resent : Nat
  droppedF : Nat
  txSeq : Nat
  rxSeq : Nat
  rxAny : Bool
  kept : List SentFrame
  relay : List (Nat × Frame)
  relayAgain : List Frame
  again : List SentFrame
  nacks : List Nack
  hold : List HeldFrame
  fogTx : Fog
  fogRx : Fog
  swapTx : Option Frame
  swapRx : Option SwapFrame
  trainAt : Nat
  reserve : Nat
  xfers : List (Nat × Nat × Bool)
  ackAt : Nat
  waiting : List Nat
  shift : Nat
  grid : Nat × Nat
  cfgWidth : Bool
  deriving DecidableEq, Repr

def Port.reset : Port :=
  ⟨true, false, 0, 0, false, .down, 0, false, 0, 0, 0, false, 0, 0, 0, 0, 0, 0, false, [], [], [], [], [], [],
   Fog.off, Fog.off, none, none, 0, 0, [], 0, [], 0, (0, 0), false⟩

/-- A fault record in hand (15_safety.md R363, R364). -/
structure FaultRec where
  code : Nat
  flags : Nat
  engine : Nat
  attempt : Nat
  location : Nat
  lw : Nat
  job : Nat
  pkg : Nat
  tick : Nat
  dtick : Nat
  address : Nat
  other : Nat
  itemA : Nat
  itemB : Nat
  consec : Nat
  deriving DecidableEq, Repr

/-- An event record in hand (R365): its name, flags, job, package, ticks and body. -/
structure EventRec where
  event : Nat
  flags : Nat
  job : Nat
  pkg : Nat
  tick : Nat
  dtick : Nat
  body : List Byte
  deriving DecidableEq, Repr

/-- An entry of the management log (R366, R424): fault or event, with its sequence. -/
structure LogEntry where
  seq : Nat
  bytes : List Byte
  deriving DecidableEq, Repr

/-- Safety state (03_memory.md R87-R89, 15_safety.md R354-R367, 18_registers.md R421, R422). -/
structure Safe where
  unmapped : Nat
  ceReads : Nat
  denied : Nat
  short : Nat
  injCtl : Word
  injSel : Word
  injLo : Word
  injHi : Word
  scrubCfg : Word
  storeLate : Bool
  nearLate : Bool
  ceCount : Nat
  storePass : Nat
  nearPass : Nat
  storeRows : Tab (List Nat)
  nearRows : Tab (List Nat)
  ecc : Tab (List Nat)
  fixes : List Nat
  bonds : Tab Nat
  spares : Tab Nat
  faultSeq : Nat
  eventSeq : Nat
  faults : List LogEntry
  events : List LogEntry
  logSel : Word
  latch : List Byte
  ibiDue : Bool
  ibiAt : Option Nat
  deriving DecidableEq, Repr

def Safe.reset : Safe :=
  ⟨0, 0, 0, 0, 0, 0, 0, 0, 0x00080800, false, false, 0, 0, 0, [], [], [], [], [], [], 0, 0, [], [], 0, [], false, none⟩

/-- Management port, SPDM responder and TAP (16_tenancy.md R385; 18_registers.md R424; 19_package.md R436, R437). -/
structure Mgmt where
  dynAddr : Nat
  staticAddr : Nat
  ibiEn : Bool
  spdm : Nat
  transcript : List Byte
  tap : Tap
  deriving DecidableEq, Repr

def Mgmt.reset : Mgmt := ⟨0, 0x2C, true, 0, [], .bypass⟩

/-- Lamp states (17_power.md R387). -/
inductive Lamp where
  | lit | dim | shade | dark
  deriving DecidableEq, Repr

/-- A stack's lamp (R387-R396): state, transition target and its end, gap it entered for, late count and cycles spent deep. -/
structure LampSt where
  st : Lamp
  goal : Option Lamp
  till : Nat
  late : Nat
  deep : Nat
  deepRem : Nat
  deriving DecidableEq, Repr

def LampSt.reset : LampSt := ⟨.dark, none, 0, 0, 0, 0⟩

/-- A copy of a Beacon frame that leaves (R321): its number, its CRC-32, whether it is intact, its delay by fog in ns. -/
structure BeaconCopy where
  copy : Nat
  crc : Nat
  intact : Bool
  delay : Nat
  deriving DecidableEq, Repr

/-- What leaves the package: the model's own record of its outputs. A Beacon message leaves by a port, or by no port where the link tables give no route to its destination. -/
inductive Out where
  | hartIrq (hart id : Nat)
  | msix (vector : Nat)
  | beacon (port : Option Nat) (dest : Nat) (m : BeaconMsg) (copies : List BeaconCopy)
  | frame (port slot : Nat) (f : Frame) (crc : Nat) (intact : Bool) (delay : Nat)
  | control (port : Nat) (w : ControlWord) (crc : Nat)
  | hostRead (addr size : Nat) (v : Dword)
  | ibi
  | spdm (msg : List Byte)
  | i3c (msg : List Byte)
  | cfgStatus (retry : Bool)
  | pair (port : Nat) (tick digest : Nat)
  | mgmt (r : FaultRec)
  deriving DecidableEq, Repr

/-- A fault on its way from a detector to its record and the vote (R359, R363, R364): `covers` says that it covers its job's attempt. -/
structure Raise where
  code : Nat
  engine : Nat
  loc : Nat
  core : Option Nat
  lw : Nat
  job : Nat
  attempt : Option (Nat × Nat)
  addr : Nat
  other : Nat
  itemA : Nat
  itemB : Nat
  covers : Bool
  receiver : Bool
  injected : Bool
  deriving DecidableEq, Repr

end Sys2Proof.Machine
end

