-- ==== Sys2Proof/Machine/State.lean ====
section
/-! DEFINITION. The state of the block, its stops, and the state after reset. -/

namespace Sys2Proof.Machine

/-- Memory as one canonical list of (address, byte) pairs: addresses rising, no entry equal to what an unlisted address reads as. -/
abbrev Memory := List Host.Cell

/-- Everything of the package but the fuses, the memory and the queue. `egress`: data frames that wait for their booked departure slots; `buoyq`: buoy operations on their way to buoys here (R37, R38). `writes`, `clears` and `raised` are empty between commands: the writes, the cleared ranges and the faults of the command in hand, applied by `lift`. -/
structure Chip where
  now : Nat
  free : Nat
  boot : Boot
  parts : Tab Part
  aper : Tab Dword
  rings : Tab Ring
  halves : Tab Nat
  cmds : List Cmd
  beacon : Beacon
  ports : Tab Port
  egress : List Frame
  jobs : Tab Job
  jobGens : Tab Nat
  reqs : Tab Req
  sides : Tab ReqSide
  ctxs : Tab Ctx
  buoys : Tab Buoy
  bars : Tab Bar
  buoyq : List BuoyIn
  slots : Tab (Nat × List Byte)
  cores : Tab Core
  safe : Safe
  mgmt : Mgmt
  lamps : Tab LampSt
  maxCap : Nat
  out : List Out
  writes : List (Nat × List Byte)
  clears : List (Nat × Nat)
  raised : List Raise
  deriving DecidableEq, Repr

structure State where
  fuses : Fuses
  mem : Memory
  chip : Chip
  pending : List Instr
  deriving DecidableEq, Repr

/-- Stops with a fault. No row of the table ends so: the device's own faults are records and votes (15_safety.md). -/
inductive Fault where
  /-- Raised by no meaning; kept so that the type has a name to print. Safe: the machine would only stop. -/
  | never
  deriving DecidableEq, Repr

/-- Stops without a meaning. -/
inductive Refusal where
  /-- Raised by the arm of a command that has no meaning yet; safe: the machine only stops. -/
  | notModelled (mnemonic : String)
  deriving DecidableEq, Repr

/-- Fuses of the part modelled after reset: NZU40-A, stepping A0, no core fused out. Log entry 3. -/
def Fuses.reset : Fuses := ⟨false, false, 0, 0, 0, [], 0, 0⟩

/-- Before power-good (17_power.md R397): BOOT_STAGE 0x00, no stack powered. -/
def Boot.reset : Boot :=
  { pwrgood := false, riseAt := 0, late := 0, arb := 0, udsLocked := false, code := 0, failed := false, failCause := 0, accepted := false, version := 0, headDigest := 0, deviceKey := 0, aliasId := 0, recovering := false, stacksUp := 0, stacksFailed := 0, powering := 0, waving := 0, pcieUp := false, cxl := false, perst := false, perstAt := 0, downAt := 0, ready := false, test := false, halted := false, portRec := [], identRec := [], cert := [], thermtrip := false }

def Chip.reset : Chip :=
  ⟨0, 0, Boot.reset, [], [], [], [], [], Beacon.reset, [], [], [], [], [], [], [], [], [], [], [], [], Safe.reset, Mgmt.reset,
   [], 0, [], [], [], []⟩

/-- The package with power-good low: every register at the value the spec states, no command waiting, memory with nothing listed. -/
def State.reset : State := ⟨Fuses.reset, [], Chip.reset, []⟩

end Sys2Proof.Machine
end

