-- ==== Sys2Proof/WellFormed.lean ====
section
/-! DEFINITION. Which commands are well formed: every number an operand carries lies in the range that the spec gives its field. -/

namespace Sys2Proof

/-! Ranges. -/

/-- A partition (16_tenancy.md R368). -/
def partOk (n : Nat) : Bool := decide (n < 16)
/-- A job tag (12_host.md R296). -/
def tagOk (n : Nat) : Bool := decide (1 ≤ n) && decide (n < 0xFFFF)
/-- A 48-bit job tick number (02_beacon.md R27). -/
def tickOk (n : Nat) : Bool := decide (n < 2 ^ 48)
/-- A port (13_ihlan.md R314). -/
def portOk (n : Nat) : Bool := decide (n < 16)
/-- A stack, or a wave of ports (01_package.md R11, 17_power.md R400). -/
def stackOk (n : Nat) : Bool := decide (n < 4)
/-- A logical core of this package, and a core of any package (01_package.md R17). -/
def coreOk (n : Nat) : Bool := decide (n < 1024)
def anyCoreOk (n : Nat) : Bool := decide (n < 2 ^ 22)
/-- A package ID (18_registers.md R418). -/
def pkgOk (n : Nat) : Bool := decide (n < 4096)
/-- A request entry (11_serving.md R265). -/
def entryOk (n : Nat) : Bool := decide (n < 16384)
/-- A device address (03_memory.md R58). -/
def addrOk (n : Nat) : Bool := decide (n < 2 ^ 40)
/-- An array of a core (07_matrix.md R157). -/
def arrayOk (n : Nat) : Bool := decide (n < 2)
/-- A 32-bit value. -/
def wordOk (n : Nat) : Bool := decide (n < 2 ^ 32)
/-- An access of 1, 2, 4 or 8 bytes (R406). -/
def sizeOk (n : Nat) : Bool := [1, 2, 4, 8].contains n

/-- A fetched command's handle parts (12_host.md R296): the sequence starts at 1 and skips 0. -/
def cmdOk (x : CmdId) : Bool := partOk x.part && decide (1 ≤ x.seq) && wordOk x.seq

/-- The command that a copy serves: a fetched one, or a relayed one (place 16; log entry 52). -/
def copyOk (x : CmdId) : Bool := decide (x.part ≤ 16) && wordOk x.seq

/-- A submission ring, and a ring of any kind (12_host.md R290, 18_registers.md R416). -/
def subRingOk (p n : Nat) : Bool := partOk p && decide (n < 32)
def anyRingOk (p n : Nat) : Bool := partOk p && decide (n < 130)

/-! Messages (13_ihlan.md R317, R320, R321). -/

def Mark.wf (m : Mark) : Bool := pkgOk m.origin && wordOk m.period
def BuoyMsg.wf (m : BuoyMsg) : Bool := decide (m.ref < 2 ^ 30) && tagOk m.job && tickOk m.tick && anyCoreOk m.core
def BarrierMsg.wf (m : BarrierMsg) : Bool := decide (m.group < 1024) && tagOk m.job && tickOk m.tick && anyCoreOk m.core
def VoteMsg.wf (m : VoteMsg) : Bool := tagOk m.job && pkgOk m.pkg && tickOk m.tick && decide (m.cause < 256)
def VerdictMsg.wf (m : VerdictMsg) : Bool := tagOk m.job && tickOk m.tick && m.frees.all entryOk && m.turned.all entryOk && pkgOk m.srcPkg && decide (m.cause < 256)
def PlanRow.wf (r : PlanRow) : Bool := decide (r.kind < 3) && (r.kind == 2 || entryOk r.entry) && decide (r.adGen < 256)
def Plan.wf (p : Plan) : Bool := p.rows.all PlanRow.wf && decide (p.k ≤ 8) && (p.consts == [] || p.consts.length == 256)
def PlanMsg.wf (m : PlanMsg) : Bool := tagOk m.job && tickOk m.tick && decide (m.variant < 1024)
def Announce.wf (a : Announce) : Bool := tagOk a.job && tickOk a.tick
def JoinMsg.wf (m : JoinMsg) : Bool := wordOk m.domain && pkgOk m.pkg && portOk m.port && decide (m.role < 3)

/-- A data frame: sequence, class, package and address in their fields, a payload of 512 bytes (R317). -/
def Frame.wf (f : Frame) : Bool :=
  decide (f.cls < 16) && decide (f.wlen < 4096) && decide (f.seq < 1024) && pkgOk f.destPkg && addrOk f.destAddr && anyCoreOk f.src && decide (f.idx < 8) && f.payload.length == 512

def ControlWord.wf (w : ControlWord) : Bool := decide (w.kind < 3) && decide (w.slot < 2 ^ 16) && decide (w.txSeq < 1024) && decide (w.ackSeq < 1024) && decide (w.nackSeq < 1024)

/-- Job tag of a message, 0 for one that carries none (R321). -/
def msgTagOf : BeaconMsg → Nat
  | .buoy m => m.job
  | .arrival m => m.job
  | .release m => m.job
  | .vote v => v.job
  | .verdict v => v.job
  | .hold t _ => t
  | .plan m _ => m.job
  | .announce a => a.job
  | .query t _ _ => t
  | .answer v => v.job
  | .kill t _ => t
  | .mark _ => 0
  | .join _ => 0
  | .reserved _ => 0

def BeaconMsg.wf : BeaconMsg → Bool
  | .mark m => m.wf
  | .buoy m => m.wf
  | .arrival m => m.wf
  | .release m => m.wf
  | .vote m => m.wf
  | .verdict m => m.wf
  | .hold j t => tagOk j && tickOk t
  | .plan m p => m.wf && p.wf
  | .announce a => a.wf
  | .query j t _ => tagOk j && tickOk t
  | .answer m => m.wf
  | .join m => m.wf
  | .kill j _ => tagOk j
  | .reserved t => decide (11 < t) && decide (t < 16)

/-- Writes and reads that reach the package (03_memory.md R80, R73, R66): 1 to 4,096 bytes inside the address space. -/
def RemoteWrite.wf (w : RemoteWrite) : Bool := addrOk (w.addr + w.data.length) && decide (w.data.length ≤ 4096) && anyCoreOk w.src
def ShelfWrite.wf (w : ShelfWrite) : Bool := coreOk w.core && decide (w.shelf < 256) && decide (w.slot < 4096) && anyCoreOk w.src
def RemoteRead.wf (r : RemoteRead) : Bool := addrOk (r.addr + r.len) && decide (r.len ≤ 4096) && anyCoreOk r.src

/-- Upsets of a scrub: at most 137 bits of a codeword (15_safety.md R355). -/
def upsetOk (u : List (Nat × List Nat)) : Bool := u.all (fun x => x.2.all (fun b => decide (b < 137)))

/-- An error that strikes a part a core has, or up to two of the 137 bits of a codeword (R157, R187, R191, R355, R356). -/
def Upset.wf : Upset → Bool
  | .adder l | .laneReg l => decide (l < 64)
  | .chain n => decide (n < 64)
  | .prog n => decide (n < 16)
  | .tables | .permute => true
  | .weight s => decide (s < 2 ^ 16)
  | .bond l => decide (l < 256)
  | .word w bs => decide (w < 2 ^ 38) && decide (bs.length ≤ 2) && bs.all (fun b => decide (b < 137))

def Training.wf (t : Training) : Bool := decide (t.polarity < 16)

def PairReport.wf (r : PairReport) : Bool := pkgOk r.pkg && tickOk r.firstTick && decide (1 ≤ r.m) && decide (r.m ≤ 256)
def DrillReport.wf (r : DrillReport) : Bool := r.digests.length == 1024 && decide (r.log.length ≤ 2048)
def PkgCheck.wf (r : PkgCheck) : Bool := pkgOk r.pkg && decide (r.step ≤ 6) && r.tags.all tagOk && r.groups.all (fun g => decide (g < 1024))

/-- A relayed command (12_host.md R308): packages, tags and groups in range. -/
def Relay.wf (r : Relay) : Bool :=
  pkgOk r.lead && decide (r.part < 16) && decide (r.gen < 256) && decide (r.seq < 2 ^ 32) && tagOk r.tag && r.groups.all (fun g => decide (g < 1024)) && decide (r.base < 16384)

/-- A job-scope command, fetched or relayed. -/
def Via.wf : Via → Bool
  | .ring x => cmdOk x
  | .relay r => r.wf

def Asked.wf (m : Asked) : Bool := m.via.wf && m.others.all PkgCheck.wf

/-- What board flash or a push delivers (16_tenancy.md R381): a 512 B header and at most 32 MiB of both. -/
def BootImage.wf (b : BootImage) : Bool := b.head.length == 512 && decide (b.body.length + 512 ≤ 2 ^ 25)

/-! Commands. -/

/-- A command whose operands are in their ranges. -/
def Instr.wf : Instr → Bool
  | .loadProgram v bs _ os => v.wf && decide (bs.length ≤ 4096) && os.all PkgCheck.wf
  | .loadImage x _ => cmdOk x
  | .swapLayers m => m.wf
  | .startJob v os => v.wf && os.all PkgCheck.wf
  | .stopJob v => v.wf
  | .admitReq x => cmdOk x
  | .append x => cmdOk x
  | .cancel x => cmdOk x
  | .query x => cmdOk x
  | .putAdapter m => m.wf
  | .dropAdapter v => v.wf
  | .trainAdapter v => v.wf
  | .putCodeTable v => v.wf
  | .withdraw v => v.wf
  | .setTick m => cmdOk m.id
  | .setTickJob v => v.wf
  | .killJob x => cmdOk x
  | .releasePartition x => cmdOk x
  | .armCapture v => v.wf
  | .disarm v => v.wf
  | .fog x => cmdOk x
  | .rangePair x r => cmdOk x && r.all PairReport.wf
  | .rangePairStop x => cmdOk x
  | .drillDown x r => cmdOk x && r.all DrillReport.wf
  | .parkSession v => v.wf
  | .resumeSession v => v.wf
  | .submissionDoorbell p n v => subRingOk p n && wordOk v
  | .consumerDoorbell p n v => anyRingOk p n && wordOk v
  | .descriptorFetch p n => subRingOk p n
  | .fence p n => subRingOk p n
  | .coalTime p n => anyRingOk p n
  | .assign _ n _ _ _ _ => partOk n
  | .unassign _ n _ _ _ _ => partOk n
  | .keyValid _ n _ => partOk n
  | .keyValidClear _ n _ => partOk n
  | .partCatalog _ n _ => partOk n
  | .partAper _ w _ => decide (w < 448)
  | .ringEnable _ p n _ => anyRingOk p n
  | .ringDisable _ p n _ => anyRingOk p n
  | .lighthouse _ => true
  | .standby _ => true
  | .member _ => true
  | .beaconDomain _ _ => true
  | .beaconPkg _ _ => true
  | .beaconLead _ _ => true
  | .statClear _ _ => true
  | .maxCap _ _ => true
  | .safeCntClear _ _ => true
  | .arm _ k _ _ => decide (k.toNat < 12)
  | .enterTestState _ => true
  | .leaveTestState _ => true
  | .linkEnable _ n _ => portOk n
  | .linkDisable _ n _ => portOk n
  | .retrain _ n => portOk n
  | .cntClear _ n => portOk n
  | .mgmtLogSel _ _ => true
  | .recoveryGo _ => true
  | .registerWrite _ o k _ => decide (o < 0x100000) && sizeOk k
  | .hostAccess _ a k _ => addrOk a && sizeOk k
  | .identity => true
  | .getVersion => true
  | .getCapabilities => true
  | .negotiateAlgorithms => true
  | .getDigests => true
  | .getCertificate o n => decide (o < 2 ^ 16) && decide (n < 2 ^ 16)
  | .challenge _ => true
  | .getMeasurements i => decide (i < 256)
  | .inBandInterrupt => true
  | .pwrgoodRise => true
  | .pwrgoodFall => true
  | .verifyBootImage b => b.wf
  | .perstAssert => true
  | .perstDeassert => true
  | .pcieLinkUp _ => true
  | .apertureTimeout x => cmdOk x
  | .stackPowerUp n => stackOk n
  | .stackSelfTestDone n k => stackOk n && decide (k < 16)
  | .wave n => stackOk n
  | .ready => true
  | .lampExit n => stackOk n
  | .lampTransitionDone n => stackOk n
  | .clockFault m _ => decide (m < 256)
  | .voltageFault m _ => decide (m < 256)
  | .thermalWarn m _ => decide (m < 256)
  | .thermalTrip m _ => decide (m < 256)
  | .originateMark => true
  | .edgeMark n k m => portOk n && decide (k ≤ 4) && m.wf
  | .fireEdge => true
  | .plan m p => m.wf && p.wf
  | .lighthouseLost => true
  | .standbyTakeover => true
  | .domainHalted => true
  | .buoyOperation m => m.wf
  | .waitRelease i => coreOk i
  | .barrierArrival m => m.wf
  | .barrierRelease m => m.wf
  | .settle t => tagOk t
  | .vote v => v.wf
  | .voteTimeout t => tagOk t
  | .progress t => tagOk t
  | .verdict v => v.wf
  | .hold t n => tagOk t && tickOk n
  | .edgeAnnouncement a => a.wf
  | .replayEdge t => tagOk t
  | .verdictQuery t => tagOk t
  | .verdictQueryReceipt t n _ => tagOk t && tickOk n
  | .verdictAnswer v => v.wf
  | .attemptDiscard t => tagOk t
  | .killMessage t _ => tagOk t
  | .join n m => portOk n && m.wf
  | .locked => true
  | .signalLoss n => portOk n
  | .signalAppears n => portOk n
  | .trainingDone n t => portOk n && t.wf
  | .trainingTimeout n t => portOk n && t.wf
  | .frameDeparture n _ _ => portOk n
  | .dataFrame n _ f _ crc => portOk n && f.wf && decide (crc < 2 ^ 32)
  | .release n => portOk n
  | .controlWord n w => portOk n && w.word.wf && decide (w.crc < 2 ^ 16)
  | .resend n _ => portOk n
  | .linkRetry n q => portOk n && decide (q < 1024)
  | .beaconFrame n k m h t _ crc => portOk n && decide (k < 2) && m.wf && decide (h.dest < 2 ^ 16) && pkgOk h.src && t == msgTagOf m && decide (crc < 2 ^ 32)
  | .remoteWrite w => w.wf
  | .shelfWrite w => w.wf
  | .remoteRead r => r.wf
  | .scrub _ _ u => upsetOk u
  | .scrubWriteBack _ => true
  | .storeLate => true
  | .nearLate => true
  | .sectionVerified x _ => cmdOk x
  | .layerRewrite t x => tagOk t && decide (x.layer < 65536) && decide (x.sym < 4096)
  | .fill t x => tagOk t && decide (x.drawer < 4096)
  | .inputCopy i => entryOk i
  | .appendCopy x => cmdOk x
  | .parkCopy x => copyOk x.id
  | .resumeCopy x => copyOk x.id
  | .trainedParameterWrite t _ => tagOk t
  | .capture t _ => tagOk t
  | .clearing t p => decide (t < 0xFFFF) && partOk p
  | .digest t n v => tagOk t && tickOk n && decide (v < 2 ^ 64)
  | .rangePairTimeout t => tagOk t
  | .longWord x _ => decide (x < 16)
  | .take i x => coreOk i && x.upsets.all Upset.wf
  | .credit x => decide (x < 16)
  | .queueStall i q => coreOk i && decide (q < 6)
  | .mnop i a => coreOk i && arrayOk a
  | .mload i a => coreOk i && arrayOk a
  | .muse i a => coreOk i && arrayOk a
  | .mouter i a => coreOk i && arrayOk a
  | .mdrain i a => coreOk i && arrayOk a
  | .mmerge i a => coreOk i && arrayOk a
  | .vnop i => coreOk i
  | .vchain i => coreOk i
  | .vprog i => coreOk i
  | .vred i => coreOk i
  | .vperm i => coreOk i
  | .vdraw i => coreOk i
  | .vflag i => coreOk i
  | .vtest i => coreOk i
  | .bnop i => coreOk i
  | .set i => coreOk i
  | .add i => coreOk i
  | .wait i => coreOk i
  | .testAndSet i => coreOk i
  | .clear i => coreOk i
  | .barrier i => coreOk i
  | .snop i => coreOk i
  | .sbind i => coreOk i
  | .sshelf i => coreOk i
  | .smove i => coreOk i
  | .hostTierMoveDone i => coreOk i
  | .programLoaded t _ => tagOk t
  | .configurationRequest => true
  | .setdasa _ => true
  | .boundaryScan _ => true

end Sys2Proof
end

