-- ==== Sys2Proof/Machine/Wire.lean ====
section
/-! DEFINITION. Words on the link: data-frame headers, control words, Beacon frames, and the codes that protect them (13_ihlan.md R316-R321); the bytes of a plan copy (11_serving.md R277). -/

namespace Sys2Proof.Machine

/-- The 128 header bits of a data frame (R317). -/
def frameHeader (f : Frame) : Nat :=
  f.cls % 2 ^ 4 + b2n f.retx * 2 ^ 4 + f.wlen % 2 ^ 12 * 2 ^ 8 + f.idx % 2 ^ 3 * 2 ^ 20 + f.destPkg % 2 ^ 12 * 2 ^ 23 +
    f.destAddr % 2 ^ 40 * 2 ^ 35 + f.tag % 2 ^ 16 * 2 ^ 75 + f.src % 2 ^ 22 * 2 ^ 91 + f.seq % 2 ^ 10 * 2 ^ 113 +
    f.tick % 2 ^ 2 * 2 ^ 123 + f.attempt % 2 ^ 3 * 2 ^ 125

/-- CRC-32 of a data frame: header and the 512 payload bytes (R319). -/
def frameCrc (f : Frame) : Nat := crc32 (leBytes 16 (frameHeader f) ++ (f.payload ++ List.replicate (512 - f.payload.length) 0).take 512)

/-- Bits [79:0] of a control word (R320). -/
def controlBits (w : ControlWord) : Nat :=
  w.kind % 2 ^ 2 + w.slot % 2 ^ 16 * 2 ^ 2 + w.txSeq % 2 ^ 10 * 2 ^ 18 + w.ackSeq % 2 ^ 10 * 2 ^ 28 + w.nackSeq % 2 ^ 10 * 2 ^ 38 + b2n w.nackV * 2 ^ 48

/-- CRC-16 of a control word (R221, R320). -/
def controlCrc (w : ControlWord) : Nat := crc16 (leBytes 10 (controlBits w))

/-! The plan copy. -/

/-- A plan row record (R277). -/
def rowBytes (r : PlanRow) : List Byte :=
  leBytes 2 r.entry ++ leBytes 1 r.kind ++ leBytes 1 r.rowFlags ++ leBytes 2 r.kvSlot ++ leBytes 2 r.drawer ++ leBytes 1 r.adGen ++ leBytes 3 0 ++
    leBytes 4 r.pos ++ leBytes 4 r.count ++ leBytes 4 r.index ++ leBytes 8 r.aux

/-- The 64 B header of a plan copy: variant, n, chunk tokens, segments, lookups, and whether there is a margin record (R277). The spec gives these fields and no offsets: the model lays them out in this order, 4 B each, zeros behind (log entry 26). -/
def planHead (p : Plan) : List Byte :=
  leBytes 4 p.variant ++ leBytes 4 p.n ++ leBytes 4 p.chunk ++ leBytes 4 (p.rows.filter (fun r => r.kind == 1)).length ++
    leBytes 4 p.looks.length ++ leBytes 4 (b2n (p.rows.any (fun r => r.kind == 2))) ++ List.replicate 40 0

/-- A plan copy up to its row status words, which are zero when the plan is written (R277). -/
def planBytes (p : Plan) : List Byte :=
  planHead p ++ p.rows.flatMap rowBytes ++ p.draws.flatMap (fun d => leBytes 8 d.1.toNat ++ leBytes 4 d.2.1 ++ leBytes 4 d.2.2) ++
    p.toks.flatMap (fun w => leBytes 4 w.toNat) ++ p.looks.flatMap (fun w => leBytes 8 w.toNat) ++ List.replicate (4 * p.rows.length) 0

/-! Beacon frames. -/

def opNo : BuoyOp → Nat
  | .set => 1 | .add => 2 | .wait => 3 | .testAndSet => 4 | .clear => 5

def verdictNo : Verdict → Nat
  | .commit => 0 | .abort => 1 | .quarantine => 2 | .kill => 3

def edgeNo : EdgeKind → Nat
  | .replay => 0 | .restart => 1 | .deferred => 2

/-- TYPE of a message (R321). A kill on its way to the lead has no type of its own in that table: the model gives it that of a verdict of kind kill (log entry 44). -/
def msgType : BeaconMsg → Nat
  | .mark _ => 0 | .buoy _ => 1 | .arrival _ => 2 | .release _ => 3 | .vote _ => 4 | .verdict _ => 5 | .hold _ _ => 6
  | .plan _ _ => 7 | .announce _ => 8 | .query _ _ _ => 9 | .answer _ => 10 | .join _ => 11 | .kill _ _ => 5 | .reserved t => 12 + t % 4

/-- Body fields of a message, in the order and sizes of R321. -/
def msgBody : BeaconMsg → List Byte
  | .mark m => leBytes 8 m.n ++ leBytes 2 m.epoch ++ leBytes 4 m.period ++ leBytes 2 m.origin ++ leBytes 4 m.delay
  | .buoy m => leBytes 4 m.ref ++ leBytes 1 (opNo m.op) ++ leBytes 4 m.val.toNat ++ leBytes 6 m.tick ++ leBytes 1 m.attempt ++ leBytes 3 m.core
  | .arrival m => leBytes 2 m.group ++ leBytes 4 m.phase ++ leBytes 2 m.count ++ leBytes 6 m.tick ++ leBytes 1 m.attempt
  | .release m => leBytes 2 m.group ++ leBytes 4 m.phase ++ leBytes 2 m.count ++ leBytes 6 m.tick ++ leBytes 1 m.attempt
  | .vote v => leBytes 6 v.tick ++ leBytes 1 v.attempt ++ leBytes 1 (b2n v.yes) ++ leBytes 1 v.cause ++ leBytes 3 v.loc
  | .verdict v => leBytes 6 v.tick ++ leBytes 1 v.attempt ++ leBytes 1 (verdictNo v.kind)
  | .hold _ t => leBytes 6 t
  | .plan m p => leBytes 6 m.tick ++ leBytes 1 m.attempt ++ leBytes 2 m.variant ++ leBytes 4 m.k1 ++ leBytes 4 m.k2 ++ leBytes 4 m.k3 ++
      (beBytes 48 (sha384 (planBytes p)).toNat).take 16
  | .announce a => leBytes 1 (edgeNo a.kind) ++ leBytes 6 a.tick ++ leBytes 8 a.due ++ leBytes 4 a.offset
  | .query _ t a => leBytes 6 t ++ leBytes 1 a
  | .answer v => leBytes 6 v.tick ++ leBytes 1 v.attempt ++ leBytes 1 (verdictNo v.kind)
  | .join m => leBytes 4 m.domain ++ leBytes 2 m.pkg ++ leBytes 1 m.port ++ leBytes 2 m.epoch ++ leBytes 1 m.role ++ leBytes 1 (b2n m.width)
  | .kill _ all => leBytes 7 0 ++ leBytes 1 3 ++ leBytes 1 (b2n all)
  | .reserved _ => []

/-- CRC-32 of a copy of a Beacon frame: its 8 B header (TYPE, COPY, DEST_PKG, JOB_TAG, SRC_PKG) and its 52 B body (R319, R321). The spec gives the header's fields in this order and no sizes: the model takes 1, 1, 2, 2 and 2 B (log entry 44). -/
def beaconCrc (copy dest src : Nat) (m : BeaconMsg) : Nat :=
  let b := msgBody m
  crc32 (leBytes 1 (msgType m) ++ leBytes 1 (copy % 2) ++ leBytes 2 dest ++ leBytes 2 (msgTagOf m) ++ leBytes 2 src ++ (b ++ List.replicate (52 - b.length) 0).take 52)

/-- DEST_PKG of a message for no single package. -/
def everyPkg : Nat := 0xFFFF

end Sys2Proof.Machine
end

