-- ==== Sys2Proof/Machine/Tables.lean ====
section
/-! DEFINITION. Sparse tables, the byte memory in its canonical form, and the helpers that read and write them. -/

namespace Sys2Proof.Machine

/-- The entry of a key, if there is one. -/
def tfind {α : Type} (t : Tab α) (k : Nat) : Option α :=
  match t with
  | [] => none
  | p :: r => if p.1 = k then some p.2 else tfind r k

/-- The entry of a key, or the value every key without an entry has. -/
def tget {α : Type} (d : α) (t : Tab α) (k : Nat) : α := (tfind t k).getD d

def tdel {α : Type} (t : Tab α) (k : Nat) : Tab α := t.filter (fun p => p.1 != k)

/-- Put a pair before the first larger key. -/
def tins {α : Type} (t : Tab α) (k : Nat) (v : α) : Tab α :=
  match t with
  | [] => [(k, v)]
  | p :: r => if k < p.1 then (k, v) :: p :: r else p :: tins r k v

def tset {α : Type} (t : Tab α) (k : Nat) (v : α) : Tab α := tins (tdel t k) k v

def tupd {α : Type} (d : α) (t : Tab α) (k : Nat) (f : α → α) : Tab α := tset t k (f (tget d t k))

/-- The form every memory of the model has: addresses strictly rising, no entry equal to what an unlisted address reads as. -/
def Memory.wf : Memory → Bool
  | [] => true
  | [c] => c.2 != Config.unlisted
  | c :: d :: r => decide (c.1 < d.1) && (c.2 != Config.unlisted) && Memory.wf (d :: r)

/-- The byte at an address. -/
def Memory.read (m : Memory) (a : Nat) : Byte := tget Config.unlisted m a

/-- One byte written; writing what an unlisted address reads as removes the entry. -/
def Memory.write (m : Memory) (a : Nat) (b : Byte) : Memory :=
  if b = Config.unlisted then tdel m a else tset m a b

/-- Bytes written at rising addresses. -/
def Memory.writeBytes (m : Memory) (a : Nat) (bs : List Byte) : Memory :=
  match bs with
  | [] => m
  | b :: r => Memory.writeBytes (m.write a b) (a + 1) r

/-- The writes of one command, newest first in the list, applied oldest first. -/
def Memory.apply (m : Memory) (ws : List (Nat × List Byte)) : Memory :=
  ws.foldr (fun w acc => acc.writeBytes w.1 w.2) m

/-- Bytes of a range cleared: what an unlisted address reads as (R62, R374, R399). -/
def Memory.clear (m : Memory) (lo len : Nat) : Memory := m.filter (fun c => decide (c.1 < lo) || decide (lo + len ≤ c.1))

/-- What a meaning sees beside the chip: the fuses and the memory as the command found it. -/
structure Env where
  fuses : Fuses
  mem : Memory
  deriving DecidableEq, Repr

/-- A byte as the command sees it: its own newest write, else the memory. -/
def seek (ws : List (Nat × List Byte)) (a : Nat) : Option Byte :=
  match ws with
  | [] => none
  | w :: r => if w.1 ≤ a ∧ a < w.1 + w.2.length then w.2[a - w.1]? else seek r a

/-- Bits of byte `a` that an uncorrectable codeword delivers flipped (15_safety.md R355); a word with one bit in error reads corrected. -/
def flips (ecc : Tab (List Nat)) (a : Nat) : Byte :=
  match tfind ecc (a / 16) with
  | some (x :: y :: r) => BitVec.ofNat 8 ((x :: y :: r).foldl (fun n b => if b / 8 = a % 16 then n ^^^ 2 ^ (b % 8) else n) 0)
  | _ => 0

def rdByte (e : Env) (c : Chip) (a : Nat) : Byte :=
  let b := (seek c.writes a).getD (e.mem.read a)
  if c.safe.ecc = [] then b else b ^^^ flips c.safe.ecc a

/-- `n` bytes from an address up. -/
def rdBytes (e : Env) (c : Chip) (a n : Nat) : List Byte := (List.range n).map (fun i => rdByte e c (a + i))

def rdLE (e : Env) (c : Chip) (a n : Nat) : Nat := leNat (rdBytes e c a n)

/-- Flipped bits of a stored word after further flips: a flip of a flipped bit restores it. -/
def upsetWord (old new : List Nat) : List Nat := old.filter (fun b => !(new.contains b)) ++ new.eraseDups.filter (fun b => !(old.contains b))

/-- Bits of a stored codeword flip (R355). -/
def upsetAt (c : Chip) (w : Nat) (bits : List Nat) : Chip :=
  let b := upsetWord (tget [] c.safe.ecc w) bits
  { c with safe := { c.safe with ecc := if b = [] then tdel c.safe.ecc w else tset c.safe.ecc w b } }

/-- Errors of the codewords of a written range are gone, and so are the scrub write-backs of the lines it touches (R88). -/
def freshCheck (s : Safe) (a n : Nat) : Safe :=
  { s with ecc := s.ecc.filter (fun p => decide (p.1 < a / 16) || decide ((a + n - 1) / 16 < p.1) || (decide (2 ≤ p.2.length) && !(decide (a ≤ p.1 * 16) && decide (p.1 * 16 + 16 ≤ a + n))))
           fixes := s.fixes.filter (fun w => decide (w / 4 < a / 64) || decide ((a + n - 1) / 64 < w / 4)) }

/-- Queue a write of the command in hand; a rewritten codeword has fresh check bits (R88). -/
def wr (c : Chip) (a : Nat) (bs : List Byte) : Chip :=
  if bs = [] then c else { c with writes := (a, bs) :: c.writes, safe := freshCheck c.safe a bs.length }

/-- Queue the clearing of a range: zeros with valid check bits (R62). -/
def clearRange (c : Chip) (lo len : Nat) : Chip :=
  if len = 0 then c else { c with clears := (lo, len) :: c.clears, safe := freshCheck c.safe lo len }

/-- Add to the record of what leaves the package. -/
def emit (c : Chip) (o : Out) : Chip := { c with out := c.out ++ [o] }

/-- `n` free bytes (log entry 4). -/
def drawBytes (c : Chip) (n : Nat) : List Byte × Chip :=
  ((List.range n).map (fun i => Config.freeByte (c.free + i)), { c with free := c.free + n })

def onCore (c : Chip) (i : Nat) (f : Core → Core) : Chip := { c with cores := tupd Core.idle c.cores i f }

def core (c : Chip) (i : Nat) : Core := tget Core.idle c.cores i

def onJob (c : Chip) (t : Nat) (f : Job → Job) : Chip :=
  match tfind c.jobs t with
  | none => c
  | some j => { c with jobs := tset c.jobs t (f j) }

def part (c : Chip) (p : Nat) : Part := tget Part.reset c.parts p

def onPart (c : Chip) (p : Nat) (f : Part → Part) : Chip := { c with parts := tupd Part.reset c.parts p f }

def ring (c : Chip) (k : Nat) : Ring := tget Ring.reset c.rings k

def onRing (c : Chip) (k : Nat) (f : Ring → Ring) : Chip := { c with rings := tupd Ring.reset c.rings k f }

/-- Key of ring `i` of partition `p`: submission 0-31, completion 32-63, token 64-127, event 128, fault 129 (18_registers.md R416). -/
def ringKey (p i : Nat) : Nat := p * 256 + i

/-- A port: ports 12 to 15 of an NZU40-C read ABSENT (00_scope.md R2). -/
def port (e : Env) (c : Chip) (n : Nat) : Port :=
  let p := tget Port.reset c.ports n
  if e.fuses.gradeC && decide (12 ≤ n) then { p with enable := false, st := .absent } else p

def onPort (c : Chip) (n : Nat) (f : Port → Port) : Chip := { c with ports := tupd Port.reset c.ports n f }

/-- Hops around the ring between two stacks (R11). -/
def ringHops (a b : Nat) : Nat := let d := (a + 4 - b) % 4; if d = 3 then 1 else d

/-- Crossings of the stack ring between two ports, and between a port and a stack (R11, R13). -/
def portHops (p q : Nat) : Nat := ringHops (p / 4) (q / 4)

/-- Put an element before the first one whose key is not smaller. -/
def insertBy {α : Type} (f : α → Nat) (x : α) (l : List α) : List α :=
  match l with
  | [] => [x]
  | y :: r => if f x ≤ f y then x :: y :: r else y :: insertBy f x r

/-- A list in rising order of a key, equal keys keeping their order. -/
def sortBy {α : Type} (f : α → Nat) (l : List α) : List α := l.foldr (insertBy f) []

/-! Fog, and Beacon messages that leave. -/

/-- One step of the Galois LFSR of x^32 + x^22 + x^2 + x + 1 (R337; direction: log entry 32). -/
def lfsrStep (w : Word) : Word := if w.getLsbD 0 then (w >>> 1) ^^^ 0x80200003#32 else w >>> 1

/-- Whether a setting affects the next frame of a class, its number among the selected ones, and the setting after it (R336, R337). -/
def fogPick (f : Fog) (cls : Nat) : Bool × Nat × Fog :=
  if f.action = 0 ∨ bitOf f.mask cls = false then (false, 0, f)
  else
    let st := if f.lfsr then lfsrStep f.state else f.state
    let hit := if f.lfsr then decide (st.toNat % 2 ^ 16 < f.prob) else f.pattern.getLsbD (f.count % 64)
    (hit, f.count, { f with state := st, count := f.count + 1 })

/-- Count a frame that fog affects (log entry 32). -/
def countFog (p : Port) : Port := { p with droppedF := satAdd 8 p.droppedF 1 }

/-- One copy of a Beacon frame under transmit fog (R336): dropped, or sent intact or not, late or not. -/
def fogCopy (copy crc : Nat) (f : Fog) (x : Bool × Nat × Fog) : List BeaconCopy :=
  if !x.1 then [⟨copy, crc, true, 0⟩]
  else match f.action with
    | 1 => []
    | 2 => [⟨copy, crc, x.2.1 % 3 == 0, 0⟩]
    | 4 => [⟨copy, crc, true, f.delay⟩]
    | _ => [⟨copy, crc, true, 0⟩]

/-- The two copies of a message of `src` for `dest` as no fog touches them (R321). -/
def cleanCopies (dest src : Nat) (m : BeaconMsg) : List BeaconCopy := [⟨0, beaconCrc 0 dest src m, true, 0⟩, ⟨1, beaconCrc 1 dest src m, true, 0⟩]

/-- A Beacon message reaches a port in cycle `at_` and leaves by it, as two copies (R321); it is inserted at the next slot boundary (R323). -/
def portBeacon (c : Chip) (n dest src at_ : Nat) (m : BeaconMsg) : Chip :=
  let p := tget Port.reset c.ports n
  let x := fogPick p.fogTx 7
  let y := fogPick x.2.2 7
  let copies := fogCopy 0 (beaconCrc 0 dest src m) p.fogTx x ++ fogCopy 1 (beaconCrc 1 dest src m) p.fogTx y
  let c1 := onPort c n (fun p =>
    let p1 := { p with fogTx := y.2.2, waiting := if copies = [] then p.waiting else sortBy id (p.waiting ++ [at_]) }
    let p2 := if x.1 then countFog p1 else p1
    if y.1 then countFog p2 else p2)
  if copies = [] then c1 else emit c1 (.beacon (some n) dest m copies)

/-- Joined ports (R331). -/
def joinedPorts (c : Chip) : List Nat := (List.range 16).filter (fun n => let p := tget Port.reset c.ports n; p.st == .up && p.joined)

/-- The ports on which a message is flooded: every joined port for a mark (R24); for a verdict, HOLD or an announcement, the ports toward a member, which are those whose neighbour is a package of the job (R48, R52; log entry 63). A query and its answer go to the Beacon neighbours (R51). -/
def floodPorts (c : Chip) (m : BeaconMsg) : List Nat :=
  let toward := fun (tag : Nat) => (joinedPorts c).filter (fun n => (tfind c.jobs tag).any (fun j => let q := (tget Port.reset c.ports n).nbrPkg; q != c.beacon.pkg && j.place.pkgs.contains q))
  match m with
  | .mark _ => joinedPorts c
  | .verdict v => toward v.job
  | .hold t _ => toward t
  | .announce a => toward a.job
  | .query _ _ _ => joinedPorts c
  | .answer _ => joinedPorts c
  | _ => []

/-- Flood a Beacon message. -/
def sendBeacon (c : Chip) (m : BeaconMsg) : Chip :=
  (floodPorts c m).foldl (fun c n => portBeacon c n everyPkg c.beacon.pkg c.now m) c

/-- Send a message of a job to one package, by the port that the link tables give its route (R50; log entry 44); `lat`: cycles until it reaches a port. A message for which they give none leaves by no port. -/
def sendTo (c : Chip) (tag dest src : Nat) (lat : Nat → Nat) (m : BeaconMsg) : Chip :=
  match (tfind c.jobs tag).bind (fun j => tfind j.place.toward dest) with
  | some n => portBeacon c n dest src (c.now + lat n) m
  | none => emit c (.beacon none dest m (cleanCopies dest src m))

/-- Send a message of a job to each of its other packages. -/
def sendOthers (c : Chip) (j : Job) (tag : Nat) (lat : Nat → Nat) (m : BeaconMsg) : Chip :=
  (j.place.pkgs.filter (· != c.beacon.pkg)).foldl (fun c d => sendTo c tag d c.beacon.pkg lat m) c

def req (c : Chip) (i : Nat) : Req := tget Req.free c.reqs i

def onReq (c : Chip) (i : Nat) (f : Req → Req) : Chip := { c with reqs := tupd Req.free c.reqs i f }

def side (c : Chip) (i : Nat) : ReqSide := tget ReqSide.none c.sides i

def onSide (c : Chip) (i : Nat) (f : ReqSide → ReqSide) : Chip := { c with sides := tupd ReqSide.none c.sides i f }

def lamp (c : Chip) (s : Nat) : LampSt := tget LampSt.reset c.lamps s

def onLamp (c : Chip) (s : Nat) (f : LampSt → LampSt) : Chip := { c with lamps := tupd LampSt.reset c.lamps s f }

def ctx (c : Chip) (i : Nat) : Ctx := tget Ctx.free c.ctxs i

def onCtx (c : Chip) (i : Nat) (f : Ctx → Ctx) : Chip := { c with ctxs := tupd Ctx.free c.ctxs i f }


/-- Fold over a list of numbers, the chip threaded through. -/
def each {α : Type} (l : List α) (c : Chip) (f : Chip → α → Chip) : Chip := l.foldl f c

/-- Global core address of a core of this package (R17). -/
def gca (c : Chip) (i : Nat) : Nat := c.beacon.pkg * 1024 + i

/-- Band of a core, and the cores of a band (R210). -/
def bandOf (i : Nat) : Nat := i / 64

def coresOf (bands : BitVec 16) : List Nat :=
  ((List.range 16).filter (fun b => bands.getLsbD b)).flatMap (fun b => (List.range 64).map (fun k => b * 64 + k))

/-- The context that serves a core: the one of its stack whose mask holds the core's band (R211). -/
def ctxOf (c : Chip) (i : Nat) : Option (Nat × Ctx) :=
  c.ctxs.find? (fun p => p.1 / 4 == i / 256 && p.2.job != 0 && p.2.bands.getLsbD (bandOf i))

/-- The job whose program a core runs, with its tag (0: none). -/
def jobOfCore (c : Chip) (i : Nat) : Nat := match ctxOf c i with | some p => p.2.job | none => 0

/-- The newest attempt of a job: the one its cores run (R45). -/
def newest (j : Job) : Option Attempt := j.ticks.attempts.getLast?

end Sys2Proof.Machine
end

