-- ==== Sys2Proof/Machine/Ops.lean ====
section
/-! DEFINITION. The named operations shared by the meanings of core commands: faults, memory checks, guards, windows, predicates, records. -/

namespace Sys2Proof.Machine

/-- Fault codes (15_safety.md R362). -/
inductive FaultCode where
  | addressRange | bankConflict | shelfUnderrun | shelfOverrun | windowViolation | buoyRange | buoyWrap | barrierRearrive
  | queueStall | engineAbsent | expanderFormat | layerVersion | tileInvalid | shadowFull | mEncoding | anchorOverflow
  | anchorMismatch | vEncoding | vIndex | keeperEncoding | keeperStack | cEncoding | bEncoding | sEncoding | streamBusy
  | streamEnd | tickOverrun | rowStatus | linkRoute | matrixChecksum | vectorResidue | memoryUe | bondParity | broadcastCrc
  | meshCrc | ringCrc | keeperLockstep | linkLate | linkRetry | beaconLoss | scrubUe | storeLate | nearLate | lighthouseLost
  | progress | clockFault | voltageFault | thermalWarn | thermalTrip
  deriving DecidableEq, Repr

def faultNo : FaultCode → Nat
  | .addressRange => 0x01 | .bankConflict => 0x02 | .shelfUnderrun => 0x03 | .shelfOverrun => 0x04 | .windowViolation => 0x05
  | .buoyRange => 0x06 | .buoyWrap => 0x07 | .barrierRearrive => 0x08 | .queueStall => 0x09 | .engineAbsent => 0x0A
  | .expanderFormat => 0x0B | .layerVersion => 0x0C | .tileInvalid => 0x0D | .shadowFull => 0x0E | .mEncoding => 0x0F
  | .anchorOverflow => 0x10 | .anchorMismatch => 0x11 | .vEncoding => 0x12 | .vIndex => 0x13 | .keeperEncoding => 0x14
  | .keeperStack => 0x15 | .cEncoding => 0x16 | .bEncoding => 0x17 | .sEncoding => 0x18 | .streamBusy => 0x19
  | .streamEnd => 0x1A | .tickOverrun => 0x1B | .rowStatus => 0x1C | .linkRoute => 0x1D | .matrixChecksum => 0x40
  | .vectorResidue => 0x41 | .memoryUe => 0x42 | .bondParity => 0x43 | .broadcastCrc => 0x44 | .meshCrc => 0x45
  | .ringCrc => 0x46 | .keeperLockstep => 0x47 | .linkLate => 0x48 | .linkRetry => 0x49 | .beaconLoss => 0x4A
  | .scrubUe => 0x60 | .storeLate => 0x61 | .nearLate => 0x62 | .lighthouseLost => 0x70 | .progress => 0x71
  | .clockFault => 0x78 | .voltageFault => 0x79 | .thermalWarn => 0x7A | .thermalTrip => 0x7B

/-- Class of a fault code: 0 program, 1 to 4 D1 to D4 (R362, R363). -/
def faultClass (n : Nat) : Nat :=
  if n < 0x40 then 0 else if n < 0x60 then 1 else if n < 0x70 then 2 else if n < 0x78 then 3 else 4

/-- Engine codes (10_contract.md R250). -/
def engV : Nat := 2
def engS : Nat := 3
def engB : Nat := 4
def engC : Nat := 5
def engX : Nat := 6
def engK : Nat := 7
def engRx : Nat := 8
def engNone : Nat := 15

/-- The long-word address of a record that has none (R250). -/
def noLw : Nat := 0x7FFFFF
/-- DETAIL_A when there is no other end (R363). -/
def noCore : Nat := 0x3FFFFF

def raise (c : Chip) (r : Raise) : Chip := { c with raised := c.raised ++ [r] }

/-- A fault of a slot on a core: it covers the attempt of the core's job (R249). -/
def coreFault (c : Chip) (i eng lw : Nat) (f : FaultCode) (addr itemA itemB : Nat) : Chip :=
  raise c ⟨faultNo f, eng, gca c i, some i, lw, jobOfCore c i, none, addr, noCore, itemA, itemB, true, false, false⟩

/-- Whether an armed injection of kind `k` qualifies on a core (R367). -/
def armedFor (c : Chip) (k i : Nat) : Bool :=
  let w := c.safe.injCtl.toNat
  bitOf w 31 && bitsOf w 29 26 == k && bitsOf w 25 16 == i && bitsOf w 15 0 == jobOfCore c i && c.boot.test

/-- The injection fires: ARM clears, FIRED sets. -/
def injectFired (c : Chip) : Chip :=
  { c with safe := { c.safe with injCtl := (c.safe.injCtl &&& 0x7FFFFFFF#32) ||| 0x40000000#32 } }

/-- A fault that an injection creates is recorded with INJECTED set. -/
def injectFault (c : Chip) (i eng lw : Nat) (f : FaultCode) (addr itemA itemB : Nat) : Chip :=
  raise (injectFired c) ⟨faultNo f, eng, gca c i, some i, lw, jobOfCore c i, none, addr, noCore, itemA, itemB, true, false, true⟩

def coreJob (c : Chip) (i : Nat) : Option Job := tfind c.jobs (jobOfCore c i)

/-- Physical position of a logical core in its row of 17 (R15): fixed by the row map, below every address; no timing depends on it (R16). The map lists, by row of the package, the position that is fused out. -/
def physColumn (fu : Fuses) (i : Nat) : Nat :=
  match tfind fu.rowMap (i / 16) with
  | some p => if p ≤ i % 16 then i % 16 + 1 else i % 16
  | none => i % 16

/-- Own near scratchpad and own store slice of a core (R58, R59). -/
def inNear (i a : Nat) : Bool := decide (Config.nearBase + i * 2 ^ 21 ≤ a) && decide (a < Config.nearBase + (i + 1) * 2 ^ 21)
def inSlice (i a : Nat) : Bool := decide (i * 2 ^ 24 ≤ a) && decide (a < (i + 1) * 2 ^ 24)
def inStore (a : Nat) : Bool := decide (a < 2 ^ 34)
def inAnyNear (a : Nat) : Bool := decide (Config.nearBase ≤ a) && decide (a < Config.nearBase + 2 ^ 31)
def inHostStore (a : Nat) : Bool := decide (Config.hostStore ≤ a) && decide (a < Config.hostStore + Config.hostStoreSize)
def inAperture (a : Nat) : Bool := decide (Config.aperture ≤ a) && decide (a < 2 ^ 40)
def nearOff (a : Nat) : Nat := a % 2 ^ 21

/-- Whether a transfer with an address waits because it is in the server-memory aperture and the link is down (R405). -/
def linkWaits (c : Chip) (a : Nat) : Bool := inAperture a && !c.boot.pcieUp

/-- Whether a byte lies in a declared range of the job (R60). -/
def inRanges (j : Job) (a : Nat) : Bool := j.decl.ranges.any (fun r => decide (r.lo ≤ a) && decide (a < r.lo + r.len))

/-- Whether `n` bytes from an address lie in declared ranges of the job (R60). -/
def spanIn (j : Job) (a n : Nat) : Bool :=
  j.decl.ranges.any (fun r => decide (r.lo ≤ a) && decide (a + n ≤ r.lo + r.len)) || (List.range n).all (fun t => inRanges j (a + t))

/-- Whether a byte of another package lies in what the job declares there, outside its shelves (R60, R76). -/
def inFar (j : Job) (p a : Nat) : Bool :=
  let holds := fun (l : List (Nat × Nat × Nat)) => l.any (fun r => r.1 == p && decide (r.2.1 ≤ a) && decide (a < r.2.1 + r.2.2))
  (inStore a || inAnyNear a) && holds j.place.farRanges && !(holds j.place.farShelves)

/-- Whether a near-scratchpad byte of core `i` lies in a declared shelf (R76). -/
def inShelf (j : Job) (i a : Nat) : Bool :=
  j.decl.shelves.any (fun s => s.core == i && decide (s.base ≤ nearOff a / 64) && decide (nearOff a / 64 < s.base + s.lines * s.slots))

/-- A plain access of an engine other than the move unit: own memories, declared, outside shelves (R60, R61, R76, R183, R234). -/
def plainOk (j : Job) (i : Nat) (nearOnly : Bool) (a : Nat) : Bool :=
  ((inNear i a && !(inShelf j i a)) || (!nearOnly && inSlice i a)) && inRanges j a

/-- The partition an aperture window is assigned to (R414). -/
def aperPart (c : Chip) (w : Nat) : Option Nat :=
  let v := (tget 0#64 c.aper w).toNat
  if bitOf v 4 then some (v % 16) else none

/-- Whether `n` bytes at an address lie in the host store or in aperture windows assigned to one of the partitions (R289). -/
def tierOk (c : Chip) (parts : List Nat) (a n : Nat) : Bool :=
  if n = 0 then true
  else if inHostStore a && inHostStore (a + n - 1) then true
  else inAperture a && inAperture (a + n - 1) &&
    (List.range ((a + n - 1 - Config.aperture) / Config.apertureWindow - (a - Config.aperture) / Config.apertureWindow + 1)).all (fun t =>
      match aperPart c ((a - Config.aperture) / Config.apertureWindow + t) with | some p => parts.contains p | none => false)

/-- A byte of the job's host area that a stream transfer may reach (R61, R243, R289). -/
def hostOk (c : Chip) (j : Job) (a : Nat) : Bool :=
  decide (j.place.hostBase ≤ a) && decide (a < j.place.hostBase + j.place.hostLen) && tierOk c j.place.parts a 1

/-- Value of a predicate register for a slot of cycle `now`: the write that took effect last before it; P0 is true (R205, R227). -/
def predOf (k : Core) (now p : Nat) : Bool :=
  if p = 0 then true
  else
    match (k.preds.filter (fun w => w.p == p && decide (w.at_ < now))).foldl
      (fun (r : Option PredW) w => match r with
        | none => some w
        | some o => if o.at_ < w.at_ || (o.at_ == w.at_ && decide (o.ord ≤ w.ord)) then some w else r) none with
    | none => false
    | some w => w.val

def setPred (k : Core) (at_ ord p : Nat) (v : Bool) : Core := { k with preds := k.preds ++ [⟨at_, ord, p, v⟩] }

/-- Guard of a shelf slot as a check of cycle `now` sees it (R75). -/
def guardFull (k : Core) (now sh sl : Nat) : Bool :=
  match tfind k.guards (sh * 8192 + sl) with
  | none => false
  | some g => if g.at_ < now then g.full else !g.full

def setGuard (k : Core) (now sh sl : Nat) (full : Bool) : Core := { k with guards := tset k.guards (sh * 8192 + sl) ⟨full, now⟩ }

def shelfOf (j : Job) (i sh : Nat) : Option ShelfDecl := j.decl.shelves.find? (fun s => s.core == i && s.shelf == sh)

/-- Device address of the first byte of a shelf slot. -/
def slotAddr (s : ShelfDecl) (i sl : Nat) : Nat := Config.nearBase + i * 2 ^ 21 + (s.base + sl * s.lines) * 64

/-- A window as a write of cycle `now` sees it (R79). -/
def winSee (w : WinState) (now : Nat) : Window := if w.at_ < now then w.cur else w.old

def Window.closed : Window := ⟨false, false, 0, 0, 0⟩

/-- Whether a window of core `i` admits the whole write (R80). -/
def winAdmits (k : Core) (i now a n tag : Nat) : Bool :=
  k.wins.any (fun p =>
    let w := winSee p.2 now
    w.isOpen && w.tag == tag &&
      (if w.region then inSlice i a && inSlice i (a + n - 1) && decide (w.base * 64 ≤ a % 2 ^ 24) && decide (a % 2 ^ 24 + n ≤ w.limit * 64)
       else inNear i a && inNear i (a + n - 1) && decide (w.base * 64 ≤ nearOff a) && decide (nearOff a + n ≤ w.limit * 64)))

/-- Maximal contiguous runs of byte writes, at most 4 KiB each, in the order written. -/
def runs (ws : List (Nat × List Byte)) : List (Nat × List Byte) :=
  (ws.foldl (fun (acc : List (Nat × List Byte)) w =>
    match acc with
    | [] => [w]
    | p :: r => if p.1 + p.2.length = w.1 ∧ p.2.length + w.2.length ≤ 4096 then (p.1, p.2 ++ w.2) :: r else w :: p :: r) []).reverse

/-- Record hash of a slot that writes memory, its `ord`-th of its engine (R347, R350), added to the core's records of the attempt. -/
def addRecord (c : Chip) (i eng lw ord : Nat) (ws : List (Nat × List Byte)) : Chip :=
  if ws = [] then c
  else
    onCore c i (fun k => { k with
      recs := k.recs ++ [⟨crc64 (ws.flatMap (fun w => leBytes 5 w.1 ++ leBytes 2 w.2.length ++ w.2)), lw, eng, ord⟩] })

/-- A core whose work for the attempt has ended (R44, R229): it took END, its queues are empty and every slot has retired. -/
def coreDone (k : Core) (now : Nat) : Bool :=
  k.ended && k.m0.isEmpty && k.m1.isEmpty && k.v.isEmpty && k.s.isEmpty && k.b.isEmpty && k.flights.isEmpty &&
    [k.a0, k.a1].all (fun a => a.wave.isEmpty && a.drains.isEmpty && a.loads.isEmpty) && decide (k.retireAt ≤ now)

/-- Count a slot issued by an engine (ORDINAL of R350). -/
def countIssue (k : Core) (eng : Nat) : Core := { k with issued := tupd 0 k.issued eng (· + 1) }

/-- Codewords (16 B) that an access touches. -/
def wordsOf (as : List Nat) : List Nat := as.foldl (fun r a => if r.contains (a / 16) then r else r ++ [a / 16]) []

/-- Weights per cell q of a tile format (R157). -/
def cellQ (fmt : Nat) : Nat := if fmt = 6 ∨ fmt = 12 then 2 else 1

/-- Bytes of a tile's full-size slot (R91, R114, R158). -/
def tileBytes (fmt : Nat) : Nat :=
  let rows := 48 * cellQ fmt
  if isMx fmt then rows + rows * 32 * elemWidth fmt / 8 else rows * 32 * elemWidth fmt / 8

/-- Bytes that a tile takes in store: whole rows of 256 B (R114, R157). -/
def tilePitch (fmt : Nat) : Nat := cdiv (tileBytes fmt) 256 * 256

/-- First byte of a drawer on a core (R104). -/
def drawerBase (j : Job) (d i : Nat) : Nat := i * 2 ^ 24 + j.decl.cab.base + d * j.decl.cab.span

/-- Region code of a word for the items of MEMORY_UE (R363). -/
def regionCode (a : Nat) : Nat :=
  if inStore a then 0 else if inAnyNear a then 1 else if decide (2 ^ 40 ≤ a) then 2 else 6

/-- The layer of the resident weight section of a job in which a store byte lies: a base section, or one of a drawer (R91, R104). -/
def sectionAt (j : Job) (a : Nat) : Option Nat :=
  let i := a / 2 ^ 24
  let hit := fun (key lo : Nat) (g : TileGroup) => g.core == i && decide (lo ≤ a) && decide (a < lo + g.tiles * tilePitch g.fmt) && (tfind j.wts.sections key).any (fun s => s.ok)
  ((j.decl.tiles.find? (fun g => hit g.layer g.base g)).or
    ((List.range j.decl.cab.drawers).findSome? (fun d => j.decl.cab.groups.find? (fun g => hit (65536 * (d + 1) + g.layer) (drawerBase j d i + g.base) g)))).map (fun g => g.layer)

/-- Item B of MEMORY_UE and SCRUB_UE (R357, R363): the region and, for a word of a resident weight section, its package index and layer. -/
def regionItem (c : Chip) (a : Nat) : Nat :=
  regionCode a + (if inStore a then (c.jobs.findSome? (fun p => (sectionAt p.2 a).map (fun l => p.2.place.sym * 2 ^ 16 + l * 2 ^ 32))).getD 0 else 0)

/-- Bits that an injection of kinds 1 to 3 flips (R367): the first `n` bytes of SEL, where they name a bit of the codeword. -/
def injectBits (sel n : Nat) : List Nat := ([sel % 256, sel / 256 % 256].take n).filter (fun b => decide (b < 137))

/-- The syndrome of an uncorrectable word: the code's matrix is not stated, so a free value (log entry 4). -/
def withSyndrome (c : Chip) (f : Nat → Chip → Chip) : Chip :=
  f ((Config.freeWord c.free).toNat % 2 ^ 16) { c with free := c.free + 1 }

/-- SEC-DED check of a read by a core (R355, R367): single errors are counted, double errors are MEMORY_UE. -/
def readCheck (c : Chip) (i eng lw : Nat) (as : List Nat) : Chip :=
  let inj := armedFor c 1 i || armedFor c 2 i
  let target := (c.safe.injLo.toNat + c.safe.injHi.toNat % 256 * 2 ^ 32) / 16
  if c.safe.ecc = [] && !inj then c
  else
    each (wordsOf as) c (fun c w =>
      let fires := inj && w == target
      let flips := (if fires then injectBits c.safe.injSel.toNat (if armedFor c 1 i then 1 else 2) else []).foldl (fun o b => upsetWord o [b]) (tget [] c.safe.ecc w)
      match flips with
      | [] => if fires then injectFired c else c
      | [_] =>
        let c1 := if fires then injectFired c else c
        { c1 with safe := { c1.safe with ceReads := satAdd 32 c1.safe.ceReads 1 } }
      | _ => withSyndrome c (fun y c =>
        if fires then injectFault c i eng lw .memoryUe (w * 16) y (regionItem c (w * 16)) else coreFault c i eng lw .memoryUe (w * 16) y (regionItem c (w * 16))))

/-- A lane of a core's bonds failed in this attempt (R356): bit 0 of its mark; bit 1 says that it failed in the attempt before. -/
def noteLane (c : Chip) (i lane : Nat) : Chip :=
  { c with safe := { c.safe with bonds := tupd 0 c.safe.bonds (i * 256 + lane) (fun n => n ||| 1) } }

/-- Before a core's next attempt begins (R356): a lane that failed in two attempts in a row takes one of its group's two spares; other marks age. -/
def ageLanes (c : Chip) (i : Nat) : Chip :=
  let mine := c.safe.bonds.filter (fun b => b.1 / 256 == i)
  if mine = [] then c
  else
    let worn := (mine.filter (fun b => b.2 == 3)).length
    { c with safe := { c.safe with
        spares := if worn = 0 then c.safe.spares else tupd 0 c.safe.spares i (fun n => min 2 (n + worn))
        bonds := (c.safe.bonds.filter (fun b => b.1 / 256 != i || b.2 % 2 == 1)).map (fun b => if b.1 / 256 = i then (b.1, 2) else b) } }

/-- Bond lanes of a core that fail on its next store read. -/
def bondLanes (k : Core) : List Nat := k.upsets.filterMap (fun u => match u.1 with | .bond l => some l | _ => none)
def dropBonds (k : Core) : Core := { k with upsets := k.upsets.filter (fun u => match u.1 with | .bond _ => false | _ => true) }

/-- A store read by a core one of whose bond lanes fails, by itself or by an armed BOND injection (R356, R367). -/
def bondCheck (c : Chip) (i eng lw : Nat) (as : List Nat) : Chip :=
  if armedFor c 9 i && as.any (fun a => inSlice i a) then
    let lane := c.safe.injSel.toNat % 256
    noteLane (injectFault c i eng lw .bondParity 0 (lane / 32) (2 ^ (lane % 32))) i lane
  else if as.any (fun a => inSlice i a) then
    each (bondLanes (core c i)) (onCore c i dropBonds) (fun c lane =>
      noteLane (coreFault c i eng lw .bondParity 0 (lane / 32) (2 ^ (lane % 32))) i lane)
  else c

/-- The plan area here: first byte, bytes of a copy, bytes of an embedding record (R269). -/
def planOf (j : Job) : Option (Nat × Nat × Nat) :=
  j.decl.ranges.findSome? (fun r => match r.use with | .plan n m => some (r.lo, n, m) | _ => none)

/-- Which core wrote into the plan area of a job here is noted, the last write first (R279: a bad row status word is reported with the core that wrote it). `ws`: addresses and bytes. -/
def noteWriter (c : Chip) (tag src : Nat) (ws : List (Nat × Nat)) : Chip :=
  match (tfind c.jobs tag).bind planOf with
  | none => c
  | some p =>
    let mine := ws.filter (fun w => decide (p.1 < w.1 + w.2) && decide (w.1 < p.1 + 3 * p.2.1))
    if mine = [] then c
    else onJob c tag (fun j => { j with ticks := { j.ticks with writers := mine.map (fun w => (w.1, w.2, src)) ++ j.ticks.writers } })

end Sys2Proof.Machine
end

