-- ==== Sys2Proof/Machine/Operands.lean ====
section
/-! DEFINITION. Operand forms: address programs, shelf streams, claims, reading and writing elements (09_keeper.md R231-R236; 03_memory.md R72-R76). -/

namespace Sys2Proof.Machine

/-- An address descriptor taken apart (R231). Windows: output level, tap level, σ, δ, pad, extent. -/
structure Desc where
  base : Nat
  mode : Nat
  wrapEn : Bool
  g : Nat
  istream : Nat
  n : List Nat
  s : List Int
  wrap : Nat
  wins : List (Nat × Nat × Nat × Nat × Nat × Nat)
  pkg : Nat
  remote : Bool
  rot : Nat
  deriving DecidableEq, Repr

def parseWin (d : List Byte) (o : Nat) : Nat × Nat × Nat × Nat × Nat × Nat :=
  let l := field d o 1
  (l % 8, l / 8 % 8, field d (o + 1) 1, field d (o + 2) 1, field d (o + 3) 1, field d (o + 4) 2)

def parseDesc (d : List Byte) : Desc :=
  let m := field d 6 1
  { base := field d 0 5, mode := m % 8, wrapEn := bitOf m 3, g := m / 16 % 8, istream := field d 7 1 % 32,
    n := (List.range 6).map (fun j => field d (8 + 2 * j) 2),
    s := (List.range 6).map (fun j => signed 32 (field d (0x14 + 4 * j) 4)),
    wrap := field d 0x2C 4, wins := [parseWin d 0x30, parseWin d 0x36],
    pkg := field d 0x3C 2 % 4096, remote := bitOf (field d 0x3C 2) 15, rot := field d 0x3E 2 }

/-- The window dimensions in use: extent not 0 (R231). -/
def usedWins (d : Desc) : List (Nat × Nat × Nat × Nat × Nat × Nat) := d.wins.filter (fun w => w.2.2.2.2.2 != 0)

/-- Conditions of R233 that do not need the element width. -/
def descOk (d : Desc) : Bool :=
  let n := fun j => d.n.getD j 0
  decide (d.mode ≤ 4) &&
  (d.mode != 2 || (decide (n 0 ≤ 64) && decide (n 1 ≤ 64) && (usedWins d).isEmpty)) &&
  (d.mode != 4 || (List.range 5).all (fun j => n (j + 1) == 1))

/-- Whether the reserved bits of a descriptor are zero (R10, R231). -/
def descClean (d : List Byte) : Bool :=
  field d 5 1 == 0 && field d 6 1 / 128 == 0 && field d 7 1 / 32 == 0 && field d 0x30 1 / 64 == 0 && field d 0x36 1 / 64 == 0 && bitsOf (field d 0x3C 2) 14 12 == 0

/-- Whether the fields of a descriptor are in their ranges (R231): a modulus, and the σ and δ of a window dimension in use, from 1 up. -/
def descFields (d : Desc) : Bool :=
  (!d.wrapEn || d.mode == 4 || d.wrap != 0) && (usedWins d).all (fun w => decide (1 ≤ w.2.2.1) && decide (1 ≤ w.2.2.2.1))

/-- Elements of an address program (R232); in blocks mode, the 1,536 values of each tile. -/
def descLen (d : Desc) : Nat :=
  if d.mode = 4 then d.n.getD 0 0 * 1536 else d.n.foldl (· * ·) 1

/-- Loop indices i0 to i5 of element `k`, innermost level 0 first; transposed emits levels 0 and 1 exchanged (R233). -/
def loopIdx (d : Desc) (k : Nat) : List Nat :=
  let n := fun j => d.n.getD j 0
  if d.mode = 2 then
    let i1 := k % n 1
    let r := k / n 1
    let i0 := r % n 0
    let r := r / n 0
    [i0, i1, r % n 2, r / n 2 % n 3, r / n 2 / n 3 % n 4, r / n 2 / n 3 / n 4]
  else
    let r1 := k / n 0
    let r2 := r1 / n 1
    let r3 := r2 / n 2
    let r4 := r3 / n 3
    [k % n 0, r1 % n 1, r2 % n 2, r3 % n 3, r4 % n 4, r4 / n 4]

/-- Elements of one iteration of the gather level (R232). -/
def gatherSpan (d : Desc) : Nat := (d.n.take d.g).foldl (· * ·) 1

/-- Which iteration of the gather level element `k` lies in (R232: one index per iteration of level g). -/
def gatherIter (d : Desc) (k : Nat) : Nat := k / gatherSpan d

/-- The index in hand of a slot that takes a gather from the cursor of its binding on: inside an iteration, the one that the slot before read (R232). -/
def seedOf (b : Bind) : Option Nat := let d := parseDesc b.desc; if b.kind = 1 ∧ d.mode = 3 ∧ b.cursor % gatherSpan d ≠ 0 then b.seed else none

/-- Offset of an element in elements; `none` is padding (R232). -/
def descOff (d : Desc) (ix : List Nat) (gi : Int) : Option Int :=
  let i := fun j => ((ix.getD j 0 : Nat) : Int)
  let s := fun j => d.s.getD j 0
  let us := usedWins d
  let step := fun (acc : Int × Bool) (j : Nat) =>
    if us.any (fun w => w.2.1 == j) then acc
    else match us.find? (fun w => w.1 == j) with
      | some w =>
        let u := i j * (w.2.2.1 : Int) + i w.2.1 * (w.2.2.2.1 : Int) - (w.2.2.2.2.1 : Int)
        (acc.1 + u * s j, acc.2 || decide (u < 0) || decide ((w.2.2.2.2.2 : Int) ≤ u))
      | none =>
        if d.mode = 3 ∧ j = d.g then (acc.1 + gi * s j, acc.2) else (acc.1 + i j * s j, acc.2)
  let r := (List.range 6).foldl step (0, false)
  if r.2 then none
  else some (if d.wrapEn && d.wrap != 0 then r.1 % (d.wrap : Int) else r.1)

/-- Where an element lies: padding, a bit address (with its MX scale byte), past the end of its stream, or nowhere. -/
inductive Elem where
  | pad
  | place (bit : Nat) (scale : Option Nat)
  | ended
  | nowhere
  deriving DecidableEq, Repr

def streamOf (k : Core) (sid : Nat) : Stream := tget Stream.unbound k.streams sid

/-- The binding that a claim of cycle `now` sees (R235). -/
def bindOf (st : Stream) (now : Nat) : Bind := if st.at_ < now then st.cur else st.old

/-- The shelf that a binding names: of the core itself for reading, of the core that CORE names for writing, on whatever package (R236). -/
def boundShelf (j : Job) (i : Nat) (b : Bind) : Option ShelfDecl :=
  if b.kind ≠ 3 then shelfOf j i b.shelf
  else if b.core / 1024 = j.place.pkgs.getD j.place.sym 0 then shelfOf j (b.core % 1024) b.shelf
  else j.place.farSlots.find? (fun s => s.core == b.core && s.shelf == b.shelf)

/-- Bytes of a bound shelf slot. -/
def shelfBytes (j : Job) (i : Nat) (b : Bind) : Nat := match boundShelf j i b with | some s => s.lines * 64 | none => 0

/-- Elements a binding holds at width `w` (MX data counts its elements). -/
def bindLen (j : Job) (i : Nat) (b : Bind) (w : Nat) (mx : Option Nat) : Nat :=
  match b.kind with
  | 0 => 0
  | 1 => descLen (parseDesc b.desc)
  | _ => match mx with
    | none => shelfBytes j i b * 8 / w
    | some code => shelfBytes j i b / (1 + mxBlockBytes code) * 32

/-- Elements of the packed vector that an address program walks: up to the largest offset it can reach; 0 where the indices decide (log entry 47). -/
def descSpan (d : Desc) : Nat :=
  if d.mode = 3 then 0
  else if d.wrapEn && d.wrap != 0 then d.wrap
  else
    let us := usedWins d
    ((List.range 6).map (fun j =>
      let top : Nat := if us.any (fun w => w.2.1 == j) then 0
        else match us.find? (fun w => w.1 == j) with | some w => w.2.2.2.2.2 - 1 | none => d.n.getD j 0 - 1
      ((top : Int) * d.s.getD j 0).toNat)).sum + 1

def elemOf (j : Job) (i : Nat) (b : Bind) (w : Nat) (mx : Option Nat) (k : Nat) (gi : Int) : Elem :=
  let n := bindLen j i b w mx
  if n ≤ k then .ended
  else
    let at_ := fun (base len : Nat) (off : Int) =>
      match mx with
      | none =>
        let p := 8 * (base : Int) + (w : Int) * off
        if p < 0 then Elem.nowhere else .place p.toNat none
      | some code =>
        if off < 0 then .nowhere
        else
          let q := mxPlace code (if len = 0 then off.toNat / 256 * 256 + 256 else len) off.toNat
          .place (8 * base + q.2) (some (base + q.1))
    match b.kind with
    | 1 =>
      let d := parseDesc b.desc
      match descOff d (loopIdx d k) gi with
      | none => .pad
      | some off => at_ (d.base + b.rotOff) (descSpan d) off
    | 2 => match shelfOf j i b.shelf with
      | some s => at_ (slotAddr s i b.slot) n k
      | none => .nowhere
    | _ => .nowhere

/-- Exact value of an operand in a stream format (R133, R184). -/
def opVal (code : Nat) (o : Opnd) : Val :=
  let v := decodeVal (elemFmt code) o.code
  match o.scale with | none => v | some s => mxScaled s v

/-- Whether a byte may be reached (R60, R61, R76, R183, R234, R237). -/
def reachOk (c : Chip) (j : Job) (i : Nat) (shelf : Bool) (r : Reach) (a : Nat) : Bool :=
  if shelf then true
  else match r with
    | .nearOnly => plainOk j i true a
    | .own => plainOk j i false a
    | .move => plainOk j i true a || (inStore a && inRanges j a) || hostOk c j a

/-- Bytes of an element of `w` bits at a bit address. -/
def bytesAt (bit w : Nat) : List Nat := (List.range ((bit + w - 1) / 8 - bit / 8 + 1)).map (fun t => bit / 8 + t)

/-- Whether every byte of an element of `w` bits at a bit address may be reached. -/
def spanOk (ok : Nat → Bool) (bit w : Nat) : Bool := (bytesAt bit w).all ok

/-- Bytes that reading or writing a located element touches, the scale byte of its MX block among them. -/
def elemBytes (w : Nat) : Elem → List Nat
  | .place bit sc => bytesAt bit w ++ sc.toList
  | _ => []

/-- Whether the binding a claim sees is transposed (R233). -/
def transposed (k : Core) (now sid : Nat) : Bool :=
  let b := bindOf (streamOf k sid) now
  b.kind == 1 && (parseDesc b.desc).mode == 2

/-! Slots in flight. -/

def flightOf (k : Core) (id : Nat) : Option Flight := k.flights.find? (fun f => f.id == id)

def onFlight (c : Chip) (i id : Nat) (g : Flight → Flight) : Chip :=
  onCore c i (fun k => { k with flights := k.flights.map (fun f => if f.id = id then g f else f) })

/-- The operand an act is of. -/
def actOp : Act → Option Nat
  | .read o _ _ => some o
  | .write o _ _ => some o
  | .writeMx o _ _ _ => some o
  | _ => none

/-- Whether a slot in flight still holds its operand `o`: an act to come is of it, or it is an output and acts are to come (R234). -/
def holdsOp (f : Flight) (o : Nat) : Bool :=
  f.todo.any (fun t => actOp t.act == some o || (decide (f.outs ≤ o) && (match t.act with | .land _ => false | _ => true)))

def heldBy (f : Flight) (sid : Nat) : Bool := f.ops.zipIdx.any (fun p => p.1.sid == sid && holdsOp f p.2)

/-- Whether a stream is still held by another slot, or by a move to or from the host tier (R234, R237). -/
def busy (k : Core) (sid : Nat) : Bool := k.flights.any (fun f => heldBy f sid) || k.moves.any (fun m => m.sids.contains sid)

/-- Streams that a slot claims for the streams it names: each, and the index stream of a gather (R233). -/
def claimed (k : Core) (now : Nat) (sids : List Nat) : List Nat :=
  sids.flatMap (fun s =>
    let b := bindOf (streamOf k s) now
    let d := parseDesc b.desc
    if b.kind = 1 ∧ d.mode = 3 then [s, d.istream] else [s])

/-- Claim the streams of a slot: STREAM_BUSY for the first that is held, or a transposed one while the transpose buffer is in use, and the slot does not issue (R233, R234). -/
def claim (c : Chip) (i eng lw n : Nat) (sids : List Nat) : Bool × Chip :=
  let k := core c i
  let all := claimed k c.now sids
  let buffer := k.streams.any (fun p => busy k p.1 && transposed k c.now p.1)
  match all.zipIdx.findSome? (fun s =>
      if busy k s.1 || (transposed k c.now s.1 && (buffer || (all.take s.2).any (transposed k c.now))) then some s.1 else none) with
  | some s => (false, coreFault c i eng lw .streamBusy 0 s n)
  | none => (true, c)

/-- A stream as a slot that issues now takes it: its operand, and the operand of its index stream, which gives the next indices from its cursor on (R232). `at_`: number the operand will have. -/
def opsOf (k : Core) (now at_ sid w : Nat) (mx : Option Nat) (reach : Reach) : List OpStr :=
  let b := bindOf (streamOf k sid) now
  let d := parseDesc b.desc
  if b.kind = 1 ∧ d.mode = 3 then
    [⟨sid, b, w, mx, reach, some (at_ + 1), seedOf b, [], 0, []⟩,
     ⟨d.istream, bindOf (streamOf k d.istream) now, 32, none, (if reach = .move then .own else reach), none, none, [], 0, []⟩]
  else [⟨sid, b, w, mx, reach, none, none, [], 0, []⟩]

/-- The operands of a slot's streams, in order, with the number of each stream's operand. -/
def opList (k : Core) (now : Nat) (xs : List (Nat × Nat × Option Nat × Reach)) : List OpStr × List Nat :=
  xs.foldl (fun acc x => (acc.1 ++ opsOf k now acc.1.length x.1 x.2.1 x.2.2.1 x.2.2.2, acc.2 ++ [acc.1.length])) ([], [])

/-- Iterations of the gather level that begin after the slot's first element and up to element `k`. -/
def iterAt (o : OpStr) (k : Nat) : Nat := let d := parseDesc o.bind.desc; gatherIter d (o.bind.cursor + k) - gatherIter d o.bind.cursor

/-- First index and count of the indices that elements k to k + n − 1 of a gather need beyond those of the elements before, and beyond the one in hand (R232). -/
def newIdx (o : OpStr) (k n : Nat) : Nat × Nat :=
  let have_ := if o.seed.isSome then 1 else 0
  let lo := if k = 0 then have_ else iterAt o (k - 1) + 1
  (lo - have_, iterAt o (k + n - 1) + 1 - lo)

/-- The reads of elements k to k + n − 1 of operand `o` in cycle `at_`, the new indices of a gather before them. -/
def readsOf (ops : List OpStr) (o at_ k n : Nat) : List Todo :=
  if n = 0 then []
  else
    let ixs := match ops[o]? with
      | some x => match x.ix with
        | some q => let r := newIdx x k n; if r.2 = 0 then [] else [(⟨at_, .read q r.1 r.2⟩ : Todo)]
        | none => []
      | none => []
    ixs ++ [⟨at_, .read o k n⟩]

/-- Advance a stream's cursor by the `n` elements that the slot issuing now takes, and the index stream of a gather with it (R234). -/
def advance (c : Chip) (i sid w : Nat) (mx : Option Nat) (n : Nat) : Chip :=
  match coreJob c i with
  | none => c
  | some j =>
    onCore c i (fun k =>
      let st := streamOf k sid
      let b := bindOf st c.now
      let cur := min (bindLen j i b w mx) (b.cursor + n)
      let b' := { b with cursor := cur }
      let k1 := { k with streams := tset k.streams sid (if st.at_ < c.now then { st with cur := b' } else { st with old := b' }) }
      let d := parseDesc b.desc
      if b.kind = 1 ∧ d.mode = 3 ∧ b.cursor < cur then
        let is_ := streamOf k1 d.istream
        let ib := bindOf is_ c.now
        let ib' := { ib with cursor := ib.cursor + (gatherIter d (cur - 1) + 1 - (gatherIter d b.cursor + (if (seedOf b).isSome then 1 else 0))) }
        { k1 with streams := tset k1.streams d.istream (if is_.at_ < c.now then { is_ with cur := ib' } else { is_ with old := ib' }) }
      else k1)

/-- A slot takes off: it is in flight from now, with its operands and its acts. -/
def takeOff (c : Chip) (i eng : Nat) (s : QSlot) (ops : List OpStr) (outs : Nat) (todo : List Todo) (carry : List (List Nat)) (tile : Nat) : Chip :=
  onCore c i (fun k => { k with
    nextId := k.nextId + 1
    flights := k.flights ++ [⟨k.nextId, s, tget 0 k.issued eng, eng, c.now, ops, outs, todo, [], [], carry, tile⟩] })

/-- A fault of a slot in flight, each code once for the slot (log entry 8). -/
def flightFault (c : Chip) (i eng : Nat) (f : Flight) (x : FaultCode) (addr a b : Nat) : Chip :=
  if ((flightOf (core c i) f.id).getD f).told.contains (faultNo x) then c
  else coreFault (onFlight c i f.id (fun f => { f with told := f.told ++ [faultNo x] })) i eng f.slot.lw x addr a b

/-- Index of element `k` of an operand in its gather (R232): the one in hand, or from the elements of its index operand. -/
def idxOf (f : Flight) (o : OpStr) (k : Nat) : Int :=
  match o.ix.bind (fun q => f.ops[q]?) with
  | none => 0
  | some q =>
    let t := iterAt o k
    let got := fun (x : Nat) => (q.got.getD (x - q.base) Opnd.zero).code
    signed 32 (match o.seed with | some v => if t = 0 then v else got (t - 1) | none => got t)

/-- A gather keeps the last index that a slot read for it (R232). -/
def keepIndex (c : Chip) (i : Nat) (f : Flight) (on v : Nat) : Chip :=
  match f.ops.find? (fun o => o.ix == some on) with
  | none => c
  | some o => onCore c i (fun k =>
      let st := streamOf k o.sid
      let mark := fun (b : Bind) => if b.desc = o.bind.desc then { b with seed := some v } else b
      { k with streams := tset k.streams o.sid { st with cur := mark st.cur, old := mark st.old } })

/-- Where element `k` of an operand lies. -/
def placeOf (j : Job) (i : Nat) (f : Flight) (o : OpStr) (k : Nat) : Elem := elemOf j i o.bind o.w o.mx (o.bind.cursor + k) (idxOf f o k)

/-- Distinct values in order of first appearance. -/
def distinct (l : List Nat) : List Nat := l.foldl (fun r a => if r.contains a then r else r ++ [a]) []

/-- Lines of 64 B that a read of an operand's elements takes through program ports: none for lines it holds. A vector stream reads every line of a group that does not lie in the line it holds (R185); a feeder reads the lines that the vector before did not need (example under R177). -/
def linesRead (eng : Nat) (o : OpStr) (need : List Nat) : List Nat :=
  let held := fun (l : Nat) => o.lines.any (fun p => p.1 == l)
  if eng = engV then (if need.all held then [] else need) else need.filter (fun l => !(held l))

/-- Bank of a near-scratchpad byte (R67). -/
def bankOf (a : Nat) : Nat := nearOff a / 2 ^ 17

/-- A byte as an operand sees it: from a line it holds, else from memory. -/
def heldByte (e : Env) (c : Chip) (o : OpStr) (fresh : List Nat) (a : Nat) : Byte :=
  if fresh.contains (a / 64) then rdByte e c a
  else match o.lines.find? (fun p => p.1 == a / 64) with
    | some p => p.2.getD (a % 64) 0
    | none => rdByte e c a

/-- Whether an operand is transposed with an element width that the transpose buffer does not take (R233). -/
def badTrans (o : OpStr) : Bool := o.bind.kind == 1 && (parseDesc o.bind.desc).mode == 2 && o.w != 8 && o.w != 16 && o.w != 32

/-- Lines of the blocks of a transposed operand that hold elements k to k + n − 1, in level-0 order (R233). -/
def blockLines (c : Chip) (j : Job) (i : Nat) (o : OpStr) (k n : Nat) : List Nat :=
  let d := parseDesc o.bind.desc
  let n0 := d.n.getD 0 0
  let n1 := d.n.getD 1 0
  let ok := reachOk c j i false o.reach
  distinct ((distinct ((List.range n).map (fun t => (o.bind.cursor + k + t) / (n0 * n1)))).flatMap (fun b =>
    (List.range n1).flatMap (fun i1 => (List.range n0).flatMap (fun i0 =>
      let x := elemOf j i o.bind o.w o.mx (b * (n0 * n1) + i0 * n1 + i1) 0
      if (elemBytes o.w x).all ok then (elemBytes o.w x).map (· / 64) else []))))

/-- Lines that the transpose buffer lacks for elements k to k + n − 1 of an operand (R233). -/
def blockLacks (c : Chip) (j : Job) (i : Nat) (o : OpStr) (k n : Nat) : List Nat :=
  if o.bind.kind = 1 ∧ (parseDesc o.bind.desc).mode = 2 ∧ badTrans o = false ∧ (parseDesc o.bind.desc).remote = false then
    (blockLines c j i o k n).filter (fun l => !(o.lines.any (fun p => p.1 == l)))
  else []

/-- Lines of own near scratchpad and rows of own slice that reading elements k to k + n − 1 of an operand touches (R63, R67); none where the read is refused as a whole. -/
def readTouches (c : Chip) (j : Job) (i : Nat) (f : Flight) (o : OpStr) (k n : Nat) : List Nat :=
  let b := o.bind
  let d := parseDesc b.desc
  if (b.kind = 2 ∧ guardFull (core c i) c.now b.shelf b.slot = false) ∨ badTrans o = true ∨
      (b.kind = 1 ∧ d.remote = true ∧ o.reach ≠ .move) then []
  else
    let ok := reachOk c j i (b.kind == 2) o.reach
    let as := (((List.range n).map (fun t => placeOf j i f o (k + t))).filter (fun x => (elemBytes o.w x).all ok)).flatMap (elemBytes o.w)
    linesRead f.eng o (distinct (as.map (· / 64)))

/-- Read elements k to k + n − 1 of operand `o` of a slot in flight, with the faults of R60, R74, R76, R234 and R355; elements that fail, or lie in a bank of `lost`, read as zero. A drained shelf slot becomes EMPTY with its last line (R73). -/
def readAct (e : Env) (c : Chip) (i : Nat) (f0 : Flight) (lost : List Nat) (on k n : Nat) : Chip :=
  match coreJob c i, flightOf (core c i) f0.id with
  | some j, some f =>
    match f.ops[on]? with
    | none => c
    | some o =>
      let b := o.bind
      let d := parseDesc b.desc
      let put := fun (c : Chip) (lines : List (Nat × List Byte)) (xs : List Opnd) =>
        onFlight c i f.id (fun f => { f with ops := f.ops.set on { o with lines := lines, got := o.got ++ xs } })
      let zeros := List.replicate n Opnd.zero
      if b.kind = 2 ∧ guardFull (core c i) c.now b.shelf b.slot = false then
        put (flightFault c i f.eng f .shelfUnderrun (match shelfOf j i b.shelf with | some s => slotAddr s i b.slot | none => 0) (b.shelf + b.slot * 256) 0) o.lines zeros
      else if badTrans o then put (flightFault c i f.eng f .sEncoding d.base 0 0) o.lines zeros
      else if b.kind = 1 ∧ d.remote = true ∧ o.reach ≠ .move then put (flightFault c i f.eng f .addressRange d.base 0 0) o.lines zeros
      else
        let es := (List.range n).map (fun t => placeOf j i f o (k + t))
        let ok := reachOk c j i (b.kind == 2) o.reach
        let bad := es.find? (fun x => match x with | .nowhere => true | x => !((elemBytes o.w x).all ok))
        let good := es.filter (fun x => (elemBytes o.w x).all ok)
        let as := good.flatMap (elemBytes o.w)
        let fresh := linesRead f.eng o (distinct (as.map (· / 64)))
        let gone := fun (a : Nat) => inNear i a && fresh.contains (a / 64) && lost.contains (bankOf a)
        let xs := es.map (fun x => match x with
          | .place bit sc =>
            if (elemBytes o.w x).all (fun a => ok a && !(gone a)) then
              (⟨leNat ((bytesAt bit o.w).map (heldByte e c o fresh)) / 2 ^ (bit % 8) % 2 ^ o.w, sc.map (fun s => (heldByte e c o fresh s).toNat), some (bit / 8)⟩ : Opnd)
            else Opnd.zero
          | _ => Opnd.zero)
        let c1 := match bad with
          | some (.place bit _) => flightFault c i f.eng f .addressRange (bit / 8) 0 0
          | some _ => flightFault c i f.eng f .addressRange 0 0 0
          | none => c
        let c2 := if es.any (fun x => x == .ended) then flightFault c1 i f.eng f .streamEnd 0 o.sid n else c1
        let rd := as.filter (fun a => fresh.contains (a / 64) && !(gone a))
        let c3 := bondCheck (readCheck c2 i f.eng f.slot.lw rd) i f.eng f.slot.lw rd
        let keep := if fresh = [] then o.lines
          else (if f.eng = engV then fresh.getLast?.toList else distinct (as.map (· / 64))).map (fun l => (l, (List.range 64).map (fun t => heldByte e c o fresh (l * 64 + t))))
        let c4 := keepIndex (put c3 keep xs) i f on ((xs.getLast?.map (fun x => x.code)).getD 0)
        if b.kind = 2 ∧ b.drain = true ∧ bindLen j i b o.w o.mx ≤ b.cursor + k + n then onCore c4 i (fun q => setGuard q c.now b.shelf b.slot false) else c4
  | _, _ => c

/-- Elements k to k + n − 1 of an operand as read so far; zero where none has been. -/
def taken (f : Flight) (on k n : Nat) : List Opnd :=
  match f.ops[on]? with
  | none => List.replicate n Opnd.zero
  | some o => (List.range n).map (fun t => o.got.getD (k + t - o.base) Opnd.zero)

/-- Forget the elements of an operand before number `k`. -/
def forget (c : Chip) (i id on k : Nat) : Chip :=
  onFlight c i id (fun f => match f.ops[on]? with
    | none => f
    | some o => { f with ops := f.ops.set on { o with base := max o.base k, got := o.got.drop (k - o.base) } })

/-- Give a slot in flight more to do. -/
def addTodo (c : Chip) (i id : Nat) (ts : List Todo) : Chip := onFlight c i id (fun f => { f with todo := f.todo ++ ts })

/-- Lines of an operand are read into the transpose buffer (R233), up to four a cycle as program reads do (DESIGN CHOICE, log entry 88); those of banks `lost` as zeros. -/
def linesAct (e : Env) (c : Chip) (i : Nat) (f0 : Flight) (lost : List Nat) (on k n : Nat) (ls : List Nat) : Chip :=
  match coreJob c i, flightOf (core c i) f0.id with
  | some j, some f =>
    match f.ops[on]? with
    | none => c
    | some o =>
      let all := blockLines c j i o k n
      let as := ls.flatMap (fun l => [l * 64, l * 64 + 16, l * 64 + 32, l * 64 + 48])
      let new := ls.map (fun l => (l, if lost.contains (bankOf (l * 64)) then List.replicate 64 0 else rdBytes e c (l * 64) 64))
      onFlight (readCheck c i f.eng f.slot.lw as) i f.id (fun f => { f with ops := f.ops.set on { o with lines := o.lines.filter (fun p => all.contains p.1) ++ new } })
  | _, _ => c

/-- Cycles by which the excess of R126 delays a store write of an operand's element: only writes to the core's own slice. -/
def writeShift (c : Chip) (i : Nat) (f : Flight) (o : OpStr) (k : Nat) : Nat :=
  match coreJob c i with
  | some j => match placeOf j i f o k with | .place bit _ => if inSlice i (bit / 8) then (core c i).shift else 0 | _ => 0
  | none => 0

/-! Waits of slots in flight. -/

/-- Whether an act is of the input side of a slot: it waits with the reads before it. -/
def readSide : Act → Bool
  | .read _ _ _ => true
  | .calc _ => true
  | .fetch _ => true
  | .row _ _ => true
  | .heads _ _ => true
  | .lines _ _ _ => true
  | .stay => true
  | _ => false

/-- The reads and computations of a slot from now on come `d` cycles later. -/
def delayActs (now d : Nat) (f : Flight) : Flight :=
  { f with todo := f.todo.map (fun t => if t.at_ = 0 ∨ readSide t.act = false then t else { t with at_ := max t.at_ now + d }), start := if f.eng = engV then f.start + d else f.start }

/-! Writes. -/

/-- Bit writes as byte writes: whole bytes directly, others merged into the bytes they share. -/
def bitWrites (e : Env) (c : Chip) (w : Nat) (xs : List (Nat × Nat)) : List (Nat × List Byte) :=
  if w % 8 = 0 then xs.map (fun x => (x.1 / 8, leBytes (w / 8) x.2))
  else
    let m := xs.foldl (fun (t : Tab Nat) x =>
      let a := x.1 / 8
      let sh := x.1 % 8
      let lo := tget (rdByte e c a).toNat t a
      let hi := tget (rdByte e c (a + 1)).toNat t (a + 1)
      let v := lo + hi * 256
      let v' := v - v / 2 ^ sh % 2 ^ w * 2 ^ sh + x.2 % 2 ^ w * 2 ^ sh
      let t1 := tset t a (v' % 256)
      if 8 < sh + w then tset t1 (a + 1) (v' / 256) else t1) []
    m.map (fun p => (p.1, [BitVec.ofNat 8 p.2]))

/-- Codes of a write act with the places they go to. -/
def spots (j : Job) (i : Nat) (f : Flight) (o : OpStr) (k : Nat) (codes : List Nat) : List (Nat × Elem) :=
  codes.zipIdx.map (fun x => (x.1, placeOf j i f o (k + x.2)))

/-- Whether a byte may be written by an operand: a shelf takes only moves (R73, R236), a transposed stream has its widths (R233). -/
def writeOk (c : Chip) (j : Job) (i : Nat) (o : OpStr) (a : Nat) : Bool := o.bind.kind == 1 && !(badTrans o) && !(parseDesc o.bind.desc).remote && reachOk c j i false o.reach a

/-- The byte writes of element codes from element `k` of an operand, in reach. -/
def codeWrites (e : Env) (c : Chip) (j : Job) (i : Nat) (f : Flight) (o : OpStr) (k : Nat) (codes : List Nat) : List (Nat × List Byte) :=
  runs (bitWrites e c o.w ((spots j i f o k codes).filterMap (fun x => match x.2 with
    | .place bit _ => if spanOk (writeOk c j i o) bit o.w then some (bit, x.1) else none
    | _ => none)))

/-- The byte writes of MX blocks from element `k` of an operand, of which `n` elements count; the rest of the last block is written as padding (R131, R184). `blocks`: scale and 32 codes of each block of the stream from the one that holds element `k` on. -/
def mxWrites (e : Env) (c : Chip) (j : Job) (i : Nat) (f : Flight) (o : OpStr) (k n : Nat) (blocks : List (Nat × List Nat)) : List (Nat × List Byte) :=
  let cur := o.bind.cursor
  let len := bindLen j i o.bind o.w o.mx
  let first := (cur + k) / 32
  let stop := cdiv (cur + k + n) 32 * 32
  let at_ := fun (x : Nat) => if x < len then placeOf j i f o (x - cur)
    else match placeOf j i f o (len - 1 - cur) with
      | .place bit sc => .place (bit + o.w * (x + 1 - len)) sc
      | y => y
  let es := (List.range (stop - (cur + k))).filterMap (fun t =>
    let x := cur + k + t
    match (if x < cur + k + n then placeOf j i f o (x - cur) else if len < cur + k + n then Elem.ended else at_ x) with
    | .place bit (some s) => if spanOk (writeOk c j i o) bit o.w && writeOk c j i o s then some (bit, s, blocks.getD (x / 32 - first) (0, []), x % 32) else none
    | _ => none)
  runs ((distinct (es.map (fun x => x.2.1))).filterMap (fun s => (es.find? (fun x => x.2.1 == s)).map (fun x => (s, [BitVec.ofNat 8 x.2.2.1.1]))) ++
    bitWrites e c o.w (es.map (fun x => (x.1, x.2.2.1.2.getD x.2.2.2 0))))

/-- Bytes `lo` to `lo` + n − 1 of elements of `b` bytes each, of which this is number `t` with code `v`: the first such byte in the element, and the bytes. -/
def elemSlice (b lo n t v : Nat) : Nat × List Byte :=
  let x := max lo (t * b)
  (x - t * b, ((leBytes b v).drop (x - t * b)).take (min (lo + n) ((t + 1) * b) - x))

/-- The byte writes of bytes `lo` to `lo` + n − 1 of element codes from element `k` of an operand, in reach (R161, R237). -/
def partWrites (c : Chip) (j : Job) (i : Nat) (f : Flight) (o : OpStr) (k lo n : Nat) (codes : List Nat) : List (Nat × List Byte) :=
  runs ((spots j i f o k codes).zipIdx.filterMap (fun x => match x.1.2 with
    | .place bit _ =>
      let y := elemSlice (o.w / 8) lo n x.2 x.1.1
      if y.2 ≠ [] ∧ spanOk (writeOk c j i o) bit o.w = true then some (bit / 8 + y.1, y.2) else none
    | _ => none))

/-- Faults of a write act (R60, R233, R234). -/
def writeFaults (c : Chip) (j : Job) (i : Nat) (f : Flight) (o : OpStr) (es : List Elem) : Chip :=
  if badTrans o then flightFault c i f.eng f .sEncoding (parseDesc o.bind.desc).base 0 0 else
  let c1 := match es.find? (fun x => match x with | .nowhere => true | x => !((elemBytes o.w x).all (writeOk c j i o))) with
    | some (.place bit _) => flightFault c i f.eng f .addressRange (bit / 8) 0 0
    | some _ => flightFault c i f.eng f .addressRange 0 0 0
    | none => c
  if es.any (fun x => x == .ended) then flightFault c1 i f.eng f .streamEnd 0 o.sid es.length else c1

/-- Bytes of codeword `q` that a write covers. -/
def coverOf (w : Nat × List Byte) (q : Nat) : Nat := min (w.1 + w.2.length) (16 * q + 16) - max w.1 (16 * q)

/-- Whether a run touches a codeword of own near scratchpad that the whole access, of disjoint runs `ws`, covers only in part (R69). -/
def partialWrite (i : Nat) (ws : List (Nat × List Byte)) (w : Nat × List Byte) : Bool :=
  inNear i w.1 && [w.1 / 16, (w.1 + w.2.length - 1) / 16].any (fun q => decide ((ws.map (fun x => coverOf x q)).sum < 16))

/-- A write is noted for the slot's record (R347). -/
def noteOut (c : Chip) (i id : Nat) (ws : List (Nat × List Byte)) : Chip := onFlight c i id (fun f => { f with out := f.out ++ ws })

/-- Byte writes of a slot in cycle `now`, its core noted where they meet the plan area: whole codewords land, a partial one lands in the next cycle (R69); bytes of a bank of `lost` are not written. -/
def landWrites (c : Chip) (i id : Nat) (lost : List Nat) (ws : List (Nat × List Byte)) : Chip :=
  let mine := ws.filter (fun w => !(inNear i w.1 && lost.contains (bankOf w.1)))
  let now := mine.filter (fun w => !(partialWrite i mine w))
  let later := mine.filter (partialWrite i mine)
  let c := noteWriter c (jobOfCore c i) (gca c i) (mine.map (fun w => (w.1, w.2.length)))
  noteOut (each now (if later = [] then c else addTodo c i id [⟨c.now + 1, .land later⟩]) (fun c w => wr c w.1 w.2)) i id mine

end Sys2Proof.Machine
end

