-- ==== Sys2Proof/Machine/Waves.lean ====
section
/-! DEFINITION. The wave of vectors through a matrix array: feeders, load rows, columns, slip, freeze (07_matrix.md R160-R175). -/

namespace Sys2Proof.Machine

def arrOf (k : Core) (arr : Nat) : MArray := if arr = 0 then k.a0 else k.a1

def setArr (k : Core) (arr : Nat) (a : MArray) : Core := if arr = 0 then { k with a0 := a } else { k with a1 := a }

def onArr (c : Chip) (i arr : Nat) (f : MArray → MArray) : Chip := onCore c i (fun k => setArr k arr (f (arrOf k arr)))

/-- Slot fields: bits [hi:lo] of the slot. -/
def sf (w : Dword) (hi lo : Nat) : Nat := bitsOf w.toNat hi lo

def opOf (w : Dword) : Nat := bitsOf w.toNat 63 58

/-- Element width class 16, 8 or 4 of the wider of two formats (R159). -/
def widest (a b : Nat) : Nat := max (elemWidth a) (elemWidth b)

/-- Use cycle k = q / ρ (R159). -/
def useCycle (q wide : Nat) : Nat := if 8 < wide then 2 * q else if 4 < wide then q else max 1 (q / 2)

/-- Whether a slot in flight is a use that claims the shadow (R163). -/
def swapsIn (f : Flight) : Bool := opOf f.slot.w == 2 && bitOf f.slot.w.toNat 50

/-- Elements that one vector of a use or outer product takes from its feeder (R159, R174, R175); two rows of an E2M1 or MXFP4 tile share a cell row. -/
def feedLen (a : MArray) (f : Flight) : Nat :=
  if opOf f.slot.w = 3 then 48
  else if bitOf f.slot.w.toNat 49 then 32
  else 48 * cellQ (match tfind a.tiles f.tile with | some t => t.fmt | none => 0)

/-- Whether a use takes the lines of a window as they land (R167). -/
def bypass (f : Flight) : Bool := opOf f.slot.w == 2 && sf f.slot.w 26 25 == 2

/-- Whether cell row `r` finds its entry of vector `t` in its feeder (R167, R170): the fill of the vector, row by row, or the bytes that have landed. -/
def fedRow (a : MArray) (f : Flight) (now t r : Nat) : Bool :=
  if bypass f then
    let len := feedLen a f
    decide (t * len + min len ((r + 1) * (if len = 96 then 2 else 1)) ≤ (match f.ops[0]? with | some o => o.base + o.got.length | none => 0))
  else decide (((f.carry.headD []).getD t 0) + r ≤ now)

/-- Whether the row has its weights of the tile that the vector flips to (R164): entered in an earlier cycle. -/
def loadedRow (a : MArray) (f : Flight) (t r : Nat) : Bool :=
  match a.loads.find? (fun l => l.tile == f.tile) with
  | some l => !(swapsIn f && t == 0) || decide (r < l.rows)
  | none => true

/-- The accumulator entry of vector `t` (R161). -/
def accEntry (f : Flight) (t : Nat) : Nat := (sf f.slot.w 44 39 + t) % 64

/-- Whether a slot in flight reads its tile transposed (R174). -/
def transUse (f : Flight) : Bool := opOf f.slot.w == 2 && bitOf f.slot.w.toNat 49

/-- Feeders that a vector enters by: 48 rows, or 32 columns in transposed reading (R160, R174). -/
def feedsOf (f : Flight) : Nat := if transUse f then 32 else 48

/-- Sums that a vector leaves: 32 columns, or 48 rows in transposed reading (R160, R174); the 48 rows of cells of an outer product (R175). -/
def lanesOf (f : Flight) : Nat := if opOf f.slot.w = 3 ∨ transUse f = true then 48 else 32

/-- What a slot's fields say of its drain: output code, SAT, FPLANE (R180). -/
def drainFields (w : Dword) : Nat × Bool × Bool :=
  match opOf w with
  | 2 => (sf w 53 51, sf w 46 46 == 1, sf w 45 45 == 1)
  | 4 => (sf w 57 55, sf w 53 53 == 1, sf w 52 52 == 1)
  | _ => (sf w 56 54, sf w 53 53 == 1, sf w 52 52 == 1)

/-- Bits of an output in an output code (R148, R180). -/
def outBits (ofmt : Nat) : Nat := if ofmt = 6 then 192 else fmtWidth (outFmt ofmt)

/-- Lanes that the beats of a drain gone so far have taken whole (R161). -/
def lanesGone (k : Core) (d : Drain) : Nat :=
  match flightOf k d.fl with
  | some f => 2048 * d.beat / outBits (drainFields f.slot.w).1
  | none => 48

/-- Whether slots before vector `t` of slot `fl` still hold lane `x` of an entry, or row `x` of the cells: results that wait for the drain (R162, R171), or records still to be added (R182). -/
def laneHeld (k : Core) (a : MArray) (arr fl t : Nat) (cells : Bool) (place x : Nat) : Bool :=
  a.drains.any (fun d => d.cells == cells && d.place == place && (decide (d.fl < fl) || (d.fl == fl && decide (d.t < t))) && (cells || decide (lanesGone k d ≤ x))) ||
    (!cells && k.flights.any (fun g => decide (g.id < fl) && g.eng == arr && opOf g.slot.w == 5 && g.todo.any (fun y => match y.act with
      | .calc u => (sf g.slot.w 51 46 + u) % 64 == place
      | _ => false)))

/-- The vector before a vector in the wave. -/
def before (a : MArray) (v : Vec) : Option Vec := (a.wave.takeWhile (fun x => !(x.fl == v.fl && x.t == v.t))).getLast?

/-- Whether a vector may enter its next row in cycle `now` (R164, R170): its feeder entry and the row's weights are in hand, and the row is free of the vector before. -/
def rowReady (k : Core) (a : MArray) (now : Nat) (v : Vec) : Bool :=
  match flightOf k v.fl with
  | none => true
  | some f =>
    let r := v.rows.length
    fedRow a f now v.t r && loadedRow a f v.t r && decide (a.rowFree.getD r 0 ≤ now) &&
      (match before a v with
        | some p => decide (r < p.rows.length) || (match flightOf k p.fl with | some g => decide (feedsOf g ≤ p.rows.length) | none => true)
        | none => true)

/-- The cycle in which lane `x` of a vector is added if nothing holds it: two cycles after the sum has left the last row, one more for each lane; a row of cells when the checksum cell has had its product (R160, R174, R175). -/
def laneAt (f : Flight) (v : Vec) (x : Nat) : Option Nat :=
  if opOf f.slot.w = 3 then (v.rows[x]?).map (· + 33)
  else if v.rows.length < feedsOf f then none else (v.rows.getLast?).map (fun t => t + 2 + x)

/-- The nominal cycle of the same (R160, R174). -/
def laneDue (f : Flight) (v : Vec) (x : Nat) : Nat := v.due + feedsOf f + 1 + x

/-- Whether lane `x` of a vector is added by cycle `now` (R162, R171): its sum is there, its column is free of the vector before, and its entry of the drain. -/
def laneReady (k : Core) (a : MArray) (now : Nat) (f : Flight) (v : Vec) (x : Nat) : Bool :=
  (match laneAt f v x with | some t => decide (t ≤ now) | none => false) &&
    (opOf f.slot.w == 3 || decide (a.colFree.getD x 0 ≤ now)) && (!(transUse f) || loadedRow a f v.t x) &&
    (match before a v with
      | some p => decide (x < p.cols) || (match flightOf k p.fl with | some g => decide (lanesOf g ≤ p.cols) | none => true)
      | none => true) &&
    !(if opOf f.slot.w = 3 then laneHeld k a f.eng v.fl v.t true x x else laneHeld k a f.eng v.fl v.t false (accEntry f v.t) x)

/-- Lanes of a vector that are added in cycle `now`. -/
def lanesNow (k : Core) (a : MArray) (now : Nat) (f : Flight) (v : Vec) : Nat :=
  (((List.range (lanesOf f)).drop v.cols).takeWhile (laneReady k a now f v)).length

/-- Whether the array is frozen in cycle `now`: the slip of some row or column would become 17 (R172). -/
def frozen (k : Core) (arr now : Nat) : Bool :=
  let a := arrOf k arr
  a.wave.any (fun v => match flightOf k v.fl with
    | none => false
    | some f =>
      if v.rows.length < feedsOf f then decide (v.due + v.rows.length + 16 ≤ now) && !(rowReady k a now v)
      else opOf f.slot.w == 2 && decide (v.cols < lanesOf f) && decide (laneDue f v v.cols + 16 ≤ now) && !(laneReady k a now f v v.cols))

/-- A frozen cycle (R172): every later event of the array comes one cycle later, but for what is in the drain already. -/
def freezeArr (now : Nat) (a : MArray) : MArray :=
  { a with
    wave := a.wave.map (fun v => { v with due := v.due + 1, rows := v.rows.map (· + 1) })
    drains := a.drains.map (fun d => { d with ins := d.ins.map (fun l => l.map (fun x => if now < x then x + 1 else x)) })
    rowFree := a.rowFree.map (· + 1), colFree := a.colFree.map (· + 1)
    ready := a.ready + 1, next := a.next + 1, frozeAt := some (a.frozeAt.getD now) }

/-- A list of cycles with entry `n` set; absent entries count as 0. -/
def setAt (l : List Nat) (n v : Nat) : List Nat := (l ++ List.replicate (n + 1 - l.length) 0).set n v

/-- The rows of a wave in a cycle that is not frozen: each vector that may enters its next row, which takes the next one a use cycle later (R160, R170). -/
def stepRows (k : Core) (now : Nat) (a : MArray) : MArray :=
  let go := a.wave.map (fun v => match flightOf k v.fl with
    | some f => decide (v.rows.length < feedsOf f) && decide (v.due + v.rows.length ≤ now) && rowReady k a now v
    | none => false)
  { a with
    rowFree := (a.wave.zip go).foldl (fun l p => if p.2 then setAt l p.1.rows.length (now + p.1.k) else l) a.rowFree
    wave := (a.wave.zip go).map (fun p => if p.2 then { p.1 with rows := p.1.rows ++ [now] } else p.1) }

/-- The load waves after such a cycle (R164): the next row of each enters when its group is in hand, the wave before it is past that row, and the cell row has flipped to the tile before. -/
def stepLoads (k : Core) (a : MArray) (now : Nat) : List LoadWave :=
  (a.loads.zipIdx.map (fun p =>
    let l := p.1
    let behind := (a.loads.take p.2).any (fun q => decide (q.rows ≤ l.rows) && q.rows != 48)
    let blocked := a.wave.any (fun v => match flightOf k v.fl with
      | some f => swapsIn f && v.t == 0 && decide (f.tile < l.tile) && decide (v.rows.length ≤ min l.rows (feedsOf f - 1))
      | none => false)
    if decide (l.rows < 48) && !behind && !blocked && l.hand.length == 6 && decide (l.hand.getD (l.rows / 8) 0 ≤ now) then { l with rows := l.rows + 1, lastIn := now } else l)).filter
      (fun l => !(l.rows == 48 && decide (l.lastIn + 32 ≤ now)))

/-- Entries that have come to the feeder of row `r` and have not been read (R167): a row reads its entry when it is due, and later only if the row itself waits. -/
def queueLevel (k : Core) (arr now r : Nat) : Nat :=
  let a := arrOf k arr
  (a.wave.filter (fun v => match flightOf k v.fl with
    | none => false
    | some f => decide (r < feedsOf f) && decide (v.rows.length ≤ r) && fedRow a f now v.t r && (bypass f || decide (0 < (f.carry.headD []).getD v.t 0)) &&
        (decide (now ≤ v.due + r) || v.rows.length == r || !(loadedRow a f v.t r)))).length

/-- Whether a feeder queue of an array holds 32 entries (R167). -/
def queuesFull (k : Core) (arr now : Nat) : Bool := (arrOf k arr).wave != [] && (List.range 48).any (fun r => decide (32 ≤ queueLevel k arr now r))

end Sys2Proof.Machine
end

