-- ==== Sys2Proof/Machine/Slots.lean ====
section
/-! DEFINITION. Issue of slots from the engine queues of a core (09_keeper.md R225, R234; 07_matrix.md R180; 08_vector.md R208; 10_contract.md R262). -/

namespace Sys2Proof.Machine

/-- The queues of a core that issue slots. -/
inductive Queue where
  | m0 | m1 | v | s | b
  deriving DecidableEq, Repr

def queueOf (k : Core) : Queue → List QSlot
  | .m0 => k.m0 | .m1 => k.m1 | .v => k.v | .s => k.s | .b => k.b

def setQueue (k : Core) (q : Queue) (l : List QSlot) : Core :=
  match q with
  | .m0 => { k with m0 := l } | .m1 => { k with m1 := l } | .v => { k with v := l } | .s => { k with s := l }
  | .b => { k with b := l }

/-- The cycle from which an engine takes its next slot: for an array, every slot but a load or MNOP waits for the occupancy of the use before it (R160, R182). -/
def readyOf (k : Core) (q : Queue) (op : Nat) : Nat :=
  let arr := fun (a : MArray) => if op ≤ 1 then a.next else max a.next a.ready
  match q with
  | .m0 => arr k.a0 | .m1 => arr k.a1 | .v => k.vReady | .s => k.sReady | .b => k.bReady

/-- The next slot of a queue issues no earlier than cycle `t`. -/
def setNext (k : Core) (q : Queue) (t : Nat) : Core :=
  match q with
  | .m0 => { k with a0 := { k.a0 with next := max k.a0.next t } } | .m1 => { k with a1 := { k.a1 with next := max k.a1.next t } }
  | .v => { k with vReady := max k.vReady t } | .s => { k with sReady := max k.sReady t } | .b => { k with bReady := max k.bReady t }

/-- The engine of a queue is occupied until cycle `t`. -/
def setReady (k : Core) (q : Queue) (t : Nat) : Core :=
  match q with
  | .m0 => { k with a0 := { k.a0 with ready := t } } | .m1 => { k with a1 := { k.a1 with ready := t } }
  | .v => { k with vReady := t } | .s => { k with sReady := t } | .b => { k with bReady := t }

/-- Engine code and place in slot order of a queue (R205, R250). -/
def queueEng : Queue → Nat
  | .m0 => 0 | .m1 => 1 | .v => 2 | .s => 3 | .b => 4

/-- Highest listed opcode of a queue's slots (R180, R208, R230, R235). -/
def queueTop : Queue → Nat
  | .m0 => 5 | .m1 => 5 | .v => 7 | .s => 3 | .b => 6

def queueFault : Queue → FaultCode
  | .m0 => .mEncoding | .m1 => .mEncoding | .v => .vEncoding | .s => .sEncoding | .b => .bEncoding

/-- Remove the head of a queue; the next slot issues no earlier than the next cycle (R225). -/
def popHead (c : Chip) (i : Nat) (q : Queue) : Chip :=
  onCore c i (fun k =>
    let k1 := countIssue (setNext (setQueue k q (queueOf k q).tail) q (c.now + 1)) (queueEng q)
    { k1 with retireAt := max k1.retireAt c.now })

/-- Whether the queue of an array issues nothing in this cycle, for the array is frozen (R172). -/
def queueFrozen (k : Core) (q : Queue) (now : Nat) : Bool := match q with | .m0 => frozen k 0 now | .m1 => frozen k 1 now | _ => false

/-- The slot at the head of a queue that may issue now: at least one cycle after its take, the engine free and no WAIT or BARRIER holding the B queue (R222, R225). -/
def headNow (c : Chip) (i : Nat) (q : Queue) : Option QSlot :=
  let k := core c i
  match queueOf k q with
  | [] => none
  | s :: _ =>
    if s.taken + 1 ≤ c.now ∧ readyOf k q (opOf s.w) ≤ c.now ∧ (k.bHeld.isNone || q != .b) = true ∧ queueFrozen k q c.now = false then some s else none

/-- Whether the declared engine set and the grade hold a queue's engine (R176, R239, R262). -/
def enginePresent (e : Env) (c : Chip) (i : Nat) (q : Queue) : Bool :=
  match coreJob c i with
  | none => true
  | some j =>
    match q with
    | .m0 => bitOf j.hdr.engines 0
    | .m1 => bitOf j.hdr.engines 1 && !e.fuses.gradeC
    | .v => bitOf j.hdr.engines 2
    | .s => bitOf j.hdr.engines 3
    | .b => true

/-- Issue the head slot of a queue if its opcode is `op`: an unlisted opcode or an absent engine is a fault and the slot is dropped; another opcode waits for its own command. -/
def issue (e : Env) (c : Chip) (i : Nat) (q : Queue) (op : Nat) (f : Chip → QSlot → Chip) : Chip :=
  match headNow c i q with
  | none => c
  | some s =>
    let skip := q != .m0 && q != .m1 && !(predOf (core c i) c.now (sf s.w 57 55))
    if !(enginePresent e c i q) && !skip then coreFault (popHead c i q) i (queueEng q) s.lw .engineAbsent 0 0 0
    else if queueTop q < opOf s.w then coreFault (popHead c i q) i (queueEng q) s.lw (queueFault q) 0 0 0
    else if opOf s.w = op then f (popHead c i q) s
    else c

/-- Occupy an engine for `n` cycles from now. -/
def occupy (c : Chip) (i : Nat) (q : Queue) (n : Nat) : Chip := onCore c i (fun k => setReady k q (c.now + max n 1))

end Sys2Proof.Machine
end

