-- ==== Sys2Proof/Machine/Buoys.lean ====
section
/-! DEFINITION. Buoys, barriers and the B slots (02_beacon.md R33-R42; 09_keeper.md R230). -/

namespace Sys2Proof.Machine

/-- A reference taken apart: package and package-local number (R33). -/
def refPkg (r : Nat) : Nat := r / 2 ^ 18 % 4096
def refLocal (r : Nat) : Nat := r % 2 ^ 18

def buoy (c : Chip) (n : Nat) : Buoy := tget Buoy.free c.buoys n

/-- Effect of an operation on a value: the new value, or `none` for a wrap (R34, R36). WAIT changes nothing. -/
def buoyApply (op : BuoyOp) (v x : Word) : Option Word :=
  match op with
  | .set => some x
  | .add => let t := v.toNat + x.toInt; if t < 0 ∨ 2 ^ 32 ≤ t then none else some (BitVec.ofInt 32 t)
  | .wait => some v
  | .testAndSet => if v = 0 then some x else some v
  | .clear => some 0

/-- CCLK from a core to a buoy of its package (R38). -/
def buoyLat (i n : Nat) : Nat := match ringHops (i / 256) (n / 2 ^ 16) with | 0 => 2 | 1 => 32 | _ => 62

/-- Apply an operation at a buoy of this package (R34-R36): the fault, if any, is reported by `fault`. -/
def buoyAt (c : Chip) (m : BuoyMsg) (fault : FaultCode → Chip → Chip) : Chip :=
  let n := refLocal m.ref
  let b := buoy c n
  if b.job = 0 ∨ b.job ≠ m.job then fault .buoyRange c
  else match buoyApply m.op b.val m.val with
    | none => fault .buoyWrap c
    | some v => { c with buoys := tset c.buoys n { b with val := v } }

/-- An operation leaves a core for a buoy of its package (R38). -/
def sendBuoy (c : Chip) (i eng lw pd : Nat) (m : BuoyMsg) : Chip :=
  { c with buoyq := c.buoyq ++ [⟨c.now + buoyLat i (refLocal m.ref), m, eng, lw, pd⟩] }

/-- A B slot's operation message from a core (R230, R39). -/
def slotMsg (c : Chip) (i : Nat) (op : BuoyOp) (s : QSlot) (v : Word) : BuoyMsg :=
  let a := (coreJob c i).bind newest
  ⟨sf s.w 51 22, op, v, jobOfCore c i, (a.map (fun a => a.tick)).getD 0, (a.map (fun a => a.ord)).getD 0, gca c i⟩

def bFault (c : Chip) (i : Nat) (s : QSlot) (f : FaultCode) (v : Word) : Chip :=
  coreFault c i engB s.lw f 0 (sf s.w 51 22) v.toNat

/-- A fault of a buoy operation at the buoy's end (R35, R363). -/
def buoyRx (c : Chip) (m : BuoyMsg) (f : FaultCode) : Chip :=
  raise c ⟨faultNo f, engRx, gca c (refLocal m.ref / 2 ^ 16 * 256), none, noLw, m.job, some (m.tick, m.attempt), 0, m.core, m.ref, m.val.toNat, true, true, false⟩

/-- Whether the job of a core declares the buoy that a reference names (R35): its own buoys here, or those that another package of the job declares. -/
def buoyDeclared (c : Chip) (i ref : Nat) : Bool :=
  if refPkg ref = c.beacon.pkg then (buoy c (refLocal ref)).job != 0 && (buoy c (refLocal ref)).job == jobOfCore c i
  else (coreJob c i).any (fun j => j.place.far.any (fun r => r.1 == refPkg ref && decide (r.2.1 ≤ refLocal ref) && decide (refLocal ref < r.2.1 + r.2.2)))

/-- An operation leaves for a buoy of another package (R38): it reaches its port after 2 CCLK and the ring crossings to it. -/
def awayBuoy (c : Chip) (i : Nat) (m : BuoyMsg) : Chip :=
  sendTo c m.job (refPkg m.ref) c.beacon.pkg (fun n => 2 + Config.ring * ringHops (i / 256) (n / 4)) (.buoy m)

/-- SET, ADD and CLEAR (R34-R38): on their way to a buoy of this package, or sent to another package. Outside the declared ranges it is BUOY_RANGE here, and where the buoy carries another job's tag the operation is dropped there and reported there too. -/
def bOp (op : BuoyOp) (v : Word) (c : Chip) (i : Nat) (s : QSlot) : Chip :=
  if !(predOf (core c i) c.now (sf s.w 57 55)) then c
  else
    let m := slotMsg c i op s v
    let here := refPkg m.ref == c.beacon.pkg
    if !(buoyDeclared c i m.ref) then
      let c1 := bFault c i s .buoyRange v
      if here && (buoy c (refLocal m.ref)).job != 0 && refLocal m.ref / 2 ^ 16 != i / 256 then buoyRx c1 m .buoyRange
      else if !here && (coreJob c i).any (fun j => j.place.pkgs.contains (refPkg m.ref)) then awayBuoy c1 i m
      else c1
    else if here then sendBuoy c i engB s.lw 0 m
    else awayBuoy c i m

/-- VALUE of a B slot: zero-extended, signed for ADD (R230). -/
def bValue (s : QSlot) : Word := BitVec.ofNat 32 (sf s.w 21 0)
def bSigned (s : QSlot) : Word := BitVec.ofInt 32 (signed 22 (sf s.w 21 0))

/-- Whether a buoy is of the core's own stack and of its job (R35). -/
def ownBuoy (c : Chip) (i ref : Nat) : Bool :=
  refPkg ref == c.beacon.pkg && refLocal ref / 2 ^ 16 == i / 256 && buoyDeclared c i ref

/-- TEST_AND_SET (R34, R35, R230): the operation reaches the buoy 2 CCLK after issue, and the predicate is written then. -/
def bTestAndSet (c : Chip) (i : Nat) (s : QSlot) : Chip :=
  let pd := sf s.w 54 52
  if pd = 0 then coreFault c i engB s.lw .bEncoding 0 0 0
  else if !(predOf (core c i) c.now (sf s.w 57 55)) then c
  else if !(ownBuoy c i (sf s.w 51 22)) then bFault c i s .buoyRange (bValue s)
  else sendBuoy c i engB s.lw pd (slotMsg c i .testAndSet s (bValue s))

/-- Put a slot back at the head of the B queue and note that it holds since this cycle (R225, R226). -/
def holdB (c : Chip) (i : Nat) (s : QSlot) : Chip := onCore c i (fun k => { k with b := s :: k.b, bHeld := some c.now, bFree := none })

/-- WAIT (R34, R35, R38): the queue holds until the value reaches the threshold; a condition that already holds releases 2 CCLK after issue. -/
def bWait (c : Chip) (i : Nat) (s : QSlot) : Chip :=
  if !(predOf (core c i) c.now (sf s.w 57 55)) then c
  else if !(ownBuoy c i (sf s.w 51 22)) then bFault c i s .buoyRange (bValue s)
  else if (bValue s).toNat ≤ (buoy c (refLocal (sf s.w 51 22))).val.toNat then
    onCore (holdB c i s) i (fun k => { k with bFree := some (c.now + 2) })
  else holdB c i s

def barAt (c : Chip) (g : Nat) : Bar := tget Bar.free c.bars g

/-- Member cores of a group (R41): the cores of its bands on each package, as global core addresses. -/
def barMembers (b : Bar) : List Nat :=
  b.members.flatMap (fun m => (coresOf (BitVec.ofNat 16 m.2)).map (fun i => m.1 * 1024 + i))

/-- Package that holds a group's root: its lowest-numbered member package (R42). -/
def barRoot (b : Bar) : Nat := (b.members.map Prod.fst).foldl min 0xFFF

/-- Stack that holds a group's root, on the root's package: its lowest-numbered member stack there (R42). -/
def rootStack (b : Bar) : Nat :=
  (((b.members.filter (fun m => m.1 == barRoot b)).flatMap (fun m => (List.range 16).filter (bitOf m.2))).map (fun q => q / 4)).foldl min 3

/-- Member cores of a group on this package. -/
def barHere (c : Chip) (g : Nat) : List Nat := ((barMembers (barAt c g)).filter (fun m => m / 1024 == c.beacon.pkg)).map (· % 1024)

/-- Whether the B queue of a core is held by a BARRIER of group `g`. -/
def heldAt (k : Core) (g : Nat) : Bool := k.bHeld.isSome && (match k.b with | s :: _ => opOf s.w == 6 && sf s.w 31 22 == g | [] => false)

/-- The slot that holds a core's B queue leaves it in cycle `t` (R38, R41). -/
def letGo (c : Chip) (i t : Nat) : Chip :=
  onCore c i (fun k => { k with b := k.b.tail, bHeld := none, bFree := none, bReady := max k.bReady t, retireAt := max k.retireAt t })

/-- Arrival at the group's root in cycle `t` (R41, R42): a second arrival of a core in the phase is BARRIER_REARRIVE; 4 CCLK after the last one the barrier falls. -/
def arriveRoot (c : Chip) (m : BarrierMsg) (t : Nat) (fault : Chip → Chip) : Chip :=
  let b := barAt c m.group
  if b.arrived.contains m.core then fault c
  else
    let b' := { b with arrived := m.core :: b.arrived, rootAt := max b.rootAt t }
    let all := (barMembers b').all (fun x => b'.arrived.contains x)
    { c with bars := tset c.bars m.group { b' with fall := if all then some (b'.rootAt + 4) else none } }

/-- BARRIER (R41, R42, R230): arrive, then hold until release. A core that is no member, or whose job does not own the group, can only arrive out of turn: the model raises BARRIER_REARRIVE for it (log entry 53). -/
def bBarrier (c : Chip) (i : Nat) (s : QSlot) : Chip :=
  let g := sf s.w 31 22
  if !(predOf (core c i) c.now (sf s.w 57 55)) then c
  else
    let b := barAt c g
    let a := (coreJob c i).bind newest
    let m : BarrierMsg := ⟨g, b.phase, 1, jobOfCore c i, (a.map (fun a => a.tick)).getD 0, (a.map (fun a => a.ord)).getD 0, gca c i⟩
    let rearrive := fun c => coreFault c i engB s.lw .barrierRearrive 0 g b.phase
    if b.job = 0 ∨ b.job ≠ jobOfCore c i ∨ (barMembers b).contains (gca c i) = false ∨ b.arrived.contains (gca c i) = true then rearrive c
    else
      let c1 := holdB c i s
      if barRoot b = c.beacon.pkg then arriveRoot c1 m (c.now + Config.ring * ringHops (i / 256) (rootStack b)) rearrive
      else sendTo { c1 with bars := tset c1.bars g { b with arrived := gca c i :: b.arrived } } b.job (barRoot b) c.beacon.pkg
        (fun n => Config.ring * ringHops (i / 256) (n / 4)) (.arrival m)

/-- WAIT_RELEASE (R38): the held WAIT leaves the queue 2 CCLK after the operation that satisfied it took effect. -/
def waitRelease (c : Chip) (i : Nat) : Chip :=
  let k := core c i
  match k.b, k.bHeld, k.bFree with
  | s :: _, some _, some t => if opOf s.w = 3 ∧ t ≤ c.now then letGo c i t else c
  | _, _, _ => c

/-- Whether a message belongs to the job's present attempt (R39). -/
def currentAttempt (c : Chip) (job tick att : Nat) : Bool :=
  match (tfind c.jobs job).bind newest with
  | some a => a.tick == tick && a.ord == att
  | none => false

/-- Whether an attempt is recorded as aborted or discarded (R82). -/
def goneAttempt (c : Chip) (job tick att : Nat) : Bool :=
  match tfind c.jobs job with
  | some j => j.ticks.gone.contains (tick, att)
  | none => false

def countOld (c : Chip) : Chip := { c with beacon := { c.beacon with stale := c.beacon.stale + 1 } }

/-- A buoy operation from another package arrives (R34-R39): after `x` ring crossings it takes its turn at the buoy. -/
def buoyArrive (c : Chip) (x : Nat) (m : BuoyMsg) : Chip :=
  if refPkg m.ref ≠ c.beacon.pkg ∨ m.op = .wait ∨ m.op = .testAndSet then c
  else { c with buoyq := c.buoyq ++ [⟨max (c.now + 1) (c.now + Config.ring * x), m, engRx, noLw, 0⟩] }

/-- A barrier arrival reaches the root package and, after `x` ring crossings, the root (R41, R42). -/
def barArrive (c : Chip) (x : Nat) (m : BarrierMsg) : Chip :=
  let b := barAt c m.group
  if b.job = 0 ∨ b.job ≠ m.job ∨ barRoot b ≠ c.beacon.pkg then c
  else if currentAttempt c m.job m.tick m.attempt = false then countOld c
  else arriveRoot c m (c.now + Config.ring * x) (fun c =>
    raise c ⟨faultNo .barrierRearrive, engRx, m.core, none, noLw, m.job, some (m.tick, m.attempt), 0, m.core, m.group, b.phase, true, true, false⟩)

/-- A barrier release reaches a member package (R41, R42): members here are released after the ring crossings that `x` gives for their stacks, and the phase advances (log entry 67). -/
def barRelease (c : Chip) (x : Nat → Nat) (m : BarrierMsg) : Chip :=
  let b := barAt c m.group
  if b.job = 0 ∨ b.job ≠ m.job ∨ b.phase ≠ m.phase ∨ barRoot b = c.beacon.pkg then c
  else if currentAttempt c m.job m.tick m.attempt = false then countOld c
  else
    let c1 := each (barHere c m.group) c (fun c i =>
      if !(heldAt (core c i) m.group) then c
      else if x (i / 256) = 0 then letGo c i c.now
      else onCore c i (fun k => { k with bFree := some (c.now + Config.ring * x (i / 256)) }))
    { c1 with bars := tset c1.bars m.group { b with phase := b.phase + 1, arrived := [] } }

/-! The turn of a cycle. -/

/-- Order at a buoy (R37): arrival, then the buoy's own stack, then ascending global core address. Among operations of the own stack that arrive in one cycle the spec gives no order; the model takes them as they were issued (log entry 84). -/
def buoyKey (c : Chip) (x : BuoyIn) : Nat :=
  let own := x.m.core / 1024 == c.beacon.pkg && x.m.core % 1024 / 256 == refLocal x.m.ref / 2 ^ 16
  x.at_ * 2 ^ 23 + (if own then 0 else 2 ^ 22 + x.m.core)

/-- The operations that take effect in the next cycle: at each buoy the first of those that have come (R37, R38). -/
def buoyPick (c : Chip) : List BuoyIn :=
  (sortBy (buoyKey c) (c.buoyq.filter (fun x => decide (x.at_ ≤ c.now + 1)))).foldl
    (fun acc x => if acc.any (fun y => refLocal y.m.ref == refLocal x.m.ref) then acc else acc ++ [x]) []

/-- WAITs held at a buoy that its value now satisfies (R38): each is released 2 CCLK later. -/
def buoyWake (c : Chip) (n : Nat) : Chip :=
  { c with cores := c.cores.map (fun p =>
      let k := p.2
      if p.1 / 256 == n / 2 ^ 16 && k.bHeld.isSome && k.bFree.isNone && (match k.b with
        | s :: _ => opOf s.w == 3 && refLocal (sf s.w 51 22) == n && decide ((bValue s).toNat ≤ (buoy c n).val.toNat)
        | [] => false) then (p.1, { k with bFree := some (c.now + 3) }) else p) }

/-- An operation takes effect at its buoy (R34-R36, R38, R39): one of another attempt is discarded and counted; a wrap or another job's buoy is a fault, at the issuer for an operation of this package; a TEST_AND_SET writes its predicate. -/
def buoyAct (c : Chip) (x : BuoyIn) : Chip :=
  let m := x.m
  let old := (buoy c (refLocal m.ref)).val
  let i := m.core % 1024
  if (buoy c (refLocal m.ref)).job = m.job ∧ m.job ≠ 0 ∧ currentAttempt c m.job m.tick m.attempt = false then countOld c
  else
    let c1 := buoyAt c m (fun f c => if x.eng = engRx then buoyRx c m f else coreFault c i x.eng x.lw f 0 m.ref m.val.toNat)
    let c2 := if m.op = .testAndSet then onCore c1 i (fun k => setPred k (c.now + 1) 4 x.pd (old == 0)) else c1
    buoyWake c2 (refLocal m.ref)

/-- The fall of a barrier (R41, R42): each member is released after the path from the root to its stack, other packages are told, and the phase advances. -/
def barFall (c : Chip) (g : Nat) : Chip :=
  let b := barAt c g
  match b.fall with
  | none => c
  | some t =>
    if c.now + 1 < t then c
    else
      let a := (tfind c.jobs b.job).bind newest
      let m : BarrierMsg := ⟨g, b.phase, b.arrived.length, b.job, (a.map (fun a => a.tick)).getD 0, (a.map (fun a => a.ord)).getD 0, 0⟩
      let c1 := each (barHere c g) c (fun c i => if heldAt (core c i) g then onCore c i (fun k => { k with bFree := some (t + Config.ring * ringHops (i / 256) (rootStack b)) }) else c)
      let c2 := { c1 with bars := tset c1.bars g { b with phase := b.phase + 1, arrived := [], rootAt := 0, fall := none } }
      ((b.members.map Prod.fst).eraseDups.filter (· != c.beacon.pkg)).foldl (fun c d =>
        sendTo c b.job d c.beacon.pkg (fun n => (t - c.now) + Config.ring * ringHops (rootStack b) (n / 4)) (.release m)) c2

/-- A BARRIER whose release has come leaves its queue. -/
def barFree (c : Chip) (i : Nat) : Chip :=
  let k := core c i
  match k.b, k.bFree with
  | s :: _, some t => if opOf s.w = 6 ∧ t ≤ c.now + 1 then letGo c i t else c
  | _, _ => c

/-- What the synchronisation logic of the base dies does in a cycle (R37, R38, R42). -/
def syncTurn (c : Chip) : Chip :=
  let go := buoyPick c
  let c1 := each go { c with buoyq := c.buoyq.filter (fun x => !(go.contains x)) } buoyAct
  let c2 := each ((c1.bars.filter (fun b => b.2.fall.isSome)).map Prod.fst) c1 barFall
  each ((c2.cores.filter (fun p => p.2.bFree.isSome)).map Prod.fst) c2 barFree

end Sys2Proof.Machine
end

