-- ==== Sys2Proof/Machine/Streams.lean ====
section
/-! DEFINITION. S slots: bindings and moves (09_keeper.md R231-R237; 03_memory.md R72-R83). -/

namespace Sys2Proof.Machine

/-- A new binding, seen by claims from the next cycle (R235). -/
def bindStream (c : Chip) (i sid : Nat) (b : Bind) : Chip :=
  onCore c i (fun k =>
    let st := streamOf k sid
    { k with streams := tset k.streams sid ⟨b, bindOf st c.now, c.now⟩ })

/-- Rotation copy of an attempt (R46, R235). -/
def rotCopy (c : Chip) (i rot : Nat) : Nat :=
  let r := (((coreJob c i).bind newest).map (fun a => a.r)).getD 0
  match rot with | 1 => r % 3 | 2 => (r + 1) % 3 | _ => 0

/-- SBIND (R231, R233-R235). -/
def sbind (c : Chip) (i : Nat) (s : QSlot) : Chip :=
  let sid := sf s.w 54 50
  let rot := sf s.w 41 40
  let desc := match coreJob c i with
    | some j => (tfind j.decl.descs (i * 256 + sf s.w 49 42)).getD (List.replicate 64 0)
    | none => List.replicate 64 0
  let d := parseDesc desc
  if rot = 3 ∨ descOk d = false then coreFault c i engS s.lw .sEncoding 0 0 0
  else if !(predOf (core c i) c.now (sf s.w 57 55)) then c
  else if busy (core c i) sid then coreFault c i engS s.lw .streamBusy 0 sid 0
  else
    bindStream c i sid ⟨1, desc, rotCopy c i rot * d.rot * 256, 0, 0, false, 0, 0, Option.none⟩

/-- SSHELF (R235, R236). -/
def sshelf (c : Chip) (i : Nat) (s : QSlot) : Chip :=
  let sid := sf s.w 54 50
  if !(predOf (core c i) c.now (sf s.w 57 55)) then c
  else if busy (core c i) sid then coreFault c i engS s.lw .streamBusy 0 sid 0
  else
    bindStream c i sid ⟨if sf s.w 29 29 = 1 then 3 else 2, [], 0, sf s.w 49 42, sf s.w 41 30, sf s.w 28 28 == 1, sf s.w 21 0, 0, Option.none⟩

/-- What a move's destination does with a byte (R60, R61, R76, R234, R237). -/
inductive Dest where
  | here | core_ (i : Nat) | package (p : Nat) | tier | none
  deriving DecidableEq, Repr

/-- Where a byte of a move's destination lies (R60, R61, R76). -/
def destOf (c : Chip) (j : Job) (i : Nat) (d : Desc) (a : Nat) : Dest :=
  if d.remote ∧ d.pkg ≠ c.beacon.pkg then (if inFar j d.pkg a then .package d.pkg else .none)
  else if inHostStore a || inAperture a then (if hostOk c j a then .tier else .none)
  else if !(inRanges j a) then .none
  else if inNear i a then (if inShelf j i a then .none else .here)
  else if inSlice i a then .here
  else if inStore a then .core_ (a / 2 ^ 24)
  else if inAnyNear a then
    let t := (a - Config.nearBase) / 2 ^ 21
    if inShelf j t a then .none else .core_ t
  else .none

/-- Source formats of the MX fields (R237). -/
def mxSrc (k : Nat) : Nat := match k with | 0 => 14 | 1 => 0 | _ => 1
def mxCode (k : Nat) : Nat := match k with | 1 => 8 | 2 => 9 | _ => 13

/-- Element width of a move without conversion (R237). -/
def moveWidth (ew : Nat) : Nat := match ew with | 0 => 8 | 1 => 16 | 2 => 32 | _ => 192

/-- The remote write of a run, in pieces of at most 4 KiB by construction of `runs` (R80, R237). -/
def remoteOf (c : Chip) (i lw : Nat) (w : Nat × List Byte) : RemoteWrite :=
  let a := (coreJob c i).bind newest
  ⟨w.1, w.2, gca c i, jobOfCore c i, (a.map (fun a => a.tick)).getD 0, (a.map (fun a => a.ord)).getD 0, lw⟩

/-- A transfer as data frames of 512 B (R317). -/
def framesOf (cls pkg addr tag src tick att : Nat) (data : List Byte) : List Frame :=
  (List.range (cdiv data.length 512)).map (fun k =>
    let b := (data.drop (512 * k)).take 512
    ⟨cls, false, data.length - 1, k, pkg, addr, tag, src, 0, tick % 4, att % 8, b ++ List.replicate (512 - b.length) 0⟩)

/-- Address that a frame of a shelf write carries (log entry 31): core, shelf, slot, and its piece of 4 KiB. -/
def shelfKey (core shelf slot piece : Nat) : Nat := piece * 2 ^ 30 + core % 1024 * 2 ^ 20 + shelf % 256 * 2 ^ 12 + slot % 4096

/-- Data frames wait for their booked departure slots (R326). -/
def queueFrames (c : Chip) (fs : List Frame) : Chip := { c with egress := c.egress ++ fs }

/-- A remote write to another package, as frames. -/
def sendWrite (c : Chip) (pkg : Nat) (w : RemoteWrite) : Chip := queueFrames c (framesOf 0 pkg w.addr w.tag w.src w.tick w.attempt w.data)

/-- A shelf write to another package, as frames in pieces of 4 KiB. -/
def sendShelf (c : Chip) (m : ShelfWrite) : Chip :=
  each (List.range (cdiv m.data.length 4096)) c (fun c k =>
    queueFrames c (framesOf 1 (m.core / 1024) (shelfKey m.core m.shelf m.slot k) m.tag m.src m.tick m.attempt ((m.data.drop (4096 * k)).take 4096)))

/-- Read requests to another package for `n` bytes from an address, in transfers of at most 4 KiB (R66, R317). -/
def sendRead (c : Chip) (pkg addr n tag src tick att : Nat) : Chip :=
  queueFrames c ((List.range (cdiv n 4096)).map (fun k =>
    ⟨2, false, min (n - 4096 * k) 4096 - 1, 0, pkg, addr + 4096 * k, tag, src, 0, tick % 4, att % 8, List.replicate 512 0⟩))

/-- Add 1 to a local buoy for a finished move (R237, R264), with the latency of a buoy operation (R38). -/
def notifyBuoy (c : Chip) (i lw n : Nat) : Chip :=
  let a := (coreJob c i).bind newest
  sendBuoy c i engS lw 0 ⟨c.beacon.pkg * 2 ^ 18 + n, .add, 1, jobOfCore c i, (a.map (fun a => a.tick)).getD 0, (a.map (fun a => a.ord)).getD 0, gca c i⟩

/-- The notification of a move of no elements (R264): it takes effect in the next cycle. -/
def notifyNext (c : Chip) (i lw n : Nat) : Chip :=
  let a := (coreJob c i).bind newest
  { c with buoyq := c.buoyq ++ [⟨c.now + 1, ⟨c.beacon.pkg * 2 ^ 18 + n, .add, 1, jobOfCore c i, (a.map (fun a => a.tick)).getD 0, (a.map (fun a => a.ord)).getD 0, gca c i⟩, engS, lw, 0⟩] }

/-! Paths (R16, R66). -/

/-- CCLK on one compute die: router hops, and the spare's stage where the path moves along the row. -/
def diePath (r c r' c' : Nat) : Nat := 2 + 2 * ((max r r' - min r r') + (max c c' - min c c')) + (if c = c' then 0 else 1)

/-- The one-way path latency P between two cores of this package (R66). Between opposite stacks the path goes through stack s + 1 (log entry 49). -/
def pathTime (i t : Nat) : Nat :=
  let row := fun (x : Nat) => bitsOf x 7 4
  let col := fun (x : Nat) => bitsOf x 3 0
  match (t / 256 + 4 - i / 256) % 4 with
  | 0 => diePath (row i) (col i) (row t) (col t)
  | 1 => diePath (row i) (col i) (row i) 15 + Config.ring + diePath (row i) 0 (row t) (col t)
  | 2 => diePath (row i) (col i) (row i) 15 + Config.ring + diePath (row i) 0 (row i) 15 + Config.ring + diePath (row i) 0 (row t) (col t)
  | _ => diePath (row i) (col i) (row i) 0 + Config.ring + diePath (row i) 15 (row t) (col t)

/-- An arrival that reaches the core's ejection port in cycle `t` (R65, R70). -/
def atPortAt (c : Chip) (i t : Nat) (a : Arrival) : Chip :=
  onCore c i (fun k => { k with eject := sortBy (fun x => x.at_) (k.eject ++ [⟨t, a, 0, false⟩]) })

/-- A transfer leaves a core for another of this package and is at its ejection port after the path between them (R66), with the MESH and RING injections of R367. -/
def sendMesh (c : Chip) (i lw target : Nat) (a : Arrival) : Chip :=
  let hit := fun (x : FaultCode) => raise (injectFired c) ⟨faultNo x, engRx, gca c target, some target, lw, jobOfCore c i, none, 0, gca c i, 0, 0, true, true, true⟩
  if armedFor c 8 i then hit .meshCrc
  else if armedFor c 10 i && i / 256 != target / 256 then hit .ringCrc
  else atPortAt c target (c.now + pathTime i target) a

/-! Moves. -/

/-- What a move's fields say: element width and count read, width and count written (R237). The bytes that a converting move's cycles are counted in are taken to be the bytes it writes, with MXIN too (log entry 86). -/
def moveShape (w : Dword) : Nat × Nat × Nat × Nat :=
  let mo := sf w 44 43
  let mi := sf w 42 41
  let n := sf w 36 19
  let mxb := cdiv n 32 * 33
  if mo ≠ 0 then (elemWidth (mxSrc (sf w 40 39)), n, 8, mxb)
  else if mi ≠ 0 then (8, mxb, elemWidth (mxSrc (sf w 38 37)), n)
  else (moveWidth (sf w 40 39), n, moveWidth (sf w 40 39), n)

/-- Element codes that a move delivers, from the codes it has read (R131-R133, R237). -/
def moveCodes (w : Dword) (codes : List Nat) : List Nat :=
  let mo := sf w 44 43
  let mi := sf w 42 41
  if mo ≠ 0 then (toMx (mxCode mo) (codes.map (fun v => decodeVal (elemFmt (mxSrc (sf w 40 39))) v))).map (fun b => b.toNat)
  else if mi ≠ 0 then
    (fromMx (mxCode mi) (sf w 36 19) (codes.map (fun v => BitVec.ofNat 8 v))).map (fun v => (roundTo (elemFmt (mxSrc (sf w 38 37))) v false).1)
  else codes

/-- Beats of a move: 256 B of what it writes a beat (R237). -/
def moveBeats (w : Dword) : Nat := let sh := moveShape w; cdiv (sh.2.2.2 * sh.2.2.1 / 8) 256

/-- First source element that is not wholly in the bytes before beat `b`: the beats before it have read the others (R131, R237). -/
def sourceCut (w : Dword) (b : Nat) : Nat :=
  let sh := moveShape w
  if moveBeats w ≤ b then sh.2.1
  else if sf w 44 43 ≠ 0 then min sh.2.1 (cdiv (256 * b) 33 * 32)
  else if sf w 42 41 ≠ 0 then min sh.2.1 (cdiv (min sh.2.2.2 (2048 * b / sh.2.2.1)) 32 * 33)
  else min sh.2.1 (2048 * b / sh.1)

/-- Tick and ordinal of the attempt that a core runs. -/
def attemptHere (c : Chip) (i : Nat) : Nat × Nat :=
  let a := (coreJob c i).bind newest
  ((a.map (fun a => a.tick)).getD 0, (a.map (fun a => a.ord)).getD 0)

/-- Places of a move's destination elements from element `k` on, each with its destination; none where no byte of it may be written. -/
def moveSpots (c : Chip) (j : Job) (i : Nat) (f : Flight) (o : OpStr) (k : Nat) (codes : List Nat) : List (Nat × Elem × Dest) :=
  let d := parseDesc o.bind.desc
  codes.zipIdx.map (fun x =>
    let e := placeOf j i f o (k + x.2)
    match e with
    | .place bit _ =>
      let ds := (bytesAt bit o.w).map (destOf c j i d)
      (x.1, e, if ds.all (fun y => y == ds.headD .none) then ds.headD .none else .none)
    | _ => (x.1, e, .none))

/-- Faults of a move's destination elements (R60, R234). -/
def moveFaults (c : Chip) (i : Nat) (f : Flight) (o : OpStr) (xs : List (Nat × Elem × Dest)) : Chip :=
  let c1 := match xs.find? (fun x => x.2.2 == .none && x.2.1 != .ended && x.2.1 != .pad) with
    | some (_, .place bit _, _) => flightFault c i engS f .addressRange (bit / 8) 0 0
    | some _ => flightFault c i engS f .addressRange 0 0 0
    | none => c
  if xs.any (fun x => x.2.1 == .ended) then flightFault c1 i engS f .streamEnd 0 o.sid xs.length else c1

/-- Byte writes of elements with one destination: maximal contiguous runs of at most 4 KiB (R80, R237). -/
def spotRuns (w : Nat) (p : Dest → Bool) (xs : List (Nat × Elem × Dest)) : List (Nat × List Byte) :=
  runs ((xs.filter (fun x => p x.2.2)).filterMap (fun x => match x.2.1 with | .place bit _ => some (bit / 8, leBytes (w / 8) x.1) | _ => none))

/-- Destinations outside the core, each once, in order. -/
def awayDests (xs : List (Nat × Elem × Dest)) : List Dest :=
  xs.foldl (fun r x => match x.2.2 with
    | .core_ _ => if r.contains x.2.2 then r else r ++ [x.2.2]
    | .package _ => if r.contains x.2.2 then r else r ++ [x.2.2]
    | _ => r) []

/-- Codes of the elements that a move writes, as far as its source has been read. -/
def movedCodes (f : Flight) : List Nat := moveCodes f.slot.w ((taken f 0 0 (moveShape f.slot.w).2.1).map (fun x => x.code))

/-- First and last destination element that beat `b` writes bytes of: the first, and their count. -/
def beatSpan (w : Dword) (b : Nat) : Nat × Nat :=
  let sh := moveShape w
  let size := sh.2.2.1 / 8
  let lo := 256 * b / size
  (lo, min sh.2.2.2 (cdiv (256 * (b + 1)) size) - lo)

/-- Bytes of a move that beat `b` writes, with the element of each run of bytes: runs of destination bytes for the elements that `p` accepts (R237). -/
def beatRuns (c : Chip) (j : Job) (i : Nat) (f : Flight) (o : OpStr) (b : Nat) (p : Dest → Bool) : List (Nat × List Byte) :=
  let r := beatSpan f.slot.w b
  let size := (moveShape f.slot.w).2.2.1 / 8
  runs ((moveSpots c j i f o r.1 (((movedCodes f).drop r.1).take r.2)).zipIdx.filterMap (fun x => match x.1.2.1 with
    | .place bit _ =>
      let y := elemSlice size (256 * b) 256 (r.1 + x.2) x.1.1
      if p x.1.2.2 ∧ y.2 ≠ [] then some (bit / 8 + y.1, y.2) else none
    | _ => none))

/-- A run of bytes cut at the ends of the writes that it is part of: for each piece the write's first byte and length (R80). -/
def cutRun (whole : List (Nat × List Byte)) (x : Nat × List Byte) : List (Nat × Nat × Nat × List Byte) :=
  whole.filterMap (fun w =>
    let lo := max w.1 x.1
    let hi := min (w.1 + w.2.length) (x.1 + x.2.length)
    if lo < hi then some (w.1, w.2.length, lo, (x.2.drop (lo - x.1)).take (hi - lo)) else none)

/-- Byte writes in the core's own memories that beat `b` of a move makes. -/
def beatWrites (c : Chip) (j : Job) (i : Nat) (f : Flight) (b : Nat) : List (Nat × List Byte) :=
  match f.ops[f.outs]? with
  | none => []
  | some o =>
    if o.bind.kind = 3 then
      let bytes := (movedCodes f).flatMap (fun x => leBytes ((moveShape f.slot.w).2.2.1 / 8) x)
      match boundShelf j i o.bind with
      | some s => if o.bind.core = gca c i ∧ o.bind.cursor = 0 then [(slotAddr s i o.bind.slot + 256 * b, (bytes.drop (256 * b)).take 256)] else []
      | none => []
    else beatRuns c j i f o b (fun d => d == .here)

/-- A beat of a move to a shelf slot (R73-R75, R236): it is in the core's own slot, or on its way to another core's; with the last beat the slot is FULL. A stream that has had its slot is at its end (R234). -/
def beatShelf (c : Chip) (j : Job) (i : Nat) (f : Flight) (o : OpStr) (lost : List Nat) (b : Nat) : Chip :=
  match boundShelf j i o.bind with
  | none => c
  | some s =>
    let a := attemptHere c i
    let last := decide (moveBeats f.slot.w ≤ b + 1)
    let bytes := (movedCodes f).flatMap (fun x => leBytes ((moveShape f.slot.w).2.2.1 / 8) x)
    let m : ShelfWrite := ⟨o.bind.core, o.bind.shelf, o.bind.slot, bytes, gca c i, jobOfCore c i, a.1, a.2, f.slot.lw⟩
    let note := fun (c : Chip) => if last then noteOut c i f.id [(slotAddr s (o.bind.core % 1024) o.bind.slot, bytes)] else c
    if o.bind.cursor ≠ 0 then flightFault c i engS f .streamEnd 0 o.sid (moveShape f.slot.w).2.2.2
    else if o.bind.core = gca c i then
      let c1 := if b = 0 ∧ guardFull (core c i) c.now o.bind.shelf o.bind.slot = true then
        flightFault c i engS f .shelfOverrun (slotAddr s i o.bind.slot) (o.bind.shelf + o.bind.slot * 256) 0 else c
      if ((flightOf (core c1 i) f.id).getD f).told.contains (faultNo .shelfOverrun) then c1
      else
        let c2 := landWrites c1 i f.id lost (beatWrites c j i f b)
        if last then onCore c2 i (fun k => setGuard k c.now o.bind.shelf o.bind.slot true) else c2
    else if o.bind.core / 1024 = c.beacon.pkg then
      note (sendMesh c i f.slot.lw (o.bind.core % 1024) (.shelf { m with data := (bytes.drop (256 * b)).take 256 } (256 * b) bytes.length))
    else if last then note (sendShelf c m) else c

/-- A beat of a move to addresses (R60, R80, R237): own bytes of banks not `lost` are written, bytes of other cores are on their way, as parts of remote writes of at most 4 KiB; what goes to another package leaves with the last beat. -/
def beatPlain (c : Chip) (j : Job) (i : Nat) (f : Flight) (o : OpStr) (lost : List Nat) (b : Nat) : Chip :=
  let last := decide (moveBeats f.slot.w ≤ b + 1)
  let w := (moveShape f.slot.w).2.2.1
  let r := beatSpan f.slot.w b
  let all := moveSpots c j i f o 0 (movedCodes f)
  let c1 := landWrites (moveFaults c i f o ((all.drop r.1).take r.2)) i f.id lost (beatWrites c j i f b)
  each (awayDests all) c1 (fun c d =>
    let whole := spotRuns w (fun y => y == d) all
    match d with
    | .core_ t =>
      let c2 := each ((beatRuns c j i f o b (fun y => y == d)).flatMap (cutRun whole)) c (fun c x =>
        sendMesh c i f.slot.lw t (.write (remoteOf c i f.slot.lw (x.2.2.1, x.2.2.2)) x.1 x.2.1))
      if last then noteOut c2 i f.id whole else c2
    | .package p => if last then each whole c (fun c x => noteOut (sendWrite c p (remoteOf c i f.slot.lw x)) i f.id [x]) else c
    | _ => c)

/-- The longest path to a core that a move writes (R66). -/
def farthest (i : Nat) (ds : List Nat) : Nat := ds.foldl (fun m t => max m (if t = i then 0 else pathTime i t)) 0

/-- A beat of a move arrives at its destination (R73-R76, R80, R236, R237); with the last beat the move stays until the bytes have reached the cores they are for. -/
def beatAct (c : Chip) (i : Nat) (f0 : Flight) (lost : List Nat) (b : Nat) : Chip :=
  match coreJob c i, flightOf (core c i) f0.id with
  | some j, some f =>
    match f.ops[f.outs]? with
    | none => c
    | some o =>
      let c1 := if o.bind.kind = 3 then beatShelf c j i f o lost b else beatPlain c j i f o lost b
      let ts := if o.bind.kind = 3 then (if o.bind.core / 1024 = c.beacon.pkg then [o.bind.core % 1024] else [])
        else (awayDests (moveSpots c j i f o 0 (movedCodes f))).filterMap (fun d => match d with | .core_ t => some t | _ => none)
      if b + 1 = moveBeats f.slot.w ∧ farthest i ts ≠ 0 then addTodo c1 i f.id [⟨c.now + farthest i ts, .stay⟩] else c1
  | _, _ => c

/-- Whether the job may read an element of its store bytes on another package (R60, R66). -/
def backOk (j : Job) (o : OpStr) (x : Elem) : Bool := (elemBytes o.w x).all (fun a => inStore a && inFar j (parseDesc o.bind.desc).pkg a)

/-- Contiguous runs of the bytes that elements k to k + n − 1 of an operand cover where `p` accepts an element (R66, R234). -/
def opRuns (j : Job) (i : Nat) (f : Flight) (o : OpStr) (p : Elem → Bool) (k n : Nat) : List (Nat × List Byte) :=
  runs ((List.range n).filterMap (fun t => match placeOf j i f o (k + t) with
    | .place bit sc => if p (.place bit sc) then some (bit / 8, List.replicate (cdiv o.w 8) 0) else none
    | _ => none))

/-- Whether a source lies on another package (R66, R234). -/
def awayFrom (c : Chip) (o : OpStr) : Bool := let d := parseDesc o.bind.desc; o.bind.kind == 1 && d.remote && d.pkg != c.beacon.pkg

/-- Bytes that the core's present read of another package has brought (log entry 50). -/
def backByte (k : Core) (a : Nat) : Option Byte :=
  (k.back.find? (fun b => decide (b.1 ≤ a) && decide (a < b.1 + b.2.length))).bind (fun b => b.2[a - b.1]?)

/-- Whether an element of a move's source lies in another core's slice of this package, in the job's declared bytes (R18, R66). -/
def otherSlice (j : Job) (i : Nat) (o : OpStr) (x : Elem) : Bool :=
  match x with
  | .place bit _ => inStore (bit / 8) && !(inSlice i (bit / 8)) && (elemBytes o.w x).all (fun a => inStore a && inRanges j a)
  | _ => false

/-- Elements of a move's source that come over the network: of another package, or of another core's slice (R66). -/
def byNetwork (c : Chip) (j : Job) (i : Nat) (o : OpStr) (x : Elem) : Bool := if awayFrom c o then backOk j o x else o.bind.kind == 1 && otherSlice j i o x

/-- Whether the elements that a move reads next have come over the network; what it may not read never comes. -/
def backReady (c : Chip) (j : Job) (i : Nat) (f : Flight) (o : OpStr) (k n : Nat) : Bool :=
  (List.range n).all (fun t => let x := placeOf j i f o (k + t); !(byNetwork c j i o x) || (elemBytes o.w x).all (fun a => (backByte (core c i) a).isSome))

/-- What came over the network for elements k to k + n − 1 has been used. -/
def dropBack (c : Chip) (j : Job) (i : Nat) (f : Flight) (o : OpStr) (k n : Nat) : Chip :=
  let rs := opRuns j i f o (byNetwork c j i o) k n
  onCore c i (fun q => { q with back := q.back.filter (fun b => !(rs.any (fun r => decide (r.1 ≤ b.1) && decide (b.1 + b.2.length ≤ r.1 + r.2.length)))) })

/-- Take elements that came back from another package, with the faults of R60 and R234. -/
def backAct (c : Chip) (j : Job) (i : Nat) (f : Flight) (o : OpStr) (k n : Nat) : Chip :=
  let es := (List.range n).map (fun t => placeOf j i f o (k + t))
  let xs := es.map (fun x => match x with
    | .place bit _ => if backOk j o x then (⟨leNat ((bytesAt bit o.w).map (fun a => (backByte (core c i) a).getD 0)) / 2 ^ (bit % 8) % 2 ^ o.w, none, some (bit / 8)⟩ : Opnd) else Opnd.zero
    | _ => Opnd.zero)
  let c := match es.find? (fun x => match x with | .nowhere => true | x => !(backOk j o x)) with
    | some (.place bit _) => flightFault c i engS f .addressRange (bit / 8) 0 0
    | some _ => flightFault c i engS f .addressRange 0 0 0
    | none => c
  let c1 := if es.any (fun x => x == .ended) then flightFault c i engS f .streamEnd 0 o.sid n else c
  onFlight c1 i f.id (fun f => { f with ops := f.ops.set 0 { o with got := o.got ++ xs } })

/-- The cycles that a move's conversion takes (R237). -/
def moveDelay (w : Dword) : Nat := if sf w 44 43 ≠ 0 then 4 else if sf w 42 41 ≠ 0 then 2 else 0

/-- Beat `b` of a move is written in cycle `t`, and no earlier than a cycle after the beat before it; a write to the core's own slice comes later by the excess of R126, unless its reads did. -/
def bookBeat (c : Chip) (i : Nat) (f0 : Flight) (t b : Nat) (ownRead : Bool) : Chip :=
  match flightOf (core c i) f0.id with
  | none => c
  | some f =>
    let sh := if ownRead then 0 else match f.ops[f.outs]? with | some o => writeShift c i f o 0 | none => 0
    let v := max (t + sh) ((f.carry.getD 0 [0]).headD 0 + 1)
    onFlight (addTodo c i f.id [⟨v, .beat b⟩]) i f.id (fun f => { f with carry := [[v], f.carry.getD 1 [0]] })

/-- Beat `b` of a move's source is read (R18, R66, R237): at once where it lies in the core's own memories, the bundle taking `more` further cycles for it; else requests go out, and the beat is read when the network has brought it. -/
def fetchAct (e : Env) (c : Chip) (i : Nat) (f0 : Flight) (lost : List Nat) (more b : Nat) : Chip :=
  match coreJob c i, flightOf (core c i) f0.id with
  | some j, some f =>
    match f.ops[0]? with
    | none => c
    | some o =>
      let w := f.slot.w
      let k := sourceCut w b
      let n := sourceCut w (b + 1) - k
      let a := attemptHere c i
      let tt := Config.storeRead j.hdr.profile
      let es := (List.range n).map (fun t => placeOf j i f o (k + t))
      let own := es.any (fun x => match x with | .place bit _ => inSlice i (bit / 8) | _ => false)
      let behind := f.todo.any (fun t => match t.act with | .read 0 _ _ => true | _ => false)
      let later := fun (c : Chip) (t : Nat) =>
        let v := max t ((f.carry.getD 1 [0]).headD 0)
        onFlight (addTodo c i f.id [⟨v, .read 0 k n⟩]) i f.id (fun f => { f with carry := [f.carry.getD 0 [0], [v]] })
      if awayFrom c o then
        let whole := sourceCut w (moveBeats w)
        let ask := if o.ix.isSome then opRuns j i f o (backOk j o) k n else if b = 0 then opRuns j i f o (backOk j o) 0 whole else []
        later (each ask c (fun c x => sendRead c (parseDesc o.bind.desc).pkg x.1 x.2.length (jobOfCore c i) (gca c i) a.1 a.2)) (c.now + 1)
      else if behind ∨ (o.bind.kind = 1 ∧ es.any (otherSlice j i o) = true) then
        let ask := (opRuns j i f o (otherSlice j i o) k n).flatMap (fun r => (chunks 256 r.2).zipIdx.map (fun y => (r.1 + 256 * y.2, y.1.length)))
        let far := ask.foldl (fun m x => max m (2 * pathTime i (x.1 / 2 ^ 24) + tt)) (if own then tt else 1)
        later (each ask c (fun c x => atPortAt c (x.1 / 2 ^ 24) (c.now + pathTime i (x.1 / 2 ^ 24)) (.read ⟨x.1, x.2, gca c i, jobOfCore c i, a.1, a.2⟩))) (c.now + far + more)
      else
        bookBeat (readAct e (if own then onCore c i (fun k => { k with xRead := max k.xRead (c.now + 1 + more) }) else c) i f lost 0 k n) i f (c.now + (if own then tt else 1) + moveDelay w + more) b own
  | _, _ => c

/-- Beat of a move whose source elements begin with number `k`. -/
def beatOf (w : Dword) (k : Nat) : Nat := ((List.range (moveBeats w)).find? (fun b => decide (sourceCut w (b + 1) ≠ sourceCut w b) && sourceCut w b == k)).getD 0

/-- A beat that the network has brought is read, and written the conversion's cycles later (R66, R237). -/
def netAct (e : Env) (c : Chip) (i : Nat) (f0 : Flight) (lost : List Nat) (k n : Nat) : Chip :=
  match coreJob c i, flightOf (core c i) f0.id with
  | some j, some f =>
    match f.ops[0]? with
    | none => c
    | some o =>
      let es := ((List.range n).map (fun t => placeOf j i f o (k + t))).filter (byNetwork c j i o)
      let ls := distinct (es.flatMap (fun x => (elemBytes o.w x).map (· / 64)))
      let brought := ls.map (fun l => (l, (List.range 64).map (fun t => (backByte (core c i) (l * 64 + t)).getD 0)))
      let c1 := if awayFrom c o then backAct c j i f o k n
        else readAct e (onFlight c i f.id (fun f => { f with ops := f.ops.set 0 { o with lines := o.lines ++ brought } })) i f lost 0 k n
      let c2 := if awayFrom c o ∧ o.ix.isSome = false then (if k + n = (moveShape f.slot.w).2.1 then dropBack c1 j i f o 0 (k + n) else c1) else dropBack c1 j i f o k n
      bookBeat c2 i f (c.now + moveDelay f.slot.w) (beatOf f.slot.w k) true
  | _, _ => c

/-- Cycles that the first beat of a move still waits (R122, R126): a source in the core's own slice comes after the reads that the expander has booked, and later by the excess of the groups before it. -/
def fetchHold (c : Chip) (i : Nat) (f : Flight) (b : Nat) : Nat :=
  match coreJob c i, f.ops[0]? with
  | some j, some o =>
    let k := core c i
    if b = 0 ∧ f.carry = [] ∧ awayFrom c o = false ∧ (match placeOf j i f o 0 with | .place bit _ => inSlice i (bit / 8) | _ => false) = true then max k.shift (k.xRead - c.now) else 0
  | _, _ => 0

/-- SMOVE (R66, R73-R76, R227, R233-R237): its beats are read from now on, one a cycle; a move to or from the host tier runs beside the move unit. With a false predicate it occupies the unit for its time. -/
def smove (e : Env) (c : Chip) (i : Nat) (s : QSlot) : Chip :=
  let w := s.w
  let src := sf w 54 50
  let dst := sf w 49 45
  let mo := sf w 44 43
  let mi := sf w 42 41
  let n := sf w 36 19
  let busyFor := fun (c : Chip) => onCore c i (fun k => { k with moveReady := max k.moveReady c.now + moveBeats w })
  if (mo ≠ 0 ∧ mi ≠ 0) ∨ (mo ≠ 0 ∧ sf w 40 39 = 3) ∨ sf w 38 37 = 3 then coreFault c i engS s.lw .sEncoding 0 0 0
  else if n = 0 then (if predOf (core c i) c.now (sf w 57 55) = true ∧ sf w 18 18 = 1 then notifyNext c i s.lw (sf w 17 0) else c)
  else
    match coreJob c i with
    | none => c
    | some j =>
      let k := claim c i engS s.lw n [src, dst]
      let db := bindOf (streamOf (core c i) dst) c.now
      let sh := moveShape w
      let id := (core c i).nextId
      let xs := opList (core c i) c.now [(src, sh.1, none, .move), (dst, sh.2.2.1, none, .move)]
      let on := xs.2.getD 1 1
      let so := xs.1.headD ⟨src, Bind.none, sh.1, none, .move, none, none, [], 0, []⟩
      let f0 : Flight := ⟨id, s, 0, engS, c.now, xs.1, on, [], [], [], [], 0⟩
      let lies := fun (o : OpStr) (m : Nat) => o.bind.kind == 1 && !(awayFrom c o) && (List.range m).any (fun t => match placeOf j i f0 o t with
        | .place bit _ => inHostStore (bit / 8) || inAperture (bit / 8)
        | _ => false)
      let do_ := xs.1.getD on so
      let tier := lies so sh.2.1 || lies do_ sh.2.2.2
      if !(predOf (core c i) c.now (sf w 57 55)) then (if tier then c else busyFor c)
      else if !k.1 then k.2
      else if db.kind = 3 ∧ (match boundShelf j i db with | some x => decide (x.slots ≤ db.slot) | none => true) = true then
        coreFault c i engS s.lw .addressRange 0 (db.shelf + db.slot * 256) 0
      else if db.kind = 3 ∧ (match boundShelf j i db with | some x => decide (sh.2.2.2 * sh.2.2.1 / 8 ≠ x.lines * 64) | none => false) = true then
        coreFault c i engS s.lw .sEncoding 0 0 0
      else
        let c1 := advance (advance c i src sh.1 none sh.2.1) i dst sh.2.2.1 none sh.2.2.2
        if tier then
          -- beside the move unit: the source is read now, and the bytes land when the move is done
          let c2 := takeOff c1 i engS s xs.1 on [⟨0, .stay⟩] [] 0
          let c3 := each (readsOf xs.1 0 0 0 sh.2.1 ++ (if do_.ix.isSome then (readsOf xs.1 on 0 0 sh.2.2.2).dropLast else [])) c2 (fun c t => match t.act with
            | .read o k m => readAct e c i f0 [] o k m
            | _ => c)
          let f := (flightOf (core c3 i) id).getD f0
          let o := f.ops.getD on so
          let ms := moveSpots c3 j i f o 0 (moveCodes w ((taken f 0 0 sh.2.1).map (fun x => x.code)))
          let c4 := moveFaults c3 i f o ms
          let ws := spotRuns sh.2.2.1 (fun d => d == .here || d == .tier) ms
          let a := attemptHere c i
          let c5 := addRecord c4 i engS s.lw (tget 0 (core c i).issued engS) ws
          onCore c5 i (fun k => { k with
            flights := k.flights.filter (fun f => f.id != id)
            moves := k.moves ++ [⟨[src, dst], ws, sf w 18 18 == 1, sf w 17 0, s.lw, a.2, a.1, decide (c.raised.length < c4.raised.length)⟩] })
        else
          let index := fun (o t k n : Nat) => if ((xs.1[o]?).bind (fun x => x.ix)).isSome then (readsOf xs.1 o t k n).dropLast else []
          let acts := (List.range (moveBeats w)).flatMap (fun b =>
            index 0 (c.now + b) (sourceCut w b) (sourceCut w (b + 1) - sourceCut w b) ++ [⟨c.now + b, .fetch b⟩])
          busyFor (takeOff c1 i engS s xs.1 on (index on c.now 0 sh.2.2.2 ++ acts) [] 0)

/-- A move to or from the host tier ends (R237): its bytes land, and with NOTIFY the local buoy rises by 1; of an older attempt it is dropped (R82). While the link is down a move to the aperture waits (R405). -/
def moveDone (c : Chip) (i : Nat) : Chip :=
  match (core c i).moves with
  | [] => c
  | m :: r =>
    let c1 := onCore c i (fun k => { k with moves := r })
    if m.dst.any (fun x => linkWaits c x.1) then c
    else if goneAttempt c (jobOfCore c i) m.tick m.attempt then c1
    else
      let c2 := each m.dst c1 (fun c x => wr c x.1 x.2)
      if m.notify && !m.bad && currentAttempt c (jobOfCore c i) m.tick m.attempt then notifyBuoy c2 i m.lw m.buoy else c2

end Sys2Proof.Machine
end

