-- ==== Sys2Proof/Machine/Keeper.lean ====
section
/-! DEFINITION. The Keeper, the long word, its take and its credit (09_keeper.md R210-R229, R238). -/

namespace Sys2Proof.Machine

/-- Location of a Keeper fault: stack × 4 + context, with bit 23 set (R359). -/
def keeperLoc (x : Nat) : Nat := 2 ^ 23 + x

/-- A fault of a context (R213, R218, R239): it covers the attempt of the context's job. -/
def keeperFault (c : Chip) (x lw : Nat) (f : FaultCode) (addr itemA itemB : Nat) (injected : Bool) : Chip :=
  raise c ⟨faultNo f, engK, keeperLoc x, none, lw, (ctx c x).job, none, addr, noCore, itemA, itemB, true, false, injected⟩

/-- Cores of a context's bands. -/
def ctxCores (t : Ctx) : List Nat := coresOf t.bands

/-- An array whose slots in flight are abandoned. -/
def MArray.quiet (a : MArray) : MArray := { a with loads := [], wave := [], drains := [], frozeAt := none }

/-- A core after its context was stopped: FIFO and queues empty, nothing held, slots in flight abandoned, moves to or from the host tier among them (R238). -/
def stopCore (now : Nat) (k : Core) : Core :=
  { k with fifo := [], m0 := [], m1 := [], v := [], s := [], b := [], bHeld := none, flights := [], back := [], moves := [], a0 := k.a0.quiet, a1 := k.a1.quiet, retireAt := now }

/-- Stop a context: it fetches nothing further, and its cores are emptied (R238). -/
def stopCtx (c : Chip) (x : Nat) : Chip :=
  each (ctxCores (ctx c x)) (onCtx c x (fun t => { t with run := false })) (fun c i => onCore c i (stopCore c.now))

/-- A context at the start of an attempt (R216). -/
def startCtx (c : Chip) (x entry variant k1 k2 k3 tick ord : Nat) : Chip :=
  onCtx c x (fun t => { t with
    run := true, pc := entry, loops := [], calls := [], sent := 0, back := 0, nextAt := c.now
    k := [(0, BitVec.ofNat 32 variant), (1, BitVec.ofNat 32 k1), (2, BitVec.ofNat 32 k2), (3, BitVec.ofNat 32 k3),
          (4, BitVec.ofNat 32 tick), (5, BitVec.ofNat 32 ord)] })

/-- The declared windows of a core (R79). -/
def declaredWins (j : Job) (i : Nat) : Tab WinState := (j.decl.wins.filter (fun w => w.1 / 16 == i)).map (fun w => (w.1 % 16, ⟨w.2, w.2, 0⟩))

/-- What the loader writes again from the Keeper's reference copy (R206, R214). -/
def rewritten : Upset → Bool
  | .chain _ | .prog _ => true
  | _ => false

/-- A core at the start of an attempt: FIFO, queues, predicates and bindings clear, windows back to the declared set, guards EMPTY, no tile or accumulation (R77, R79, R166, R207, R238). What is on its way to the core keeps its attempt number (R82); chain descriptors and element programs whose parity failed are rewritten from the program store (R206, R214). -/
def startCore (j : Job) (now i : Nat) (k : Core) : Core :=
  { Core.idle with
      moves := k.moves.map (fun m => { m with sids := [] })
      nextId := k.nextId
      eject := k.eject
      remq := k.remq
      replies := k.replies
      landing := k.landing
      used := k.used
      wins := declaredWins j i
      upsets := k.upsets.filter (fun u => !(u.2 && rewritten u.1))
      idleTill := now }

/-- Effect of reaching an address on the loop stack: the next word, and the stack (R218). -/
def closeLoops (a : Nat) (loops : List (Nat × Nat × Nat)) : Nat × List (Nat × Nat × Nat) :=
  match loops with
  | [] => (a, [])
  | (e, n, b) :: r => if e = a then (if 1 < n ∧ b ≠ e then (b, (e, n - 1, b) :: r) else closeLoops a r) else (a, (e, n, b) :: r)

/-- Whether an address is a word address of the job's program region on the Keeper's stack (R214, R218). -/
def inRegion (t : Ctx) (a : Nat) : Bool := a % 4 == 0 && decide (t.region.1 ≤ a) && decide (a < t.region.1 + t.region.2)

/-- Condition of KJUMP; `none`: an invalid code (R217). -/
def kCond (code : Nat) (k imm : Nat) : Option Bool :=
  match code with
  | 0 => some true
  | 1 => some (k == imm)
  | 2 => some (k != imm)
  | 3 => some (decide (k < imm))
  | 4 => some (decide (imm ≤ k))
  | _ => none

/-- What a Keeper op does: a fault, or the context with its next fetch address (R217, R218). -/
def keeperOp (t : Ctx) (w : Dword) (next : Nat) : FaultCode ⊕ Ctx :=
  let r := bitsOf w.toNat 54 51
  let kv := (tget 0#32 t.k r).toNat
  let target := bitsOf w.toNat 22 0
  match bitsOf w.toNat 63 58 with
  | 0x20 =>
    let n := if bitOf w.toNat 50 then kv else bitsOf w.toNat 49 32
    if !(inRegion t target) then .inl .keeperEncoding
    else if (match t.loops with | [] => false | l :: _ => decide (l.1 < target)) then .inl .keeperStack
    else if n = 0 then let x := closeLoops target t.loops; .inr { t with pc := x.1, loops := x.2 }
    else if 8 ≤ t.loops.length then .inl .keeperStack
    else let x := closeLoops next ((target, n, next) :: t.loops); .inr { t with pc := x.1, loops := x.2 }
  | 0x21 =>
    match kCond (bitsOf w.toNat 50 48) kv (bitsOf w.toNat 47 24) with
    | none => .inl .keeperEncoding
    | some b =>
      if !(inRegion t target) then .inl .keeperEncoding
      else if !b then let x := closeLoops next t.loops; .inr { t with pc := x.1, loops := x.2 }
      else if (match t.loops with | [] => false | l :: _ => decide (target < l.2.2) || decide (l.1 ≤ target)) then .inl .keeperStack
      else .inr { t with pc := target }
  | 0x22 =>
    if !(inRegion t target) then .inl .keeperEncoding
    else if 8 ≤ t.calls.length then .inl .keeperStack
    else let x := closeLoops target t.loops; .inr { t with pc := x.1, loops := x.2, calls := (next, t.loops.length) :: t.calls }
  | 0x23 =>
    match t.calls with
    | [] => .inl .keeperStack
    | (a, d) :: r =>
      if d ≠ t.loops.length then .inl .keeperStack
      else let x := closeLoops a t.loops; .inr { t with pc := x.1, loops := x.2, calls := r }
  | 0x24 => let x := closeLoops next t.loops; .inr { t with pc := x.1, loops := x.2, k := tset t.k r (w.setWidth 32) }
  | _ => let x := closeLoops next t.loops; .inr { t with pc := x.1, loops := x.2, k := tset t.k r (BitVec.ofNat 32 kv + w.setWidth 32) }

/-- Number of slots of a header's PRESENT field. -/
def slotCount (h : Nat) : Nat := ((List.range 6).filter (fun b => bitOf h b)).length

/-- Whether an armed injection of kind `k` names context `x` (R367): the context serves the named core and SEL names its number. -/
def armedCtx (c : Chip) (k x : Nat) : Bool :=
  let w := c.safe.injCtl.toNat
  bitOf w 31 && bitsOf w 29 26 == k && bitsOf w 15 0 == (ctx c x).job && c.boot.test && bitsOf w 25 16 / 256 == x / 4 &&
    c.safe.injSel.toNat % 4 == x % 4

/-- SEC-DED of a program-store read: an uncorrectable word is a fault of the context that read it (R239, R355). -/
def progCheck (c : Chip) (x lw base len : Nat) : Chip :=
  if c.safe.ecc = [] then c
  else
    each (wordsOf ((List.range len).map (base + ·))) c (fun c w =>
      match tfind c.safe.ecc w with
      | none => c
      | some [] => c
      | some [_] => { c with safe := { c.safe with ceReads := satAdd 32 c.safe.ceReads 1 } }
      | some _ => withSyndrome c (fun y c => keeperFault c x lw .memoryUe lw y 2 false))

/-- The CRC-16 of the broadcast form of a word: the header, then the slots, in address order (R221). -/
def wordCrc (hdr : Word) (slots : List Dword) : Nat := crc16 (leBytes 4 hdr.toNat ++ slots.flatMap (fun s => leBytes 8 s.toNat))

def FWord.intact (w : FWord) : Bool := wordCrc w.hdr w.slots == w.crc

/-- Deliver a broadcast word to the FIFO of every core of the context, 10 cycles on (R222); an armed BROADCAST injection corrupts its CRC at one core. -/
def broadcast (c : Chip) (x : Nat) (w : FWord) : Chip :=
  each (ctxCores (ctx c x)) c (fun c i =>
    let hit := armedFor c 7 i
    onCore (if hit then injectFired c else c) i (fun k => { k with fifo := k.fifo ++ [{ w with crc := if hit then w.crc ^^^ 1 else w.crc }] }))

/-- A context fetches one long word, applies its Keeper ops and broadcasts it (R215-R223). `agree`: the two copies of the Keeper agree, in whatever they do in this cycle (R213). -/
def fetchLongWord (e : Env) (c : Chip) (x : Nat) (agree : Bool) : Chip :=
  let t := ctx c x
  if !agree then stopCtx (keeperFault c x t.pc .keeperLockstep 0 0 0 false) x
  else if !t.run || decide (c.now < t.nextAt) || decide (32 ≤ t.sent - t.back) then c
  else
    let lw := t.pc
    let fail := fun (f : FaultCode) (c : Chip) => stopCtx (keeperFault c x lw f 0 0 0 false) x
    let base := Config.progBase (x / 4) + lw
    let h := rdLE e c base 4
    let n := slotCount (bitsOf h 5 0)
    let next := lw + 4 + 8 * n
    if !(inRegion t lw) || decide (t.region.1 + t.region.2 < next) then fail .keeperEncoding c
    else if armedCtx c 6 x then stopCtx (keeperFault (injectFired c) x lw .keeperLockstep 0 0 0 true) x
    else
      let c := progCheck c x lw base (4 + 8 * n)
      let slots := (List.range n).map (fun s => BitVec.ofNat 64 (rdLE e c (base + 4 + 8 * s) 8))
      let last := slots.getLast?.getD 0
      let cOp := if bitOf h 5 then some (bitsOf last.toNat 63 58) else none
      let isK := match cOp with | some o => decide (0x20 ≤ o) && decide (o ≤ 0x25) | none => false
      let isEnd := cOp == some 1 && bitsOf last.toNat 57 55 == 0
      let wait := bitsOf h 15 8
      let step : FaultCode ⊕ Ctx :=
        if isK then keeperOp t last next
        else let y := closeLoops next t.loops; .inr { t with pc := y.1, loops := y.2 }
      match step with
      | .inl f => fail f c
      | .inr t' =>
        let hdr := BitVec.ofNat 32 (if isK then h - 32 else h)
        let sl := if isK then slots.dropLast else slots
        let w : FWord := ⟨hdr, sl, lw, c.now + 10, wordCrc hdr sl, false⟩
        let c1 := { c with ctxs := tset c.ctxs x { t' with sent := t.sent + 1, nextAt := c.now + 1 + wait, run := !isEnd } }
        broadcast c1 x w

/-- Room of a queue (R225). -/
def queueRoom : Queue → Nat
  | .m0 => 16 | .m1 => 16 | .v => 16 | .s => 32 | .b => 8

/-- Queue of the PRESENT bit `b` (R219); bit 5 has none. -/
def presentQueue : Nat → Option Queue
  | 0 => some .m0 | 1 => some .m1 | 2 => some .v | 3 => some .s | 4 => some .b | _ => none

/-- Slots of a word with the PRESENT bit each answers to. -/
def wordSlots (w : FWord) : List (Nat × Dword) := ((List.range 6).filter (fun b => w.hdr.getLsbD b)).zip w.slots

/-- Whether every queue that a word names has a free entry (R224). -/
def hasRoom (k : Core) (w : FWord) : Bool :=
  (wordSlots w).all (fun p => match presentQueue p.1 with | some q => decide ((queueOf k q).length < queueRoom q) | none => true)

/-- COORD of PSET (R17, R228): row, column, stack or whole logical core ID. -/
def coord (code i : Nat) : Nat := match code with | 0 => bitsOf i 7 4 | 1 => bitsOf i 3 0 | 2 => bitsOf i 9 8 | _ => i % 1024

/-- FUNC of PSET (R228). -/
def psetFunc (f : Nat) (x imm : Nat) (a b : Bool) : Bool :=
  match f with
  | 0 => false | 1 => true | 2 => x == imm | 3 => decide (x < imm) | 4 => a && b | 5 => a || b | 6 => !a | _ => a != b

/-- Change a window; the check sees it from the next cycle (R79). -/
def setWindow (k : Core) (now wn : Nat) (w : Window) : Core :=
  let o := tget ⟨Window.closed, Window.closed, 0⟩ k.wins wn
  { k with wins := tset k.wins wn ⟨w, winSee o now, now⟩ }

/-- A core C op acts at the take (R227, R228). -/
def coreOp (c : Chip) (i : Nat) (w : Dword) (lw : Nat) : Chip :=
  let bad := fun (f : FaultCode) (c : Chip) => coreFault c i engC lw f 0 0 0
  let k := core c i
  let on := predOf k c.now (sf w 57 55)
  match opOf w with
  | 0 => c
  | 1 => if sf w 57 55 ≠ 0 then bad .cEncoding c else onCore c i (fun k => { k with ended := true })
  | 2 =>
    if sf w 54 52 = 0 then bad .cEncoding c
    else if !on then c
    else
      let r := psetFunc (sf w 51 49) (coord (sf w 48 47) i) (sf w 46 37) (predOf k c.now (sf w 36 34)) (predOf k c.now (sf w 33 31))
      onCore c i (fun k => setPred k c.now 5 (sf w 54 52) r)
  | 3 =>
    if !on then c
    else
      let region := bitOf w.toNat 50
      let b := sf w 49 32
      let l := sf w 31 13
      if l ≤ b ∨ (if region then 2 ^ 18 else 2 ^ 15) < l then bad .addressRange c
      else onCore c i (fun k => setWindow k c.now (sf w 54 51) ⟨true, region, b, l, jobOfCore c i⟩)
  | 4 =>
    if !on then c
    else onCore c i (fun k => setWindow k c.now (sf w 54 51) { (winSee (tget ⟨Window.closed, Window.closed, 0⟩ k.wins (sf w 54 51)) c.now) with isOpen := false })
  | _ => bad .cEncoding c

/-- Put a word's slots into their queues (R224). -/
def enqueue (now : Nat) (w : FWord) (k : Core) : Core :=
  (wordSlots w).foldl (fun k p => match presentQueue p.1 with
    | some q => setQueue k q (queueOf k q ++ [⟨p.2, w.lw, now⟩])
    | none => k) k

/-- A core discards every word that has reached it, returns a credit for each, and takes no further word of the attempt (R221). -/
def discardWords (now : Nat) (k : Core) : Core :=
  { k with fifo := k.fifo.filter (fun w => decide (now < w.arrive)), takeTimes := k.takeTimes ++ (k.fifo.filter (fun w => decide (w.arrive ≤ now))).map (fun _ => now), dead := true }

/-- A word whose CRC check fails at a core (R221): BROADCAST_CRC. -/
def crcFail (c : Chip) (i : Nat) (w : FWord) : Chip :=
  raise (onCore c i (discardWords c.now)) ⟨faultNo .broadcastCrc, engC, gca c i, some i, w.lw, jobOfCore c i, none, 0, noCore, 0, 0, true, false, !w.intact⟩

/-- Words that reach a core in this cycle are checked (R221, R222); one that takes no further word discards them. -/
def arriveWords (c : Chip) (i : Nat) : Chip :=
  let k := core c i
  let new := k.fifo.filter (fun w => decide (w.arrive ≤ c.now) && !w.checked)
  if new = [] then c
  else if k.dead then onCore c i (discardWords c.now)
  else match new.find? (fun w => !w.intact) with
    | some w => crcFail c i w
    | none => onCore c i (fun k => { k with fifo := k.fifo.map (fun w => if w.arrive ≤ c.now then { w with checked := true } else w) })

/-- The word that TAKE's operand says was damaged on its way: the one that reaches the core in this cycle, else the head of the FIFO. -/
def damaged (k : Core) (now : Nat) : Option FWord :=
  match k.fifo.find? (fun w => w.arrive == now) with
  | some w => some w
  | none => match k.fifo with
    | w :: _ => if w.arrive ≤ now then some w else none
    | [] => none

/-- TAKE (R221, R224): a word that fails its CRC check is discarded with every other that has come; else the head word is taken whole when its time and room have come. `crcOk`: no word was damaged on its way to the core. -/
def takeWord (c : Chip) (i : Nat) (crcOk : Bool) : Chip :=
  let k := core c i
  match k.fifo with
  | [] => c
  | w :: r =>
    if k.dead || k.ended then (if w.arrive ≤ c.now then onCore c i (discardWords c.now) else c)
    else if !crcOk then (match damaged k c.now with | some x => crcFail c i x | none => c)
    else if w.arrive ≤ c.now ∧ w.intact = false then crcFail c i w
    else if c.now < w.arrive + 1 ∨ (k.lastLw.isSome ∧ c.now < k.lastTake + 1 + k.lastWait) ∨ hasRoom k w = false then c
    else
      let wait := bitsOf w.hdr.toNat 15 8
      let c1 := onCore c i (fun k =>
        { (enqueue c.now w k) with
          fifo := r, lastTake := c.now, lastWait := wait, lastLw := some w.lw
          takeTimes := k.takeTimes ++ [c.now], retireAt := max k.retireAt c.now
          idleTill := if w.hdr.getLsbD 16 then c.now + wait else k.idleTill })
      match (wordSlots w).find? (fun p => p.1 == 5) with
      | some p => coreOp c1 i p.2 w.lw
      | none => c1

/-- CREDIT (R222, R223): once every core of the context has returned its credit for a word, 10 cycles after its take, one more word may be outstanding. -/
def creditBack (c : Chip) (x : Nat) : Chip :=
  let cs := ctxCores (ctx c x)
  if (ctx c x).back < (ctx c x).sent ∧ cs ≠ [] ∧ cs.all (fun i => match (core c i).takeTimes with | t :: _ => decide (t + 10 ≤ c.now) | [] => false) = true then
    onCtx (each cs c (fun c i => onCore c i (fun k => { k with takeTimes := k.takeTimes.tail }))) x (fun t => { t with back := t.back + 1 })
  else c

/-- The hold of a core's control unit (queue 5) or of a queue head: the cycle it began and its long word (R226). -/
def holdSince (k : Core) (now q : Nat) : Option (Nat × Nat) :=
  if q = 5 then
    match k.fifo with
    | w :: _ => if hasRoom k w then none
                else some (max (w.arrive + 1) (if k.lastLw.isSome then k.lastTake + 1 + k.lastWait else 0), w.lw)
    | [] => none
  else
    let qq : Queue := match q with | 0 => .m0 | 1 => .m1 | 2 => .v | 3 => .s | _ => .b
    match queueOf k qq with
    | s :: _ =>
      let frozenFrom := fun (a : MArray) => (a.frozeAt.map (fun t => (max (s.taken + 1) t, s.lw)))
      match qq with
      | .m0 => frozenFrom k.a0
      | .m1 => frozenFrom k.a1
      | .b => if now < k.bReady then none else k.bHeld.map (fun t => (t, s.lw))
      | .s => none
      | .v => if now < k.vReady then none else some (max (s.taken + 1) k.vReady, s.lw)
    | [] => none

/-- QUEUE_STALL (R40, R226): a hold of more cycles, this one among them, than the stall bound. -/
def queueStallCheck (c : Chip) (i q : Nat) : Chip :=
  match coreJob c i, holdSince (core c i) c.now q with
  | some j, some (t, lw) =>
    if j.hdr.stall < c.now + 1 - t then coreFault c i (if q = 5 then engC else q) lw .queueStall 0 (c.now + 1 - t) 0 else c
  | _, _ => c

end Sys2Proof.Machine
end

