-- ==== Sys2Proof/Machine/Rings.lean ====
section
/-! DEFINITION. Rings, doorbells, completion, event and fault records, the management log (12_host.md R290-R313; 15_safety.md R363-R366). -/

namespace Sys2Proof.Machine

/-- Ring kinds (R290). -/
def kindOf (i : Nat) : Nat := if i < 32 then 0 else if i < 64 then 1 else if i < 128 then 2 else if i = 128 then 3 else 4

/-- Bytes of a record of a ring kind (R290). -/
def recSize (kind : Nat) : Nat := match kind with | 0 => 64 | 1 => 32 | 2 => 16 | _ => 64

def ringSize (r : Ring) : Nat := 2 ^ r.log2

/-- Device address of entry 0 (R291, R416). -/
def ringAddr (r : Ring) : Nat := r.base * 4096

/-- Records of a ring not yet consumed (R292). -/
def ringUsed (r : Ring) : Nat := dist32 r.prod r.cons

/-- Phase of the record with index `i` (R292). -/
def phaseBit (r : Ring) (i : Nat) : Nat := 1 - i / ringSize r % 2

/-- Device state of the status window (R305, R422). -/
def deviceState (c : Chip) : Nat :=
  if c.boot.failed then 4 else if !c.boot.ready then 0 else if c.boot.halted then 3 else if c.boot.test then 2 else 1

/-- Send a ring's interrupt message: it is then not armed and no record is pending (R307). -/
def sendIrq (c : Chip) (k : Nat) : Chip :=
  let r := ring c k
  emit (onRing c k (fun r => { r with armed := false, pend := [] })) (if r.msix then .msix r.irqId else .hartIrq r.hart r.irqId)

/-- Whether a condition of R307 holds for a ring. -/
def irqDue (r : Ring) (now : Nat) : Bool :=
  (r.coalCount != 0 && decide (r.coalCount ≤ r.pend.length)) ||
    (r.coalTime != 0 && (match r.pend with | [] => false | p :: _ => decide (p.1 + r.coalTime * Config.us ≤ now))) ||
    r.pend.any (fun p => p.2)

def checkIrq (c : Chip) (k : Nat) : Chip := if (ring c k).armed && irqDue (ring c k) c.now then sendIrq c k else c

/-- Write one record at the producer index of a ring and advance the index; `body` gives the bytes for a phase bit (R292, R299). -/
def postRecord (c : Chip) (k : Nat) (irq : Bool) (body : Nat → List Byte) : Chip :=
  let r := ring c k
  let c1 := wr c (ringAddr r + r.prod % ringSize r * recSize (kindOf (k % 256))) (body (phaseBit r r.prod))
  let c2 := onRing c1 k (fun r => { r with prod := (r.prod + 1) % 2 ^ 32, pend := r.pend ++ [(c.now, irq)] })
  checkIrq c2 k

/-- Status codes (R313). -/
def statusCode : Status → Nat
  | .ok => 0x00 | .accepted => 0x01 | .cancelled => 0x02 | .alreadyDone => 0x03 | .versionChanged => 0x04
  | .invalidArg => 0x10 | .noRoom => 0x11 | .engineAbsent => 0x12 | .profileMismatch => 0x13 | .lengthBudget => 0x14
  | .notReady => 0x15 | .busy => 0x16 | .denied => 0x17 | .deadlineMiss => 0x20 | .tickAbort => 0x21
  | .programFault => 0x22 | .hwFault => 0x23 | .partitionKilled => 0x24

/-- Handle of a command (R296): kind 0, index and generation 0. -/
def cmdHandle (id : CmdId) : Nat := id.part * 2 ^ 60 + id.seq

/-- Handle of another kind (R296). -/
def mkHandle (part kind index gen seq : Nat) : Nat := part * 2 ^ 60 + kind * 2 ^ 56 + index * 2 ^ 40 + gen * 2 ^ 32 + seq

/-- A completion record (R299). -/
def complBytes (h tag st op sq flags a b detail phase : Nat) : List Byte :=
  leBytes 8 h ++ leBytes 4 tag ++ leBytes 1 st ++ leBytes 1 op ++ leBytes 1 sq ++ leBytes 1 flags ++ leBytes 8 a ++ leBytes 4 b ++
    leBytes 3 detail ++ leBytes 1 (phase * 128)

def findCmd (c : Chip) (id : CmdId) : Option Cmd := c.cmds.find? (fun x => x.id == id)

def updCmd (c : Chip) (id : CmdId) (f : Cmd → Cmd) : Chip := { c with cmds := c.cmds.map (fun x => if x.id = id then f x else x) }

/-- Post a completion record of a command on its completion ring. -/
def complete (c : Chip) (m : Cmd) (h : Nat) (st : Status) (fin : Bool) (a b detail : Nat) : Chip :=
  postRecord c (ringKey m.id.part (32 + m.cq)) (fin && bitOf m.flags 1)
    (complBytes h m.tag (statusCode st) m.opcode m.sq (b2n fin) a b detail)

/-- ACCEPTED: the first record of a long operation, with the handle that the FINAL will carry (R297). -/
def acceptCmd (c : Chip) (id : CmdId) (h : Nat) : Chip :=
  match findCmd c id with
  | none => c
  | some m => updCmd (complete c m h .accepted false 0 0 0) id (fun x => { x with phase := .accepted, handle := h })

/-- The FINAL of a command: its descriptor is done with (R297). -/
def finalCmd (c : Chip) (id : CmdId) (st : Status) (a b detail : Nat) : Chip :=
  match findCmd c id with
  | none => c
  | some m =>
    let c1 := { c with cmds := c.cmds.filter (fun x => x.id != id) }
    complete c1 m m.handle st true a b detail

def final (c : Chip) (id : CmdId) (st : Status) : Chip := finalCmd c id st 0 0 0

/-- A command that passes its checks and is done at once: ACCEPTED, then FINAL (R297). -/
def doneCmd (c : Chip) (id : CmdId) (st : Status) (a b : Nat) : Chip := finalCmd (acceptCmd c id (cmdHandle id)) id st a b 0

/-- Handles whose FINAL is pending on a completion ring of a partition (R298). -/
def pendingOn (c : Chip) (p cq : Nat) : Nat := (c.cmds.filter (fun x => x.id.part == p && x.cq == cq)).length

/-! Events and faults. -/

/-- Add an entry to one of the two halves of the management log: 256 fault records or 64 events (R366). -/
def logPush (l : List LogEntry) (n : Nat) (x : LogEntry) : List LogEntry := (l ++ [x]).drop ((l.length + 1) - n)

/-- Bytes of an event record (R365). -/
def eventBytes (r : EventRec) (lost : Bool) (phase : Nat) : List Byte :=
  leBytes 2 r.event ++ leBytes 1 (r.flags + b2n lost) ++ leBytes 1 0 ++ leBytes 2 r.job ++ leBytes 2 r.pkg ++ leBytes 8 r.tick ++
    leBytes 8 r.dtick ++ (r.body ++ List.replicate 32 0).take 32 ++ leBytes 7 0 ++ leBytes 1 (phase * 128)

/-- Post a record to a ring of partition `p`, or drop and count it where the ring is full or disabled (R302, R417). -/
def postLossy (c : Chip) (p i : Nat) (body : Bool → Nat → List Byte) : Chip :=
  let k := ringKey p i
  let r := ring c k
  if !r.enable || decide (ringSize r ≤ ringUsed r) then
    onPart (onRing c k (fun r => { r with lost := true })) p (fun q =>
      if i = 128 then { q with eventsLost := satAdd 32 q.eventsLost 1 } else { q with faultsLost := satAdd 32 q.faultsLost 1 })
  else postRecord (onRing c k (fun r => { r with lost := false })) k false (body r.lost)

/-- Post an event to the event rings of partitions, and to the management log where it is of the kinds kept there (R365, R366). -/
def event (c : Chip) (parts : List Nat) (r : EventRec) : Chip :=
  let c1 := each parts c (fun c p => postLossy c p 128 (eventBytes r))
  if r.event = 6 ∨ r.event = 7 ∨ r.event = 8 ∨ r.event = 9 then
    { c1 with safe := { c1.safe with
        eventSeq := (c1.safe.eventSeq + 1) % 2 ^ 16
        events := logPush c1.safe.events 64 ⟨c1.safe.eventSeq, eventBytes r false 0⟩
        ibiDue := true } }
  else c1

/-- Partitions that are assigned (states 1 to 3). -/
def assignedParts (c : Chip) : List Nat := (List.range 16).filter (fun p => (part c p).state != 0)

/-- An event of no job. -/
def plainEvent (c : Chip) (ev flags : Nat) (body : List Byte) : EventRec := ⟨ev, flags, 0, c.beacon.pkg, 0, c.beacon.tick, body⟩

/-- An event of a job, to every partition of the job here. -/
def jobEvent (c : Chip) (tag : Nat) (tick ev flags : Nat) (body : List Byte) : Chip :=
  match tfind c.jobs tag with
  | none => c
  | some j => event c j.place.parts ⟨ev, flags, tag, c.beacon.pkg, tick, c.beacon.tick, body⟩

/-- Bytes of a fault record (R363). -/
def faultBytes (r : FaultRec) (lost : Bool) (phase : Nat) : List Byte :=
  leBytes 1 r.code ++ leBytes 1 (r.flags + 8 * b2n lost) ++ leBytes 1 r.engine ++ leBytes 1 r.attempt ++ leBytes 4 r.location ++
    leBytes 4 r.lw ++ leBytes 2 r.job ++ leBytes 2 r.pkg ++ leBytes 8 r.tick ++ leBytes 8 r.dtick ++ leBytes 8 r.address ++
    leBytes 8 r.other ++ leBytes 8 r.itemB ++ leBytes 4 r.consec ++ leBytes 3 0 ++ leBytes 1 (phase * 128)

/-- Enter a record in the management log and post it to a partition's fault ring, if there is one (R364, R366). -/
def postFault (c : Chip) (p : Option Nat) (r : FaultRec) : Chip :=
  let c1 := match p with | some p => postLossy c p 129 (faultBytes r) | none => c
  emit { c1 with safe := { c1.safe with
          faultSeq := (c1.safe.faultSeq + 1) % 2 ^ 16
          faults := logPush c1.safe.faults 256 ⟨c1.safe.faultSeq, faultBytes r false 0⟩
          ibiDue := c1.safe.ibiDue || faultClass r.code != 0 } } (.mgmt r)

/-- The partition that holds a band. -/
def bandPart (c : Chip) (b : Nat) : Option Nat := (List.range 16).find? (fun p => (part c p).state != 0 && (part c p).bands.getLsbD b)

/-- Lowest band of a mask. -/
def lowestBand (m : BitVec 16) : Option Nat := (List.range 16).find? (fun b => m.getLsbD b)

/-- The partition whose fault ring takes a record (R364): of the core's band, the context's lowest band, the job's lowest partition, or the owner of the address or port. -/
def faultPart (c : Chip) (r : Raise) : Option Nat :=
  match r.core with
  | some i => bandPart c (bandOf i)
  | none =>
    if 2 ^ 23 ≤ r.loc ∧ r.loc % 2 ^ 16 < 16 ∧ r.engine = engK then (lowestBand (ctx c (r.loc % 16)).bands).bind (bandPart c)
    else match tfind c.jobs r.job with
      | some j => j.place.parts.foldl (fun (o : Option Nat) p => match o with | none => some p | some q => some (min p q)) none
      | none =>
        if 2 ^ 23 ≤ r.loc ∧ 0x100 ≤ r.loc % 2 ^ 16 ∧ r.loc % 2 ^ 16 < 0x110 then
          let pt := tget Port.reset c.ports (r.loc % 16)
          if pt.partEn && (part c pt.part).state != 0 then some pt.part else none
        else if inStore r.addr && r.addr != 0 then bandPart c (r.addr / 2 ^ 24 / 64)
        else if inAnyNear r.addr then bandPart c ((r.addr - Config.nearBase) / 2 ^ 21 / 64)
        else if inAperture r.addr then aperPart c ((r.addr - Config.aperture) / Config.apertureWindow)
        else none

/-! Doorbells. -/

/-- Whether a partition's doorbells are served now (R294, R378). -/
def doorbellsServed (c : Chip) (p : Nat) : Bool :=
  deviceState c != 0 && deviceState c != 4 && (part c p).state != 0 && (part c p).state != 2

/-- The event of an invalid index or completion ring (R294, R298). -/
def ringError (c : Chip) (p kind n value : Nat) : Chip :=
  event c [p] (plainEvent c 3 0 (leBytes 4 kind ++ leBytes 4 n ++ leBytes 4 value))

/-- Doorbell of submission ring `n` (R294). -/
def submissionBell (c : Chip) (p n value : Nat) : Chip :=
  let k := ringKey p n
  let r := ring c k
  if !(doorbellsServed c p) || !r.enable || value == r.prod then c
  else if dist32 value r.fetch ≤ ringSize r ∧ dist32 r.prod r.fetch ≤ dist32 value r.fetch then onRing c k (fun r => { r with prod := value })
  else ringError c p 0 n value

/-- Doorbell of a ring that the device writes (R294): the index moves, and the ring is armed again (R307). -/
def consumerBell (c : Chip) (p i value : Nat) : Chip :=
  let k := ringKey p i
  let r := ring c k
  if !(doorbellsServed c p) || !r.enable || value == r.cons then c
  else if dist32 value r.cons ≤ ringUsed r then
    let left := dist32 r.prod value
    checkIrq (onRing c k (fun r => { r with cons := value, armed := true, pend := r.pend.drop (r.pend.length - left) })) k
  else ringError c p (kindOf i) (if i < 64 then i - 32 else if i < 128 then i - 64 else 0) value

/-- A doorbell write by its offset in a page (R293): aligned 4-byte writes only; anything else is counted. -/
def doorbellWrite (c : Chip) (off size value : Nat) : Chip :=
  let p := off / 4096 % 16
  let o := off % 4096
  if size ≠ 4 ∨ o % 4 ≠ 0 ∨ 0x208 ≤ o then { c with safe := { c.safe with unmapped := satAdd 32 c.safe.unmapped 1 } }
  else if o < 0x080 then submissionBell c p (o / 4) value
  else consumerBell c p (if o < 0x100 then 32 + (o - 0x80) / 4 else if o < 0x200 then 64 + (o - 0x100) / 4 else if o = 0x200 then 128 else 129) value

/-! Fetch. -/

/-- The next value of a handle sequence, which skips 0 (R296). -/
def nextSeq (s : Nat) : Nat := if s + 1 = 2 ^ 32 then 1 else s + 1

/-- The listed opcodes (R309). -/
def listedOp (op : Nat) : Bool :=
  [0x01, 0x02, 0x03, 0x04, 0x05, 0x10, 0x11, 0x12, 0x13, 0x20, 0x21, 0x22, 0x23, 0x30, 0x40, 0x41, 0x42, 0x50, 0x51, 0x52].contains op

/-- Flag bits [7:2] that a command uses (R309). -/
def flagBits (op : Nat) : Nat :=
  match op with
  | 0x02 => 4 | 0x05 => 12 | 0x10 => 12 | 0x13 => 4 | 0x20 => 4 | 0x22 => 4 | 0x23 => 4 | 0x40 => 4 | 0x42 => 4 | 0x52 => 4 | _ => 0

/-- Argument bytes (offset from 0x10, size) that a command uses (R309). -/
def argFields (op target : Nat) : List (Nat × Nat) :=
  match op with
  | 0x01 => [(0, 32)]
  | 0x02 => [(0, 8), (8, 8), (16, 1), (18, 2)]
  | 0x03 => [(0, 8), (8, 1)]
  | 0x04 => [(0, 16)]
  | 0x10 => [(0, 42)]
  | 0x11 => [(0, 8), (8, 4)]
  | 0x13 => [(0, 8), (8, 4), (12, 4)]
  | 0x20 => [(0, 4), (8, 8)]
  | 0x21 => [(0, 4)]
  | 0x22 => [(0, 4), (4, 2), (8, 8), (16, 4), (20, 4), (24, 8), (32, 8)]
  | 0x23 => [(0, 1), (8, 8)]
  | 0x30 => if target = 0 then [(0, 4)] else [(4, 2)]
  | 0x41 => [(0, 1), (4, 4)]
  | 0x42 => [(0, 8), (8, 8)]
  | 0x50 => [(0, 5), (6, 2), (8, 8), (16, 4), (20, 4)]
  | 0x51 => [(0, 1), (2, 2), (4, 1), (8, 8)]
  | 0x52 => [(0, 8), (8, 8)]
  | _ => []

/-- A descriptor whose reserved flags, AUX, TARGET and argument bytes are zero and whose opcode is listed (R295). -/
def descriptorOk (m : Cmd) : Bool :=
  listedOp m.opcode &&
  (m.flags / 4 * 4) &&& flagBits m.opcode == m.flags / 4 * 4 &&
  (m.aux == 0 || m.opcode == 0x10 || (m.opcode == 0x52 && bitOf m.flags 2)) &&
  (m.target == 0 || !([0x01, 0x41, 0x50].contains m.opcode)) &&
  (List.range 48).all (fun o => m.args.getD o 0 == 0 || (argFields m.opcode m.target).any (fun f => decide (f.1 ≤ o) && decide (o < f.1 + f.2)))

/-- Whether a fetched descriptor counts as final for a fence (R304): a request handle once its first record is written. -/
def fenceFinal (m : Cmd) : Bool := m.phase == .accepted && (m.opcode == 0x10 || (m.opcode == 0x52 && bitOf m.flags 2))

/-- Argument field of a command, by its descriptor offset (R309). -/
def arg (m : Cmd) (off n : Nat) : Nat := field m.args (off - 16) n

/-- Device addresses that a command names, with the bytes that its arguments tell of (256 for the header of an image), and whether it reads them (R309). -/
def cmdSpans (m : Cmd) : List ((Nat × Nat) × Bool) :=
  match m.opcode with
  | 0x01 => [((arg m 0x10 8, 256), true), ((arg m 0x18 8, 8), true), ((arg m 0x20 8, arg m 0x28 8), false)]
  | 0x02 => [((arg m 0x10 8, 256), true)]
  | 0x03 => [((arg m 0x10 8, 256), true)]
  | 0x10 => [((arg m 0x10 8, cdiv (4 * arg m 0x20 4) 8 * 8 + 8 * arg m 0x36 2), true), ((arg m 0x18 8, 1), false)]
  | 0x11 => [((arg m 0x10 8, 4 * arg m 0x18 4), true)]
  | 0x13 => [((arg m 0x10 8, arg m 0x18 4), false)]
  | 0x20 => [((arg m 0x18 8, 256), true)]
  | 0x22 => [((arg m 0x18 8, 1), true), ((arg m 0x28 8, 256), true)]
  | 0x23 => [((arg m 0x18 8, 64), true)]
  | 0x42 => [((arg m 0x10 8, arg m 0x18 8), false)]
  | 0x52 => [((arg m 0x10 8, arg m 0x18 8), bitOf m.flags 2)]
  | _ => []

/-- Extents that a command accesses: those that it names, and those of the image that it reads (R405, R414). -/
def cmdExtents (m : Cmd) : List (Nat × Nat) := (cmdSpans m).map Prod.fst ++ m.more

/-- Extents that an accepted command goes on to read. -/
def noteExtents (c : Chip) (id : CmdId) (xs : List (Nat × Nat)) : Chip := updCmd c id (fun m => { m with more := xs })

/-- Whether a word of the host store in one of some extents is uncorrectable (R355). -/
def spansBad (c : Chip) (xs : List (Nat × Nat)) : Bool :=
  c.safe.ecc.any (fun w => decide (2 ≤ w.2.length) && inHostStore (w.1 * 16) &&
    xs.any (fun a => decide (a.1 < w.1 * 16 + 16) && decide (w.1 * 16 < a.1 + a.2)))

/-- Whether a word of the host store that a command names to be read is uncorrectable (R355). -/
def hostBad (c : Chip) (m : Cmd) : Bool := spansBad c (((cmdSpans m).filter (fun a => a.2)).map Prod.fst)

/-- Start a command: a quarantined partition refuses all but QUERY and KILL_JOB (R361), an invalid descriptor ends at once (R295), and one that reads an uncorrectable word of the host store ends HW_FAULT (R355). -/
def startCmd (c : Chip) (m : Cmd) : Chip :=
  let c1 := updCmd c m.id (fun x => { x with phase := .started })
  if (part c m.id.part).state = 3 ∧ m.opcode ≠ 0x13 ∧ m.opcode ≠ 0x40 then final c1 m.id .denied
  else if !(descriptorOk m) then final c1 m.id .invalidArg
  else if hostBad c1 m then final c1 m.id .hwFault
  else c1

/-- Whether the device could fetch from a submission ring now: it is enabled and not empty, and its descriptor names a ring that has room, or none that takes a record (R298). -/
def sqReady (e : Env) (c : Chip) (p n : Nat) : Bool :=
  let r := ring c (ringKey p n)
  let cq := field (rdBytes e c (ringAddr r + r.fetch % ringSize r * 64) 64) 2 1
  let q := ring c (ringKey p (32 + cq))
  r.enable && r.fetch != r.prod && (decide (31 < cq) || !q.enable || decide (ringUsed q + pendingOn c p cq + 2 ≤ ringSize q))

/-- The submission ring that a partition's next descriptor comes from: the ready ones in rotation, from the lowest (R303). -/
def nextRing (e : Env) (c : Chip) (p : Nat) : Option Nat := ((List.range 32).map (fun k => ((part c p).rot + k) % 32)).find? (sqReady e c p)

/-- DESCRIPTOR_FETCH (R295-R298, R303, R304): the ring is served where it is its turn. -/
def fetchDescriptor (e : Env) (c : Chip) (p n : Nat) : Chip :=
  let k := ringKey p n
  let r := ring c k
  if !(doorbellsServed c p) ∨ nextRing e c p ≠ some n then c
  else
    let d := rdBytes e c (ringAddr r + r.fetch % ringSize r * 64) 64
    let cq := field d 2 1
    let q := ring c (ringKey p (32 + cq))
    let next := fun (c : Chip) => onPart (onRing c k (fun r => { r with fetch := (r.fetch + 1) % 2 ^ 32 })) p (fun x => { x with seq := nextSeq x.seq, rot := (n + 1) % 32 })
    if 31 < cq ∨ !q.enable then ringError (next c) p 0 n cq
    else
      let id : CmdId := ⟨p, (part c p).seq⟩
      let m : Cmd := ⟨id, n, field d 0 1, field d 1 1, cq, field d 3 1, field d 4 4, field d 8 8, d.drop 16, .held, cmdHandle id, []⟩
      let earlier := c.cmds.filter (fun x => x.id.part == p && x.sq == n)
      let c1 := { (next c) with cmds := c.cmds ++ [m] }
      if earlier.any (fun x => x.phase == .held) ∨ (bitOf m.flags 0 = true ∧ earlier.any (fun x => !(fenceFinal x)) = true) then c1
      else startCmd c1 m

/-- FENCE (R304): start the held descriptors of a ring that may start now, in ring order, up to the next fence that must wait. -/
def startHeld : Nat → Chip → Nat → Nat → Chip
  | 0, c, _, _ => c
  | fuel + 1, c, p, n =>
    let mine := c.cmds.filter (fun x => x.id.part == p && x.sq == n)
    match mine.find? (fun x => x.phase == .held) with
    | none => c
    | some m =>
      let earlier := mine.takeWhile (fun x => x.id != m.id)
      if bitOf m.flags 0 && earlier.any (fun x => !(fenceFinal x)) then c
      else startHeld fuel (startCmd c m) p n

def releaseFence (c : Chip) (p n : Nat) : Chip := startHeld c.cmds.length c p n

/-- COAL_TIME (R307): the armed ring's oldest pending record has reached its age. -/
def coalesce (c : Chip) (p i : Nat) : Chip := checkIrq c (ringKey p i)

/-! The started command of a row. -/

/-- Kind, index, generation and sequence of a handle (R296). -/
def hKind (h : Nat) : Nat := bitsOf h 59 56
def hIndex (h : Nat) : Nat := bitsOf h 55 40
def hGen (h : Nat) : Nat := bitsOf h 39 32
def hSeq (h : Nat) : Nat := h % 2 ^ 32

/-- Whether two commands act on one job, request or partition, an adapter ID and a code-table slot being the job's (R303); LOAD_PROGRAM commands are served in their order (R260), and a request for a group may go to any job (R283). -/
def sameObject (x m : Cmd) : Bool :=
  (m.target != 0 && hKind x.target == hKind m.target && hIndex x.target == hIndex m.target && x.target != 0) ||
    (m.opcode == 0x10 && m.target == 0 && hKind x.target == 3) || (x.opcode == 0x01 && m.opcode == 0x01) ||
    (x.opcode == 0x41 && m.opcode == 0x41 && arg x 0x10 1 == arg m 0x10 1)

/-- Whether every command fetched earlier that acts on the same object has taken its effect, or begun to (R303). -/
def inTurn (c : Chip) (m : Cmd) : Bool := (c.cmds.takeWhile (fun x => x.id != m.id)).all (fun x => x.phase == .accepted || !(sameObject x m))

/-- Run a row's meaning on its started command, when it is its turn. -/
def withStarted (c : Chip) (id : CmdId) (op : Nat) (f : Cmd → Chip → Chip) : Chip :=
  match findCmd c id with
  | some m => if m.phase = .started ∧ m.opcode = op ∧ inTurn c m = true then f m c else c
  | none => c

/-- The descriptor that a relayed command stands for: it came by no ring here, so its records go nowhere (log entry 52). -/
def relayCmd (r : Relay) (op : Nat) : Cmd :=
  ⟨⟨16, r.seq⟩, 0, op, r.flags, 0, 0, 0, mkHandle r.part 3 r.tag r.gen r.seq, r.args, .started, 0, []⟩

def isRelay (m : Cmd) : Bool := m.id.part == 16

/-- Run a row's meaning on its started command, or on the relayed one. -/
def withVia (c : Chip) (v : Via) (op : Nat) (f : Cmd → Chip → Chip) : Chip :=
  match v with
  | .ring id => withStarted c id op f
  | .relay r => f (relayCmd r op) c

/-- A row of an opcode that flag bit 2 splits in two. -/
def withFlag (c : Chip) (v : Via) (op : Nat) (on : Bool) (f : Cmd → Chip → Chip) : Chip :=
  withVia c v op (fun m c => if bitOf m.flags 2 = on then f m c else c)

/-- What a relayed command brings from its lead. -/
def sentOf : Via → Option Relay
  | .ring _ => none
  | .relay r => some r

/-- The job of a job handle, if it names one (R296). -/
def jobOf (c : Chip) (h : Nat) : Option (Nat × Job) :=
  if hKind h = 3 then
    match tfind c.jobs (hIndex h) with
    | some j => if j.gen = hGen h ∧ j.seq = hSeq h then some (hIndex h, j) else none
    | none => none
  else none

/-- Whether this package leads a job. -/
def isLead (c : Chip) (j : Job) : Bool := j.place.lead == c.beacon.pkg

/-- The checks of a job target (R296, R308): it names a job, the fetching partition is the job's, and for a job-scope command this package is its lead. -/
def onJobTarget (m : Cmd) (c : Chip) (leadOnly : Bool) (f : Nat → Job → Chip → Chip) : Chip :=
  match jobOf c m.target with
  | none => final c m.id .invalidArg
  | some (t, j) =>
    if !(j.place.parts.contains m.id.part) then (if isRelay m && !(isLead c j) then f t j c else final c m.id .denied)
    else if leadOnly && !(isLead c j) then finalCmd c m.id .invalidArg 0 0 j.place.lead
    else f t j c

/-- The request entry of a request handle, if it still names one (R296). -/
def reqOf (c : Chip) (h : Nat) : Option (Nat × Req) :=
  if hKind h = 1 then
    match tfind c.reqs (hIndex h) with
    | some r => if r.st ≠ .free ∧ r.gen = hGen h ∧ r.seq = hSeq h then some (hIndex h, r) else none
    | none => none
  else none

/-- The job that has reserved the entry of a request handle, where another package leads it: a mirror cannot tell whether the request has ended (R265, R267, R308). -/
def ledElsewhere (c : Chip) (h : Nat) : Option Job :=
  (tfind c.reqs (hIndex h)).bind (fun r => (tfind c.jobs r.job).bind (fun j => if isLead c j then none else some j))

/-- The checks of a request target (R296, R308): an entry that does not match names an ended request. -/
def onReqTarget (m : Cmd) (c : Chip) (f : Nat → Req → Nat → Job → Chip → Chip) : Chip :=
  if hKind m.target ≠ 1 then final c m.id .invalidArg
  else match ledElsewhere c m.target, reqOf c m.target with
    | some j, _ => if !(j.place.parts.contains m.id.part) then final c m.id .denied else finalCmd c m.id .invalidArg 0 0 j.place.lead
    | none, none => final c m.id .alreadyDone
    | none, some (i, r) =>
      match tfind c.jobs r.job with
      | none => final c m.id .alreadyDone
      | some j => if !(j.place.parts.contains m.id.part) then final c m.id .denied else f i r r.job j c

end Sys2Proof.Machine
end

