-- ==== Sys2Proof/Machine/Tick.lean ====
section
/-! DEFINITION. The Beacon's edges: marks, the lighthouse and the standby (02_beacon.md R23-R31; 18_registers.md R418-R420; 13_ihlan.md R332). -/

namespace Sys2Proof.Machine

def onBeacon (c : Chip) (f : Beacon → Beacon) : Chip := { c with beacon := f c.beacon }

/-- A delay of a mark in cycles, to the nearest one (log entry 22). -/
def psCycles (d : Nat) : Nat := (d * 13 + 5000) / 10000

/-- Delay in ps that a mark gains: the domain hop and its ring crossings (R24). -/
def hopPs (crossings : Nat) : Nat := 310000 + crossings * 23077

/-- A phase carried forward by whole periods until the edge after it can still be announced L ahead (R30, R419). -/
def carryPhase (p : DueEdge) (now lead : Nat) : DueEdge :=
  if p.period = 0 ∨ now + lead ≤ p.at_ + p.period then p
  else
    let j := cdiv (now + lead - p.at_ - p.period) p.period
    { p with n := p.n + j, at_ := p.at_ + j * p.period }

/-- Become lighthouse (R30, R419): the epoch rises above every epoch seen, and the phase goes on at the base period that the last mark carried. -/
def becomeLighthouse (c : Chip) : Chip :=
  onBeacon c (fun b => { b with
    role := 1, epoch := (b.epoch + 1) % 2 ^ 16, origin := some b.pkg, locked := true, choice := none
    pending := if b.role = 1 then b.pending else none
    phase := b.phase.map (fun p => carryPhase p c.now b.lead) })

/-- Write of BEACON_ROLE (R419). -/
def roleWrite (c : Chip) (v : Nat) : Chip :=
  match v % 4 with
  | 0 => onBeacon c (fun b => { b with role := 0 })
  | 1 => let c1 := becomeLighthouse c; { c1 with boot := { c1.boot with halted := false } }
  | 2 => onBeacon c (fun b => { b with role := 2 })
  | _ => c

/-- A base period set on the lighthouse (R23, R419). -/
def setPeriod (c : Chip) (p : Nat) : Chip :=
  onBeacon c (fun b => { b with pending := some (p, match b.phase with | none => c.now | some x => c.now + x.period) })

/-- The next edge that the lighthouse originates: its number, its time, its base period (R23, R24, R419). -/
def nextEdge (b : Beacon) : Option DueEdge :=
  match b.phase, b.pending with
  | none, some (p, t) => some ⟨0, t + b.lead, p⟩
  | none, none => none
  | some x, some (p, t) =>
    let at_ := x.at_ + x.period
    some ⟨x.n + 1, at_, if t ≤ at_ then p else x.period⟩
  | some x, none => some ⟨x.n + 1, x.at_ + x.period, x.period⟩

/-- ORIGINATE_MARK (R24): at t(n) − L the lighthouse sends the mark of edge n and schedules its own edge. -/
def originateMark (c : Chip) : Chip :=
  if c.beacon.role ≠ 1 then c
  else match nextEdge c.beacon with
    | none => c
    | some e =>
      if c.now + c.beacon.lead < e.at_ then c
      else
        let used := match c.beacon.phase, c.beacon.pending with
          | none, _ => true
          | some _, some (_, t) => decide (t ≤ e.at_)
          | some _, none => false
        let c1 := onBeacon c (fun b => { b with
          phase := some e, period := e.period, seen := some e.n, due := b.due ++ [e], pending := if used then none else b.pending })
        sendBeacon c1 (.mark ⟨e.n, c.beacon.epoch, e.period, c.beacon.pkg, 0⟩)

/-- Report of LIGHTHOUSE_LOST (R29, R30): an event to every partition, and a record over the management port. -/
def lighthouseLost (c : Chip) : Chip :=
  let b := c.beacon
  let c1 := event c (assignedParts c) (plainEvent c 2 0 (leBytes 8 (b.seen.getD 0) ++ leBytes 2 b.epoch))
  let c2 := postFault c1 none ⟨faultNo .lighthouseLost, 3, engNone, 0, 0, noLw, 0, b.pkg, 0, b.tick, 0, noCore, 0, 0, 0⟩
  onBeacon c2 (fun b => { b with lostSaid := true })

/-- LIGHTHOUSE_LOST (R29): no edge fired within 1.5 base periods of the last one; said once for a loss. -/
def lighthouseWatch (c : Chip) : Chip :=
  match c.beacon.firedAt with
  | none => c
  | some t =>
    if c.beacon.lostSaid = false ∧ c.beacon.inForce ≠ 0 ∧ 2 * t + 3 * c.beacon.inForce ≤ 2 * c.now then lighthouseLost c else c

/-- Two edges missed: the due times of two consecutive edges passed by 100 ns (130 cycles) with no mark (R30). -/
def twoMissed (b : Beacon) (now : Nat) : Bool :=
  match b.phase with
  | none => false
  | some p => p.period != 0 && decide (p.at_ + 2 * p.period + 130 ≤ now)

/-- STANDBY_TAKEOVER (R30). -/
def standbyTakeover (c : Chip) : Chip :=
  if c.beacon.role = 2 ∧ twoMissed c.beacon c.now = true then becomeLighthouse c else c

/-- Whether a mark is of a source that prevails over the one followed so far: a higher epoch, or a lower origin at the same epoch (R24, R30). -/
def newSource (b : Beacon) (m : Mark) : Bool :=
  decide (b.epoch < m.epoch) || (b.epoch == m.epoch && (match b.origin with | none => true | some o => decide (m.origin < o)))

/-- Whether a mark is followed: of a source that prevails, or of the one followed so far with a number that is new (R24). -/
def markFollowed (b : Beacon) (m : Mark) : Bool :=
  newSource b m || (b.epoch == m.epoch && b.origin == some m.origin && (match b.seen with | none => true | some n => decide (n < m.n)))

/-- A further copy of the mark that chose the upstream: the port with the least delay wins, the lowest number on a tie (R332). -/
def betterChoice (b : Beacon) (m : Mark) (p d : Nat) : Bool :=
  match b.choice with
  | none => false
  | some x => x.1 == m.n && b.epoch == m.epoch && b.origin == some m.origin && (decide (d < x.2.2) || (d == x.2.2 && decide (p < x.2.1)))

/-- A mark goes on by every joined port (R24): each copy gains the hop and the ring crossings from the port it came by to the port it leaves by, which take their time too. -/
def forwardMark (c : Chip) (p : Nat) (m : Mark) : Chip :=
  (joinedPorts c).foldl (fun c n =>
    portBeacon c n everyPkg c.beacon.pkg (c.now + Config.ring * portHops p n) (.mark { m with delay := m.delay + hopPs (portHops p n) })) c

/-- EDGE_MARK (R24, R25, R30, R332): filtered, forwarded with the added delay, and used to schedule the edge. `crossings`: ring crossings from the port to where this package fires its edges. -/
def edgeMark (c : Chip) (p crossings : Nat) (m : Mark) : Chip :=
  let b := c.beacon
  let d := m.delay + hopPs crossings
  if (tget Port.reset c.ports p).joined = false then c
  else if betterChoice b m p d then onBeacon c (fun b => { b with choice := some (m.n, p, d) })
  else if markFollowed b m = false ∨ m.origin = b.pkg then c
  else
    let fresh := newSource b m
    let wasLight := b.role == 1
    let c0 := if wasLight then lighthouseLost (onBeacon c (fun b => { b with role := 0 })) else c
    if b.lead ≤ psCycles d then
      onBeacon c0 (fun b => { b with dropped := satAdd 8 b.dropped 1, epoch := m.epoch, origin := some m.origin })
    else
      let e : DueEdge := ⟨m.n, c.now + b.lead - psCycles d, m.period⟩
      let c1 := onBeacon c0 (fun b => { b with
        epoch := m.epoch, origin := some m.origin, lighthouse := m.origin, seen := some (max m.n (b.seen.getD 0)), period := m.period, phase := some e
        choice := if fresh || b.choice.isNone then some (m.n, p, d) else b.choice
        due := if b.locked then b.due ++ [e] else b.due })
      forwardMark { c1 with boot := { c1.boot with halted := c1.boot.halted && !fresh } } p m

/-- LOCKED (R332): the clocks are locked to the upstream port. -/
def setLocked (c : Chip) : Chip := if c.beacon.choice.isSome then onBeacon c (fun b => { b with locked := true }) else c

/-- The edge to fire now, if its time has come; each number is fired at most once (R24). -/
def edgeDue (c : Chip) : Option DueEdge :=
  c.beacon.due.find? (fun e => decide (e.at_ ≤ c.now) && (match c.beacon.firedAt with | none => true | some _ => decide (c.beacon.tick < e.n)))

/-- The domain edge fires: the tick number, the base period in force from it on, and the watch of R29 starts again. -/
def fireDomainEdge (c : Chip) (e : DueEdge) : Chip :=
  onBeacon c (fun b => { b with tick := e.n, firedAt := some c.now, inForce := e.period, lostSaid := false, due := b.due.filter (fun x => decide (e.n < x.n)) })

end Sys2Proof.Machine
end

