-- ==== Sys2Proof/Machine/Ports.lean ====
section
/-! DEFINITION. Ports going up and down, joining, and the ends of range pairs (13_ihlan.md R314, R331-R333, R440; 14_reproducibility.md R349). -/

namespace Sys2Proof.Machine

/-- A pair is no more (R349): its start, if not yet answered, and a drill-down that runs complete NOT_READY (log entry 24). -/
def pairEnds (c : Chip) (tag : Nat) (p : Pair) : Chip :=
  let c1 := if p.answered then c else final c p.cmd .notReady
  let c2 := match p.drill with
    | some d => final c1 d.1 .notReady
    | none => c1
  onJob c2 tag (fun j => { j with pair := none })

/-- A range pair ends with RANGE_LOST (R349): 0 job stopped, 1 port down, 2 lag over 256 ticks. -/
def rangeLost (c : Chip) (tag cause : Nat) : Chip :=
  match tfind c.jobs tag with
  | none => c
  | some j =>
    match j.pair with
    | none => c
    | some p =>
      let c1 := pairEnds c tag p
      if p.formed then jobEvent c1 tag j.ticks.committed 5 0 (leBytes 4 cause) else c1

/-- A port goes down (R333, R440): it holds no further frames, and its frames in flight are lost. -/
def portDown (c : Chip) (n : Nat) : Chip :=
  let c1 := onPort c n (fun p => { p with st := .down, cause := 0, joined := false, hold := [], again := [], relay := [], relayAgain := [], swapTx := none, swapRx := none, waiting := [], shift := 0 })
  each (c1.jobs.map Prod.fst) c1 (fun c t =>
    match tfind c.jobs t with
    | some j => if j.pair.any (fun p => p.port == n) then rangeLost c t 1 else c
    | none => c)

/-- A port begins training (R331, R423, R440): enabled, with media it trains on, at the width that LINK_CFG asks for. -/
def startTraining (e : Env) (c : Chip) (n : Nat) : Chip :=
  let p := port e c n
  if p.enable && p.st != .absent && decide (p.media < 2) then onPort c n (fun p => { p with st := .training, cause := 0, trainAt := c.now, width := p.cfgWidth }) else c

/-- The join message of a port (R321, R331). -/
def sendJoin (c : Chip) (n : Nat) : Chip :=
  portBeacon c n everyPkg c.beacon.pkg c.now (.join ⟨c.beacon.domain.toNat, c.beacon.pkg, n, c.beacon.epoch, c.beacon.role, (tget Port.reset c.ports n).width⟩)

/-- Ports that exist on this part. -/
def portsHere (e : Env) : List Nat := List.range (if e.fuses.gradeC then 12 else 16)

/-- Every UP port exchanges join messages again (R418). -/
def rejoin (e : Env) (c : Chip) : Chip :=
  each ((portsHere e).filter (fun n => (port e c n).st == .up)) c (fun c n => sendJoin (onPort c n (fun p => { p with joined := false })) n)

/-- Whether a loaded program holds a port, and which (R326). -/
def portHolder (c : Chip) (n : Nat) : Option Nat :=
  (c.jobs.find? (fun p => p.2.st != .loading && p.2.place.links.any (fun l => l.port == n))).map Prod.fst

/-- Ports of a wave (R400). -/
def wavePorts (e : Env) (w : Nat) : List Nat := (portsHere e).filter (fun n => n % 4 == w)

/-- Every enabled port of a wave that began is UP or FAILED (R401, R403). -/
def waveDone (e : Env) (c : Chip) (w : Nat) : Bool :=
  c.boot.waving.getLsbD w && (wavePorts e w).all (fun n => let p := port e c n; !p.enable || p.st == .up || p.st == .failed)

/-- Every wave is done and every UP port has joined (R401). -/
def allJoined (e : Env) (c : Chip) : Bool :=
  [0, 1, 2, 3].all (waveDone e c) && (portsHere e).all (fun n => let p := port e c n; p.st != .up || p.joined)

end Sys2Proof.Machine
end

