-- ==== Sys2Proof/Machine/Registers.lean ====
section
/-! DEFINITION. The set-up registers, the status window and host accesses (18_registers.md; 12_host.md R305, R306; 16_tenancy.md R369-R371). -/

namespace Sys2Proof.Machine

/-- The set-up registers (R412). -/
inductive Reg where
  | idDevice | idListed | idFirmware | idSerial | fuseArb | fuseKey (k : Nat) | bootStage | bootCtl
  | partCfg (n : Nat) | partTenant (n : Nat) | partCatalog (n : Nat) | partKey (n k : Nat) | partAper (w : Nat)
  | ringCtl (p i : Nat) | ringBase (p i : Nat) | ringIrq (p i : Nat)
  | beaconDomain | beaconPkg | beaconRole | beaconLead | beaconPeriod | beaconStatus | lampCfg | lampStat (s : Nat)
  | unmapped | ceReads | denied | cntClear | injCtl | injSel | injLo | injHi | scrubCfg | scrubStatus | reserveShort | fogCtl
  | linkCfg (n : Nat) | linkStatus (n : Nat) | linkErr (n : Nat) | mergeCfg (n : Nat) | logSeq | logSel | i3c | logData (k : Nat)
  deriving DecidableEq, Repr

/-- A row of the register map (R412): first offset, distance, count, bytes, and the register of an index. -/
structure RegRow where
  base : Nat
  stride : Nat
  count : Nat
  width : Nat
  reg : Nat → Reg

def regRowsA : List RegRow :=
  [⟨0x00000, 4, 1, 4, fun _ => .idDevice⟩, ⟨0x00004, 4, 1, 4, fun _ => .idListed⟩, ⟨0x00008, 4, 1, 4, fun _ => .idFirmware⟩,
   ⟨0x00010, 8, 1, 8, fun _ => .idSerial⟩, ⟨0x01000, 4, 1, 4, fun _ => .fuseArb⟩, ⟨0x01040, 4, 12, 4, .fuseKey⟩,
   ⟨0x02000, 4, 1, 4, fun _ => .bootStage⟩, ⟨0x02004, 4, 1, 4, fun _ => .bootCtl⟩, ⟨0x10000, 4, 16, 4, .partCfg⟩,
   ⟨0x10040, 4, 16, 4, .partTenant⟩, ⟨0x10080, 8, 16, 8, .partCatalog⟩, ⟨0x10100, 4, 384, 4, fun x => .partKey (x / 24) (x % 24)⟩,
   ⟨0x11000, 8, 448, 8, .partAper⟩]

def regRowsB : List RegRow :=
  [⟨0x30000, 4, 1, 4, fun _ => .beaconDomain⟩, ⟨0x30004, 4, 1, 4, fun _ => .beaconPkg⟩, ⟨0x30008, 4, 1, 4, fun _ => .beaconRole⟩,
   ⟨0x3000C, 4, 1, 4, fun _ => .beaconLead⟩, ⟨0x30010, 4, 1, 4, fun _ => .beaconPeriod⟩, ⟨0x30014, 4, 1, 4, fun _ => .beaconStatus⟩,
   ⟨0x31000, 4, 1, 4, fun _ => .lampCfg⟩, ⟨0x31010, 4, 4, 4, .lampStat⟩, ⟨0x32000, 4, 1, 4, fun _ => .unmapped⟩,
   ⟨0x32004, 4, 1, 4, fun _ => .ceReads⟩, ⟨0x32008, 4, 1, 4, fun _ => .denied⟩, ⟨0x3200C, 4, 1, 4, fun _ => .cntClear⟩]

def regRowsC : List RegRow :=
  [⟨0x32010, 4, 1, 4, fun _ => .injCtl⟩, ⟨0x32014, 4, 1, 4, fun _ => .injSel⟩, ⟨0x32018, 4, 1, 4, fun _ => .injLo⟩,
   ⟨0x3201C, 4, 1, 4, fun _ => .injHi⟩, ⟨0x33000, 4, 1, 4, fun _ => .scrubCfg⟩, ⟨0x33004, 4, 1, 4, fun _ => .scrubStatus⟩,
   ⟨0x33008, 4, 1, 4, fun _ => .reserveShort⟩, ⟨0x34000, 4, 1, 4, fun _ => .fogCtl⟩, ⟨0x35000, 16, 16, 4, .linkCfg⟩,
   ⟨0x35004, 16, 16, 4, .linkStatus⟩, ⟨0x35008, 16, 16, 4, .linkErr⟩, ⟨0x36000, 4, 16, 4, .mergeCfg⟩, ⟨0x37000, 4, 1, 4, fun _ => .logSeq⟩,
   ⟨0x37004, 4, 1, 4, fun _ => .logSel⟩, ⟨0x37008, 4, 1, 4, fun _ => .i3c⟩, ⟨0x37040, 4, 16, 4, .logData⟩]

/-- The register of a row that an offset lies in, with its own offset and its bytes. -/
def rowAt (off : Nat) (r : RegRow) : Option (Reg × Nat × Nat) :=
  if r.base ≤ off ∧ off < r.base + r.stride * r.count then
    let i := (off - r.base) / r.stride
    if off < r.base + r.stride * i + r.width then some (r.reg i, r.base + r.stride * i, r.width) else none
  else none

/-- A ring register (R412, R416). -/
def ringRegAt (off : Nat) : Option (Reg × Nat × Nat) :=
  if 0x20000 ≤ off ∧ off < 0x30000 then
    let p := (off - 0x20000) / 0x1000
    let o := off % 0x1000
    let i := o / 16
    if i < 130 then
      match o % 16 / 4 with
      | 0 => some (Reg.ringCtl p i, off / 4 * 4, 4)
      | 1 => some (Reg.ringBase p i, off / 4 * 4, 4)
      | 2 => some (Reg.ringIrq p i, off / 4 * 4, 4)
      | _ => none
    else none
  else none

/-- The register that occupies an offset, with its own offset and its bytes (R412). -/
def regAt (off : Nat) : Option (Reg × Nat × Nat) :=
  match ringRegAt off with
  | some r => some r
  | none => (regRowsA ++ regRowsB ++ regRowsC).findSome? (rowAt off)

/-- Writer classes (R407). -/
inductive Writers where
  | m | h | b | ro
  deriving DecidableEq, Repr

def regWriters : Reg → Writers
  | .idDevice | .idListed | .idFirmware | .idSerial | .fuseArb | .fuseKey _ | .bootStage => .ro
  | .bootCtl => .b
  | .ringCtl _ _ | .ringBase _ _ | .ringIrq _ _ | .mergeCfg _ => .h
  | .beaconPeriod | .beaconStatus | .lampStat _ | .unmapped | .ceReads | .denied | .reserveShort | .linkStatus _ | .linkErr _
  | .logSeq | .logData _ => .ro
  | _ => .m

def mayWrite (w : Writers) (x : Src) : Bool :=
  match w, x with
  | .m, .m => true | .m, .i3c => true | .h, .m => true | .h, .s => true | .b, _ => true | _, _ => false

/-- The four listed settings (R5, R6, R305): profile and numerics class follow from the stepping; N1 is class 1. -/
def listed (e : Env) : Nat := b2n e.fuses.gradeC + b2n e.fuses.steppingB * 16 + (if e.fuses.steppingB then 2 else 1) * 256 + 1 * 4096

def firmware (c : Chip) : Nat := if c.boot.accepted then c.boot.version else 0

/-- BOOT_STAGE (R403). -/
def bootStage (e : Env) (c : Chip) : Nat :=
  (if c.boot.failed then 0xFF else c.boot.code) + c.boot.stacksUp.toNat * 2 ^ 8 + c.boot.stacksFailed.toNat * 2 ^ 12 +
    ([0, 1, 2, 3].map (fun w => b2n (waveDone e c w) * 2 ^ w)).sum * 2 ^ 16 + b2n c.boot.pcieUp * 2 ^ 20 + b2n (allJoined e c) * 2 ^ 21 +
    c.boot.failCause * 2 ^ 24

/-- PART_CFG_n as it reads (R369). -/
def partCfgRead (p : Part) : Nat :=
  p.bands.toNat * 2 ^ 16 + b2n (p.state != 0) * 2 ^ 15 + b2n p.operator * 2 ^ 14 + b2n p.signedOnly * 2 ^ 13 + b2n p.keyValid * 2 ^ 12 +
    b2n p.err * 2 ^ 8 + p.state * 2 ^ 4

def lampCode : Lamp → Nat
  | .lit => 0 | .dim => 1 | .shade => 2 | .dark => 3

def portCode : PortSt → Nat
  | .absent => 0 | .down => 1 | .training => 2 | .up => 3 | .failed => 4

/-- Fog settings in force (R422). -/
def fogActive (c : Chip) : Bool := c.ports.any (fun p => p.2.fogTx.action != 0 || p.2.fogRx.action != 0)

/-- Bytes 4k to 4k+3 of a list, byte 4k in [7:0]. -/
def wordAt (bs : List Byte) (k : Nat) : Nat := field bs (4 * k) 4

/-- Value of a register as a read returns it (R412 and the tables it names). -/
def regValue (e : Env) (c : Chip) : Reg → Nat
  | .idDevice => 0x4E5A0040
  | .idListed => listed e
  | .idFirmware => firmware c
  | .idSerial => e.fuses.serial.toNat
  | .fuseArb => b2n c.boot.udsLocked * 2 ^ 7 + c.boot.arb
  | .fuseKey k => wordAt (digestBytes e.fuses.keyDigest) k
  | .bootStage => bootStage e c
  | .bootCtl => 0
  | .partCfg n => partCfgRead (part c n)
  | .partTenant n => (part c n).tenant.toNat
  | .partCatalog n => (part c n).catalog.toNat
  | .partKey n k => wordAt (beBytes 96 (part c n).key.toNat) k
  | .partAper w => (tget 0#64 c.aper w).toNat
  | .ringCtl p i =>
    let r := ring c (ringKey p i)
    b2n r.enable * 2 ^ 31 + b2n r.err * 2 ^ 30 + kindOf i * 2 ^ 27 + r.log2 * 2 ^ 22 + b2n r.msix * 2 ^ 21 + r.hart * 2 ^ 17
  | .ringBase p i => (ring c (ringKey p i)).base
  | .ringIrq p i => let r := ring c (ringKey p i); r.irqId * 2 ^ 16 + r.coalCount * 2 ^ 8 + r.coalTime
  | .beaconDomain => c.beacon.domain.toNat
  | .beaconPkg => c.beacon.pkg
  | .beaconRole => c.beacon.role
  | .beaconLead => c.beacon.lead
  | .beaconPeriod => c.beacon.period
  | .beaconStatus =>
    c.beacon.dropped * 2 ^ 24 + (match c.beacon.choice with | some x => x.2.1 | none => 0) * 2 ^ 20 +
      b2n (c.beacon.locked || c.beacon.role == 1) * 2 ^ 19 + c.beacon.epoch
  | .lampCfg => c.maxCap
  | .lampStat s => (lamp c s).late * 2 ^ 24 + (lamp c s).deep % 2 ^ 24
  | .unmapped => c.safe.unmapped
  | .ceReads => c.safe.ceReads
  | .denied => c.safe.denied
  | .cntClear => 0
  | .injCtl => c.safe.injCtl.toNat
  | .injSel => c.safe.injSel.toNat
  | .injLo => c.safe.injLo.toNat
  | .injHi => c.safe.injHi.toNat
  | .scrubCfg => c.safe.scrubCfg.toNat
  | .scrubStatus => b2n c.safe.storeLate * 2 ^ 31 + b2n c.safe.nearLate * 2 ^ 30 + c.safe.ceCount
  | .reserveShort => c.safe.short
  | .fogCtl => b2n (fogActive c) * 2 + b2n c.boot.test
  | .linkCfg n =>
    let p := port e c n
    if p.st = .absent then 0
    else b2n p.enable * 2 ^ 31 + b2n p.cfgWidth * 2 ^ 30 + p.media * 2 ^ 28 + p.part * 2 ^ 24 + b2n p.partEn * 2 ^ 23
  | .linkStatus n =>
    let p := port e c n
    portCode p.st * 2 ^ 29 + b2n p.laneRev * 2 ^ 28 + p.polarity * 2 ^ 24 + p.nbrPkg * 2 ^ 12 + p.nbrPort * 2 ^ 8 +
      b2n (portHolder c n).isSome * 2 ^ 7 + p.cause * 2 ^ 4
  | .linkErr n => let p := port e c n; p.unc * 2 ^ 24 + p.crc * 2 ^ 16 + p.resent * 2 ^ 8 + p.droppedF
  | .mergeCfg n => (part c n).merge.toNat
  | .logSeq => c.safe.eventSeq * 2 ^ 16 + c.safe.faultSeq
  | .logSel => c.safe.logSel.toNat
  | .i3c => c.mgmt.dynAddr * 2 ^ 16 + b2n c.mgmt.ibiEn * 2 ^ 8 + c.mgmt.staticAddr
  | .logData k => wordAt c.safe.latch k

/-- Read by a host-die hart or the I3C port: before READY only the ID and BOOT blocks answer normally (R404). -/
def regRead (e : Env) (c : Chip) (off size : Nat) : Nat :=
  match regAt off with
  | none => 0
  | some (r, base, w) =>
    if (size = w ∧ off = base) ∨ (w = 8 ∧ size = 4 ∧ off % 4 = 0) then
      let early := !c.boot.ready && !(decide (off < 0x1000) || (decide (0x2000 ≤ off) && decide (off < 0x3000)))
      let v := if early then (if w = 8 then 0x1500000015 else 0x15) else regValue e c r
      v / 2 ^ (8 * (off - base)) % 2 ^ (8 * size)
    else 0

def countUnmapped (c : Chip) : Chip := { c with safe := { c.safe with unmapped := satAdd 32 c.safe.unmapped 1 } }
def countDenied (c : Chip) : Chip := { c with safe := { c.safe with denied := satAdd 32 c.safe.denied 1 } }

/-- Whether a read is one that R406 counts. -/
def readCounted (off size : Nat) : Bool :=
  match regAt off with
  | none => true
  | some (_, base, w) => !((size == w && off == base) || (w == 8 && size == 4 && off % 4 == 0))

/-! Partitions. -/

/-- Whether a program is loaded or loading on bands of a partition. -/
def programOn (c : Chip) (n : Nat) : Bool := c.jobs.any (fun p => p.2.place.parts.contains n)

/-- Assign partition `n` (R369): refused with ERR, or state 1, rings disabled, handle sequence 1. -/
def assignPart (c : Chip) (n : Nat) : Chip :=
  let p := part c n
  let taken := (List.range 16).any (fun m => m != n && (part c m).state != 0 && (part c m).bands &&& p.bands != 0)
  if p.bands = 0 ∨ taken = true ∨ p.tenant = 0 then onPart c n (fun p => { p with err := true })
  else
    let c1 := onPart c n (fun p => { p with state := 1, err := false, seq := 1 })
    { c1 with rings := c1.rings.map (fun r => if r.1 / 256 = n then (r.1, { r.2 with enable := false }) else r) }

/-- One write of PART_CFG_n (R369, R415). -/
def writePartCfg (c : Chip) (n v : Nat) : Chip :=
  let p := part c n
  let c1 := if p.state = 0 then onPart c n (fun p => { p with bands := BitVec.ofNat 16 (bitsOf v 31 16), operator := bitOf v 14 }) else c
  let want := bitOf v 15
  let c2 :=
    if want == (p.state != 0) then c1
    else if want then assignPart c1 n
    else if p.state = 1 ∧ programOn c1 n = false then onPart c1 n (fun p => { p with state := 0 })
    else onPart c1 n (fun p => { p with err := true })
  let c3 := onPart c2 n (fun p => { p with signedOnly := bitOf v 13 })
  let q := part c3 n
  if bitOf v 12 == q.keyValid then c3
  else if bitOf v 12 then
    (if q.state = 1 ∧ ecOn (beNat ((beBytes 96 q.key.toNat).take 48)) (beNat ((beBytes 96 q.key.toNat).drop 48)) = true
     then onPart c3 n (fun p => { p with keyValid := true }) else onPart c3 n (fun p => { p with err := true }))
  else if q.state = 1 then onPart c3 n (fun p => { p with keyValid := false })
  else c3

/-- Write of PART_CATALOG_n (R413). -/
def writeCatalog (c : Chip) (n v : Nat) : Chip :=
  let v := v / 32 * 32
  let count := bitsOf v 63 40
  if (part c n).state = 1 ∧ (count = 0 ∨ tierOk c [n] (bitsOf v 39 5 * 32) (32 * count) = true) then
    onPart c n (fun p => { p with catalog := BitVec.ofNat 64 v })
  else countDenied c

/-- Whether `n` bytes at an address touch aperture window `w`. -/
def inAperWindow (w a n : Nat) : Bool :=
  let lo := Config.aperture + w * Config.apertureWindow
  n != 0 && decide (a < lo + Config.apertureWindow) && decide (lo < a + n)

/-- Whether an enabled ring, the catalogue, or a command or transfer in progress of a partition uses an aperture window (R414): beside commands a capture, a fill on demand by the image's header, and moves to the host tier. -/
def windowUsed (c : Chip) (w n : Nat) : Bool :=
  c.rings.any (fun r => r.1 / 256 == n && r.2.enable && inAperWindow w (ringAddr r.2) (ringSize r.2 * recSize (kindOf (r.1 % 256)))) ||
    (let v := (part c n).catalog.toNat; inAperWindow w (bitsOf v 39 5 * 32) (32 * bitsOf v 63 40)) ||
    c.cmds.any (fun m => m.id.part == n && (cmdExtents m).any (fun a => inAperWindow w a.1 (max 1 a.2))) ||
    c.jobs.any (fun j => (j.2.captureRun.isSome && j.2.capture.any (fun b => inAperWindow w b.addr b.len)) ||
      j.2.wts.drawers.any (fun d => d.2.st == .filling && d.2.by_ == .demand && inAperWindow w d.2.image 256)) ||
    c.cores.any (fun k => k.2.moves.any (fun m => m.dst.any (fun x => inAperWindow w x.1 x.2.length)))

/-- Write of PART_APER_w (R414). -/
def writeAper (c : Chip) (w v : Nat) : Chip :=
  let old := (tget 0#64 c.aper w).toNat
  let v := v / 2 ^ 30 * 2 ^ 30 + v % 32
  if bitOf old 4 then
    if bitOf v 4 then (if v = old then c else countDenied c)
    else if windowUsed c w (old % 16) then countDenied c
    else { c with aper := tset c.aper w (BitVec.ofNat 64 (old - 16)) }
  else if bitOf v 4 && (part c (v % 16)).state != 1 then countDenied c
  else { c with aper := tset c.aper w (BitVec.ofNat 64 v) }

/-- Write of RING_CTL_p_i (R416, R417). -/
def writeRingCtl (c : Chip) (p i v : Nat) : Chip :=
  let k := ringKey p i
  let r := ring c k
  let refuse := fun (c : Chip) => onRing c k (fun r => { r with err := true })
  if r.enable then
    if bitOf v 31 then onRing c k (fun r => { r with err := false })
    else if (32 ≤ i ∧ i < 64 ∧ pendingOn c p (i - 32) ≠ 0) ∨
        (64 ≤ i ∧ i < 128 ∧ c.reqs.any (fun q => q.2.st != .free && q.2.part == p && q.2.tokenRing == i - 64) = true) then refuse c
    else onRing c k (fun r => { r with enable := false, err := false })
  else
    let l := bitsOf v 26 22
    let r' : Ring := { r with log2 := l, msix := bitOf v 21, hart := bitsOf v 20 17 }
    if bitOf v 31 then
      if (part c p).state = 1 ∧ 4 ≤ l ∧ l ≤ 16 ∧ tierOk c [p] (ringAddr r) (2 ^ l * recSize (kindOf i)) = true then
        onRing c k (fun _ => { r' with enable := true, err := false, prod := 0, cons := 0, fetch := 0, armed := decide (32 ≤ i), pend := [] })
      else refuse c
    else onRing c k (fun _ => { r' with err := false })

/-! Other writes with rules of their own. -/

/-- Leave test state (R422): fog off, injections disarmed. -/
def leaveTest (c : Chip) : Chip :=
  { c with
    boot := { c.boot with test := false }
    ports := c.ports.map (fun p => (p.1, { p.2 with fogTx := Fog.off, fogRx := Fog.off }))
    safe := { c.safe with injCtl := c.safe.injCtl &&& 0x7FFFFFFF#32 } }

/-- Write of FOG_CTL (R422). -/
def writeFogCtl (c : Chip) (v : Nat) : Chip :=
  if bitOf v 0 then (if deviceState c = 1 then { c with boot := { c.boot with test := true } } else c)
  else if c.boot.test then leaveTest c else c

/-- Write of SAFE_INJECT_CTL (R367): ARM outside test state is ignored; FIRED is cleared by a 1. -/
def writeInject (c : Chip) (v : Nat) : Chip :=
  let old := c.safe.injCtl.toNat
  let arm := if c.boot.test then bitOf v 31 else bitOf old 31
  let fired := bitOf old 30 && !(bitOf v 30)
  { c with safe := { c.safe with injCtl := BitVec.ofNat 32 (b2n arm * 2 ^ 31 + b2n fired * 2 ^ 30 + v % 2 ^ 30) } }

/-- Write of SAFE_CNT_CLEAR (R421). -/
def writeCntClear (c : Chip) (v : Nat) : Chip :=
  { c with safe := { c.safe with
      unmapped := if bitOf v 0 then 0 else c.safe.unmapped
      ceReads := if bitOf v 1 then 0 else c.safe.ceReads
      denied := if bitOf v 2 then 0 else c.safe.denied } }

/-- Write of LINK_CFG_n (R333, R423): retraining takes the port down first. -/
def writeLink (e : Env) (c : Chip) (n v : Nat) : Chip :=
  let p := port e c n
  if p.st = .absent then c
  else
    let en := bitOf v 31
    let c1 := onPort c n (fun p => { p with enable := en, cfgWidth := bitOf v 30, media := bitsOf v 29 28, part := bitsOf v 27 24, partEn := bitOf v 23 })
    let c2 := if bitOf v 1 then onPort c1 n (fun p => { p with unc := 0, crc := 0, resent := 0, droppedF := 0 }) else c1
    if !en then (if p.enable then portDown c2 n else c2)
    else if bitOf v 0 then startTraining e (portDown c2 n) n
    else if !p.enable then startTraining e c2 n
    else c2

/-- Write of MGMT_LOG_SEL (R424). -/
def writeLogSel (c : Chip) (v : Nat) : Chip :=
  let l := if bitOf v 31 then c.safe.events else c.safe.faults
  match l.find? (fun x => x.seq == v % 2 ^ 16) with
  | some x => { c with safe := { c.safe with logSel := BitVec.ofNat 32 (b2n (bitOf v 31) * 2 ^ 31 + v % 2 ^ 16), latch := x.bytes } }
  | none => { c with safe := { c.safe with logSel := BitVec.ofNat 32 (b2n (bitOf v 31) * 2 ^ 31 + 2 ^ 30 + v % 2 ^ 16), latch := [] } }

/-- Write of BOOT_CTL (R383): RECOVERY_GO, ignored unless the ROM waits. -/
def writeBootCtl (c : Chip) (v : Nat) : Chip :=
  if bitOf v 0 && c.boot.recovering && c.boot.code == 3 then { c with boot := { c.boot with code := 4 } } else c

/-- A job with bands here is running (R305). -/
def jobRunning (j : Job) : Bool := j.st == .running || j.st == .stopping

/-- The effect of a whole write to a register (R409, R412). -/
def regPut (e : Env) (c : Chip) (r : Reg) (v : Nat) : Chip :=
  match r with
  | .bootCtl => writeBootCtl c v
  | .partCfg n => writePartCfg c n v
  | .partTenant n => if (part c n).state = 0 then onPart c n (fun p => { p with tenant := BitVec.ofNat 32 v }) else c
  | .partCatalog n => writeCatalog c n v
  | .partKey n k =>
    if (part c n).keyValid then c
    else
      let bs := beBytes 96 (part c n).key.toNat
      onPart c n (fun p => { p with key := BitVec.ofNat 768 (beNat (bs.take (4 * k) ++ leBytes 4 v ++ bs.drop (4 * k + 4))) })
  | .partAper w => writeAper c w v
  | .ringCtl p i => writeRingCtl c p i v
  | .ringBase p i => if (ring c (ringKey p i)).enable then c else onRing c (ringKey p i) (fun r => { r with base := v % 2 ^ 28 })
  | .ringIrq p i =>
    if (ring c (ringKey p i)).enable then c
    else onRing c (ringKey p i) (fun r => { r with irqId := bitsOf v 31 16, coalCount := bitsOf v 15 8, coalTime := bitsOf v 7 0 })
  | .beaconDomain => if c.jobs = [] then rejoin e (onBeacon c (fun b => { b with domain := BitVec.ofNat 32 v })) else c
  | .beaconPkg => if c.jobs = [] then rejoin e (onBeacon c (fun b => { b with pkg := v % 2 ^ 12 })) else c
  | .beaconRole => roleWrite c v
  | .beaconLead =>
    if c.jobs.any (fun p => jobRunning p.2) ∨ v % 2 ^ 14 < 2600 ∨ 13000 < v % 2 ^ 14 then c else onBeacon c (fun b => { b with lead := v % 2 ^ 14 })
  | .lampCfg =>
    let c1 := { c with maxCap := v % 4 }
    if bitOf v 2 then { c1 with lamps := c1.lamps.map (fun l => (l.1, { l.2 with late := 0, deep := 0, deepRem := 0 })) } else c1
  | .cntClear => writeCntClear c v
  | .injCtl => writeInject c v
  | .injSel => { c with safe := { c.safe with injSel := BitVec.ofNat 32 v } }
  | .injLo => { c with safe := { c.safe with injLo := BitVec.ofNat 32 v } }
  | .injHi => { c with safe := { c.safe with injHi := BitVec.ofNat 32 (v % 256) } }
  | .scrubCfg => { c with safe := { c.safe with scrubCfg := BitVec.ofNat 32 (bitsOf v 23 8 * 256) } }
  | .scrubStatus => { c with safe := { c.safe with storeLate := c.safe.storeLate && !(bitOf v 31), nearLate := c.safe.nearLate && !(bitOf v 30) } }
  | .fogCtl => writeFogCtl c v
  | .linkCfg n => writeLink e c n v
  | .mergeCfg n => onPart c n (fun p => { p with merge := BitVec.ofNat 32 v &&& 0x00F8F0F1#32 })
  | .logSel => writeLogSel c v
  | .i3c => { c with mgmt := { c.mgmt with ibiEn := bitOf v 8, staticAddr := v % 128 } }
  | _ => c

/-- Key of the held low half of a register for a source (R408). -/
def halfKey (x : Src) (base : Nat) : Nat :=
  (match x with | .m => 0 | .s => 1 | .u => 2 | .i3c => 3 | .server => 4) * 2 ^ 20 + base

/-- A write to the set-up region (R404, R406-R409). -/
def regWrite (e : Env) (c : Chip) (x : Src) (off size v : Nat) : Chip :=
  match regAt off with
  | none => countUnmapped c
  | some (r, base, w) =>
    if mayWrite (regWriters r) x = false ∨ (c.boot.ready = false ∧ r ≠ .bootCtl) then countUnmapped c
    else if size = w ∧ off = base then regPut e c r (v % 2 ^ (8 * w))
    else if w = 8 ∧ size = 4 ∧ off = base then { c with halves := tset c.halves (halfKey x base) (v % 2 ^ 32) }
    else if w = 8 ∧ size = 4 ∧ off = base + 4 then
      let low := (tfind c.halves (halfKey x base)).getD (regValue e c r % 2 ^ 32)
      regPut e { c with halves := tdel c.halves (halfKey x base) } r (v % 2 ^ 32 * 2 ^ 32 + low)
    else countUnmapped c

/-! The status window. -/

def jobStCode : JobSt → Nat
  | .loading => 1 | .loaded => 2 | .running => 3 | .stopping => 4 | .stopped => 5 | .killed => 6 | .halted => 7

def modeBits (j : Job) : Nat := b2n j.args.strict + 2 * b2n j.args.elasticLen + 4 * b2n j.args.balancing

/-- Requests of a job that are not FREE. -/
def activeOf (c : Chip) (tag : Nat) : Nat := (c.reqs.filter (fun r => r.2.st != .free && r.2.job == tag)).length

/-- The 32 bytes of a job slot (R305). -/
def jobSlotBytes (c : Chip) (tag : Nat) (j : Job) : List Byte :=
  leBytes 2 tag ++ leBytes 1 (jobStCode j.st) ++ leBytes 1 (modeBits j) ++ leBytes 4 0 ++ leBytes 8 j.ticks.committed ++
    leBytes 2 (activeOf c tag) ++ leBytes 2 0 ++ leBytes 4 j.cnt.stretch ++ leBytes 4 j.cnt.replays ++ leBytes 4 j.cnt.misses

/-- The job in slot `k` of partition `p`. -/
def jobAtSlot (c : Chip) (p k : Nat) : Option (Nat × Job) := c.jobs.find? (fun x => tfind x.2.slotNo p == some k)

/-- The 4 bytes at an aligned offset of the status window (R305, R306). -/
def statusWord (e : Env) (c : Chip) (off : Nat) : Nat :=
  if off < 0x1000 then
    match off with
    | 0x00 => deviceState c
    | 0x04 => bootStage e c
    | 0x08 => c.beacon.tick % 2 ^ 32
    | 0x0C => c.beacon.tick / 2 ^ 32 % 2 ^ 32
    | 0x10 => listed e
    | 0x14 => firmware c
    | 0x18 => c.beacon.pkg + c.beacon.epoch * 2 ^ 16
    | 0x1C => c.beacon.role
    | 0x20 => ([0, 1, 2, 3].map (fun s => lampCode (lamp c s).st * 4 ^ s)).sum
    | _ => 0
  else if !c.boot.ready || decide (0x9000 ≤ off) then 0
  else
    let p := (off - 0x1000) / 0x800
    let o := (off - 0x1000) % 0x800
    let prod := fun (i : Nat) => (ring c (ringKey p i)).prod
    if o < 0x080 then (ring c (ringKey p (o / 4))).fetch
    else if o < 0x100 then prod (32 + (o - 0x80) / 4)
    else if o < 0x200 then prod (64 + (o - 0x100) / 4)
    else if o = 0x200 then prod 128
    else if o = 0x204 then prod 129
    else if o = 0x208 then (part c p).eventsLost
    else if o = 0x20C then (part c p).faultsLost
    else if o = 0x210 then (part c p).state
    else if 0x400 ≤ o ∧ o < 0x600 then
      match jobAtSlot c p ((o - 0x400) / 32) with
      | some (t, j) => field (jobSlotBytes c t j) (o % 32) 4
      | none => 0
    else 0

/-- A read of the status window (R306): 4 or 8 bytes, naturally aligned; anything else reads zero. -/
def statusRead (e : Env) (c : Chip) (off size : Nat) : Nat :=
  if size = 4 ∧ off % 4 = 0 then statusWord e c off
  else if size = 8 ∧ off % 8 = 0 then statusWord e c off + statusWord e c (off + 4) * 2 ^ 32
  else 0

/-! Host accesses. -/

/-- The I3C port answers from 5 ms after power-good (R6, R404, R436). -/
def i3cAwake (c : Chip) : Bool := c.boot.pwrgood && decide (c.boot.riseAt + 5 * Config.ms ≤ c.now)

/-- The status window answers from 2 ms after power-good (R398). -/
def statusAwake (c : Chip) : Bool := c.boot.pwrgood && decide (c.boot.riseAt + 2 * Config.ms ≤ c.now)

/-- Declared ranges of programs on bands of a partition in state 1, outside clearing (R371, R374, R378). -/
def hostMayTouch (c : Chip) (a : Nat) : Bool :=
  c.jobs.any (fun p => p.2.st != .loading && !p.2.clearing && inRanges p.2 a && (match bandPart c (if inStore a then a / 2 ^ 24 / 64 else (a - Config.nearBase) / 2 ^ 21 / 64) with
    | some n => (part c n).state == 1 && p.2.place.parts.contains n
    | none => false))

/-- A read answered to its source. -/
def answer (c : Chip) (a size v : Nat) : Chip := emit c (.hostRead a size (BitVec.ofNat 64 v))

/-- A host access (R6, R60, R288, R293, R306, R371, R404, R411): the server reaches only what its BARs map, over its link; the I3C port only the registers, once it answers; the status window answers from 2 ms. -/
def hostAccess (e : Env) (c : Chip) (x : Src) (a size : Nat) (w : Option Dword) : Chip :=
  let inWin := fun (lo n : Nat) => decide (lo ≤ a) && decide (a < lo + n)
  if (x = .i3c ∧ i3cAwake c = false) ∨ (x = .server ∧ c.boot.pcieUp = false) then c
  else if inWin Config.setupBase Config.setupSize then
    if x = .server then c
    else match w with
      | some v => regWrite e c x (a - Config.setupBase) size v.toNat
      | none =>
        let c1 := if readCounted (a - Config.setupBase) size then countUnmapped c else c
        answer c1 a size (regRead e c (a - Config.setupBase) size)
  else if x = .i3c then c
  else if inWin Config.statusBase 0x10000 then
    match w with
    | some v =>
      if x = .server ∧ c.boot.code = 3 ∧ a = Config.statusBase + 0xFFFC ∧ size = 4 then writeBootCtl c v.toNat else countUnmapped c
    | none =>
      if statusAwake c = false then c
      else
      let o := a - Config.statusBase
      let good := (size = 4 ∧ o % 4 = 0) ∨ (size = 8 ∧ o % 8 = 0)
      answer (if good then c else countUnmapped c) a size (statusRead e c o size)
  else if inWin Config.doorbellBase 0x10000 then
    match w with
    | some v => doorbellWrite c (a - Config.doorbellBase) size (v.toNat % 2 ^ (8 * size))
    | none => answer c a size 0
  else if inHostStore a && inHostStore (a + size - 1) then
    if x = .server ∧ c.boot.ready = false ∧ c.boot.recovering = false then (if w.isSome then c else answer c a size 0)
    else match w with
      | some v => wr c a (leBytes size v.toNat)
      | none => answer c a size (rdLE e c a size)
  else if x = .server then c
  else if inAperture a && inAperture (a + size - 1) then
    match w with
    | some v => if c.boot.pcieUp then wr c a (leBytes size v.toNat) else c
    | none => if c.boot.pcieUp then answer c a size (rdLE e c a size) else c
  else if inStore a || inAnyNear a then
    if (List.range size).all (fun i => (inStore (a + i) || inAnyNear (a + i)) && hostMayTouch c (a + i)) then
      match w with
      | some v => wr c a (leBytes size v.toNat)
      | none => answer c a size (rdLE e c a size)
    else if w.isSome then countDenied c else answer (countDenied c) a size 0
  else if w.isSome then countUnmapped c
  else answer (countUnmapped c) a size 0

end Sys2Proof.Machine
end

