-- ==== Sys2Proof/Machine/Jobs.lean ====
section
/-! DEFINITION. A job's declared areas, its times, its requests' ends, and the start and discard of attempts (02_beacon.md R38-R46, R50, R54; 09_keeper.md R216, R238; 11_serving.md R265-R277). -/

namespace Sys2Proof.Machine

/-! Serving ranges. -/

/-- The key-value pool here: slots, context limit, bytes per position, first byte (R269). -/
def kvOf (j : Job) : Option (Nat × Nat × Nat × Nat) :=
  j.decl.ranges.findSome? (fun r => match r.use with | .kv s n b => some (s, n, b, r.lo) | _ => none)

/-- The lookup map (R269). -/
def lookupOf (j : Job) : List LookupTable :=
  (j.decl.ranges.findSome? (fun r => match r.use with | .lookup t => some t | _ => none)).getD []

/-- Core whose memory holds an address. -/
def coreAt (a : Nat) : Nat := if inStore a then a / 2 ^ 24 else (a - Config.nearBase) / 2 ^ 21 % 1024

/-- Address of the plan copy of an attempt (R46, R269; log entry 26): the copy that its rotation index reads. -/
def copyAddr (j : Job) (r : Nat) : Nat := match planOf j with | some p => p.1 + r % 3 * p.2.1 | none => 0

/-- Offsets within a plan copy (R277): token list, lookup list, row status words; then, by log entry 26, token staging, constants, embedding staging. -/
def drawOff (p : Plan) : Nat := 64 + 32 * p.rows.length
def tokOff (p : Plan) : Nat := drawOff p + 16 * p.draws.length
def lookOff (p : Plan) : Nat := tokOff p + 4 * p.toks.length
def statusOff (p : Plan) : Nat := lookOff p + 8 * p.looks.length
def stageOff (p : Plan) (row : Nat) : Nat := statusOff p + 4 * p.rows.length + 4 * (p.k + 1) * row
def constOff (p : Plan) : Nat := stageOff p p.rows.length
def embOff (p : Plan) (emb row : Nat) : Nat := constOff p + p.consts.length + emb * row

/-- Write the plan into the plan area of this package (R273): the header, the records, zero status words, the constants. -/
def writePlan (c : Chip) (j : Job) (r : Nat) (p : Plan) : Chip :=
  match planOf j with
  | none => c
  | some _ =>
    let a := copyAddr j r
    let c1 := wr c a (planBytes p)
    if p.consts = [] then c1 else wr c1 (a + constOff p) p.consts

/-! Times. -/

/-- Depth-independent verdict bound of R50 in cycles. -/
def verdictBound (j : Job) : Nat := if j.place.pkgs.length ≤ 512 ∧ j.place.depth ≤ 4 then 3 * Config.us else 6 * Config.us

/-- d link hops of the job's profile. -/
def hopsTime (j : Job) : Nat := j.place.depth * Config.hop j.hdr.profile

/-- Restart allowance of a strict job (R54). -/
def restartAllowance (j : Job) : Nat := verdictBound j + hopsTime j + 260

/-- The job period for a base period (R26). -/
def jobPeriod (c : Chip) (j : Job) : Nat := j.args.m * c.beacon.inForce

/-- Cycle at which a domain edge falls, from the last one fired. -/
def edgeCycle (c : Chip) (n : Nat) : Nat :=
  match c.beacon.firedAt with
  | some t => if c.beacon.tick ≤ n then t + (n - c.beacon.tick) * c.beacon.inForce else t - (c.beacon.tick - n) * c.beacon.inForce
  | none => 0

/-- First domain edge at or after a cycle. -/
def edgeAtOrAfter (c : Chip) (t : Nat) : Nat :=
  match c.beacon.firedAt with
  | some f => if t ≤ f ∨ c.beacon.inForce = 0 then c.beacon.tick else c.beacon.tick + cdiv (t - f) c.beacon.inForce
  | none => 0

/-! Requests. -/

/-- An entry freed: its generation rises, 255 returning to 1 (R265); it stays reserved for the job. -/
def freedReq (tag : Nat) (q : Req) : Req := { Req.free with job := tag, gen := if q.gen = 255 then 1 else q.gen + 1 }

/-- Commands of a request in hand end with it: appends, cancels, park. -/
def endCommands (c : Chip) (s : ReqSide) (st : Status) : Chip :=
  let c1 := each s.appends c (fun c a => final c a.cmd .alreadyDone)
  let c2 := each s.cancels c1 (fun c x => final c x (if st = .cancelled then .ok else .alreadyDone))
  match s.parkCmd with
  | some x => finalCmd c2 x (if st = .ok then .ok else if st = .cancelled then .cancelled else .alreadyDone) s.parkBytes 0 0
  | none => c2

/-- The FINAL of a request (R268, R309): RESULT_A is DELIVERED, or for a resumed request the bytes that RESUME_SESSION copied; RESULT_B bit 0 parked, bit 1 END seen. -/
def postEnd (c : Chip) (q : Req) (s : ReqSide) (st : Status) (parked : Bool) : Chip :=
  if q.mirror then c
  else endCommands (finalCmd c s.cmd st (s.backBytes.getD q.delivered) (b2n parked + 2 * b2n s.endSeen) 0) s st

/-- End a request at once: FINAL, entry freed. -/
def endReqNow (c : Chip) (i : Nat) (st : Status) : Chip :=
  let q := req c i
  let s := side c i
  let c1 := { c with reqs := tset c.reqs i (freedReq q.job q), sides := tdel c.sides i }
  postEnd c1 q s st false

/-- Entries of a job that are not FREE, in index order. -/
def liveReqs (c : Chip) (tag : Nat) : List Nat := (c.reqs.filter (fun r => r.2.job == tag && r.2.st != .free)).map Prod.fst

/-! Attempts. -/

/-- Cores of a job on this package. -/
def jobCores (j : Job) : List Nat := coresOf j.place.bands

def setTicks (c : Chip) (tag : Nat) (f : Ticks → Ticks) : Chip := onJob c tag (fun j => { j with ticks := f j.ticks })

def setAttempt (c : Chip) (tag : Nat) (tick ord : Nat) (f : Attempt → Attempt) : Chip :=
  setTicks c tag (fun t => { t with attempts := t.attempts.map (fun a => if a.tick = tick ∧ a.ord = ord then f a else a) })

/-- The records of a job's cores (R347). -/
def coreRecs (c : Chip) (j : Job) : List (Nat × List LogRec) := (jobCores j).map (fun i => (i, (core c i).recs))

/-- Buoys of a job at their initial values, barrier groups with no arrival (R39; log entry 27). -/
def resetSync (c : Chip) (tag : Nat) : Chip :=
  { c with buoys := c.buoys.map (fun b => if b.2.job = tag then (b.1, { b.2 with val := b.2.init }) else b)
           bars := c.bars.map (fun b => if b.2.job = tag then (b.1, { b.2 with phase := 0, arrived := [], rootAt := 0, fall := none }) else b) }

/-- Ordinal that the next attempt of a tick takes (R216). -/
def nextOrd (j : Job) (tick : Nat) : Nat := tget 0 j.ticks.ords tick

/-- Entry address of a context for a variant (R216, R243). -/
def entryOf (j : Job) (x variant : Nat) : Nat := (tget [] j.place.entries x).getD variant 0

/-- Layers of the job here (R91). -/
def jobLayers (j : Job) : List Nat := (j.decl.tiles.map (fun t => t.layer)).eraseDups

/-- Whether every code table that a section was written against is in its slot (R130). -/
def tablesIn (x : Section) : Bool := x.holds.isEmpty && x.refs.all (fun r => decide (r.1 % 128 < 64))

/-- Committed version of a layer (R101). -/
def layerVersion (j : Job) (l : Nat) : Nat := (tfind j.wts.layerVer l).getD j.wts.version

/-- Whether a frame is of an attempt of a job that is not resolved, by the bits it carries (R318). -/
def ofLive (j : Job) (f : Frame) : Bool := j.ticks.attempts.any (fun a => f.tick % 4 == a.tick % 4 && f.attempt % 8 == a.ord % 8)

/-- The ports of a job at the start of an attempt (R316, R329): the slot grid begins, and frames of resolved attempts are no longer resent. A run-ahead start leaves what the tick before it has under way. -/
def startPorts (c : Chip) (tag : Nat) (j : Job) (runAhead : Bool) : Chip :=
  let live := fun (f : Frame) => f.tag != tag || (runAhead && ofLive j f)
  each (j.place.links.map (fun l => l.port)) { c with egress := c.egress.filter live }
    (fun c n => onPort c n (fun p => { p with
      kept := p.kept.filter (fun k => live k.f), again := p.again.filter (fun k => live k.f), nacks := if runAhead then p.nacks else []
      relay := p.relay.filter (fun r => live r.2), relayAgain := p.relayAgain.filter live, reserve := 0, xfers := if runAhead then p.xfers else [] }))

/-- Start an attempt on this package, its edge in cycle `edge` (R43, R216, R238): the cores of the job pass to it. A step whose entry version differs from that of a layer that it passes here in this tick is LAYER_VERSION (R101). -/
def startAttempt (c : Chip) (tag tick r edge : Nat) (runAhead : Bool) (p : Plan) : Chip :=
  match tfind c.jobs tag with
  | none => c
  | some j =>
    let ord := nextOrd j tick
    let recs := coreRecs c j
    let c0 := setTicks c tag (fun t => { t with
      attempts := (t.attempts.map (fun a => if a.recs = [] then { a with recs := recs } else a)) ++
        [⟨tick, ord, r, runAhead, .running, c.now, edge, 0, 0, 0, false, p, false, false, []⟩]
      ords := tset t.ords tick (ord + 1), dones := []
      writers := t.writers.filter (fun w => !(decide (copyAddr j r < w.1 + w.2.1) && decide (w.1 < copyAddr j r + ((planOf j).map (fun p => p.2.1)).getD 0))) })
    let c1 := startPorts (resetSync c0 tag) tag j runAhead
    let c2 := writePlan c1 j r p
    let c3 := each (jobCores j) c2 (fun c i => onCore (ageLanes c i) i (startCore j c.now i))
    let c4 := each j.place.ctxs c3 (fun c x => startCtx c x (entryOf j x p.variant) p.variant p.n p.chunk p.k tick ord)
    if p.steps.any (fun s => (jobLayers j).any (fun l => layerVersion j l != s.version && Config.passTick j.hdr.digest j.place.sym l == s.pos)) then
      match j.place.ctxs with
      | x :: _ => keeperFault c4 x (entryOf j x p.variant) .layerVersion 0 0 0 false
      | [] => c4
    else c4

/-- Stop the Keeper contexts of a job (R238). -/
def stopContexts (c : Chip) (j : Job) : Chip := each j.place.ctxs c stopCtx

/-- At the end of an attempt the windows that WOPEN opened close: the declared set stands (R79). -/
def endWindows (c : Chip) (j : Job) : Chip := each (jobCores j) c (fun c i => onCore c i (fun k => { k with wins := declaredWins j i }))

/-- The deferrals of a plan that will be built again count once (R275). -/
def uncountDeferred (c : Chip) (tag : Nat) (p : Plan) : Chip :=
  onJob (each p.deferred c (fun c i => onReq c i (fun q => { q with deferrals := q.deferrals - 1 }))) tag (fun j => { j with cnt := { j.cnt with
    deferrals := j.cnt.deferrals - p.deferred.length, deferredLookups := j.cnt.deferredLookups - p.lookDef } })

/-- Discard attempts of a job: contexts stop, and their later accesses are dropped (R45, R82). Nothing of them is committed; the plan of a run-ahead successor will be built again. -/
def discardAttempts (c : Chip) (tag : Nat) (p : Attempt → Bool) : Chip :=
  match tfind c.jobs tag with
  | none => c
  | some j =>
    let dead := j.ticks.attempts.filter p
    if dead = [] then c
    else
      let c0 := each (dead.filter (fun a => isLead c j && a.runAhead && j.ticks.attempts.head? != some a)) c (fun c a => uncountDeferred c tag a.plan)
      let c1 := if (newest j).any p then endWindows (stopContexts c0 j) j else c0
      setTicks c1 tag (fun t => { t with
        attempts := t.attempts.filter (fun a => !(p a))
        gone := t.gone ++ dead.map (fun a => (a.tick, a.ord))
        votes := t.votes.filter (fun v => !(dead.any (fun a => a.tick == v.tick && a.ord == v.attempt))) })

/-- Ports of a job's link tables. -/
def jobPorts (j : Job) : List Nat := j.place.links.map (fun l => l.port)

/-- Whether a frame is of the newest attempt of a job, by the bits it carries (R318). -/
def ofAttempt (j : Job) (f : Frame) : Bool := (newest j).any (fun a => f.tick % 4 == a.tick % 4 && f.attempt % 8 == a.ord % 8)

/-- The cycle at which this package reached done for its newest attempt, if it has (R44): the done buoys of its stacks equal its cores there, and every frame sent is acknowledged. -/
def doneTime (c : Chip) (j : Job) : Option Nat :=
  let cs := jobCores j
  let counted := [0, 1, 2, 3].all (fun s => tget 0 j.ticks.dones s == (cs.filter (fun i => i / 256 == s)).length)
  let portDone := fun (p : Port) => p.kept.all (fun k => k.f.cls == 5 || !(ofAttempt j k.f)) && p.nacks.isEmpty && p.again.isEmpty && p.relay.isEmpty
  if counted && (jobPorts j).all (fun n => portDone (tget Port.reset c.ports n)) &&
      c.egress.all (fun f => !(ofAttempt j f)) then
    some (((cs.map (fun i => (core c i).retireAt)) ++ (jobPorts j).map (fun n => (tget Port.reset c.ports n).ackAt)).foldl max 0)
  else none

/-- A core whose work for the attempt has ended adds 1 to its stack's done buoy, once (R44, R229). -/
def sayDone (c : Chip) (i : Nat) : Chip :=
  if (core c i).doneSaid || !(coreDone (core c i) c.now) then c
  else setTicks (onCore c i (fun k => { k with doneSaid := true })) (jobOfCore c i) (fun t => { t with dones := tupd 0 t.dones (i / 256) (· + 1) })

/-- Note that the newest attempt has reached done (R44, R52), and the largest done time of its variant, counted from its edge (R252). -/
def touchDone (c : Chip) (tag : Nat) : Chip :=
  match tfind c.jobs tag with
  | none => c
  | some j =>
    match newest j, doneTime c j with
    | some a, some t =>
      if a.st = .running then
        let d := max t a.startAt
        let c1 := setAttempt c tag a.tick a.ord (fun a => { a with st := .settling, doneAt := d })
        onJob c1 tag (fun j => { j with cnt := { j.cnt with doneMax := tupd 0 j.cnt.doneMax a.plan.variant (max (d - a.edgeAt)) } })
      else if (a.st = .votedNo ∨ a.st = .lateNo) ∧ a.doneAt = 0 then setAttempt c tag a.tick a.ord (fun a => { a with doneAt := max t 1 })
      else c
    | _, _ => c

/-- Whether a package's work for an attempt has ended: done, or its contexts stopped (R45). -/
def workEnded (a : Attempt) : Bool := a.st == .settling || a.st == .votedYes || a.doneAt != 0 || a.overrun

/-- Commands of a job without a FINAL: those whose target or own handle names it, or a request of it (R312). -/
def jobCmds (c : Chip) (tag : Nat) : List CmdId :=
  ((c.cmds.filter (fun m =>
    m.opcode != 0x40 && m.opcode != 0x41 && m.phase != .held &&
    ((hKind m.target == 3 && hIndex m.target == tag && (tfind c.jobs tag).any (fun j => j.gen == hGen m.target && j.seq == hSeq m.target)) ||
     (hKind m.handle == 3 && hIndex m.handle == tag) ||
     (hKind m.target == 1 && (reqOf c m.target).any (fun x => x.2.job == tag)))))).map (fun m => m.id)

/-- The 1 KiB of a Keeper context in a capture (R380; order and widths: log entry 34). -/
def ctxBytes (t : Ctx) : List Byte :=
  let body := (List.range 16).flatMap (fun r => leBytes 4 (tget 0#32 t.k r).toNat) ++
    (List.range 8).flatMap (fun l => let x := t.loops.getD l (0, 0, 0); leBytes 4 x.1 ++ leBytes 4 x.2.1 ++ leBytes 4 x.2.2) ++
    (List.range 8).flatMap (fun l => let x := t.calls.getD l (0, 0); leBytes 4 x.1 ++ leBytes 4 x.2) ++
    leBytes 4 t.pc ++ leBytes 2 t.bands.toNat
  (body ++ List.replicate 1024 0).take 1024

/-- The 256 B of a core in a capture (R380; order and widths: log entry 34). -/
def coreBytes (i now : Nat) (k : Core) : List Byte :=
  let head := fun (l : List QSlot) => leBytes 4 (match l with | s :: _ => s.lw | [] => noLw)
  let body := leBytes 2 i ++ leBytes 4 (k.lastLw.getD noLw) ++ leBytes 1 k.fifo.length ++
    head k.m0 ++ head k.m1 ++ head k.v ++ head k.s ++ head k.b ++
    leBytes 1 ((List.range 8).map (fun p => b2n (predOf k now p) * 2 ^ p)).sum ++
    (List.range 32).flatMap (fun n => leBytes 4 (tget Stream.unbound k.streams n).cur.cursor)
  (body ++ List.replicate 256 0).take 256

/-- Why a job stops, as a capture says it (R380): 0 kill, 1 quarantine, 2 release, 3 a stop under R31, R51 or R56. -/
def captureCause (c : Chip) (j : Job) (st : JobSt) (status : Status) : Nat :=
  if st = .halted then 3
  else if status ≠ .partitionKilled then 1
  else if j.place.parts.any (fun p => (part c p).state == 2) then 2
  else 0

/-- What a capture records of the moment the contexts stop (R380); a core of a stack that is not LIT stands as an attempt finds it (R393). -/
def snapshot (c : Chip) (tag : Nat) (j : Job) (cause : Nat) : Snap :=
  let a := newest j
  let lit := fun (i : Nat) => (lamp c (i / 256)).st == .lit && (lamp c (i / 256)).goal.isNone
  { tick := (a.map (fun a => a.tick)).getD j.ticks.committed
    ord := (a.map (fun a => a.ord)).getD 0
    dtick := c.beacon.tick
    cause := cause
    body := (List.range 16).flatMap (fun x => if (ctx c x).job = tag then ctxBytes (ctx c x) else List.replicate 1024 0) ++
      (jobCores j).flatMap (fun i => coreBytes i c.now (if lit i then core c i else Core.idle)) }

/-- A swap wave that is cut short (R103): the layers whose rewrite is complete hold the new version. -/
def Weights.cutWave (w : Weights) : Weights :=
  match w.swap with
  | .none => w
  | some s => { w with swap := .none, layerVer := (s.verified.filter (fun l => (tfind w.sections l).all tablesIn)).foldl (fun t l => tset t l s.version) w.layerVer }

/-- The first 32 bytes of a capture (R380). -/
def captureHead (c : Chip) (tag : Nat) (j : Job) (s : Snap) (status : Nat) : List Byte :=
  leBytes 4 status ++ leBytes 2 tag ++ leBytes 2 c.beacon.pkg ++ leBytes 8 s.tick ++ leBytes 1 s.ord ++ leBytes 1 s.cause ++
    leBytes 2 (jobCores j).length ++ leBytes 4 0 ++ leBytes 8 s.dtick

/-- An armed capture begins: STATUS 0 is written first (R380); into the aperture once the link is up (R405). -/
def captureBegins (c : Chip) (tag : Nat) (j : Job) (s : Snap) : Chip :=
  match j.capture with
  | some b => if linkWaits c b.addr then c else wr c b.addr (captureHead c tag j s 0)
  | none => c

/-- The end of a job that keeps its program (R286, R312, R373): contexts stop, attempts are discarded, commands and requests complete with its status, drawers in hand return, the pair ends; a capture if armed, then clearing. -/
def endJob (c : Chip) (tag : Nat) (st : JobSt) (status : Status) : Chip :=
  match tfind c.jobs tag with
  | none => c
  | some j =>
    let snap := snapshot c tag j (captureCause c j st status)
    let c0 := stopContexts (captureBegins c tag j snap) j
    let c1 := discardAttempts c0 tag (fun _ => true)
    let own := (liveReqs c1 tag).map (fun i => (side c1 i).cmd)
    let c2 := each ((jobCmds c1 tag).filter (fun x => !(own.contains x))) c1 (fun c x => final c x status)
    let c3 := each (liveReqs c2 tag) c2 (fun c i => endReqNow c i status)
    let c4 := each (jobCores j) (rangeLost c3 tag 0) (fun c i => onCore c i (fun k => { k with wins := [], guards := [], moves := [] }))
    onJob { c4 with reqs := c4.reqs.map (fun r => if r.2.job = tag then (r.1, { r.2 with job := 0 }) else r) } tag (fun j => { j with
      st := st, endSt := status, stop := none, clearing := true, captureRun := j.capture.map (fun _ => snap), args := { j.args with reqCount := 0 }
      wts := Weights.tidy { j.wts.cutWave with
        loads := [], trains := [], held := [], drops := []
        drawers := j.wts.drawers.map (fun d => if d.2.st = .filling ∨ d.2.st = .retired ∨ (d.2.st = .ready ∧ d.2.by_ = .train) then (d.1, Drawer.free) else d) }
      ticks := { j.ticks with announce := none, replayPlan := none, edge := none, planned := none } })

end Sys2Proof.Machine
end

