-- ==== Sys2Proof/Machine/Planner.lean ====
section
/-! DEFINITION. The planner (11_serving.md R273-R278, R284-R286; 12_host.md R301). -/

namespace Sys2Proof.Machine

/-- Planner budget B (R274). -/
def budgetOf (c : Chip) (j : Job) : Nat :=
  if j.args.budget ≠ 0 then j.args.budget else if j.args.strict then jobPeriod c j - restartAllowance j else jobPeriod c j

/-- The row limit (R274). -/
def rowLimit (c : Chip) (j : Job) : Nat :=
  ((j.hdr.variants.filter (fun v => v.kind == 0 && v.chunk == 0 && v.draft == j.args.kJob && decide (v.wWorst ≤ budgetOf c j))).map (fun v => v.rows)).foldl max 0

/-- Rows of a plan that will write token records to the ring of a request: decode rows and the FINAL segments of generating requests (R281, R301). -/
def planRing (c : Chip) (q : Req) (rows : List PlanRow) : Nat :=
  (rows.filter (fun w => (w.kind == 0 || (w.kind == 1 && bitOf w.rowFlags 1 && !(bitOf w.rowFlags 2))) && (req c w.entry).part == q.part && (req c w.entry).tokenRing == q.tokenRing)).length

/-- Free records of a token ring, after the reservations of every attempt not yet committed, of any job that shares it (R301). -/
def tokenRoom (c : Chip) (q : Req) : Nat :=
  let r := ring c (ringKey q.part (64 + q.tokenRing))
  let held := c.jobs.map (fun x => (x.2.ticks.attempts.map (fun a => planRing c q a.plan.rows)).sum * (x.2.args.kJob + 1))
  ringSize r - ringUsed r - held.sum

/-- Entries in planning order (R275, R276): of the job, in the given states, not flagged, by ARRIVAL. -/
def byArrival (c : Chip) (tag : Nat) (ok : Req → Bool) : List (Nat × Req) :=
  sortBy (fun r => r.2.arrival) (c.reqs.filter (fun r => r.2.job == tag && !r.2.cancel && ok r.2))

/-- The plan as it grows: rows, tokens and lookups used, KV slots taken, requests deferred, lookups deferred, counts per core and table, and whether prompts stopped. -/
structure Draft where
  rows : List PlanRow
  toks : List Word
  looks : List Dword
  slots : List Nat
  deferred : List Nat
  lookDef : Nat
  loads : List (Nat × Nat × Nat)
  finals : Nat
  stop : Bool
  left : Nat

/-- Core and table that a lookup entry loads (R284). -/
def lookupCore (ts : List LookupTable) (e : Dword) : Option (Nat × Nat × Nat) :=
  let t := bitsOf e.toNat 39 32
  match ts[t]? with
  | none => none
  | some x => if bitsOf e.toNat 31 0 < x.rows then some (x.shards.getD (bitsOf e.toNat 31 0 / x.perShard) 0, t, x.cap) else none

/-- Counts after adding lookups, and whether every capacity holds. -/
def addLoads (ts : List LookupTable) (loads : List (Nat × Nat × Nat)) (looks : List Dword) : List (Nat × Nat × Nat) × Bool :=
  looks.foldl (fun (acc : List (Nat × Nat × Nat) × Bool) e =>
    match lookupCore ts e with
    | none => (acc.1, false)
    | some (core, t, cap) =>
      let old := ((acc.1.find? (fun x => x.1 == core && x.2.1 == t)).map (fun x => x.2.2)).getD 0
      ((core, t, old + 1) :: acc.1.filter (fun x => !(x.1 == core && x.2.1 == t)), acc.2 && decide (old + 1 ≤ cap))) (loads, true)

/-- Lowest free key-value slot (R275). -/
def freeSlot (c : Chip) (tag : Nat) (j : Job) (taken : List Nat) : Option Nat :=
  match kvOf j with
  | none => none
  | some (s, _) =>
    let used := (c.reqs.filter (fun r => r.2.job == tag && r.2.st != .free)).map (fun r => r.2.kvSlot)
    (List.range s).find? (fun n => !(used.contains n) && !(taken.contains n))

/-- Whether a request has an adapter and is not bound to a drawer yet; one that waited for its fill is bound (R107, R110). -/
def unbound (q : Req) : Bool := q.st == .ready && q.adapter && q.drawer == 0xFFFF

/-- Binding of a request that is first planned: the drawer current for its adapter ID in the state planned from (R107). -/
def bindingOf (j : Job) (q : Req) : Nat × Nat :=
  if unbound q then
    match tfind j.wts.dir q.adapterId with
    | some d => (d, (tget Drawer.free j.wts.drawers d).gen)
    | none => (q.drawer, q.adapterGen)
  else (q.drawer, q.adapterGen)

/-- One prompt considered for the chunk (R275, R276, R284): `left` positions remain, `limit` is the row limit and `dec` the requests in DECODE. A prompt is deferred where nothing of it is planned, for want of positions too (R276, example). -/
def takePrompt (c cc : Chip) (tag : Nat) (j : Job) (limit dec : Nat) (d : Draft) (x : Nat × Req) : Draft :=
  let i := x.1
  let q := x.2
  let s := side c i
  let defer := fun (d : Draft) => { d with deferred := d.deferred ++ [i] }
  if d.stop ∨ (unbound q = true ∧ (tfind j.wts.dir q.adapterId).isNone = true) then d
  else if d.left = 0 then defer d
  else
    let first := q.st == .ready
    let slot := if q.encodeOnly || q.kvSlot != 0xFFFF then some q.kvSlot else freeSlot c tag j d.slots
    match slot with
    | none => defer d
    | some sl =>
      let looks := if first then s.looks else []
      let ld := addLoads (lookupOf j) d.loads looks
      if !ld.2 then { (defer d) with lookDef := d.lookDef + looks.length, stop := !j.args.balancing }
      else
        let remaining := q.promptLen - q.promptDone
        let n := min remaining d.left
        let canFinal := q.encodeOnly ||
          (decide (dec + d.finals + 1 ≤ limit) && decide ((planRing cc q d.rows + 1) * (j.args.kJob + 1) ≤ tokenRoom cc q))
        let n := if n = remaining ∧ canFinal = false then n - 1 else n
        let fin := n == remaining
        if n = 0 then defer d
        else
          let b := bindingOf j q
          let row : PlanRow := ⟨i, 1, 2 * b2n fin + 4 * b2n q.encodeOnly + 8 * b2n (!s.planned), sl, b.1, b.2, q.promptDone, n, d.toks.length, 0⟩
          { d with
            rows := d.rows ++ [row]
            toks := d.toks ++ (s.toks.drop q.promptDone).take n
            looks := d.looks ++ looks
            slots := if q.encodeOnly then d.slots else d.slots ++ [sl]
            loads := ld.1
            finals := d.finals + b2n (fin && !q.encodeOnly)
            left := d.left - n }

/-- Decode rows (R275, R277): by ARRIVAL, up to the row limit, each with room on its token ring. -/
def takeDecode (c cc : Chip) (j : Job) (limit : Nat) (d : Draft) (x : Nat × Req) : Draft :=
  let q := x.2
  if limit ≤ d.rows.length ∨ tokenRoom cc q < (planRing cc q d.rows + 1) * (j.args.kJob + 1) then { d with deferred := d.deferred ++ [x.1] }
  else { d with rows := d.rows ++ [⟨x.1, 0, b2n q.noDraft + 8 * b2n (!(side c x.1).planned), q.kvSlot, q.drawer, q.adapterGen, q.kvLen, j.args.kJob + 1, q.step, 0⟩] }

/-- Number of the first variant of a list that satisfies a test. -/
def variantWhere (j : Job) (p : VariantE → Bool) : Option Nat := j.hdr.variants.findIdx? p

/-- Least of a list, if it has one. -/
def leastOf (l : List Nat) : Option Nat := l.foldl (fun o x => match o with | none => some x | some y => some (min x y)) none

/-- Choice of chunk and variant (R276). -/
def chooseVariant (c : Chip) (j : Job) (n p : Nat) (margin : Bool) : Nat × Nat :=
  let fits := fun (v : VariantE) => decide (n ≤ v.rows) && v.draft == j.args.kJob && decide (v.wWorst ≤ budgetOf c j)
  let set0 := j.hdr.variants.filter fits
  let r0 := (leastOf (set0.map (fun v => v.rows))).getD 0
  let set1 := set0.filter (fun v => v.rows == r0)
  let chunks := (set1.map (fun v => v.chunk)).filter (· != 0)
  let ch :=
    if p = 0 then 0
    else if j.args.balancing then
      (let small := chunks.filter (fun x => decide (x ≤ p))
       if small ≠ [] then small.foldl max 0 else (leastOf chunks).getD 0)
    else if chunks.contains j.args.fixedChunk then j.args.fixedChunk else 0
  let moved := ch == 0 && !(set1.any (fun v => v.chunk == 0))
  let set2 := set0.filter (fun v => v.chunk == 0)
  let r := if moved then (leastOf (set2.map (fun v => v.rows))).getD 0 else r0
  let good := fun (kind : Nat) (v : VariantE) => fits v && v.rows == r && v.chunk == ch && v.kind == kind
  let k0 := variantWhere j (good 0)
  let k1 := variantWhere j (good 1)
  ((if margin && k1.isSome then k1 else k0.or k1).getD 0, ch)

/-- Drawer and generation that a training reads: the adapter's current one until its first margin tick, that one from then on (R285). -/
def trainSource (j : Job) (t : Train) : Option (Nat × Nat) :=
  if t.srcGen ≠ 0 then some (t.srcDrawer, t.srcGen)
  else (tfind j.wts.dir t.adapter).map (fun d => (d, (tget Drawer.free j.wts.drawers d).gen))

/-- The training that margin work serves now (R285, R286): the first with steps left and a source. -/
def pickTrain (j : Job) : Option Train := j.wts.trains.find? (fun t => decide (t.step < t.steps) && (trainSource j t).isSome)

/-- Draw records of the rows, and the rows with the offset of their first (R277, R278); `base` is the offset of the first draw record. -/
def addDraws (c : Chip) (k base : Nat) (rows : List PlanRow) : List PlanRow × List (Dword × Nat × Nat) :=
  rows.foldl (fun (acc : List PlanRow × List (Dword × Nat × Nat)) r =>
    let seed := BitVec.ofNat 64 (req c r.entry).seed
    let off := base + 16 * acc.2.length
    if r.kind = 0 then (acc.1 ++ [{ r with aux := off }], acc.2 ++ (List.range (k + 1)).map (fun p => (seed, r.index, p)))
    else if r.kind = 1 ∧ bitOf r.rowFlags 1 = true ∧ bitOf r.rowFlags 2 = false then (acc.1 ++ [{ r with aux := off }], acc.2 ++ [(seed, 0, 0)])
    else (acc.1 ++ [r], acc.2)) ([], [])

/-- Prompts that may be planned (R275): the final part of a prompt in READY or PROMPT. -/
def promptReady (q : Req) : Bool := (q.st == .ready || q.st == .prompt) && decide (q.promptDone < q.promptLen)

/-! The swap wave. A step enters layer 0 in the tick of its row; a row whose status word accepts nothing leaves its step unfinished, and the next row of the request carries it on (R99-R102, R279; log entry 28). -/

/-- Whether a layer has its new version committed (R101). -/
def layerIn (j : Job) (w : Swap) (x : LayerAt) : Bool := if x.sym = j.place.sym then w.flipped.contains x.layer else w.farIn.contains (x.sym, x.layer)

/-- Ticks after its entry in which a step passes a layer (log entry 28). -/
def passAt (j : Job) (sym layer : Nat) : Nat := Config.passTick j.hdr.digest sym layer

/-- Whether every layer that a step passes `pos` ticks after its entry has its new version committed (R101). -/
def stageIn (j : Job) (w : Swap) (pos : Nat) : Bool := j.place.layout.all (fun x => layerIn j w x || passAt j x.sym x.layer != pos)

/-- Whether the step of a request runs under the old version: it has entered under it, or enters before the barrier, or again after its tick was aborted (R99, R100). -/
def onOld (w : Swap) (tick i : Nat) (s : ReqSide) : Bool :=
  if s.pos = 0 then w.barrier.all (fun b => decide (tick < b)) || w.retry.contains i else s.version != w.version

/-- Whether the next step of a request, or the rest of its step, may be planned (R99, R101). -/
def waveAdmits (j : Job) (tick i : Nat) (s : ReqSide) : Bool := j.wts.swap.all (fun w => onOld w tick i s || stageIn j w s.pos)

/-- Weight version of that step (R99, R102). -/
def stepVersion (j : Job) (tick i : Nat) (s : ReqSide) : Nat :=
  match j.wts.swap with
  | some w => if onOld w tick i s then (if s.pos = 0 then j.wts.version else s.version) else w.version
  | none => if s.pos = 0 then j.wts.version else s.version

/-- What the plan tells of a row's request (R49, R267). -/
def stepInfo (view : Chip) (j : Job) (tick : Nat) (r : PlanRow) : StepInfo :=
  if r.kind = 2 then ⟨0xFFFF, 0, 0, 0, 0, 0, stepVersion j tick 0xFFFF ReqSide.none⟩
  else
    let q := req view r.entry
    let s := side view r.entry
    ⟨r.entry, q.gen, 2 * b2n q.rebind + 4 * b2n q.encodeOnly + 8 * b2n q.noDraft + 64 * b2n q.adapter, q.kvLen, q.step, s.pos, stepVersion j tick r.entry s⟩

/-- The deferrals of a plan are counted, on the requests and on the job (R275, R284). -/
def countDeferred (c : Chip) (tag : Nat) (p : Plan) : Chip :=
  onJob (each p.deferred c (fun c i => onReq c i (fun q => { q with deferrals := satAdd 16 q.deferrals 1 }))) tag (fun j => { j with cnt := { j.cnt with
    deferrals := satAdd 32 j.cnt.deferrals p.deferred.length, deferredLookups := satAdd 32 j.cnt.deferredLookups p.lookDef } })

/-- The plan of a tick (R273-R278): `view` is the state planned from, `c` the committed state; the deferrals are counted on the committed entries. -/
def buildPlan (e : Env) (c view : Chip) (tag tick : Nat) : Plan × Chip :=
  match tfind view.jobs tag with
  | none => (Plan.idle, c)
  | some j =>
    let k := j.args.kJob
    let admits := fun (r : Nat × Req) => waveAdmits j tick r.1 (side view r.1)
    let limit := rowLimit c j
    let dec := (byArrival view tag (fun q => q.st == .decode)).filter admits
    let empty : Draft := ⟨[], [], [], [], [], 0, [], 0, false, 0⟩
    let d1 := dec.foldl (takeDecode view c j limit) empty
    let n := d1.rows.length
    let prompts := (byArrival view tag promptReady).filter admits
    let all := prompts.foldl (takePrompt view c tag j limit dec.length) { d1 with left := 2 ^ 32 }
    let p := all.toks.length
    let train := if waveAdmits j tick 0xFFFF ReqSide.none then pickTrain j else none
    let ch := chooseVariant c j n p train.isSome
    let d2 := if ch.2 = 0 then d1 else prompts.foldl (takePrompt view c tag j limit dec.length) { d1 with left := ch.2 }
    let deferred := if ch.2 = 0 then all.deferred ++ (all.rows.filter (fun r => r.kind == 1)).map (fun r => r.entry) else d2.deferred
    let lookDef := (if ch.2 = 0 then all else d2).lookDef
    let v := j.hdr.variants.getD ch.1 ⟨0, 0, 0, 0, 0, 0⟩
    let served := if v.kind == 1 then train else none
    let margin : List PlanRow × List Byte := match served with
      | some t =>
        let first := t.step * t.batch % max t.examples 1
        let src := (trainSource j t).getD (0, 0)
        ([⟨0xFFFF, 2, 0, 0, src.1, src.2, t.step, min t.batch (t.examples - first), first, 0⟩], rdBytes e c t.constants 256)
      | none => ([], [])
    let rows := d2.rows ++ margin.1
    let dr := addDraws view k (64 + 32 * rows.length) rows
    let pl : Plan := ⟨ch.1, n, d2.toks.length, k, dr.1, dr.2, d2.toks, d2.looks, margin.2, rows.map (stepInfo view j tick), deferred, lookDef, served.map (fun t => t.drawer)⟩
    ({ pl with rows := pl.rows.map (fun r => if r.kind = 2 then { r with aux := constOff pl } else r) }, countDeferred c tag pl)

end Sys2Proof.Machine
end

