-- ==== Sys2Proof/Machine/Commit.lean ====
section
/-! DEFINITION. Votes, verdicts and the commit (02_beacon.md R44-R57; 11_serving.md R270-R286; 04_weights.md R101-R110; 15_safety.md R359-R361; 14_reproducibility.md R347-R350). -/

namespace Sys2Proof.Machine

/-! The effects of a commit on requests, drawers and layers, kept apart from the records it posts. -/

/-- What a commit changes and what it has to post: the chip, tokens (entry, request, DELIVERED before, last, value), ended requests, command FINALs, embedding copies, entries changed, drawers and layers flipped. -/
structure Fx where
  c : Chip
  toks : List (Nat × Req × Nat × Bool × Word)
  ends : List (Nat × Req × ReqSide × Status × Bool)
  fins : List (CmdId × Status × Nat)
  embs : List (Nat × List Byte)
  touched : List Nat
  drawers : List (Nat × Nat)
  layers : List (Nat × Nat)

/-- End a request at the commit: its entry is freed; its FINAL follows the tokens. -/
def fxEnd (x : Fx) (i : Nat) (st : Status) (parked : Bool) : Fx :=
  let q := req x.c i
  let s := side x.c i
  { x with
    c := { x.c with reqs := tset x.c.reqs i (freedReq q.job q), sides := tdel x.c.sides i }
    ends := x.ends ++ [(i, q, s, st, parked)], touched := x.touched ++ [i] }

/-- Row status word of a row (R279). -/
def statusOf (e : Env) (c : Chip) (j : Job) (a : Attempt) (row : Nat) : Nat := rdLE e c (copyAddr j a.r + statusOff a.plan + 4 * row) 4

/-- Fields of a row status word: ACCEPTED, END, END_POS. -/
def stA (w : Nat) : Nat := bitsOf w 3 0
def stEnd (w : Nat) : Bool := bitOf w 4
def stPos (w : Nat) : Nat := bitsOf w 8 5

/-- A row status word that R279 forbids. -/
def statusBad (k : Nat) (r : PlanRow) (w : Nat) : Bool :=
  decide (k + 1 < stA w) || ((r.kind == 1 || bitOf r.rowFlags 0) && decide (1 < stA w)) || (stEnd w && decide (stA w ≤ stPos w))

/-- Whether a row has a status word (R279): a decode row, or a FINAL segment. -/
def hasStatus (r : PlanRow) : Bool := r.kind == 0 || (r.kind == 1 && bitOf r.rowFlags 1)

/-- Tokens of a row delivered (R279): the least of ACCEPTED, the remaining allowance and END_POS + 1. -/
def delivered (w m : Nat) : Nat := min (min (stA w) m) (if stEnd w then stPos w + 1 else stA w)

/-- The staged token `t` of a row (log entry 26). -/
def stagedTok (e : Env) (c : Chip) (j : Job) (a : Attempt) (row t : Nat) : Word :=
  BitVec.ofNat 32 (rdLE e c (copyAddr j a.r + stageOff a.plan row + 4 * t) 4)

/-- Deliver the tokens of a row and end or continue the request (R279). `kv`: KV_LEN advance; `step`: the new STEP; `st`: the state it goes on in. -/
def fxDeliver (e : Env) (j : Job) (a : Attempt) (x : Fx) (i row : Nat) (kv step : Nat) (st : ReqSt) : Fx :=
  let q := req x.c i
  let w := statusOf e x.c j a row
  let d := delivered w (q.maxNew - q.delivered)
  let ended := stEnd w && decide (stPos w + 1 ≤ d)
  let fin := ended || q.delivered + d == q.maxNew
  let out := if q.mirror then [] else (List.range d).map (fun t => (i, q, q.delivered + t, fin && t + 1 == d, stagedTok e x.c j a row t))
  let q' := { q with kvLen := q.kvLen + kv, step := step, delivered := if q.mirror then 0 else q.delivered + d, st := st }
  let x1 := { x with c := onSide { x.c with reqs := tset x.c.reqs i q' } i (fun s => { s with endSeen := s.endSeen || ended })
                     toks := x.toks ++ out, touched := x.touched ++ [i] }
  if fin && !q.mirror then fxEnd x1 i .ok false else x1

/-- What a plan tells of an entry's request. -/
def infoOf (p : Plan) (i : Nat) : StepInfo := (p.steps.find? (fun s => s.entry == i)).getD ⟨i, 0, 0, 0, 0, 0, 0⟩

/-- The mirror of a request that a plan names for the first time, as the full entry stands (R267). -/
def mirrorOf (q : Req) (s : StepInfo) : Req :=
  { q with st := .ready, mirror := true, gen := s.gen, rebind := bitOf s.flags 1, encodeOnly := bitOf s.flags 2, noDraft := bitOf s.flags 3, adapter := bitOf s.flags 6
           kvLen := s.kvLen, step := s.step }

/-- A planned row at its commit (R270, R279-R281). A row whose status word accepts nothing leaves its step under way (log entry 28). -/
def fxRow (e : Env) (tag : Nat) (j : Job) (a : Attempt) (skip : List Nat) (x : Fx) (rw : PlanRow × Nat) : Fx :=
  let r := rw.1
  if r.kind = 2 then
    { x with c := onJob x.c tag (fun j => { j with wts := { j.wts with
        trains := j.wts.trains.map (fun t => if a.plan.train = some t.drawer then { t with step := t.step + 1, srcDrawer := r.drawer, srcGen := r.adGen } else t) } }) }
  else if skip.contains r.entry then x
  else
    let q0 := req x.c r.entry
    let lead := isLead x.c j
    -- on a package that does not lead, the first commit that plans a request makes its mirror valid (R267)
    let info := infoOf a.plan r.entry
    let q0 := if !lead && q0.st == .free then mirrorOf q0 info else q0
    if q0.st = .free ∨ q0.st = .queued ∨ q0.st = .waitAdapter then x
    else
      let q := if q0.st = .ready then { q0 with drawer := r.drawer, adapterGen := r.adGen, kvSlot := r.kvSlot, encodeOnly := q0.encodeOnly || bitOf r.rowFlags 2 } else q0
      let keep := fun (st : ReqSt) => if q.st = .parking then ReqSt.parking else st
      let w := statusOf e x.c j a rw.2
      let c1 := onSide { x.c with reqs := tset x.c.reqs r.entry q } r.entry (fun s =>
        { s with planned := true, version := info.version, pos := if hasStatus r && stA w == 0 then info.pos + 1 else 0 })
      let x1 := { x with c := c1 }
      if r.kind = 0 then
        fxDeliver e j a x1 r.entry rw.2 (stA w) (q.step + 1) (keep (if q.st = .prompt then .prompt else .decode))
      else
        let q1 := { q with promptDone := if q.mirror then 0 else q.promptDone + r.count, kvLen := if r.kvSlot = 0xFFFF then q.kvLen else q.kvLen + r.count, st := keep .prompt }
        let x2 := { x1 with c := { x1.c with reqs := tset x1.c.reqs r.entry q1 }, touched := x1.touched ++ [r.entry] }
        if bitOf r.rowFlags 1 = false then x2
        else if bitOf r.rowFlags 2 then
          let n := (planOf j).map (fun p => p.2.2) |>.getD 0
          let s := side x2.c r.entry
          let src := copyAddr j a.r + embOff a.plan n rw.2
          if q.mirror then x2
          else fxEnd { x2 with embs := x2.embs ++ [(s.outAddr, rdBytes e x2.c src n)] } r.entry .ok false
        else
          fxDeliver e j a x2 r.entry rw.2 0 1 (keep (if !q.mirror && decide (q1.promptDone < q.promptLen) then .prompt else .decode))

/-- Appended tokens whose copy has ended (R270, R272). -/
def fxAppend (x : Fx) (i : Nat) : Fx :=
  let s := side x.c i
  let got := s.appends.filter (fun a => a.copied)
  if got = [] then x
  else
    let add := got.flatMap (fun a => a.toks)
    let c1 := onSide x.c i (fun s => { s with toks := s.toks ++ add, appends := s.appends.filter (fun a => !a.copied) })
    let c2 := onReq c1 i (fun q => { q with promptLen := q.promptLen + add.length, st := if q.st = .decode then .prompt else q.st })
    { x with c := c2, touched := x.touched ++ [i], fins := x.fins ++ got.map (fun a => (a.cmd, Status.ok, 0)) }

/-- Whether generation `g` was given out before generation `h` of the same adapter (R105: 255 returns to 1). -/
def genBefore (g h : Nat) : Bool := g != h && decide ((h + 255 - g) % 255 < 128)

/-- Fills of a drawer's adapter that started before it and are not current yet; a training's drawer does not count (R108). -/
def fillsBefore (j : Job) (d : Nat) (st : DrawerSt → Bool) : Nat :=
  let w := tget Drawer.free j.wts.drawers d
  (j.wts.drawers.filter (fun x => x.1 != d && x.2.adapter == w.adapter && st x.2.st && x.2.by_ != .train && genBefore x.2.gen w.gen)).length

/-- READY drawers in the order in which their fills started, adapter by adapter; one whose adapter has an earlier fill still running waits (R108). -/
def readyDrawers (j : Job) : List Nat :=
  let rs := (j.wts.drawers.filter (fun d => d.2.st == .ready)).map Prod.fst
  sortBy (fun d => fillsBefore j d (fun s => s == .ready)) (rs.filter (fun d => (tget Drawer.free j.wts.drawers d).by_ == .train || fillsBefore j d (fun s => s == .filling) == 0))

/-- State of a request whose adapter has come: READY, or where it stood if it was parked and resumed (R111, R270). -/
def afterWait (s : ReqSide) (q : Req) : ReqSt := if !s.resuming then .ready else if q.promptDone < q.promptLen then .prompt else .decode

/-- A drawer that becomes current (R105-R107, R110, R286): the one it supersedes retires, waiting and REBIND requests are bound, the mirrors by the drawer that they hold; a training whose drawer it is is over. -/
def fxCurrent (tag : Nat) (x : Fx) (d : Nat) : Fx :=
  match tfind x.c.jobs tag with
  | none => x
  | some j =>
    let w := tget Drawer.free j.wts.drawers d
    if w.st ≠ .ready then x
    else
      let old := tfind j.wts.dir w.adapter
      let ds0 := match old with
        | some o => tupd Drawer.free j.wts.drawers o (fun y => { y with st := .retired })
        | none => j.wts.drawers
      let ds := tset ds0 d { w with st := .current, cmd := none, by_ := .none, lastBound := x.c.now }
      let c1 := onJob x.c tag (fun j => { j with wts := { j.wts with
        drawers := ds, dir := tset j.wts.dir w.adapter d, trains := j.wts.trains.filter (fun t => w.by_ != .train || t.drawer != d) } })
      let mine := fun (q : Req) => if q.mirror then some q.drawer == old else q.adapterId == w.adapter
      let bound := fun (q : Req) => q.rebind && (q.st == .prompt || q.st == .decode || q.st == .parking || (q.st == .ready && q.drawer != 0xFFFF))
      let waits := (c1.reqs.filter (fun r => r.2.job == tag && r.2.adapter && mine r.2 && (r.2.st == .waitAdapter || bound r.2))).map Prod.fst
      let c2 := each waits c1 (fun c i => onReq c i (fun q => { q with st := if q.st = .waitAdapter then afterWait (side c i) q else q.st, drawer := d, adapterGen := w.gen }))
      let fin := match w.cmd with
        | some m => [(m, Status.ok, if w.by_ = .train then w.gen else 0)]
        | none => []
      { x with c := c2, touched := x.touched ++ waits, fins := x.fins ++ fin, drawers := x.drawers ++ [(d, w.gen)] }

/-- Position of a command among those fetched; relayed ones stand in the order of their sequences. -/
def cmdPos (c : Chip) (m : CmdId) : Nat := if m.part = 16 then m.seq else c.cmds.findIdx (fun x => x.id == m)

/-- Whether a DROP_ADAPTER waits for an earlier fill of the same ID (R108). -/
def dropWaits (c : Chip) (j : Job) (d : Nat × CmdId) : Bool :=
  j.wts.drawers.any (fun w => w.2.adapter == d.1 && (w.2.st == .filling || w.2.st == .ready) && (match w.2.cmd with | some m => decide (cmdPos c m < cmdPos c d.2) | none => false))

/-- Drops that take effect (R108). -/
def fxDrops (tag : Nat) (x : Fx) : Fx :=
  match tfind x.c.jobs tag with
  | none => x
  | some j =>
    let go := j.wts.drops.filter (fun d => !(dropWaits x.c j d))
    go.foldl (fun x d =>
      let c1 := onJob x.c tag (fun j =>
        let o := tfind j.wts.dir d.1
        { j with wts := { j.wts with
            drawers := match o with | some o => tupd Drawer.free j.wts.drawers o (fun y => { y with st := .retired }) | none => j.wts.drawers
            dir := tdel j.wts.dir d.1, drops := j.wts.drops.filter (fun y => y.2 != d.2) } })
      { x with c := c1, fins := x.fins ++ [(d.2, Status.ok, 0)] }) x

/-- Bound requests of a drawer (R105); one that is being resumed is bound at the commit that makes it schedulable (R107, R111). -/
def boundOf (c : Chip) (tag d : Nat) : Nat := (c.reqs.filter (fun r => r.2.job == tag && r.2.st != .free && r.2.st != .queued && r.2.drawer == d)).length

/-- Drawer states after the bindings of a commit (R105, R106, R108). -/
def settleDrawers (c : Chip) (tag : Nat) : Chip :=
  onJob c tag (fun j => { j with wts := Weights.tidy { j.wts with drawers := j.wts.drawers.map (fun d =>
    let n := boundOf c tag d.1
    if d.2.st = .retired ∧ n = 0 then (d.1, Drawer.free)
    else if d.2.st = .current ∧ d.2.pinned = false ∧ n = 0 then (d.1, { d.2 with st := .cached })
    else if d.2.st = .cached ∧ n ≠ 0 then (d.1, { d.2 with st := .current, lastBound := c.now })
    else if d.2.st = .current ∧ n ≠ 0 then (d.1, { d.2 with lastBound := c.now })
    else d) } })

/-- Layers verified by the wave, their code tables in place, take their new version; with the last layer of the last package the wave is over (R99, R101, R103, R130). -/
def fxLayers (tag : Nat) (x : Fx) : Fx :=
  match tfind x.c.jobs tag with
  | none => x
  | some j =>
    match j.wts.swap with
    | none => x
    | some w =>
      let new := w.verified.filter (fun l => !(w.flipped.contains l) && (tfind j.wts.sections l).all tablesIn)
      let done := j.place.layout.all (fun x => if x.sym = j.place.sym then w.flipped.contains x.layer || new.contains x.layer else w.far.contains (x.sym, x.layer))
      let lv := new.foldl (fun t l => tset t l w.version) j.wts.layerVer
      let c1 := onJob x.c tag (fun j => { j with wts := { j.wts with
        layerVer := lv, version := if done then w.version else j.wts.version, swap := if done then none else some { w with flipped := w.flipped ++ new, farIn := w.far } } })
      { x with c := c1, layers := x.layers ++ new.map (fun l => (l, w.version)), fins := if done then x.fins ++ [(w.cmd, Status.ok, w.version)] else x.fins }

/-- Requests that RESTART ends, each at the commit of its last old-version step: one whose step is complete, and which no later tick plans under the old version (R102). A retried step has then been taken (R100). -/
def fxRestart (tag tick : Nat) (x : Fx) : Fx :=
  match (tfind x.c.jobs tag).bind (fun j => j.wts.swap) with
  | none => x
  | some w =>
    let x := { x with c := onJob x.c tag (fun j => { j with wts := { j.wts with swap := j.wts.swap.map (fun w => { w with retry := [] }) } }) }
    let old := fun (r : Nat × Req) => r.2.job == tag && (r.2.st == .prompt || r.2.st == .decode) &&
      (side x.c r.1).pos == 0 && (side x.c r.1).version != 0 && (side x.c r.1).version != w.version
    if w.restart && w.barrier.all (fun b => decide (b ≤ tick + 1)) then
      ((x.c.reqs.filter old).map Prod.fst).foldl (fun x i => fxEnd x i .versionChanged false) x
    else x

/-- A resumed request is schedulable from this commit on and binds to the drawer that is current for its adapter now (R107, R111); one whose adapter has left the directory waits for it. -/
def resumeReq (c : Chip) (tag i : Nat) : Chip :=
  let q := req c i
  let go := fun (c : Chip) => onSide (onReq c i (fun q => { q with st := if q.promptDone < q.promptLen then .prompt else .decode })) i (fun s => { s with resuming := false })
  if q.adapter then
    match (tfind c.jobs tag).bind (fun j => (tfind j.wts.dir q.adapterId).map (fun d => (d, (tget Drawer.free j.wts.drawers d).gen))) with
    | some d => go (onReq c i (fun q => { q with drawer := d.1, adapterGen := d.2 }))
    | none => onReq c i (fun q => { q with st := .waitAdapter })
  else go c

/-- Requests whose adapter's fill failed or was refused end at the commit (R110, R270). -/
def fxFailed (x : Fx) (i : Nat) : Fx :=
  match (side x.c i).fail with
  | some st => if (req x.c i).st = .waitAdapter then fxEnd x i st false else x
  | none => x

/-- Everything a commit of an attempt changes on this package (R49); `frees`, `turned`: on a package that does not lead, the entries freed and those that an append turns back to PROMPT (log entry 25). -/
def commitFx (e : Env) (c : Chip) (tag : Nat) (j : Job) (a : Attempt) (frees turned : List Nat) : Fx :=
  let lead := isLead c j
  let flagged := if lead then (c.reqs.filter (fun r => r.2.job == tag && r.2.st != .free && r.2.cancel)).map Prod.fst else []
  let x0 : Fx := ⟨c, [], [], [], [], [], [], []⟩
  let x1 := a.plan.rows.zipIdx.foldl (fxRow e tag j a flagged) x0
  let x2 := flagged.foldl (fun x i => fxEnd x i .cancelled false) x1
  let live := (x2.c.reqs.filter (fun r => r.2.job == tag && r.2.st != .free)).map Prod.fst
  let x3 := live.foldl (fun x i => fxFailed (fxAppend x i) i) x2
  let parked := live.filter (fun i => (req x3.c i).st == .parking && (side x3.c i).parkCopied && (side x3.c i).farCopied)
  let x4 := parked.foldl (fun x i => fxEnd x i .ok true) x3
  let back := fun (c : Chip) (i : Nat) => (side c i).resuming && (side c i).copied && (side c i).farCopied && (req c i).st == .queued
  let x5 := { x4 with c := each live x4.c (fun c i => if back c i then resumeReq c tag i else c) }
  let x6 := fxDrops tag x5
  let ready := ((tfind x6.c.jobs tag).map readyDrawers).getD []
  let x7 := fxDrops tag (ready.foldl (fxCurrent tag) x6)
  let x8 := fxLayers tag (fxRestart tag a.tick x7)
  let turn := fun (x : Fx) (i : Nat) => if (req x.c i).mirror then { x with c := onReq x.c i (fun q => { q with st := .prompt }), touched := x.touched ++ [i] } else x
  let x9 := if lead then x8 else
    frees.foldl (fun x i => { x with c := { x.c with reqs := tset x.c.reqs i (freedReq tag (req x.c i)), sides := tdel x.c.sides i }, touched := x.touched ++ [i] }) (turned.foldl turn x8)
  { x9 with c := settleDrawers x9.c tag }

/-- Entries of a commit that are in PROMPT after it, for the mirrors (R267, R270). -/
def Fx.turned (x : Fx) : List Nat := x.touched.eraseDups.filter (fun i => (req x.c i).st == .prompt)

/-- The tentative state of an unresolved tick, for the plan of the next one (R45, R107). -/
def tentative (e : Env) (c : Chip) (tag : Nat) (j : Job) (a : Attempt) : Chip := (commitFx e c tag j a [] []).c

/-! Digests. -/

/-- Core digest (R347): CRC-64 over the record hashes, by engine code and issue order. -/
def coreDigest (rs : List LogRec) : Nat := crc64 ((sortBy (fun r => r.eng * 2 ^ 32 + r.ord) rs).flatMap (fun r => leBytes 8 r.hash))

/-- Commit-record hash (R348): the entries changed, then layer and drawer flips (their form is the model's, log entry 29). -/
def commitHash (x : Fx) : Nat :=
  let es := sortBy id x.touched.eraseDups
  let st : ReqSt → Nat := fun s => match s with | .free => 0 | .queued => 1 | .waitAdapter => 2 | .ready => 3 | .prompt => 4 | .decode => 5 | .parking => 6
  crc64 (es.flatMap (fun i => let q := req x.c i
      leBytes 1 (st q.st) ++ leBytes 4 q.kvLen ++ leBytes 4 q.step ++ leBytes 4 q.delivered ++ leBytes 4 q.promptDone ++ leBytes 2 q.drawer ++ leBytes 1 q.adapterGen) ++
    (sortBy Prod.fst x.layers).flatMap (fun l => leBytes 2 l.1 ++ leBytes 4 l.2) ++ (sortBy Prod.fst x.drawers).flatMap (fun d => leBytes 2 d.1 ++ leBytes 1 d.2))

/-- Package digest of a committed tick (R348). -/
def packageDigest (tick hash : Nat) (recs : List (Nat × List LogRec)) : Nat :=
  crc64 (leBytes 6 tick ++ leBytes 8 hash ++ (List.range 1024).flatMap (fun i => match tfind recs i with | some r => leBytes 8 (coreDigest r) | none => leBytes 8 0))

/-- A log bank (R350): records beyond entry 2,046 fold into entry 2,047. -/
def bank (rs : List LogRec) : List LogRec :=
  let o := sortBy (fun r => r.eng * 2 ^ 32 + r.ord) rs
  if o.length ≤ 2047 then o
  else o.take 2047 ++ [⟨crc64 ((o.drop 2047).flatMap (fun r => leBytes 8 r.hash)), noLw, engNone, 0⟩]

/-- Keep the log of a committed tick: two banks, the first mismatch of a pairing held (R350). -/
def keepLog (j : Job) (tick hash : Nat) (recs : List (Nat × List LogRec)) : Tab (Nat × List CoreLog) :=
  let held := (j.pair.bind (fun p => p.hold)).getD (2 ^ 48)
  let all := j.log ++ [(tick, (hash, recs.map (fun r => ⟨r.1, coreDigest r.2, bank r.2⟩)))]
  let n := if all.any (fun l => l.1 == held) then 1 else 2
  all.filter (fun l => l.1 == held) ++ (let free := all.filter (fun l => l.1 != held); free.drop (free.length - n))

/-- Compare the two digests of a local tick once both are here (R346, R349): the first mismatch is posted and its log kept, later ones are counted; the start completes after the first comparison. -/
def comparePair (c : Chip) (tag tick : Nat) : Chip :=
  match (tfind c.jobs tag).bind (fun j => j.pair) with
  | none => c
  | some p =>
    match tfind p.own tick, tfind p.theirs tick with
    | some g, some h =>
      let bad := g != h
      let first := if bad && p.firstMiss.isNone then some tick else p.firstMiss
      let q := { p with
        own := tdel p.own tick, theirs := tdel p.theirs tick, compared := some (max tick (p.compared.getD 0)), firstMiss := first
        hold := if bad && p.firstMiss.isNone then some tick else p.hold, misses := p.misses + b2n bad, answered := true }
      let c1 := onJob c tag (fun j => { j with pair := some q })
      let c2 := if bad && p.firstMiss.isNone then jobEvent c1 tag tick 4 0 (leBytes 4 q.misses) else c1
      if p.answered then c2 else finalCmd c2 p.cmd .ok (first.getD 0) 0 0
    | _, _ => c

/-- What a range pair does when a tick commits (R349): the digest leaves in a class-6 frame; more than 256 ticks ahead ends the pair. -/
def pairCommit (c : Chip) (tag tick hash : Nat) (recs : List (Nat × List LogRec)) : Chip :=
  match (tfind c.jobs tag).bind (fun j => j.pair) with
  | none => c
  | some p =>
    if !p.formed || decide (tick < p.since) then c
    else
      let g := packageDigest tick hash recs
      let c1 := emit (onJob c tag (fun j => { j with pair := j.pair.map (fun p => { p with own := tset p.own tick g }) })) (.pair p.port tick g)
      let c2 := comparePair c1 tag tick
      if p.compared.getD p.since + 256 < tick then rangeLost c2 tag 2 else c2

/-! Verdicts. -/

/-- The kinds of job end by status: quarantine (R361). -/
def srcStatus (cause : Nat) : Status := if faultClass cause = 0 then .programFault else .hwFault

/-- Post the records of a commit (R300, R303): tokens, embedding copies, request FINALs, command FINALs. -/
def postCommit (c : Chip) (tick : Nat) (x : Fx) : Chip :=
  let c1 := each x.toks c (fun c t =>
    postRecord c (ringKey t.2.1.part (64 + t.2.1.tokenRing)) false (fun ph =>
      leBytes 2 t.1 ++ leBytes 1 t.2.1.gen ++ leBytes 1 (b2n t.2.2.2.1 + 128 * ph) ++ leBytes 4 t.2.2.2.2.toNat ++ leBytes 4 t.2.2.1 ++ leBytes 4 tick))
  let c2 := each x.embs c1 (fun c b => wr c b.1 b.2)
  let c3 := each x.ends c2 (fun c r => postEnd c r.2.1 r.2.2.1 r.2.2.2.1 r.2.2.2.2)
  each x.fins c3 (fun c f => finalCmd c f.1 f.2.1 f.2.2 0 0)

/-- After the last tick of a stopping job (R309, R373): requests end CANCELLED, pending swaps, fills and trainings end CANCELLED, the job is STOPPED, or killed with everything where UNLOAD is set. -/
def finishStop (c : Chip) (tag : Nat) (s : Stop) : Chip :=
  match tfind c.jobs tag with
  | none => c
  | some j =>
    let c0 := discardAttempts (stopContexts c j) tag (fun _ => true)
    let c1 := each (liveReqs c0 tag) c0 (fun c i => endReqNow c i .cancelled)
    let cut := (c1.cmds.filter (fun m => m.phase == .accepted && [0x03, 0x20, 0x22].contains m.opcode)).map (fun m => m.id)
    let ends := (jobCmds c1 tag).filter (fun x => x != s.cmd)
    let c2 := each (if s.unload then ends else ends.filter (fun x => cut.contains x)) c1
      (fun c x => final c x (if cut.contains x then .cancelled else .partitionKilled))
    let c3 := each (jobCores j) (rangeLost c2 tag 0) (fun c i => onCore c i (fun k => { k with wins := [] }))
    let c4 := onJob { c3 with reqs := c3.reqs.map (fun r => if r.2.job = tag then (r.1, { r.2 with job := 0 }) else r) } tag (fun j => { j with
      st := .stopped, stop := none, capture := none, args := { j.args with reqCount := 0 }
      clearing := s.unload, clearAll := j.clearAll || s.unload, killCmds := if s.unload then j.killCmds ++ [s.cmd] else j.killCmds
      wts := Weights.tidy { j.wts.cutWave with
        trains := [], drawers := j.wts.drawers.map (fun d => if d.2.st = .filling ∨ (d.2.st = .ready ∧ d.2.by_ = .train) then (d.1, Drawer.free) else d) }
      ticks := { j.ticks with announce := none, replayPlan := none, edge := none, planned := none } })
    if s.unload then c4 else finalCmd c4 s.cmd .ok j.ticks.committed 0 0

/-- A job of a halted domain stops once no attempt whose work had ended is left (R31). -/
def haltCheck (c : Chip) (tag : Nat) : Chip :=
  match tfind c.jobs tag with
  | none => c
  | some j =>
    if j.ticks.halt && jobRunning j && !(j.ticks.attempts.any workEnded) then endJob c tag .halted .hwFault else c

/-- Whether the job's last tick has committed (R309): the named last tick, or with DRAIN no request left. -/
def stopDue (c : Chip) (tag : Nat) (s : Stop) (tick : Nat) : Bool :=
  match s.last with
  | some t => decide (t ≤ tick)
  | none => s.drain && (liveReqs c tag).isEmpty

/-- Apply a commit verdict on this package in one step (R48, R49). -/
def applyCommit (e : Env) (c : Chip) (tag : Nat) (a : Attempt) (frees turned : List Nat) : Chip × List Nat × List Nat :=
  match tfind c.jobs tag with
  | none => (c, [], [])
  | some j =>
    let recs := if a.recs = [] then coreRecs c j else a.recs
    let x := commitFx e c tag j a frees turned
    let hash := commitHash x
    let c1 := onJob x.c tag (fun j => { j with
      log := keepLog j a.tick hash recs
      args := { j.args with mNext := j.args.mNext.map (fun m => (m.1, m.2.bind (fun t => if t ≤ a.tick then none else some t))) }
      ticks := { j.ticks with
        committed := a.tick, q := j.ticks.q + 1, commitAt := some c.now, ords := j.ticks.ords.filter (fun o => decide (a.tick < o.1)), fails := 0, sources := [], replayPlan := none
        attempts := j.ticks.attempts.filter (fun b => !(b.tick == a.tick && b.ord == a.ord))
        votes := j.ticks.votes.filter (fun v => !(v.tick == a.tick && v.attempt == a.ord))
        verdicts := (⟨tag, a.tick, a.ord, .commit, x.ends.map (fun r => r.1), 0, 0, 0, x.turned⟩ :: j.ticks.verdicts).take 4 } })
    let c1 := if (newest j).any (fun b => b.tick == a.tick && b.ord == a.ord) then endWindows c1 j else c1
    let c2 := pairCommit (postCommit c1 a.tick x) tag a.tick hash recs
    let c3 := match (tfind c2.jobs tag).bind (fun j => j.stop) with
      | some s => if stopDue c2 tag s a.tick then finishStop c2 tag s else c2
      | none => c2
    (haltCheck c3 tag, x.ends.map (fun r => r.1), x.turned)

/-- Announce an edge of a job (R53, R54): the due edge and the offset of a cycle from it. -/
def announceAt (c : Chip) (tag : Nat) (k : EdgeKind) (tick t : Nat) : Chip :=
  let a : Announce := ⟨tag, k, tick, c.beacon.tick, t - c.beacon.firedAt.getD 0⟩
  sendBeacon (setTicks c tag (fun x => { x with announce := some a })) (.announce a)

/-- The deferred edge j+1 after a held tick commits (R53): the first base edge at least d link hops + 0.1 µs later. -/
def announceDeferred (c : Chip) (tag tick : Nat) : Chip :=
  match tfind c.jobs tag with
  | none => c
  | some j =>
    let n := edgeAtOrAfter c (c.now + hopsTime j + 130)
    let a : Announce := ⟨tag, .deferred, tick, n, 0⟩
    sendBeacon (setTicks c tag (fun x => { x with announce := some a })) (.announce a)

/-- Sources named by the no votes of an attempt (R359, R360). -/
def votedSources (j : Job) (a : Attempt) : List (Nat × Nat × Nat) :=
  (j.ticks.votes.filter (fun v => v.tick == a.tick && v.attempt == a.ord && !v.yes && v.cause != 0xFF && v.cause != 0)).map (fun v => (v.pkg, v.cause, v.loc))

/-- Counts of sources after an abort (R360): those named rise by one, all others are cleared; an abort that names none leaves them. -/
def nextSources (old : List Source) (named : List (Nat × Nat × Nat)) : List Source :=
  if named = [] then old
  else named.eraseDups.map (fun s => ⟨s.1, s.2.1, s.2.2, (((old.find? (fun o => o.pkg == s.1 && o.cause == s.2.1 && o.loc == s.2.2)).map (fun o => o.count)).getD 0) + 1⟩)

/-- Post DEADLINE_MISS (R54, R55): cause 0 OVERRUN, 1 ABORT, 2 EDGE_MISSED. -/
def deadlineMiss (c : Chip) (tag tick cause fcode floc : Nat) (restart : Bool) : Chip :=
  onJob (jobEvent c tag tick 1 0 (leBytes 1 cause ++ leBytes 1 fcode ++ leBytes 4 floc ++ leBytes 1 (b2n restart))) tag
    (fun j => { j with cnt := { j.cnt with misses := satAdd 32 j.cnt.misses 1 } })

/-- An aborted strict tick in which steps of the old version entered: they are retried on the old weights, and the rewriting waits (R100). -/
def keepOldSteps (a : Attempt) (j : Job) : Job :=
  { j with wts := { j.wts with swap := j.wts.swap.map (fun w =>
      let old := a.plan.steps.filter (fun s => s.pos == 0 && s.version != w.version)
      if w.barrier.any (fun b => decide (b ≤ j.ticks.next)) && old != [] then { w with retry := old.map (fun s => s.entry) } else w) } }

/-- Apply an abort verdict on this package (R45, R52-R56, R309): the attempt and a run-ahead successor are discarded; the mode decides what follows. The verdict carries the cause and the first fault (R55; log entry 54). Consecutive failed attempts count toward the limit of R56, the one that reaches it included (log entry 55). A strict job whose last tick this was stops (log entry 42). A strict member that has fired the next edge and has no plan for it keeps the edge: the lead may have decided before it fired that edge (R32, R54). -/
def applyAbort (c : Chip) (tag : Nat) (a : Attempt) (v : VerdictMsg) : Chip :=
  match tfind c.jobs tag with
  | none => c
  | some j =>
    let ahead := decide (a.tick + 1 < j.ticks.next)
    let named := votedSources j a
    let own : List (Nat × Nat × Nat) := if a.faulted && a.cause != 0xFF then [(c.beacon.pkg, a.cause, a.loc)] else []
    let c1 := discardAttempts c tag (fun b => decide (a.tick ≤ b.tick))
    let c2 := setTicks c1 tag (fun t => { t with
      fails := t.fails + 1
      sources := nextSources t.sources (if isLead c j then named else own)
      verdicts := (v :: t.verdicts).take 4
      replayPlan := if j.args.strict then none else some a.plan
      edge := if j.args.strict && !(isLead c j) then t.edge else none
      planned := none
      due := if ahead && !j.args.strict then t.due - j.args.m else t.due
      next := if ahead && !j.args.strict then a.tick + 1 else t.next })
    let c2 := if j.args.strict then onJob c2 tag (keepOldSteps a) else c2
    let fcode := if v.cause = 0xFF then 0 else v.cause
    let floc := if v.cause = 0xFF then 0 else v.loc
    let c3 := if j.args.strict then
        deadlineMiss c2 tag a.tick (if fcode = 0x1B then 0 else if v.cause = 0xFF then 2 else 1) fcode floc ahead
      else c2
    if j.args.abortLimit ≤ j.ticks.fails + 1 then
      let c4 := jobEvent c3 tag a.tick 10 0 (leBytes 4 (j.ticks.fails + 1) ++ leBytes 4 j.args.abortLimit ++ leBytes 1 fcode ++ leBytes 4 floc ++ leBytes 1 (b2n j.args.strict))
      endJob c4 tag .halted .tickAbort
    else if j.ticks.halt then haltCheck c3 tag
    else if j.args.strict && j.stop.any (fun s => stopDue c3 tag s a.tick) then
      (match j.stop with | some s => finishStop c3 tag s | none => c3)
    else if !(isLead c j) then c3
    else
      let t := c.now + hopsTime j + 260
      if !j.args.strict then announceAt c3 tag .replay a.tick t
      else if ahead then announceAt c3 tag .restart (a.tick + 1) t
      else c3

/-- Partitions here that a source quarantines (R360). -/
def quarantined (c : Chip) (j : Job) (v : VerdictMsg) : List Nat :=
  if faultClass v.cause = 0 then j.place.parts
  else if v.srcPkg ≠ c.beacon.pkg then []
  else if faultClass v.cause = 4 then assignedParts c
  else if v.loc < 2 ^ 23 then ((bandPart c (bandOf (v.loc % 1024))).map (fun p => [p])).getD []
  else if v.loc % 2 ^ 16 < 16 then (((List.range 16).filter (fun b => (ctx c (v.loc % 16)).bands.getLsbD b)).filterMap (bandPart c)).eraseDups
  else ((leastOf j.place.parts).map (fun p => [p])).getD []

/-- Flood a verdict toward the other packages of the job (R48). -/
def flood (c : Chip) (v : VerdictMsg) : Chip := sendBeacon c (.verdict v)

/-- Apply an abort with quarantine (R361): another job that spans a quarantined partition stops in the same way on all of its packages, which a verdict of kind kill with a status tells. -/
def applyQuarantine (c : Chip) (tag : Nat) (v : VerdictMsg) : Chip :=
  match tfind c.jobs tag with
  | none => c
  | some j =>
    let ps := quarantined c j v
    let st := srcStatus v.cause
    let hit := (c.jobs.filter (fun k => k.1 == tag || k.2.place.parts.any (fun p => ps.contains p))).map Prod.fst
    let mask := ps.foldl (fun n p => n ||| 2 ^ p) 0
    let c0 := each ps c (fun c p => if (part c p).state = 1 then onPart c p (fun q => { q with state := 3 }) else c)
    each hit c0 (fun c t =>
      match tfind c.jobs t with
      | some k =>
        if k.st = .running ∨ k.st = .stopping then
          let c1 := jobEvent c t v.tick 7 0 (leBytes 1 v.cause ++ leBytes 4 v.loc ++ leBytes 2 mask)
          let at_ := match k.ticks.attempts with | a :: _ => (a.tick, a.ord) | [] => (k.ticks.committed, 0)
          endJob (if t = tag then c1 else flood c1 ⟨t, at_.1, at_.2, .kill, [v.cause, v.loc], v.srcPkg, 0, statusCode st, []⟩) t .killed st
        else c
      | none => c)

/-- Kill a job on this package (R361, R372, R376): a program still loading is removed as with CLEAR_ALL; its commands and requests end with a status. -/
def killAs (c : Chip) (tag : Nat) (clearAll : Bool) (st : Status) : Chip :=
  match tfind c.jobs tag with
  | none => c
  | some j =>
    let all := clearAll || j.clearAll || j.st == .loading
    let c1 := onJob c tag (fun j => { j with clearAll := all })
    if j.clearing then c1 else endJob c1 tag .killed st

def applyKill (c : Chip) (tag : Nat) (clearAll : Bool) : Chip := killAs c tag clearAll .partitionKilled

/-- The coordinator decides the oldest attempt of its job, as far as its votes allow, then the next: a held no at once, a commit no earlier than the cycle after the last commit point (R47, R360). -/
def decideJob : Nat → Env → Chip → Nat → Chip
  | 0, _, c, _ => c
  | fuel + 1, e, c, tag =>
    match tfind c.jobs tag with
    | none => c
    | some j =>
      match j.ticks.attempts with
      | [] => c
      | a :: _ =>
        if !(isLead c j) then c
        else
          let vs := j.ticks.votes.filter (fun v => v.tick == a.tick && v.attempt == a.ord)
          match vs.find? (fun v => !v.yes) with
          | some no =>
            let named := votedSources j a
            match (nextSources j.ticks.sources named).find? (fun s => decide (3 ≤ s.count)) with
            | some s =>
              let v : VerdictMsg := ⟨tag, a.tick, a.ord, .quarantine, [], s.pkg, s.cause, s.loc, []⟩
              applyQuarantine (flood c v) tag v
            | none => let v : VerdictMsg := ⟨tag, a.tick, a.ord, .abort, [], no.pkg, no.cause, no.loc, []⟩; applyAbort (flood c v) tag a v
          | none =>
            if j.ticks.commitAt.all (fun t => decide (t < c.now)) && j.place.pkgs.all (fun p => vs.any (fun v => v.pkg == p)) then
              let r := applyCommit e c tag a [] []
              let c1 := flood r.1 ⟨tag, a.tick, a.ord, .commit, r.2.1, 0, 0, 0, r.2.2⟩
              let c2 := if a.held && (tfind c1.jobs tag).any (fun j => j.st == .running || j.st == .stopping) then announceDeferred c1 tag (a.tick + 1) else c1
              decideJob fuel e c2 tag
            else c

def decide2 (e : Env) (c : Chip) (tag : Nat) : Chip := decideJob 2 e c tag

/-- The coordinator records a vote; a later vote of a package supersedes its earlier one (R47, R52). -/
def recordVote (e : Env) (c : Chip) (v : VoteMsg) : Chip :=
  match tfind c.jobs v.job with
  | none => c
  | some j =>
    if isLead c j && j.ticks.attempts.any (fun a => a.tick == v.tick && a.ord == v.attempt) && j.place.pkgs.contains v.pkg then
      decide2 e (setTicks c v.job (fun t => { t with
        votes := t.votes.filter (fun w => !(w.pkg == v.pkg && w.tick == v.tick && w.attempt == v.attempt)) ++ [v] })) v.job
    else c

/-- A vote of this package: recorded here where it leads, else sent to the lead (R47). -/
def castVote (e : Env) (c : Chip) (tag : Nat) (a : Attempt) (yes : Bool) (cause loc : Nat) : Chip :=
  match tfind c.jobs tag with
  | none => c
  | some j =>
    let v : VoteMsg := ⟨tag, c.beacon.pkg, a.tick, a.ord, yes, cause, loc⟩
    if isLead c j then recordVote e c v else sendTo c tag j.place.lead c.beacon.pkg (fun _ => 0) (.vote v)

/-- A detector that covers an attempt has fired (R44, R52): the package votes no, also after its yes. -/
def noVote (e : Env) (c : Chip) (tag tick ord cause loc : Nat) : Chip :=
  match (tfind c.jobs tag).bind (fun j => j.ticks.attempts.find? (fun a => a.tick == tick && a.ord == ord)) with
  | none => c
  | some a =>
    if a.faulted then c
    else
      let st := if a.st = .votedYes then AttSt.lateNo else .votedNo
      let c1 := setAttempt c tag tick ord (fun a => { a with st := st, faulted := true, cause := cause, loc := loc })
      castVote e c1 tag a false cause loc

end Sys2Proof.Machine
end

