-- ==== Sys2Proof/Machine/Lift.lean ====
section
/-! DEFINITION. From a meaning over the chip to a step: its faults become records and votes, its writes reach memory (15_safety.md R359-R364; 02_beacon.md R44, R52). -/

namespace Sys2Proof.Machine

/-- The attempt that a fault is of: the one it names, else the newest of its job, which the cores run (R45). -/
def attemptOf (c : Chip) (r : Raise) : Option (Nat × Nat) :=
  match r.attempt with
  | some a => some a
  | none => ((tfind c.jobs r.job).bind newest).map (fun a => (a.tick, a.ord))

/-- The attempt of a fault, where it is not resolved. -/
def attemptAt (c : Chip) (r : Raise) : Option Attempt :=
  match attemptOf c r with
  | none => none
  | some t => (tfind c.jobs r.job).bind (fun j => j.ticks.attempts.find? (fun a => a.tick == t.1 && a.ord == t.2))

/-- Count of a source of this package so far (R360). -/
def sourceCount (c : Chip) (r : Raise) : Nat :=
  (((tfind c.jobs r.job).bind (fun j => j.ticks.sources.find? (fun s => s.pkg == c.beacon.pkg && s.cause == r.code && s.loc == r.loc))).map (fun s => s.count)).getD 0

/-- The record of a fault (R363). -/
def recordOf (c : Chip) (r : Raise) : FaultRec :=
  let at_ := attemptAt c r
  let n := if r.covers && at_.any (fun a => !a.faulted) then sourceCount c r + 1 else 0
  let late := r.covers && at_.any (fun a => a.st == .votedYes || a.st == .lateNo)
  { code := r.code
    flags := faultClass r.code + 16 * b2n r.receiver + 32 * b2n r.injected + 64 * b2n (decide (3 ≤ n)) + 128 * b2n late
    engine := r.engine
    attempt := ((attemptOf c r).map Prod.snd).getD 0
    location := r.loc
    lw := r.lw
    job := r.job
    pkg := c.beacon.pkg
    tick := ((attemptOf c r).map Prod.fst).getD 0
    dtick := c.beacon.tick
    address := r.addr
    other := r.other + r.itemA % 2 ^ 32 * 2 ^ 32
    itemA := r.itemA
    itemB := r.itemB
    consec := n }

/-- A fault in hand: its record is posted, and where it covers an attempt the package votes no (R44, R52, R364). -/
def settleFault (e : Env) (c : Chip) (r : Raise) : Chip :=
  let c1 := postFault c (faultPart c r) (recordOf c r)
  if r.covers then
    match attemptOf c r with
    | some t => noVote e c1 r.job t.1 t.2 r.code r.loc
    | none => c1
  else c1

/-- The faults of a command, in the order they were raised. -/
def settleFaults (e : Env) (c : Chip) : Chip := each c.raised { c with raised := [] } (settleFault e)

/-- The chip between commands: nothing of a command is left in hand. -/
def Chip.rest (c : Chip) : Chip := { c with writes := [], clears := [], raised := [] }

/-- Memory after a command: cleared ranges, then its writes in order. -/
def memAfter (m : Memory) (c : Chip) : Memory := (c.clears.foldl (fun m r => m.clear r.1 r.2) m).apply c.writes

/-- What a state shows a meaning beside the chip. -/
def State.env (s : State) : Env := ⟨s.fuses, s.mem⟩

/-- A command acts: its meaning, its faults, its writes. -/
def lift (f : Env → Chip → Chip) (s : State) : Host.Outcome State Fault Refusal :=
  let c := settleFaults s.env (f s.env s.chip)
  .next { s with mem := memAfter s.mem c, chip := c.rest }

end Sys2Proof.Machine
end

