-- ==== Sys2Proof/Machine/Lamps.lean ====
section
/-! DEFINITION. Lamp states of the stacks (17_power.md R387-R394). -/

namespace Sys2Proof.Machine

/-- Longest entry and exit times in cycles (R387): 0.004, 1.0 and 50 µs; 0.008, 1.5 and 100 µs. -/
def lampEntry : Lamp → Nat
  | .lit => 0 | .dim => 5 | .shade => 1300 | .dark => 65000
def lampExitTime : Lamp → Nat
  | .lit => 0 | .dim => 10 | .shade => 1950 | .dark => 130000

/-- Deepest state whose minimum gap fits a gap in cycles (R387, R390). -/
def lampFor (gap : Nat) : Lamp :=
  if 1300000 ≤ gap then .dark else if 13000 ≤ gap then .shade else if 130 ≤ gap then .dim else .lit

/-- Depth of a cap code (R392): 0 DARK, 1 SHADE, 2 DIM, 3 LIT; and the shallower of two states. -/
def lampDepth : Lamp → Nat
  | .lit => 0 | .dim => 1 | .shade => 2 | .dark => 3
def lampOf (n : Nat) : Lamp := match n with | 0 => .lit | 1 => .dim | 2 => .shade | _ => .dark
def capLamp (cap : Nat) (l : Lamp) : Lamp := lampOf (min (lampDepth l) (3 - min cap 3))

/-- Bands of a stack in a mask (R11, R17). -/
def onStack (bands : BitVec 16) (s : Nat) : Bool := bitsOf bands.toNat (4 * s + 3) (4 * s) != 0

/-- Jobs with bands on a stack. -/
def jobsOn (c : Chip) (s : Nat) : List (Nat × Job) := c.jobs.filter (fun p => onStack p.2.place.bands s)

/-- Blocks of a stack that name a job-relative code-table slot and were written against the table it holds: the reference count of the physical slot (R128). -/
def slotRefs (j : Job) (stack rel : Nat) : Nat := (j.wts.sections.map (fun x => tget 0 x.2.refs (128 * stack + rel))).sum

/-- The counts of a job-relative slot over the stacks of the package. -/
def tableRefs (j : Job) (rel : Nat) : Nat := ([0, 1, 2, 3].map (fun s => slotRefs j s rel)).sum

/-- A held table write whose slot is free of references, a program being written, or sections with code tables that a load, a swap wave or a fill has still to write: work that needs LIT (R393). -/
def needsLit (j : Job) : Bool :=
  j.st == .loading || j.wts.held.any (fun h => tableRefs j h.1 == 0) || j.wts.loads.any (fun l => l.tables) ||
    j.wts.swap.any (fun w => w.tabled.any (fun l => !(w.verified.contains l))) || j.wts.drawers.any (fun d => d.2.st == .filling && d.2.tables && !d.2.verified)

/-- Whether a stack may leave LIT (R389): every core of every job has added to its done buoy for its attempt, or has none, and nothing writes its tables. -/
def mayLeave (c : Chip) (s : Nat) : Bool :=
  (jobsOn c s).all (fun p =>
    !(needsLit p.2) && p.2.ticks.edge.isNone &&
      (p.2.ticks.attempts.isEmpty || (newest p.2).any (fun a => a.overrun) ||
        (jobCores p.2).all (fun i => (core c i).doneSaid)))

/-- Earliest known event of a stack (R391): the next job edge or announced edge of its jobs, less WARM. -/
def knownEvent (c : Chip) (s : Nat) : Option Nat :=
  ((jobsOn c s).filter (fun p => jobRunning p.2)).foldl (fun o p =>
    let t := match p.2.ticks.announce with
      | some a => edgeCycle c a.due + a.offset
      | none => edgeCycle c p.2.ticks.due
    let t := t - p.2.hdr.warm
    match o with | none => some t | some x => some (min x t)) none

/-- A state made as shallow as every cap on a stack asks (R392): the device's, those of its running jobs, and DIM while an attempt of a job there is unresolved (R389). -/
def stackCap (c : Chip) (s : Nat) (l : Lamp) : Lamp :=
  let caps := (jobsOn c s).foldl (fun l p => if jobRunning p.2 then capLamp p.2.args.lampCap l else l) (capLamp c.maxCap l)
  if (jobsOn c s).any (fun p => !p.2.ticks.attempts.isEmpty) then lampOf (min (lampDepth caps) 1) else caps

/-- The state that the controller chooses now (R389-R392). -/
def chooseLamp (c : Chip) (s : Nat) : Lamp :=
  if !(mayLeave c s) then .lit
  else stackCap c s (match knownEvent c s with | none => Lamp.dark | some t => lampFor (t - c.now))

/-- Begin a transition to a state. Time from the end of an entry to SHADE or DARK to the end of its exit counts in DEEP_MS. -/
def beginLamp (c : Chip) (s : Nat) (goal : Lamp) : Chip :=
  onLamp c s (fun l =>
    let t := if goal = .lit then lampExitTime l.st else lampEntry goal
    let spent := if 2 ≤ lampDepth l.st then l.deepRem + (c.now + t - l.till) else l.deepRem
    { l with goal := some goal, till := c.now + t, deep := (l.deep + spent / Config.ms) % 2 ^ 24, deepRem := spent % Config.ms })

/-- The controller looks at a stack: from LIT it enters the chosen state, from a deeper one it wakes when its exit is due or a shallower state is chosen, and goes deeper when a deeper one is (R389, R390). -/
def lampReview (c : Chip) (s : Nat) : Chip :=
  let l := lamp c s
  if c.boot.stacksUp.getLsbD s = false ∨ c.boot.failed ∨ l.goal.isSome then c
  else
    let want := chooseLamp c s
    if l.st = .lit then (if want = .lit then c else beginLamp c s want)
    else
      let due := match knownEvent c s with | none => false | some t => decide (t ≤ c.now + lampExitTime l.st)
      if want = .lit ∨ due = true ∨ lampDepth (stackCap c s l.st) < lampDepth l.st then beginLamp c s .lit
      else if lampDepth l.st < lampDepth want then beginLamp c s want
      else c

def lampReviews (c : Chip) : Chip := each [0, 1, 2, 3] c lampReview

/-- Whether every stack with bands of a job is LIT. -/
def jobLit (c : Chip) (j : Job) : Bool :=
  [0, 1, 2, 3].all (fun s => !(onStack j.place.bands s) || ((lamp c s).st == .lit && (lamp c s).goal.isNone))

/-- A known event met while a stack is not LIT is counted there (R394). -/
def countLate (c : Chip) (j : Job) : Chip :=
  each ([0, 1, 2, 3].filter (fun s => onStack j.place.bands s && !((lamp c s).st == .lit && (lamp c s).goal.isNone))) c
    (fun c s => onLamp c s (fun l => { l with late := satAdd 8 l.late 1 }))

end Sys2Proof.Machine
end

