-- ==== Sys2Proof/Machine/Expander.lean ====
section
/-! DEFINITION. Exponent-coded blocks, code tables and the expander (05_expander.md R114-R123). -/

namespace Sys2Proof.Machine

/-- Code-table record fields (R119). -/
def ctFormat (r : List Byte) : Nat := field r 0 1
def ctCount (r : List Byte) : Nat := field r 1 1
def ctEsc (r : List Byte) : Nat := field r 2 1
def ctSym (r : List Byte) (j : Nat) : Nat := field r (4 + j) 1
def ctLen (r : List Byte) (j : Nat) : Nat := field r (0x24 + j / 2) 1 / (if j % 2 = 0 then 1 else 16) % 16

/-- Codewords in position order: length and symbol, the escape (`none`) last (R120). -/
def ctWords (r : List Byte) : List (Nat × Option Nat) :=
  (List.range (ctCount r)).map (fun j => (ctLen r j, some (ctSym r j))) ++ (if ctEsc r = 0 then [] else [(ctEsc r, none)])

/-- A valid table (R119, R120): fields in range, distinct symbols, entries beyond n and reserved bytes zero, at least two codewords, Kraft sum 1. -/
def ctValid (r : List Byte) : Bool :=
  let n := ctCount r
  let syms := (List.range n).map (ctSym r)
  r.length == 64 && decide (ctFormat r ≤ 1) && decide (1 ≤ n) && decide (n ≤ 32) && decide (ctEsc r ≤ 12) &&
  (List.range n).all (fun j => decide (1 ≤ ctLen r j) && decide (ctLen r j ≤ 12) && (ctFormat r == 0 || decide (ctSym r j < 32))) &&
  syms.eraseDups.length == n &&
  ((List.range 32).all (fun j => decide (j < n) || (ctSym r j == 0 && ctLen r j == 0))) &&
  field r 0x34 12 == 0 &&
  decide (2 ≤ (ctWords r).length) &&
  ((ctWords r).map (fun w => 2 ^ (12 - w.1))).sum == 2 ^ 12

/-- Canonical codes (R120): (length, code, symbol), in order of length then position. -/
def ctCodes (r : List Byte) : List (Nat × Nat × Option Nat) :=
  let ws := ctWords r
  let sorted := (List.range 13).flatMap (fun l => ws.filter (fun w => w.1 == l))
  match sorted with
  | [] => []
  | w :: _ =>
    (sorted.foldl (fun (acc : Nat × Nat × List (Nat × Nat × Option Nat)) e =>
      let code := acc.1 * 2 ^ (e.1 - acc.2.1)
      (code + 1, e.1, acc.2.2 ++ [(e.1, code, e.2)])) (0, w.1, [])).2.2

/-- Bits [p, p + l) of a stream of `total` bits held most significant bit first in `v`. -/
def streamBits (v total p l : Nat) : Nat := v / 2 ^ (total - p - l) % 2 ^ l

/-- Decode exponents: one per step of fuel; stops early where the stream ends (R115, R123). -/
def decodeExps : Nat → List (Nat × Nat × Option Nat) → Nat → Nat → Nat → Nat → List Nat
  | 0, _, _, _, _, _ => []
  | fuel + 1, codes, raw, v, total, p =>
    match codes.find? (fun c => decide (p + c.1 ≤ total) && streamBits v total p c.1 == c.2.1) with
    | none => []
    | some (l, _, some s) => s :: decodeExps fuel codes raw v total (p + l)
    | some (l, _, none) =>
      if total < p + l + raw then [] else streamBits v total (p + l) raw :: decodeExps fuel codes raw v total (p + l + raw)

/-- Header of a block (R117). -/
def bhRaw (h : Nat) : Bool := bitOf h 15
def bhTable (h : Nat) : Nat := bitsOf h 11 6
def bhLen (h : Nat) : Nat := bitsOf h 5 0

/-- A valid header for a format (0 BF16, 1 FP16) and a job with `k` slots (R118). -/
def bhValid (fmt k h : Nat) : Bool :=
  bitsOf h 14 12 == 0 &&
  (bhRaw h || bhLen h == 0 ||
    (decide ((if fmt = 0 then 27 else 36) ≤ bhLen h) && decide (bhLen h ≤ 47) && decide (bhTable h < k)))

/-- Granules read (R115, R118). -/
def bhGranules (h : Nat) : Nat := if bhRaw h then 48 else bhLen h

/-- Store rows read (R118). -/
def bhRows (h : Nat) : Nat := if bhRaw h then 12 else cdiv (bhLen h) 4

/-- The 1,536 element codes of a coded block: exponents from the stream, sign and mantissa from the plane; zeros from where the stream ends. -/
def codedBlock (fmt : Nat) (tbl : List Byte) (len : Nat) (bs : List Byte) : List Nat × Bool :=
  let e := if fmt = 0 then len - 24 else len - 33
  let ex := decodeExps 1536 (ctCodes tbl) (if fmt = 0 then 8 else 5) (beNat (bs.take (e * 64))) (e * 512) 0
  let plane := bs.drop (e * 64)
  let sm := unpackBits (if fmt = 0 then 8 else 11) 1536 plane
  let vals := (ex.zip sm).map (fun x =>
    if fmt = 0 then x.2 / 128 * 2 ^ 15 + x.1 % 256 * 128 + x.2 % 128 else x.2 / 1024 * 2 ^ 15 + x.1 % 32 * 1024 + x.2 % 1024)
  (vals ++ List.replicate (1536 - vals.length) 0, decide (ex.length < 1536))

/-- Code table in a job-relative slot of a stack (R127). -/
def tableOf (c : Chip) (j : Job) (stack rel : Nat) : List Byte :=
  (tget (0, []) c.slots (stack * 64 + (j.place.slotMap.getD stack []).getD rel 64)).2

/-- The values of a block, and whether the expander meets EXPANDER_FORMAT (R121-R123); a slot that no table was written to counts as one of another FORMAT (log entry 58). -/
def expandBlock (e : Env) (c : Chip) (j : Job) (i fmt addr hdr : Nat) : List Nat × Bool :=
  let h := rdLE e c hdr 2
  if bhRaw h then (unpackBits 16 1536 (rdBytes e c addr 3072), false)
  else if bhLen h = 0 then (List.replicate 1536 0, false)
  else
    let t := tableOf c j (i / 256) (bhTable h)
    if j.hdr.ctSlots ≤ bhTable h ∨ t = [] ∨ ctFormat t ≠ fmt then (List.replicate 1536 0, true)
    else codedBlock fmt t (bhLen h) (rdBytes e c addr (bhLen h * 64))

/-- Slot and header address of block `t` of a blocks stream (R233). -/
def blockSlot (b : Bind) (t : Nat) : Nat × Nat :=
  let d := parseDesc b.desc
  let base := d.base + b.rotOff
  (base + t * 3072, ((base : Int) + signed 32 d.wrap).toNat + 2 * t)

/-- The row of its block, counted from 0, that holds the last data of group `g` (R115, R122). -/
def groupRow (fmt h g : Nat) : Nat :=
  if bhRaw h then 2 * g + 1
  else if bhLen h = 0 then 0
  else
    let e := if fmt = 0 then bhLen h - 24 else bhLen h - 33
    cdiv (e * 64 + (g + 1) * (if fmt = 0 then 256 else 352)) 256 - 1

/-- A block as the stream engine plans it (R121, R122): its number, the cycle of its first read, its rows, the cycle of each of its groups; before it, in cycle `heads`, the row of the block-length table that holds its header, where that is not in hand. -/
structure BlockPlan where
  block : Nat
  heads : Option Nat
  read : Nat
  rows : Nat
  groups : List Nat
  deriving DecidableEq, Repr

/-- When the blocks of a slot are read and emitted (R121, R122). `hs`: each block's number, header and row of the block-length table; `read`, `prev`: next free read cycle and last emission; `tt`: store-read latency; `held`: the row of headers in hand. -/
def planBlocks (fmt tt : Nat) (hs : List (Nat × Nat × Nat)) (read prev : Nat) (held : Option Nat) : List BlockPlan × Nat × Nat × Option Nat :=
  hs.foldl (fun acc h =>
    let need := acc.2.2.2 != some h.2.2
    let t := if need then acc.2.1 + 1 else acc.2.1
    let n := bhRows h.2.1
    let a0 := t + tt
    let es := (List.range 6).foldl (fun (x : List Nat × Nat) g =>
      let d := if n = 0 then a0 else a0 + min (groupRow fmt h.2.1 g) (n - 1)
      let v := max (max (a0 + 6) (d + 1)) (x.2 + 1)
      (x.1 ++ [v], v)) ([], acc.2.2.1)
    (acc.1 ++ [⟨h.1, if need then some acc.2.1 else none, t, n, es.1⟩], t + n, es.2, some h.2.2)) ([], read, prev, held)

/-- Whether a blocks stream may read its block `t`: of blocks mode, in the core's own slice, block and header declared (R60, R121, R233). -/
def blockOpen (j : Job) (i : Nat) (b : Bind) (t : Nat) : Bool :=
  let p := blockSlot b t
  b.kind == 1 && (parseDesc b.desc).mode == 4 && decide (t < (parseDesc b.desc).n.getD 0 0) && inSlice i p.1 && inSlice i (p.1 + 3071) && spanIn j p.1 3072 &&
    inSlice i p.2 && inSlice i (p.2 + 1) && spanIn j p.2 2

/-- Excess over its budget of the rows of a tile group whose headers begin at `hdr` (R126). -/
def groupExcess (e : Env) (c : Chip) (g : TileGroup) (hdr : Nat) : Nat :=
  ((List.range g.tiles).map (fun t => bhRows (rdLE e c (hdr + 2 * t) 2))).sum - g.budget

/-- Tile groups of a core, of the base or of a drawer, of which block number `q g` of a group `g` begins at an address, each with the address of its headers (R104, R124). -/
def groupsWith (j : Job) (i addr : Nat) (q : TileGroup → Nat) : List (TileGroup × Nat) :=
  let b := i * 2 ^ 24 + j.decl.cab.base
  (j.decl.tiles.filter (fun g => g.core == i && g.base + q g * 3072 == addr)).map (fun g => (g, g.hdr)) ++
    (if addr < b ∨ j.decl.cab.drawers * j.decl.cab.span ≤ addr - b then []
     else (j.decl.cab.groups.filter (fun g => g.core == i && (addr - b) % j.decl.cab.span == g.base + q g * 3072)).map
       (fun g => (g, addr - q g * 3072 - g.base + g.hdr)))

/-- Tile groups whose first block begins at an address. -/
def groupsAt (j : Job) (i addr : Nat) : List (TileGroup × Nat) := groupsWith j i addr (fun _ => 0)

/-- Rows by which the groups that end with the block at an address exceed their budgets, in elastic-length mode (R126). -/
def excessAfter (e : Env) (c : Chip) (j : Job) (i addr : Nat) : Nat :=
  if j.args.elasticLen then ((groupsWith j i addr (fun g => g.tiles - 1)).map (fun g => if g.1.tiles = 0 then 0 else groupExcess e c g.1 g.2)).sum else 0

/-- The expander's part of a slot that issues now: the acts that read its `n` values from the cursor of stream `b` (operand 0), the plan of its blocks, and the core with the expander booked, the headers in hand and the excess of the groups that end (R121, R122, R126; log entry 48). -/
def expandPlan (e : Env) (c : Chip) (j : Job) (i fmt n : Nat) (b : Bind) : List Todo × List BlockPlan × Chip :=
  let first := b.cursor / 1536
  let ts := (List.range ((b.cursor + n - 1) / 1536 + 1 - first)).map (fun t => first + t)
  let k := core c i
  let hdr := fun (t : Nat) => if blockOpen j i b t then rdLE e c (blockSlot b t).2 2 else 0
  let p := planBlocks fmt (Config.storeRead j.hdr.profile) (ts.map (fun t => (t, hdr t, (blockSlot b t).2 / 256))) (max k.xRead (c.now + k.shift)) k.xPrev k.heads
  let acts := p.1.flatMap (fun x =>
    let q := blockSlot b x.block
    (match x.heads with
      | some t => if blockOpen j i b x.block then [(⟨t, .heads q.2 (min (128 - q.2 % 256 / 2) ((parseDesc b.desc).n.getD 0 0 - x.block))⟩ : Todo)] else []
      | none => []) ++
    (List.range x.rows).map (fun r => (⟨x.read + r, .row (q.1 + 256 * r) (min 4 (bhGranules (hdr x.block) - 4 * r))⟩ : Todo)) ++
      [⟨x.read + (max x.rows 1 - 1), .read 0 x.block 1536⟩])
  let late := ((ts.filter (blockOpen j i b)).map (fun t => excessAfter e c j i (blockSlot b t).1)).sum
  (acts, p.1, onCore c i (fun k => { k with xRead := p.2.1, xPrev := p.2.2.1, heads := p.2.2.2, shift := k.shift + late }))

/-- The cycle in which value `v` of the slot that issued with plan `p` leaves the expander. -/
def emitAt (p : List BlockPlan) (cursor v : Nat) : Nat :=
  match p.find? (fun x => x.block == (cursor + v) / 1536) with
  | some x => x.groups.getD ((cursor + v) % 1536 / 256) 0
  | none => 0

/-- In elastic-length mode the excess of a tile group whose first block is read is added to the job's counter (R126). -/
def countExcess (e : Env) (c : Chip) (i addr : Nat) : Chip :=
  match coreJob c i with
  | none => c
  | some j =>
    if j.args.elasticLen then
      let n := ((groupsAt j i addr).map (fun g => groupExcess e c g.1 g.2)).sum
      if n = 0 then c else onJob c (jobOfCore c i) (fun j => { j with cnt := { j.cnt with excessRows := satAdd 32 j.cnt.excessRows n } })
    else c

/-- A block is decoded for operand 0 of a slot in flight, with EXPANDER_FORMAT and the faults of a read (R115, R121, R123, R233). -/
def blockAct (e : Env) (c : Chip) (i : Nat) (f0 : Flight) (fmt t : Nat) : Chip :=
  match coreJob c i, flightOf (core c i) f0.id with
  | some j, some f =>
    match f.ops[0]? with
    | none => c
    | some o =>
      let b := o.bind
      let d := parseDesc b.desc
      let put := fun (c : Chip) (vs : List Nat) =>
        let xs := vs.map (fun v => (⟨v, none, none⟩ : Opnd))
        onFlight c i f.id (fun f => { f with ops := f.ops.set 0 { o with got := o.got ++ (if t = b.cursor / 1536 then xs.drop (b.cursor % 1536) else xs) } })
      if b.kind ≠ 1 ∨ d.mode ≠ 4 then put (flightFault c i engX f .sEncoding d.base 0 0) (List.replicate 1536 0)
      else if d.n.getD 0 0 ≤ t then put (flightFault c i engX f .streamEnd 0 o.sid 0) (List.replicate 1536 0)
      else
        let p := blockSlot b t
        if blockOpen j i b t then
          let x := expandBlock e c j i fmt p.1 p.2
          let c1 := countExcess e c i p.1
          put (if x.2 then flightFault c1 i engX f .expanderFormat p.1 (bhTable (rdLE e c p.2 2)) 0 else c1) x.1
        else put (flightFault c i engX f .addressRange p.1 0 0) (List.replicate 1536 0)
  | _, _ => c

/-- `n` block headers are read in one store access: their SEC-DED and bond checks (R121, R355, R356). -/
def headsAct (c : Chip) (i : Nat) (f : Flight) (a n : Nat) : Chip :=
  let as := (List.range n).map (fun q => a + 2 * q)
  bondCheck (readCheck c i engX f.slot.lw as) i engX f.slot.lw as

/-- `n` granules of a store row reach the expander: their SEC-DED and bond checks (R63, R121, R355, R356). -/
def rowAct (c : Chip) (i : Nat) (f : Flight) (a n : Nat) : Chip :=
  let as := (List.range (4 * n)).map (fun q => a + 16 * q)
  bondCheck (readCheck c i engX f.slot.lw as) i engX f.slot.lw as

end Sys2Proof.Machine
end

