-- ==== Sys2Proof/Machine/Matrix.lean ====
section
/-! DEFINITION. M slots: tile loads, uses, outer products, drains and merges (07_matrix.md). A slot that issues is in flight until its last vector, row or record is through (R160-R175). -/

namespace Sys2Proof.Machine

def mq (arr : Nat) : Queue := if arr = 0 then .m0 else .m1

/-- Codes of a non-MX or MX tile read as bytes in logical-row order, with a scale per row (R158). -/
def tileCodes (fmt : Nat) (bs : List Byte) : List Nat × List (Option Nat) :=
  let rows := 48 * cellQ fmt
  if isMx fmt then
    (unpackBits (elemWidth fmt) (rows * 32) (bs.drop rows), (List.range rows).map (fun r => some (field bs r 1)))
  else (unpackBits (elemWidth fmt) (rows * 32) bs, List.replicate rows none)

/-- A tile from its codes and scales: the sums of the checksum column and row are formed from the loaded data (R174, R178). -/
def mkTile (fmt : Nat) (codes : List Nat) (scales : List (Option Nat)) (term : Int) : Tile :=
  let vals := codes.zipIdx.map (fun x => opVal fmt ⟨x.1, scales.getD (x.2 / 32) none, none⟩)
  let rows := chunks 32 vals
  ⟨fmt, vals, rows.map exactSum, (List.range 32).map (fun col => exactSum (rows.map (fun r => r.getD col (.fin false 0 0)))), term⟩

/-- A struck weight register (R179) or a WEIGHT_REG injection (R367): the selected bit of one weight flips in the register, not in the checksum. -/
def flipWeight (fmt : Nat) (codes : List Nat) (scales : List (Option Nat)) (sel : Nat) (t : Tile) : Tile :=
  let row := bitsOf sel 6 1 * cellQ fmt
  let ix := row * 32 + bitsOf sel 11 7
  let bit := bitsOf sel 15 12
  { t with weights := t.weights.set ix (opVal fmt ⟨(codes.getD ix 0) ^^^ 2 ^ bit, scales.getD row none, none⟩) }

/-- Elements of the tile's stream that load group `g` needs, from element 0 up (R165): those of its eight cell rows; an MX tile's scale bytes come first. -/
def groupNeed (fmt g : Nat) : Nat :=
  let rows := 8 * (g + 1) * cellQ fmt
  if isMx fmt then 48 * cellQ fmt + rows * 32 * elemWidth fmt / 8 else rows * 32

/-- Elements in runs of which each reads at most `m` lines of `z` bytes that no run before it has read: first element and count of each, in order (R63, R165). -/
def splitRuns (z m : Nat) (lines : List (List Nat)) : List (Nat × Nat) :=
  (lines.zipIdx.foldl (fun (acc : List (Nat × Nat) × List Nat × List Nat) x =>
    let new := (distinct (x.1.map (· / z))).filter (fun l => !(acc.2.1.contains l))
    let cur := distinct (acc.2.2 ++ new)
    match acc.1 with
    | [] => ([(x.2, 1)], [], cur)
    | p :: r => if cur.length ≤ m then ((p.1, p.2 + 1) :: r, acc.2.1, cur)
        else ((x.2, 1) :: p :: r, acc.2.1 ++ acc.2.2, new.filter (fun l => !(acc.2.2.contains l)))) ([], [], [])).1.reverse

/-- The cycle from which each load group is in hand (R165): one cycle after `arr` of the run that brings its last element, and after the group before. -/
def handTimes (fmt : Nat) (runs : List (Nat × Nat × Nat)) : List Nat :=
  ((List.range 6).foldl (fun (acc : List Nat × Nat) g =>
    let last := groupNeed fmt g - 1
    let at_ := match runs.find? (fun r => decide (r.1 ≤ last) && decide (last < r.1 + r.2.1)) with | some r => r.2.2 | none => 0
    let v := max (at_ + 1) (acc.2 + 1)
    (acc.1 ++ [v], v)) ([], 0)).1

/-- MLOAD (R163-R165, R180): the shadow is taken, the tile's data is read in its cycles, and its groups are in hand as its source delivers them; with LSRC 2 that is two cycles after the cycle that reads a group's last line: one for the read, one as R165 says (DESIGN CHOICE, log entry 87). -/
def mload (e : Env) (arr : Nat) (c : Chip) (i : Nat) (s : QSlot) : Chip :=
  let w := s.w
  let fmt := sf w 57 54
  let src := sf w 53 52
  let ls := sf w 51 47
  let ts := sf w 46 42
  let a := arrOf (core c i) arr
  if 14 ≤ fmt ∨ src = 3 ∨ (src = 1 ∧ 2 ≤ fmt) then coreFault c i arr s.lw .mEncoding 0 0 0
  else if a.shadow.isSome then coreFault c i arr s.lw .shadowFull 0 0 0
  else
    let k := claim c i arr s.lw 1 (if src = 2 then [ls, ts] else [ls])
    if !k.1 then k.2
    else
      match coreJob c i with
      | none => c
      | some j =>
        let b := bindOf (streamOf (core c i) ls) c.now
        let w1 := if isMx fmt then 8 else elemWidth fmt
        let n := if src = 1 then 1536 else if isMx fmt then 48 * cellQ fmt + 48 * cellQ fmt * 32 * elemWidth fmt / 8 else 48 * cellQ fmt * 32
        let id := (core c i).nextId
        let os := opList (core c i) c.now ((ls, w1, none, if src = 2 then .nearOnly else .own) :: (if src = 2 then [(ts, 8, none, .nearOnly)] else []))
        let r : List Todo × List Nat × Chip :=
          if src = 1 then
            let x := expandPlan e c j i fmt 1536 b
            (x.1, (x.2.1.head?.map (fun y => y.groups)).getD [], x.2.2)
          else
            let f : Flight := ⟨id, s, 0, arr, c.now, os.1, 0, [], [], [], [], 0⟩
            let ls := (List.range n).map (fun q => elemBytes w1 (match os.1[0]? with | some o => placeOf j i f o q | none => .ended))
            let runs := if src = 0 then splitRuns 256 1 ls else splitRuns 64 4 ls
            let t0 := if src = 0 then max (c.now + (core c i).shift) (core c i).xRead else c.now
            let lat := if src = 0 then Config.storeRead j.hdr.profile else 1
            (runs.zipIdx.flatMap (fun x => readsOf os.1 0 (t0 + x.2) x.1.1 x.1.2),
             handTimes fmt (runs.zipIdx.map (fun x => (x.1.1, x.1.2, t0 + x.2 + lat))),
             if src = 0 then onCore c i (fun k => { k with xRead := t0 + runs.length }) else c)
        let done := r.1.foldl (fun t x => max t x.at_) c.now
        let c1 := if src = 2 then advance (advance r.2.2 i ls w1 none n) i ts 8 none 1 else advance r.2.2 i ls w1 none n
        let acts := r.1 ++ (if src = 2 then readsOf os.1 (os.2.getD 1 1) c.now 0 1 else []) ++ [⟨done, .calc 0⟩]
        let c2 := takeOff c1 i arr s os.1 os.1.length acts [] id
        onArr c2 i arr (fun a => { a with shadow := some id, tiles := tset a.tiles id ⟨fmt, [], [], [], -128⟩, loads := a.loads ++ [⟨id, r.2.1, 0, 0⟩] })

/-- Weight registers of array `arr` that are struck after its next load (R179). -/
def weightHits (k : Core) (arr : Nat) : List Nat :=
  k.upsets.filterMap (fun u => match u.1 with | .weight s => if s % 2 = arr then some s else none | _ => none)
def dropWeights (arr : Nat) (k : Core) : Core :=
  { k with upsets := k.upsets.filter (fun u => match u.1 with | .weight s => s % 2 != arr | _ => true) }

/-- The data of a load has been read (R140, R158, R165, R178): the tile, with its weight term. An address that starts no loaded tile has the term byte 0 (DESIGN CHOICE, log entry 82). -/
def loadCalc (c : Chip) (i : Nat) (f : Flight) : Chip :=
  let arr := f.eng
  let w := f.slot.w
  let fmt := sf w 57 54
  let src := sf w 53 52
  match coreJob c i with
  | none => c
  | some j =>
    let rows := 48 * cellQ fmt
    let n := if src ≠ 1 ∧ isMx fmt = true then rows + rows * 32 * elemWidth fmt / 8 else rows * 32
    let xs := (taken f 0 0 n).map (fun o => o.code)
    let r : List Nat × List (Option Nat) :=
      if src ≠ 1 ∧ isMx fmt = true then tileCodes fmt (xs.map (fun x => BitVec.ofNat 8 x)) else (xs, List.replicate rows none)
    let addr := match f.ops[0]? with
      | none => 0
      | some o => if src = 1 then (blockSlot o.bind (o.bind.cursor / 1536)).1 else match placeOf j i f o 0 with | .place bit _ => bit / 8 | _ => 0
    let term : Int := if src = 2 then (((taken f (f.ops.length - 1) 0 1).headD Opnd.zero).code : Int) - 128 else ((tget 0 j.wts.terms addr : Nat) : Int) - 128
    let tile0 := mkTile fmt r.1 r.2 term
    let inj := armedFor c 4 i && c.safe.injSel.toNat % 2 == arr
    let hits := (if inj then [c.safe.injSel.toNat] else []) ++ weightHits (core c i) arr
    let tile := hits.foldl (fun t sel => flipWeight fmt r.1 r.2 sel t) tile0
    onArr (onCore (if inj then injectFired c else c) i (dropWeights arr)) i arr (fun a => if (tfind a.tiles f.tile).isSome then { a with tiles := tset a.tiles f.tile tile } else a)

/-- Product of a weight and an activation. -/
def prods (xs ws : List Val) : List (Val × Bool) := (xs.zip ws).map (fun p => valMul p.1 p.2)

/-- One column's sum of a use on its own: the lane from zero under the anchor. -/
def useLane (big : Bool) (anchor : Int) (ps : List (Val × Bool)) : Lane :=
  ps.foldl (accProduct big) { Lane.zero with anchor := anchor, live := true }

/-- Units of the checksum column: every product truncated and added exactly, none limited (R178); the truth value says that one was truncated. -/
def checkUnits (anchor : Int) (ps : List (Val × Bool)) : Int × Bool :=
  ps.foldl (fun acc p => match p.1 with
    | .fin s m e => let u := toUnits anchor m e; (if s then acc.1 - u.1 else acc.1 + u.1, acc.2 || u.2)
    | _ => acc) (0, false)

/-- The comparison of R178: skipped, passed, or failed with D. -/
inductive Check where
  | skipped | passed | failed (d : Int)
  deriving DecidableEq, Repr

def compareSums (lanes : List Lane) (chk : Int × Bool) (bound : Nat) : Check :=
  if lanes.any (fun l => laneSpecial l || l.ovf) then .skipped
  else
    let d := (lanes.map (fun l => l.sum.toInt)).sum - chk.1
    let cut := chk.2 || lanes.any (fun l => l.inexact)
    if (cut && decide (d.natAbs < bound)) || (!cut && decide (d = 0)) then .passed else .failed d

/-- MATRIX_CHECKSUM or a skipped comparison of vector or row `t` (R178, R179). -/
def noteCheck (c : Chip) (i arr lw t : Nat) (k : Check) : Chip :=
  match k with
  | .passed => c
  | .skipped => onJob c (jobOfCore c i) (fun j => { j with cnt := { j.cnt with skips := satAdd 32 j.cnt.skips 1 } })
  | .failed d => coreFault c i arr lw .matrixChecksum 0 t (unsigned 64 d)

/-- Add one lane of a use or of records into a lane of an entry (R148, R161): where the anchors differ it is ANCHOR_MISMATCH, and the lane keeps what it held (log entry 78). -/
def addLane (c : Chip) (i arr lw x : Nat) (old new : Lane) : Lane × Chip :=
  match laneAdd old new with
  | some l => (l, c)
  | none => (old, coreFault c i arr lw .anchorMismatch 0 x (unsigned 11 old.anchor + unsigned 11 new.anchor * 2 ^ 16))

/-- Add lanes from lane `x` of an entry on (R148, R161). -/
def addLanes (c : Chip) (i arr lw x : Nat) (old new : List Lane) : List Lane × Chip :=
  new.zipIdx.foldl (fun (acc : List Lane × Chip) n =>
    let y := x + n.2
    let r := addLane acc.2 i arr lw y (acc.1.getD y Lane.zero) n.1
    ((acc.1 ++ List.replicate (y + 1 - acc.1.length) Lane.zero).set y r.1, r.2)) (old, c)

/-- Tags of a use: 2-byte elements whose bits [9:0] are the term (R169). -/
def tagTerms (os : List Opnd) : List Int := os.map (fun o => signed 10 (o.code % 1024))

/-- Whether a datapath of R176 is absent: the grade, or the declared set (bit 4 TRANS, bit 5 backward; R242, R262). -/
def pathAbsent (e : Env) (c : Chip) (i bit : Nat) : Bool :=
  e.fuses.gradeC || (match coreJob c i with | none => false | some j => !(bitOf j.hdr.engines bit))

/-- The exact sum of one column, or of one row in transposed reading, for a vector (R157, R174). -/
def useSum (t : Tile) (trans : Bool) (a : Int) (xs : List Val) (x : Nat) : Lane :=
  let rows := chunks 32 t.weights
  useLane true a (prods xs (if trans then rows.getD x [] else rows.map (fun r => r.getD x (.fin false 0 0))))

/-- The comparison of a vector (R174, R178). -/
def useCheck (t : Tile) (trans : Bool) (a : Int) (xs : List Val) : Check :=
  compareSums ((List.range (if trans then 48 else 32)).map (useSum t trans a xs)) (checkUnits a (prods xs (if trans then t.colSums else t.sums)))
    (33 * (if trans then 32 else 48 * cellQ t.fmt))

/-- Vectors of a slot enter the wave of their array: vector t nominally at `entry` + t × `kk` (R160). -/
def enterWave (a : MArray) (id entry kk n : Nat) : MArray :=
  { a with wave := a.wave ++ (List.range n).map (fun t => ⟨id, t, entry + t * kk, kk, [], 0⟩), ready := entry - 2 + n * kk }

/-- MUSE (R160-R163, R167-R174, R180, R181): an invalid field is M_ENCODING before a COUNT of 0 is looked at (log entry 79); it claims its streams and, with SWAP, the shadow; its vectors enter the wave. With FSRC 1 and an AFMT that is neither BF16 nor binary16 the blocks are decoded as BF16 (log entry 62). -/
def muse (e : Env) (arr : Nat) (c : Chip) (i : Nat) (s : QSlot) : Chip :=
  let w := s.w
  let afmt := sf w 57 54
  let ofmt := sf w 53 51
  let swap := sf w 50 50 = 1
  let trans := sf w 49 49 == 1
  let fin := sf w 47 47 == 1
  let fpl := sf w 45 45 == 1
  let n := sf w 38 32
  let fs := sf w 31 27
  let fsrc := sf w 26 25
  let ts := sf w 24 20
  let os := sf w 19 15
  let ps := sf w 14 10
  let a := arrOf (core c i) arr
  let tid := if swap then a.shadow else a.active
  let tfmt := match tid.bind (tfind a.tiles) with | some t => t.fmt | none => 0
  if trans && pathAbsent e c i 4 then coreFault c i arr s.lw .engineAbsent 0 0 0
  else if 14 ≤ afmt ∨ fsrc = 3 ∨ 65 ≤ n ∨ (fin = true ∧ ofmt = 7) ∨ (trans = true ∧ cellQ tfmt = 2) then
    coreFault c i arr s.lw .mEncoding 0 0 0
  else if n = 0 then c
  else match tid, coreJob c i with
    | none, _ => coreFault c i arr s.lw .tileInvalid 0 0 0
    | some _, none => c
    | some t, some j =>
      let sids := [fs, ts] ++ (if fin then [os] else []) ++ (if fin && fpl then [ps] else [])
      let k := claim c i arr s.lw n sids
      if !k.1 then k.2
      else
        let q := cellQ tfmt
        let len := if trans then 32 else 48 * q
        let fmt := if fsrc = 1 ∧ 2 ≤ afmt then 0 else afmt
        let mx := if isMx fmt ∧ fsrc ≠ 1 then some fmt else none
        let kk := useCycle q (widest tfmt afmt)
        let lanes := if trans then 48 else 32
        let ow := outBits ofmt
        let xs := opList (core c i) c.now ([(fs, elemWidth fmt, mx, .nearOnly), (ts, 16, none, .nearOnly)] ++
          (if fin then [(os, ow, none, .own)] else []) ++ (if fin && fpl then [(ps, 2, none, .own)] else []))
        let tg := xs.2.getD 1 1
        let tags := (List.range n).flatMap (fun t => readsOf xs.1 tg (c.now + t * kk) t 1)
        let feed : List Todo × List Nat × Chip :=
          if fsrc = 1 then
            let b := bindOf (streamOf (core c i) fs) c.now
            let x := expandPlan e c j i fmt (n * len) b
            (x.1, (List.range n).map (fun t => emitAt x.2.1 b.cursor (t * len + len - 1)), x.2.2)
          else if fsrc = 2 then ([], [], c)
          else ((List.range n).flatMap (fun t => readsOf xs.1 0 (c.now + t * kk) (t * len) len), (List.range n).map (fun t => c.now + t * kk + 1), c)
        let id := (core c i).nextId
        let c1 := takeOff feed.2.2 i arr s xs.1 (xs.2.getD 2 xs.1.length) (feed.1 ++ tags ++ [⟨0, .stay⟩]) [feed.2.1, [0], []] t
        let c2 := onArr c1 i arr (fun a => enterWave (if swap then { a with active := a.shadow, shadow := none } else a) id (c.now + 2) kk n)
        let c3 := advance (advance c2 i fs (elemWidth fmt) mx (n * len)) i ts 16 none n
        if fin then
          let c4 := advance c3 i os ow none (n * lanes)
          if fpl then advance c4 i ps 2 none (n * lanes) else c4
        else c3

/-- MOUTER (R175, R180, R181): every working cell accumulates x_t[r] × d_t[c], the checksum cell x_t[r] × Σ_c d_t[c]; tokens enter the wave as vectors do. -/
def mouter (e : Env) (arr : Nat) (c : Chip) (i : Nat) (s : QSlot) : Chip :=
  let w := s.w
  let af := sf w 57 54
  let df := sf w 53 50
  let n := sf w 48 42
  let fs := sf w 41 37
  let cs := sf w 36 32
  let ts := sf w 31 27
  if pathAbsent e c i 5 then coreFault c i arr s.lw .engineAbsent 0 0 0
  else if 14 ≤ af ∨ 14 ≤ df ∨ 65 ≤ n then coreFault c i arr s.lw .mEncoding 0 0 0
  else if n = 0 then c
  else
    let k := claim c i arr s.lw n [fs, cs, ts]
    if !k.1 then k.2
    else
      let mx := fun f => if isMx f then some f else none
      let kk := if 8 < widest af df then 2 else 1
      let xs := opList (core c i) c.now [(fs, elemWidth af, mx af, .nearOnly), (cs, elemWidth df, mx df, .nearOnly), (ts, 16, none, .nearOnly)]
      let acts := readsOf xs.1 (xs.2.getD 2 2) c.now 0 2 ++ (List.range n).flatMap (fun t =>
        readsOf xs.1 0 (c.now + t * kk) (t * 48) 48 ++ readsOf xs.1 (xs.2.getD 1 1) (c.now + t * kk) (t * 32) 32)
      let id := (core c i).nextId
      let c1 := takeOff c i arr s xs.1 xs.1.length (acts ++ [⟨0, .stay⟩]) [(List.range n).map (fun t => c.now + t * kk + 1), [0], []] 0
      let c2 := onArr c1 i arr (fun a => enterWave a id (c.now + 2) kk n)
      advance (advance (advance c2 i fs (elemWidth af) (mx af) (n * 48)) i cs (elemWidth df) (mx df) (n * 32)) i ts 16 none 2

/-- Lanes that an entry will hold once every slot before now has taken effect (R161, R174, R182); 0 for none. -/
def lanesAhead (k : Core) (arr ent : Nat) : Nat :=
  let a := arrOf k arr
  let now := if a.drains.any (fun d => !d.cells && d.place == ent) then 0 else (tget [] a.acc ent).length
  (k.flights.filter (fun f => f.eng == arr)).foldl (fun n f =>
    if opOf f.slot.w = 2 then
      (if a.wave.any (fun v => v.fl == f.id && accEntry f v.t == ent && decide (v.cols < lanesOf f)) then
        (if sf f.slot.w 47 47 = 1 then 0 else if sf f.slot.w 48 48 = 1 then max n (lanesOf f) else lanesOf f) else n)
    else if opOf f.slot.w = 5 then
      (if f.todo.any (fun t => match t.act with | .calc u => (sf f.slot.w 51 46 + u) % 64 == ent | _ => false) then
        (if sf f.slot.w 57 57 = 1 then 0 else max n (if sf f.slot.w 38 38 = 1 then 48 else 32)) else n)
    else n) now

/-- MDRAIN (R161, R175, R178, R181, R182): entries, or rows of cells, queue for the drain behind what the slots before it still bring. An entry that holds nothing leaves 32 zero outputs (log entry 80). -/
def mdrain (e : Env) (arr : Nat) (c : Chip) (i : Nat) (s : QSlot) : Chip :=
  let w := s.w
  let ofmt := sf w 57 55
  let cells := sf w 54 54 = 1
  let fpl := sf w 52 52 == 1
  let n := sf w 45 39
  let os := sf w 38 34
  let ps := sf w 33 29
  if cells ∧ pathAbsent e c i 5 = true then coreFault c i arr s.lw .engineAbsent 0 0 0
  else if ofmt = 7 ∨ (if cells then 48 else 64) < n then coreFault c i arr s.lw .mEncoding 0 0 0
  else if n = 0 then c
  else
    let k := claim c i arr s.lw n ([os] ++ (if fpl then [ps] else []))
    if !k.1 then k.2
    else
      let ow := outBits ofmt
      let xs := opList (core c i) c.now ((os, ow, none, .own) :: (if fpl then [(ps, 2, none, .own)] else []))
      let id := (core c i).nextId
      let place := fun (t : Nat) => if cells then t else (sf w 51 46 + t) % 64
      let outs := if cells then n * 32 else ((List.range n).map (fun t => match lanesAhead (core c i) arr (place t) with | 0 => 32 | l => l)).sum
      let c1 := takeOff c i arr s xs.1 0 [⟨0, .stay⟩] [[], [0], []] 0
      let c2 := onArr c1 i arr (fun a => { a with drains := a.drains ++ (List.range n).map (fun t => ⟨id, t, place t, cells, none, 0⟩) })
      let c3 := occupy c2 i (mq arr) (n * (if ofmt = 6 then 3 else 1))
      let c4 := advance c3 i os ow none outs
      if fpl then advance c4 i ps 2 none outs else c4

/-- MMERGE (R148, R162, R181): records are read 256 B a cycle, 32 in 3 cycles, and added into their entries. -/
def mmerge (_e : Env) (arr : Nat) (c : Chip) (i : Nat) (s : QSlot) : Chip :=
  let w := s.w
  let fin := sf w 57 57 == 1
  let ofmt := sf w 56 54
  let fpl := sf w 52 52 == 1
  let n := sf w 45 39
  let wide := if sf w 38 38 = 1 then 48 else 32
  let rs := sf w 37 33
  let os := sf w 32 28
  let ps := sf w 27 23
  if 65 ≤ n ∨ (fin = true ∧ ofmt = 7) then coreFault c i arr s.lw .mEncoding 0 0 0
  else if n = 0 then c
  else
    let k := claim c i arr s.lw n ([rs] ++ (if fin then [os] else []) ++ (if fin && fpl then [ps] else []))
    if !k.1 then k.2
    else
      let ow := outBits ofmt
      let xs := opList (core c i) c.now ((rs, 192, none, .nearOnly) :: (if fin then [(os, ow, none, .own)] else []) ++ (if fin && fpl then [(ps, 2, none, .own)] else []))
      let total := cdiv (n * wide * 24) 256
      let cut := fun (b : Nat) => min (n * wide) (256 * b / 24)
      let reads := (List.range total).flatMap (fun b =>
        let lo := cut b
        let hi := if b + 1 = total then n * wide else cut (b + 1)
        readsOf xs.1 0 (c.now + b) lo (hi - lo))
      let adds := (List.range n).map (fun t => (⟨c.now + cdiv ((t + 1) * wide * 24) 256 - 1, .calc t⟩ : Todo))
      let c1 := takeOff c i arr s xs.1 (xs.2.getD 1 xs.1.length) (reads ++ adds ++ [⟨0, .stay⟩]) [[], [0], []] 0
      let c2 := occupy (advance c1 i rs 192 none (n * wide)) i (mq arr) total
      if fin then
        let c3 := advance c2 i os ow none (n * wide)
        if fpl then advance c3 i ps 2 none (n * wide) else c3
      else c2

/-! What an array does in a cycle. -/

/-- Values of one vector from operand `o` in a format. -/
def vecVals (f : Flight) (o fmt k n : Nat) : List Val := (taken f o k n).map (opVal fmt)

/-- A drain takes its place in slot order (R182). -/
def queueDrain (a : MArray) (d : Drain) : MArray := { a with drains := sortBy (fun x => x.fl * 128 + x.t) (a.drains ++ [d]) }

/-- What a vector of a use brings (R142, R159, R169): its tile, its anchor, its elements. -/
def useOf (a : MArray) (f : Flight) (v : Vec) : Option (Tile × Int × List Val) :=
  let w := f.slot.w
  (tfind a.tiles f.tile).map (fun t =>
    let len := feedLen a f
    let fmt := if sf w 26 25 = 1 ∧ 2 ≤ sf w 57 54 then 0 else sf w 57 54
    let tag := (tagTerms (taken f ((f.ops.findIdx? (fun o => o.sid == sf w 24 20 && o.w == 16 && o.mx.isNone)).getD 1) v.t 1)).headD 0
    (t, t.term + tag, vecVals f 0 fmt (v.t * len) len))

/-- The next `n` sums of vector `v` of a use are added into its entry, and with FIN go on to the drain two cycles later (R148, R160, R161, R174). -/
def addSums (c : Chip) (i arr : Nat) (f : Flight) (v : Vec) (n : Nat) : Chip :=
  let a := arrOf (core c i) arr
  let w := f.slot.w
  match useOf a f v with
  | none => c
  | some u =>
    let ent := accEntry f v.t
    let new := (List.range n).map (fun x => useSum u.1 (transUse f) u.2.1 u.2.2 (v.cols + x))
    let r := addLanes c i arr f.slot.lw v.cols (if v.cols = 0 ∧ sf w 48 48 = 0 then [] else tget [] a.acc ent) new
    let ins := List.replicate n (c.now + 2)
    onArr r.2 i arr (fun a =>
      let a1 := { a with acc := tset a.acc ent r.1 }
      if sf w 47 47 = 0 then a1
      else if v.cols = 0 then queueDrain a1 ⟨v.fl, v.t, ent, false, some ins, 0⟩
      else { a1 with drains := a1.drains.map (fun d => if d.fl = v.fl ∧ d.t = v.t then { d with ins := d.ins.map (· ++ ins) } else d) })

/-- The next `n` rows of cells take their products of token `v` of an outer product (R175): ANCHOR_MISMATCH where a continuing one has another anchor, and the row keeps what it held. -/
def addRows (c : Chip) (i arr : Nat) (f : Flight) (v : Vec) (n : Nat) : Chip :=
  let w := f.slot.w
  let dOp := match f.ops[0]? with | some o => if o.ix.isSome then 2 else 1 | none => 1
  let anchor := (tagTerms (taken f ((f.ops.findIdx? (fun o => o.sid == sf w 31 27 && o.w == 16 && o.mx.isNone)).getD 2) 0 2)).sum
  let xv := vecVals f 0 (sf w 57 54) (v.t * 48) 48
  let dv := vecVals f dOp (sf w 53 50) (v.t * 32) 32
  each ((List.range n).map (v.cols + ·)) c (fun c r =>
    let a := arrOf (core c i) arr
    let on := (v.t != 0 || sf w 49 49 == 1) && (tfind a.cells (r * 33)).isSome
    let old := fun (col : Nat) => if on then tget Lane.zero a.cells (r * 33 + col) else Lane.zero
    if on && decide ((old 0).anchor ≠ anchor) then
      flightFault c i arr f .anchorMismatch 0 r (unsigned 11 (old 0).anchor + unsigned 11 anchor * 2 ^ 16)
    else onArr c i arr (fun a => { a with
      cells := (List.range 33).foldl (fun t col =>
        let new := useLane (col != 32) anchor [valMul (xv.getD r (.fin false 0 0)) (if col = 32 then exactSum dv else dv.getD col (.fin false 0 0))]
        tset t (r * 33 + col) ((laneAdd (old col) new).getD (old col))) a.cells
      tokens := tset a.tokens r ((if on then tget 0 a.tokens r else 0) + 1) }))

/-- Lanes that a drain takes (R161, R181): those of its entry, or the working cells of its row. What no product reached is zero under the anchor 0 (log entry 80). -/
def drainLanes (a : MArray) (d : Drain) : List Lane :=
  if d.cells then (List.range 32).map (fun col => tget Lane.zero a.cells (d.place * 33 + col))
  else match tget [] a.acc d.place with | [] => List.replicate 32 Lane.zero | l => l

/-- Element codes of drained lanes in an output code (R145-R148, R180). -/
def drainCodes (ofmt : Nat) (lanes : List Lane) : List Nat :=
  if ofmt = 6 then lanes.map (fun l => leNat (laneRecord l)) else lanes.map (fun l => (roundTo (outFmt ofmt) (laneValue l) false).1)

/-- Flag-plane entries of drained lanes (R149): of a record its own OVERFLOW bit, of a rounded output OVERFLOW as the rounding tests it. -/
def planeFlags (ofmt : Nat) (lanes : List Lane) : List Nat := lanes.map (fun l => b2n l.inexact + 2 * b2n (if ofmt = 6 then l.ovf else laneOvf l))

/-- A drained vector's counts and faults (R145, R149): INEXACT and OVERFLOW of each output, ANCHOR_OVERFLOW with its column where SAT is 0. -/
def drainNotes (c : Chip) (i : Nat) (f : Flight) (ofmt : Nat) (sat : Bool) (lanes : List Lane) : Chip :=
  if ofmt = 6 then c
  else
    let c1 := onJob c (jobOfCore c i) (fun j => { j with cnt := { j.cnt with
      inexact := satAdd 32 j.cnt.inexact (lanes.filter (fun l => l.inexact)).length, overflow := satAdd 32 j.cnt.overflow (lanes.filter laneOvf).length } })
    if sat then c1
    else each (lanes.zipIdx.filter (fun p => laneOvf p.1)) c1 (fun c p => coreFault c i f.eng f.slot.lw .anchorOverflow 0 p.2 (unsigned 11 p.1.anchor))

/-- Whether a drain that names its entry or row waits for sums or records of slots before its own (R182). -/
def drainBehind (k : Core) (a : MArray) (d : Drain) : Bool :=
  a.wave.any (fun v => decide (v.fl < d.fl) && (match flightOf k v.fl with
    | some f => if d.cells then opOf f.slot.w == 3 && decide (v.cols ≤ d.place) else opOf f.slot.w == 2 && decide (v.cols < lanesOf f)
    | none => false)) ||
    (!d.cells && k.flights.any (fun f => decide (f.id < d.fl) && (match flightOf k d.fl with | some g => f.eng == g.eng | none => false) && opOf f.slot.w == 5 &&
      f.todo.any (fun t => match t.act with | .calc _ => true | _ => false)))

/-- Whether the next beat of a drain may leave in the next cycle (R160, R161, R174): every lane of it has entered the drain. `hi`: lanes that the beat needs. -/
def beatFree (k : Core) (a : MArray) (now hi : Nat) (d : Drain) : Bool :=
  match d.ins with
  | some l => decide (hi ≤ l.length) && decide (l.getD (hi - 1) 0 ≤ now + 1)
  | none => !(drainBehind k a d)

/-- One beat of the drain (R161): 256 B of the first vector go to the output stream in the next cycle, and the lanes that it takes whole are clear; with its last beat the vector's plane goes too, and its outputs are counted. -/
def drainStep (c : Chip) (i arr : Nat) : Chip :=
  let k := core c i
  let a := arrOf k arr
  match a.drains with
  | [] => c
  | d :: rest =>
    match flightOf k d.fl with
    | none => onArr c i arr (fun a => { a with drains := rest })
    | some f =>
      let x := drainFields f.slot.w
      let size := outBits x.1 / 8
      let lanes := drainLanes a d
      let count := match d.ins with | some _ => lanesOf f | none => lanes.length
      let total := count * size
      let lo := 256 * d.beat
      let n := min 256 (total - lo)
      if !(beatFree k a c.now (cdiv (lo + n) size) d) then c
      else
        let sent := (f.carry.getD 1 [0]).headD 0
        let gone := (lanes.take ((lo + n) / size)).drop (lo / size)
        let flags := f.carry.getD 2 [] ++ planeFlags x.1 gone
        let last := decide (total ≤ lo + n)
        let sh := match f.ops[f.outs]? with | some o => writeShift c i f o sent | none => 0
        let first := lo / size
        let c1 := addTodo c i f.id [⟨c.now + 1 + sh, .part f.outs (sent + first) (lo - first * size) n ((drainCodes x.1 (lanes.drop first)).take (cdiv (lo + n) size - first))⟩]
        let clear := fun (a : MArray) =>
          let l := (tget [] a.acc d.place).zipIdx.map (fun p => if lo / size ≤ p.2 ∧ p.2 < (lo + n) / size then Lane.zero else p.1)
          if d.cells then { a with cells := if last then a.cells.filter (fun p => decide (p.1 / 33 ≠ d.place)) else a.cells }
          else { a with acc := if l.all (fun y => !y.live) then tdel a.acc d.place else tset a.acc d.place l }
        if !last then onArr (onFlight c1 i f.id (fun f => { f with carry := [f.carry.headD [], [sent], flags] })) i arr (fun a => clear { a with drains := { d with beat := d.beat + 1 } :: rest })
        else
          let po := f.outs + (match f.ops[f.outs]? with | some o => if o.ix.isSome then 2 else 1 | none => 1)
          let psh := match f.ops[po]? with | some o => writeShift c i f o sent | none => 0
          let c2 := if x.2.2 then addTodo c1 i f.id [⟨c.now + 1 + psh, .write po sent flags⟩] else c1
          let chk := tget Lane.zero a.cells (d.place * 33 + 32)
          let c3 := if d.cells then noteCheck c2 i arr f.slot.lw d.place (if laneSpecial chk then .skipped else compareSums lanes (chk.sum.toInt, chk.inexact) (33 * tget 0 a.tokens d.place)) else c2
          let c4 := drainNotes c3 i f x.1 x.2.1 lanes
          onArr (onFlight c4 i f.id (fun f => { f with carry := [f.carry.headD [], [sent + count], []] })) i arr (fun a => clear { a with drains := rest })

/-- Records of vector `t` of a merge are added into its entry (R148, R162). -/
def mergeCalc (c : Chip) (i : Nat) (f : Flight) (t : Nat) : Chip :=
  let w := f.slot.w
  let arr := f.eng
  let wide := if sf w 38 38 = 1 then 48 else 32
  let ent := (sf w 51 46 + t) % 64
  let recs := (taken f 0 (t * wide) wide).map (fun o => recordLane (leBytes 24 o.code))
  let y := addLanes c i arr f.slot.lw 0 (tget [] (arrOf (core c i) arr).acc ent) recs
  onArr y.2 i arr (fun a =>
    let a1 := { a with acc := tset a.acc ent y.1 }
    if sf w 57 57 = 1 then queueDrain a1 ⟨f.id, t, ent, false, none, 0⟩ else a1)

/-- Whether records of vector `t` of a merge must wait: for the drain of their entry (R162), or for sums of uses before it (R182). -/
def mergeWaits (k : Core) (f : Flight) (t : Nat) : Bool :=
  let a := arrOf k f.eng
  let ent := (sf f.slot.w 51 46 + t) % 64
  a.drains.any (fun d => !d.cells && d.place == ent && decide (d.fl < f.id)) || a.wave.any (fun v => decide (v.fl < f.id) && (match flightOf k v.fl with | some g => opOf g.slot.w == 2 && decide (v.cols < lanesOf g) | none => false))

/-- A vector that is through leaves the wave: a use once its comparison is made, 34 cycles after its last row (50 in transposed reading), in the cycle after; a token likewise (R160, R174, R175, R178). -/
def vecEnd (c : Chip) (i arr : Nat) (f : Flight) (v : Vec) : Chip :=
  let after := (v.rows.getLast?.getD 0) + (if transUse f then 50 else 34)
  let mine := fun (x : Vec) => x.fl == v.fl && x.t == v.t
  if v.cols < lanesOf f ∨ v.rows.length < feedsOf f then c
  else if v.cols = lanesOf f then
    (if c.now < after then c
     else
      let c1 := if opOf f.slot.w = 3 then c else match useOf (arrOf (core c i) arr) f v with
        | some u => noteCheck c i arr f.slot.lw v.t (useCheck u.1 (transUse f) u.2.1 u.2.2)
        | none => c
      onArr c1 i arr (fun a => { a with wave := a.wave.map (fun x => if mine x then { x with cols := x.cols + 1 } else x) }))
  else if c.now < after + 1 then c
  else onArr c i arr (fun a => { a with wave := a.wave.filter (fun x => !(mine x)) })

/-- Sums that leave the array in this cycle, comparisons that fall due, and vectors that are through (R160). -/
def waveOut (c : Chip) (i arr : Nat) : Chip :=
  each (arrOf (core c i) arr).wave c (fun c v0 =>
    match flightOf (core c i) v0.fl, (arrOf (core c i) arr).wave.find? (fun x => x.fl == v0.fl && x.t == v0.t) with
    | some f, some v =>
      let n := lanesNow (core c i) (arrOf (core c i) arr) c.now f v
      let c1 := if n = 0 then c else
        onArr (if opOf f.slot.w = 3 then addRows c i arr f v n else addSums c i arr f v n) i arr (fun a => { a with
          colFree := if opOf f.slot.w = 3 then a.colFree else (List.range n).foldl (fun l x => setAt l (v.cols + x) (c.now + v.k)) a.colFree
          wave := a.wave.map (fun x => if x.fl = v.fl ∧ x.t = v.t then { x with cols := x.cols + n } else x) })
      if n = 0 then vecEnd c1 i arr f v else c1
    | _, _ => c)

/-- Tiles that nothing names any more are gone. -/
def tidyTiles (k : Core) (a : MArray) : MArray :=
  { a with tiles := a.tiles.filter (fun t => a.active == some t.1 || a.shadow == some t.1 || k.flights.any (fun f => f.tile == t.1)) }

/-- One cycle of an array (R160-R173): a freeze, or its vectors, sums and load rows; the drain goes on in either. -/
def arrayCycle (c : Chip) (i arr : Nat) : Chip :=
  let k := core c i
  let a := arrOf k arr
  if a.wave = [] ∧ a.loads = [] ∧ a.drains = [] ∧ a.frozeAt = none then c
  else if frozen k arr c.now then
    drainStep (onJob (onArr c i arr (freezeArr c.now)) (jobOfCore c i) (fun j => { j with cnt := { j.cnt with freeze := satAdd 32 j.cnt.freeze 1 } })) i arr
  else
    let c1 := onArr c i arr (fun a => { stepRows k c.now a with loads := stepLoads k a c.now, frozeAt := none })
    onCore (drainStep (waveOut c1 i arr) i arr) i (fun k => setArr k arr (tidyTiles k (arrOf k arr)))

end Sys2Proof.Machine
end

