-- ==== Sys2Proof/Machine/Sections.lean ====
section
/-! DEFINITION. Weight images and their sections: headers, tile lists, and the checks before anything is written (04_weights.md R90-R93; 05_expander.md R117-R130; 06_numerics.md R139, R140). -/

namespace Sys2Proof.Machine

/-! Sections. -/

/-- An image header (R90). -/
structure WImg where
  count : Nat
  version : Nat
  ok : Bool

def readWImg (e : Env) (c : Chip) (j : Job) (a : Nat) : WImg :=
  let h := rdBytes e c a 256
  { count := field h 4 4, version := field h 0x10 4
    ok := field h 0 2 == 1 && field h 2 2 == 0 && decide (1 ≤ field h 4 4) && decide (field h 4 4 ≤ 2 ^ 20) && field h 0x10 4 != 0 &&
      field h 0x18 8 == 0 && field h 0x50 176 == 0 && BitVec.ofNat 384 (beNat ((h.drop 0x20).take 48)) == j.hdr.digest }

/-- A section header where it stands (R91). -/
structure Sec where
  at_ : Nat
  pkg : Nat
  layer : Nat
  tiles : Nat
  tables : Nat
  flags : Nat
  data : Nat
  len : Nat
  blt : Nat
  maxima : Nat
  tabs : Nat
  version : Nat
  rank : Nat
  digest : BitVec 384
  sig : List Byte
  clean : Bool

def readSec (e : Env) (c : Chip) (a : Nat) : Sec :=
  let h := rdBytes e c a 512
  { at_ := a, pkg := field h 0 2, layer := field h 2 2, tiles := field h 4 4, tables := field h 8 4, flags := field h 0x0C 4
    data := a + field h 0x10 8, len := field h 0x18 8, blt := a + field h 0x20 8, maxima := a + field h 0x28 8, tabs := a + field h 0x30 8
    version := field h 0x38 4, rank := field h 0x3C 4, digest := BitVec.ofNat 384 (beNat ((h.drop 0x40).take 48)), sig := (h.drop 0x70).take 96
    clean := field h 0xD0 304 == 0 && field h 0x0C 4 / 4 == 0 }

/-- Address of the `k`-th section of an image. -/
def secAddr (e : Env) (c : Chip) (a k : Nat) : Nat := a + rdLE e c (a + 256 + 8 * k) 8

/-- Where a tile goes: format, store address, address of its block header if it is coded (R114, R117). -/
structure TilePlace where
  fmt : Nat
  addr : Nat
  hdr : Nat
  coded : Bool

/-- The tile list of a layer on this package (R91, R124). -/
def tileList (j : Job) (layer : Nat) : List TilePlace :=
  (j.decl.tiles.filter (fun g => g.layer == layer)).flatMap (fun g =>
    (List.range g.tiles).map (fun t => ⟨g.fmt, g.base + t * tilePitch g.fmt, g.hdr + 2 * t, decide (g.fmt ≤ 1)⟩))

/-- The tile list of an adapter's layer in a drawer: the cabinet's tile groups, in the program's order (R91, R104, R124). -/
def drawerTiles (j : Job) (d layer : Nat) : List TilePlace :=
  (j.decl.cab.groups.filter (fun g => g.layer == layer)).flatMap (fun g =>
    (List.range g.tiles).map (fun t => ⟨g.fmt, drawerBase j d g.core + g.base + t * tilePitch g.fmt, drawerBase j d g.core + g.hdr + 2 * t, decide (g.fmt ≤ 1)⟩))

/-- Blocks of a section: one 2-byte header per coded tile. -/
def blocksIn (ts : List TilePlace) : Nat := (ts.filter (fun t => t.coded)).length

/-- Bytes that DATA_DIGEST covers, in its order (R91): tile data, block-length table, maxima, code tables. -/
def coveredBytes (e : Env) (c : Chip) (s : Sec) (ts : List TilePlace) : List Byte :=
  rdBytes e c s.data s.len ++ rdBytes e c s.blt (2 * blocksIn ts) ++ rdBytes e c s.maxima s.tiles ++ rdBytes e c s.tabs (64 * s.tables)

/-- A section with the tiles it is for and the bytes it carries. -/
structure Carried where
  sec : Sec
  ts : List TilePlace
  body : List Byte

/-- The section as its image in the host tier holds it. -/
def Carried.here (e : Env) (c : Chip) (s : Sec) (ts : List TilePlace) : Carried := ⟨s, ts, coveredBytes e c s ts⟩

def Carried.digestOk (x : Carried) : Bool := sha384 x.body == x.sec.digest

/-- Header `k` of the block-length table, and maximum `k`. -/
def Carried.header (x : Carried) (k : Nat) : Nat := field x.body (x.sec.len + 2 * k) 2
def Carried.maximum (x : Carried) (k : Nat) : Nat := field x.body (x.sec.len + 2 * blocksIn x.ts + k) 1

/-- The code tables a section carries. -/
def Carried.tables (x : Carried) : List (List Byte) :=
  (List.range x.sec.tables).map (fun k => (x.body.drop (x.sec.len + 2 * blocksIn x.ts + x.sec.tiles + 64 * k)).take 64)

/-- A record apart from its SLOT byte (R129). -/
def tableBody (t : List Byte) : List Byte := t.take 3 ++ t.drop 4

/-- The table that a job-relative slot holds now. -/
def curTable (c : Chip) (j : Job) (rel : Nat) : List Byte :=
  (([0, 1, 2, 3].filter (fun s => (j.place.slotMap.getD s []) != [])).map (fun s => tableOf c j s rel)).headD []

/-- The tables that blocks of a command may find in a slot: those it carries, else the slot's. -/
def tablesFor (c : Chip) (j : Job) (tabs : List (List Byte)) (rel : Nat) : List (List Byte) :=
  match tabs.filter (fun t => field t 3 1 == rel) with
  | [] => [curTable c j rel]
  | l => l

/-- The table that blocks of a section are written against: the last one that its command carries for the slot, which is the one that stays (log entry 58), else the slot's. -/
def tableFor (c : Chip) (j : Job) (tabs : List (List Byte)) (rel : Nat) : List Byte := (tablesFor c j tabs rel).getLastD []

/-- Tiles of a section with their headers, in order (0x8000: read uncoded) and their byte offsets. -/
def Carried.tiles (x : Carried) : List (TilePlace × Nat × Nat) :=
  (x.ts.foldl (fun (acc : List (TilePlace × Nat × Nat) × Nat × Nat) t =>
    (acc.1 ++ [(t, if t.coded then x.header acc.2.1 else 0x8000, acc.2.2)], acc.2.1 + b2n t.coded, acc.2.2 + tilePitch t.fmt)) ([], 0, 0)).1

/-- Values of a tile as its bytes give them (R115, R118, R158). -/
def tileVals (c : Chip) (j : Job) (x : Carried) (tabs : List (List Byte)) (y : TilePlace × Nat × Nat) : List Val :=
  let bs := (x.body.drop y.2.2).take (tileBytes y.1.fmt)
  let codes := if y.1.coded = true ∧ bhRaw y.2.1 = false then
      (if bhLen y.2.1 = 0 then (List.replicate 1536 0, List.replicate 48 none)
       else ((codedBlock y.1.fmt (tableFor c j tabs (bhTable y.2.1)) (bhLen y.2.1) (bs.take (bhLen y.2.1 * 64))).1, List.replicate 48 none))
    else tileCodes y.1.fmt bs
  (mkTile y.1.fmt codes.1 codes.2 0).weights

/-- Whether a maxima byte is a valid term for a tile (R139, R140). -/
def termOk (b : Nat) (vs : List Val) : Bool :=
  match blockExp vs with
  | none => true
  | some x => decide (x ≤ 127) && decide (x ≤ (b : Int) - 128 ∨ x < -128 ∧ b = 0)

def termsOk (c : Chip) (j : Job) (tabs : List (List Byte)) (x : Carried) : Bool :=
  x.tiles.zipIdx.all (fun y => termOk (x.maximum y.2) (tileVals c j x tabs y.1))

/-! Checks before anything is written. -/

/-- Where a buffer of an image lies: `out` outside the host tier, which is INVALID_ARG for a weight image; DENIED in a window that is not the partitions' (R93, R289). -/
def tierStatus (c : Chip) (parts : List Nat) (out : Status) (a n : Nat) : Option Status :=
  if n = 0 then none
  else if (inHostStore a && inHostStore (a + n - 1)) || (inAperture a && inAperture (a + n - 1)) then (if tierOk c parts a n then none else some .denied)
  else some out

/-- Whether a section header is one that R91 and R93 allow; `adapter`: of an adapter set. -/
def headerOk (j : Job) (version : Nat) (adapter : Bool) (s : Sec) : Bool :=
  s.clean && decide (s.pkg < j.place.pkgs.length) && decide (s.tables ≤ 64) && s.version == version &&
    (if adapter then bitOf s.flags 1 && decide (1 ≤ s.rank) && decide (s.rank ≤ j.decl.cab.maxRank) else !(bitOf s.flags 1) && s.rank == 0)

/-- Whether a section has the tiles and the bytes that the program lists for its package and layer (R91, R93). -/
def layoutOk (lay : List LayerAt) (s : Sec) : Bool := lay.any (fun x => x.sym == s.pkg && x.layer == s.layer && x.tiles == s.tiles && x.bytes == s.len)

/-- The signature check of R92: unsigned sections pass where the partition does not ask for signatures. -/
def signatureOk (e : Env) (c : Chip) (p : Nat) (s : Sec) : Bool :=
  let q := part c p
  if bitOf s.flags 0 then q.keyValid && sigOk (beBytes 96 q.key.toNat) s.sig (sha384 (rdBytes e c s.at_ 0x70)) else !q.signedOnly

/-- Block headers and carried tables (R118, R120); `tabs`: every table of the command. A slot that no table was ever written to has no FORMAT to differ: blocks that name it pass here, and the expander raises EXPANDER_FORMAT for them (log entry 58). -/
def blocksOk (c : Chip) (j : Job) (tabs : List (List Byte)) (x : Carried) : Bool :=
  x.tables.all (fun t => ctValid t && decide (field t 3 1 < j.hdr.ctSlots)) &&
    x.tiles.all (fun y => !y.1.coded || (bhValid y.1.fmt j.hdr.ctSlots y.2.1 &&
      (bhRaw y.2.1 || bhLen y.2.1 == 0 || (tablesFor c j tabs (bhTable y.2.1)).all (fun t => t == [] || ctFormat t == y.1.fmt))))

/-- Tables carried by the sections of one command agree slot by slot (R130). -/
def tablesAgree (tabs : List (List Byte)) : Bool := tabs.all (fun t => tabs.all (fun u => field t 3 1 != field u 3 1 || tableBody t == tableBody u))

/-- Excess of a section's rows over the budgets of its tile groups (R118, R124-R126). -/
def excessOf (gs : List TileGroup) (x : Carried) : Nat :=
  let mine := gs.filter (fun g => g.layer == x.sec.layer && decide (g.fmt ≤ 1))
  (mine.foldl (fun (acc : Nat × Nat) g =>
    (acc.1 + (((List.range g.tiles).map (fun t => bhRows (x.header (acc.2 + t)))).sum - g.budget), acc.2 + g.tiles)) (0, 0)).1

/-- Blocks per code-table slot of a section, stack by stack (R128). -/
def refsOf (x : Carried) : Tab Nat :=
  x.tiles.foldl (fun t y => if y.1.coded && !(bhRaw y.2.1) && bhLen y.2.1 != 0 then tupd 0 t (y.1.addr / 2 ^ 32 * 128 + bhTable y.2.1) (· + 1) else t) []

/-- Extents of an image and of the sections of it that a command names, whichever package they are for (R93). -/
def imageExtents (lay : List LayerAt) (a count : Nat) (secs : List Sec) : List (Nat × Nat) :=
  (a, 256 + 8 * count) :: secs.flatMap (fun s =>
    let blocks := ((lay.find? (fun x => x.sym == s.pkg && x.layer == s.layer)).map (fun x => x.blocks)).getD 0
    [(s.at_, 512), (s.data, s.len), (s.blt, 2 * blocks), (s.maxima, s.tiles), (s.tabs, 64 * s.tables)])

/-- Of an image, what a command reads here (R93, R355): the image header and offsets, the headers of the sections it names, and its own sections whole. -/
def readExtents (lay : List LayerAt) (a count : Nat) (secs own : List Sec) : List (Nat × Nat) :=
  imageExtents lay a count own ++ secs.map (fun s => (s.at_, 512))

end Sys2Proof.Machine
end

