-- ==== Sys2Proof/Machine/Fills.lean ====
section
/-! DEFINITION. Drawers, adapter images, the catalogue, and the fills that the planner starts (04_weights.md R104-R110; 11_serving.md R270). -/

namespace Sys2Proof.Machine

/-- The generation after one: 255 returns to 1 (R105). -/
def nextGen (g : Nat) : Nat := if g = 255 then 1 else g + 1

/-- A catalogue entry (R109). -/
structure CatEntry where
  rank : Nat
  image : Nat

/-- The valid entry of an adapter ID in a partition's catalogue, if there is one (R109, R110, R413). -/
def catalogEntry (e : Env) (c : Chip) (p id : Nat) : Option CatEntry :=
  let v := (part c p).catalog.toNat
  let base := bitsOf v 39 5 * 32
  (List.range (bitsOf v 63 40)).findSome? (fun k =>
    let b := rdBytes e c (base + 32 * k) 32
    if field b 0 4 = id ∧ field b 6 2 = 1 ∧ 1 ≤ field b 4 2 ∧ field b 4 2 ≤ 256 then some ⟨field b 4 2, field b 8 8⟩ else none)

/-- The drawer that a fill takes (R106, R110): the lowest FREE one, else the least recently bound CACHED one. -/
def takeDrawer (j : Job) : Option Nat :=
  let ds := (List.range j.decl.cab.drawers).map (fun d => (d, tget Drawer.free j.wts.drawers d))
  match ds.find? (fun d => d.2.st == .free) with
  | some d => some d.1
  | none =>
    let cs := ds.filter (fun d => d.2.st == .cached)
    (leastOf (cs.map (fun d => d.2.lastBound))).bind (fun t => (cs.find? (fun d => d.2.lastBound == t)).map Prod.fst)

/-- Sections of an adapter image for this package, each with its tiles in the drawer. -/
def adapterSecs (e : Env) (c : Chip) (j : Job) (image d : Nat) : List (Sec × List TilePlace) :=
  let g := readWImg e c j image
  (((List.range g.count).map (fun k => readSec e c (secAddr e c image k))).filter (fun s => s.pkg == j.place.sym)).map (fun s => (s, drawerTiles j d s.layer))

/-- Whether a section set covers an adapter's layout (R106): one section for each layer that it touches and each package that has tiles for that layer in its cabinet, with those tiles. -/
def adapterCovers (j : Job) (all : List Sec) : Bool :=
  !all.isEmpty && (all.map (fun s => (s.pkg, s.layer))).eraseDups.length == all.length && all.all (layoutOk j.place.cabLayout) &&
    j.place.cabLayout.all (fun x => !(all.any (fun s => s.layer == x.layer)) || all.any (fun s => s.pkg == x.sym && s.layer == x.layer))

/-- Whether a held write of another table is in the way; a table that the slot holds already is no write (R129). -/
def heldClash (c : Chip) (j : Job) (tabs : List (List Byte)) : Bool :=
  tabs.any (fun t => tableBody (curTable c j (field t 3 1)) != tableBody t && (tfind j.wts.held (field t 3 1)).any (fun h => tableBody h.bytes != tableBody t))

/-- Extents of an adapter image and its sections (R93). -/
def adapterExtents (e : Env) (c : Chip) (j : Job) (image : Nat) : List (Nat × Nat) :=
  let g := readWImg e c j image
  imageExtents j.place.cabLayout image g.count ((List.range g.count).map (fun k => readSec e c (secAddr e c image k)))

/-- What the checks and the fill of an adapter image read here (R93, R355). -/
def adapterReads (e : Env) (c : Chip) (j : Job) (image d : Nat) : List (Nat × Nat) :=
  let g := readWImg e c j image
  readExtents j.place.cabLayout image g.count ((List.range g.count).map (fun k => readSec e c (secAddr e c image k))) ((adapterSecs e c j image d).map Prod.fst)

/-- Whether the sections of an adapter image for this package carry code tables (R393). -/
def fillTabled (e : Env) (c : Chip) (j : Job) (image d : Nat) : Bool := (adapterSecs e c j image d).any (fun x => x.1.tables != 0)

/-- The checks of an adapter image before anything is written (R92, R106, R118, R120, R125, R130, R140, R289): the rank it has, or the status that refuses it. -/
def adapterStatus (e : Env) (c : Chip) (j : Job) (p image d : Nat) : Status ⊕ Nat :=
  match tierStatus c j.place.parts .denied image 256 with
  | some st => .inl st
  | none =>
    let g := readWImg e c j image
    if g.ok = false then .inl .invalidArg
    else
      let all := (List.range g.count).map (fun k => readSec e c (secAddr e c image k))
      let own := adapterSecs e c j image d
      let rank := (all.head?.map (fun s => s.rank)).getD 0
      match (imageExtents j.place.cabLayout image g.count all).findSome? (fun x => tierStatus c j.place.parts .denied x.1 x.2) with
      | some st => .inl st
      | none =>
        if spansBad c (adapterReads e c j image d) then .inl .hwFault
        else if !(all.all (fun s => headerOk j g.version true s && s.rank == rank)) || !(adapterCovers j all) then .inl .invalidArg
        else if !(all.all (signatureOk e c p)) then .inl .denied
        else
          let xs := own.map (fun x => Carried.here e c x.1 x.2)
          let tabs := xs.flatMap Carried.tables
          if !(xs.all (fun x => blocksOk c j tabs x && termsOk c j tabs x)) || !(tablesAgree tabs) || heldClash c j tabs then .inl .invalidArg
          else if !(jobRunning j && j.args.elasticLen) && xs.any (fun x => excessOf j.decl.cab.groups x != 0) then .inl .lengthBudget
          else .inr rank

/-- A drawer begins to be filled with the next generation of an adapter (R105); the CACHED adapter it held leaves the directory. A generation that a fill has taken stays taken where the fill fails: the rule counts each new content and does not say so (DESIGN CHOICE, log entry 85). -/
def beginFill (c : Chip) (tag d id rank : Nat) (pin : Bool) (by_ : Filler) (cmd : Option CmdId) (image : Nat) (tables : Bool) : Chip :=
  onJob c tag (fun j =>
    let old := tget Drawer.free j.wts.drawers d
    let g := nextGen (tget 0 j.wts.gens id)
    { j with wts := { j.wts.emptied d with
        gens := tset j.wts.gens id g
        dir := if old.st = .cached then tdel j.wts.dir old.adapter else j.wts.dir
        drawers := tset j.wts.drawers d ⟨.filling, id, g, rank, pin, 0, by_, cmd, image, false, false, (cmd.map (fun m => m.seq)).getD 0, tables⟩ } })

/-- Whether a fill of an adapter ID is on its way; the drawer that a training holds is not one. -/
def fillOnWay (j : Job) (id : Nat) : Bool := j.wts.drawers.any (fun d => d.2.adapter == id && (d.2.st == .filling || d.2.st == .ready) && d.2.by_ != .train)

/-- Fills on demand that the package runs (R110: 16 at most). The rule stands among the fills on demand; the model does not count those of PUT_ADAPTER and TRAIN_ADAPTER (log entry 59). -/
def fillsRunning (c : Chip) : Nat := (c.jobs.map (fun j => (j.2.wts.drawers.filter (fun d => d.2.st == .filling && d.2.by_ == .demand)).length)).sum

/-- Whether a request needs an adapter that is not in the directory: it waits for it, or the adapter left the directory before the request was bound. -/
def needsFill (j : Job) (q : Req) : Bool := q.st == .waitAdapter || (unbound q && (tfind j.wts.dir q.adapterId).isNone)

/-- Requests of a job that wait for an adapter, in planning order; one whose fill has failed waits for the commit that ends it. -/
def waiting (c : Chip) (tag : Nat) : List (Nat × Req) :=
  match tfind c.jobs tag with | some j => (byArrival c tag (needsFill j)).filter (fun r => (side c r.1).fail.isNone) | none => []

/-- A drawer returns to FREE. -/
def freeDrawer (c : Chip) (tag d : Nat) : Chip :=
  onJob c tag (fun j => { j with wts := { j.wts.emptied d with drawers := tset j.wts.drawers d Drawer.free } })

/-- The status of requests whose fill is refused or fails: INVALID_ARG and LENGTH_BUDGET where R110, R118 and R125 name them, else HW_FAULT (R110, R270). -/
def fillStatus (st : Status) : Status := if st = .invalidArg ∨ st = .lengthBudget then st else .hwFault

/-- Every request in WAIT_ADAPTER for an adapter will end at the next commit (R270), a training that waits for its first generation at once (log entry 41). -/
def endWaiting (c : Chip) (tag id : Nat) (st : Status) : Chip :=
  let c1 := each (((waiting c tag).filter (fun r => r.2.adapterId == id && r.2.st == .waitAdapter)).map Prod.fst) c (fun c i => onSide c i (fun s => { s with fail := some (fillStatus st) }))
  match tfind c1.jobs tag with
  | none => c1
  | some j =>
    each (j.wts.trains.filter (fun t => t.adapter == id && (trainSource j t).isNone)) c1 (fun c t =>
      final (onJob (freeDrawer c tag t.drawer) tag (fun j => { j with wts := { j.wts with trains := j.wts.trains.filter (fun x => x.cmd != t.cmd) } })) t.cmd st)

/-- Start a fill on demand of an adapter, if one may start (R110, R118, R125): a failed check ends every request that waits for it. The truth value says that a fill was refused for want of a drawer. -/
def startFill (e : Env) (tag : Nat) (acc : Chip × Bool) (x : Nat × Nat) : Chip × Bool :=
  let c := acc.1
  match tfind c.jobs tag with
  | none => acc
  | some j =>
    let id := x.2
    if fillOnWay j id = true ∨ (tfind j.wts.dir id).isSome ∨ 16 ≤ fillsRunning c then acc
    else match catalogEntry e c x.1 id with
      | none => (endWaiting c tag id .invalidArg, acc.2)
      | some y =>
        match takeDrawer j with
        | none => (c, true)
        | some d =>
          match adapterStatus e c j x.1 y.image d with
          | .inl st => (endWaiting c tag id st, acc.2)
          | .inr rank => (beginFill c tag d id rank false .demand none y.image (fillTabled e c j y.image d), acc.2)

/-- Partition and adapter of every fill that is wanted, in the order in which the planner would plan the requests, then those of trainings (R110, R285). -/
def wanted (c : Chip) (tag : Nat) : List (Nat × Nat) :=
  (waiting c tag).map (fun r => (r.2.part, r.2.adapterId)) ++
    (match tfind c.jobs tag with
     | some j => (j.wts.trains.filter (fun t => (trainSource j t).isNone)).map (fun t => (t.cmd.part, t.adapter))
     | none => [])

/-- Start fills for the waiting requests and trainings; a tick in which one was refused for want of a drawer is counted (R110). -/
def startFills (e : Env) (c : Chip) (tag : Nat) (atEdge : Bool) : Chip :=
  let x := (wanted c tag).foldl (startFill e tag) (c, false)
  if x.2 && atEdge then onJob x.1 tag (fun j => { j with cnt := { j.cnt with fillRefusals := satAdd 32 j.cnt.fillRefusals 1 } }) else x.1

end Sys2Proof.Machine
end

