-- ==== Sys2Proof/Machine/Edges.lean ====
section
/-! DEFINITION. Job edges, the start of ticks, plans, holds, announced edges, votes and verdicts as they reach this package (02_beacon.md R26-R32, R43-R57; 10_contract.md R252; 11_serving.md R273; 05_expander.md R129). -/

namespace Sys2Proof.Machine

/-! Code tables. -/

/-- Write a table into a job-relative slot on every stack that holds the job (R127). -/
def setTable (c : Chip) (tag : Nat) (j : Job) (rel : Nat) (bytes : List Byte) : Chip :=
  each [0, 1, 2, 3] c (fun c s =>
    match (j.place.slotMap.getD s [])[rel]? with
    | some p => { c with slots := tset c.slots (s * 64 + p) (tag, bytes) }
    | none => c)

/-- The blocks that were written against a held table count against its slot from now on. -/
def countRefs (rel : Nat) (x : Section) : Section :=
  { x with
    holds := x.holds.filter (· != rel)
    refs := [0, 128, 256, 384].foldl (fun t s => match tfind t (s + rel + 64) with
      | none => t
      | some n => tset (tdel t (s + rel + 64)) (s + rel) (n + tget 0 t (s + rel))) x.refs }

/-- A held table has been written: its drawer, if it only waited for that, is READY (R129, R130). -/
def tableApplied (rel : Nat) (j : Job) : Job :=
  let ss := j.wts.sections.map (fun s => (s.1, countRefs rel s.2))
  { j with wts := { j.wts with
      held := tdel j.wts.held rel
      sections := ss
      drawers := j.wts.drawers.map (fun d =>
        if d.2.st = .filling ∧ d.2.verified = true ∧ d.2.elsewhere = true ∧ ss.all (fun s => s.1 / 65536 != d.1 + 1 || !s.2.ok || tablesIn s.2) = true then (d.1, { d.2 with st := .ready }) else d) } }

/-- Held table writes whose slot has no reference left apply: all of them at the job edge (R129), those that waited for LIT when it comes (R393). -/
def applyHeld (c : Chip) (tag : Nat) (lit : Bool) : Chip :=
  match tfind c.jobs tag with
  | none => c
  | some j =>
    each (j.wts.held.filter (fun h => tableRefs j h.1 == 0 && (!lit || h.2.wake))) c (fun c h =>
      let c1 := onJob (setTable c tag j h.1 h.2.bytes) tag (tableApplied h.1)
      match h.2.cmd with | some m => final c1 m .ok | none => c1)

/-! The start of a tick. -/

/-- The lead plans a tick, sends the plan and starts its attempt (R43, R45, R46, R273). -/
def leadStart (e : Env) (c : Chip) (tag tick edge : Nat) : Chip :=
  let c := startFills e c tag true
  match tfind c.jobs tag with
  | none => c
  | some j =>
    let ahead := newest j
    let view := match ahead with | some a => tentative e c tag j a | none => c
    let x := buildPlan e c view tag tick
    let p := x.1
    let c1 := sendOthers x.2 j tag (fun _ => 0) (.plan ⟨tag, tick, nextOrd j tick, p.variant, p.n, p.chunk, p.k⟩ p)
    startAttempt c1 tag tick (j.ticks.q + b2n ahead.isSome) edge ahead.isSome p

/-- A plan that names a parked request again comes after its park was given up: the mirror goes on (R111, R267). -/
def unpark (c : Chip) (p : Plan) : Chip :=
  each p.rows c (fun c r =>
    if r.kind != 2 && (req c r.entry).mirror && (req c r.entry).st == .parking then
      onReq c r.entry (fun q => { q with st := if r.kind = 0 then .decode else .prompt, park := false })
    else c)

/-- A package that does not lead starts an attempt on its plan (R273). -/
def memberStart (c : Chip) (m : PlanMsg) (edge : Nat) (p : Plan) : Chip :=
  match tfind c.jobs m.job with
  | none => c
  | some j =>
    let c1 := setTicks (unpark c p) m.job (fun t => { t with ords := tset t.ords m.tick m.attempt, next := m.tick + 1 })
    startAttempt c1 m.job m.tick (j.ticks.q + b2n (newest j).isSome) edge (newest j).isSome p

/-- Start the attempt of a job edge that has fired, if its plan is here: a replay with its original plan, else the lead's own or the received one (R43, R53). -/
def launch (e : Env) (c : Chip) (tag : Nat) : Chip :=
  match tfind c.jobs tag with
  | none => c
  | some j =>
    match j.ticks.edge with
    | none => c
    | some (tick, edge) =>
      let c1 := applyHeld c tag false
      let started := fun (c : Chip) => setTicks c tag (fun t => { t with edge := none, planned := none, replayPlan := none })
      match j.ticks.replayPlan with
      | some p => startAttempt (started c1) tag tick j.ticks.q edge false p
      | none =>
        if isLead c j then leadStart e (started c1) tag tick edge
        else match j.ticks.planned with
          | some (m, p) => memberStart (started c1) m edge p
          | none => c1

/-- A job edge falls: its attempt starts, or waits for a stack that is not LIT (R394). -/
def edgeStart (e : Env) (c : Chip) (tag tick : Nat) : Chip :=
  let c1 := setTicks c tag (fun t => { t with edge := some (tick, c.now) })
  match tfind c1.jobs tag with
  | none => c1
  | some j => if jobLit c1 j then launch e c1 tag else countLate c1 j

/-! Job edges. -/

/-- The multiplier from a job edge on: a change counts once the commit it waits for has passed (R26). -/
def edgeM (j : Job) : Nat := match j.args.mNext with | some (m, none) => m | _ => j.args.m

/-- A job edge at domain edge `n` counts: its number is used, the next edge is set; an elastic edge that came late adds stretch (R26, R27, R32, R53). -/
def countEdge (c : Chip) (tag n : Nat) : Chip :=
  onJob c tag (fun j => { j with
    args := { j.args with m := edgeM j, mNext := match j.args.mNext with | some (_, none) => none | x => x }
    ticks := { j.ticks with next := j.ticks.next + 1, due := n + edgeM j }
    cnt := { j.cnt with stretch := if j.args.strict then j.cnt.stretch else satAdd 32 j.cnt.stretch (n - j.ticks.due) } })

/-- TICK_OVERRUN (R252): names the lowest core that is not done; in strict mode the attempt's contexts stop and the package votes no, in elastic mode HOLD is flooded (R52-R54). -/
def overrun (c : Chip) (tag : Nat) (j : Job) (a : Attempt) : Chip :=
  let i := ((jobCores j).find? (fun i => !(core c i).doneSaid)).getD ((jobCores j).headD 0)
  let k := core c i
  let lw := match k.fifo.find? (fun w => decide (w.arrive ≤ c.now)) with | some w => w.lw | none => k.lastLw.getD noLw
  let c1 := if j.args.strict then setAttempt (stopContexts c j) tag a.tick a.ord (fun a => { a with overrun := true })
    else
      sendBeacon (setAttempt c tag a.tick a.ord (fun a => { a with held := true })) (.hold tag a.tick)
  raise c1 ⟨faultNo .tickOverrun, engC, gca c i, some i, lw, tag, some (a.tick, a.ord), 0, noCore, c.now - a.startAt, 0, j.args.strict, false, false⟩

/-- A strict job edge that the lead did not fire, or at which nothing may start: its number is used, and the lead posts a miss; on another package the tick is missed only when its abort comes, once its plan has found the edge missed (R27, R32, R45, R54). -/
def missEdge (c : Chip) (tag n : Nat) : Chip :=
  match tfind c.jobs tag with
  | none => c
  | some j =>
    if !j.args.strict then c
    else if isLead c j then deadlineMiss (countEdge c tag n) tag j.ticks.next 2 0 0 false
    else countEdge c tag n

/-- No further tick starts: the job stops after a tick that has begun (R309). -/
def stopReached (j : Job) : Bool :=
  match j.stop with
  | some s => (match s.last with | some t => decide (t < j.ticks.next) | none => false)
  | none => false

/-- A job whose edges count here: running, in a domain that is not halted, with a tick still to start (R31, R309). -/
def edgesCount (c : Chip) (j : Job) : Bool := jobRunning j && !c.boot.halted && !j.ticks.halt && !(stopReached j)

/-- Strict job edges before domain edge `n` that this package did not fire, one after another, each at the multiplier in force there (R26). -/
def passEdges : Nat → Chip → Nat → Nat → Chip
  | 0, c, _, _ => c
  | fuel + 1, c, tag, n =>
    match tfind c.jobs tag with
    | none => c
    | some j => if j.args.strict && edgesCount c j && decide (j.ticks.due < n) then passEdges fuel (missEdge c tag j.ticks.due) tag n else c

/-- As many edges as may have passed before domain edge `n`. -/
def edgesPast (c : Chip) (tag n : Nat) : Nat := match tfind c.jobs tag with | some j => n - j.ticks.due | none => 0

/-- A replay, restart or deferred edge is still to come: no other tick starts before it (R45, R53). -/
def waitsReplay (j : Job) : Bool := j.ticks.announce.isSome || j.ticks.replayPlan.isSome

/-- A job edge has fired and its attempt still waits for its stacks (R394). -/
def edgeTaken (c : Chip) (j : Job) : Bool := j.ticks.edge.isSome && (isLead c j || j.ticks.planned.isSome)

/-- The job edge of one job at the domain edge just fired (R32, R45, R52-R54). On a package that does not lead, the edge waits for its plan. -/
def jobEdge (e : Env) (c : Chip) (tag : Nat) : Chip :=
  let n := c.beacon.tick
  let c1 := passEdges (edgesPast c tag n) (touchDone c tag) tag n
  match tfind c1.jobs tag with
  | none => c1
  | some j =>
    if !(edgesCount c j) || decide (n < j.ticks.due) then c1
    else
      match j.ticks.attempts with
      | [] => if waitsReplay j || edgeTaken c j then missEdge c1 tag n else edgeStart e (countEdge c1 tag n) tag j.ticks.next
      | [a] =>
        if a.held || waitsReplay j || edgeTaken c j then missEdge c1 tag n
        else if workEnded a then edgeStart e (countEdge c1 tag n) tag j.ticks.next
        else overrun (if j.args.strict then countEdge c1 tag n else c1) tag j a
      | _ =>
        match newest j with
        | some a => if workEnded a || a.held then missEdge c1 tag n else overrun (missEdge c1 tag n) tag j a
        | none => missEdge c1 tag n

/-- FIRE_EDGE (R24, R26, R32): the domain edge, then the job edges that fall on it. -/
def fireEdge (e : Env) (c : Chip) : Chip :=
  match edgeDue c with
  | none => c
  | some d =>
    let c1 := fireDomainEdge c d
    lampReviews (each (c1.jobs.map Prod.fst) c1 (jobEdge e))

/-- An elastic member takes the job edge from the plan: the lead fired it at the last base edge (R32, R53). -/
def realign (c : Chip) (tag : Nat) : Chip :=
  onJob c tag (fun j =>
    let due := c.beacon.tick + j.args.m
    if j.args.strict || decide (due ≤ j.ticks.due) then j
    else { j with ticks := { j.ticks with due := due }, cnt := { j.cnt with stretch := satAdd 32 j.cnt.stretch (due - j.ticks.due) } })

/-- The plan of a run-ahead attempt that this package will not start, because it still runs the tick before or has seen its HOLD: the attempt counts as discarded (R52, R53). -/
def passPlan (c : Chip) (m : PlanMsg) : Chip :=
  setTicks c m.job (fun t => { t with gone := t.gone ++ [(m.tick, m.attempt)], ords := tset t.ords m.tick (m.attempt + 1) })

/-- PLAN (R32, R273): the attempt starts at the edge that this package fired; one that missed it votes no with cause edge missed. -/
def receivePlan (e : Env) (c : Chip) (m : PlanMsg) (body : Plan) : Chip :=
  match tfind c.jobs m.job with
  | none => c
  | some j =>
    let known := j.ticks.attempts.any (fun a => a.tick == m.tick && a.ord == m.attempt) || j.ticks.gone.contains (m.tick, m.attempt) ||
      j.ticks.verdicts.any (fun v => v.tick == m.tick && v.attempt == m.attempt)
    if isLead c j || !(jobRunning j) || known then c
    else
      let p := { body with variant := m.variant, n := m.k1, chunk := m.k2, k := m.k3 }
      if j.ticks.attempts.any (fun a => a.tick + 1 == m.tick && (a.held || a.overrun)) then passPlan c m
      else match j.ticks.edge with
      | some _ =>
        let c1 := setTicks (realign c m.job) m.job (fun t => { t with planned := some (m, p) })
        if jobLit c j then launch e c1 m.job else c1
      | none =>
        let loc := 2 ^ 23 + 0xFFFF
        let a : Attempt := ⟨m.tick, m.attempt, j.ticks.q, (newest j).isSome, .votedNo, c.now, c.now, c.now + 1, 0xFF, loc, true, p, false, true, []⟩
        let c1 := setTicks c m.job (fun t => { t with
          attempts := t.attempts ++ [a], ords := tset t.ords m.tick (m.attempt + 1)
          due := if m.tick < t.next then t.due else if j.args.strict then t.due + j.args.m else c.beacon.tick + j.args.m
          next := max t.next (m.tick + 1) })
        castVote e c1 m.job a false 0xFF loc

/-- HOLD (R52, R53): the run-ahead attempt of the next tick is discarded; a package that has not seen it forwards it. -/
def receiveHold (c : Chip) (tag tick : Nat) : Chip :=
  match tfind c.jobs tag with
  | none => c
  | some j =>
    match j.ticks.attempts.find? (fun a => a.tick == tick) with
    | none => c
    | some a =>
      if a.held then c
      else
        let c1 := discardAttempts c tag (fun b => b.runAhead && b.tick == tick + 1)
        let c2 := setTicks c1 tag (fun t => { t with
          attempts := t.attempts.map (fun b => if b.tick = tick then { b with held := true } else b)
          edge := none, planned := none
          due := if tick + 1 < t.next then t.due - j.args.m else t.due, next := tick + 1 })
        sendBeacon c2 (.hold tag tick)

/-- EDGE_ANNOUNCEMENT (R53): the announced edge is scheduled, and the mark travels on. -/
def receiveAnnounce (c : Chip) (a : Announce) : Chip :=
  match tfind c.jobs a.job with
  | none => c
  | some j =>
    if isLead c j || !(jobRunning j) || j.ticks.announce == some a then c
    else sendBeacon (setTicks c a.job (fun t => { t with announce := some a })) (.announce a)

/-- REPLAY_EDGE (R53, R54): the announced edge fires and its tick starts. -/
def announcedEdge (e : Env) (c : Chip) (tag : Nat) : Chip :=
  match tfind c.jobs tag with
  | none => c
  | some j =>
    match j.ticks.announce with
    | none => c
    | some a =>
      if !(jobRunning j) || c.boot.halted || j.ticks.halt || decide (c.beacon.tick < a.due) || decide (c.now < edgeCycle c a.due + a.offset) then c
      else
        let c0 := setTicks c tag (fun t => { t with announce := none })
        let c1 := match a.kind with
          | .replay =>
            let due := edgeAtOrAfter c (c.now + jobPeriod c j)
            onJob c0 tag (fun j => { j with
              ticks := { j.ticks with due := due, next := a.tick + 1 }
              cnt := { j.cnt with replays := satAdd 32 j.cnt.replays 1, stretch := satAdd 32 j.cnt.stretch (due - j.ticks.due) } })
          | .restart => setTicks c0 tag (fun t => { t with replayPlan := none })
          | .deferred => countEdge (setTicks c0 tag (fun t => { t with next := a.tick, replayPlan := none })) tag c.beacon.tick
        lampReviews (edgeStart e c1 tag a.tick)

/-! Votes and verdicts. -/

/-- The oldest attempt of a job that this package leads is aborted without a source, for a cause (0: none; R47, R54, R57). -/
def abortOldest (c : Chip) (tag cause : Nat) : Chip :=
  match tfind c.jobs tag with
  | none => c
  | some j =>
    match j.ticks.attempts with
    | [] => c
    | a :: _ => if isLead c j then let v : VerdictMsg := ⟨tag, a.tick, a.ord, .abort, [], c.beacon.pkg, cause, 0, []⟩; applyAbort (flood c v) tag a v else c

/-- VOTE_TIMEOUT (R54): a strict vote missing at edge j+1 + d hops + 0.1 µs counts as a no. -/
def voteTimeout (c : Chip) (tag : Nat) : Chip :=
  match tfind c.jobs tag with
  | none => c
  | some j =>
    match j.ticks.attempts with
    | [] => c
    | a :: _ =>
      let edge := j.ticks.due - (j.ticks.next - (a.tick + 1)) * j.args.m
      if j.args.strict && decide (a.tick + 1 < j.ticks.next) && decide (edgeCycle c edge + hopsTime j + 130 ≤ c.now) then abortOldest c tag 0 else c

/-- PROGRESS (R57): an attempt not decided 1.25 job periods after it began. -/
def progressWatch (c : Chip) (tag : Nat) : Chip :=
  match tfind c.jobs tag with
  | none => c
  | some j =>
    match j.ticks.attempts with
    | [] => c
    | a :: _ =>
      if isLead c j && decide (0 < jobPeriod c j) && decide (5 * jobPeriod c j ≤ 4 * (c.now - a.startAt)) then
        abortOldest (raise c ⟨faultNo .progress, engNone, 0, none, noLw, tag, some (a.tick, a.ord), 0, noCore, c.now - a.startAt, 0, false, false, false⟩) tag (faultNo .progress)
      else c

/-- The first row whose status word R279 forbids, with the word. -/
def badRow (e : Env) (c : Chip) (j : Job) (a : Attempt) : Option (Nat × Nat) :=
  (a.plan.rows.zipIdx.filter (fun r => hasStatus r.1)).findSome? (fun r =>
    let w := statusOf e c j a r.2
    if statusBad j.args.kJob r.1 w then some (r.2, w) else none)

/-- Global core address of the core that wrote a row's status word last; the core whose memory holds it where none did (R279). -/
def statusWriter (c : Chip) (j : Job) (a : Attempt) (row : Nat) : Nat :=
  let x := copyAddr j a.r + statusOff a.plan + 4 * row
  match j.ticks.writers.find? (fun w => decide (w.1 < x + 4) && decide (x < w.1 + w.2.1)) with
  | some w => w.2.2
  | none => gca c (coreAt x)

/-- SETTLE (R44, R279): 64 cycles after done with no detector, the package votes yes; a bad row status word is a fault instead. -/
def settleAttempt (e : Env) (c : Chip) (tag : Nat) (j : Job) (a : Attempt) : Chip :=
  if a.st = .settling ∧ a.doneAt + Config.settle ≤ c.now then
    match badRow e c j a with
    | some (row, w) =>
      let g := statusWriter c j a row
      raise c ⟨faultNo .rowStatus, engNone, g, if g / 1024 = c.beacon.pkg then some (g % 1024) else none, noLw, tag, some (a.tick, a.ord), 0, noCore, row, w, true, false, false⟩
    | none => castVote e (setAttempt c tag a.tick a.ord (fun a => { a with st := .votedYes })) tag a true 0 0
  else c

def settleJob (e : Env) (c : Chip) (tag : Nat) : Chip :=
  let c1 := touchDone c tag
  match tfind c1.jobs tag with
  | none => c1
  | some j => lampReviews (each j.ticks.attempts c1 (fun c a => settleAttempt e c tag j a))

/-- A commit verdict that came before its attempt was the oldest is applied once it is (R48). -/
def applyEarly (e : Env) (c : Chip) (tag : Nat) : Chip :=
  match tfind c.jobs tag with
  | none => c
  | some j =>
    match j.ticks.attempts with
    | [] => c
    | a :: _ => match j.ticks.verdicts.find? (fun v => v.kind == .commit && v.tick == a.tick && v.attempt == a.ord) with
      | some v => (applyCommit e c tag a v.frees v.turned).1
      | none => c

/-- A verdict reaches a package that does not lead: it is forwarded once and applied in one step (R48, R49, R361, R372). For a kill, `cause` 1 is CLEAR_ALL, and `loc` the status of a quarantine of another job's, whose source it lists, or of a swap wave that failed there (R100), which lists none; those reach the lead too. -/
def receiveVerdict (e : Env) (c : Chip) (v : VerdictMsg) : Chip :=
  match tfind c.jobs v.job with
  | none => c
  | some j =>
    let held := j.ticks.verdicts.any (fun w => w.tick == v.tick && w.attempt == v.attempt && w.kind == v.kind && (v.kind != .kill || w.cause == v.cause))
    let ends := v.kind == .kill && v.loc != 0
    if (isLead c j && !ends) || held || (!(jobRunning j) && (v.kind != .kill || ends)) then c
    else
      let c1 := flood c v
      let keep := fun (c : Chip) => setTicks c v.job (fun t => { t with verdicts := (v :: t.verdicts).take 4 })
      match v.kind with
      | .commit =>
        (match j.ticks.attempts with
         | a :: _ => if a.tick = v.tick ∧ a.ord = v.attempt then applyEarly e (applyCommit e c1 v.job a v.frees v.turned).1 v.job else keep c1
         | [] => keep c1)
      | .abort =>
        (match j.ticks.attempts.find? (fun a => a.tick == v.tick && a.ord == v.attempt) with
         | some a => applyAbort c1 v.job a v
         | none => keep c1)
      | .quarantine => applyQuarantine (keep c1) v.job v
      | .kill =>
        if ends && v.frees.isEmpty then endJob (keep c1) v.job .halted .hwFault
        else if ends then
          killAs (jobEvent (keep c1) v.job v.tick 7 0 (leBytes 1 (v.frees.getD 0 0) ++ leBytes 4 (v.frees.getD 1 0) ++ leBytes 2 0)) v.job false
            (if v.loc = statusCode .programFault then .programFault else .hwFault)
        else applyKill (keep c1) v.job (v.cause == 1)

/-- VERDICT_QUERY (R51): voted yes (also where a no has superseded it), and no verdict 1 µs after the bound of R50. The bound runs from the domain's last done, which this package does not see: the model counts from its own done (log entry 56). -/
def askVerdict (c : Chip) (tag : Nat) : Chip :=
  match tfind c.jobs tag with
  | none => c
  | some j =>
    match j.ticks.attempts with
    | [] => c
    | a :: _ =>
      if (a.st = .votedYes ∨ a.st = .lateNo) ∧ a.doneAt + verdictBound j + Config.us ≤ c.now then sendBeacon c (.query tag a.tick a.ord) else c

/-- VERDICT_QUERY_RECEIPT (R51): a package that holds the verdict answers. -/
def answerQuery (c : Chip) (tag tick att : Nat) : Chip :=
  match (tfind c.jobs tag).bind (fun j => j.ticks.verdicts.find? (fun v => v.tick == tick && v.attempt == att)) with
  | some v => sendBeacon c (.answer v)
  | none => c

/-- ATTEMPT_DISCARD (R51): no verdict 1.5 job periods after the attempt began: discarded, and the job stops. -/
def discardWatch (c : Chip) (tag : Nat) : Chip :=
  match tfind c.jobs tag with
  | none => c
  | some j =>
    match j.ticks.attempts with
    | [] => c
    | a :: _ => if 0 < jobPeriod c j ∧ 3 * jobPeriod c j ≤ 2 * (c.now - a.startAt) then endJob c tag .halted .hwFault else c

/-- The coordinator decides a kill (R372): an unresolved attempt ends by an abort of kind kill; otherwise the kill follows the last verdict. -/
def decideKill (c : Chip) (tag : Nat) (clearAll : Bool) : Chip :=
  match tfind c.jobs tag with
  | none => c
  | some j =>
    if !(isLead c j) then c
    else
      let t := match j.ticks.attempts with | a :: _ => (a.tick, a.ord) | [] => (j.ticks.committed, 0)
      applyKill (flood c ⟨tag, t.1, t.2, .kill, [], 0, b2n clearAll, 0, []⟩) tag clearAll

/-- DOMAIN_HALTED (R31): two edges missed with no standby; a tick whose work has ended still reaches its verdict, every other job stops. No message says that a domain has no standby: the command stands for that, and the model halts a package whose own role is member (log entry 57). -/
def domainHalt (c : Chip) : Chip :=
  if c.boot.halted || c.beacon.role != 0 || !(twoMissed c.beacon c.now) then c
  else
    let c1 := event { c with boot := { c.boot with halted := true } } (assignedParts c) (plainEvent c 9 0 (leBytes 8 (c.beacon.seen.getD 0)))
    each ((c1.jobs.filter (fun p => jobRunning p.2)).map Prod.fst) c1 (fun c t =>
      haltCheck (setTicks (touchDone c t) t (fun x => { x with halt := true })) t)

/-! The rows. -/

/-- FIRE_EDGE (R24). -/
def execFireEdge (s : State) := lift fireEdge s
/-- PLAN (R273). -/
def execPlan (m : PlanMsg) (body : Plan) (s : State) := lift (fun e c => lampReviews (receivePlan e c m body)) s
/-- DOMAIN_HALTED (R31). -/
def execDomainHalted (s : State) := lift (fun _ c => domainHalt c) s
/-- SETTLE (R44). -/
def execSettle (t : Nat) (s : State) := lift (fun e c => settleJob e c t) s
/-- VOTE (R47). -/
def execVote (v : VoteMsg) (s : State) := lift (fun e c => lampReviews (recordVote e c v)) s
/-- VOTE_TIMEOUT (R54). -/
def execVoteTimeout (t : Nat) (s : State) := lift (fun _ c => lampReviews (voteTimeout c t)) s
/-- PROGRESS (R57). -/
def execProgress (t : Nat) (s : State) := lift (fun _ c => lampReviews (progressWatch c t)) s
/-- VERDICT (R48). -/
def execVerdict (v : VerdictMsg) (s : State) := lift (fun e c => lampReviews (receiveVerdict e c v)) s
/-- HOLD (R53). -/
def execHold (t tick : Nat) (s : State) := lift (fun _ c => receiveHold c t tick) s
/-- EDGE_ANNOUNCEMENT (R53). -/
def execEdgeAnnouncement (a : Announce) (s : State) := lift (fun _ c => lampReviews (receiveAnnounce c a)) s
/-- REPLAY_EDGE (R53). -/
def execReplayEdge (t : Nat) (s : State) := lift (fun e c => announcedEdge e c t) s
/-- VERDICT_QUERY (R51). -/
def execVerdictQuery (t : Nat) (s : State) := lift (fun _ c => askVerdict c t) s
/-- VERDICT_QUERY_RECEIPT (R51). -/
def execVerdictQueryReceipt (t tick att : Nat) (s : State) := lift (fun _ c => answerQuery c t tick att) s
/-- VERDICT_ANSWER (R51): applied as a verdict. -/
def execVerdictAnswer (v : VerdictMsg) (s : State) := lift (fun e c => lampReviews (receiveVerdict e c v)) s
/-- ATTEMPT_DISCARD (R51). -/
def execAttemptDiscard (t : Nat) (s : State) := lift (fun _ c => lampReviews (discardWatch c t)) s
/-- KILL_MESSAGE (R372). -/
def execKillMessage (t : Nat) (clearAll : Bool) (s : State) := lift (fun _ c => decideKill c t clearAll) s

end Sys2Proof.Machine
end

