-- ==== Sys2Proof/Machine/Power.lean ====
section
/-! DEFINITION. Lamp transitions, the D4 monitors, and the take with the injections that fire there (17_power.md R387-R394; 15_safety.md R358, R367; 09_keeper.md R224). -/

namespace Sys2Proof.Machine

/-- LAMP_TRANSITION_DONE (R387, R394): the stack takes its new state; job edges and table writes that waited for LIT go on. -/
def lampDone (e : Env) (c : Chip) (s : Nat) : Chip :=
  let l := lamp c s
  match l.goal with
  | none => c
  | some g =>
    if c.now < l.till then c
    else
      let c1 := onLamp c s (fun l => { l with st := g, goal := none })
      if g ≠ .lit then lampReview c1 s
      else
        let c2 := each (c1.jobs.map Prod.fst) c1 (fun c t =>
          match tfind c.jobs t with
          | none => c
          | some j =>
            if !(jobLit c j) then c
            else
              let c3 := applyHeld c t true
              if j.ticks.edge.isSome then launch e c3 t else c3)
        lampReview c2 s

/-- Location of a D4 monitor (R359). -/
def monitorLoc (m : Nat) : Nat := 2 ^ 23 + 0x200 + m % 0x100

/-- A D4 fault record of no attempt, or one for each unresolved attempt that it covers (R358). -/
def monitorFault (c : Chip) (f : FaultCode) (m value : Nat) (injected : Bool) : Chip :=
  let hit := c.jobs.flatMap (fun p => p.2.ticks.attempts.map (fun a => (p.1, a.tick, a.ord)))
  let one := fun (job : Nat) (att : Option (Nat × Nat)) =>
    (⟨faultNo f, engNone, monitorLoc m, none, noLw, job, att, 0, noCore, m, value, att.isSome, false, injected⟩ : Raise)
  if hit = [] then raise c (one 0 none) else each hit c (fun c h => raise c (one h.1 (some h.2)))

/-- THERMAL_WARN (R358, R365): an event to every assigned partition. -/
def thermalEvent (c : Chip) (m value : Nat) (injected : Bool) : Chip :=
  event c (assignedParts c) (plainEvent c 8 (2 * b2n injected) (leBytes 4 m ++ leBytes 4 value))

/-- THERMAL_TRIP (R358): every job stops with HW_FAULT, on every package as a verdict of kind kill tells; every stack goes DARK, THERMTRIP# falls and the device has failed. -/
def thermalStop (c : Chip) (m value : Nat) (injected : Bool) : Chip :=
  let c1 := each ((c.jobs.filter (fun p => jobRunning p.2)).map Prod.fst) c (fun c t =>
    let at_ := ((tfind c.jobs t).bind newest).map (fun a => (a.tick, a.ord))
    let tick := ((tfind c.jobs t).map (fun j => j.ticks.committed)).getD 0
    endJob (flood c ⟨t, (at_.getD (tick, 0)).1, (at_.getD (tick, 0)).2, .kill, [faultNo .thermalTrip, monitorLoc m], c.beacon.pkg, 0, statusCode .hwFault, []⟩) t .halted .hwFault)
  let c2 := raise c1 ⟨faultNo .thermalTrip, engNone, monitorLoc m, none, noLw, 0, none, 0, noCore, m, value, false, false, injected⟩
  let c3 := each [0, 1, 2, 3] c2 (fun c s => onLamp c s (fun l => { l with st := .dark, goal := none, till := c.now }))
  { c3 with boot := { c3.boot with failed := true, thermtrip := true } }

/-- An armed MONITOR injection forces its monitor (R367). -/
def forceMonitor (c : Chip) : Chip :=
  match c.safe.injSel.toNat % 4 with
  | 0 => monitorFault (injectFired c) .voltageFault 0 0 true
  | 1 => monitorFault (injectFired c) .clockFault 0 0 true
  | 2 => thermalEvent (injectFired c) 0 0 true
  | _ => thermalStop (injectFired c) 0 0 true

/-- An armed SCRUB_CORRUPT injection stores a word with two bits flipped (R367). -/
def corruptWord (c : Chip) : Chip :=
  let w := (c.safe.injLo.toNat + c.safe.injHi.toNat % 256 * 2 ^ 32) / 16
  let sel := c.safe.injSel.toNat
  (injectBits sel 2).foldl (fun c b => upsetAt c w [b]) (injectFired c)

/-- Injections whose qualifying event on a core is its next take (R367). -/
def takeInjections (c : Chip) (i : Nat) : Chip :=
  if (core c i).fifo = [] then c
  else if armedFor c 3 i then corruptWord c
  else if armedFor c 11 i then forceMonitor c
  else c

/-- LAMP_EXIT (R390). -/
def execLampExit (n : Nat) (s : State) := lift (fun _ c => lampReview c (n % 4)) s
/-- LAMP_TRANSITION_DONE (R387). -/
def execLampTransitionDone (n : Nat) (s : State) := lift (fun e c => lampDone e c (n % 4)) s
/-- CLOCK_FAULT (R358). -/
def execClockFault (m v : Nat) (s : State) := lift (fun _ c => monitorFault c .clockFault m v false) s
/-- VOLTAGE_FAULT (R358). -/
def execVoltageFault (m v : Nat) (s : State) := lift (fun _ c => monitorFault c .voltageFault m v false) s
/-- THERMAL_WARN (R358). -/
def execThermalWarn (m v : Nat) (s : State) := lift (fun _ c => thermalEvent c m v false) s
/-- THERMAL_TRIP (R358). -/
def execThermalTrip (m v : Nat) (s : State) := lift (fun _ c => thermalStop c m v false) s
/-- Whether an error strikes a stored word. -/
def storedUpset : Upset → Bool
  | .word _ _ => true
  | _ => false

/-- Errors strike a core, which wait for the check that covers them, or stored words (R206, R355, R356). -/
def strike (c : Chip) (i : Nat) (us : List Upset) : Chip :=
  us.foldl (fun c u => match u with
    | .word w bits => upsetAt c w bits
    | u => onCore c i (fun k => { k with upsets := k.upsets ++ [(u, false)] })) c

/-- TAKE (R224). -/
def execTake (i : Nat) (x : TakeIn) (s : State) :=
  lift (fun _ c => takeWord (takeInjections (strike c (i % 1024) x.upsets) (i % 1024)) (i % 1024) x.crcOk) s

end Sys2Proof.Machine
end

