-- ==== Sys2Proof/Machine/Arrivals.lean ====
section
/-! DEFINITION. Remote writes, shelf writes and remote reads as they reach this package; scrub (03_memory.md R66, R73-R89; 09_keeper.md R236; 15_safety.md R355, R357; 16_tenancy.md R374; 17_power.md R388). -/

namespace Sys2Proof.Machine

/-- An access that is dropped and counted: its job is being cleared, or its attempt is recorded as aborted or discarded (R82, R374). -/
def dropped (c : Chip) (tag tick att : Nat) : Bool :=
  goneAttempt c tag tick att || (match tfind c.jobs tag with | some j => j.clearing | none => false)

def countStale (c : Chip) : Chip := { c with beacon := { c.beacon with stale := c.beacon.stale + 1 } }

/-- Whether the stack of a core is in SHADE or DARK, where no arrival lands (R388). -/
def meshOff (c : Chip) (i : Nat) : Bool := 2 ≤ lampDepth (lamp c (i / 256)).st

/-- WINDOW_VIOLATION at both ends (R81, R236, R388): the receiver's covers its attempt only when the tags are equal. -/
def violation (c : Chip) (i addr n src tag tick att lw : Nat) (own : Bool) : Chip :=
  let c1 := raise c ⟨faultNo .windowViolation, engRx, gca c i, some i, noLw, tag, some (tick, att), addr, src, tag, n, own, true, false⟩
  if src / 1024 = c.beacon.pkg then
    raise c1 ⟨faultNo .windowViolation, engS, src, some (src % 1024), lw, tag, some (tick, att), addr, gca c i, tag, n, true, false, false⟩
  else c1

/-! What reaches a core queues at its ejection port (R65, R70); each cycle takes one beat of it. -/

/-- An arrival that is at the ejection port now. -/
def atPort (c : Chip) (i : Nat) (a : Arrival) : Chip := atPortAt c i c.now a

/-- A fault that a core reports of an access from elsewhere (R74, R84): it covers the access's attempt. -/
def rxFault (c : Chip) (i : Nat) (f : FaultCode) (addr src tag tick att item : Nat) : Chip :=
  raise c ⟨faultNo f, engRx, gca c i, some i, noLw, tag, some (tick, att), addr, src, item, 0, true, true, false⟩

/-- REMOTE_WRITE (R80-R83): it queues at the core's ejection port; one of no bytes does nothing, one outside the stores and near scratchpads is ADDRESS_RANGE (R60). -/
def remoteArrive (c : Chip) (w : RemoteWrite) : Chip :=
  if w.data = [] then c
  else if !(inStore w.addr || inAnyNear w.addr) then rxFault c (coreAt w.addr) .addressRange w.addr w.src w.tag w.tick w.attempt 0
  else atPort c (coreAt w.addr) (.write w w.addr w.data.length)

/-- SHELF_WRITE (R73-R75, R236): it queues at the core's ejection port. -/
def shelfArrive (c : Chip) (w : ShelfWrite) : Chip := if w.data = [] then c else atPort c (w.core % 1024) (.shelf w 0 w.data.length)

/-- The answer to a remote read (R66): to the core of this package that asked, or as read responses to another. -/
def answerRead (c : Chip) (i : Nat) (r : RemoteRead) (data : List Byte) : Chip :=
  if r.src / 1024 = c.beacon.pkg then atPortAt c (r.src % 1024) (c.now + pathTime i (r.src % 1024)) (.back r.addr data)
  else queueFrames c (framesOf 3 (r.src / 1024) r.addr r.tag r.src r.tick r.attempt data)

/-- REMOTE_READ (R60, R66, R82, R84): it queues at the ejection port of the core whose slice it reads, in cycle `t`; one that is not of the job's declared store bytes is ADDRESS_RANGE and delivers zeros. -/
def remoteFetch (c : Chip) (t : Nat) (r : RemoteRead) : Chip :=
  let i := coreAt r.addr
  if r.len = 0 then c
  else if dropped c r.tag r.tick r.attempt then countStale c
  else if (match tfind c.jobs r.tag with | none => false | some j => (List.range r.len).all (fun t => inStore (r.addr + t) && inRanges j (r.addr + t))) then
    atPortAt c i t (.read r)
  else answerRead (rxFault c i .addressRange r.addr r.src r.tag r.tick r.attempt 0) i r (List.replicate r.len 0)

/-- Whether a job of this package may be written at every byte of a range from elsewhere (R60, R76). -/
def landOk (c : Chip) (i tag a n : Nat) : Bool :=
  match tfind c.jobs tag with
  | none => false
  | some j => (List.range n).all (fun t => inRanges j (a + t) && !(inNear i (a + t) && inShelf j i (a + t)))

/-- Whether a window of a core admits a write of `n` bytes (R80); the cores of a partition that is being released have none open (R378). -/
def windowTakes (c : Chip) (i a n tag : Nat) : Bool :=
  (bandPart c (bandOf i)).all (fun p => (part c p).state != 2) && winAdmits (core c i) i c.now a n tag

/-- The check of a remote write when its first line arrives (R60, R80-R82, R388): whether its bytes are written. -/
def admitWrite (c : Chip) (i : Nat) (a n src tag tick att lw : Nat) : Bool × Chip :=
  if dropped c tag tick att then (false, countStale c)
  else if meshOff c i then (false, violation c i a n src tag tick att lw false)
  else if !(windowTakes c i a n tag) then (false, violation c i a n src tag tick att lw (jobOfCore c i == tag && tag != 0))
  else if landOk c i tag a n then (true, c)
  else (false, rxFault c i .addressRange a src tag tick att 0)

/-- The check of a shelf write when its first line arrives (R72-R75, R82, R236, R388): the address of its slot, where it is admitted. `whole`: whether it is a whole slot. -/
def admitShelf (c : Chip) (i sh sl n src tag tick att lw : Nat) (whole : Nat → Bool) : Option Nat × Chip :=
  let item := sh % 256 + sl % 4096 * 256
  if dropped c tag tick att then (none, countStale c)
  else
    match coreJob c i with
    | none => (none, violation c i 0 n src tag tick att lw false)
    | some j =>
      let a := match shelfOf j i sh with | some d => slotAddr d i sl | none => 0
      if tag = 0 ∨ jobOfCore c i ≠ tag ∨ meshOff c i = true then (none, violation c i a n src tag tick att lw false)
      else match shelfOf j i sh with
        | none => (none, rxFault c i .addressRange 0 src tag tick att item)
        | some d =>
          if d.slots ≤ sl then (none, rxFault c i .addressRange 0 src tag tick att item)
          else if !(whole (d.lines * 64)) then (none, rxFault c i .sEncoding a src tag tick att item)
          else if guardFull (core c i) c.now sh sl then (none, rxFault c i .shelfOverrun a src tag tick att item)
          else (some a, c)

/-- Bytes of a beat at an address (R63, R70): up to four lines of near scratchpad, or the rest of a store row. -/
def beatLen (a n : Nat) : Nat := min n (if inStore a then 256 - a % 256 else 256 - a % 64)

/-- Bytes reach a core: a near scratchpad takes them, a slice queues them (R65, R70). -/
def landBytes (c : Chip) (i a : Nat) (bs : List Byte) : Chip :=
  if inStore a then onCore c i (fun k => { k with remq := k.remq ++ [.write a bs] }) else wr c a bs

/-- What a core holds of a write on its way (R80): whether it was admitted; with its last bytes the entry goes. -/
def landingOf (c : Chip) (i key : Nat) : Bool := match (core c i).landing.find? (fun x => x.1 == key) with | some x => x.2.2 | none => false

def setLanding (c : Chip) (i key left : Nat) (ok : Bool) : Chip :=
  onCore c i (fun k => { k with landing := k.landing.filter (fun x => x.1 != key) ++ (if left = 0 then [] else [(key, left, ok)]) })

/-- Key of a remote write, or of a shelf write, of a core of this package while it lands. -/
def writeKey (w : RemoteWrite) (lo : Nat) : Nat := 2 ^ 70 + w.src * 2 ^ 40 + lo
def shelfWriteKey (w : ShelfWrite) : Nat := 2 ^ 69 + w.src * 2 ^ 20 + w.shelf % 256 * 2 ^ 12 + w.slot % 4096

/-- The rest of an arrival's data that its port takes in one cycle (R63, R70): the first byte's place in the data, and the bytes. -/
def portBeat (a : Arr) (addr : Nat) (data : List Byte) : List Byte := (data.drop a.done).take (beatLen (addr + a.done) (data.length - a.done))

/-- The head of the ejection port has had `n` more of its `total` bytes; `ok`: they were admitted. -/
def portStep (c : Chip) (i : Nat) (a : Arr) (n total : Nat) (ok : Bool) : Chip :=
  onCore c i (fun k => { k with eject := (if a.done + n < total then [{ a with done := a.done + n, ok := ok }] else []) ++ k.eject.tail })

/-- Bytes that land for the head of the ejection port, if they were admitted. -/
def portLand (c : Chip) (i : Nat) (a : Arr) (addr : Nat) (data : List Byte) (ok : Bool) : Chip × Option (Nat × List Byte) :=
  let bs := portBeat a addr data
  let c1 := portStep c i a bs.length data.length ok
  if ok then (landBytes c1 i (addr + a.done) bs, some (addr + a.done, bs)) else (c1, none)

/-- Whether the head of the ejection port waits: for its time, or for room in the remote queue (R65, R66). -/
def portWaits (c : Chip) (i : Nat) (a : Arr) : Bool :=
  let full := decide (16 ≤ (core c i).remq.length)
  decide (c.now < a.at_) || (match a.what with
    | .back _ _ => false
    | .shelf _ _ _ => false
    | .read _ => full
    | .write w lo _ => full && inStore w.addr && (a.ok || (a.done == 0 && (w.addr == lo || landingOf c i (writeKey w lo))))
    | .piece x _ _ => full && inStore x)

/-- One beat of the arrival at the head of a core's ejection port: the chip, and the bytes that landed (R65, R70, R73, R75, R80). The first line of a write decides for the whole of it. -/
def ejectBeat (c : Chip) (i : Nat) : Chip × Option (Nat × List Byte) :=
  match (core c i).eject with
  | [] => (c, none)
  | a :: _ =>
    if portWaits c i a then (c, none) else
    match a.what with
    | .back x data =>
      let n := min 256 (data.length - a.done)
      (onCore (portStep c i a n data.length true) i (fun k => { k with back := k.back ++ [(x + a.done, (data.drop a.done).take n)] }), none)
    | .read r =>
      let c1 := portStep c i a 0 0 true
      if dropped c r.tag r.tick r.attempt then (countStale c1, none) else (onCore c1 i (fun k => { k with remq := k.remq ++ [.read r []] }), none)
    | .write w lo len =>
      let key := writeKey w lo
      let st := if a.done ≠ 0 then (a.ok, c) else if w.addr = lo then admitWrite c i lo len w.src w.tag w.tick w.attempt w.lw else (landingOf c i key, c)
      let x := if st.1 then noteWriter st.2 (jobOfCore st.2 i) w.src [(w.addr, w.data.length)] else st.2
      let r := portLand x i a w.addr w.data st.1
      (if a.done = 0 then setLanding r.1 i key (lo + len - (w.addr + w.data.length)) st.1 else r.1, r.2)
    | .piece x data fl =>
      let r := portLand c i a x data true
      match fl with
      | some g => if data.length ≤ a.done + (portBeat a x data).length then (onCore r.1 i (fun k => setGuard k c.now g.1 g.2 true), r.2) else r
      | none => r
    | .shelf w off len =>
      let key := shelfWriteKey w
      let slot := ((coreJob c i).bind (fun j => shelfOf j i w.shelf)).map (fun d => slotAddr d i w.slot)
      let st := if a.done ≠ 0 then (a.ok, c)
        else if off = 0 then (let y := admitShelf c i w.shelf w.slot len w.src w.tag w.tick w.attempt w.lw (fun n => n == len); (y.1.isSome, y.2))
        else (landingOf c i key, c)
      let r := portLand st.2 i a (slot.getD 0 + off) w.data st.1
      let c1 := if a.done = 0 then setLanding r.1 i key (len - (off + w.data.length)) st.1 else r.1
      if st.1 ∧ w.data.length ≤ a.done + (portBeat a (slot.getD 0 + off) w.data).length ∧ off + w.data.length = len then
        (onCore c1 i (fun k => setGuard k c.now w.shelf w.slot true), r.2)
      else (c1, r.2)

/-- The bundle serves the access at the head of the remote queue (R65, R66): a row written, or the next row of a read. The row is on its way back after the profile's store-read latency, to a core of this package row by row, to another package whole. -/
def serveRemote (e : Env) (c : Chip) (i : Nat) : Chip :=
  match (core c i).remq with
  | [] => c
  | .write a bs :: r => wr (onCore c i (fun k => { k with remq := r, used := k.used + 1 })) a bs
  | .read q got :: r =>
    let a := q.addr + got.length
    let n := min (q.len - got.length) (256 - a % 256)
    let c1 := readCheck c i engRx noLw ((List.range n).map (a + ·))
    let bs := rdBytes e c a n
    let all := got ++ bs
    let done := decide (q.len ≤ all.length)
    let here := q.src / 1024 == c.beacon.pkg
    let out := if here then [({ q with addr := a, len := n }, bs)] else if done then [(q, all)] else []
    let at_ := c.now + (match tfind c.jobs q.tag with | some j => Config.storeRead j.hdr.profile | none => 0)
    onCore c1 i (fun k => { k with
      remq := (if done then [] else [.read q all]) ++ r, used := k.used + 1, replies := k.replies ++ out.map (fun x => (at_, x.1, x.2)) })

/-- Rows that come out of a slice now are answered (R66). -/
def sendReplies (c : Chip) (i : Nat) : Chip :=
  let due := (core c i).replies.filter (fun x => decide (x.1 ≤ c.now))
  if due = [] then c
  else each due (onCore c i (fun k => { k with replies := k.replies.filter (fun x => !(decide (x.1 ≤ c.now))) })) (fun c x => answerRead c i x.2.1 x.2.2)

/-! Scrub. -/

/-- First byte of a store row (256 B) or a near-scratchpad line (64 B), and the core it is of. -/
def rowAddr (near : Bool) (row : Nat) : Nat := if near then Config.nearBase + row % 2 ^ 25 * 64 else row % 2 ^ 26 * 256
def rowCore (near : Bool) (row : Nat) : Nat := if near then row % 2 ^ 25 / 2 ^ 15 else row % 2 ^ 26 / 2 ^ 16
def rowWords (near : Bool) : Nat := if near then 4 else 16
def rowsPerCore (near : Bool) : Nat := if near then 2 ^ 15 else 2 ^ 16

/-- A word that scrub finds in error (R88, R89, R363): counted and to be written back, or SCRUB_UE with the weight section it lies in. -/
def scrubWord (c : Chip) (i w : Nat) (bits : List Nat) : Chip :=
  match bits with
  | [] => c
  | [_] => { c with safe := { c.safe with ceCount := satAdd 16 c.safe.ceCount 1, fixes := if c.safe.fixes.contains w then c.safe.fixes else c.safe.fixes ++ [w] } }
  | _ =>
    withSyndrome c (fun y c => raise c ⟨faultNo .scrubUe, engNone, gca c i, some i, noLw, 0, none, w * 16, noCore, y, regionItem c (w * 16), false, false, false⟩)

/-- The pass after one more row of a core: complete when every row of every core is read, and then a new one begins (R87). -/
def passRow (c : Chip) (near : Bool) (i row : Nat) : Chip :=
  let r := row % rowsPerCore near
  let t := tupd [] (if near then c.safe.nearRows else c.safe.storeRows) i (fun l => if l.contains r then l else l ++ [r])
  let whole := (List.range 1024).all (fun k => (tget [] t k).length == rowsPerCore near)
  if near then { c with safe := { c.safe with nearRows := if whole then [] else t, nearPass := if whole then c.now else c.safe.nearPass } }
  else { c with safe := { c.safe with storeRows := if whole then [] else t, storePass := if whole then c.now else c.safe.storePass } }

/-- SCRUB (R87, R88). `upset`: bits of words of the row (word in the row, bits) found flipped in the stored word. -/
def scrubRow (c : Chip) (near : Bool) (row : Nat) (upset : List (Nat × List Nat)) : Chip :=
  let i := rowCore near row
  let w0 := rowAddr near row / 16
  if c.boot.stacksUp.getLsbD (i / 256) = false then c
  else
    let c1 := each (upset.filter (fun u => decide (u.1 < rowWords near))) c (fun c u =>
      upsetAt c (w0 + u.1) (u.2.map (· % 137)))
    passRow (each (List.range (rowWords near)) c1 (fun c k => scrubWord c i (w0 + k) (tget [] c.safe.ecc (w0 + k)))) near i row

/-- SCRUB_WRITE_BACK (R88): the corrected line goes back unless a write reached it since. -/
def scrubFix (c : Chip) (w : Nat) : Chip :=
  if c.safe.fixes.contains w then { c with safe := { c.safe with fixes := c.safe.fixes.filter (· != w), ecc := tdel c.safe.ecc w } } else c

/-- Pass target in cycles (R89): units of 1 s or 62.5 ms, 1 to 16. -/
def passTarget (c : Chip) (near : Bool) : Nat :=
  let f := if near then bitsOf c.safe.scrubCfg.toNat 23 16 else bitsOf c.safe.scrubCfg.toNat 15 8
  min (max f 1) 16 * (if near then 81250000 else 1300000000)

/-- Rows that the slowest core is behind pace (R357). -/
def rowsBehind (c : Chip) (near : Bool) : Nat :=
  let since := if near then c.safe.nearPass else c.safe.storePass
  let rows := if near then c.safe.nearRows else c.safe.storeRows
  let least := (leastOf ((List.range 1024).map (fun k => (tget [] rows k).length))).getD 0
  min ((c.now - since) * rowsPerCore near / passTarget c near) (rowsPerCore near) - least

/-- STORE_LATE and NEAR_LATE (R87, R357): the alarm bit, an event to every assigned partition, a D2 record over the management port. -/
def scrubLate (c : Chip) (near : Bool) : Chip :=
  let since := if near then c.safe.nearPass else c.safe.storePass
  let limit := if near then 1000 * Config.ms else 16000 * Config.ms
  let already := if near then c.safe.nearLate else c.safe.storeLate
  if already ∨ c.boot.stacksUp ≠ 0xF#4 ∨ c.now < since + limit then c
  else
    let c1 := { c with safe := { c.safe with storeLate := c.safe.storeLate || !near, nearLate := c.safe.nearLate || near } }
    let c2 := event c1 (assignedParts c) (plainEvent c 6 0 (leBytes 4 (b2n near) ++ leBytes 4 (rowsBehind c near)))
    raise c2 ⟨if near then faultNo .nearLate else faultNo .storeLate, engNone, 0, none, noLw, 0, none, 0, noCore, 0, 0, false, false, false⟩

/-- REMOTE_WRITE (R80). -/
def execRemoteWrite (w : RemoteWrite) (s : State) := lift (fun _ c => remoteArrive c w) s
/-- SHELF_WRITE (R73). -/
def execShelfWrite (w : ShelfWrite) (s : State) := lift (fun _ c => shelfArrive c w) s
/-- REMOTE_READ (R66). -/
def execRemoteRead (r : RemoteRead) (s : State) := lift (fun _ c => remoteFetch c c.now r) s
/-- SCRUB (R87). -/
def execScrub (near : Bool) (row : Nat) (upset : List (Nat × List Nat)) (s : State) := lift (fun _ c => scrubRow c near row upset) s
/-- SCRUB_WRITE_BACK (R88). -/
def execScrubWriteBack (w : Nat) (s : State) := lift (fun _ c => scrubFix c w) s
/-- STORE_LATE (R87). -/
def execStoreLate (s : State) := lift (fun _ c => scrubLate c false) s
/-- NEAR_LATE (R87). -/
def execNearLate (s : State) := lift (fun _ c => scrubLate c true) s

end Sys2Proof.Machine
end

