-- ==== Sys2Proof/Machine/Links.lean ====
section
/-! DEFINITION. Ihlan links: slots, frames, control words, resends, joins, fog (13_ihlan.md R314-R337, R440). -/

namespace Sys2Proof.Machine

/-! Slots. -/

/-- `s` slots in cycles, rounded up: 544 B at 105.82 GB/s for x4, half the rate for x2 (R315, R316). -/
def slotCycles (x2 : Bool) (s : Nat) : Nat := cdiv (s * (if x2 then 2 else 1) * 3847168) 575680

/-- The job that holds a port. -/
def holderJob (c : Chip) (n : Nat) : Option Job := (portHolder c n).bind (tfind c.jobs)

/-- Cycle at which slot 0 of a port began: the edge of the newest attempt of the holding job, or the last domain edge (R316). -/
def slotOrigin (c : Chip) (n : Nat) : Nat :=
  match (holderJob c n).bind newest with
  | some a => a.edgeAt
  | none => c.beacon.firedAt.getD 0

def slotTime (c : Chip) (n s : Nat) : Nat := slotOrigin c n + slotCycles (tget Port.reset c.ports n).width s

/-- Slot 0 of the grid that a frame of a port counts on: that of its own attempt, where the holding job has it still unresolved (R316, R318). -/
def frameOrigin (c : Chip) (n : Nat) (f : Frame) : Nat :=
  if portHolder c n = some f.tag then
    match (holderJob c n).bind (fun j => j.ticks.attempts.find? (fun a => a.tick % 4 == f.tick % 4 && a.ord % 8 == f.attempt % 8)) with
    | some a => a.edgeAt
    | none => slotOrigin c n
  else slotOrigin c n

def frameTime (c : Chip) (n s : Nat) (f : Frame) : Nat := frameOrigin c n f + slotCycles (tget Port.reset c.ports n).width s

/-- The link-table entry of a port in the program that holds it. -/
def linkOf (c : Chip) (n : Nat) : Option LinkDecl := (holderJob c n).bind (fun j => j.place.links.find? (fun l => l.port == n))

/-- The hop of the job that a frame's tag names (R253, R322). -/
def hopOf (c : Chip) (tag : Nat) : Nat := match tfind c.jobs tag with | some j => Config.hop j.hdr.profile | none => Config.domainHop

/-- N_t of R329 in slots: (2H + 100 ns) / slot time, rounded up. -/
def resendGap (hop : Nat) (x2 : Bool) : Nat := cdiv ((2 * hop + 130) * 575680) ((if x2 then 2 else 1) * 3847168)

/-- Distance from sequence `b` up to `a`, modulo 1,024 (R317). -/
def seqDist (a b : Nat) : Nat := (a + 1024 - b % 1024) % 1024

def portLoc (n : Nat) : Nat := 2 ^ 23 + 0x100 + n

/-- Item A of a link fault (R363). -/
def linkItem (n seq : Nat) : Nat := n + seq % 1024 * 16

/-- The attempt of a job that a frame's TICK and ATTEMPT bits name (R318). -/
def frameAttempt (c : Chip) (f : Frame) : Option (Nat × Nat) :=
  match tfind c.jobs f.tag with
  | none => none
  | some j =>
    match j.ticks.attempts.find? (fun a => a.tick % 4 == f.tick % 4 && a.ord % 8 == f.attempt % 8) with
    | some a => some (a.tick, a.ord)
    | none => j.ticks.gone.reverse.find? (fun g => g.1 % 4 == f.tick % 4 && g.2 % 8 == f.attempt % 8)

/-- A D1 fault of a port that covers the attempt of a frame. -/
def linkFault (c : Chip) (f : FaultCode) (n seq slot tag : Nat) (att : Option (Nat × Nat)) : Chip :=
  raise c ⟨faultNo f, engRx, portLoc n, none, noLw, tag, att, 0, noCore, linkItem n seq, slot, tag != 0, false, false⟩

/-! Fog. -/

/-- Class bit of a data frame in a fog mask: link-management frames are never selected (R336). -/
def fogClass (f : Frame) : Nat := if f.cls < 7 then f.cls else 8

/-! Departure. -/

/-- The control word of a port (R320): what was sent last, what has been received in order, and what is missing. -/
def ackSeq (p : Port) : Nat :=
  let waits := p.nacks.map (fun x => x.seq) ++ p.hold.map (fun h => h.f.seq)
  match leastOf (waits.map (fun s => 1024 - seqDist p.rxSeq s)) with
  | some d => (p.rxSeq + d + 1023 - 1024) % 1024
  | none => if p.rxAny then p.rxSeq else 1023

def sendControl (c : Chip) (n kind slot : Nat) : Chip :=
  let p := tget Port.reset c.ports n
  let w : ControlWord := ⟨kind, slot % 65536, (p.txSeq + 1023) % 1024, ackSeq p, ((p.nacks.head?).map (fun x => x.seq)).getD 0, !p.nacks.isEmpty⟩
  emit c (.control n w (controlCrc w))

/-- A frame leaves a port under its transmit fog (R336); `kind` is that of its control word (R320). -/
def putFrame (c : Chip) (n slot kind : Nat) (f : Frame) : Chip :=
  let p := tget Port.reset c.ports n
  let x := fogPick p.fogTx (fogClass f)
  let c1 := onPort c n (fun p => { p with fogTx := x.2.2 })
  let send := fun (c : Chip) (ok : Bool) (d : Nat) =>
    let q := tget Port.reset c.ports n
    let c2 := emit c (.frame n slot f (frameCrc f) ok d)
    match q.swapTx with
    | some g => emit (onPort c2 n (fun p => { p with swapTx := none })) (.frame n slot g (frameCrc g) true 0)
    | none => c2
  if !x.1 then sendControl (send c1 true 0) n kind slot
  else
    let c2 := onPort c1 n countFog
    match p.fogTx.action with
    | 1 => sendControl c2 n 0 slot
    | 2 => sendControl (send c2 (x.2.1 % 3 == 0) 0) n kind slot
    | 3 => if p.swapTx.isNone then sendControl (onPort c2 n (fun p => { p with swapTx := some f })) n 0 slot else sendControl (send c2 true 0) n kind slot
    | _ => sendControl (send c2 true p.fogTx.delay) n 0 slot

/-- A port that carries data: UP and joined (R331). -/
def portOpen (e : Env) (c : Chip) (n : Nat) : Bool := (port e c n).st == .up && (port e c n).joined

/-- The first slot of a port that begins at cycle `t` or after it. -/
def slotFrom (c : Chip) (n t : Nat) : Nat := cdiv ((t - slotOrigin c n) * 575680) ((if (tget Port.reset c.ports n).width then 2 else 1) * 3847168)

/-- The slot boundaries at which the waiting Beacon messages of a port are inserted, in order: up to four messages at each (R323). -/
def insertions (c : Chip) (n : Nat) (ts : List Nat) : List (Nat × Nat) :=
  ts.foldl (fun l t =>
    let k := slotFrom c n t
    match l.getLast? with
    | some (s, m) => if s < k then l ++ [(k, 1)] else if m < 4 then l.dropLast ++ [(s, m + 1)] else l ++ [(s + 1, 1)]
    | none => [(k, 1)]) []

/-- Slots of `a` up to, but not with, `b` that are not reserve slots: with no booked frame, each absorbs one slot of delay (R324). -/
def freeSlots (l : Option LinkDecl) (a b : Nat) : Nat :=
  match l with
  | some l => if l.period = 0 then b - a else (b - a) - (b / l.period - a / l.period)
  | none => b - a

/-- The delay that the insertions ahead of the frame booked into a slot have left it, whether one falls ahead of it since the last frame, and the messages still waiting (R323, R324). -/
def displaced (c : Chip) (n slot : Nat) : Nat × Bool × List Nat :=
  let p := tget Port.reset c.ports n
  let l := linkOf c n
  let start := if p.grid.1 = slotOrigin c n then p.grid.2 else 0
  let r := (insertions c n p.waiting).foldl (fun (x : Nat × Nat × Nat) i =>
    if slot + x.2.1 < i.1 then x
    else
      let b := max x.1 (i.1 - x.2.1)
      (b, x.2.1 - freeSlots l x.1 b + 1, x.2.2 + i.2)) (start, p.shift, 0)
  (r.2.1 - freeSlots l r.1 slot, r.2.2 != 0, p.waiting.drop r.2.2)

/-- FRAME_DEPARTURE (R318, R323, R324, R326-R328): a relayed frame booked into the slot, or the waiting frame `pick` whose booking it is, takes the next SEQ and leaves, later by the delay of the insertions ahead of it. A frame of a job leaves only by a port that its job holds. On a held port a service frame leaves only in a slot that no displaced frame and no resend takes. -/
def depart (e : Env) (c : Chip) (n slot pick : Nat) : Chip :=
  let p := port e c n
  let d := displaced c n slot
  let early := fun (f : Frame) => decide (c.now < frameTime c n (slot + d.1) f)
  let go := fun (c : Chip) (f : Frame) =>
    let f := { f with seq := p.txSeq % 1024 }
    putFrame (onPort c n (fun p => { p with
      txSeq := (p.txSeq + 1) % 1024, kept := p.kept ++ [⟨f.seq, slot, f, 0⟩]
      waiting := d.2.2, shift := d.1, grid := (slotOrigin c n, slot + 1) })) n slot (if d.2.1 then 2 else 1) f
  if !(portOpen e c n) then c
  else
    match p.relay.find? (fun r => r.1 == slot) with
    | some r => if early r.2 then c else go (onPort c n (fun p => { p with relay := p.relay.erase r })) r.2
    | none =>
      match c.egress[pick]? with
      | some f =>
        if early f ∨ (f.cls ≤ 3 ∧ portHolder c n ≠ some f.tag) ∨ (f.cls = 5 ∧ (portHolder c n).isSome = true ∧ (d.1 ≠ 0 ∨ p.reserve = slot + 1)) then c
        else go { c with egress := c.egress.eraseIdx pick } f
      | none => c

/-- RESEND (R329, R330): the first lost frame whose gap the reserve slot meets leaves with RETX and its own SEQ, past its window it is given up; where there is none, a resend that this package relays leaves. -/
def resend (e : Env) (c : Chip) (n slot : Nat) : Chip :=
  let p := port e c n
  match linkOf c n with
  | none => c
  | some l =>
    if !(portOpen e c n) || l.period == 0 || slot % l.period != l.period - 1 || decide (slot < p.reserve) || decide (c.now < slotTime c n slot) then c
    else
      let past := fun (k : SentFrame) => decide (frameTime c n (k.slot + l.window) k.f < slotTime c n slot)
      let old := p.again.filter past
      let c1 := onPort c n (fun p => { p with again := p.again.filter (fun k => !(past k)), kept := p.kept.filter (fun k => !(old.any (fun o => o.seq == k.seq))) })
      let q := tget Port.reset c1.ports n
      match q.again.find? (fun k => decide (frameTime c n (k.slot + resendGap (hopOf c k.f.tag) p.width) k.f ≤ slotTime c n slot)), q.relayAgain with
      | some k, _ =>
        let c2 := onPort c1 n (fun p => { p with
          again := p.again.filter (fun x => x.seq != k.seq), reserve := slot + 1, resent := satAdd 8 p.resent 1
          kept := p.kept.map (fun x => if x.seq = k.seq then { x with resends := x.resends + 1 } else x) })
        putFrame c2 n slot 1 { k.f with retx := true }
      | none, f :: rest =>
        let f := { f with seq := q.txSeq % 1024 }
        putFrame (onPort c1 n (fun p => { p with
          relayAgain := rest, reserve := slot + 1, resent := satAdd 8 p.resent 1, txSeq := (p.txSeq + 1) % 1024, kept := p.kept ++ [⟨f.seq, slot, f, 0⟩] })) n slot 1 f
      | none, [] => c1

/-- The word of a slot that begins in this cycle and that no frame takes (R316, R320): every open port sends one. -/
def slotWords (e : Env) (c : Chip) : Chip :=
  each ((List.range 16).filter (portOpen e c)) c (fun c n =>
    let s := slotFrom c n c.now
    if slotTime c n s = c.now ∧ (tget Port.reset c.ports n).grid ≠ (slotOrigin c n, s + 1) then sendControl c n 0 s else c)

/-! Arrival. -/

/-- The first slot in which a frame lost in slot `s` of this port can come again (R329). -/
def resendFrom (c : Chip) (n s : Nat) : Nat :=
  s + resendGap (((portHolder c n).map (hopOf c)).getD Config.domainHop) (tget Port.reset c.ports n).width

/-- A frame is lost at this port: its sequence is asked for again (R329); a resend can come from slot `again` on. -/
def missing (again origin : Nat) (p : Port) (seq slot : Nat) : Port :=
  if p.nacks.any (fun x => x.seq == seq % 1024) then p else { p with nacks := p.nacks ++ [⟨seq % 1024, slot, again, origin⟩] }

/-- The next sequence that a port expects. -/
def nextRx (p : Port) : Nat := if p.rxAny then (p.rxSeq + 1) % 1024 else 0

/-- Sequences from the expected one up to, but not with, `seq` are missing. -/
def gapTo (again origin : Nat) (p : Port) (seq slot : Nat) : Port :=
  let d := seqDist seq (nextRx p)
  if 512 ≤ d then p else (List.range d).foldl (fun q k => missing again origin q (nextRx p + k) slot) p

/-- A frame that passed its checks is held to its release (R318, R322, R325, R329). `d`: a delay by fog. A resend that this port was never sent before, of a frame lost further back, brings the next sequence itself (log entry 73). -/
def hold (c : Chip) (n slot d : Nat) (f : Frame) : Chip :=
  let free := f.retx || f.cls == 5 || f.cls == 7
  let due := if free then c.now + d else frameTime c n slot f + hopOf c f.tag
  let late := !free && decide (due < c.now + d)
  let c1 := onPort c n (fun p =>
    let p1 := if f.retx && !(p.rxAny && f.seq % 1024 == nextRx p) then { p with nacks := p.nacks.filter (fun x => x.seq != f.seq % 1024) }
      else { (gapTo (resendFrom c n slot) (frameOrigin c n f) p f.seq slot) with rxSeq := f.seq % 1024, rxAny := true }
    { p1 with hold := p1.hold ++ [⟨f, max due (c.now + d), slot⟩] })
  if late then linkFault c1 .linkLate n f.seq slot f.tag (frameAttempt c f) else c1

/-- A frame that is discarded (R319): the sequence expected is missing; a resend that fails as well can come again only after its slot (R330). -/
def discard (c : Chip) (n slot : Nat) (f : Frame) (fec : Bool) : Chip :=
  onPort c n (fun p =>
    let p1 := if fec then { p with unc := satAdd 8 p.unc 1 } else { p with crc := satAdd 8 p.crc 1 }
    if f.retx then { p1 with nacks := p1.nacks.map (fun x => if x.seq = f.seq % 1024 then { x with again := slot + 1 } else x) }
    else { (missing (resendFrom c n slot) (frameOrigin c n f) p1 (nextRx p1) slot) with rxSeq := nextRx p1, rxAny := true })

/-- A frame with the outcomes of its checks: held, discarded, or dropped and counted where its class is reserved (R317, R319). -/
def takeFrame (c : Chip) (n slot d : Nat) (f : Frame) (fec crc : Bool) : Chip :=
  if !fec then discard c n slot f true
  else if !crc then discard c n slot f false
  else if 8 ≤ f.cls then
    onPort c n (fun p => { (gapTo (resendFrom c n slot) (frameOrigin c n f) p f.seq slot) with rxSeq := f.seq % 1024, rxAny := true, droppedF := satAdd 8 p.droppedF 1 })
  else hold c n slot d f

/-- DATA_FRAME (R317-R319, R331, R336): its CRC is checked against its bits; held, or discarded; before READY every data frame is dropped and counted. -/
def frameArrive (e : Env) (c : Chip) (n slot : Nat) (f : Frame) (fecOk : Bool) (crc : Nat) : Chip :=
  let p := port e c n
  if p.st ≠ .up then c
  else if !c.boot.ready then onPort c n (fun p => { p with droppedF := satAdd 8 p.droppedF 1 })
  else if !p.joined then c
  else
    let x := fogPick p.fogRx (fogClass f)
    let c1 := onPort c n (fun p => { p with fogRx := x.2.2 })
    let c2 := if x.1 then onPort c1 n countFog else c1
    let act := if x.1 then p.fogRx.action else 0
    let fec := fecOk && !(act == 2 && x.2.1 % 3 == 1)
    let good := crc == frameCrc f && !(act == 2 && x.2.1 % 3 == 2)
    let swapped := fun (c : Chip) => match p.swapRx with
      | some g => takeFrame (onPort c n (fun p => { p with swapRx := none })) n g.slot 0 g.f g.fec g.crc
      | none => c
    match act with
    | 1 => c2
    | 3 => if p.swapRx.isNone then onPort c2 n (fun p => { p with swapRx := some ⟨f, slot, fec, good⟩ }) else swapped (takeFrame c2 n slot 0 f fec good)
    | 4 => swapped (takeFrame c2 n slot (cdiv (p.fogRx.delay * 13) 10) f fec good)
    | _ => swapped (takeFrame c2 n slot 0 f fec good)

/-! Release. -/

/-- Key of a transfer that lands at this package. -/
def xferKey (f : Frame) : Nat := ((f.src * 2 ^ 40 + f.destAddr) * 4 + f.tick % 4) * 8 + f.attempt % 8

/-- Frames of a transfer, and the bytes that frame `idx` carries (R317). -/
def xferFrames (f : Frame) : Nat := cdiv (f.wlen + 1) 512
def frameData (f : Frame) : List Byte := f.payload.take (min 512 (f.wlen + 1 - 512 * f.idx))

/-- The transfer of a frame: admitted or refused by its first frame to be released (R318); `check` is made then. -/
def xferStep (c : Chip) (n : Nat) (f : Frame) (check : Chip → Bool × Chip) (land : Chip → Bool → Chip) : Chip :=
  let key := xferKey f
  let p := tget Port.reset c.ports n
  let r := match p.xfers.find? (fun x => x.1 == key) with
    | some x => ((x.2.2, c), x.2.1)
    | none => (check c, xferFrames f)
  let left := r.2 - 1
  let c1 := onPort r.1.2 n (fun p => { p with
    xfers := p.xfers.filter (fun x => x.1 != key) ++ (if left = 0 then [] else [(key, left, r.1.1)]) })
  if r.1.1 then land c1 (left == 0) else c1

/-- Cycle at which what a port releases now reaches a core (R66, R322): 30 CCLK for each ring crossing. The spec gives a port no place in the mesh of its die, so the way from there counts as none (log entry 77). -/
def fromPort (c : Chip) (n i : Nat) : Nat := c.now + Config.ring * ringHops (n / 4) (i / 256)

/-- A frame of a window write goes to the core it is for; the whole write is admitted or refused with the first frame to be released (R80, R318). -/
def landWrite (c : Chip) (n : Nat) (f : Frame) (tick att : Nat) : Chip :=
  let i := coreAt f.destAddr
  xferStep c n f (fun c => admitWrite c i f.destAddr (f.wlen + 1) f.src f.tag tick att noLw)
    (fun c _ => atPortAt c i (fromPort c n i) (.piece (f.destAddr + 512 * f.idx) (frameData f) none))

/-- A frame of a shelf write goes to the core it is for (R73, R74, R236): the first of the whole write to be released admits or refuses it, and the slot is FULL when the bytes of every frame have landed. -/
def landShelf (c : Chip) (n : Nat) (f : Frame) (tick att : Nat) : Chip :=
  let i := bitsOf f.destAddr 29 20
  let sh := bitsOf f.destAddr 19 12
  let sl := bitsOf f.destAddr 11 0
  let piece := f.destAddr / 2 ^ 30
  let key := ((f.src * 2 ^ 20 + sh * 2 ^ 12 + sl) * 4 + f.tick % 4) * 8 + f.attempt % 8
  let size := match (coreJob c i).bind (fun j => shelfOf j i sh) with | some d => d.lines * 64 | none => 0
  let r := match (core c i).landing.find? (fun x => x.1 == key) with
    | some x => ((x.2.1, x.2.2), c)
    | none =>
      let y := admitShelf c i sh sl (f.wlen + 1) f.src f.tag tick att noLw (fun n => f.wlen + 1 == min 4096 (n - piece * 4096))
      ((size, y.1.isSome), y.2)
  let left := r.1.1 - (frameData f).length
  let base := match (coreJob c i).bind (fun j => shelfOf j i sh) with | some d => slotAddr d i sl | none => 0
  let c1 := onCore r.2 i (fun k => { k with landing := k.landing.filter (fun x => x.1 != key) ++ (if left = 0 then [] else [(key, left, r.1.2)]) })
  if r.1.2 ∧ piece * 4096 + 512 * f.idx + (frameData f).length ≤ size then
    atPortAt c1 i (fromPort c n i) (.piece (base + piece * 4096 + 512 * f.idx) (frameData f) (if left = 0 then some (sh, sl) else none))
  else c1

/-- A read response brings its bytes to the core that asked for them (R66, R317). -/
def landBack (c : Chip) (n : Nat) (f : Frame) : Chip :=
  if f.src / 1024 = c.beacon.pkg then atPortAt c (f.src % 1024) (fromPort c n (f.src % 1024)) (.back (f.destAddr + 512 * f.idx) (frameData f)) else c

/-- The relay entry for a frame (R327; log entry 33): the one whose out-port begins a shortest route to its destination. -/
def relayEntry (l : LinkDecl) (j : Job) (f : Frame) : Option (Nat × Nat) := l.relays.find? (fun r => j.place.toward.contains (f.destPkg, r.1))

/-- A frame for another package leaves again in slot s + Δ of an out-port, a resend in that port's first free reserve slot (R327, R329). Without an entry, or with its slot taken, it is LINK_ROUTE. -/
def relayFrame (c : Chip) (n : Nat) (h : HeldFrame) : Chip :=
  let lost := fun (c : Chip) => linkFault c .linkRoute n h.f.seq h.slot h.f.tag (frameAttempt c h.f)
  match linkOf c n, holderJob c n with
  | some l, some j =>
    match relayEntry l j h.f with
    | none => lost c
    | some (out, d) =>
      let s := h.slot + d
      let p := tget Port.reset c.ports out
      if h.f.retx then onPort c out (fun p => { p with relayAgain := p.relayAgain ++ [h.f] })
      else if p.relay.any (fun r => r.1 == s) || p.kept.any (fun k => k.slot == s) then lost c
      else onPort c out (fun p => { p with relay := p.relay ++ [(s, h.f)] })
  | _, _ => lost c

/-- A released frame of this package, by its class (R317); service and link-management frames act through their own commands. -/
def deliverFrame (c : Chip) (n : Nat) (f : Frame) : Chip :=
  let att := (frameAttempt c f).getD (f.tick, f.attempt)
  if f.cls ≤ 3 ∧ dropped c f.tag att.1 att.2 = true then countStale c
  else match f.cls with
    | 0 => landWrite c n f att.1 att.2
    | 1 => landShelf c n f att.1 att.2
    | 2 => remoteFetch c (fromPort c n (coreAt f.destAddr)) ⟨f.destAddr, f.wlen + 1, f.src, f.tag, att.1, att.2⟩
    | 3 => landBack c n f
    | _ => c

/-- RELEASE (R318, R322, R327): the frame whose release has come is delivered here or relayed; the control words of the slots that follow acknowledge it (R320). -/
def releaseFrame (e : Env) (c : Chip) (n : Nat) : Chip :=
  match (port e c n).hold.find? (fun h => decide (h.at_ ≤ c.now)) with
  | none => c
  | some h =>
    let c1 := onPort c n (fun p => { p with hold := p.hold.erase h })
    if h.f.destPkg = c.beacon.pkg then deliverFrame c1 n h.f else relayFrame c1 n h

/-! Control words. -/

/-- A frame is asked for again (R328, R329): it is marked for resend; a service frame is sent again as service work. -/
def askedAgain (c : Chip) (n : Nat) (k : SentFrame) : Chip :=
  if k.f.cls = 5 then
    { (onPort c n (fun p => { p with kept := p.kept.filter (fun x => x.seq != k.seq) })) with egress := c.egress ++ [k.f] }
  else onPort c n (fun p => if p.again.any (fun x => x.seq == k.seq) then p else { p with again := p.again ++ [k] })

/-- CONTROL_WORD (R320, R329): a word that fails its CRC is ignored. Acknowledged frames are let go, a missing one is marked for resend, and a TX_SEQ ahead of the last received one shows a loss. -/
def control (e : Env) (c : Chip) (n : Nat) (x : ControlIn) : Chip :=
  let p := port e c n
  let w := x.word
  if x.crc ≠ controlCrc w ∨ portOpen e c n = false then c
  else
    let acked := p.kept.filter (fun k => decide (seqDist w.ackSeq k.seq < 512))
    let c1 := onPort c n (fun p => { p with
      kept := p.kept.filter (fun k => 512 ≤ seqDist w.ackSeq k.seq)
      again := p.again.filter (fun k => 512 ≤ seqDist w.ackSeq k.seq), ackAt := if acked = [] then p.ackAt else c.now })
    let c2 := if w.nackV then
        match (tget Port.reset c1.ports n).kept.find? (fun k => k.seq == w.nackSeq % 1024) with
        | some k => askedAgain c1 n k
        | none => c1
      else c1
    let upTo := if w.kind ≠ 0 then w.txSeq % 1024 else (w.txSeq + 1) % 1024
    onPort c2 n (fun p =>
      let d := seqDist upTo (nextRx p)
      if d = 0 ∨ 512 ≤ d then p else { (gapTo (resendFrom c n w.slot) (slotOrigin c n) p upTo w.slot) with rxSeq := (upTo + 1023) % 1024, rxAny := true })

/-- The first reserve slot from slot `s` on (R327). -/
def reserveFrom (l : LinkDecl) (s : Nat) : Nat := s / l.period * l.period + l.period - 1

/-- Whether a lost frame is lost for good (R330): the next reserve slot that could carry it lies beyond its window, or the window has passed. -/
def retryDue (c : Chip) (n tag : Nat) (l : LinkDecl) (x : Nack) : Bool :=
  (l.period != 0 && decide (x.slot + l.window < reserveFrom l x.again)) ||
    decide (x.origin + slotCycles (tget Port.reset c.ports n).width (x.slot + l.window) + hopOf c tag ≤ c.now)

/-- LINK_RETRY (R330): no resend within the window; it covers the attempt whose slot grid the lost frame stood in. While a held port is down, a frame booked on it is lost in the same way (R333). -/
def retryWatch (c : Chip) (n seq : Nat) : Chip :=
  let p := tget Port.reset c.ports n
  match linkOf c n, portHolder c n with
  | some l, some tag =>
    let j := tfind c.jobs tag
    let a := j.bind newest
    let of := fun (a : Attempt) => (a.tick, a.ord)
    match p.nacks.find? (fun x => x.seq == seq % 1024) with
    | none => if p.st != .up && a.any (fun a => a.st == .running) then linkFault c .linkRetry n seq 0 tag (a.map of) else c
    | some x =>
      if !(retryDue c n tag l x) then c
      else linkFault (onPort c n (fun p => { p with nacks := p.nacks.filter (fun y => y.seq != x.seq) })) 
        .linkRetry n x.seq x.slot tag (((j.bind (fun j => j.ticks.attempts.find? (fun b => b.edgeAt == x.origin))).or a).map of)
  | _, _ => c

/-! Training and joining. -/

/-- The cause of a training that cannot come up, 0 if it can (R314, R315, R331). -/
def trainCause (p : Port) (t : Training) : Nat :=
  if !t.signal then 1 else if t.width != p.width then 5 else if 100 < t.propNs then 3 else if 2400 < t.ratio then 2 else 0

/-- TRAINING_DONE (R331): the port is UP and sends its join, or FAILED with its cause. -/
def trained (e : Env) (c : Chip) (n : Nat) (t : Training) : Chip :=
  let p := port e c n
  if p.st ≠ .training then c
  else
    let x := trainCause p t
    if x = 0 then
      sendJoin (onPort c n (fun p => { p with
        st := .up, cause := 0, laneRev := t.laneRev, polarity := t.polarity % 16, joined := false, rxAny := false, txSeq := 0 })) n
    else onPort c n (fun p => { p with st := .failed, cause := x })

/-- TRAINING_TIMEOUT (R440): 200 ms have passed. -/
def trainTimeout (e : Env) (c : Chip) (n : Nat) (t : Training) : Chip :=
  let p := port e c n
  if p.st = .training ∧ p.trainAt + 200 * Config.ms ≤ c.now then onPort c n (fun q => { q with st := .failed, cause := max 1 (trainCause p t) }) else c

/-- SIGNAL_LOSS (R333, R440). -/
def signalLost (e : Env) (c : Chip) (n : Nat) : Chip := if (port e c n).st = .up then portDown c n else c

/-- SIGNAL_APPEARS (R440): a DOWN port, or one FAILED for want of a signal, trains. -/
def signalBack (e : Env) (c : Chip) (n : Nat) : Chip :=
  let p := port e c n
  if c.boot.waving.getLsbD (n % 4) && (p.st == .down || (p.st == .failed && p.cause == 1)) then startTraining e c n else c

/-- JOIN (R314, R331, R418): the neighbour is recorded; another domain, or this package's own ID, fails the port with cause domain, another width with cause width. -/
def joinArrive (e : Env) (c : Chip) (n : Nat) (m : JoinMsg) : Chip :=
  let p := port e c n
  if p.st ≠ .up then c
  else if m.domain ≠ c.beacon.domain.toNat ∨ m.pkg = c.beacon.pkg then onPort (portDown c n) n (fun p => { p with st := .failed, cause := 4 })
  else if m.width ≠ p.width then onPort (portDown c n) n (fun p => { p with st := .failed, cause := 5 })
  else onPort c n (fun p => { p with joined := true, nbrPkg := m.pkg, nbrPort := m.port })

/-! Beacon frames. -/

/-- The message of a Beacon frame that port `n` releases, acted on (R321): what it is for on another stack has the ring crossings to come (R38, R42). -/
def beaconAct (e : Env) (c : Chip) (n : Nat) : BeaconMsg → Chip
  | .mark m => edgeMark c n 0 m
  | .buoy m => buoyArrive c (ringHops (n / 4) (refLocal m.ref / 2 ^ 16)) m
  | .arrival m => barArrive c (ringHops (n / 4) (rootStack (barAt c m.group))) m
  | .release m => barRelease c (fun s => ringHops (n / 4) s) m
  | .vote v => lampReviews (recordVote e c v)
  | .verdict v => lampReviews (receiveVerdict e c v)
  | .hold j t => receiveHold c j t
  | .plan m p => lampReviews (receivePlan e c m p)
  | .announce a => lampReviews (receiveAnnounce c a)
  | .query j t a => answerQuery c j t a
  | .answer v => lampReviews (receiveVerdict e c v)
  | .join m => joinArrive e c n m
  | .kill j all => decideKill c j all
  | .reserved _ => onPort c n (fun p => { p with droppedF := satAdd 8 p.droppedF 1 })

/-- A released message acts, or goes on where it is for another package (R321). -/
def releaseMsg (e : Env) (c : Chip) (h : HeldMsg) : Chip :=
  if h.dest = everyPkg ∨ h.dest = c.beacon.pkg then beaconAct e c h.port h.msg
  else sendTo c (msgTagOf h.msg) h.dest h.src (fun q => Config.ring * portHops h.port q) h.msg

/-- Messages whose release has come (R253, R322), in the order of their releases. -/
def releaseMsgs (e : Env) (c : Chip) : Chip :=
  let due := sortBy (fun h => h.at_) (c.beacon.held.filter (fun h => decide (h.at_ ≤ c.now)))
  each due (onBeacon c (fun b => { b with held := b.held.filter (fun h => decide (c.now < h.at_)) })) (releaseMsg e)

/-- Whether a message is a join, the one that a port takes before it has joined (R331). -/
def isJoin : BeaconMsg → Bool
  | .join _ => true
  | _ => false

/-- A Beacon message that is released after its time is counted; with a job tag it is LINK_LATE (R323). -/
def lateBeacon (c : Chip) (n job : Nat) : Chip :=
  let c1 := onBeacon c (fun b => { b with lateMsgs := b.lateMsgs + 1 })
  if job = 0 then c1 else linkFault c1 .linkLate n 0 0 job (((tfind c.jobs job).bind newest).map (fun a => (a.tick, a.ord)))

/-- The hop that a message is held to (R253, R322): that of the profile of the job it names, else the domain hop. -/
def msgHop (c : Chip) (job : Nat) : Nat := if job = 0 then Config.domainHop else hopOf c job

/-- An intact message is held until its sending time plus the hop (R253, R322, R323); one that comes after that is released as it comes, and counted. `d`: a delay by fog. -/
def holdMsg (c : Chip) (n slot d job : Nat) (h : BeaconHead) (m : BeaconMsg) : Chip :=
  let due := slotTime c n slot + msgHop c job
  let c1 := onBeacon c (fun b => { b with held := b.held ++ [⟨max due (c.now + d), n, h.dest, h.src, m⟩] })
  if due < c.now + d then lateBeacon c1 n job else c1

/-- BEACON_FRAME (R321-R323, R331, R336): the first intact copy is held to its release; both lost is BEACON_LOSS where the message carries a tag, and counted where not. -/
def beaconArrive (e : Env) (c : Chip) (n copy : Nat) (msg : BeaconMsg) (h : BeaconHead) (job : Nat) (fecOk : Bool) (crc : Nat) : Chip :=
  let p := port e c n
  if p.st ≠ .up then c
  else if c.boot.ready = false ∧ isJoin msg = false then onPort c n (fun p => { p with droppedF := satAdd 8 p.droppedF 1 })
  else if p.joined = false ∧ isJoin msg = false then c
  else
    let x := fogPick p.fogRx 7
    let c1 := onPort c n (fun p => if x.1 then countFog { p with fogRx := x.2.2 } else { p with fogRx := x.2.2 })
    let ok := fecOk && crc == beaconCrc copy h.dest h.src msg && !(x.1 && (p.fogRx.action == 1 || (p.fogRx.action == 2 && x.2.1 % 3 != 0)))
    let d := if x.1 && p.fogRx.action == 4 then cdiv (p.fogRx.delay * 13) 10 else 0
    let note := fun (c : Chip) (v : Nat) => onBeacon c (fun b => { b with copies := tset b.copies n v })
    let take := fun (c : Chip) => holdMsg (note c (h.ident * 2 + 1)) n h.slot d job h msg
    if copy % 2 = 0 then (if ok then take c1 else note c1 (h.ident * 2))
    else if tfind c.beacon.copies n = some (h.ident * 2 + 1) then c1
    else if ok then take c1
    else if job = 0 then onPort c1 n (fun p => { p with droppedF := satAdd 8 p.droppedF 1 })
    else linkFault c1 .beaconLoss n 0 0 job (((tfind c.jobs job).bind newest).map (fun a => (a.tick, a.ord)))

/-! FOG. -/

/-- Whether a port belongs to a partition (R335). -/
def portBelongs (c : Chip) (n p : Nat) : Bool :=
  match holderJob c n with
  | some j => j.place.parts.contains p
  | none => let q := tget Port.reset c.ports n; q.partEn && q.part == p

/-- FOG (R335-R337). -/
def fogSet (e : Env) (m : Cmd) (c : Chip) : Chip :=
  let n := arg m 0x10 1
  let dir := arg m 0x11 1
  let act := arg m 0x12 1
  let d := arg m 0x24 4
  if c.boot.test = false then final c m.id .denied
  else if 15 < n then final c m.id .invalidArg
  else if (port e c n).st = .absent then final c m.id .engineAbsent
  else if portBelongs c n m.id.part = false then final c m.id .denied
  else if 1 < dir ∨ 4 < act ∨ 1 < arg m 0x14 1 ∨ (act = 4 ∧ (d = 0 ∨ 10000 < d)) ∨ (arg m 0x14 1 = 1 ∧ arg m 0x20 4 = 0) then final c m.id .invalidArg
  else
    let f : Fog := if act = 0 then Fog.off else
      ⟨act, arg m 0x13 1, arg m 0x14 1 == 1, arg m 0x16 2, BitVec.ofNat 64 (arg m 0x18 8), BitVec.ofNat 32 (arg m 0x20 4), d, 0⟩
    doneCmd (onPort c n (fun p => if dir = 0 then { p with fogTx := f } else { p with fogRx := f })) m.id .ok 0 0

/-- FOG (R335). -/
def execFog (id : CmdId) (s : State) := lift (fun e c => withStarted c id 0x50 (fogSet e)) s
/-- JOIN (R331). -/
def execJoin (n : Nat) (m : JoinMsg) (s : State) := lift (fun e c => joinArrive e c (n % 16) m) s
/-- SIGNAL_LOSS (R440). -/
def execSignalLoss (n : Nat) (s : State) := lift (fun e c => signalLost e c (n % 16)) s
/-- SIGNAL_APPEARS (R440). -/
def execSignalAppears (n : Nat) (s : State) := lift (fun e c => signalBack e c (n % 16)) s
/-- TRAINING_DONE (R331). -/
def execTrainingDone (n : Nat) (t : Training) (s : State) := lift (fun e c => trained e c (n % 16) t) s
/-- TRAINING_TIMEOUT (R440). -/
def execTrainingTimeout (n : Nat) (t : Training) (s : State) := lift (fun e c => trainTimeout e c (n % 16) t) s
/-- FRAME_DEPARTURE (R326). -/
def execFrameDeparture (n slot pick : Nat) (s : State) := lift (fun e c => depart e c (n % 16) slot pick) s
/-- DATA_FRAME (R319). -/
def execDataFrame (n slot : Nat) (f : Frame) (fecOk : Bool) (crc : Nat) (s : State) := lift (fun e c => frameArrive e c (n % 16) slot f fecOk crc) s
/-- RELEASE (R322). -/
def execRelease (n : Nat) (s : State) := lift (fun e c => releaseFrame e c (n % 16)) s
/-- CONTROL_WORD (R320). -/
def execControlWord (n : Nat) (w : ControlIn) (s : State) := lift (fun e c => control e c (n % 16) w) s
/-- RESEND (R329). -/
def execResend (n slot : Nat) (s : State) := lift (fun e c => resend e c (n % 16) slot) s
/-- LINK_RETRY (R330). -/
def execLinkRetry (n seq : Nat) (s : State) := lift (fun _ c => retryWatch c (n % 16) seq) s
/-- BEACON_FRAME (R321). -/
def execBeaconFrame (n copy : Nat) (msg : BeaconMsg) (h : BeaconHead) (job : Nat) (fecOk : Bool) (crc : Nat) (s : State) :=
  lift (fun e c => beaconArrive e c (n % 16) copy msg h job fecOk crc) s

end Sys2Proof.Machine
end

