-- ==== Sys2Proof/Machine/Special.lean ====
section
/-! DEFINITION. The special functions of the vector engine, correctly rounded (06_numerics.md R152): fixed-point series of 384 bits, whose error lies far below any distance of a binary32 result from a tie. -/

namespace Sys2Proof.Machine

def fxBits : Nat := 384
/-- ln 2 and π in units of 2^−384. -/
def fxLn2 : Nat := 0xb17217f7d1cf79abc9e3b39803f2f6af40f343267298b62d8a0d175b8baafa2be7b876206debac98559552fb4afa1b10
def fxPi : Nat := 0x3243f6a8885a308d313198a2e03707344a4093822299f31d0082efa98ec4e6c89452821e638d01377be5466cf34e90c6c

/-- Σ r^n / n! in units of 2^−384, for 0 ≤ r < ln 2. -/
def expSeries : Nat → Nat → Nat → Nat → Nat
  | 0, _, _, _ => 0
  | fuel + 1, n, t, r => t + expSeries fuel (n + 1) (t * r / 2 ^ fxBits / (n + 1)) r

/-- e^x of a nonzero finite x below 256 in magnitude, as mantissa s and power k: e^x = s × 2^(k − 384). -/
def expFix (neg : Bool) (m : Nat) (e : Int) : Nat × Int :=
  let x0 : Int := ((m * 2 ^ (e + fxBits).toNat : Nat) : Int)
  let x : Int := if neg then -x0 else x0
  let k := x / (fxLn2 : Int)
  let r := (x - k * fxLn2).toNat
  (expSeries 90 0 (2 ^ fxBits) r, k)

/-- EXP. -/
def fexp (a : Nat) : FRes :=
  match b32 a with
  | .nan => fround .nan
  | .inf false => fround (.inf false)
  | .inf true => fround (.fin false 0 0)
  | .fin s m e =>
    if m = 0 then fround (.fin false 1 0)
    else if 8 ≤ valExp m e then
      (if s then roundTo .b32 (.fin false 1 (-1000)) true else roundTo .b32 (.fin false 1 1000) true)
    else
      let r := expFix s m e
      roundTo .b32 (.fin false r.1 (r.2 - fxBits)) true

/-- LOGISTIC: 1 / (1 + e^−x). -/
def flogistic (a : Nat) : FRes :=
  match b32 a with
  | .nan => fround .nan
  | .inf false => fround (.fin false 1 0)
  | .inf true => fround (.fin false 0 0)
  | .fin s m e =>
    if m = 0 then fround (.fin false 1 (-1))
    else if 8 ≤ valExp m e then
      (if s then roundTo .b32 (.fin false 1 (-1000)) true else roundTo .b32 (.fin false (2 ^ 200 - 1) (-200)) true)
    else
      let y := expFix (!s) m e
      let one := 2 ^ ((fxBits : Int) - y.2).toNat
      let q := quot one 0 (y.1 + one) 0
      roundTo .b32 (.fin false q.1 q.2.1) true

/-- RCP. -/
def frcp (a : Nat) : FRes := fdiv 0x3F800000 a

/-- RSQ. -/
def frsq (a : Nat) : FRes :=
  match b32 a with
  | .nan => fround .nan
  | .inf false => fround (.fin false 0 0)
  | .inf true => ((fround .nan).1, fInvalid)
  | .fin s m e =>
    if m = 0 then ((fround (.inf s)).1, fDivZero)
    else if s then ((fround .nan).1, fInvalid)
    else
      let odd := decide (e % 2 = 1)
      let m' := if odd then 2 * m else m
      let e' := if odd then e - 1 else e
      let k := 64 + Nat.log2 m'
      let r := isqrt (2 ^ (2 * k) / m')
      roundTo .b32 (.fin false r (-(k : Int) - e' / 2)) (r * r * m' != 2 ^ (2 * k))

/-- Alternating series of sine (from n = 1) or cosine (from n = 0): t, −t·x²/((n+1)(n+2)), … in units of 2^−384. -/
def trigSeries : Nat → Nat → Nat → Nat → Int
  | 0, _, _, _ => 0
  | fuel + 1, n, t, x2 => (t : Int) - trigSeries fuel (n + 2) (t * x2 / 2 ^ fxBits / ((n + 1) * (n + 2))) x2

/-- Sine (`cosine` false) or cosine of 2π × g / 2^384, for 0 ≤ g ≤ 2^382, in units of 2^−384. -/
def trigFix (cosine : Bool) (g : Nat) : Nat :=
  let x := 2 * fxPi * g / 2 ^ fxBits
  let x2 := x * x / 2 ^ fxBits
  (if cosine then trigSeries 60 0 (2 ^ fxBits) x2 else trigSeries 60 1 x x2).toNat

/-- sin(2πx) or cos(2πx) of a finite x, x in turns; quarter turns are exact and an exact zero is +0. -/
def trigTurns (cosine : Bool) (s : Bool) (m : Nat) (e : Int) : FRes :=
  if 0 ≤ e then fround (if cosine then .fin false 1 0 else .fin false 0 0)
  else
    let f := m * 2 ^ (e + fxBits).toNat % 2 ^ fxBits
    let q := f / 2 ^ (fxBits - 2)
    let g := f % 2 ^ (fxBits - 2)
    let neg := if cosine then (q == 1 || q == 2) else ((q == 2 || q == 3) != s)
    let useCos := if cosine then q % 2 == 0 else q % 2 == 1
    if g = 0 then fround (if useCos then .fin neg 1 0 else .fin false 0 0)
    else roundTo .b32 (.fin neg (trigFix useCos g) (-(fxBits : Int))) true

/-- SIN2PI. -/
def fsin2pi (a : Nat) : FRes :=
  match b32 a with
  | .nan => fround .nan
  | .inf _ => ((fround .nan).1, fInvalid)
  | .fin s m e => if m = 0 then fround (.fin s 0 0) else trigTurns false s m e

/-- COS2PI. -/
def fcos2pi (a : Nat) : FRes :=
  match b32 a with
  | .nan => fround .nan
  | .inf _ => ((fround .nan).1, fInvalid)
  | .fin s m e => if m = 0 then fround (.fin false 1 0) else trigTurns true s m e

end Sys2Proof.Machine
end

