-- ==== Sys2Proof/Machine/Vector.lean ====
section
/-! DEFINITION. V slots: chains, element programs, reductions, permutation, drawing, flags and tests (08_vector.md). A slot that issues is in flight until its last group is written. -/

namespace Sys2Proof.Machine

/-- Latency of a stage operation (R187). -/
def opLat (profile op : Nat) : Nat :=
  if op = 0 then 1 else if op ≤ 4 then 4 else if op ≤ 0x10 then 1 else if op = 0x11 then 4
  else if op ≤ 0x15 then (if profile = 2 then 14 else 18) else if op = 0x16 then 10 else if op = 0x17 then 14
  else if op ≤ 0x19 then 12 else 16

/-- CMP conditions (R187): NaN is unordered. -/
def cmpCond (k a b : Nat) : Bool :=
  let x := b32 a
  let y := b32 b
  let un := valIsNaN x || valIsNaN y
  let lt := !un && valLt x y && !(valEq x y)
  let eq := valEq x y
  let gt := !un && !lt && !eq
  match k with
  | 0 => eq | 1 => !eq | 2 => lt | 3 => lt || eq | 4 => gt | 5 => gt || eq | 6 => un | _ => !un

/-- CVT (R187): round to a stream format and back to binary32. MXINT8 is clamped to −127; only a finite value that is clamped raises OVERFLOW (R184). -/
def fcvt (fmt a : Nat) : FRes :=
  let r := roundTo (elemFmt fmt) (b32 a) false
  let low := fmt == 13 && r.1 == 0x80
  let fin := match b32 a with | .fin _ _ _ => true | _ => false
  ((fround (decodeVal (elemFmt fmt) (if low then 0x81 else r.1))).1, if low && fin then r.2 ||| fOverflow else r.2)

def boolF (b : Bool) : Nat := if b then 0x3F800000 else 0

/-- A binary32 integer value. -/
def intF (i : Int) : Nat := (fround (.fin (decide (i < 0)) i.natAbs 0)).1

/-- A stage operation on one component (R187); RAND and CMUL are done by the chain itself. -/
def stageOp (op imm a b c : Nat) : FRes :=
  match op with
  | 0x00 => (a, 0)
  | 0x01 => fadd a b
  | 0x02 => fsub a b
  | 0x03 => fmul a b
  | 0x04 => fma a b c
  | 0x05 => (fmin a b, 0)
  | 0x06 => (fmax a b, 0)
  | 0x07 => (fmin (fmax a b) c, 0)
  | 0x08 => (fabs a, 0)
  | 0x09 => (fneg a, 0)
  | 0x0A => (boolF (cmpCond (imm % 8) a b), 0)
  | 0x0B => (if fabs c = 0 then b else a, 0)
  | 0x0C => (a &&& b, 0)
  | 0x0D => (a ||| b, 0)
  | 0x0E => (a ^^^ b, 0)
  | 0x0F => fcvt (imm % 16) a
  | 0x10 => (intF (expo a), 0)
  | 0x12 => fdiv a b
  | 0x13 => fsqrt a
  | 0x14 => frcp a
  | 0x15 => frsq a
  | 0x16 => fexp a
  | 0x17 => flogistic a
  | 0x18 => fsin2pi a
  | 0x19 => fcos2pi a
  | _ => (0, 0)

/-- A chain descriptor taken apart (R186). -/
structure Chain where
  stages : Nat
  dSel : Nat
  eSel : Nat
  eEn : Bool
  complex : Bool
  ifmt : List Nat
  ofmt : List Nat
  use : Nat
  arecord : Bool
  k : List Nat
  words : List Nat
  deriving DecidableEq, Repr

def parseChain (d : List Byte) : Chain :=
  let o := field d 1 1
  let i := field d 2 2
  let f := field d 4 1
  let u := field d 5 1
  { stages := field d 0 1, dSel := o % 8, eSel := o / 8 % 8, eEn := bitOf o 6, complex := bitOf o 7,
    ifmt := [i % 16, i / 16 % 16, i / 256 % 16], ofmt := [f % 16, f / 16], use := u % 8, arecord := bitOf u 3,
    k := (List.range 4).map (fun j => field d (0x10 + 4 * j) 4), words := (List.range 8).map (fun j => field d (0x20 + 4 * j) 4) }

/-- Faults of a chain descriptor that LOAD_PROGRAM refuses (R188). -/
def chainOk (d : List Byte) : Bool :=
  let c := parseChain d
  let ok := fun (j : Nat) =>
    let w := c.words.getD j 0
    let op := bitsOf w 31 26
    let sels := [bitsOf w 25 22, bitsOf w 21 18, bitsOf w 17 14]
    let uses : Nat := if op = 0 ∨ (8 ≤ op ∧ op ≤ 9) ∨ (0x0F ≤ op ∧ op ≤ 0x10) ∨ 0x13 ≤ op then 1
      else if op = 4 ∨ op = 7 ∨ op = 0x0B then 3 else 2
    let rs := sels.take uses
    decide (op ≤ 0x1A) &&
    rs.all (fun s => !(decide (3 ≤ s) && decide (s ≤ 9) && decide (j ≤ s - 3))) &&
    rs.all (fun s => !(decide (s < 3)) || bitOf c.use s) &&
    (op != 0x1A || (c.arecord && sels.headD 0 == 0)) &&
    (!c.arecord || op == 0x1A || rs.all (fun s => s != 0)) &&
    (op != 0x11 || c.complex) &&
    (!c.complex || op == 0 || op == 1 || op == 2 || op == 9 || op == 0x11 || op == 0x0F)
  d.length == 64 && decide (1 ≤ c.stages) && decide (c.stages ≤ 8) && (List.range c.stages).all ok &&
  decide (c.dSel < c.stages) && (!c.eEn || decide (c.eSel < c.stages)) &&
  field d 2 2 / 4096 == 0 && field d 5 1 / 16 == 0 && field d 6 10 == 0

/-- Σ L over the stages (R189). -/
def chainLat (profile : Nat) (c : Chain) : Nat :=
  ((c.words.take c.stages).map (fun w => opLat profile (bitsOf w 31 26))).sum

/-- A complex value; the imaginary part is +0 in plain chains. -/
abbrev Cx := Nat × Nat

/-- The inputs of one element: A, B, C, its draw record, its index. -/
structure ElemIn where
  a : Cx
  b : Cx
  c : Cx
  rec_ : Nat
  idx : Nat
  deriving DecidableEq, Repr

def pickOperand (ch : Chain) (x : ElemIn) (res : List Cx) (s : Nat) : Cx :=
  if s = 0 then x.a else if s = 1 then x.b else if s = 2 then x.c
  else if s ≤ 9 then res.getD (s - 3) (0, 0)
  else if s ≤ 13 then (ch.k.getD (s - 10) 0, 0)
  else if s = 14 then (intF x.idx, 0) else (0, 0)

/-- One element through the stages of a chain (R186, R187, R190): the stage results and the flags raised. -/
def runChain (ch : Chain) (x : ElemIn) : List Cx × VFlags :=
  (ch.words.take ch.stages).foldl (fun acc w =>
    let op := bitsOf w 31 26
    let imm := bitsOf w 13 0
    let a := pickOperand ch x acc.1 (bitsOf w 25 22)
    let b := pickOperand ch x acc.1 (bitsOf w 21 18)
    let c := pickOperand ch x acc.1 (bitsOf w 17 14)
    if op = 0x11 then
      let re := fdot2 a.1 b.1 a.2 b.2 true
      let im := fdot2 a.1 b.2 a.2 b.1 false
      (acc.1 ++ [(re.1, im.1)], acc.2 ||| re.2 ||| im.2)
    else if op = 0x1A then
      let u := philox (bitsOf x.rec_ 63 0) (bitsOf x.rec_ 95 64) (bitsOf x.rec_ 111 96) imm
      (acc.1 ++ [((fround (.fin false (u / 256) (-24))).1, 0)], acc.2)
    else
      let re := stageOp op imm a.1 b.1 c.1
      if ch.complex then
        let im := stageOp op imm a.2 b.2 c.2
        (acc.1 ++ [(re.1, im.1)], acc.2 ||| re.2 ||| im.2)
      else (acc.1 ++ [(re.1, 0)], acc.2 ||| re.2)) ([], 0)

/-- An operand converted to binary32 on entry (R184). -/
def toB32 (fmt : Nat) (o : Opnd) : Nat := if fmt = 14 then o.code else (roundTo .b32 (opVal fmt o) false).1

/-- An output's elements from `k` on, converted and written in cycle `at_` (R184): the acts, the values that wait for their MX block to be complete, and the elements with the flags of their conversion. `pend`: values before element `k` that waited; `fin`: the slot's last values. MX blocks are the stream's, counted from its element 0 (log entry 47). -/
def outActs (o : OpStr) (on fmt at_ k : Nat) (pend vs : List Nat) (fin : Bool) : List Todo × List Nat × List (Nat × VFlags) :=
  if fmt = 14 then ([⟨at_, .write on k vs⟩], [], [])
  else if isMx fmt then
    let all := pend ++ vs
    let k0 := k - pend.length
    let a0 := o.bind.cursor + k0
    let m := if fin then all.length else (a0 + all.length) / 32 * 32 - a0
    let now := all.take m
    if now = [] then ([], all, [])
    else
      let front := a0 % 32
      let parts := (now.take (32 - front)) :: chunks 32 (now.drop (32 - front))
      let bs := parts.zipIdx.map (fun p =>
        let pre := if p.2 = 0 then front else 0
        let b := mxBlock fmt ((p.1.map b32) ++ List.replicate (32 - p.1.length) (Val.fin false 0 0))
        ((b.1, List.replicate pre 0 ++ b.2.map Prod.fst), (b.2.map Prod.snd).take p.1.length))
      ([⟨at_, .writeMx on k0 m (bs.map Prod.fst)⟩], all.drop m, (bs.flatMap Prod.snd).zipIdx.map (fun x => (k0 + x.2, x.1)))
  else
    let r := vs.map (fun v => roundTo (elemFmt fmt) (b32 v) false)
    ([⟨at_, .write on k (r.map Prod.fst)⟩], [], r.zipIdx.map (fun x => (k + x.2, x.1.2)))

/-- Raise lane flags in cycle `at_` (R203); lanes with none are left out. -/
def addFlags (c : Chip) (i : Nat) (fs : List FlagSet) : Chip :=
  onCore c i (fun k => { k with flags := k.flags ++ fs.filter (fun f => f.fl != 0) })

/-- What a V slot uses that R206 checks: its first `lanes` lanes, their arithmetic, a chain, an element program, the special-function tables, the permute store. -/
structure VecUse where
  lanes : Nat
  arith : Bool
  chain : Option Nat := none
  prog : Option Nat := none
  tables : Bool := false
  permute : Bool := false
  deriving DecidableEq, Repr

/-- Whether a slot's checks meet an error (R206). -/
def VecUse.meets (x : VecUse) : Upset → Bool
  | .adder l => x.arith && decide (l < x.lanes)
  | .laneReg l => decide (l < x.lanes)
  | .chain n => x.chain == some n
  | .prog n => x.prog == some n
  | .tables => x.tables
  | .permute => x.permute
  | .weight _ | .bond _ | .word _ _ => false

/-- The lane that a VECTOR_RESIDUE record names; 0 where no lane is struck. -/
def laneOf : Upset → Nat
  | .adder l | .laneReg l => l
  | _ => 0

/-- Whether a struck thing stays struck after a check has failed on it: one that is not written anew as the engine works. -/
def staysStruck : Upset → Bool
  | .chain _ | .prog _ | .tables => true
  | _ => false

/-- The residue and parity checks of a V slot (R206): every error that it meets, and an armed LANE_RESIDUE injection, raises VECTOR_RESIDUE. `adds`: a lane adds, so the injection fires (R367). -/
def residueCheck (c : Chip) (i lw : Nat) (adds : Bool) (x : VecUse) : Chip :=
  let c1 := if armedFor c 5 i && adds && decide (c.safe.injSel.toNat % 64 < x.lanes) then
      injectFault c i engV lw .vectorResidue 0 (c.safe.injSel.toNat % 64) 0
    else c
  let hits := (core c1 i).upsets.filter (fun u => x.meets u.1)
  if hits = [] then c1
  else
    each hits (onCore c1 i (fun k => { k with
      upsets := k.upsets.filterMap (fun u => if x.meets u.1 then (if staysStruck u.1 then some (u.1, true) else none) else some u) }))
      (fun c u => coreFault c i engV lw .vectorResidue 0 (laneOf u.1) 0)

def zips3 (a b c : List Nat) (recs : List Nat) (complex : Bool) (idx0 n : Nat) : List ElemIn :=
  (List.range n).map (fun t =>
    let get := fun (l : List Nat) => if complex then (l.getD (2 * t) 0, l.getD (2 * t + 1) 0) else (l.getD t 0, 0)
    ⟨get a, get b, get c, recs.getD t 0, idx0 + t⟩)

def mxOpt (fmt : Nat) : Option Nat := if isMx fmt then some fmt else none

/-- Binary32 values of elements k to k + n − 1 of an input (R184). -/
def inVals (f : Flight) (o fmt k n : Nat) : List Nat := (taken f o k n).map (toB32 fmt)

/-- What the chain of a VCHAIN or VRED slot is, if the image declares it. -/
def chainOf (c : Chip) (i n : Nat) : Option Chain :=
  match coreJob c i with
  | none => none
  | some j => (tfind j.decl.chains (i * 64 + n)).map parseChain

def profileOf (c : Chip) (i : Nat) : Nat := match coreJob c i with | none => 1 | some j => j.hdr.profile

/-- Operations that add, that have adders, multipliers or a special-function unit, that use the function tables (R187, R206). -/
def addsOp (op : Nat) : Bool := op == 1 || op == 2 || op == 4 || op == 0x11
def arithOp (op : Nat) : Bool := (decide (1 ≤ op) && decide (op ≤ 4)) || (decide (0x11 ≤ op) && decide (op ≤ 0x1A))
def tableOp (op : Nat) : Bool := decide (0x14 ≤ op) && decide (op ≤ 0x19)

def chainOps (ch : Chain) : List Nat := (ch.words.take ch.stages).map (fun w => bitsOf w 31 26)

def flat (complex : Bool) (xs : List Cx) : List Nat := xs.flatMap (fun x => if complex then [x.1, x.2] else [x.1])

/-- Whether a format field of a chain is nonzero where it does not apply (R208): of an input that is not read as numbers, of E without E_EN; `red`: a reduction writes binary32 and has no input C. -/
def strayFormat (ch : Chain) (red : Bool) : Bool :=
  let unread := fun (x : Nat) => !(bitOf ch.use x) || (x == 0 && ch.arecord) || (red && x == 2)
  (List.range 3).any (fun x => unread x && ch.ifmt.getD x 0 != 0) || ((red || !ch.eEn) && ch.ofmt.getD 1 0 != 0) || (red && ch.ofmt.getD 0 0 != 0)

/-- The input streams that a chain reads, A first: which input, stream, width and MX code of each. `cs`: streams A, B and, for VCHAIN, C. -/
def chainIns (ch : Chain) (cs : List Nat) : List (Nat × Nat × Nat × Option Nat) :=
  cs.zipIdx.filterMap (fun p =>
    if bitOf ch.use p.2 then
      (if p.2 = 0 ∧ ch.arecord = true then some (0, p.1, 128, none)
       else some (p.2, p.1, elemWidth (ch.ifmt.getD p.2 0), mxOpt (ch.ifmt.getD p.2 0)))
    else none)

/-- Elements k to k + n − 1 of a chain's inputs; `pos`: operand of each input read; `idx0`: index of element k. -/
def chainElems (ch : Chain) (f : Flight) (pos : List (Nat × Nat)) (k n idx0 : Nat) : List ElemIn :=
  let m := if ch.complex then 2 else 1
  let get := fun (x : Nat) => match pos.find? (fun p => p.1 == x) with
    | some p => if x = 0 ∧ ch.arecord = true then [] else inVals f p.2 (ch.ifmt.getD x 0) (m * k) (m * n)
    | none => []
  let recs := match pos.find? (fun p => p.1 == 0) with
    | some p => if ch.arecord then (taken f p.2 k n).map (fun o => o.code) else []
    | none => []
  zips3 (get 0) (get 1) (get 2) recs ch.complex idx0 n

/-- Operand numbers of the inputs that a chain reads, in the order of `chainIns`, a gather's index operand after each. -/
def inPos (f : Flight) (xs : List (Nat × Nat × Nat × Option Nat)) : List (Nat × Nat) :=
  (xs.foldl (fun (acc : List (Nat × Nat) × Nat) x =>
    (acc.1 ++ [(x.1, acc.2)], acc.2 + (match f.ops[acc.2]? with | some o => if o.ix.isSome then 2 else 1 | none => 1))) ([], 0)).1

/-- Number of the output operand after operand `o`. -/
def nextOp (f : Flight) (o : Nat) : Nat := o + (match f.ops[o]? with | some x => if x.ix.isSome then 2 else 1 | none => 1)

/-- Flags of elements in their lanes: element x of `m` stream elements a lane value in lane (x / m) mod 64 (R183, R190). -/
def elemFlags (at_ m : Nat) (fl : List (Nat × VFlags)) : List FlagSet := fl.map (fun x => ⟨at_, x.1 / m % 64, x.2⟩)

/-- Put acts and pending values of a computed unit into its slot. -/
def putUnit (c : Chip) (i id : Nat) (acts : List Todo) (pend : List (List Nat)) : Chip :=
  onFlight c i id (fun f => { f with todo := f.todo ++ acts, carry := pend })

/-- VCHAIN (R183-R190, R204, R208, R209): group g reads at i + k g. -/
def vchain (_e : Env) (c : Chip) (i : Nat) (s : QSlot) : Chip :=
  let w := s.w
  let n := sf w 48 31
  match chainOf c i (sf w 54 49) with
  | none => coreFault c i engV s.lw .vEncoding 0 0 0
  | some ch =>
    let kk := if ch.complex then 2 else 1
    if strayFormat ch false then coreFault c i engV s.lw .vEncoding 0 0 0
    else if n = 0 then occupy c i .v 1
    else if !(predOf (core c i) c.now (sf w 57 55)) then occupy c i .v (kk * cdiv n 64)
    else
      let ins := chainIns ch [sf w 30 26, sf w 25 21, sf w 20 16]
      let outs := (sf w 15 11, ch.ofmt.getD 0 0) :: (if ch.eEn then [(sf w 10 6, ch.ofmt.getD 1 0)] else [])
      let k := claim c i engV s.lw n (ins.map (fun x => x.2.1) ++ outs.map Prod.fst)
      if !k.1 then k.2
      else
        let xs := opList (core c i) c.now (ins.map (fun x => (x.2.1, x.2.2.1, x.2.2.2, .nearOnly)) ++ outs.map (fun x => (x.1, elemWidth x.2, mxOpt x.2, .nearOnly)))
        let m := fun (x : Nat × Nat × Nat × Option Nat) => if x.1 = 0 ∧ ch.arecord = true then 1 else kk
        let acts := (List.range (cdiv n 64)).flatMap (fun g =>
          let cnt := min 64 (n - 64 * g)
          (ins.zip xs.2).flatMap (fun p => readsOf xs.1 p.2 (c.now + kk * g) (m p.1 * 64 * g) (m p.1 * cnt)) ++ [⟨c.now + kk * g, .calc g⟩])
        let c1 := takeOff c i engV s xs.1 (xs.2.getD ins.length xs.1.length) acts [[], []] 0
        let c2 := each ins c1 (fun c x => advance c i x.2.1 x.2.2.1 x.2.2.2 (m x * n))
        let c3 := each outs c2 (fun c x => advance c i x.1 (elemWidth x.2) (mxOpt x.2) (kk * n))
        let ops := chainOps ch
        occupy (residueCheck c3 i s.lw (ops.any addsOp) ⟨n, ops.any arithOp, some (sf w 54 49), none, ops.any tableOp, false⟩) i .v (kk * cdiv n 64)

/-- A group of a chain is computed (R186-R190): its outputs are written Λ cycles on, with its lanes' flags (R203). -/
def chainCalc (c : Chip) (i : Nat) (f : Flight) (g : Nat) : Chip :=
  let w := f.slot.w
  match chainOf c i (sf w 54 49) with
  | none => c
  | some ch =>
    let n := sf w 48 31
    let kk := if ch.complex then 2 else 1
    let cnt := min 64 (n - 64 * g)
    let fin := decide (n ≤ 64 * (g + 1))
    let pos := inPos f (chainIns ch [sf w 30 26, sf w 25 21, sf w 20 16])
    let rs := (chainElems ch f pos (64 * g) cnt (64 * g)).map (runChain ch)
    let at_ := c.now + 3 + chainLat (profileOf c i) ch
    let val := fun (sel : Nat) => flat ch.complex (rs.map (fun r => r.1.getD sel (0, 0)))
    let out := fun (on fmt sel x : Nat) => match f.ops[on]? with
      | some o => outActs o on fmt at_ (kk * 64 * g) (f.carry.getD x []) (val sel) fin
      | none => ([], [], [])
    let d := out f.outs (ch.ofmt.getD 0 0) ch.dSel 0
    let z := if ch.eEn then out (nextOp f f.outs) (ch.ofmt.getD 1 0) ch.eSel 1 else ([], [], [])
    let c1 := putUnit c i f.id (d.1 ++ z.1) [d.2.1, z.2.1]
    let c2 := each pos c1 (fun c p => forget c i f.id p.2 ((if p.1 = 0 ∧ ch.arecord = true then 1 else kk) * 64 * (g + 1)))
    addFlags c2 i (rs.zipIdx.map (fun r => (⟨at_, r.2, r.1.2⟩ : FlagSet)) ++ elemFlags at_ kk (d.2.2 ++ z.2.2))

/-- Element-program instruction fields (R192). -/
def epOperand (p : EProg) (regs : List Nat) (s : Nat) : Nat :=
  if s < 16 then regs.getD s 0 else (p.consts.getD (s - 16) 0#32).toNat

/-- One element through an element program (R191, R192). -/
def runEProg (p : EProg) (regs : List Nat) : List Nat × VFlags :=
  p.words.foldl (fun acc w =>
    let v := w.toNat
    let r := stageOp (bitsOf v 31 26) (bitsOf v 6 0) (epOperand p acc.1 (bitsOf v 21 17)) (epOperand p acc.1 (bitsOf v 16 12))
      (epOperand p acc.1 (bitsOf v 11 7))
    (acc.1.set (bitsOf v 25 22) r.1, acc.2 ||| r.2)) (regs, 0)

/-- Registers an input or output takes. -/
def pairN (b : Bool) : Nat := if b then 2 else 1

/-- An element program that LOAD_PROGRAM accepts (R191, R192, R194). -/
def eprogOk (profile : Nat) (p : EProg) : Bool :=
  let n := p.words.length
  let op := fun (m : Nat) => bitsOf (p.words.getD m 0#32).toNat 31 26
  let reads := fun (m : Nat) => let v := (p.words.getD m 0#32).toNat; [bitsOf v 21 17, bitsOf v 16 12, bitsOf v 11 7]
  let dest := fun (m : Nat) => bitsOf (p.words.getD m 0#32).toNat 25 22
  let arity := fun (o : Nat) => if o = 0 ∨ (8 ≤ o ∧ o ≤ 9) ∨ (0x0F ≤ o ∧ o ≤ 0x10) ∨ 0x13 ≤ o then 1
      else if o = 4 ∨ o = 7 ∨ o = 0x0B then 3 else 2
  let lastWriter := fun (m r : Nat) => ((List.range m).filter (fun q => dest q == r)).getLast?
  let okAt := fun (m : Nat) (rs : List Nat) => rs.all (fun r => decide (16 ≤ r) ||
    (match lastWriter m r with | none => true | some q => decide (opLat profile (op q) ≤ 16 * (m - q))))
  decide (2 ≤ n) && decide (n ≤ 64) && decide (p.ins.length ≤ 3) && decide (p.outs.length ≤ 3) && p.consts.length == 16 &&
  (List.range n).all (fun m => decide (op m ≤ 0x19) && op m != 0x11 && okAt m ((reads m).take (arity (op m)))) &&
  p.outs.all (fun o => decide (o.2.2 + pairN o.2.1 ≤ 16) && okAt n ((List.range (pairN o.2.1)).map (o.2.2 + ·))) &&
  decide ((p.ins.map (fun x => pairN x.2)).sum ≤ 16) &&
  p.ins.all (fun x => decide (x.1 < 16)) && p.outs.all (fun x => decide (x.1 < 16))

/-- Streams of an element program's inputs and outputs (R191, R208). -/
def progIns (p : EProg) (w : Dword) : List (Nat × Nat × Bool) := ([sf w 32 28, sf w 27 23, sf w 22 18].zip p.ins).map (fun x => (x.1, x.2.1, x.2.2))
def progOuts (p : EProg) (w : Dword) : List (Nat × Nat × Bool × Nat) := ([sf w 17 13, sf w 12 8, sf w 7 3].zip p.outs).map (fun x => (x.1, x.2.1, x.2.2.1, x.2.2.2))

def progOf (c : Chip) (i n : Nat) : Option EProg := (coreJob c i).bind (fun j => tfind j.decl.progs (i * 16 + n))

/-- VPROG (R191-R194, R204, R208, R209): bundle b reads group j at i + 16 n b + j. -/
def vprog (_e : Env) (c : Chip) (i : Nat) (s : QSlot) : Chip :=
  let w := s.w
  let n := sf w 50 33
  match progOf c i (sf w 54 51) with
  | none => coreFault c i engV s.lw .vEncoding 0 0 0
  | some p =>
    let len := p.words.length
    if n = 0 then occupy c i .v 1
    else if !(predOf (core c i) c.now (sf w 57 55)) then occupy c i .v (16 * len * cdiv n 1024)
    else
      let ins := progIns p w
      let outs := progOuts p w
      let k := claim c i engV s.lw n (ins.map Prod.fst ++ outs.map Prod.fst)
      if !k.1 then k.2
      else
        let xs := opList (core c i) c.now (ins.map (fun x => (x.1, elemWidth x.2.1, mxOpt x.2.1, .nearOnly)) ++ outs.map (fun x => (x.1, elemWidth x.2.1, mxOpt x.2.1, .nearOnly)))
        let acts := (List.range (cdiv n 64)).flatMap (fun g =>
          let at_ := c.now + 16 * len * (g / 16) + g % 16
          let cnt := min 64 (n - 64 * g)
          (ins.zip xs.2).flatMap (fun x => readsOf xs.1 x.2 at_ (pairN x.1.2.2 * 64 * g) (pairN x.1.2.2 * cnt)) ++ [⟨at_, .calc g⟩])
        let c1 := takeOff c i engV s xs.1 (xs.2.getD ins.length xs.1.length) acts (outs.map (fun _ => [])) 0
        let c2 := each ins c1 (fun c x => advance c i x.1 (elemWidth x.2.1) (mxOpt x.2.1) (pairN x.2.2 * n))
        let c3 := each outs c2 (fun c x => advance c i x.1 (elemWidth x.2.1) (mxOpt x.2.1) (pairN x.2.2.1 * n))
        let ops := p.words.map (fun v => bitsOf v.toNat 31 26)
        occupy (residueCheck c3 i s.lw (ops.any addsOp) ⟨n, ops.any arithOp, none, some (sf w 54 51), ops.any tableOp, false⟩) i .v (16 * len * cdiv n 1024)

/-- A group of an element program is computed (R191-R193): slot j of bundle b writes at i + 16 n (b + 1) + j + 4. -/
def progCalc (c : Chip) (i : Nat) (f : Flight) (g : Nat) : Chip :=
  let w := f.slot.w
  match progOf c i (sf w 54 51) with
  | none => c
  | some p =>
    let n := sf w 50 33
    let cnt := min 64 (n - 64 * g)
    let fin := decide (n ≤ 64 * (g + 1))
    let pos := inPos f ((progIns p w).zipIdx.map (fun x => (x.2, x.1.1, 0, none)))
    let cols := (pos.zip (progIns p w)).map (fun x => (inVals f x.1.2 x.2.2.1 (pairN x.2.2.2 * 64 * g) (pairN x.2.2.2 * cnt), x.2.2.2))
    let rs := (List.range cnt).map (fun t =>
      let l := cols.flatMap (fun x => if x.2 then [x.1.getD (2 * t) 0, x.1.getD (2 * t + 1) 0] else [x.1.getD t 0])
      runEProg p (l ++ List.replicate (16 - l.length) 0))
    let at_ := f.start + 16 * p.words.length * (g / 16 + 1) + g % 16 + 4
    let r := (progOuts p w).zipIdx.foldl (fun (acc : (List Todo × List (List Nat) × List FlagSet) × Nat) x =>
      let m := pairN x.1.2.2.1
      let vs := rs.flatMap (fun r => (List.range m).map (fun q => r.1.getD (x.1.2.2.2 + q) 0))
      let y := match f.ops[acc.2]? with
        | some o => outActs o acc.2 x.1.2.1 at_ (m * 64 * g) (f.carry.getD x.2 []) vs fin
        | none => ([], [], [])
      ((acc.1.1 ++ y.1, acc.1.2.1 ++ [y.2.1], acc.1.2.2 ++ elemFlags at_ m y.2.2), nextOp f acc.2)) (([], [], []), f.outs)
    let c1 := putUnit c i f.id r.1.1 r.1.2.1
    let c2 := each (pos.zip (progIns p w)) c1 (fun c x => forget c i f.id x.1.2 (pairN x.2.2.2 * 64 * (g + 1)))
    addFlags c2 i (rs.zipIdx.map (fun x => (⟨at_, x.2, x.1.2⟩ : FlagSet)) ++ r.1.2.2)

/-- Lanes of a segment: the values of lane L in ascending order of element (R154, R197). -/
def laneVals (vs : List Nat) (l : Nat) : List (Nat × Nat) := (vs.zipIdx.filter (fun x => x.2 % 64 == l)).map (fun x => (x.1, x.2))

/-- Sum of a segment (R154): lanes from −0, then six levels of pairs; lane flags and tree flags. -/
def sumSeg (vs : List Nat) : Nat × List VFlags × VFlags :=
  let lanes := (List.range 64).map (fun l =>
    (laneVals vs l).foldl (fun acc v => let r := fadd acc.1 v.1; (r.1, acc.2 ||| r.2)) (0x80000000, (0 : VFlags)))
  let level := fun (x : List Nat × VFlags) (_ : Nat) =>
    let ps := (chunks 2 x.1).map (fun p => fadd (p.getD 0 0) (p.getD 1 0x80000000))
    (ps.map Prod.fst, ps.foldl (fun a r => a ||| r.2) x.2)
  let t := (List.range 6).foldl level (lanes.map Prod.fst, 0)
  (t.1.headD 0, lanes.map Prod.snd, t.2)

/-- Order of top-k and argmax: larger first, equal values by ascending index (R155). -/
def better (a b : Nat × Nat) : Bool := rankLt b.1 a.1 || (!(rankLt a.1 b.1) && decide (a.2 < b.2))

def insertBest (x : Nat × Nat) : List (Nat × Nat) → List (Nat × Nat)
  | [] => [x]
  | y :: r => if better x y then x :: y :: r else y :: insertBest x r

/-- A value a reduction delivers: a NaN as the canonical NaN (R136). -/
def deliver (v : Nat) : Nat := if valIsNaN (b32 v) then 0x7FC00000 else v

/-- Results of a segment (R197): values and index words to write, lane flags, tree flags. -/
def reduceSeg (kind k : Nat) (vs : List Nat) : List Nat × List VFlags × VFlags :=
  match kind with
  | 0 => let r := sumSeg vs; ([r.1], r.2.1, r.2.2)
  | 1 => ([match vs with | [] => 0 | v :: r => deliver (r.foldl fmax v)], [], 0)
  | 2 => ([match vs with | [] => 0 | v :: r => deliver (r.foldl fmin v)], [], 0)
  | 3 =>
    match (vs.zipIdx).foldl (fun (b : Option (Nat × Nat)) x => match b with | none => some x | some y => if better x y then some x else b) none with
    | none => ([0, 0], [], 0)
    | some x => ([deliver x.1, x.2], [], 0)
  | _ =>
    let top := (vs.zipIdx.foldl (fun l x => (insertBest x l).take k) [])
    let pad := k - top.length
    (top.map (fun x => deliver x.1) ++ List.replicate pad 0xFF800000 ++ top.map Prod.snd ++ List.replicate pad 0xFFFFFFFF, [], 0)

/-- Cycles that a segment of a reduction occupies (R198). -/
def segCycles (kind k len : Nat) : Nat := if kind = 4 then max (cdiv len 64) (cdiv k 8) else cdiv len 64

/-- VRED (R197, R198, R204, R208, R209): a segment starts a new group. -/
def vred (_e : Env) (c : Chip) (i : Nat) (s : QSlot) : Chip :=
  let w := s.w
  let kind := sf w 48 46
  let k := sf w 45 40 + 1
  let len := sf w 39 24 + 1
  let segs := sf w 23 15
  let os := sf w 4 0
  match chainOf c i (sf w 54 49) with
  | none => coreFault c i engV s.lw .vEncoding 0 0 0
  | some ch =>
    let seg := segCycles kind k len
    if 5 ≤ kind ∨ ch.complex = true ∨ strayFormat ch true = true then coreFault c i engV s.lw .vEncoding 0 0 0
    else if segs = 0 then occupy c i .v 1
    else if !(predOf (core c i) c.now (sf w 57 55)) then occupy c i .v (segs * seg)
    else
      let ins := chainIns ch [sf w 14 10, sf w 9 5]
      let kl := claim c i engV s.lw (segs * len) (ins.map (fun x => x.2.1) ++ [os])
      if !kl.1 then kl.2
      else
        let xs := opList (core c i) c.now (ins.map (fun x => (x.2.1, x.2.2.1, x.2.2.2, .nearOnly)) ++ [(os, 32, none, .nearOnly)])
        let acts := (List.range segs).flatMap (fun q =>
          (List.range (cdiv len 64)).flatMap (fun g => xs.2.dropLast.flatMap (fun o =>
            readsOf xs.1 o (c.now + q * seg + g) (q * len + 64 * g) (min 64 (len - 64 * g)))) ++ [⟨c.now + q * seg + cdiv len 64 - 1, .calc q⟩])
        let c1 := takeOff c i engV s xs.1 (xs.2.getLastD 0) acts [] 0
        let c2 := each ins c1 (fun c x => advance c i x.2.1 x.2.2.1 x.2.2.2 (segs * len))
        let c3 := advance c2 i os 32 none (segs * (if kind = 4 then 2 * k else if kind = 3 then 2 else 1))
        let ops := chainOps ch
        occupy (residueCheck c3 i s.lw (ops.any addsOp || kind == 0) ⟨len, ops.any arithOp || kind == 0, some (sf w 54 49), none, ops.any tableOp, false⟩) i .v (segs * seg)

/-- A segment is reduced (R197, R198): its result is written 13 cycles after the last group's Λ, for top-k 1 + 6 (2 + ⌈k/8⌉), 16 words a cycle, with all its flags (R203). The element index of its chain counts from the start of the segment (DESIGN CHOICE, log entry 83). -/
def redCalc (c : Chip) (i : Nat) (f : Flight) (q : Nat) : Chip :=
  let w := f.slot.w
  let kind := sf w 48 46
  let k := sf w 45 40 + 1
  let len := sf w 39 24 + 1
  match chainOf c i (sf w 54 49) with
  | none => c
  | some ch =>
    let pos := inPos f (chainIns ch [sf w 14 10, sf w 9 5])
    let rs := (chainElems ch f pos (q * len) len 0).map (runChain ch)
    let res := reduceSeg kind k (rs.map (fun r => (r.1.getD ch.dSel (0, 0)).1))
    let at_ := c.now + 3 + chainLat (profileOf c i) ch + (if kind = 4 then 1 + 6 * (2 + cdiv k 8) else 13)
    let k0 := q * res.1.length
    let acts := if kind = 4 then
        (chunks 16 (res.1.take k)).zipIdx.map (fun x => (⟨at_ + x.2, .write f.outs (k0 + 16 * x.2) x.1⟩ : Todo)) ++
        (chunks 16 (res.1.drop k)).zipIdx.map (fun x => (⟨at_ + cdiv k 16 + x.2, .write f.outs (k0 + k + 16 * x.2) x.1⟩ : Todo))
      else [⟨at_, .write f.outs k0 res.1⟩]
    let c1 := each pos (addTodo c i f.id acts) (fun c p => forget c i f.id p.2 ((q + 1) * len))
    addFlags c1 i (rs.zipIdx.map (fun r => (⟨at_, r.2 % 64, r.1.2⟩ : FlagSet)) ++ res.2.1.zipIdx.map (fun x => (⟨at_, x.2, x.1⟩ : FlagSet)) ++ [⟨at_, 0, res.2.2⟩])

def isPow2 (n : Nat) : Bool := 2 ^ Nat.log2 n == n

/-- p with its low b bits reversed. -/
def bitRev (b p : Nat) : Nat := (List.range b).foldl (fun r i => r + p / 2 ^ i % 2 * 2 ^ (b - 1 - i)) 0

/-- VPERM (R195, R196, R204, R208, R209): input group g is read at i + g. -/
def vperm (_e : Env) (c : Chip) (i : Nat) (s : QSlot) : Chip :=
  let w := s.w
  let mode := sf w 54 53
  let ew := sf w 52 51
  let g := sf w 50 39 + 1
  let rows := sf w 38 27 + 1
  let n := sf w 26 15
  let as := sf w 14 10
  let is_ := sf w 9 5
  let os := sf w 4 0
  let okG := (isPow2 g && decide (2 ≤ g) && decide (g ≤ 64)) || (g % 64 == 0 && decide (g ≤ 4096))
  if mode = 3 ∨ ew = 3 ∨ okG = false ∨ (mode = 1 ∧ isPow2 g = false) ∨ (mode = 2 ∧ g % rows ≠ 0) then
    coreFault c i engV s.lw .vEncoding 0 0 0
  else if n = 0 then occupy c i .v 1
  else if !(predOf (core c i) c.now (sf w 57 55)) then occupy c i .v (cdiv (n * g) 64)
  else
    let kl := claim c i engV s.lw (n * g) ([as, os] ++ (if mode = 0 then [is_] else []))
    if !kl.1 then kl.2
    else
      let wd := 8 * 2 ^ ew
      let xs := opList (core c i) c.now ((as, wd, none, .nearOnly) :: (if mode = 0 then [(is_, 16, none, .nearOnly)] else []) ++ [(os, wd, none, .nearOnly)])
      let groups := cdiv (n * g) 64
      let unit := max g 64
      let ixs := if mode = 0 then (List.range (cdiv g 64)).flatMap (fun q => readsOf xs.1 (xs.2.getD 1 1) (c.now + q) (64 * q) (min 64 (g - 64 * q))) else []
      let reads := (List.range groups).flatMap (fun q => readsOf xs.1 0 (c.now + q) (64 * q) (min 64 (n * g - 64 * q)))
      let calcs := (List.range (cdiv (n * g) unit)).map (fun u => (⟨c.now + min groups ((u + 1) * unit / 64) - 1, .calc u⟩ : Todo))
      let c1 := takeOff c i engV s xs.1 (xs.2.getLastD 0) (ixs ++ reads ++ calcs) [] 0
      let c2 := if mode = 0 then advance c1 i is_ 16 none g else c1
      let c3 := advance (advance c2 i as wd none (n * g)) i os wd none (n * g)
      occupy (residueCheck c3 i s.lw false ⟨n * g, false, none, none, false, true⟩) i .v groups

/-- One unit of a permutation: a permutation group of 64 elements or more, or the permutation groups of one input group (R195, R196). Output group g is written at i + g + ⌈G/64⌉ + 4. -/
def permCalc (c : Chip) (i : Nat) (f : Flight) (u : Nat) : Chip :=
  let w := f.slot.w
  let mode := sf w 54 53
  let g := sf w 50 39 + 1
  let rows := sf w 38 27 + 1
  let unit := max g 64
  let n := min unit (sf w 26 15 * g - u * unit)
  let ix := if mode = 0 then (taken f (nextOp f 0) 0 g).map (fun o => signed 16 o.code) else []
  let src := fun (p : Nat) => match mode with
    | 0 => ix.getD p 0
    | 1 => (bitRev (Nat.log2 g) p : Int)
    | _ => ((p % rows * (g / rows) + p / rows : Nat) : Int)
  let xs := taken f 0 (u * unit) n
  let codes := (chunks g xs).flatMap (fun grp => (List.range g).map (fun p =>
    if src p < 0 ∨ (g : Int) ≤ src p then 0 else (grp.getD (src p).toNat Opnd.zero).code))
  let c1 := match (List.range g).find? (fun p => decide (src p < 0) || decide ((g : Int) ≤ src p)) with
    | some p => flightFault c i engV f .vIndex 0 p (unsigned 64 (src p))
    | none => c
  let acts := (chunks 64 codes).zipIdx.map (fun x =>
    let og := u * unit / 64 + x.2
    (⟨f.start + og + cdiv g 64 + 4, .write f.outs (64 * og) x.1⟩ : Todo))
  forget (addTodo c1 i f.id acts) i f.id 0 ((u + 1) * unit)

/-- The draw of R201 over one segment: index and whether lane 0 raises INVALID; the running sums raise no other flag (DESIGN CHOICE, log entry 81). `ws`: the weights as the first pass read them, `again`: as the second did (R202). -/
def drawIndex (ws again : List Nat) (t : Nat) : Nat × Bool :=
  let bad := ws.any (fun v => match b32 v with | .fin s m _ => s && m != 0 | _ => true)
  let pos := fun (v : Nat) => valLt (.fin false 0 0) (b32 v) && fabs v != 0
  let gt := fun (a b : Nat) => valLt (b32 b) (b32 a) && !(valEq (b32 a) (b32 b))
  if bad || !(ws.any pos) then (0xFFFFFFFF, true)
  else
    let add := fun (a b : Nat) => (fadd a b).1
    let tot := fun (l : Nat) => (laneVals ws l).foldl (fun a v => add a (fabs v.1)) 0
    let lanes := List.range (min 64 ws.length)
    let scan := lanes.foldl (fun (acc : Nat × Option Nat) l => match acc.2 with
      | some _ => acc
      | none => let q := add acc.1 (tot l); if gt q t then (acc.1, some l) else (q, none)) (0, none)
    let lastPos := fun (vs : List (Nat × Nat)) => ((vs.filter (fun v => pos v.1)).map Prod.snd).getLastD 0
    match scan.2 with
    | none => (lastPos ws.zipIdx, false)
    | some l =>
      let r := (laneVals again l).foldl (fun (acc : Nat × Option Nat) v => match acc.2 with
        | some _ => acc
        | none => let q := add acc.1 (fabs v.1); if gt q t then (q, some v.2) else (q, none)) (scan.1, none)
      (r.2.getD (lastPos (laneVals again l)), false)

/-- VDRAW (R201, R202, R204, R208, R209): a segment is read twice. -/
def vdraw (_e : Env) (c : Chip) (i : Nat) (s : QSlot) : Chip :=
  let w := s.w
  let fmt := sf w 54 51
  let n := sf w 50 35 + 1
  let segs := sf w 34 26
  let as := sf w 25 21
  let ts := sf w 20 16
  let os := sf w 15 11
  let g := cdiv n 64
  let seg := 2 * g + 72
  if segs = 0 then occupy c i .v 1
  else if !(predOf (core c i) c.now (sf w 57 55)) then occupy c i .v (segs * seg)
  else
    let kl := claim c i engV s.lw (segs * n) [as, ts, os]
    if !kl.1 then kl.2
    else
      let xs := opList (core c i) c.now [(as, elemWidth fmt, mxOpt fmt, .nearOnly), (ts, 32, none, .nearOnly), (os, 32, none, .nearOnly)]
      let acts := (List.range segs).flatMap (fun q =>
        let x := c.now + q * seg
        let pass := fun (at_ : Nat) => (List.range g).flatMap (fun y => readsOf xs.1 0 (at_ + y) (q * n + 64 * y) (min 64 (n - 64 * y)))
        readsOf xs.1 (xs.2.getD 1 1) x q 1 ++ pass x ++ pass (x + g + 68) ++ [⟨x + 2 * g + 67, .calc q⟩])
      let c1 := takeOff c i engV s xs.1 (xs.2.getD 2 2) acts [] 0
      let c2 := advance (advance (advance c1 i as (elemWidth fmt) (mxOpt fmt) (segs * n)) i ts 32 none segs) i os 32 none segs
      occupy (residueCheck c2 i s.lw true ⟨n, true, none, none, false, false⟩) i .v (segs * seg)

/-- The draw of a segment (R201, R202, R203): the index is written, and INVALID set, at x + 2 G + 72. -/
def drawCalc (c : Chip) (i : Nat) (f : Flight) (q : Nat) : Chip :=
  let w := f.slot.w
  let n := sf w 50 35 + 1
  let vs := match f.ops[0]? with | some o => o.got.map (toB32 (sf w 54 51)) | none => []
  let t := ((taken f (nextOp f 0) q 1).headD Opnd.zero).code
  let r := drawIndex (vs.take n) ((vs.drop n).take n) t
  let at_ := f.start + (q + 1) * (2 * cdiv n 64 + 72)
  let c1 := onFlight (addTodo c i f.id [⟨at_, .write f.outs q [r.1]⟩]) i f.id (fun f => match f.ops[0]? with
    | some o => { f with ops := f.ops.set 0 { o with got := [] } }
    | none => f)
  addFlags c1 i [⟨at_, 0, if r.2 then fInvalid else 0⟩]

/-- Lane flags set before a cycle (R203). -/
def flagsBefore (k : Core) (now lane : Nat) : VFlags :=
  (k.flags.filter (fun f => f.lane == lane && decide (f.at_ < now))).foldl (fun a f => a ||| f.fl) 0

/-- VFLAG (R203). -/
def vflag (_e : Env) (c : Chip) (i : Nat) (s : QSlot) : Chip :=
  let mode := sf s.w 54 53
  let os := sf s.w 52 48
  if mode = 3 then coreFault c i engV s.lw .vEncoding 0 0 0
  else if !(predOf (core c i) c.now (sf s.w 57 55)) then occupy c i .v 1
  else
    let kl := if mode = 2 then (true, c) else claim c i engV s.lw 1 [os]
    if !kl.1 then kl.2
    else
      let cap := (List.range 64).foldr (fun l acc => acc * 16 + (flagsBefore (core c i) c.now l).toNat) 0
      let c1 := if mode = 2 then c
        else advance (takeOff c i engV s (opList (core c i) c.now [(os, 256, none, .nearOnly)]).1 0 [⟨c.now, .write 0 0 [cap]⟩] [] 0) i os 256 none 1
      let c2 := if mode = 0 then c1 else onCore c1 i (fun k => { k with flags := k.flags.filter (fun f => decide (c.now ≤ f.at_)) })
      occupy c2 i .v 1

/-- VTEST (R205). -/
def vtest (_e : Env) (c : Chip) (i : Nat) (s : QSlot) : Chip :=
  let pd := sf s.w 54 52
  let as := sf s.w 49 45
  if pd = 0 then coreFault c i engV s.lw .vEncoding 0 0 0
  else if !(predOf (core c i) c.now (sf s.w 57 55)) then occupy c i .v 1
  else
    let kl := claim c i engV s.lw 1 [as]
    if !kl.1 then kl.2
    else
      let xs := opList (core c i) c.now [(as, 32, none, .nearOnly)]
      occupy (advance (takeOff c i engV s xs.1 xs.1.length (readsOf xs.1 0 c.now 0 1 ++ [⟨c.now, .calc 0⟩]) [] 0) i as 32 none 1) i .v 1

/-- The condition of a VTEST on the value it has read (R205): its predicate is written at i + 2. -/
def testCalc (c : Chip) (i : Nat) (f : Flight) : Chip :=
  let v := ((taken f 0 0 1).headD Opnd.zero).code
  let r := match sf f.slot.w 51 50 with
    | 0 => valIsNaN (b32 v) || fabs v != 0
    | 1 => valIsNaN (b32 v)
    | 2 => anySpecial [b32 v]
    | _ => v != 0
  onCore c i (fun k => setPred k (f.start + 2) 2 (sf f.slot.w 54 52) r)

/-- A unit of a V slot is computed, by its opcode. -/
def vCalc (c : Chip) (i : Nat) (f : Flight) (u : Nat) : Chip :=
  match opOf f.slot.w with
  | 1 => chainCalc c i f u
  | 2 => progCalc c i f u
  | 3 => redCalc c i f u
  | 4 => permCalc c i f u
  | 5 => drawCalc c i f u
  | _ => testCalc c i f

end Sys2Proof.Machine
end

