-- ==== Sys2Proof/Machine/Layout.lean ====
section
/-! DEFINITION. Program images, placements and relocation (10_contract.md R240-R245, R255-R258; 12_host.md R310; 11_serving.md R269; 13_ihlan.md R327). Declarations reach LOAD_PROGRAM as operands, since the spec gives no bytes for them (log entry 35). -/

namespace Sys2Proof.Machine

/-! Placement. -/

/-- One package of a placement record (R310). -/
structure Lay where
  pkg : Nat
  rot : Nat
  mask : Nat
  clean : Bool
  deriving DecidableEq, Repr

def Lay.none : Lay := ⟨0, 0, 0, false⟩

/-- The entry of symbolic package `k` of a placement record whose bytes `rd` gives (offset, count). -/
def layAt (rd : Nat → Nat → List Byte) (k : Nat) : Lay :=
  let b := rd (8 + 16 * k) 16
  ⟨field b 0 2 % 4096, field b 2 1, field b 4 8, field b 0 2 / 4096 == 0 && field b 3 1 == 0 && field b 12 4 == 0⟩

/-- Physical band positions of context `x` of symbolic stack `s` (R310). -/
def layMask (l : Lay) (s x : Nat) : Nat := bitsOf l.mask (16 * s + 4 * x + 3) (16 * s + 4 * x)

def maskBits (m : Nat) : List Nat := (List.range 4).filter (bitOf m)

/-- Physical band of a symbolic one: positions in ascending order, stacks rotated (R245, R255). -/
def bandTo (b : PkgBlock) (l : Lay) (band : Nat) : Option Nat :=
  match b.ctxs.find? (fun x => x.stack == band / 4 && bitOf x.positions (band % 4)) with
  | none => none
  | some x => ((maskBits (layMask l x.stack x.idx))[(maskBits x.positions).idxOf (band % 4)]?).map (fun p => (x.stack + l.rot) % 4 * 4 + p)

/-- Physical logical core ID of a symbolic one (R258). -/
def coreTo (b : PkgBlock) (l : Lay) (i : Nat) : Option Nat := (bandTo b l (i / 64)).map (fun p => p * 64 + i % 64)

/-- Whether the program runs on a symbolic core. -/
def coreHere (b : PkgBlock) (i : Nat) : Bool := b.ctxs.any (fun x => x.stack == i / 256 && bitOf x.positions (i / 64 % 4))

/-- Physical bands of a context. -/
def ctxBands (l : Lay) (x : CtxDecl) : Nat := layMask l x.stack x.idx * 2 ^ (4 * ((x.stack + l.rot) % 4))

/-- Physical bands of a package. -/
def layBands (b : PkgBlock) (l : Lay) : Nat := (b.ctxs.map (ctxBands l)).foldl (· ||| ·) 0

/-- Port map of R256. -/
def portTo (l : Lay) (p : Nat) : Nat := 4 * ((p / 4 + l.rot) % 4) + p % 4

/-- Whether a placement entry fits a package block (R255, R310). -/
def layOk (b : PkgBlock) (l : Lay) : Bool :=
  l.clean && decide (l.rot ≤ 3) &&
  b.ctxs.all (fun x => let m := layMask l x.stack x.idx
    (maskBits m).length == (maskBits x.positions).length && (x.bandFree || m == x.positions)) &&
  (List.range 16).all (fun k => b.ctxs.any (fun x => x.stack == k / 4 && x.idx == k % 4) || layMask l (k / 4) (k % 4) == 0) &&
  [0, 1, 2, 3].all (fun s => ((List.range 4).flatMap (fun x => maskBits (layMask l s x))).length == ((List.range 4).flatMap (fun x => maskBits (layMask l s x))).eraseDups.length)

/-- The layers of a list of tile groups of one package (R91). -/
def layersOf (sym : Nat) (gs : List TileGroup) : List LayerAt :=
  ((gs.map (fun g => g.layer)).eraseDups).map (fun l =>
    let mine := gs.filter (fun g => g.layer == l)
    ⟨sym, l, (mine.map (fun g => g.tiles)).sum, (mine.map (fun g => g.tiles * tilePitch g.fmt)).sum, ((mine.filter (fun g => decide (g.fmt ≤ 1))).map (fun g => g.tiles)).sum⟩)

/-- The layers of every package. -/
def layoutsOf (blocks : List PkgBlock) (f : PkgBlock → List TileGroup) : List LayerAt :=
  blocks.zipIdx.flatMap (fun b => layersOf b.2 (f b.1))

/-! The image. -/

/-- A relocation entry (R257). -/
structure Reloc where
  place : Nat
  kind : Nat
  lsb : Nat
  width : Nat
  pkg : Nat
  owner : Nat
  off : Nat
  clean : Bool
  deriving DecidableEq, Repr

def relocAt (b : List Byte) : Reloc :=
  ⟨field b 0 1, field b 1 1, field b 2 1, field b 3 1, field b 4 2, field b 6 2, field b 8 4, field b 12 4 == 0⟩

def relocOk (npkg : Nat) (r : Reloc) : Bool :=
  decide (r.place ≤ 2) && decide (r.kind ≤ 10) && decide (1 ≤ r.width) && decide (r.lsb + r.width ≤ 64) && decide (r.pkg < npkg) && r.off % 4 == 0 && r.clean

/-- A variant entry (R244). -/
def variantAt (b : List Byte) : VariantE := ⟨field b 0 2, field b 2 2, field b 4 1, field b 5 1, field b 8 4, field b 12 4⟩

def variantOk (v : VariantE) : Bool :=
  decide (v.wNom ≤ v.wWorst) && decide (v.rows ≤ 4096) && (v.chunk == 0 || (decide (64 ≤ v.chunk) && decide (v.chunk ≤ 4096))) &&
    decide (v.draft ≤ 8) && decide (v.kind ≤ 1)

/-- The idle variant (R244). -/
def isIdle (v : VariantE) : Bool := v.rows == 0 && v.chunk == 0 && v.kind == 0

/-- A program image as its bytes give it: header facts, counts, relocations, whether its format is this device's (R1, R240), and whether it is well formed in itself (R240, R241, R244). -/
structure Img where
  hdr : ProgHdr
  npkg : Nat
  nbar : Nat
  body : Nat
  relocs : List Reloc
  here : Bool
  ok : Bool

/-- The image whose bytes `rd` gives (offset, count). -/
def readImg (rd : Nat → Nat → List Byte) : Img :=
  let h := rd 0 256
  let body := field h 0x20 8
  let npkg := field h 8 2
  let nvar := field h 0x0A 2
  let nrel := field h 0x40 4
  let inside := fun (o n : Nat) => n == 0 || (decide (256 ≤ o) && decide (o + n ≤ 256 + body))
  let vs := (List.range nvar).map (fun k => rd (field h 0x28 8 + 16 * k) 16)
  let rs := (List.range nrel).map (fun k => relocAt (rd (field h 0x38 8 + 16 * k) 16))
  let dig := BitVec.ofNat 384 (beNat ((h.drop 0x50).take 48))
  { hdr := { profile := field h 2 1, nclass := field h 3 1, engines := field h 4 4, stall := field h 0x0C 4, reserve := field h 0x10 2,
             ctSlots := field h 0x12 1, implicitStart := bitOf (field h 0x13 1) 0, startToken := field h 0x14 4, warm := field h 0x18 4,
             digest := dig, variants := vs.map variantAt }
    npkg := npkg, nbar := field h 0x44 4, body := body, relocs := rs, here := field h 0 2 == 0x0040
    ok := field h 0 2 == 0x0040 && (field h 2 1 == 1 || field h 2 1 == 2) && field h 3 1 != 0 && bitsOf (field h 4 4) 15 6 == 0 &&
      decide (1 ≤ npkg) && decide (npkg ≤ 4096) && decide (1 ≤ nvar) && decide (nvar ≤ 1024) &&
      decide (1 ≤ field h 0x0C 4) && decide (field h 0x0C 4 < 2 ^ 24) && decide (31 ≤ field h 0x10 2) && decide (field h 0x10 2 ≤ 1024) &&
      decide (field h 0x12 1 ≤ 64) && field h 0x13 1 / 2 == 0 && field h 0x1C 4 == 0 && decide (field h 0x44 4 ≤ 1024) && field h 0x80 128 == 0 &&
      inside (field h 0x28 8) (16 * nvar) && inside (field h 0x30 8) (8 * npkg) && inside (field h 0x38 8) (16 * nrel) && inside (field h 0x48 8) (field h 0x44 4) &&
      (List.range npkg).all (fun k => inside (leNat (rd (field h 0x30 8 + 8 * k) 8)) 1) &&
      vs.all (fun v => variantOk (variantAt v) && field v 6 2 == 0) && rs.all (relocOk npkg) &&
      sha384 (h.take 0x50 ++ rd 256 body) == dig }

/-! Declarations. -/

/-- A serving range whose contents fit it (R269). -/
def servingOk (r : RangeDecl) : Bool :=
  match r.use with
  | .plain => true
  | .kv s n b => decide (1 ≤ n) && decide (n ≤ 2 ^ 31) && decide (1 ≤ b) && decide (b ≤ 2 ^ 20) && decide (s * (n + 9) * b ≤ r.len)
  | .plan n m => n % 64 == 0 && decide (m ≤ n) && decide (3 * n ≤ r.len)
  | .prompt t => decide (4 * t ≤ r.len)
  | .lookup ts =>
    decide (1 ≤ ts.length) && decide (ts.length ≤ 256) &&
    ts.all (fun t => decide (1 ≤ t.rows) && decide (t.rows ≤ 2 ^ 32) && decide (1 ≤ t.perShard) && decide (t.perShard < 2 ^ 32) &&
      decide (1 ≤ t.cap) && decide (t.cap ≤ 4096) && t.shards.length == cdiv t.rows t.perShard) &&
    decide (8 + 16 * ts.length + 4 * (ts.map (fun t => t.shards.length)).sum ≤ r.len)
  | .badTag _ => false

/-- A declared range lies in one slice or one near scratchpad of a core of the program. -/
def rangeOk (b : PkgBlock) (r : RangeDecl) : Bool :=
  ((inStore r.lo && decide (r.lo % 2 ^ 24 + r.len ≤ 2 ^ 24)) || (inAnyNear r.lo && decide (r.lo % 2 ^ 21 + r.len ≤ 2 ^ 21))) &&
    coreHere b (coreAt r.lo) && servingOk r

/-- Shelves of one package (R72). -/
def shelvesOk (b : PkgBlock) : Bool :=
  b.shelves.all (fun s => coreHere b s.core && decide (s.shelf < 256) && decide (1 ≤ s.slots) && decide (s.slots ≤ 4096) && decide (1 ≤ s.lines) &&
    decide (s.lines ≤ 1024) && decide (s.base + s.lines * s.slots ≤ 2 ^ 15)) &&
  b.shelves.zipIdx.all (fun x => b.shelves.zipIdx.all (fun y => decide (y.2 ≤ x.2) || x.1.core != y.1.core ||
    (x.1.shelf != y.1.shelf && (decide (x.1.base + x.1.lines * x.1.slots ≤ y.1.base) || decide (y.1.base + y.1.lines * y.1.slots ≤ x.1.base)))))

/-- A declared window (R78, R79). -/
def windowOk (b : PkgBlock) (w : Nat × Nat × Window) : Bool :=
  coreHere b w.1 && decide (w.2.1 < 16) && decide (w.2.2.base < w.2.2.limit) && decide (w.2.2.limit ≤ (if w.2.2.region then 2 ^ 18 else 2 ^ 15))

/-- A link-table entry in itself (R327). -/
def linkOk (npkg : Nat) (l : LinkDecl) : Bool :=
  decide (l.port < 16) && decide (l.nbrSym < npkg) && decide (l.nbrPort < 16) && decide (16 ≤ l.period) && decide (l.period ≤ 4096) &&
    decide (l.window ≤ 512) && decide (l.relays.length ≤ 16) && l.relays.all (fun r => decide (r.1 < 16))

/-- Window and relay times of a link entry on this package, its port at the width it has: N_t slots at least, and Δ slots cover the hop and the crossings (R327). -/
def linkTimesOk (c : Chip) (lay : Lay) (profile : Nat) (l : LinkDecl) : Bool :=
  let n := portTo lay l.port
  let h := Config.hop profile
  let x2 := fun (p : Nat) => (tget Port.reset c.ports p).width
  decide (resendGap h (x2 n) ≤ l.window) &&
    l.relays.all (fun r =>
      let o := portTo lay r.1
      decide ((h + Config.ring * ringHops (n / 4) (o / 4)) * 575680 ≤ r.2 * (if x2 o then 2 else 1) * 3847168))

/-- The cabinet in itself (R104, R114): its groups lie on cores of its bands, inside a drawer, on row boundaries. -/
def cabinetOk (b : PkgBlock) : Bool :=
  let k := b.cabinet
  decide (k.bands < 2 ^ 16) && ((List.range 16).filter (bitOf k.bands)).all (fun q => coreHere b (64 * q)) && k.base % 256 == 0 && k.span % 256 == 0 &&
  k.groups.all (fun g => decide (g.core < 1024) && bitOf k.bands (g.core / 64) && decide (g.fmt < 14) && g.base % 256 == 0 &&
    decide (g.base + g.tiles * tilePitch g.fmt ≤ k.span) && (decide (2 ≤ g.fmt) || decide (g.hdr + 2 * g.tiles ≤ k.span)))

/-- Whether the cabinet meets tiles, headers or declared ranges of a core's slice (R104). -/
def cabinetClash (b : PkgBlock) : Bool :=
  let lo := b.cabinet.base
  let hi := lo + b.cabinet.drawers * b.cabinet.span
  let meets := fun (core a n : Nat) => bitOf b.cabinet.bands (core / 64) && n != 0 && decide (a < hi) && decide (lo < a + n)
  lo != hi && (b.tiles.any (fun g => meets g.core (g.base % 2 ^ 24) (g.tiles * tilePitch g.fmt) || (decide (g.fmt ≤ 1) && meets g.core (g.hdr % 2 ^ 24) (2 * g.tiles))) ||
    b.ranges.any (fun r => inStore r.lo && meets (r.lo / 2 ^ 24) (r.lo % 2 ^ 24) r.len))

/-- The structure of a symbolic package block (R186-R194, R243, R245, R269). -/
def blockOk (g : Img) (b : PkgBlock) : Bool :=
  b.ctxs.all (fun x => decide (x.stack < 4) && decide (x.idx < 4) && decide (1 ≤ x.positions) && decide (x.positions < 16) &&
    x.entries.length == g.hdr.variants.length && x.entries.all (fun n => n % 4 == 0 && decide (n < x.code.length)) && x.code.length % 4 == 0) &&
  b.ctxs.zipIdx.all (fun x => b.ctxs.zipIdx.all (fun y => decide (y.2 ≤ x.2) || x.1.stack != y.1.stack || (x.1.idx != y.1.idx && x.1.positions &&& y.1.positions == 0))) &&
  b.buoys.all (fun x => decide (x.1 < 4) && decide (x.2.length ≤ 2 ^ 16)) && (b.buoys.map Prod.fst).eraseDups.length == b.buoys.length &&
  b.descs.all (fun d => coreHere b (d.1 / 256) && d.2.length == 64 && descClean d.2 && descFields (parseDesc d.2)) &&
  b.chains.all (fun d => coreHere b (d.1 / 64) && chainOk d.2) &&
  b.progs.all (fun d => coreHere b (d.1 / 16) && eprogOk g.hdr.profile d.2) &&
  shelvesOk b && b.windows.all (windowOk b) && b.ranges.all (rangeOk b) &&
  b.ranges.any (fun r => match r.use with | .plan _ _ => true | _ => false) &&
  decide (b.cabinet.drawers ≤ 4096) && decide (1 ≤ b.cabinet.maxRank) && decide (b.cabinet.maxRank ≤ 256) &&
  b.tiles.all (fun t => coreHere b t.core && decide (t.fmt < 14) && inSlice t.core t.base && decide (t.base % 2 ^ 24 + t.tiles * tilePitch t.fmt ≤ 2 ^ 24) && t.base % 256 == 0 &&
    (decide (2 ≤ t.fmt) || (inSlice t.core t.hdr && decide (t.hdr % 2 ^ 24 + 2 * t.tiles ≤ 2 ^ 24)))) &&
  cabinetOk b &&
  b.links.all (linkOk g.npkg) && (b.links.map (fun l => l.port)).eraseDups.length == b.links.length

/-- The cabinet is the same on every package, so that a drawer number means the same drawer (R104). -/
def cabinetsAgree (blocks : List PkgBlock) : Bool :=
  decide ((blocks.map (fun b => (b.cabinet.drawers, b.cabinet.span, b.cabinet.maxRank, b.cabinet.base))).eraseDups.length ≤ 1)

/-- S and C of the pools that the packages declare are the same (R269). -/
def poolsAgree (blocks : List PkgBlock) : Bool :=
  let ps := blocks.flatMap (fun b => b.ranges.filterMap (fun r => match r.use with | .kv s n _ => some (s, n) | _ => none))
  decide (ps.eraseDups.length ≤ 1)

/-- Packages reached from `seen` over the link tables, and the number of rounds that still found new ones (R50). -/
def reach : Nat → List PkgBlock → List Nat → List Nat → Nat → List Nat × Nat
  | 0, _, seen, _, d => (seen, d)
  | fuel + 1, blocks, seen, front, d =>
    let next := ((front.flatMap (fun k => match blocks[k]? with | some b => b.links.map (fun l => l.nbrSym) | none => [])).filter (fun k => !(seen.contains k))).eraseDups
    if next = [] then (seen, d) else reach fuel blocks (seen ++ next) next (d + 1)

/-- Link-table hops from the packages of `front` to package `t` (R50). -/
def hopsFrom : Nat → List PkgBlock → List Nat → Nat → Nat → Option Nat
  | 0, _, _, _, _ => none
  | fuel + 1, blocks, front, t, d =>
    if front.contains t then some d
    else hopsFrom fuel blocks (front.flatMap (fun k => match blocks[k]? with | some b => b.links.map (fun l => l.nbrSym) | none => [])).eraseDups t (d + 1)

/-! Allocation. -/

/-- The lowest start of a free run of `len` below `cap` (log entry 36). -/
def firstFit (used : List (Nat × Nat)) (cap len : Nat) : Option Nat :=
  leastOf ((0 :: used.map (fun u => u.1 + u.2)).filter (fun s =>
    decide (s + len ≤ cap) && used.all (fun u => u.2 == 0 || decide (s + len ≤ u.1) || decide (u.1 + u.2 ≤ s))))

/-- What a program is given on this package: context numbers, program-store base and length per stack, buoy base per stack, code-table slots per stack, barrier groups, tag. -/
structure Alloc where
  ctxs : List Nat
  prog : List (Nat × Nat)
  buoy : List Nat
  slots : List (List Nat)
  groups : List Nat
  tag : Nat

/-- Symbolic stack of a physical one. -/
def symStack (l : Lay) (s : Nat) : Nat := (s + 4 - l.rot % 4) % 4

/-- Program-store bytes a package block needs on a physical stack: code, an entry table of 4 B an entry, and the copies of chain tables and element programs (R214; log entry 36). -/
def progNeed (b : PkgBlock) (l : Lay) (s : Nat) : Nat :=
  let q := symStack l s
  ((b.ctxs.filter (fun x => x.stack == q)).map (fun x => x.code.length + 4 * x.entries.length)).sum +
    64 * (b.chains.filter (fun d => d.1 / 64 / 256 == q)).length +
    ((b.progs.filter (fun d => d.1 / 16 / 256 == q)).map (fun d => 128 + 4 * d.2.words.length)).sum

/-- The reference copy of an element program (R191, R214): a header of 128 B and the words. The places of the header's fields are the model's (log entry 36): n, the numbers of inputs and outputs, format and pair flag of each, the register of each output, the constants from 0x40. -/
def progBytes (p : EProg) : List Byte :=
  let head := leBytes 1 p.words.length ++ leBytes 1 p.ins.length ++ leBytes 1 p.outs.length ++ p.ins.flatMap (fun x => leBytes 1 (x.1 + 16 * b2n x.2)) ++
    p.outs.flatMap (fun x => leBytes 1 (x.1 + 16 * b2n x.2.1) ++ leBytes 1 x.2.2)
  let consts := p.consts.flatMap (fun k => leBytes 4 k.toNat)
  head ++ List.replicate (64 - head.length) 0 ++ consts ++ List.replicate (64 - consts.length) 0 ++ p.words.flatMap (fun w => leBytes 4 w.toNat)

def buoysOf (b : PkgBlock) (s : Nat) : List Word := ((b.buoys.find? (fun x => x.1 == s)).map (fun x => x.2)).getD []

/-- Free contexts of a physical stack. -/
def freeCtxs (c : Chip) (s : Nat) : List Nat := (List.range 4).map (fun x => 4 * s + x) |>.filter (fun x => (ctx c x).job == 0)

/-- Context numbers of the declared contexts, in declaration order: on each stack the lowest free ones. -/
def giveCtxs (c : Chip) (l : Lay) (xs : List CtxDecl) : Option (List Nat) :=
  xs.foldl (fun (o : Option (List Nat)) x => o.bind (fun got =>
    ((freeCtxs c ((x.stack + l.rot) % 4)).find? (fun n => !(got.contains n))).map (fun n => got ++ [n]))) (some [])

/-- A relayed program takes the tag and the barrier groups that its lead has chosen (R259, R296). -/
def Alloc.relayed (c : Chip) (r : Relay) (al : Alloc) : Option Alloc :=
  if (tfind c.jobs r.tag).isSome ∨ r.tag = 0 ∨ r.groups.any (fun g => (tget Bar.free c.bars g).job != 0) = true then none
  else some { al with tag := r.tag, groups := r.groups }

/-- Everything that step 6 of R259 looks for, found or not. -/
def allocate (c : Chip) (g : Img) (b : PkgBlock) (l : Lay) (parts : List Nat) (others : List PkgCheck) : Option Alloc :=
  let four := [0, 1, 2, 3]
  let jobs := c.jobs.map Prod.snd
  let prog := four.map (fun s => firstFit ((jobs.flatMap (fun j => j.place.regions)).filterMap (fun r =>
    if Config.progBase s ≤ r.1 ∧ r.1 < Config.progBase s + 2 ^ 23 then some (r.1 - Config.progBase s, r.2) else none)) (2 ^ 23) (progNeed b l s))
  let buoy := four.map (fun s => firstFit (jobs.map (fun j => (j.place.buoyBase.getD s 0, (j.place.buoyInit.getD s []).length))) (2 ^ 16) (buoysOf b (symStack l s)).length)
  let slots := four.map (fun s =>
    if bitsOf (layBands b l) (4 * s + 3) (4 * s) = 0 then some []
    else
      let free := (List.range 64).filter (fun n => (tfind c.slots (s * 64 + n)).isNone)
      if free.length < g.hdr.ctSlots then none else some (free.take g.hdr.ctSlots))
  let freeGroups := (List.range 1024).filter (fun n => (tget Bar.free c.bars n).job == 0 && others.all (fun o => !(o.groups.contains n)))
  let tag := (List.range 0xFFFE).find? (fun n => (tfind c.jobs (n + 1)).isNone && others.all (fun o => !(o.tags.contains (n + 1))))
  match giveCtxs c l b.ctxs, tag with
  | some xs, some t =>
    if prog.all Option.isSome && buoy.all Option.isSome && slots.all Option.isSome && decide (g.nbar ≤ freeGroups.length) &&
        decide (b.cabinet.drawers + (jobs.map (fun j => j.decl.cab.drawers)).sum ≤ 4096) && decide (b.cabinet.base + b.cabinet.drawers * b.cabinet.span ≤ 2 ^ 24) && !(cabinetClash b) &&
        (List.range 1024).all (fun i => decide (((b.shelves.filter (fun s => s.core == i)).map (fun s => s.slots)).sum ≤ 8192)) &&
        parts.all (fun p => decide ((jobs.filter (fun j => j.place.parts.contains p)).length < 16)) then
      some ⟨xs, prog.zipIdx.map (fun x => (x.1.getD 0, progNeed b l x.2)), buoy.map (·.getD 0), slots.map (·.getD []), freeGroups.take g.nbar, t + 1⟩
    else none
  | _, _ => none

/-! Relocation. -/

/-- The job as the loader sees it: blocks, placement, own symbolic index, allocation, buoy bases of other packages, host area. -/
structure Build where
  blocks : List PkgBlock
  lays : List Lay
  sym : Nat
  al : Alloc
  others : List PkgCheck
  hostBase : Nat

def Build.lay (x : Build) (p : Nat) : Lay := x.lays.getD p Lay.none

/-- Code base of the `k`-th declared context within the program store of its stack. -/
def codeBase (x : Build) (b : PkgBlock) (k : Nat) : Nat :=
  match b.ctxs[k]? with
  | none => 0
  | some d => (x.al.prog.getD ((d.stack + (x.lay x.sym).rot) % 4) (0, 0)).1 + (((b.ctxs.take k).filter (fun y => y.stack == d.stack)).map (fun y => y.code.length)).sum

/-- A mapped buoy of a package (R258): its number there, if the package declares it. -/
def buoyTo (x : Build) (p s i : Nat) : Option Nat :=
  match x.blocks[p]? with
  | none => none
  | some b =>
    let l := x.lay p
    let t := (s + l.rot) % 4
    if (buoysOf b s).length ≤ i then none
    else
      let base := if p = x.sym then x.al.buoy.getD t 0 else ((x.others.find? (fun o => o.pkg == l.pkg)).map (fun o => o.buoyBase.getD s 0)).getD 0
      some (t * 2 ^ 16 + base + i)

/-- A mapped core of a package. -/
def coreIn (x : Build) (p i : Nat) : Option Nat := (x.blocks[p]?).bind (fun b => coreTo b (x.lay p) i)

/-- The value that takes the place of `v` (R258). `p`: the package that owns the target where the value does not name it; `base`: the context's code base, if the owner is a context. -/
def relocValue (x : Build) (kind p : Nat) (base : Option Nat) (v : Nat) : Option Nat :=
  let pkgTo := fun (q : Nat) => if q < x.lays.length then some (x.lay q).pkg else none
  match kind with
  | 0 => (coreIn x p (bitsOf v 33 24)).map (fun i => v - bitsOf v 33 24 * 2 ^ 24 + i * 2 ^ 24)
  | 1 => (coreIn x p (bitsOf v 30 21)).map (fun i => v - bitsOf v 30 21 * 2 ^ 21 + i * 2 ^ 21)
  | 2 => (coreIn x (bitsOf v 21 10) (v % 1024)).map (fun i => (x.lay (bitsOf v 21 10)).pkg * 1024 + i)
  | 3 => coreIn x p v
  | 4 => pkgTo v
  | 5 => (buoyTo x (bitsOf v 29 18) (bitsOf v 17 16) (bitsOf v 15 0)).map (fun n => (x.lay (bitsOf v 29 18)).pkg * 2 ^ 18 + n)
  | 6 => buoyTo x p (bitsOf v 17 16) (bitsOf v 15 0)
  | 7 => x.al.groups[v]?
  | 8 => base.map (v + ·)
  | 9 => some (portTo (x.lay p) v)
  | _ => some (v + x.hostBase)

/-- Replace bits [lsb + width - 1 : lsb] of an 8-byte unit. -/
def putField (u lsb width v : Nat) : Nat := u - bitsOf u (lsb + width - 1) lsb * 2 ^ lsb + v * 2 ^ lsb

/-- Patch one field of a table of bytes (R257, R258); none where the unit lies outside or the value does not fit. -/
def patchBytes (x : Build) (r : Reloc) (p : Nat) (base : Option Nat) (bs : List Byte) : Option (List Byte) :=
  if bs.length < r.off + 8 then none
  else
    let u := field bs r.off 8
    match relocValue x r.kind p base (bitsOf u (r.lsb + r.width - 1) r.lsb) with
    | none => none
    | some v => if 2 ^ r.width ≤ v then none else some (bs.take r.off ++ leBytes 8 (putField u r.lsb r.width v) ++ bs.drop (r.off + 8))

/-- Patch a table by the relocations that name it. -/
def patchAll (x : Build) (rs : List Reloc) (p : Reloc → Nat) (base : Option Nat) (bs : List Byte) : Option (List Byte) :=
  rs.foldl (fun o r => o.bind (patchBytes x r (p r) base)) (some bs)

/-- The 8 bytes of a window entry, fields of R78 from bit 0 up (log entry 35). -/
def windowBytes (w : Window) : List Byte := leBytes 8 (b2n w.isOpen + b2n w.region * 2 + w.base * 4 + w.limit * 2 ^ 20 + w.tag * 2 ^ 39)
def bytesWindow (bs : List Byte) : Window :=
  let u := leNat bs
  ⟨bitOf u 0, bitOf u 1, bitsOf u 19 2, bitsOf u 38 20, bitsOf u 54 39⟩

/-- Whether every relocation of this package names an owner that its block declares (R257). -/
def ownersOk (x : Build) (g : Img) (b : PkgBlock) : Bool :=
  (g.relocs.filter (fun r => r.pkg == x.sym)).all (fun r =>
    match r.place with
    | 0 => r.owner / 1024 == 0 && r.owner % 256 / 4 == 0 && b.ctxs.any (fun d => d.stack == bitsOf r.owner 9 8 && d.idx == r.owner % 4)
    | 1 => b.descs.any (fun d => d.1 / 256 == r.owner)
    | _ => b.windows.any (fun w => w.1 == r.owner))

/-- A table of an owner as bytes, up to its highest declared entry. -/
def tableBytes (size : Nat) (ents : Tab (List Byte)) : List Byte :=
  (List.range ((ents.map (fun d => d.1 + 1)).foldl max 0)).flatMap (fun n => (tfind ents n).getD (List.replicate size 0))

/-- The relocated table of one owner, entry by entry; a unit of 8 bytes at a multiple of 4 may reach into the next entry (R257). -/
def patchTable (x : Build) (g : Img) (place owner size : Nat) (p : Reloc → Nat) (ents : Tab (List Byte)) : Option (Tab (List Byte)) :=
  (patchAll x (g.relocs.filter (fun r => r.place == place && r.pkg == x.sym && r.owner == owner)) p none (tableBytes size ents)).map
    (fun bs => ents.map (fun d => (d.1, (bs.drop (size * d.1)).take size)))

/-- Relocated code of the declared contexts (WHERE 0). -/
def patchCode (x : Build) (g : Img) (b : PkgBlock) : Option (List (List Byte)) :=
  if !(ownersOk x g b) then none
  else b.ctxs.zipIdx.foldl (fun (o : Option (List (List Byte))) d => o.bind (fun acc =>
    (patchAll x (g.relocs.filter (fun r => r.place == 0 && r.pkg == x.sym && bitsOf r.owner 9 8 == d.1.stack && r.owner % 4 == d.1.idx))
      (fun _ => x.sym) (some (codeBase x b d.2)) d.1.code).map (fun y => acc ++ [y]))) (some [])

/-- A descriptor's target package: the one it names where it is remote (R258). -/
def descOwner (sym : Nat) (kind : Nat) (d : List Byte) : Nat :=
  let p := field d 0x3C 2
  if kind ≤ 1 ∧ bitOf p 15 = true then p % 4096 else sym

/-- Relocated descriptors (WHERE 1), keyed by physical core. -/
def patchDescs (x : Build) (g : Img) (b : PkgBlock) : Option (Tab (List Byte)) :=
  ((b.descs.map (fun d => d.1 / 256)).eraseDups).foldl (fun (o : Option (Tab (List Byte))) i => o.bind (fun acc =>
    let ents := (b.descs.filter (fun d => d.1 / 256 == i)).map (fun d => (d.1 % 256, d.2))
    let own := fun (r : Reloc) => descOwner x.sym r.kind ((tfind ents ((r.off + r.lsb / 8) / 64)).getD [])
    match patchTable x g 1 i 64 own ents, coreIn x x.sym i with
    | some ys, some k => some (ys.foldl (fun t y => tset t (k * 256 + y.1) y.2) acc)
    | _, _ => none)) (some [])

/-- Relocated persistent windows (WHERE 2), open, under the job's tag, keyed by physical core. -/
def patchWindows (x : Build) (g : Img) (b : PkgBlock) : Option (Tab Window) :=
  ((b.windows.map (fun w => w.1)).eraseDups).foldl (fun (o : Option (Tab Window)) i => o.bind (fun acc =>
    let ents := (b.windows.filter (fun w => w.1 == i)).map (fun w => (w.2.1, windowBytes w.2.2))
    match patchTable x g 2 i 8 (fun _ => x.sym) ents, coreIn x x.sym i with
    | some ys, some k => some (ys.foldl (fun t y => tset t (k * 16 + y.1) { (bytesWindow y.2) with isOpen := true, tag := x.al.tag }) acc)
    | _, _ => none)) (some [])

/-- A device address of a symbolic core moved to its physical core. -/
def moveAddr (x : Build) (a : Nat) : Nat := (relocValue x (if inStore a then 0 else 1) x.sym none a).getD a

/-- A declared range under the placement; shards of a lookup map are global core addresses (R269). -/
def moveRange (x : Build) (r : RangeDecl) : RangeDecl :=
  { r with
    lo := moveAddr x r.lo
    use := match r.use with
      | .lookup ts => .lookup (ts.map (fun t => { t with shards := t.shards.map (fun v => (relocValue x 2 x.sym none v).getD v) }))
      | u => u }

/-- The bytes of a lookup map (R269). -/
def lookupBytes (ts : List LookupTable) : List Byte :=
  leBytes 2 ts.length ++ leBytes 6 0 ++ ts.flatMap (fun t => leBytes 8 t.rows ++ leBytes 4 t.perShard ++ leBytes 2 t.cap ++ leBytes 2 0) ++
    ts.flatMap (fun t => t.shards.flatMap (leBytes 4))

/-- The lookup maps of a job are written to their ranges (R269). -/
def writeLookups (c : Chip) (rs : List RangeDecl) : Chip :=
  each rs c (fun c r => match r.use with | .lookup ts => wr c r.lo (lookupBytes ts) | _ => c)

/-- Declarations under the placement. -/
def moveDecls (x : Build) (b : PkgBlock) (descs : Tab (List Byte)) (wins : Tab Window) : Decls :=
  let core := fun (i : Nat) => (coreIn x x.sym i).getD i
  { descs := descs
    chains := b.chains.map (fun d => (core (d.1 / 64) * 64 + d.1 % 64, d.2))
    progs := b.progs.map (fun d => (core (d.1 / 16) * 16 + d.1 % 16, d.2))
    shelves := b.shelves.map (fun s => { s with core := core s.core })
    wins := wins
    ranges := b.ranges.map (moveRange x)
    cab := { b.cabinet with groups := b.cabinet.groups.map (fun g => { g with core := core g.core }) }
    tiles := b.tiles.map (fun t => { t with core := core t.core, base := moveAddr x t.base, hdr := moveAddr x t.hdr }) }

/-- A link-table entry under the placement: own ports mapped here, the neighbour's port mapped there (R256). -/
def moveLink (x : Build) (l : LinkDecl) : LinkDecl :=
  { l with port := portTo (x.lay x.sym) l.port, nbrPort := portTo (x.lay l.nbrSym) l.nbrPort, relays := l.relays.map (fun r => (portTo (x.lay x.sym) r.1, r.2)) }

/-- For each other package of the job the ports that begin a shortest route to it over the link tables, the lowest first (R50; log entry 44). -/
def routes (x : Build) : Tab Nat :=
  let own := (x.blocks[x.sym]?.map (fun b => b.links)).getD []
  x.lays.zipIdx.flatMap (fun d =>
    if d.2 = x.sym then []
    else
      let ways := own.filterMap (fun l => (hopsFrom x.blocks.length x.blocks [l.nbrSym] d.2 0).map (fun h => (portTo (x.lay x.sym) l.port, h)))
      let least := (leastOf (ways.map Prod.snd)).getD 0
      (sortBy id ((ways.filter (fun w => w.2 == least)).map Prod.fst)).map (fun n => (d.1.pkg, n)))

/-- Members of a barrier group: bands of each package (R41). -/
def moveBar (x : Build) (ms : List (Nat × Nat)) : List (Nat × Nat) :=
  ms.map (fun m => ((x.lay m.1).pkg, (((List.range 16).filter (bitOf m.2)).filterMap (fun q => (x.blocks[m.1]?).bind (fun b => bandTo b (x.lay m.1) q))).foldl (fun n q => n ||| 2 ^ q) 0))

/-- Whether barrier declarations name packages and bands of the program. -/
def barsOk (blocks : List PkgBlock) (bars : List (List (Nat × Nat))) : Bool :=
  bars.all (fun g => g.all (fun m => match blocks[m.1]? with
    | none => false
    | some b => decide (m.2 < 2 ^ 16) && ((List.range 16).filter (bitOf m.2)).all (fun q => b.ctxs.any (fun x => x.stack == q / 4 && bitOf x.positions (q % 4)))))

end Sys2Proof.Machine
end

