-- ==== Sys2Proof/Machine/Loading.lean ====
section
/-! DEFINITION. LOAD_PROGRAM and PROGRAM_LOADED, and the unloading of a program (10_contract.md R253-R260; 12_host.md R296, R308; 16_tenancy.md R373). -/

namespace Sys2Proof.Machine

/-- A LOAD_PROGRAM as its descriptor and operands give it; `rec_`: the first bytes of the placement record; `coded`: the code of every context stands in the image at its offset. -/
structure LoadReq where
  m : Cmd
  img : Img
  place : Nat
  blocks : List PkgBlock
  bars : List (List (Nat × Nat))
  lays : List Lay
  sym : Nat
  others : List PkgCheck
  relay : Option Relay
  rec_ : List Byte
  coded : Bool

/-- This package's block and placement. -/
def LoadReq.block (q : LoadReq) : PkgBlock := q.blocks.getD q.sym ⟨[], [], [], [], [], [], [], [], ⟨0, 0, 0, 0, 0, []⟩, [], [], 0⟩
def LoadReq.lay (q : LoadReq) : Lay := q.lays.getD q.sym Lay.none

def LoadReq.build (q : LoadReq) (al : Alloc) : Build := ⟨q.blocks, q.lays, q.sym, al, q.others, arg q.m 0x20 8⟩

/-- An allocation at zero, under which relocations are tried before there is a real one. -/
def Alloc.trial (q : LoadReq) : Alloc := ⟨[], [], [], [], List.range q.img.nbar, 1⟩

/-- Relocated code, descriptors and windows under an allocation. -/
def relocated (q : LoadReq) (al : Alloc) : Option (List (List Byte) × Tab (List Byte) × Tab Window) :=
  let x := q.build al
  match patchCode x q.img q.block, patchDescs x q.img q.block, patchWindows x q.img q.block with
  | some a, some b, some w => some (a, b, w)
  | _, _, _ => none

/-- Symbolic package that leads: this one, or the one that passed the command on. -/
def LoadReq.leadSym (c : Chip) (q : LoadReq) : Nat := (q.lays.map (fun l => l.pkg)).idxOf (match q.relay with | some r => r.lead | none => c.beacon.pkg)

/-- Tenant that submitted the command. -/
def LoadReq.tenant (c : Chip) (q : LoadReq) : Nat := match q.relay with | some r => r.tenant | none => (part c q.m.id.part).tenant.toNat

/-- The allocation on this package. -/
def LoadReq.give (c : Chip) (q : LoadReq) (parts : List Nat) : Option Alloc :=
  let al := allocate c q.img q.block q.lay parts q.others
  match q.relay with | some r => al.bind (Alloc.relayed c r) | none => al

/-- Step 1 of R259: the image, the declarations, the placement argument, this package in it, and every package reachable. -/
def progImageOk (c : Chip) (q : LoadReq) : Bool :=
  let lead := q.leadSym c
  q.img.ok && q.blocks.length == q.img.npkg && q.blocks.all (blockOk q.img) && poolsAgree q.blocks && cabinetsAgree q.blocks && q.coded && decide (q.block.hostLen ≤ arg q.m 0x28 8) &&
  q.bars.length == q.img.nbar && barsOk q.blocks q.bars &&
  field q.rec_ 0 2 == q.img.npkg && field q.rec_ 2 6 == 0 &&
  (q.blocks.zip q.lays).all (fun x => layOk x.1 x.2) && (q.lays.map (fun l => l.pkg)).eraseDups.length == q.img.npkg &&
  decide (q.sym < q.lays.length) && decide (lead < q.lays.length) && (reach q.img.npkg q.blocks [lead] [lead] 0).1.length == q.img.npkg &&
  q.block.links.all (linkTimesOk c q.lay q.img.hdr.profile) && (relocated q (Alloc.trial q)).isSome

/-- Ports that the link table maps (R256). -/
def LoadReq.ports (q : LoadReq) : List (Nat × LinkDecl) := q.block.links.map (fun l => (portTo q.lay l.port, l))

/-- Bands of the placement on this package. -/
def LoadReq.bands (q : LoadReq) : BitVec 16 := BitVec.ofNat 16 (layBands q.block q.lay)

/-- Partitions of the job here: those that hold its bands, and the one that submitted the command (R296). -/
def LoadReq.parts (c : Chip) (q : LoadReq) : List Nat :=
  (((List.range 16).filter (fun b => q.bands.getLsbD b)).filterMap (bandPart c) ++ (if q.relay.isSome then [] else [q.m.id.part])).eraseDups

/-- Status of the ports in turn (R256): NOT_READY where one is not UP, INVALID_ARG where it faces another neighbour. -/
def portsStatus (e : Env) (c : Chip) (q : LoadReq) : Option Status :=
  q.ports.findSome? (fun x =>
    let p := port e c x.1
    let n := q.lays.getD x.2.nbrSym Lay.none
    if p.st ≠ .up then some .notReady
    else if p.joined = false ∨ p.nbrPkg ≠ n.pkg ∨ p.nbrPort ≠ portTo n x.2.nbrPort then some .invalidArg
    else none)

/-- The first failing step of R259 on this package (0: none) and its status. -/
def ownCheck (e : Env) (c : Chip) (q : LoadReq) : Nat × Status :=
  let bandsHere := (List.range 16).filter (fun b => q.bands.getLsbD b)
  if !(progImageOk c q) then (1, .invalidArg)
  else if q.img.hdr.nclass ≠ 1 ∨ (q.img.hdr.profile = 2 ∧ e.fuses.steppingB = false) then (2, .profileMismatch)
  else if e.fuses.gradeC = true ∧ ((bitOf q.img.hdr.engines 1 || bitOf q.img.hdr.engines 4 || bitOf q.img.hdr.engines 5 || bitsOf q.img.hdr.engines 31 28 != 0) = true ∨ q.ports.any (fun x => decide (12 ≤ x.1)) = true) then
    (3, .engineAbsent)
  else if q.block.links.any (fun l => !(bitOf q.img.hdr.engines (16 + l.port))) then (3, .engineAbsent)
  else if !(bandsHere.all (fun b => match bandPart c b with | some p => (part c p).state == 1 && (part c p).tenant.toNat == q.tenant c | none => false)) then (4, .invalidArg)
  else match portsStatus e c q with
    | some st => (4, st)
    | none =>
      if c.jobs.any (fun j => (j.2.place.bands &&& q.bands) != 0 || j.2.place.links.any (fun l => q.ports.any (fun x => x.1 == l.port))) then (5, .busy)
      else if (q.give c (q.parts c)).isNone then (6, .noRoom)
      else (0, .ok)

/-- The check that decides: the lowest failing step, and the lowest package at which it failed; this package for the image itself (R259). -/
def deciding (own : Nat) (mine : Nat × Status) (others : List PkgCheck) : Option (Nat × Status) :=
  if mine.1 = 1 then some (own, mine.2)
  else
    let all := (own, mine.1, mine.2) :: (others.filter (fun o => o.pkg != own)).map (fun o => (o.pkg, o.step, o.status))
    let bad := all.filter (fun x => x.2.1 != 0)
    match leastOf (bad.map (fun x => x.2.1)) with
    | none => none
    | some s =>
      let at_ := bad.filter (fun x => x.2.1 == s)
      (leastOf (at_.map Prod.fst)).bind (fun p => (at_.find? (fun x => x.1 == p)).map (fun x => (p, x.2.2)))

/-- What a program places behind its code in the program store of a stack (R214): the entry table, and the copies of the chain tables and element programs of its cores. -/
def storeTables (x : Build) (b : PkgBlock) (l : Lay) (s : Nat) : List Byte :=
  let q := symStack l s
  ((b.ctxs.zipIdx.filter (fun d => d.1.stack == q)).flatMap (fun d => d.1.entries.flatMap (fun n => leBytes 4 (codeBase x b d.2 + n)))) ++
    (b.chains.filter (fun d => d.1 / 64 / 256 == q)).flatMap (fun d => d.2) ++
    (b.progs.filter (fun d => d.1 / 16 / 256 == q)).flatMap (fun d => progBytes d.2)

/-- Bytes of code that a package block has on a physical stack. -/
def codeLen (b : PkgBlock) (l : Lay) (s : Nat) : Nat := ((b.ctxs.filter (fun x => x.stack == symStack l s)).map (fun x => x.code.length)).sum

/-- Buoys of an allocation at their initial values (R33). -/
def placeBuoys (c : Chip) (q : LoadReq) (al : Alloc) : Chip :=
  each [0, 1, 2, 3] c (fun c s => each (buoysOf q.block (symStack q.lay s)).zipIdx c (fun c v =>
    { c with buoys := tset c.buoys (s * 2 ^ 16 + al.buoy.getD s 0 + v.2) ⟨v.1, al.tag, v.1⟩ }))

/-- The lowest job slot of a partition that is free (R305; log entry 36). -/
def freeJobSlot (c : Chip) (p : Nat) : Nat := ((List.range 16).find? (fun k => !(c.jobs.any (fun j => tfind j.2.slotNo p == some k)))).getD 0

/-- Buoys that the other packages of the job declare, as their numbers there (R35, R258). -/
def farBuoys (x : Build) : List (Nat × Nat × Nat) :=
  x.blocks.zipIdx.flatMap (fun b => if b.2 = x.sym then [] else
    [0, 1, 2, 3].filterMap (fun s => (buoyTo x b.2 s 0).map (fun n => ((x.lay b.2).pkg, n, (buoysOf b.1 s).length))))

/-- Declared ranges, or shelves, of the other packages of the job under the placement (R60, R76, R258). -/
def farLines (x : Build) (f : PkgBlock → List (Nat × Nat)) : List (Nat × Nat × Nat) :=
  x.blocks.zipIdx.flatMap (fun b => if b.2 = x.sym then [] else (f b.1).map (fun r =>
    ((x.lay b.2).pkg, (relocValue x (if inStore r.1 then 0 else 1) b.2 none r.1).getD r.1, r.2)))

/-- Shelves of a block as address ranges. -/
def shelfLines (b : PkgBlock) : List (Nat × Nat) := b.shelves.map (fun s => (Config.nearBase + s.core * 2 ^ 21 + s.base * 64, s.lines * s.slots * 64))

/-- Shelves of the other packages of the job under the placement, each with its global core address (R72, R236, R258). -/
def farSlots (x : Build) : List ShelfDecl :=
  x.blocks.zipIdx.flatMap (fun b => if b.2 = x.sym then [] else b.1.shelves.map (fun s =>
    { s with core := (relocValue x 2 b.2 none (b.2 * 1024 + s.core)).getD s.core }))

/-- The job of a program that passed every check, in LOADING, with everything written (R211, R214, R243, R255-R260, R308). -/
def placeProgram (c : Chip) (q : LoadReq) (al : Alloc) (code : List (List Byte)) (descs : Tab (List Byte)) (wins : Tab Window) : Chip :=
  let x := q.build al
  let b := q.block
  let gen := match q.relay with | some r => r.gen | none => (let g := tget 0 c.jobGens al.tag; if g = 255 then 1 else g + 1)
  let lead := q.leadSym c
  let parts := q.parts c
  let rotOf := fun (s : Nat) => (s + q.lay.rot) % 4
  let place : Place :=
    { pkgs := q.lays.map (fun l => l.pkg), sym := q.sym, lead := (match q.relay with | some r => r.lead | none => c.beacon.pkg)
      depth := (reach q.img.npkg q.blocks [lead] [lead] 0).2, bands := q.bands, parts := parts, ctxs := al.ctxs
      entries := (al.ctxs.zip b.ctxs).zipIdx.map (fun d => (d.1.1, d.1.2.entries.map (fun n => codeBase x b d.2 + n)))
      groups := al.groups, buoyBase := al.buoy, buoyInit := [0, 1, 2, 3].map (fun s => buoysOf b (symStack q.lay s)), slotMap := al.slots
      links := b.links.map (moveLink x), hostBase := arg q.m 0x20 8, hostLen := b.hostLen
      maxCores := ((q.blocks.zip q.lays).map (fun y => 64 * ((List.range 16).filter (bitOf (layBands y.1 y.2))).length)).foldl max 0
      regions := al.prog.zipIdx.map (fun r => (Config.progBase r.2 + r.1.1, r.1.2))
      layout := layoutsOf q.blocks (fun b => b.tiles), cabLayout := layoutsOf q.blocks (fun b => b.cabinet.groups), far := farBuoys x
      farRanges := farLines x (fun b => b.ranges.map (fun r => (r.lo, r.len))), farShelves := farLines x shelfLines, farSlots := farSlots x, toward := routes x }
  let j : Job :=
    { gen := gen, part := (match q.relay with | some r => r.part | none => q.m.id.part), seq := q.m.id.seq, st := .loading, tenant := q.tenant c, hdr := q.img.hdr, place := place
      decl := moveDecls x b descs wins, args := RunArgs.none, cnt := JobCnt.zero, ticks := Ticks.zero, wts := Weights.none, loadCmd := if q.relay.isSome then none else some q.m.id
      stop := none, endSt := .ok, killCmds := [], clearAll := false, clearing := false, capture := none, captureRun := none, pair := none, log := []
      slotNo := parts.map (fun p => (p, freeJobSlot c p)), promptAt := 0 }
  let c1 := { c with jobs := tset c.jobs al.tag j, jobGens := tset c.jobGens al.tag gen }
  let c2 := each ((al.ctxs.zip b.ctxs).zip code).zipIdx c1 (fun c d =>
    let base := codeBase x b d.2
    let s := rotOf d.1.1.2.stack
    wr (onCtx c d.1.1.1 (fun _ => { Ctx.free with job := al.tag, bands := BitVec.ofNat 16 (ctxBands q.lay d.1.1.2), region := al.prog.getD s (0, 0) }))
      (Config.progBase s + base) d.1.2)
  let c2 := each [0, 1, 2, 3] c2 (fun c s => wr c (Config.progBase s + (al.prog.getD s (0, 0)).1 + codeLen b q.lay s) (storeTables x b q.lay s))
  let c3 := placeBuoys (writeLookups c2 j.decl.ranges) q al
  let c4 := each (al.groups.zip q.bars) c3 (fun c g => { c with bars := tset c.bars g.1 ⟨al.tag, moveBar x g.2, 0, [], 0, none⟩ })
  let c5 := each [0, 1, 2, 3] c4 (fun c s => each (al.slots.getD s []) c (fun c n => { c with slots := tset c.slots (s * 64 + n) (al.tag, []) }))
  lampReviews (acceptCmd c5 q.m.id (mkHandle q.m.id.part 3 al.tag gen q.m.id.seq))

/-- Whether a nonempty buffer lies where a command of these partitions may name one (R264, R289). -/
def bufferOk (c : Chip) (parts : List Nat) (a n : Nat) : Bool := n == 0 || tierOk c parts a n

/-- Whether the code of every context stands in the image, of which `body` bytes follow the header, at its offset (R241, R243). -/
def codeStands (rd : Nat → Nat → List Byte) (body : Nat) (blocks : List PkgBlock) : Bool :=
  blocks.all (fun b => b.ctxs.all (fun x => decide (256 ≤ x.off) && decide (x.off + x.code.length ≤ 256 + body) && rd x.off x.code.length == x.code))

/-- LOAD_PROGRAM (R259): the addresses, then the steps in order, then the writing. A package other than the lead takes the image and the placement from the lead, and answers through the operand of the lead's command (log entry 52). -/
def loadProgram (e : Env) (blocks : List PkgBlock) (bars : List (List (Nat × Nat))) (others : List PkgCheck) (relay : Option Relay) (m : Cmd) (c : Chip) : Chip :=
  let own := c.beacon.pkg
  let ia := arg m 0x10 8
  let pa := arg m 0x18 8
  let ok := fun (a n : Nat) => relay.isSome || bufferOk c [m.id.part] a n
  let cut := fun (l : List Byte) (o n : Nat) => ((l.drop o).take n) ++ List.replicate (n - ((l.drop o).take n).length) 0
  let rdI := match relay with | some r => cut r.image | none => fun o n => rdBytes e c (ia + o) n
  let rdP := match relay with | some r => cut r.placement | none => fun o n => rdBytes e c (pa + o) n
  if !(ok ia 256) || !(ok pa 8) || !(ok (arg m 0x20 8) (arg m 0x28 8)) then finalCmd c m.id .denied 0 0 own
  else
    let img := readImg rdI
    if img.here && (!(ok ia (256 + img.body)) || !(ok pa (8 + 16 * img.npkg))) then finalCmd c m.id .denied 0 0 own
    else if relay.isNone && spansBad c [(ia, 256 + (if img.here then img.body else 0)), (pa, 8 + (if img.here then 16 * img.npkg else 0))] then finalCmd c m.id .hwFault 0 0 own
    else
      let lays := (List.range img.npkg).map (layAt rdP)
      let q : LoadReq := ⟨m, img, pa, blocks, bars, lays, (lays.map (fun l => l.pkg)).idxOf own, others, relay, rdP 0 8, codeStands rdI img.body blocks⟩
      match deciding own (ownCheck e c q) others with
      | some (p, st) => finalCmd c m.id st 0 0 p
      | none =>
        match q.give c (q.parts c) with
        | none => finalCmd c m.id .noRoom 0 0 own
        | some al =>
          match relocated q al with
          | none => finalCmd c m.id .invalidArg 0 0 own
          | some (code, descs, wins) => placeProgram c q al code descs wins

/-! Unloading. -/

/-- A job's program leaves the package for good: contexts, program store, buoys, barrier groups, code-table slots and its slot are free again (R260, R312, R373). -/
def unload (c : Chip) (tag : Nat) : Chip :=
  match tfind c.jobs tag with
  | none => c
  | some j =>
    let c1 := each j.place.regions c (fun c r => clearRange c r.1 r.2)
    { c1 with
      jobs := tdel c1.jobs tag
      ctxs := c1.ctxs.filter (fun x => x.2.job != tag)
      buoys := c1.buoys.filter (fun b => b.2.job != tag)
      bars := c1.bars.filter (fun b => b.2.job != tag)
      slots := c1.slots.filter (fun s => s.2.1 != tag)
      reqs := c1.reqs.map (fun r => if r.2.job = tag then (r.1, { r.2 with job := 0 }) else r) }

/-- PROGRAM_LOADED (R259, R393): every package holds the program, or a write failed its check. The tables of cores are written on LIT stacks only. -/
def programLoaded (c : Chip) (tag : Nat) (verified : Bool) : Chip :=
  match tfind c.jobs tag with
  | none => c
  | some j =>
    if j.st ≠ .loading ∨ jobLit c j = false then c
    else
      let fin := fun (c : Chip) (st : Status) => match j.loadCmd with | some m => final c m st | none => c
      lampReviews (if verified then fin (onJob c tag (fun j => { j with st := .loaded, loadCmd := none })) .ok else unload (fin c .hwFault) tag)

/-! The rows. -/

/-- LOAD_PROGRAM (R259). -/
def execLoadProgram (v : Via) (blocks : List PkgBlock) (bars : List (List (Nat × Nat))) (others : List PkgCheck) (s : State) :=
  lift (fun e c => withVia c v 0x01 (loadProgram e blocks bars others (sentOf v))) s
/-- PROGRAM_LOADED (R259). -/
def execProgramLoaded (t : Nat) (verified : Bool) (s : State) := lift (fun _ c => programLoaded c t verified) s

end Sys2Proof.Machine
end

