-- ==== Sys2Proof/Machine/Weights.lean ====
section
/-! DEFINITION. LOAD_IMAGE, the swap wave and code tables (04_weights.md R90-R103; 05_expander.md R117-R130). -/

namespace Sys2Proof.Machine

/-! Writing. -/

/-- Clear the locations of a section: its slots and headers read as zero (R94). -/
def clearTiles (c : Chip) (ts : List TilePlace) : Chip :=
  each ts c (fun c t => let c1 := clearRange c t.addr (tilePitch t.fmt); if t.coded then clearRange c1 t.hdr 2 else c1)

/-- Write a section's tiles, headers and terms into the store. -/
def writeTiles (c : Chip) (tag : Nat) (x : Carried) : Chip :=
  each x.tiles.zipIdx c (fun c y =>
    let t := y.1.1
    let c1 := wr c t.addr ((x.body.drop y.1.2.2).take (tilePitch t.fmt))
    let c2 := if t.coded then wr c1 t.hdr (leBytes 2 y.1.2.1) else c1
    onJob c2 tag (fun j => { j with wts := { j.wts with terms := tset j.wts.terms t.addr (x.maximum y.2) } }))

/-- Record a section as resident under a key. -/
def putSection (c : Chip) (tag key : Nat) (x : Section) : Chip :=
  onJob c tag (fun j => { j with wts := { j.wts with sections := tset j.wts.sections key x } })

/-- Tables that LOAD_IMAGE carries apply at once; another resident section that names such a slot against another table is absent from now on, and its blocks no longer count (R128, R130). -/
def tablesNow (c : Chip) (tag key : Nat) (tabs : List (List Byte)) : Chip :=
  each tabs c (fun c t =>
    match tfind c.jobs tag with
    | none => c
    | some j =>
      let rel := field t 3 1
      if tableBody (curTable c j rel) = tableBody t then c
      else onJob (setTable c tag j rel t) tag (fun j => { j with wts := { j.wts with
        sections := j.wts.sections.map (fun s => if s.1 ≠ key ∧ [0, 1, 2, 3].any (fun k => tget 0 s.2.refs (128 * k + rel) != 0) = true then
          (s.1, { s.2 with ok := false, refs := s.2.refs.filter (fun r => r.1 % 128 != rel) }) else s) } }))

/-- Tables that a running job's section carries: written at once where nothing counts against the slot, else held (R129). The slots that are held are returned; a held write of another table is not met here (`heldClash`). -/
def tablesHeld (c : Chip) (tag : Nat) (tabs : List (List Byte)) : List Nat × Chip :=
  tabs.foldl (fun (acc : List Nat × Chip) t =>
    match tfind acc.2.jobs tag with
    | none => acc
    | some j =>
      let rel := field t 3 1
      if tableBody (curTable acc.2 j rel) = tableBody t then acc
      else if tableRefs j rel = 0 then (acc.1, setTable acc.2 tag j rel t)
      else (acc.1 ++ [rel], onJob acc.2 tag (fun j => { j with wts := { j.wts with held := if (tfind j.wts.held rel).isSome then j.wts.held else tset j.wts.held rel ⟨t, none, false⟩ } }))) ([], c)

/-- The references of a section, those against held tables apart. -/
def splitRefs (held : List Nat) (refs : Tab Nat) : Tab Nat := refs.map (fun r => if held.contains (r.1 % 128) then (r.1 + 64, r.2) else r)

/-! LOAD_IMAGE. -/

/-- Base sections of this package among the named indices of an image, with their tiles. -/
def ownSecs (e : Env) (c : Chip) (j : Job) (a : Nat) (ks : List Nat) : List (Nat × Sec × List TilePlace) :=
  (ks.map (fun k => (k, readSec e c (secAddr e c a k)))).filterMap (fun x => if x.2.pkg = j.place.sym then some (x.1, x.2, tileList j x.2.layer) else none)

/-- Checks of every selected section, in this order: the header and the layout of its package and layer (INVALID_ARG), signatures (DENIED), block headers and tables (INVALID_ARG), lengths (LENGTH_BUDGET) (R92, R93, R118, R120, R125). What other packages' sections carry, those packages check. -/
def secStatus (e : Env) (c : Chip) (j : Job) (p version : Nat) (any : Bool) (secs : List Sec) (own : List Carried) : Option Status :=
  let tabs := own.flatMap Carried.tables
  if !(secs.all (fun s => headerOk j version false s && layoutOk j.place.layout s)) then some .invalidArg
  else if !(secs.all (signatureOk e c p)) then some .denied
  else if !(own.all (blocksOk c j tabs)) || heldClash c j tabs then some .invalidArg
  else if !any && own.any (fun x => excessOf j.decl.tiles x != 0) then some .lengthBudget
  else none

/-- Partition whose key and rules a command's sections are held to: the submitting one, or for a relayed command the lowest of the job here. -/
def cmdPart (j : Job) (m : Cmd) : Nat := if isRelay m then (leastOf j.place.parts).getD 0 else m.id.part

/-- Whether a job holds a program that is not being loaded. -/
def programHere (j : Job) : Bool := j.st != .loading

/-- Ports that lead straight to a package and are UP (R95). -/
def facesPeer (e : Env) (c : Chip) (p : Nat) : Bool := (List.range 16).any (fun n => let q := port e c n; q.st == .up && q.joined && q.nbrPkg == p)

/-- FINAL of a LOAD_IMAGE (R94, R95). -/
def loadFinal (c : Chip) (tag : Nat) (l : Load) (st : Status) (fail : Option Nat) : Chip :=
  finalCmd (onJob c tag (fun j => { j with wts := { j.wts with loads := j.wts.loads.filter (fun x => x.cmd != l.cmd) } })) l.cmd st l.done (fail.getD (2 ^ 32 - 1)) 0

/-- LOAD_IMAGE (R93-R95); `elastic`: the job's next START_JOB will set elastic-length mode (R126). A range of no sections is OK with no access (R264); RESULT_A and RESULT_B are then the model's (log entry 60). -/
def loadImage (e : Env) (elastic : Bool) (m : Cmd) (c : Chip) : Chip :=
  onJobTarget m c false (fun tag j c =>
    let a := arg m 0x10 8
    let first := arg m 0x18 4
    let n := arg m 0x1C 4
    let peer := arg m 0x20 1
    let bad := fun (st : Status) => finalCmd c m.id st 0 (2 ^ 32 - 1) 0
    if !(programHere j) then bad .invalidArg
    else if jobRunning j || j.clearing then bad .busy
    else if 1 < peer ∨ (peer = 1 ∧ facesPeer e c (arg m 0x22 2) = false) then bad .invalidArg
    else if n = 0 then doneCmd c m.id .ok 0 (2 ^ 32 - 1)
    else match tierStatus c j.place.parts .invalidArg a 256 with
      | some st => bad st
      | none =>
        let g := readWImg e c j a
        if g.ok = false ∨ g.count < first + n then bad .invalidArg
        else
          let ks := (List.range n).map (first + ·)
          let own := ownSecs e c j a ks
          let secs := ks.map (fun k => readSec e c (secAddr e c a k))
          match (imageExtents j.place.layout a g.count secs).findSome? (fun x => tierStatus c j.place.parts .invalidArg x.1 x.2) with
          | some st => bad st
          | none =>
            if spansBad c (readExtents j.place.layout a g.count secs (own.map (fun x => x.2.1))) then bad .hwFault
            else match secStatus e c j m.id.part g.version elastic secs (own.map (fun x => Carried.here e c x.2.1 x.2.2)) with
            | some st => bad st
            | none =>
              let l : Load := ⟨m.id, a, own.map Prod.fst, 0, none, peer == 1, bitOf m.flags 2, own.any (fun x => x.2.1.tables != 0)⟩
              let c1 := onJob (noteExtents (acceptCmd c m.id (cmdHandle m.id)) m.id (imageExtents j.place.layout a g.count secs)) tag (fun j => { j with wts := { j.wts with loads := j.wts.loads ++ [l] } })
              if own = [] then loadFinal c1 tag l .ok none else lampReviews c1)

/-- The job that a load belongs to. -/
def loadOf (c : Chip) (id : CmdId) : Option (Nat × Job × Load) :=
  c.jobs.findSome? (fun p => (p.2.wts.loads.find? (fun l => l.cmd == id)).map (fun l => (p.1, p.2, l)))

/-- The next section of a load is done with: the load goes on, or ends. -/
def loadNext (c : Chip) (tag : Nat) (l : Load) : Chip :=
  if l.left = [] then loadFinal c tag l (if l.firstMissing.isSome then .notReady else .ok) l.firstMissing
  else onJob c tag (fun j => { j with wts := { j.wts with loads := j.wts.loads.map (fun x => if x.cmd = l.cmd then l else x) } })

/-- A section that LOAD_IMAGE leaves resident gives its layer its version (R95, R101, R103). -/
def takeVersion (c : Chip) (tag : Nat) (s : Sec) : Chip :=
  onJob c tag (fun j => { j with wts := { j.wts with layerVer := tset j.wts.layerVer s.layer s.version, version := s.version } })

/-- Write a verified base section: tiles, terms, tables at once, the record (R94, R128, R130). -/
def writeSection (c : Chip) (tag : Nat) (j : Job) (x : Carried) : Chip :=
  let s := x.sec
  let c1 := tablesNow (writeTiles c tag x) tag s.layer x.tables
  takeVersion (putSection c1 tag s.layer ⟨s.layer, true, s.digest, s.version, excessOf j.decl.tiles x, refsOf x, []⟩) tag s

/-- SECTION_VERIFIED (R94, R95, R140): the next section of a load is kept, taken from the host tier or from the peer, found missing at the peer, or refused. -/
def sectionVerified (e : Env) (c : Chip) (id : CmdId) (inp : SectionIn) : Chip :=
  match loadOf c id with
  | none => c
  | some (tag, j, l) =>
    match l.left with
    | [] => c
    | k :: rest =>
      let s := readSec e c (secAddr e c l.image k)
      let ts := tileList j s.layer
      let x : Carried := if l.peer then ⟨s, ts, inp.bytes⟩ else Carried.here e c s ts
      let kept := l.skip && (tfind j.wts.sections s.layer).any (fun x => x.ok && x.digest == s.digest && x.version == s.version)
      if (s.tables ≠ 0 ∧ jobLit c j = false) ∨ (l.peer = false ∧ linkWaits c l.image = true) then c
      else if kept then loadNext (takeVersion c tag s) tag { l with left := rest, done := l.done + 1 }
      else if l.peer && !inp.peerHolds then loadNext c tag { l with left := rest, firstMissing := l.firstMissing.or (some k) }
      else if l.peer = false ∧ spansBad c (imageExtents j.place.layout l.image 0 [s]) = true then loadFinal c tag l .hwFault (some k)
      else if x.digestOk = false then
        let c1 := onJob (clearTiles c ts) tag (fun j => { j with wts := { j.wts with sections := tdel j.wts.sections s.layer } })
        loadFinal c1 tag l .invalidArg (some k)
      else if !(termsOk c j x.tables x) then loadFinal c tag l .invalidArg (some k)
      else loadNext (writeSection c tag j x) tag { l with left := rest, done := l.done + 1 }

/-! SWAP_LAYERS. -/

/-- Whether an image holds exactly one section for every package and layer of the program (R98). -/
def oneEach (j : Job) (secs : List Sec) : Bool :=
  (secs.map (fun s => (s.pkg, s.layer))).eraseDups.length == secs.length &&
    j.place.layout.all (fun x => secs.any (fun s => s.pkg == x.sym && s.layer == x.layer))

/-- SWAP_LAYERS (R98, R99): the checks here and on the other packages, then the barrier at the first job edge from now. -/
def swapLayers (e : Env) (others : List PkgCheck) (m : Cmd) (c : Chip) : Chip :=
  onJobTarget m c true (fun tag j c =>
    let a := arg m 0x10 8
    if jobRunning j = false ∨ 1 < arg m 0x18 1 then final c m.id .invalidArg
    else if j.wts.swap.isSome then final c m.id .busy
    else match tierStatus c j.place.parts .invalidArg a 256 with
      | some st => final c m.id st
      | none =>
        let g := readWImg e c j a
        if g.ok = false ∨ g.version = j.wts.version then final c m.id .invalidArg
        else
          let ks := List.range g.count
          let own := ownSecs e c j a ks
          let secs := ks.map (fun k => readSec e c (secAddr e c a k))
          match (imageExtents j.place.layout a g.count secs).findSome? (fun x => tierStatus c j.place.parts .invalidArg x.1 x.2) with
          | some st => final c m.id st
          | none =>
            let xs := own.map (fun x => Carried.here e c x.2.1 x.2.2)
            let tabs := xs.flatMap Carried.tables
            let mine := if spansBad c (readExtents j.place.layout a g.count secs (own.map (fun x => x.2.1))) then (1, Status.hwFault)
              else if !(oneEach j secs) || !(tablesAgree tabs) then (1, Status.invalidArg)
              else match secStatus e c j (cmdPart j m) g.version j.args.elasticLen secs xs with
                | some st => (1, st)
                | none => if xs.all (termsOk c j tabs) then (0, .ok) else (1, .invalidArg)
            match deciding c.beacon.pkg mine others with
            | some (_, st) => final c m.id st
            | none => lampReviews (onJob (noteExtents (acceptCmd c m.id (cmdHandle m.id)) m.id (imageExtents j.place.layout a g.count secs)) tag (fun j => { j with wts := { j.wts with
                swap := some ⟨m.id, a, arg m 0x18 1 == 1, g.version, some j.ticks.next, [], [], 0, 0, [], [],
                  ((own.map (fun x => x.2.1)).filter (fun s => s.tables != 0)).map (fun s => s.layer), []⟩ } })))

/-- Whether the rewriting of a layer may begin (R100): the commit of the tick in which the last old-version step passed it there is past. No old step that has still to pass it stands in an attempt, in a plan to be replayed, to be retried, or between two of its ticks. -/
def layerClear (c : Chip) (tag : Nat) (j : Job) (w : Swap) (sym layer : Nat) : Bool :=
  let due := fun (version pos : Nat) => version != w.version && decide (pos ≤ passAt j sym layer)
  let runs := fun (p : Plan) => p.steps.any (fun s => due s.version s.pos)
  w.barrier.all (fun b => decide (b ≤ j.ticks.next) && j.ticks.edge.all (fun x => decide (b ≤ x.1))) && w.retry.isEmpty &&
    !(j.ticks.replayPlan.any runs) && !(j.ticks.attempts.any (fun a => runs a.plan)) &&
    c.reqs.all (fun r => r.2.job != tag || !(r.2.st == .prompt || r.2.st == .decode) || (side c r.1).pos == 0 || !(due (side c r.1).version (side c r.1).pos))

/-- A layer that the wave has still to rewrite, or whose table was withdrawn before it could be used (R129). -/
def layerOpen (j : Job) (w : Swap) (l : Nat) : Bool :=
  !(w.flipped.contains l) && (!(w.verified.contains l) ||
    (tfind j.wts.sections l).any (fun s => s.refs.any (fun r => decide (64 ≤ r.1 % 128) && (tfind j.wts.held (r.1 % 128 - 64)).isNone)))

/-- LAYER_REWRITE (R100, R101, R130): a layer here is written and verified, or written again; the third mismatch on one layer ends the job on every package, which a verdict of kind kill tells. Of a layer on another package (`sym`) the verification is noted. A rewrite whose table meets a held write of another one, made after the checks, waits for it (R129; log entry 58). -/
def layerRewrite (e : Env) (c : Chip) (tag layer sym : Nat) : Chip :=
  match tfind c.jobs tag with
  | none => c
  | some j =>
    match j.wts.swap with
    | none => c
    | some w =>
      if sym ≠ j.place.sym then
        (if layerClear c tag j w sym layer && j.place.layout.any (fun x => x.sym == sym && x.layer == layer) && !(w.far.contains (sym, layer)) then
          onJob c tag (fun j => { j with wts := { j.wts with swap := some { w with far := w.far ++ [(sym, layer)] } } })
        else c)
      else
      match (ownSecs e c j w.image (List.range (readWImg e c j w.image).count)).find? (fun x => x.2.1.layer == layer) with
      | none => c
      | some (_, s, ts) =>
        if !(jobRunning j) || !(layerClear c tag j w sym layer) || !(layerOpen j w layer) || (s.tables != 0 && !(jobLit c j)) then c
        else
          let x := Carried.here e c s ts
          if heldClash c j x.tables then c
          else
          let mism := if w.misLayer = layer then w.mism else 0
          let again := fun (c : Chip) (n : Nat) => onJob c tag (fun j => { j with wts := { j.wts with swap := some { w with mism := n, misLayer := layer } } })
          if x.digestOk = false then
            (if 3 ≤ mism + 1 then endJob (flood c ⟨tag, j.ticks.committed, 0, .kill, [], c.beacon.pkg, 0, statusCode .hwFault, []⟩) tag .halted .hwFault else again c (mism + 1))
          else
            let h := tablesHeld (writeTiles c tag x) tag x.tables
            let c1 := putSection h.2 tag layer ⟨layer, true, s.digest, s.version, excessOf j.decl.tiles x, splitRefs h.1 (refsOf x), h.1⟩
            onJob c1 tag (fun j => { j with wts := { j.wts with swap := some { w with mism := 0, misLayer := layer, verified := w.verified.filter (· != layer) ++ [layer] } } })

/-! PUT_CODE_TABLE. -/

/-- PUT_CODE_TABLE (R119, R120, R129, R393); a relayed one brings its record behind its arguments (log entry 52). -/
def putTable (e : Env) (m : Cmd) (c : Chip) : Chip :=
  onJobTarget m c true (fun tag j c =>
    let rel := arg m 0x10 1
    let a := arg m 0x18 8
    if !(isRelay m) && !(bufferOk c j.place.parts a 64) then final c m.id .denied
    else
      let t := if isRelay m then (m.args.drop 48).take 64 else rdBytes e c a 64
      let hold := fun (c : Chip) (wake : Bool) => onJob (acceptCmd c m.id (cmdHandle m.id)) tag (fun j => { j with wts := { j.wts with held := tset j.wts.held rel ⟨t, some m.id, wake⟩ } })
      if programHere j = false ∨ j.hdr.ctSlots ≤ rel ∨ ctValid t = false ∨ field t 3 1 ≠ 0 then final c m.id .invalidArg
      else if tableBody (curTable c j rel) = tableBody t then doneCmd c m.id .ok 0 0
      else match tfind j.wts.held rel with
        | some h => if tableBody h.bytes = tableBody t then doneCmd c m.id .ok 0 0 else final c m.id .invalidArg
        | none =>
          if tableRefs j rel ≠ 0 then hold c false
          else if jobLit c j then doneCmd (setTable c tag j rel t) m.id .ok 0 0
          else lampReviews (hold c true))

/-- PUT_CODE_TABLE with its withdraw flag (R129). -/
def withdrawTable (m : Cmd) (c : Chip) : Chip :=
  onJobTarget m c true (fun tag j c =>
    let rel := arg m 0x10 1
    if programHere j = false ∨ j.hdr.ctSlots ≤ rel then final c m.id .invalidArg
    else
      let c1 := match (tfind j.wts.held rel).bind (fun h => h.cmd) with | some x => final c x .cancelled | none => c
      doneCmd (onJob c1 tag (fun j => { j with wts := { j.wts with held := tdel j.wts.held rel } })) m.id .ok 0 0)

/-! The rows. -/

/-- LOAD_IMAGE (R93). -/
def execLoadImage (id : CmdId) (elastic : Bool) (s : State) := lift (fun e c => withStarted c id 0x02 (loadImage e elastic)) s
/-- SECTION_VERIFIED (R94). -/
def execSectionVerified (id : CmdId) (inp : SectionIn) (s : State) := lift (fun e c => lampReviews (sectionVerified e c id inp)) s
/-- SWAP_LAYERS (R98). -/
def execSwapLayers (m : Asked) (s : State) := lift (fun e c => withVia c m.via 0x03 (swapLayers e m.others)) s
/-- LAYER_REWRITE (R100). -/
def execLayerRewrite (t : Nat) (x : LayerPart) (s : State) := lift (fun e c => layerRewrite e c t x.layer x.sym) s
/-- PUT_CODE_TABLE (R129). -/
def execPutCodeTable (v : Via) (s : State) := lift (fun e c => withFlag c v 0x23 false (putTable e)) s
/-- WITHDRAW (R129). -/
def execWithdraw (v : Via) (s : State) := lift (fun _ c => withFlag c v 0x23 true withdrawTable) s

end Sys2Proof.Machine
end

