-- ==== Sys2Proof/Machine/Adapters.lean ====
section
/-! DEFINITION. Adapters: PUT, DROP and TRAIN, the end of a fill, and the trained parameters (04_weights.md R105-R110; 11_serving.md R285, R286). -/

namespace Sys2Proof.Machine

/-- Whether a training of an adapter is pending. -/
def training (j : Job) (id : Nat) : Bool := j.wts.trains.any (fun t => t.adapter == id)

/-- Whether a PUT_ADAPTER of an adapter is pending. -/
def putPending (j : Job) (id : Nat) : Bool :=
  j.wts.drawers.any (fun d => d.2.adapter == id && d.2.by_ == .put && (d.2.st == .filling || d.2.st == .ready))

/-- Whether a DROP_ADAPTER of an adapter is pending. -/
def dropPending (j : Job) (id : Nat) : Bool := j.wts.drops.any (fun d => d.1 == id)

/-- The drawer of a PUT_ADAPTER or TRAIN_ADAPTER: on a package that does not lead, the one that the lead has taken, so that its number means the same drawer (R104). -/
def drawerFor (relay : Option Relay) (j : Job) : Option Nat := match relay with | some r => some r.base | none => takeDrawer j

/-- PUT_ADAPTER (R106, R285): a drawer begins to be filled with the next generation. Where no drawer can be taken NO_ROOM is the answer, whatever the image (R106 says "at once"; log entry 61). -/
def putAdapter (e : Env) (others : List PkgCheck) (relay : Option Relay) (m : Cmd) (c : Chip) : Chip :=
  onJobTarget m c true (fun tag j c =>
    let id := arg m 0x10 4
    let a := arg m 0x18 8
    if programHere j = false then final c m.id .invalidArg
    else if training j id ∨ j.clearing then final c m.id .busy
    else match drawerFor relay j with
      | none => final c m.id .noRoom
      | some d =>
        match adapterStatus e c j (cmdPart j m) a d, deciding c.beacon.pkg (0, .ok) others with
        | .inl st, _ => final c m.id st
        | .inr _, some (_, st) => final c m.id st
        | .inr rank, none =>
          let c1 := noteExtents (acceptCmd c m.id (mkHandle m.id.part 2 d (nextGen (tget 0 j.wts.gens id)) m.id.seq)) m.id (adapterExtents e c j a)
          lampReviews (beginFill c1 tag d id rank (bitOf m.flags 2) .put (some m.id) a (fillTabled e c j a d)))

/-- DROP_ADAPTER (R108, R285): at the next commit the ID leaves the directory. Commands on one ID count in their order (R303). -/
def dropAdapter (m : Cmd) (c : Chip) : Chip :=
  onJobTarget m c true (fun tag j c =>
    let id := arg m 0x10 4
    let resident := putPending j id || ((tfind j.wts.dir id).isSome && !(dropPending j id))
    if programHere j = false ∨ resident = false then final c m.id .invalidArg
    else if training j id then final c m.id .busy
    else onJob (acceptCmd c m.id (cmdHandle m.id)) tag (fun j => { j with wts := { j.wts with drops := j.wts.drops ++ [(id, m.id)] } }))

/-- Whether the part and the program can train (R242, R262, R285). -/
def canTrain (e : Env) (j : Job) : Bool :=
  !e.fuses.gradeC && bitOf j.hdr.engines 4 && bitOf j.hdr.engines 5 && j.hdr.variants.any (fun v => v.kind == 1)

/-- TRAIN_ADAPTER (R285, R289): a drawer is held, and margin ticks run from the next plan that has room for them. The size of an example is not stated: of a nonempty example buffer the first byte is checked (log entry 89). -/
def trainAdapter (e : Env) (relay : Option Relay) (m : Cmd) (c : Chip) : Chip :=
  onJobTarget m c true (fun tag j c =>
    let id := arg m 0x10 4
    let batch := arg m 0x14 2
    let steps := arg m 0x24 4
    let k := arg m 0x28 8
    if canTrain e j = false then final c m.id .engineAbsent
    else if training j id ∨ putPending j id ∨ dropPending j id ∨ j.clearing then final c m.id .busy
    else if !(isRelay m) && (!(bufferOk c j.place.parts k 256) || !(bufferOk c j.place.parts (arg m 0x18 8) (min 1 (arg m 0x20 4)))) then final c m.id .denied
    else
      let rank := match tfind j.wts.dir id with
        | some d => some (tget Drawer.free j.wts.drawers d).rank
        | none => if isRelay m then some (arg m 0x40 2) else (catalogEntry e c m.id.part id).map (fun x => x.rank)
      if programHere j = false ∨ rank = none ∨ steps = 0 ∨ batch = 0 ∨ 4096 < batch then final c m.id .invalidArg
      else match drawerFor relay j with
        | none => final c m.id .noRoom
        | some d =>
          let c1 := acceptCmd c m.id (mkHandle m.id.part 2 d (nextGen (tget 0 j.wts.gens id)) m.id.seq)
          let c2 := beginFill c1 tag d id (rank.getD 0) (bitOf m.flags 2) .train (some m.id) 0 false
          let t : Train := ⟨m.id, id, d, batch, arg m 0x20 4, arg m 0x18 8, steps, 0, k, arg m 0x30 8, 0, 0⟩
          startFills e (onJob c2 tag (fun j => { j with wts := { j.wts with trains := j.wts.trains ++ [t] } })) tag false)

/-! The end of a fill. -/

/-- Key of a drawer's section. -/
def drawerKey (d layer : Nat) : Nat := 65536 * (d + 1) + layer

/-- Write a verified adapter section into its drawer; a running job's tables may be held (R129, R130). -/
def writeDrawerSec (j : Job) (tag d : Nat) (c : Chip) (x : Carried) : Chip :=
  let h := tablesHeld (writeTiles c tag x) tag x.tables
  putSection h.2 tag (drawerKey d x.sec.layer) ⟨x.sec.layer, true, x.sec.digest, x.sec.version, excessOf j.decl.cab.groups x, splitRefs h.1 (refsOf x), h.1⟩

/-- A fill ends without its content (R105, R106, R110): its drawer is FREE; a PUT_ADAPTER ends with `put`, the requests that wait for a fill on demand with `st`. -/
def fillFailed (c : Chip) (tag d : Nat) (w : Drawer) (put st : Status) : Chip :=
  let c1 := freeDrawer c tag d
  match w.cmd with
  | some m => final c1 m put
  | none => endWaiting c1 tag w.adapter st

/-- Blocks of some layers of a drawer are overwritten with what is no section, or cleared: they count against no table any more (R94, R128). -/
def layersGone (c : Chip) (tag d : Nat) (gone : Nat → Bool) : Chip :=
  onJob c tag (fun j => { j with wts := { j.wts with sections := j.wts.sections.filter (fun s => s.1 / 65536 != d + 1 || !(gone (s.1 % 65536))) } })

/-- Whether the tables that a drawer's sections were written against are in their slots (R130). -/
def drawerTabled (j : Job) (d : Nat) : Bool := j.wts.sections.all (fun s => s.1 / 65536 != d + 1 || !s.2.ok || tablesIn s.2)

/-- A fill on demand begins on a package that does not lead, in the drawer that the lead has taken, if the checks of its own sections pass (R104, R110, R118, R125). -/
def farFill (e : Env) (c : Chip) (tag d : Nat) (x : FillStart) : Chip :=
  match tfind c.jobs tag with
  | none => c
  | some j =>
    if isLead c j || (tget Drawer.free j.wts.drawers d).st == .filling then c
    else match adapterStatus e c j x.part x.image d with
      | .inl _ => c
      | .inr rank => beginFill c tag d x.adapter rank false .demand none x.image (fillTabled e c j x.image d)

/-- The sections of a fill are written here and their digests compared (R94, R110, R129, R130); the drawer is READY once it is verified on every package (`all`: on all the others) and the tables it was written against are in their slots. A section whose table meets a held write of another one, made after the checks, is refused (R129). -/
def fillHere (e : Env) (c : Chip) (tag d : Nat) (j : Job) (w : Drawer) (all : Bool) : Chip :=
  let own := adapterSecs e c j w.image d
  let xs := own.map (fun x => Carried.here e c x.1 x.2)
  if (own.any (fun x => x.1.tables != 0) = true ∧ jobLit c j = false) ∨ linkWaits c w.image = true then c
  else if spansBad c (adapterReads e c j w.image d) then fillFailed c tag d w .hwFault .hwFault
  else if heldClash c j (xs.flatMap Carried.tables) then fillFailed c tag d w .invalidArg .invalidArg
  else if !(xs.all Carried.digestOk) then
    fillFailed (layersGone (each own c (fun c x => clearTiles c x.2)) tag d (fun l => own.any (fun x => x.1.layer == l))) tag d w .invalidArg .hwFault
  else
    onJob (each xs c (writeDrawerSec j tag d)) tag (fun j => { j with wts := { j.wts with
      drawers := tset j.wts.drawers d { w with verified := true, elsewhere := all, st := if all && drawerTabled j d then .ready else .filling } } })

/-- FILL (R94, R105, R106, R110, R118, R125, R130): a fill goes on here, or has ended on the other packages: on all of them verified, refused by the checks before anything is written, or failed. -/
def fillEnd (e : Env) (c : Chip) (tag d : Nat) (others : FarFill) : Chip :=
  match tfind c.jobs tag with
  | none => c
  | some j =>
    let w := tget Drawer.free j.wts.drawers d
    let all := others == .verified || decide (j.place.pkgs.length ≤ 1)
    if w.st ≠ .filling ∨ (w.by_ ≠ .put ∧ w.by_ ≠ .demand) then c
    else match others with
    | .failed => fillFailed c tag d w .invalidArg .hwFault
    | .refused st => if w.verified then c else fillFailed c tag d w st st
    | _ =>
      if w.verified then
        onJob c tag (fun j => { j with wts := { j.wts with drawers := tset j.wts.drawers d { w with st := if all && drawerTabled j d then .ready else .filling, elsewhere := w.elsewhere || all } } })
      else fillHere e c tag d j w all

/-! Training. -/

/-- The trained parameters of every core's part of a drawer: where the program keeps them is not stated, so free bytes (log entry 4). -/
def writeTrained (c : Chip) (j : Job) (d : Nat) : Chip :=
  each ((j.decl.cab.groups.map (fun g => g.core)).eraseDups) c (fun c i =>
    let x := drawBytes c j.decl.cab.span
    wr x.2 (drawerBase j d i) x.1)

/-- TRAINED_PARAMETER_WRITE (R286): after the last step the held drawer is written; verified, it is READY. The training is over at the commit that makes it current (R285). -/
def trainedWrite (c : Chip) (tag : Nat) (verified : Bool) : Chip :=
  match tfind c.jobs tag with
  | none => c
  | some j =>
    match j.wts.trains.find? (fun t => t.step == t.steps && (tget Drawer.free j.wts.drawers t.drawer).st == .filling) with
    | none => c
    | some t =>
      let c1 := layersGone (writeTrained c j t.drawer) tag t.drawer (fun _ => true)
      if !verified then c1
      else onJob c1 tag (fun j => { j with wts := { j.wts with
        drawers := tupd Drawer.free j.wts.drawers t.drawer (fun w => { w with st := .ready, verified := true }) } })

/-! The rows. -/

/-- PUT_ADAPTER (R106). -/
def execPutAdapter (m : Asked) (s : State) := lift (fun e c => withVia c m.via 0x20 (putAdapter e m.others (sentOf m.via))) s
/-- DROP_ADAPTER (R108). -/
def execDropAdapter (v : Via) (s : State) := lift (fun _ c => withVia c v 0x21 dropAdapter) s
/-- TRAIN_ADAPTER (R285). -/
def execTrainAdapter (v : Via) (s : State) := lift (fun e c => withVia c v 0x22 (trainAdapter e (sentOf v))) s
/-- FILL (R110). -/
def execFill (t : Nat) (d : DrawerPart) (s : State) := lift (fun e c => lampReviews (fillEnd e (match d.start with | some x => farFill e c t d.drawer x | none => c) t d.drawer d.others)) s
/-- TRAINED_PARAMETER_WRITE (R286). -/
def execTrainedParameterWrite (t : Nat) (verified : Bool) (s : State) := lift (fun _ c => trainedWrite c t verified) s

end Sys2Proof.Machine
end

