-- ==== Sys2Proof/Machine/BeaconCmds.lean ====
section
/-! DEFINITION. Commands of the Beacon that its own files describe: marks, loss of the lighthouse, buoys and barriers (02_beacon.md R24-R42; 13_ihlan.md R332). -/

namespace Sys2Proof.Machine

/-- ORIGINATE_MARK (R24). -/
def execOriginateMark (s : State) := lift (fun _ c => originateMark c) s
/-- EDGE_MARK (R24). -/
def execEdgeMark (p crossings : Nat) (m : Mark) (s : State) := lift (fun _ c => edgeMark c (p % 16) crossings m) s
/-- LIGHTHOUSE_LOST (R29). -/
def execLighthouseLost (s : State) := lift (fun _ c => lighthouseWatch c) s
/-- STANDBY_TAKEOVER (R30). -/
def execStandbyTakeover (s : State) := lift (fun _ c => standbyTakeover c) s
/-- BUOY_OPERATION (R34, R39). -/
def execBuoyOperation (m : BuoyMsg) (s : State) := lift (fun _ c => buoyArrive c 0 m) s
/-- BARRIER_ARRIVAL (R42). -/
def execBarrierArrival (m : BarrierMsg) (s : State) := lift (fun _ c => barArrive c 0 m) s
/-- BARRIER_RELEASE (R42). -/
def execBarrierRelease (m : BarrierMsg) (s : State) := lift (fun _ c => barRelease c (fun _ => 0) m) s
/-- LOCKED (R332). -/
def execLocked (s : State) := lift (fun _ c => setLocked c) s

end Sys2Proof.Machine
end

