-- ==== Sys2Proof/Machine/BootCmds.lean ====
section
/-! DEFINITION. Power-good, the boot image, PCIe, stacks, waves and READY (17_power.md R397-R405; 16_tenancy.md R381-R384; 18_registers.md R418; 19_package.md R433, R434). -/

namespace Sys2Proof.Machine

def onBoot (c : Chip) (f : Boot → Boot) : Chip := { c with boot := f c.boot }

/-- Time of the boot timeline, in cycles from the rise of power-good and any delay of verification (R398, R402, R434). -/
def bootDue (c : Chip) (t : Nat) : Bool := c.boot.pwrgood && decide (c.boot.riseAt + c.boot.late + t ≤ c.now)

/-- PWRGOOD_RISE (R397, R398): the ROM reads the fuses and starts on the flash; an EXTEST in force acts as BYPASS from now on (R437). -/
def powerRise (c : Chip) : Chip :=
  if c.boot.pwrgood then c
  else { onBoot c (fun b => { b with pwrgood := true, riseAt := c.now, code := 1 }) with mgmt := { c.mgmt with tap := if c.mgmt.tap = .extest then .bypass else c.mgmt.tap } }

/-- PWRGOOD_FALL (R397): every state of the package is lost; the blown fuses stay (R382), and so do the clock, the model's free values and the record of outputs. -/
def powerFall (c : Chip) : Chip :=
  { Chip.reset with now := c.now, free := c.free, out := c.out, boot := { Boot.reset with arb := c.boot.arb } }

/-- Memory that is not the package's: the server's, behind the aperture (R289). -/
def keepServer (m : Memory) : Memory := m.filter (fun x => inAperture x.1)

/-- Whether bytes of a record are all zero. -/
def zeros (bs : List Byte) (o n : Nat) : Bool := ((bs.drop o).take n).all (· == 0)

/-- The checks of R382 on an image, against the fuse counter F. -/
def imageOk (fu : Fuses) (f : Nat) (head body : List Byte) : Bool :=
  head.length == 512 && field head 0 2 == 1 && zeros head 3 1 && zeros head 0x0C 4 && zeros head 0x100 256 &&
  field head 8 4 == body.length && decide (body.length ≤ 2 ^ 25 - 512) &&
  decide (f ≤ field head 2 1) && decide (field head 2 1 ≤ 64) &&
  sha384 ((head.drop 0xA0).take 96) == fu.keyDigest &&
  sha384 body == BitVec.ofNat 384 (beNat ((head.drop 0x10).take 48)) &&
  sigOk ((head.drop 0xA0).take 96) ((head.drop 0x40).take 96) (sha384 (head.take 0x40))

/-- The fuse state that identity and measurements cover (R384, R385; log entry 13). -/
def fuseState (fu : Fuses) (arb : Nat) : List Byte :=
  leBytes 1 (b2n fu.gradeC) ++ leBytes 1 (b2n fu.steppingB) ++ leBytes 1 arb ++ digestBytes fu.keyDigest

/-- An accepted image runs (R382-R384): fuses blown up to its SVN, identity derived, the secret locked. -/
def acceptImage (fu : Fuses) (c : Chip) (head : List Byte) (late : Nat) : Chip :=
  onBoot c (fun b =>
    let arb := max b.arb (field head 2 1)
    let hd := sha384 head
    { b with
      code := 5, accepted := true, recovering := false, arb := arb, udsLocked := true, version := field head 4 4 % 2 ^ 24
      headDigest := hd, late := late, deviceKey := Config.deriveKey fu.secret
      aliasId := hmac384 fu.secret (digestBytes (sha384 (digestBytes hd ++ fuseState fu arb))) })

/-- VERIFY_BOOT_IMAGE (R382, R383, R402, R434): from flash, or in recovery the image that the server pushed into the host store. -/
def verifyImage (e : Env) (c : Chip) (img : BootImage) : Chip :=
  if c.boot.pwrgood = false then c
  else if c.boot.code = 1 ∨ c.boot.code = 2 then
    let c1 := onBoot c (fun b => { b with portRec := img.portRec, identRec := img.identRec, cert := img.cert.take 65536 })
    let n := img.head.length + img.body.length
    if imageOk e.fuses c.boot.arb img.head img.body ∧ n ≤ 0x1800000 then
      acceptImage e.fuses c1 img.head (cdiv (n - 3 * 2 ^ 20) (2 ^ 20) * 13650000)
    else onBoot c1 (fun b => { b with code := 3, recovering := true })
  else if c.boot.code = 4 then
    let head := rdBytes e c Config.hostStore 512
    let body := rdBytes e c (Config.hostStore + 512) (min (field head 8 4) (2 ^ 25 - 512))
    if imageOk e.fuses c.boot.arb head body then acceptImage e.fuses c head (c.now - c.boot.riseAt - 40 * Config.ms)
    else onBoot c (fun b => { b with code := 3 })
  else c

/-- PERST_ASSERT (R405): only the endpoint is reset. -/
def perstDown (c : Chip) : Chip := onBoot c (fun b => { b with perst := true, pcieUp := false, cxl := false, downAt := if b.pcieUp then c.now else b.downAt })

/-- PERST_DEASSERT (R405). -/
def perstUp (c : Chip) : Chip := if c.boot.perst then onBoot c (fun b => { b with perst := false, perstAt := c.now }) else c

/-- PCIE_LINK_UP (R402, R405): training begins at 40 ms, or at once in recovery, and not before PERST# is deasserted. -/
def linkUp (c : Chip) (cxl : Bool) : Chip :=
  if c.boot.pwrgood && !c.boot.perst && (c.boot.recovering || (c.boot.accepted && decide (c.boot.riseAt + 40 * Config.ms ≤ c.now))) then
    onBoot c (fun b => { b with pcieUp := true, cxl := cxl })
  else c

/-- CONFIGURATION_REQUEST (R404, R405): no answer without a link; Request Retry Status until 140 ms or 100 ms after PERST#. -/
def configRequest (c : Chip) : Chip :=
  if c.boot.pcieUp then
    emit c (.cfgStatus (decide (c.now < max (c.boot.riseAt + c.boot.late + 140 * Config.ms) (c.boot.perstAt + 100 * Config.ms))))
  else c

/-- STACK_POWER_UP (R399): stack s begins at 60 + 85 s ms, one at a time. -/
def stackUp (c : Chip) (s : Nat) : Chip :=
  let b := c.boot
  if b.code = 5 ∧ bootDue c ((60 + 85 * s) * Config.ms) = true ∧ b.stacksUp.getLsbD s = false ∧ b.stacksFailed.getLsbD s = false ∧ b.powering = 0 then
    onBoot c (fun b => { b with powering := b.powering ||| BitVec.twoPow 4 s })
  else c

/-- STACK_SELF_TEST_DONE (R62, R399): the stack's memories are cleared and it enters DARK, or the device fails. The first scrub passes of the package are timed anew from here: one clock for the store and one for the near scratchpads of all stacks (R87; log entry 64). -/
def stackTested (c : Chip) (s failCause : Nat) : Chip :=
  if c.boot.powering.getLsbD s then
    let c1 := onBoot c (fun b => { b with powering := 0 })
    if failCause = 0 then
      let c2 := clearRange (clearRange c1 (s * 2 ^ 32) (2 ^ 32)) (Config.nearBase + s * 2 ^ 29) (2 ^ 29)
      let c3 := onBoot { c2 with safe := { c2.safe with storePass := c.now, nearPass := c.now } } (fun b => { b with stacksUp := b.stacksUp ||| BitVec.twoPow 4 s })
      onLamp c3 s (fun l => { l with st := .dark, goal := none, till := c.now })
    else onBoot c1 (fun b => { b with stacksFailed := b.stacksFailed ||| BitVec.twoPow 4 s, failCause := failCause % 256, failed := true })
  else c

/-- The flash port record applied to every port, unless a reserved bit is set (R400). -/
def applyPortRec (c : Chip) (r : List Byte) : Chip :=
  if r.length = 16 ∧ r.all (fun b => b.toNat < 16) = true then
    each (List.range 16) c (fun c n =>
      let v := field r n 1
      onPort c n (fun p => { p with enable := !(bitOf v 0), cfgWidth := bitOf v 1, media := bitsOf v 3 2 }))
  else c

/-- The flash identity record applied, unless a reserved bit is set (R418). -/
def applyIdentRec (c : Chip) (r : List Byte) : Chip :=
  if r.length = 8 ∧ field r 4 2 < 4096 ∧ field r 6 2 = 0 then
    onBeacon c (fun b => { b with domain := BitVec.ofNat 32 (field r 0 4), pkg := field r 4 2 })
  else onBeacon c (fun b => { b with domain := 0, pkg := 0 })

/-- WAVE (R400): wave w begins at 300 + 40 w ms; before wave 0 the flash records are applied. -/
def waveStart (e : Env) (c : Chip) (w : Nat) : Chip :=
  if c.boot.code = 5 ∧ bootDue c ((300 + 40 * w) * Config.ms) = true ∧ c.boot.waving.getLsbD w = false ∧ (w = 0 ∨ c.boot.waving.getLsbD 0 = true) then
    let c1 := if w = 0 then applyIdentRec (applyPortRec c c.boot.portRec) c.boot.identRec else c
    let c2 := onBoot c1 (fun b => { b with waving := b.waving ||| BitVec.twoPow 4 w })
    each (wavePorts e w) c2 (startTraining e)
  else c

/-- READY (R401). -/
def becomeReady (e : Env) (c : Chip) : Chip :=
  if c.boot.code = 5 ∧ c.boot.accepted = true ∧ c.boot.failed = false ∧ c.boot.stacksUp = 0xF#4 ∧ allJoined e c = true then
    onBoot c (fun b => { b with code := 6, ready := true })
  else c

/-- PWRGOOD_RISE (R397). -/
def execPwrgoodRise (s : State) := lift (fun _ c => powerRise c) s
/-- PWRGOOD_FALL (R397). -/
def execPwrgoodFall (s : State) : Host.Outcome State Fault Refusal := .next { s with mem := keepServer s.mem, chip := powerFall s.chip }
/-- VERIFY_BOOT_IMAGE (R382). -/
def execVerifyBootImage (img : BootImage) (s : State) := lift (fun e c => verifyImage e c img) s
/-- PERST_ASSERT (R405). -/
def execPerstAssert (s : State) := lift (fun _ c => perstDown c) s
/-- PERST_DEASSERT (R405). -/
def execPerstDeassert (s : State) := lift (fun _ c => perstUp c) s
/-- PCIE_LINK_UP (R405). -/
def execPcieLinkUp (cxl : Bool) (s : State) := lift (fun _ c => linkUp c cxl) s
/-- CONFIGURATION_REQUEST (R404). -/
def execConfigurationRequest (s : State) := lift (fun _ c => configRequest c) s
/-- STACK_POWER_UP (R399). -/
def execStackPowerUp (n : Nat) (s : State) := lift (fun _ c => stackUp c (n % 4)) s
/-- STACK_SELF_TEST_DONE (R399). -/
def execStackSelfTestDone (n f : Nat) (s : State) := lift (fun _ c => stackTested c (n % 4) f) s
/-- WAVE (R400). -/
def execWave (w : Nat) (s : State) := lift (fun e c => waveStart e c (w % 4)) s
/-- READY (R401). -/
def execReady (s : State) := lift (fun e c => becomeReady e c) s

end Sys2Proof.Machine
end

