-- ==== Sys2Proof/Machine/CoreCmds.lean ====
section
/-! DEFINITION. The slots of a core, as commands: each issues the head of its queue when that slot is of its opcode (07_matrix.md R180; 08_vector.md R208; 09_keeper.md R225, R230, R235). -/

namespace Sys2Proof.Machine

/-- A matrix array of a core, by the last bit of the operand. -/
def arrNo (arr : Nat) : Nat := arr % 2

/-- A core of this package. -/
def coreNo (i : Nat) : Nat := i % 1024

/-- A slot that does nothing (R180, R208, R230, R235). -/
def noSlot (c : Chip) (_i : Nat) (_s : QSlot) : Chip := c

def mSlot (op : Nat) (f : Env → Nat → Chip → Nat → QSlot → Chip) (i arr : Nat) (e : Env) (c : Chip) : Chip :=
  issue e c (coreNo i) (mq (arrNo arr)) op (fun c s => f e (arrNo arr) c (coreNo i) s)

def vSlot (op : Nat) (f : Env → Chip → Nat → QSlot → Chip) (i : Nat) (e : Env) (c : Chip) : Chip :=
  issue e c (coreNo i) .v op (fun c s => f e c (coreNo i) s)

def bSlot (op : Nat) (f : Chip → Nat → QSlot → Chip) (i : Nat) (e : Env) (c : Chip) : Chip :=
  issue e c (coreNo i) .b op (fun c s => f c (coreNo i) s)

def sSlot (op : Nat) (f : Env → Chip → Nat → QSlot → Chip) (i : Nat) (e : Env) (c : Chip) : Chip :=
  issue e c (coreNo i) .s op (fun c s => f e c (coreNo i) s)

/-- MNOP (R180). -/
def execMnop (i arr : Nat) (s : State) := lift (mSlot 0 (fun _ _ c i s => noSlot c i s) i arr) s
/-- MLOAD (R164). -/
def execMload (i arr : Nat) (s : State) := lift (mSlot 1 mload i arr) s
/-- MUSE (R160). -/
def execMuse (i arr : Nat) (s : State) := lift (mSlot 2 muse i arr) s
/-- MOUTER (R175). -/
def execMouter (i arr : Nat) (s : State) := lift (mSlot 3 mouter i arr) s
/-- MDRAIN (R181). -/
def execMdrain (i arr : Nat) (s : State) := lift (mSlot 4 mdrain i arr) s
/-- MMERGE (R162). -/
def execMmerge (i arr : Nat) (s : State) := lift (mSlot 5 mmerge i arr) s

/-- VNOP (R208). -/
def execVnop (i : Nat) (s : State) := lift (vSlot 0 (fun _ c i s => noSlot c i s) i) s
/-- VCHAIN (R189). -/
def execVchain (i : Nat) (s : State) := lift (vSlot 1 vchain i) s
/-- VPROG (R193). -/
def execVprog (i : Nat) (s : State) := lift (vSlot 2 vprog i) s
/-- VRED (R197). -/
def execVred (i : Nat) (s : State) := lift (vSlot 3 vred i) s
/-- VPERM (R195). -/
def execVperm (i : Nat) (s : State) := lift (vSlot 4 vperm i) s
/-- VDRAW (R201). -/
def execVdraw (i : Nat) (s : State) := lift (vSlot 5 vdraw i) s
/-- VFLAG (R203). -/
def execVflag (i : Nat) (s : State) := lift (vSlot 6 vflag i) s
/-- VTEST (R205). -/
def execVtest (i : Nat) (s : State) := lift (vSlot 7 vtest i) s

/-- BNOP (R230). -/
def execBnop (i : Nat) (s : State) := lift (bSlot 0 noSlot i) s
/-- SET (R34). -/
def execSet (i : Nat) (s : State) := lift (bSlot 1 (fun c i s => bOp .set (bValue s) c i s) i) s
/-- ADD (R36). -/
def execAdd (i : Nat) (s : State) := lift (bSlot 2 (fun c i s => bOp .add (bSigned s) c i s) i) s
/-- WAIT (R34, R38). -/
def execWait (i : Nat) (s : State) := lift (bSlot 3 bWait i) s
/-- TEST_AND_SET (R34, R35). -/
def execTestAndSet (i : Nat) (s : State) := lift (bSlot 4 bTestAndSet i) s
/-- CLEAR (R34). -/
def execClear (i : Nat) (s : State) := lift (bSlot 5 (fun c i s => bOp .clear 0#32 c i s) i) s
/-- BARRIER (R41). -/
def execBarrier (i : Nat) (s : State) := lift (bSlot 6 bBarrier i) s

/-- SNOP (R235). -/
def execSnop (i : Nat) (s : State) := lift (sSlot 0 (fun _ c i s => noSlot c i s) i) s
/-- SBIND (R235). -/
def execSbind (i : Nat) (s : State) := lift (sSlot 1 (fun _ c i s => sbind c i s) i) s
/-- SSHELF (R236). -/
def execSshelf (i : Nat) (s : State) := lift (sSlot 2 (fun _ c i s => sshelf c i s) i) s
/-- Whether the move at the head of a core's S queue needs a move-unit cycle: one of a COUNT of 0 does not (R264). -/
def needsUnit (c : Chip) (i : Nat) : Bool := match (core c i).s with | s :: _ => sf s.w 36 19 != 0 | [] => false

/-- SMOVE (R237, R264): the move unit takes one move at a time. -/
def execSmove (i : Nat) (s : State) := lift (fun e c => if needsUnit c (coreNo i) && decide (c.now < (core c (coreNo i)).moveReady) then c else sSlot 3 smove i e c) s
/-- HOST_TIER_MOVE_DONE (R237). -/
def execHostTierMoveDone (i : Nat) (s : State) := lift (fun _ c => moveDone c (coreNo i)) s

/-- LONG_WORD (R215). -/
def execLongWord (x : Nat) (agree : Bool) (s : State) := lift (fun e c => fetchLongWord e c (x % 16) agree) s
/-- CREDIT (R223). -/
def execCredit (x : Nat) (s : State) := lift (fun _ c => creditBack c (x % 16)) s
/-- QUEUE_STALL (R226). -/
def execQueueStall (i q : Nat) (s : State) := lift (fun _ c => queueStallCheck c (coreNo i) q) s
/-- WAIT_RELEASE (R38). -/
def execWaitRelease (i : Nat) (s : State) := lift (fun _ c => waitRelease c (coreNo i)) s

end Sys2Proof.Machine
end

