-- ==== Sys2Proof/Machine/Management.lean ====
section
/-! DEFINITION. The management port, SPDM and the TAP (00_scope.md R6; 15_safety.md R366; 16_tenancy.md R384, R385; 17_power.md R404; 18_registers.md R424; 19_package.md R436, R437). -/

namespace Sys2Proof.Machine

def onMgmt (c : Chip) (f : Mgmt → Mgmt) : Chip := { c with mgmt := f c.mgmt }

/-- IDENTITY (R6, R404): the listed settings, the firmware version and BOOT_STAGE (order of the fields: log entry 30). -/
def identityAnswer (e : Env) (c : Chip) : Chip :=
  if i3cAwake c then emit c (.i3c (leBytes 4 (listed e) ++ leBytes 4 (firmware c) ++ leBytes 4 (bootStage e c))) else c

/-! SPDM (R385). Codes and headers are those of DMTF SPDM 1.3, which R385 names (log entry 30). -/

/-- An SPDM response: version 1.3, code, two parameters, content. -/
def spdmMsg (code p1 p2 : Nat) (body : List Byte) : List Byte := [0x13#8, BitVec.ofNat 8 code, BitVec.ofNat 8 p1, BitVec.ofNat 8 p2] ++ body

/-- Answer a request: ERROR Busy until an image is accepted, ERROR for a request out of its order, else the response; both enter the transcript. -/
def spdmAnswer (c : Chip) (code need next : Nat) (body : Nat × List Byte) : Chip :=
  if !(i3cAwake c) && !c.boot.pcieUp then c
  else if !c.boot.accepted then emit c (.spdm (spdmMsg 0x7F 0x03 0 []))
  else if c.mgmt.spdm < need then emit c (.spdm (spdmMsg 0x7F 0x04 0 []))
  else
    let m := spdmMsg code body.1 0 body.2
    emit (onMgmt c (fun g => { g with spdm := max next (if code = 4 then 0 else g.spdm), transcript := if code = 4 then m else g.transcript ++ m })) (.spdm m)

/-- The Alias certificate (R384): the Alias public key, signed with the DeviceID key; its encoding is the model's (log entry 13). -/
def aliasCert (fu : Fuses) (c : Chip) : List Byte :=
  let key := beBytes 96 (Config.deriveKey c.boot.aliasId).toNat
  key ++ beBytes 96 (Config.sign fu.secret (sha384 key) 0).toNat

/-- The slot-0 chain: DeviceID certificate of the flash, then the Alias certificate (R384). -/
def certChain (fu : Fuses) (c : Chip) : List Byte := c.boot.cert ++ aliasCert fu c

/-- A measurement (R385). -/
def measurement (e : Env) (c : Chip) (i : Nat) : Option (List Byte) :=
  if i = 1 then some (leBytes 4 e.fuses.romVersion.toNat ++ digestBytes e.fuses.romDigest)
  else if i = 2 then some (digestBytes c.boot.headDigest ++ leBytes 4 c.boot.version)
  else if i = 3 then some (fuseState e.fuses c.boot.arb)
  else if i = 4 then some (leBytes 4 (listed e) ++ leBytes 4 (firmware c))
  else if 16 ≤ i ∧ i < 32 then
    let p := part c (i - 16)
    let key := if p.keyValid then digestBytes (sha384 (beBytes 96 p.key.toNat)) else List.replicate 48 0
    let progs := (sortBy (fun j => j.2.hdr.digest.toNat) (c.jobs.filter (fun j => j.2.place.parts.contains (i - 16) && j.2.st != .loading))).flatMap
      (fun j => digestBytes j.2.hdr.digest)
    some (leBytes 1 p.state ++ leBytes 4 p.tenant.toNat ++ key ++ leBytes 1 (b2n p.signedOnly) ++ progs)
  else none

/-- Measurement blocks of a request: all of them (0xFF), or one. -/
def measurementBlocks (e : Env) (c : Chip) (i : Nat) : List Byte :=
  let is_ := if i = 0xFF then [1, 2, 3, 4] ++ (List.range 16).map (16 + ·) else [i]
  is_.flatMap (fun k => match measurement e c k with | some m => leBytes 1 k ++ leBytes 2 m.length ++ m | none => [])

/-- CHALLENGE (R385): signed with the Alias key over the transcript and the nonce. -/
def challengeBody (c : Chip) (nonce : BitVec 256) : List Byte :=
  beBytes 96 (Config.sign c.boot.aliasId (sha384 (c.mgmt.transcript ++ beBytes 32 nonce.toNat)) c.free).toNat

/-- GET_MEASUREMENTS (R385). -/
def measurementsAnswer (e : Env) (c : Chip) (i : Nat) : Chip :=
  let i := i % 256
  if i = 0 then spdmAnswer c 0x60 3 3 (20, [])
  else if i ≠ 0xFF ∧ measurement e c i = none then spdmAnswer c 0x7F 3 3 (0x01, [])
  else spdmAnswer c 0x60 3 3 (0, measurementBlocks e c i)

/-- IN_BAND_INTERRUPT (R366): one for the records since the last, at most once per 10 ms, where IBI_EN is set. -/
def inBand (c : Chip) : Chip :=
  if c.safe.ibiDue && c.mgmt.ibiEn && (match c.safe.ibiAt with | none => true | some t => decide (t + 10 * Config.ms ≤ c.now)) then
    emit { c with safe := { c.safe with ibiDue := false, ibiAt := some c.now } } .ibi
  else c

/-- SETDASA (R436): the dynamic address of the port. -/
def setAddr (c : Chip) (a : BitVec 7) : Chip := if i3cAwake c then onMgmt c (fun g => { g with dynAddr := a.toNat }) else c

/-- BOUNDARY_SCAN (R437): EXTEST acts as BYPASS while PWRGOOD is high. -/
def scanOp (c : Chip) (op : Tap) : Chip := onMgmt c (fun g => { g with tap := if op = .extest ∧ c.boot.pwrgood = true then .bypass else op })

/-- IDENTITY (R6). -/
def execIdentity (s : State) := lift (fun e c => identityAnswer e c) s
/-- GET_VERSION (R385). -/
def execGetVersion (s : State) := lift (fun _ c => spdmAnswer c 0x04 0 1 (0, leBytes 2 1 ++ leBytes 2 0x1300)) s
/-- GET_CAPABILITIES (R385): certificates, challenge and signed measurements; no secure sessions. -/
def execGetCapabilities (s : State) := lift (fun _ c => spdmAnswer c 0x61 1 2 (0, leBytes 4 0 ++ leBytes 4 0x16)) s
/-- NEGOTIATE_ALGORITHMS (R385): ECDSA P-384 and SHA-384. -/
def execNegotiateAlgorithms (s : State) := lift (fun _ c => spdmAnswer c 0x63 2 3 (0, leBytes 4 0x80 ++ leBytes 4 0x02)) s
/-- GET_DIGESTS (R385). -/
def execGetDigests (s : State) := lift (fun e c => spdmAnswer c 0x01 3 3 (0, digestBytes (sha384 (certChain e.fuses c)))) s
/-- GET_CERTIFICATE (R385). -/
def execGetCertificate (off len : Nat) (s : State) := lift (fun e c => spdmAnswer c 0x02 3 3 (0, ((certChain e.fuses c).drop off).take len)) s
/-- CHALLENGE (R385). -/
def execChallenge (nonce : BitVec 256) (s : State) :=
  lift (fun _ c => { (spdmAnswer c 0x03 3 3 (0, challengeBody c nonce)) with free := c.free + 1 }) s
/-- GET_MEASUREMENTS (R385). -/
def execGetMeasurements (i : Nat) (s : State) := lift (fun e c => measurementsAnswer e c i) s
/-- IN_BAND_INTERRUPT (R366). -/
def execInBandInterrupt (s : State) := lift (fun _ c => inBand c) s
/-- SETDASA (R436). -/
def execSetdasa (a : BitVec 7) (s : State) := lift (fun _ c => setAddr c a) s
/-- BOUNDARY_SCAN (R437). -/
def execBoundaryScan (op : Tap) (s : State) := lift (fun _ c => scanOp c op) s

end Sys2Proof.Machine
end

