-- ==== Sys2Proof/Machine/RangePairs.lean ====
section
/-! DEFINITION. Range pairs: start, stop, digests, drill-down (14_reproducibility.md R346-R351). What the partner package reports arrives as an operand of the row. -/

namespace Sys2Proof.Machine

/-- RANGE_PAIR with an action: three rows of one opcode (R309). -/
def withAction (c : Chip) (id : CmdId) (action : Nat) (f : Cmd → Chip → Chip) : Chip :=
  withStarted c id 0x51 (fun m c => if arg m 0x10 1 = action then f m c else c)

/-- Whether a pair of some job uses a port. -/
def pairPort (c : Chip) (n : Nat) : Bool := c.jobs.any (fun x => x.2.pair.any (fun p => p.port == n))

/-- What a start can check here (R346): the port, and the job. -/
def pairOk (e : Env) (c : Chip) (part n partner : Nat) (j : Job) : Bool :=
  let p := port e c n
  p.st == .up && p.joined && p.nbrPkg == partner && (portHolder c n).isNone && p.partEn && p.part == part && j.st == .running

/-- First job tick whose edge falls at or after the first domain edge at least 100 µs from now (R346). -/
def firstCompared (c : Chip) (j : Job) : Nat :=
  let n := edgeAtOrAfter c (c.now + 100 * Config.us)
  if n ≤ j.ticks.due then j.ticks.next else j.ticks.next + cdiv (n - j.ticks.due) (max 1 j.args.m)

/-- What the partner's start must agree with (R346). -/
def pairAgrees (e : Env) (j : Job) (p : Pair) (r : PairReport) : Bool :=
  r.pkg == p.partner && r.matches_ && r.digest == j.hdr.digest && r.sym == j.place.sym && r.m == j.args.m && r.listed == listed e

/-- The partner's start is here: the pair forms, or the start fails (R346). -/
def pairForm (e : Env) (c : Chip) (tag : Nat) (r : PairReport) : Chip :=
  match tfind c.jobs tag with
  | none => c
  | some j =>
    match j.pair with
    | none => c
    | some p =>
      if p.formed then c
      else if !(pairAgrees e j p r) || !(pairOk e c p.cmd.part p.port p.partner j) then final (onJob c tag (fun j => { j with pair := none })) p.cmd .invalidArg
      else
        let n := firstCompared c j
        onJob c tag (fun j => { j with pair := some { p with formed := true, since := n, delta := (r.firstTick : Int) - (n : Int) } })

/-- RANGE_PAIR start (R346): accepted, it waits for the partner's start; a fused-off port is ENGINE_ABSENT (R2, R308). -/
def pairStart (e : Env) (m : Cmd) (c : Chip) : Chip :=
  onJobTarget m c false (fun tag j c =>
    let partner := arg m 0x12 2
    let n := arg m 0x14 1
    if n ≤ 15 ∧ (port e c n).st = .absent then final c m.id .engineAbsent
    else if j.pair.isSome ∨ pairPort c n = true then final c m.id .busy
    else if 15 < n ∨ pairOk e c m.id.part n partner j = false then final c m.id .invalidArg
    else onJob (acceptCmd c m.id (cmdHandle m.id)) tag (fun j => { j with pair := some ⟨m.id, partner, n, false, c.now, 0, [], [], none, none, none, 0, false, none⟩ }))

/-- The job whose pair an accepted start made and which has not formed. -/
def pairOf (c : Chip) (id : CmdId) : Option Nat := (c.jobs.find? (fun x => x.2.pair.any (fun p => p.cmd == id && !p.formed))).map Prod.fst

/-- RANGE_PAIR (R346): the start is taken up if it is new, and the pair forms where the partner's start is here. -/
def rangePair (e : Env) (c : Chip) (id : CmdId) (partner : Option PairReport) : Chip :=
  let c1 := withStarted c id 0x51 (fun m c => if 2 < arg m 0x10 1 then final c m.id .invalidArg else if arg m 0x10 1 = 0 then pairStart e m c else c)
  match partner, pairOf c1 id with
  | some r, some tag => pairForm e c1 tag r
  | _, _ => c1

/-- RANGE_PAIR stop (R349): the pair ends. -/
def pairStop (m : Cmd) (c : Chip) : Chip :=
  onJobTarget m c false (fun tag j c =>
    match j.pair with
    | none => final c m.id .invalidArg
    | some p => doneCmd (pairEnds c tag p) m.id .ok (p.firstMiss.getD 0) 0)

/-- DIGEST (R349): the partner's digest of its tick `tick` is compared with the local tick it stands for. -/
def digestArrives (c : Chip) (tag tick value : Nat) : Chip :=
  match (tfind c.jobs tag).bind (fun j => j.pair) with
  | none => c
  | some p =>
    let t := (tick : Int) - p.delta
    if p.formed = false ∨ t < (p.since : Int) then c
    else comparePair (onJob c tag (fun j => { j with pair := j.pair.map (fun p => { p with theirs := tset p.theirs t.toNat value }) })) tag t.toNat

/-- RANGE_PAIR_TIMEOUT (R346): no partner start within 100 ms. -/
def pairTimeout (c : Chip) (tag : Nat) : Chip :=
  match (tfind c.jobs tag).bind (fun j => j.pair) with
  | none => c
  | some p =>
    if p.formed = true ∨ c.now < p.since + 100 * Config.ms then c
    else final (onJob c tag (fun j => { j with pair := none })) p.cmd .notReady

/-! Drill-down. -/

/-- A record-log entry as its 128 bits (R350). -/
def logWord (r : LogRec) : Nat := r.hash % 2 ^ 64 + r.lw % 2 ^ 23 * 2 ^ 64 + r.eng % 16 * 2 ^ 87 + r.ord % 2 ^ 20 * 2 ^ 91

/-- Index of the first place at which two lists differ, an absent entry reading 0. -/
def firstDiff (a b : List Nat) : Option Nat := (List.range (max a.length b.length)).find? (fun i => a.getD i 0 != b.getD i 0)

/-- Core digests of a kept tick in logical core order, 0 for a core outside the job (R348). -/
def keptDigests (ls : List CoreLog) : List Nat := (List.range 1024).map (fun i => ((ls.find? (fun l => l.core == i)).map (fun l => l.digest)).getD 0)

/-- RESULT_B of a drill-down and the two differing entries (R351). -/
def drillResult (hash : Nat) (ls : List CoreLog) (r : DrillReport) : Nat × Option (Nat × Nat) :=
  let cm := b2n (hash != r.commitHash) * 2 ^ 26
  match firstDiff (keptDigests ls) r.digests with
  | none => (cm + 2 ^ 27, none)
  | some i =>
    let own := ((ls.find? (fun l => l.core == i)).map (fun l => l.recs.map logWord)).getD []
    match firstDiff own r.log with
    | none => (cm + i % 1024, none)
    | some n =>
      let w := if n < own.length then own.getD n 0 else r.log.getD n 0
      let eng := bitsOf w 90 87
      (cm + i % 1024 + n % 2 ^ 11 * 2 ^ 10 + eng * 2 ^ 21 + b2n (n == 2047 && eng == engNone) * 2 ^ 25, some (own.getD n 0, r.log.getD n 0))

/-- DRILL_DOWN is taken up (R351): BUSY while another runs, NOT_READY where the pair has not formed or the bank of its tick is gone. -/
def drillStart (m : Cmd) (c : Chip) : Chip :=
  onJobTarget m c false (fun tag j c =>
    let t := arg m 0x18 8
    match j.pair with
    | none => final c m.id .invalidArg
    | some p =>
      if p.drill.isSome then final c m.id .busy
      else if p.formed = false ∨ tfind j.log t = none then final c m.id .notReady
      else onJob (acceptCmd c m.id (cmdHandle m.id)) tag (fun j => { j with pair := some { p with drill := some (m.id, t) } }))

/-- The drill-down that a command runs: its job and tick. -/
def drillOf (c : Chip) (id : CmdId) : Option (Nat × Nat) :=
  c.jobs.findSome? (fun x => (x.2.pair.bind (fun p => p.drill)).bind (fun d => if d.1 = id then some (x.1, d.2) else none))

/-- The partner's records are here (R351): the tick's banks are compared, and its bank, if it was kept for this, is free again (R350). -/
def drillEnd (c : Chip) (id : CmdId) (tag t : Nat) (r : DrillReport) : Chip :=
  let c1 := onJob c tag (fun j => { j with pair := j.pair.map (fun p => { p with drill := none }) })
  match (tfind c.jobs tag).bind (fun j => tfind j.log t) with
  | none => final c1 id .notReady
  | some (hash, ls) =>
    if r.held = false then final c1 id .notReady
    else
      let x := drillResult hash ls r
      let c2 := onJob c1 tag (fun j => { j with pair := j.pair.map (fun p => { p with hold := if p.hold = some t then none else p.hold }) })
      let c3 := match x.2 with
        | some w => jobEvent c2 tag t 4 4 (leBytes 16 w.1 ++ leBytes 16 w.2)
        | none => c2
      doneCmd c3 id .ok t x.1

/-- DRILL_DOWN (R351): taken up if it is new, and ended where the partner's records are here. -/
def drillDown (c : Chip) (id : CmdId) (partner : Option DrillReport) : Chip :=
  let c1 := withAction c id 2 drillStart
  match partner, drillOf c1 id with
  | some r, some d => drillEnd c1 id d.1 d.2 r
  | _, _ => c1

/-! The rows. -/

/-- RANGE_PAIR (R346). -/
def execRangePair (id : CmdId) (partner : Option PairReport) (s : State) := lift (fun e c => rangePair e c id partner) s
/-- RANGE_PAIR_STOP (R349). -/
def execRangePairStop (id : CmdId) (s : State) := lift (fun _ c => withAction c id 1 pairStop) s
/-- DRILL_DOWN (R351). -/
def execDrillDown (id : CmdId) (partner : Option DrillReport) (s : State) := lift (fun _ c => drillDown c id partner) s
/-- DIGEST (R349). -/
def execDigest (t tick value : Nat) (s : State) := lift (fun _ c => digestArrives c t tick value) s
/-- RANGE_PAIR_TIMEOUT (R346). -/
def execRangePairTimeout (t : Nat) (s : State) := lift (fun _ c => pairTimeout c t) s

end Sys2Proof.Machine
end

