-- ==== Sys2Proof/Machine/RegCmds.lean ====
section
/-! DEFINITION. Commands that are register writes, host accesses, doorbells and ring events (18_registers.md R406-R424; 12_host.md R294-R307; 16_tenancy.md R369-R371). -/

namespace Sys2Proof.Machine

/-- A write to a set-up register, as the rows below name it (R404, R406-R409); after a write of LAMP_CFG the power controller looks at the stacks (R390). -/
def putReg (x : Src) (off size v : Nat) (e : Env) (c : Chip) : Chip :=
  if x = .i3c ∧ i3cAwake c = false then c
  else
    let c1 := regWrite e c x off size v
    if off = 0x31000 then lampReviews c1 else c1

/-- PART_CFG_n as a write of its fields (R369). -/
def partCfgWord (bands : BitVec 16) (assign oper signedOnly kv : Bool) : Nat :=
  bands.toNat * 2 ^ 16 + b2n assign * 2 ^ 15 + b2n oper * 2 ^ 14 + b2n signedOnly * 2 ^ 13 + b2n kv * 2 ^ 12

def partCfgOff (n : Nat) : Nat := 0x10000 + 4 * (n % 16)

/-- A write that changes KEY_VALID and leaves the other fields of PART_CFG_n as they read (R415). -/
def keyWrite (x : Src) (n : Nat) (signedOnly kv : Bool) (e : Env) (c : Chip) : Chip :=
  let p := part c (n % 16)
  putReg x (partCfgOff n) 4 (partCfgWord p.bands (p.state != 0) p.operator signedOnly kv) e c

/-- ASSIGN (R369). -/
def execAssign (x : Src) (n : Nat) (bands : BitVec 16) (oper signedOnly kv : Bool) (s : State) :=
  lift (putReg x (partCfgOff n) 4 (partCfgWord bands true oper signedOnly kv)) s
/-- UNASSIGN (R369). -/
def execUnassign (x : Src) (n : Nat) (bands : BitVec 16) (oper signedOnly kv : Bool) (s : State) :=
  lift (putReg x (partCfgOff n) 4 (partCfgWord bands false oper signedOnly kv)) s
/-- KEY_VALID (R415). -/
def execKeyValid (x : Src) (n : Nat) (signedOnly : Bool) (s : State) := lift (keyWrite x n signedOnly true) s
/-- KEY_VALID_CLEAR (R415). -/
def execKeyValidClear (x : Src) (n : Nat) (signedOnly : Bool) (s : State) := lift (keyWrite x n signedOnly false) s
/-- PART_CATALOG (R413). -/
def execPartCatalog (x : Src) (n : Nat) (v : Dword) (s : State) := lift (putReg x (0x10080 + 8 * (n % 16)) 8 v.toNat) s
/-- PART_APER (R414). -/
def execPartAper (x : Src) (w : Nat) (v : Dword) (s : State) := lift (putReg x (0x11000 + 8 * (w % 448)) 8 v.toNat) s

/-- Offset of RING_CTL_p_i (R412). -/
def ringCtlOff (p i : Nat) : Nat := 0x20000 + p % 16 * 0x1000 + i % 130 * 16

/-- RING_ENABLE (R417). -/
def execRingEnable (x : Src) (p i : Nat) (v : Word) (s : State) := lift (putReg x (ringCtlOff p i) 4 (v ||| 0x80000000#32).toNat) s
/-- RING_DISABLE (R417). -/
def execRingDisable (x : Src) (p i : Nat) (v : Word) (s : State) := lift (putReg x (ringCtlOff p i) 4 (v &&& 0x7FFFFFFF#32).toNat) s

/-- LIGHTHOUSE (R419). -/
def execLighthouse (x : Src) (s : State) := lift (putReg x 0x30008 4 1) s
/-- STANDBY (R419). -/
def execStandby (x : Src) (s : State) := lift (putReg x 0x30008 4 2) s
/-- MEMBER (R419). -/
def execMember (x : Src) (s : State) := lift (putReg x 0x30008 4 0) s
/-- BEACON_DOMAIN (R418). -/
def execBeaconDomain (x : Src) (v : Word) (s : State) := lift (putReg x 0x30000 4 v.toNat) s
/-- BEACON_PKG (R418). -/
def execBeaconPkg (x : Src) (v : Word) (s : State) := lift (putReg x 0x30004 4 v.toNat) s
/-- BEACON_LEAD (R420). -/
def execBeaconLead (x : Src) (v : Word) (s : State) := lift (putReg x 0x3000C 4 v.toNat) s
/-- STAT_CLEAR (R396): a write of LAMP_CFG with STAT_CLEAR set. -/
def execStatClear (x : Src) (cap : BitVec 2) (s : State) := lift (putReg x 0x31000 4 (cap.toNat + 4)) s
/-- MAX_CAP (R390): a write of LAMP_CFG with STAT_CLEAR clear. -/
def execMaxCap (x : Src) (cap : BitVec 2) (s : State) := lift (putReg x 0x31000 4 cap.toNat) s
/-- SAFE_CNT_CLEAR (R421). -/
def execSafeCntClear (x : Src) (v : Word) (s : State) := lift (putReg x 0x3200C 4 v.toNat) s
/-- ARM (R367). -/
def execArm (x : Src) (kind : BitVec 4) (i : BitVec 10) (tag : BitVec 16) (s : State) :=
  lift (putReg x 0x32010 4 (2 ^ 31 + kind.toNat * 2 ^ 26 + i.toNat * 2 ^ 16 + tag.toNat)) s
/-- ENTER_TEST_STATE (R422). -/
def execEnterTestState (x : Src) (s : State) := lift (putReg x 0x34000 4 1) s
/-- LEAVE_TEST_STATE (R422). -/
def execLeaveTestState (x : Src) (s : State) := lift (putReg x 0x34000 4 0) s

/-- Offset of LINK_CFG_n (R412). -/
def linkCfgOff (n : Nat) : Nat := 0x35000 + 16 * (n % 16)

/-- LINK_ENABLE (R423). -/
def execLinkEnable (x : Src) (n : Nat) (v : Word) (s : State) := lift (putReg x (linkCfgOff n) 4 (v ||| 0x80000000#32).toNat) s
/-- LINK_DISABLE (R423). -/
def execLinkDisable (x : Src) (n : Nat) (v : Word) (s : State) := lift (putReg x (linkCfgOff n) 4 (v &&& 0x7FFFFFFF#32).toNat) s
/-- RETRAIN (R333): a write of LINK_CFG_n as it reads, with RETRAIN set. -/
def execRetrain (x : Src) (n : Nat) (s : State) := lift (fun e c => putReg x (linkCfgOff n) 4 (regValue e c (.linkCfg (n % 16)) ||| 1) e c) s
/-- CNT_CLEAR (R423): a write of LINK_CFG_n as it reads, with CNT_CLEAR set. -/
def execCntClear (x : Src) (n : Nat) (s : State) := lift (fun e c => putReg x (linkCfgOff n) 4 (regValue e c (.linkCfg (n % 16)) ||| 2) e c) s
/-- MGMT_LOG_SEL (R424). -/
def execMgmtLogSel (x : Src) (v : Word) (s : State) := lift (putReg x 0x37004 4 v.toNat) s
/-- RECOVERY_GO (R383). -/
def execRecoveryGo (x : Src) (s : State) := lift (putReg x 0x02004 4 1) s
/-- REGISTER_WRITE (R406-R409). -/
def execRegisterWrite (x : Src) (off size : Nat) (v : Dword) (s : State) := lift (putReg x (off % 2 ^ 20) size v.toNat) s
/-- HOST_ACCESS (R60, R371, R411). -/
def execHostAccess (x : Src) (a size : Nat) (w : Option Dword) (s : State) := lift (fun e c =>
  match w with
  | some v => if x ≠ .server ∧ a = Config.setupBase + 0x31000 then putReg x 0x31000 size v.toNat e c else hostAccess e c x a size w
  | none => hostAccess e c x a size w) s

/-- SUBMISSION_DOORBELL (R294). -/
def execSubmissionDoorbell (p n v : Nat) (s : State) := lift (fun _ c => submissionBell c (p % 16) (n % 32) (v % 2 ^ 32)) s

/-- Index of a ring that the device writes: 32 to 129 (R290). -/
def consumerNo (i : Nat) : Nat := 32 + (i - 32) % 98

/-- CONSUMER_DOORBELL (R294, R307). -/
def execConsumerDoorbell (p i v : Nat) (s : State) := lift (fun _ c => consumerBell c (p % 16) (consumerNo i) (v % 2 ^ 32)) s
/-- DESCRIPTOR_FETCH (R295-R298). -/
def execDescriptorFetch (p n : Nat) (s : State) := lift (fun e c => fetchDescriptor e c (p % 16) n) s
/-- FENCE (R304). -/
def execFence (p n : Nat) (s : State) := lift (fun _ c => releaseFence c (p % 16) n) s
/-- COAL_TIME (R307). -/
def execCoalTime (p i : Nat) (s : State) := lift (fun _ c => coalesce c (p % 16) (consumerNo i)) s

end Sys2Proof.Machine
end

