-- ==== Sys2Proof/Machine/Requests.lean ====
section
/-! DEFINITION. ADMIT, APPEND, CANCEL, QUERY, parked sessions and the copies that serve them (04_weights.md R111; 11_serving.md R266-R283; 12_host.md R309, R311; 17_power.md R405). -/

namespace Sys2Proof.Machine

/-! ADMIT. -/

/-- Arguments of an ADMIT (R309). -/
structure AdmitArgs where
  input : Nat
  output : Nat
  len : Nat
  maxNew : Nat
  seed : Nat
  adapterId : Nat
  rank : Nat
  lookups : Nat
  group : Nat

def admitArgs (m : Cmd) : AdmitArgs :=
  ⟨arg m 0x10 8, arg m 0x18 8, arg m 0x20 4, arg m 0x24 4, arg m 0x28 8, arg m 0x30 4, arg m 0x34 2, arg m 0x36 2, arg m 0x38 2⟩

/-- Offset of the lookup entries in an input buffer (R309). -/
def lookupOff (len : Nat) : Nat := cdiv (4 * len) 8 * 8

/-- The prompt as it counts: one start token for an empty one under IMPLICIT_START (R264, R271). -/
def effectiveLen (j : Job) (n : Nat) : Nat := if n = 0 ∧ j.hdr.implicitStart = true then 1 else n

/-- Context limit of a job (R269). -/
def contextLimit (j : Job) : Nat := ((kvOf j).map (fun k => k.2.1)).getD 0

/-- Bytes of an embedding record (R269). -/
def embBytes (j : Job) : Nat := ((planOf j).map (fun p => p.2.2)).getD 0

/-- Whether a token ring may serve a request of a partition (R271). -/
def tokenRingOk (c : Chip) (p n : Nat) : Bool := decide (n < 64) && (ring c (ringKey p (64 + n))).enable

/-- Rank that the directory or the catalogue gives an adapter (R110, R271). -/
def knownRank (e : Env) (c : Chip) (p : Nat) (j : Job) (id : Nat) : Option Nat :=
  match tfind j.wts.dir id with
  | some d => some (tget Drawer.free j.wts.drawers d).rank
  | none => (catalogEntry e c p id).map (fun x => x.rank)

/-- Lookup entries of an input buffer. -/
def readLooks (e : Env) (c : Chip) (a len n : Nat) : List Dword :=
  (List.range n).map (fun k => BitVec.ofNat 64 (rdLE e c (a + lookupOff len + 8 * k) 8))

/-- Tokens of a buffer. -/
def readToks (e : Env) (c : Chip) (a n : Nat) : List Word := (List.range n).map (fun k => BitVec.ofNat 32 (rdLE e c (a + 4 * k) 4))

/-- Lowest free entry that a job has reserved (R271). -/
def freeEntry (c : Chip) (tag : Nat) : Option Nat := (c.reqs.find? (fun r => r.2.job == tag && r.2.st == .free)).map Prod.fst

/-- The first check of R271 that fails. -/
def admitCheck (e : Env) (c : Chip) (tag : Nat) (j : Job) (m : Cmd) : Option Status :=
  let a := admitArgs m
  let n := effectiveLen j a.len
  if n = 0 ∨ (a.maxNew ≠ 0 ∧ ((kvOf j).isNone = true ∨ contextLimit j < n + a.maxNew ∨ tokenRingOk c m.id.part m.aux = false)) ∨
      (1 ≤ a.rank ∧ j.decl.cab.maxRank < a.rank) ∨ 4096 < a.lookups then some .invalidArg
  else if !(bufferOk c [m.id.part] a.input (if a.lookups = 0 then 4 * a.len else lookupOff a.len + 8 * a.lookups)) ||
      !(bufferOk c [m.id.part] a.output (if a.maxNew = 0 then embBytes j else 0)) then some .denied
  else if j.st ≠ .running then some .notReady
  else if (1 ≤ a.rank ∧ knownRank e c m.id.part j a.adapterId ≠ some a.rank) ∨
      (addLoads (lookupOf j) [] (readLooks e c a.input a.len a.lookups)).2 = false then some .invalidArg
  else if (freeEntry c tag).isNone = true ∨ (1 ≤ a.rank ∧ j.decl.cab.drawers = 0) then some .noRoom
  else none

/-- The entry of a new request (R266, R270). -/
def newReq (j : Job) (m : Cmd) (tag : Nat) (q : Req) : Req :=
  let a := admitArgs m
  { Req.free with
    st := .queued, job := tag, rebind := bitOf m.flags 2, noDraft := bitOf m.flags 3, encodeOnly := a.maxNew == 0, adapter := a.rank != 0
    gen := q.gen, part := m.id.part, seq := m.id.seq, adapterId := if a.rank = 0 then 0 else a.adapterId, rank := a.rank
    promptLen := effectiveLen j a.len, maxNew := a.maxNew, seed := a.seed, tokenRing := m.aux, complRing := m.cq, lookups := a.lookups
    arrival := j.ticks.arrival }

/-- A request accepted into an entry: ACCEPTED with its handle, and the next arrival ordinal (R265, R266, R297). -/
def placeReq (c : Chip) (tag i : Nat) (m : Cmd) (q : Req) (s : ReqSide) : Chip :=
  let c1 := acceptCmd c m.id (mkHandle m.id.part 1 i q.gen m.id.seq)
  let c2 := { c1 with reqs := tset c1.reqs i q, sides := tset c1.sides i s }
  setTicks c2 tag (fun t => { t with arrival := (t.arrival + 1) % 2 ^ 32 })

/-- ADMIT to one job. -/
def admitTo (e : Env) (m : Cmd) (tag : Nat) (j : Job) (c : Chip) : Chip :=
  match admitCheck e c tag j m with
  | some st => final c m.id st
  | none =>
    match freeEntry c tag with
    | none => final c m.id .noRoom
    | some i =>
      let a := admitArgs m
      placeReq c tag i m (newReq j m tag (req c i)) { ReqSide.none with cmd := m.id, inAddr := a.input, outAddr := a.output }

/-- Handle of a job (R296). -/
def jobHandle (tag : Nat) (j : Job) : Nat := mkHandle j.part 3 tag j.gen j.seq

/-- Members of a replica group that this package leads, in ascending order of job handle (R283, R309): of several programs, that of the lowest handle. -/
def members (c : Chip) (g tenant : Nat) : List (Nat × Job) :=
  let all := sortBy (fun x => jobHandle x.1 x.2) (c.jobs.filter (fun x => x.2.st == .running && x.2.args.group == g && isLead c x.2 && x.2.tenant == tenant))
  match all with
  | [] => []
  | x :: _ => all.filter (fun y => y.2.hdr.digest == x.2.hdr.digest)

/-- Prompt tokens of a job not yet processed (R283). -/
def unprocessed (c : Chip) (tag : Nat) : Nat := ((liveReqs c tag).map (fun i => (req c i).promptLen - (req c i).promptDone)).sum

/-- The member that a request for a group goes to (R283; the arrival ordinal with balancing off: log entry 40). -/
def pickMember (c : Chip) (ms : List (Nat × Job)) : Option (Nat × Job) :=
  match ms with
  | [] => none
  | x :: _ =>
    if x.2.args.balancing then
      (leastOf (ms.map (fun y => unprocessed c y.1))).bind (fun n => ms.find? (fun y => unprocessed c y.1 == n))
    else ms[(ms.map (fun y => y.2.ticks.arrival)).sum % ms.length]?

/-- ADMIT (R271, R283, R309). -/
def admitReq (e : Env) (m : Cmd) (c : Chip) : Chip :=
  let g := (admitArgs m).group
  if m.target = 0 then
    if g = 0 then final c m.id .invalidArg
    else match pickMember c (members c g (part c m.id.part).tenant.toNat) with
      | none => final c m.id .notReady
      | some (tag, j) => admitTo e m tag j c
  else if g ≠ 0 then final c m.id .invalidArg
  else onJobTarget m c true (fun tag j c => admitTo e m tag j c)

/-- The prompt area here: first byte, capacity in tokens (R269). -/
def promptOf (j : Job) : Option (Nat × Nat) := j.decl.ranges.findSome? (fun r => match r.use with | .prompt n => some (r.lo, n) | _ => none)

/-- Tokens are copied into the prompt area (R269, R272): from the next place in it on, and around (where a token goes is not stated: log entry 90). -/
def writePrompt (c : Chip) (tag : Nat) (toks : List Word) : Chip :=
  match tfind c.jobs tag with
  | none => c
  | some j =>
    match promptOf j with
    | none => c
    | some (lo, n) =>
      onJob (each toks.zipIdx c (fun c t => wr c (lo + 4 * ((j.promptAt + t.2) % n)) (leBytes 4 t.1.toNat))) tag (fun j => { j with promptAt := (j.promptAt + toks.length) % n })

/-- INPUT_COPY (R270): the prompt and the lookups are here; the request is READY, or waits for its adapter. -/
def inputCopy (e : Env) (c : Chip) (i : Nat) : Chip :=
  let q := req c i
  let s := side c i
  match tfind c.jobs q.job with
  | none => c
  | some j =>
    if q.st ≠ .queued ∨ s.copied = true ∨ s.resuming = true ∨ isLead c j = false ∨ linkWaits c s.inAddr = true then c
    else
      let n := ((findCmd c s.cmd).map (fun m => arg m 0x20 4)).getD 0
      let toks := if n = 0 then [BitVec.ofNat 32 j.hdr.startToken] else readToks e c s.inAddr n
      let looks := readLooks e c s.inAddr n q.lookups
      let wait := q.adapter && (tfind j.wts.dir q.adapterId).isNone
      let c1 := onSide (onReq c i (fun q => { q with st := if wait then .waitAdapter else .ready })) i
        (fun s => { s with copied := true, toks := toks ++ s.toks, looks := looks })
      let c1 := writePrompt c1 q.job toks
      if wait then startFills e c1 q.job false else c1

/-! APPEND and CANCEL. -/

/-- Tokens of the appends of a request that are accepted and not committed (R272). -/
def appendWaiting (c : Chip) (s : ReqSide) : Nat := (s.appends.map (fun a => ((findCmd c a.cmd).map (fun m => arg m 0x18 4)).getD 0)).sum

/-- APPEND (R272). -/
def append (m : Cmd) (c : Chip) : Chip :=
  onReqTarget m c (fun i q _ j c =>
    let n := arg m 0x18 4
    if q.st = .parking then final c m.id .busy
    else if q.encodeOnly = true ∨ contextLimit j < q.promptLen + appendWaiting c (side c i) + n + q.maxNew then final c m.id .invalidArg
    else if !(bufferOk c j.place.parts (arg m 0x10 8) (4 * n)) then final c m.id .denied
    else if n = 0 then doneCmd c m.id .ok 0 0
    else onSide (acceptCmd c m.id (cmdHandle m.id)) i (fun s => { s with appends := s.appends ++ [⟨m.id, [], false⟩] }))

/-- APPEND_COPY (R272): the tokens of an append are here; the copies of one request end in order. -/
def appendCopy (e : Env) (c : Chip) (id : CmdId) : Chip :=
  match c.sides.find? (fun s => (s.2.appends.find? (fun a => !a.copied)).any (fun a => a.cmd == id)), findCmd c id with
  | some x, some m =>
    if linkWaits c (arg m 0x10 8) then c
    else
      let toks := readToks e c (arg m 0x10 8) (arg m 0x18 4)
      writePrompt (onSide c x.1 (fun s => { s with appends := s.appends.map (fun a => if a.cmd = id then { a with toks := toks, copied := true } else a) })) (req c x.1).job toks
  | _, _ => c

/-- CANCEL (R282): the flag is set; on a job that is not running the request ends at once. -/
def cancel (m : Cmd) (c : Chip) : Chip :=
  onReqTarget m c (fun i _ _ j c =>
    let c1 := onSide (onReq (acceptCmd c m.id (cmdHandle m.id)) i (fun q => { q with cancel := true })) i (fun s => { s with cancels := s.cancels ++ [m.id] })
    if jobRunning j then c1 else endReqNow c1 i .cancelled)

/-! QUERY. -/

def reqCode : ReqSt → Nat
  | .free => 0 | .queued => 1 | .waitAdapter => 2 | .ready => 3 | .prompt => 4 | .decode => 5 | .parking => 6

def drawerCode : DrawerSt → Nat
  | .free => 0 | .filling => 1 | .ready => 2 | .current => 3 | .cached => 4 | .retired => 5

/-- The 64 bytes of a full entry (R266). -/
def reqBytes (q : Req) : List Byte :=
  leBytes 1 (reqCode q.st) ++
    leBytes 1 (b2n q.cancel + 2 * b2n q.rebind + 4 * b2n q.encodeOnly + 8 * b2n q.noDraft + 16 * b2n q.mirror + 32 * b2n q.park + 64 * b2n q.adapter) ++
    leBytes 1 q.gen ++ leBytes 1 q.part ++ leBytes 4 q.seq ++ leBytes 4 q.adapterId ++ leBytes 2 q.drawer ++ leBytes 1 q.adapterGen ++
    leBytes 1 (if q.adapter then q.rank - 1 else 0) ++ leBytes 4 q.promptLen ++ leBytes 4 q.promptDone ++ leBytes 4 q.kvLen ++ leBytes 4 q.maxNew ++
    leBytes 4 q.delivered ++ leBytes 4 q.step ++ leBytes 8 q.seed ++ leBytes 2 q.kvSlot ++ leBytes 2 q.tokenRing ++ leBytes 2 q.complRing ++
    leBytes 2 q.lookups ++ leBytes 2 q.deferrals ++ leBytes 2 0 ++ leBytes 4 q.arrival

/-- The 16 bytes of an adapter record (R311); `d`: drawer 0xFFFF for none. -/
def adapterBytes (c : Chip) (tag id d : Nat) (w : Drawer) : List Byte :=
  leBytes 4 id ++ leBytes 2 d ++ leBytes 1 w.gen ++ leBytes 1 (drawerCode w.st) ++ leBytes 4 (boundOf c tag d) ++
    leBytes 1 (b2n (w.st == .filling) + 2 * b2n w.pinned) ++ leBytes 3 0

/-- The record of an adapter ID (R311): its current drawer, else the one being filled, else none. -/
def adapterById (c : Chip) (tag : Nat) (j : Job) (id : Nat) : List Byte :=
  let d := match tfind j.wts.dir id with
    | some d => some d
    | none => (j.wts.drawers.find? (fun x => x.2.adapter == id && (x.2.st == .filling || x.2.st == .ready))).map Prod.fst
  match d with
  | some d => adapterBytes c tag id d (tget Drawer.free j.wts.drawers d)
  | none => leBytes 4 id ++ leBytes 2 0xFFFF ++ leBytes 10 0

/-- The job record (R311). -/
def jobBytes (c : Chip) (tag : Nat) (j : Job) : List Byte :=
  let k := j.cnt
  leBytes 2 tag ++ leBytes 1 (jobStCode j.st) ++ leBytes 1 (modeBits j) ++ leBytes 4 j.wts.version ++ leBytes 8 j.ticks.committed ++
    leBytes 4 k.stretch ++ leBytes 4 k.replays ++ leBytes 4 k.misses ++ leBytes 4 k.deferrals ++ leBytes 4 k.deferredLookups ++ leBytes 4 k.excessRows ++
    leBytes 4 k.freeze ++ leBytes 4 k.inexact ++ leBytes 4 k.overflow ++ leBytes 4 k.skips ++ leBytes 4 k.fillRefusals ++
    leBytes 2 (activeOf c tag) ++ leBytes 2 j.hdr.variants.length ++ List.replicate 64 0 ++
    j.hdr.variants.zipIdx.flatMap (fun v => leBytes 4 (tget 0 k.doneMax v.2) ++ leBytes 4 v.1.wWorst)

/-- The end of a QUERY: too short a buffer, a buffer elsewhere, or the record (R289, R311). -/
def queryOut (m : Cmd) (parts : List Nat) (bs : List Byte) (c : Chip) : Chip :=
  let n := arg m 0x18 4
  if n < bs.length then finalCmd c m.id .invalidArg bs.length 0 0
  else if !(bufferOk c parts (arg m 0x10 8) n) then final c m.id .denied
  else doneCmd (wr c (arg m 0x10 8) bs) m.id .ok bs.length 0

/-- The drawer that an adapter handle names: its index, generation and sequence (R105, R296). -/
def adapterOf (c : Chip) (h : Nat) : Option (Nat × Job × Drawer) :=
  c.jobs.findSome? (fun x =>
    (tfind x.2.wts.drawers (hIndex h)).bind (fun w => if w.st ≠ .free ∧ w.gen = hGen h ∧ w.made = hSeq h ∧ w.made ≠ 0 then some (x.1, x.2, w) else none))

/-- QUERY (R311). -/
def query (m : Cmd) (c : Chip) : Chip :=
  match hKind m.target with
  | 1 => onReqTarget m c (fun _ q _ j c => queryOut m j.place.parts (reqBytes q) c)
  | 2 =>
    (match adapterOf c m.target with
     | none => final c m.id .alreadyDone
     | some (tag, j, w) =>
       if !(j.place.parts.contains m.id.part) then final c m.id .denied
       else if !(isLead c j) then finalCmd c m.id .invalidArg 0 0 j.place.lead
       else queryOut m j.place.parts (adapterBytes c tag w.adapter (hIndex m.target) w) c)
  | 3 => onJobTarget m c true (fun tag j c =>
      queryOut m j.place.parts (if bitOf m.flags 2 then adapterById c tag j (arg m 0x1C 4) else jobBytes c tag j) c)
  | _ => final c m.id .invalidArg

/-! Parked sessions. -/

/-- Bytes before the key-value entries of a parked buffer (log entry 39): the entry, the program digest, the weight version, the output address. -/
def parkHead (j : Job) (q : Req) (s : ReqSide) : List Byte :=
  reqBytes q ++ digestBytes j.hdr.digest ++ leBytes 4 j.wts.version ++ leBytes 4 0 ++ leBytes 8 s.outAddr

/-- Address and length of a request's committed key-value entries here (R269, R111). -/
def kvSpan (j : Job) (slot len : Nat) : Nat × Nat :=
  match kvOf j with
  | some (_, cx, b, lo) => if slot = 0xFFFF then (0, 0) else (lo + slot * (cx + 9) * b, len * b)
  | none => (0, 0)

/-- Bytes that a park copies on this package. -/
def parkSize (j : Job) (q : Req) (s : ReqSide) : Nat := 128 + (kvSpan j q.kvSlot q.kvLen).2 + 4 * s.toks.length

/-- PARK_SESSION (R111, R270): the request is planned no longer, and its copy begins. -/
def parkSession (m : Cmd) (c : Chip) : Chip :=
  onReqTarget m c (fun i q _ j c =>
    let a := arg m 0x10 8
    let n := arg m 0x18 8
    if (q.st ≠ .prompt ∧ q.st ≠ .decode) ∨ n < parkSize j q (side c i) then final c m.id .invalidArg
    else if !(bufferOk c j.place.parts a n) then final c m.id .denied
    else onSide (onReq (acceptCmd c m.id (cmdHandle m.id)) i (fun q => { q with st := .parking, park := true })) i
      (fun s => { s with parkCmd := some m.id, parkAddr := a, parkLen := n, parkCopied := false, farCopied := decide (j.place.pkgs.length ≤ 1) }))

/-- PARK_SESSION on a package that does not lead (R111, R267, R309; log entry 52): its mirror is in PARKING, and its share of the key-value entries is to be copied. -/
def parkMember (r : Relay) (m : Cmd) (c : Chip) : Chip :=
  match tfind c.jobs r.tag with
  | none => c
  | some j =>
    if isLead c j then c
    else
      let c1 := if (req c r.base).mirror then onReq c r.base (fun q => { q with st := .parking, park := true }) else c
      onSide c1 r.base (fun s => { s with parkCmd := some m.id, parkAddr := arg m 0x10 8, parkLen := arg m 0x18 8, parkCopied := false })

/-- Whether an attempt that is not resolved plans an entry. -/
def inFlight (j : Job) (i : Nat) : Bool := j.ticks.attempts.any (fun a => a.plan.rows.any (fun r => r.entry == i && r.kind != 2))

/-- The other packages have made their copies (R111). -/
def copiedFar (c : Chip) (part : CopyPart) : Chip :=
  if part.elsewhere then { c with sides := c.sides.map (fun s => if s.2.parkCmd = some part.id ∨ (s.2.cmd = part.id ∧ s.2.resuming = true) then (s.1, { s.2 with farCopied := true }) else s) }
  else c

/-- PARK_COPY (R111): the committed state is in the buffer; a buffer too short for what committed meanwhile ends the command before anything moves. -/
def parkCopy (e : Env) (c : Chip) (id : CmdId) : Chip :=
  match c.sides.find? (fun s => s.2.parkCmd == some id && !s.2.parkCopied) with
  | none => c
  | some (i, s) =>
    let q := req c i
    match tfind c.jobs q.job with
    | none => c
    | some j =>
      if inFlight j i || linkWaits c s.parkAddr then c
      else if s.parkLen < parkSize j q s then
        final (onSide (onReq c i (fun q => if q.mirror then q else { q with st := if q.promptDone < q.promptLen then .prompt else .decode, park := false })) i
          (fun s => { s with parkCmd := none })) id .invalidArg
      else
        let k := kvSpan j q.kvSlot q.kvLen
        let c1 := wr c s.parkAddr (parkHead j q s)
        let c2 := wr c1 (s.parkAddr + 128) (rdBytes e c k.1 k.2)
        let c3 := wr c2 (s.parkAddr + 128 + k.2) (s.toks.flatMap (fun w => leBytes 4 w.toNat))
        onSide c3 i (fun s => { s with parkCopied := true, parkBytes := parkSize j q s })

/-- An entry as a parked buffer holds it, renewed for the job that resumes it. -/
def resumedReq (b : List Byte) (j : Job) (m : Cmd) (tag slot : Nat) (old : Req) (d : Nat × Nat) : Req :=
  let f := field b 1 1
  { Req.free with
    st := .queued, job := tag, rebind := bitOf f 1, encodeOnly := bitOf f 2, noDraft := bitOf f 3, adapter := bitOf f 6
    gen := old.gen, part := m.id.part, seq := m.id.seq, adapterId := field b 8 4, drawer := d.1, adapterGen := d.2
    rank := if bitOf f 6 then field b 0x0F 1 + 1 else 0, promptLen := field b 0x10 4, promptDone := field b 0x14 4, kvLen := field b 0x18 4
    maxNew := field b 0x1C 4, delivered := field b 0x20 4, step := field b 0x24 4, seed := field b 0x28 8, kvSlot := slot
    tokenRing := m.aux, complRing := m.cq, lookups := field b 0x36 2, arrival := j.ticks.arrival }

/-- Key-value slots that plans of unresolved attempts have taken. -/
def plannedSlots (j : Job) : List Nat := j.ticks.attempts.flatMap (fun a => a.plan.rows.map (fun r => r.kvSlot))

/-- RESUME_SESSION (R111, R270, R309). -/
def resumeSession (e : Env) (m : Cmd) (c : Chip) : Chip :=
  onJobTarget m c true (fun tag j c =>
    let a := arg m 0x10 8
    let n := arg m 0x18 8
    if j.st ≠ .running then final c m.id .notReady
    else if !(bufferOk c j.place.parts a n) then final c m.id .denied
    else if n < 128 then final c m.id .invalidArg
    else
      let b := rdBytes e c a 128
      let enc := bitOf (field b 1 1) 2
      let q := resumedReq b j m tag 0xFFFF Req.free (0xFFFF, 0)
      let size := 128 + (if enc then 0 else (kvSpan j 0 q.kvLen).2) + 4 * q.promptLen
      if (b.drop 64).take 48 ≠ digestBytes j.hdr.digest ∨ n < size ∨ (enc = false ∧ tokenRingOk c m.id.part m.aux = false) ∨ (enc = false ∧ contextLimit j < q.kvLen) then
        final c m.id .invalidArg
      else if field b 112 4 ≠ j.wts.version then final c m.id .versionChanged
      else
        let slot := if enc then some 0xFFFF else freeSlot c tag j (plannedSlots j)
        match freeEntry c tag, slot with
        | some i, some sl =>
          let d := match tfind j.wts.dir q.adapterId with
            | some d => if q.adapter then (d, (tget Drawer.free j.wts.drawers d).gen) else (0xFFFF, 0)
            | none => (0xFFFF, 0)
          placeReq c tag i m (resumedReq b j m tag sl (req c i) d)
            { ReqSide.none with cmd := m.id, inAddr := a, outAddr := field b 120 8, resuming := true, farCopied := decide (j.place.pkgs.length ≤ 1) }
        | _, _ => final c m.id .noRoom)

/-- RESUME_SESSION on a package that does not lead (R111, R309; log entry 52): its share is to be copied back into the key-value slot that the lead gives the entry. -/
def resumeMember (r : Relay) (m : Cmd) (c : Chip) : Chip :=
  match tfind c.jobs r.tag with
  | none => c
  | some j =>
    if isLead c j then c
    else onSide c r.base (fun _ => { ReqSide.none with cmd := m.id, inAddr := arg m 0x10 8, resuming := true, parkBytes := r.tick.getD 0xFFFF })

/-- RESUME_COPY (R111): the key-value entries and the prompt are back, before the tokens that were appended meanwhile; an adapter that is not resident is filled first (log entry 39). -/
def resumeCopy (e : Env) (c : Chip) (id : CmdId) : Chip :=
  match c.sides.find? (fun s => s.2.cmd == id && s.2.resuming && !s.2.copied) with
  | none => c
  | some (i, s) =>
    let q := req c i
    match tfind c.jobs q.job with
    | none => c
    | some j =>
      if linkWaits c s.inAddr then c
      else if !(isLead c j) then
        let k := kvSpan j s.parkBytes (field (rdBytes e c s.inAddr 128) 0x18 4)
        { (wr c k.1 (rdBytes e c (s.inAddr + 128) k.2)) with sides := tdel c.sides i }
      else
      let k := kvSpan j q.kvSlot q.kvLen
      let toks := readToks e c (s.inAddr + 128 + k.2) (q.promptLen - s.toks.length) ++ s.toks
      let wait := q.adapter && q.drawer == 0xFFFF
      let c1 := wr c k.1 (rdBytes e c (s.inAddr + 128) k.2)
      let c2 := onSide (onReq c1 i (fun q => { q with st := if wait then .waitAdapter else .queued })) i
        (fun s => { s with copied := true, toks := toks, planned := true, backBytes := some (128 + k.2 + 4 * (q.promptLen - s.toks.length)) })
      if wait then startFills e c2 q.job false else c2

/-! A transfer that the link never served. -/

/-- Whether a command has waited 1 s for a transfer of the aperture (R405). -/
def apertureWaited (c : Chip) (m : Cmd) : Bool :=
  !c.boot.pcieUp && decide (c.boot.downAt + 1000 * Config.ms ≤ c.now) && m.phase != .held && (cmdExtents m).any (fun a => inAperture a.1)

/-- What a command had in hand leaves with it. -/
def dropWork (c : Chip) (id : CmdId) : Chip :=
  each c.jobs c (fun c x =>
    let c1 := each ((x.2.wts.drawers.filter (fun d => d.2.cmd == some id && d.2.st == .filling)).map Prod.fst) c (fun c d => freeDrawer c x.1 d)
    onJob c1 x.1 (fun j => { j with wts := { j.wts with
      loads := j.wts.loads.filter (fun l => l.cmd != id)
      swap := if j.wts.swap.any (fun w => w.cmd == id) then none else j.wts.swap
      trains := j.wts.trains.filter (fun t => t.cmd != id)
      held := j.wts.held.filter (fun h => h.2.cmd != some id) } }))

/-- What a request had of a command leaves with it: an append, or a park, after which it is planned again. -/
def dropCopies (c : Chip) (id : CmdId) : Chip :=
  each c.sides c (fun c x =>
    let c1 := onSide c x.1 (fun s => { s with appends := s.appends.filter (fun a => a.cmd != id), parkCmd := if s.parkCmd = some id then none else s.parkCmd })
    if x.2.parkCmd = some id then onReq c1 x.1 (fun q => { q with st := if q.promptDone < q.promptLen then .prompt else .decode, park := false }) else c1)

/-- APERTURE_TIMEOUT (R405): the command or request that a transfer serves ends with HW_FAULT. -/
def apertureTimeout (c : Chip) (id : CmdId) : Chip :=
  match findCmd c id with
  | none => c
  | some m =>
    if !(apertureWaited c m) then c
    else match c.sides.find? (fun s => s.2.cmd == id) with
      | some x => endReqNow c x.1 .hwFault
      | none => final (dropCopies (dropWork c id) id) id .hwFault

/-! The rows. -/

/-- ADMIT (R271). -/
def execAdmitReq (id : CmdId) (s : State) := lift (fun e c => withStarted c id 0x10 (admitReq e)) s
/-- APPEND (R272). -/
def execAppend (id : CmdId) (s : State) := lift (fun _ c => withStarted c id 0x11 append) s
/-- CANCEL (R282). -/
def execCancel (id : CmdId) (s : State) := lift (fun _ c => withStarted c id 0x12 cancel) s
/-- QUERY (R311). -/
def execQuery (id : CmdId) (s : State) := lift (fun _ c => withStarted c id 0x13 query) s
/-- PARK_SESSION (R111). -/
def execParkSession (v : Via) (s : State) := lift (fun _ c => withFlag c v 0x52 false (match v with | .ring _ => parkSession | .relay r => parkMember r)) s
/-- RESUME_SESSION (R111). -/
def execResumeSession (v : Via) (s : State) := lift (fun e c => withFlag c v 0x52 true (match v with | .ring _ => resumeSession e | .relay r => resumeMember r)) s
/-- INPUT_COPY (R270). -/
def execInputCopy (i : Nat) (s : State) := lift (fun e c => inputCopy e c i) s
/-- APPEND_COPY (R272). -/
def execAppendCopy (id : CmdId) (s : State) := lift (fun e c => appendCopy e c id) s
/-- PARK_COPY (R111). -/
def execParkCopy (x : CopyPart) (s : State) := lift (fun e c => parkCopy e (copiedFar c x) x.id) s
/-- RESUME_COPY (R111). -/
def execResumeCopy (x : CopyPart) (s : State) := lift (fun e c => resumeCopy e (copiedFar c x) x.id) s
/-- APERTURE_TIMEOUT (R405). -/
def execApertureTimeout (id : CmdId) (s : State) := lift (fun _ c => apertureTimeout c id) s

end Sys2Proof.Machine
end

