-- ==== Sys2Proof/Machine/Starting.lean ====
section
/-! DEFINITION. START_JOB, STOP_JOB and SET_TICK (02_beacon.md R23, R26; 10_contract.md R261; 11_serving.md R265, R274; 12_host.md R309). -/

namespace Sys2Proof.Machine

/-! START_JOB. -/

/-- The arguments that a START_JOB gives (R309); an abort limit of 0 is 8 (R56). -/
def startArgs (m : Cmd) : RunArgs :=
  let mode := arg m 0x10 1
  { strict := bitOf mode 0, elasticLen := bitOf mode 1, balancing := bitOf mode 2
    abortLimit := if arg m 0x11 1 = 0 then 8 else arg m 0x11 1
    m := arg m 0x12 2, mNext := none, reqBase := 0, reqCount := arg m 0x14 2
    kJob := arg m 0x16 1, lampCap := arg m 0x17 1, budget := arg m 0x18 4, fixedChunk := arg m 0x1C 2, group := arg m 0x1E 2 }

/-- Whether every variant fits a job period (R54, R261). -/
def fitsTick (j : Job) (strict : Bool) (p : Nat) : Bool :=
  j.hdr.variants.all (fun v => decide ((if strict then v.wWorst + restartAllowance j else v.wWorst) ≤ p))

/-- The planner arguments of R274, judged with the job's new arguments. -/
def plannerOk (c : Chip) (j : Job) : Bool :=
  j.hdr.variants.any isIdle &&
    j.hdr.variants.any (fun v => v.kind == 0 && v.chunk == 0 && v.draft == j.args.kJob && decide (v.wWorst ≤ budgetOf c j))

/-- Ranges of START_JOB's arguments (R26, R265, R274, R309, R392; the depth: R50). -/
def startRanges (m : Cmd) (j : Job) (a : RunArgs) : Bool :=
  decide (arg m 0x10 1 < 8) && decide (1 ≤ a.m) && decide (a.m ≤ 256) && decide (1 ≤ a.reqCount) && decide (a.reqCount ≤ 16384) &&
    decide (a.kJob ≤ 8) && decide (a.lampCap ≤ 3) && decide (j.place.depth ≤ 9)

/-- Whether every base section is here, verified and of one version (R96, R130). -/
def sectionsOk (j : Job) : Bool :=
  j.wts.loads.isEmpty &&
    (jobLayers j).all (fun l => (tfind j.wts.sections l).any (fun s => s.ok && tablesIn s)) &&
    j.wts.drawers.all (fun d => (d.2.st != .ready && d.2.st != .current && d.2.st != .cached) || j.wts.sections.all (fun s => s.1 / 65536 != d.1 + 1 || s.2.ok)) &&
    decide (((jobLayers j).filterMap (fun l => (tfind j.wts.sections l).map (fun s => s.version))).eraseDups.length ≤ 1)

/-- Excess rows of the resident sections over their budgets (R125, R126). -/
def excessRows (j : Job) : Nat := ((j.wts.sections.filter (fun s => s.2.ok)).map (fun s => s.2.excess)).sum

/-- Version of the base sections here, if they have one (R96). -/
def baseVersion (j : Job) : Option Nat := ((jobLayers j).filterMap (fun l => (tfind j.wts.sections l).map (fun s => s.version))).head?

/-- Whether the base sections of all packages carry one version (R96). -/
def oneVersion (j : Job) (others : List PkgCheck) : Bool := decide (((baseVersion j).toList ++ others.filterMap (fun o => o.version)).eraseDups.length ≤ 1)

/-- Request entries that other jobs have reserved. -/
def reserved (c : Chip) (tag : Nat) : List (Nat × Nat) := (c.jobs.filter (fun j => j.1 != tag)).map (fun j => (j.2.args.reqBase, j.2.args.reqCount))

/-- The first check of START_JOB that fails on this package, in the order 1 period, 2 arguments, 3 readiness, 4 budgets, 5 room (R261 puts 1 before 2; the rest of the order: log entry 43). -/
def startCheck (e : Env) (c : Chip) (tag : Nat) (m : Cmd) (j : Job) (others : List PkgCheck) : Nat × Status :=
  let a := startArgs m
  let j' := { j with args := a }
  if c.beacon.period = 0 ∨ c.beacon.firedAt = none ∨ c.boot.halted = true then (1, .notReady)
  else if !(startRanges m j a) || !(fitsTick j a.strict (jobPeriod c j')) || !(plannerOk c j') then (2, .invalidArg)
  else if !(j.place.links.all (fun l => (port e c l.port).st == .up)) || !(sectionsOk j) || !(oneVersion j others) then (3, .notReady)
  else if !a.elasticLen && excessRows j != 0 then (4, .lengthBudget)
  else if (firstFit (reserved c tag) 16384 a.reqCount).isNone then (5, .noRoom)
  else (0, .ok)

/-- Reserve a run of request entries for a job: generations start at 1 (R265). -/
def reserve (c : Chip) (tag base n : Nat) : Chip :=
  each ((List.range n).map (base + ·)) c (fun c i => onReq c i (fun q => { q with job := tag, gen := if q.gen = 0 then 1 else q.gen }))

/-- The job starts at a base edge (R26): its ticks, counters and log begin anew. -/
def beginJob (c : Chip) (tag base due : Nat) (a : RunArgs) : Chip :=
  let c1 := onJob (reserve c tag base a.reqCount) tag (fun j => { j with
    st := .running, args := { a with reqBase := base }, cnt := JobCnt.zero
    ticks := { Ticks.zero with due := due }, log := [], pair := none, endSt := .ok, stop := none })
  each ((tfind c1.jobs tag).map jobCores |>.getD []) c1 (fun c i =>
    match tfind c.jobs tag with | some j => onCore c i (startCore j c.now i) | none => c)

/-- START_JOB (R26, R96, R126, R261, R265, R274). -/
def startJob (e : Env) (others : List PkgCheck) (relay : Option Relay) (m : Cmd) (c : Chip) : Chip :=
  onJobTarget m c true (fun tag j c =>
    if j.st = .loading then final c m.id .notReady
    else if jobRunning j ∨ j.clearing then final c m.id .busy
    else match deciding c.beacon.pkg (startCheck e c tag m j others) others with
      | some (_, st) => final c m.id st
      | none =>
        let a := startArgs m
        let base := match relay with | some r => r.base | none => (firstFit (reserved c tag) 16384 a.reqCount).getD 0
        let due := match relay with | some r => r.tick.getD (c.beacon.tick + 1) | none => c.beacon.tick + 1
        lampReviews (beginJob (doneCmd c m.id .ok due 0) tag base due a))

/-! STOP_JOB. -/

/-- The tick that is running, or whose edge has fired, when a STOP_JOB is accepted (R309). -/
def lastTick (j : Job) : Option Nat := match j.ticks.edge with | some x => some x.1 | none => (newest j).map (fun a => a.tick)

/-- STOP_JOB (R309, R373); on a package that does not lead, the lead names the last tick (log entry 52). UNLOAD of a job that does not run ends its other commands (R297; their status: log entry 42). -/
def stopJob (relay : Option Relay) (m : Cmd) (c : Chip) : Chip :=
  onJobTarget m c true (fun tag j c =>
    let unl := bitOf m.flags 2
    let drain := bitOf m.flags 3
    if j.st = .loading ∨ j.stop.isSome then final c m.id .invalidArg
    else if jobRunning j then
      let last := match relay with | some r => r.tick | none => lastTick j
      let s : Stop := ⟨m.id, drain && relay.isNone, unl, if drain && relay.isNone then none else last⟩
      let c1 := onJob (acceptCmd c m.id (cmdHandle m.id)) tag (fun j => { j with st := .stopping, stop := some s })
      if last = none ∧ (drain = false ∨ liveReqs c tag = []) then lampReviews (finishStop c1 tag s) else c1
    else if unl then
      let c1 := each ((jobCmds c tag).filter (fun x => x != m.id)) (acceptCmd c m.id (cmdHandle m.id)) (fun c x => final c x .partitionKilled)
      onJob c1 tag (fun j => { j with
        capture := none, clearing := true, clearAll := true, killCmds := j.killCmds ++ [m.id]
        wts := Weights.tidy { j.wts with
          loads := [], held := [], drops := [], trains := []
          drawers := j.wts.drawers.map (fun d => if d.2.st = .filling then (d.1, Drawer.free) else d) } })
    else doneCmd (onJob c tag (fun j => { j with capture := none })) m.id .ok j.ticks.committed 0)

/-! SET_TICK. -/

/-- SET_TICK of the domain (R23, R308): the period first, then the operator partition, the role and running jobs (order of the last three: log entry 43); `elsewhere`: a job of the domain runs on other packages only. -/
def setTick (elsewhere : Bool) (m : Cmd) (c : Chip) : Chip :=
  let p := arg m 0x10 4
  if p < 26000 then final c m.id .invalidArg
  else if (part c m.id.part).operator = false then final c m.id .denied
  else if c.beacon.role ≠ 1 then finalCmd c m.id .invalidArg 0 0 c.beacon.lighthouse
  else if elsewhere || c.jobs.any (fun j => jobRunning j.2) then final c m.id .busy
  else setPeriod (doneCmd c m.id .ok 0 0) p

/-- SET_TICK of a job (R26, R261): the fit test, then the change waits for the commit of the tick in progress. -/
def setTickJob (relay : Option Relay) (m : Cmd) (c : Chip) : Chip :=
  onJobTarget m c true (fun tag j c =>
    let n := arg m 0x14 2
    if jobRunning j = false ∨ n = 0 ∨ 256 < n ∨ fitsTick j j.args.strict (n * c.beacon.period) = false then final c m.id .invalidArg
    else onJob (doneCmd c m.id .ok 0 0) tag (fun j => { j with args := { j.args with mNext := some (n, match relay with | some r => r.tick | none => lastTick j) } }))

/-- SET_TICK with TARGET 0 or with a job: two rows of one opcode. -/
def withTarget (c : Chip) (v : Via) (onJob : Bool) (f : Cmd → Chip → Chip) : Chip :=
  withVia c v 0x30 (fun m c => if (m.target != 0) = onJob then f m c else c)

/-! The rows. -/

/-- START_JOB (R261). -/
def execStartJob (v : Via) (others : List PkgCheck) (s : State) := lift (fun e c => withVia c v 0x04 (startJob e others (sentOf v))) s
/-- STOP_JOB (R309). -/
def execStopJob (v : Via) (s : State) := lift (fun _ c => withVia c v 0x05 (stopJob (sentOf v))) s
/-- SET_TICK (R23). -/
def execSetTick (m : TickCmd) (s : State) := lift (fun _ c => withTarget c (.ring m.id) false (setTick m.elsewhere)) s
/-- SET_TICK_JOB (R26). -/
def execSetTickJob (v : Via) (s : State) := lift (fun _ c => withTarget c v true (setTickJob (sentOf v))) s

end Sys2Proof.Machine
end

