-- ==== Sys2Proof/Machine/Tenancy.lean ====
section
/-! DEFINITION. Killing a job, releasing a partition, captures and clearing (16_tenancy.md R372-R380). -/

namespace Sys2Proof.Machine

/-! Kills. -/

/-- A kill of a job as this package takes it up (R372): decided here where it leads, else sent to the lead. -/
def killFrom (c : Chip) (tag : Nat) (clearAll : Bool) : Chip :=
  match tfind c.jobs tag with
  | none => c
  | some j => if isLead c j then decideKill c tag clearAll else sendTo c tag j.place.lead c.beacon.pkg (fun _ => 0) (.kill tag clearAll)

/-- KILL_JOB (R308, R372, R376): accepted on any package of the job; it completes when clearing ends. -/
def killJob (m : Cmd) (c : Chip) : Chip :=
  onJobTarget m c false (fun tag _ c =>
    let all := bitOf m.flags 2
    let c1 := onJob (acceptCmd c m.id (cmdHandle m.id)) tag (fun j => { j with killCmds := j.killCmds ++ [m.id], clearAll := j.clearAll || all })
    lampReviews (killFrom c1 tag all))

/-- Windows of the cores of a partition close (R378). -/
def closeWindows (c : Chip) (p : Nat) : Chip := each (coresOf (part c p).bands) c (fun c i => onCore c i (fun k => { k with wins := [] }))

/-- RELEASE_PARTITION (R308, R377, R378): state 2, and every job that spans the partition is killed with CLEAR_ALL. -/
def releasePartition (m : Cmd) (c : Chip) : Chip :=
  let p := arg m 0x10 1
  let st := (part c p).state
  if (part c m.id.part).operator = false then final c m.id .denied
  else if p = m.id.part ∨ 16 ≤ p ∨ st = 0 ∨ st = 2 then final c m.id .invalidArg
  else
    let c1 := onPart (acceptCmd c m.id (cmdHandle m.id)) p (fun q => { q with state := 2, newTenant := BitVec.ofNat 32 (arg m 0x14 4), relCmd := some m.id })
    let hit := (c1.jobs.filter (fun j => j.2.place.parts.contains p)).map Prod.fst
    lampReviews (each hit (closeWindows c1 p) (fun c t => killFrom (onJob c t (fun j => { j with clearAll := true })) t true))

/-! Captures. -/

/-- Bytes that a capture of a package with `n` cores of the job needs (R380). -/
def captureSize (n : Nat) : Nat := 24576 + 2097408 * n

/-- ARM_CAPTURE (R379): each package of the job arms its own capture at the same device address; the others by the relayed command (log entry 52). -/
def armCapture (m : Cmd) (c : Chip) : Chip :=
  onJobTarget m c true (fun tag j c =>
    let a := arg m 0x10 8
    let n := arg m 0x18 8
    let need := captureSize j.place.maxCores
    if j.st = .loading then final c m.id .invalidArg
    else if !(isRelay m) && !(bufferOk c j.place.parts a n) then final c m.id .denied
    else if n < need then finalCmd c m.id .invalidArg need 0 0
    else onJob (doneCmd c m.id .ok need 0) tag (fun j => { j with capture := some ⟨m.id, a, n⟩ }))

/-- ARM_CAPTURE with DISARM (R379). -/
def disarm (m : Cmd) (c : Chip) : Chip :=
  onJobTarget m c true (fun tag j c =>
    if j.st = .loading then final c m.id .invalidArg
    else onJob (doneCmd c m.id .ok (captureSize j.place.maxCores) 0) tag (fun j => { j with capture := none }))

/-- The last 64 fault records of a job here, oldest first, in 4,096 B (R380). -/
def captureFaults (c : Chip) (tag : Nat) : List Byte :=
  let rs := (c.safe.faults.filter (fun r => field r.bytes 12 2 == tag)).map (fun r => r.bytes)
  let got := (rs.drop (rs.length - 64)).flatMap id
  (got ++ List.replicate 4096 0).take 4096

/-- A capture written whole (R380). -/
def writeCapture (e : Env) (c : Chip) (tag a : Nat) (j : Job) (s : Snap) : Chip :=
  let c1 := wr c a (captureHead c tag j s 1 ++ List.replicate 4064 0 ++ captureFaults c tag ++ s.body)
  each (jobCores j).zipIdx c1 (fun c x =>
    wr c (a + 24576 + 256 * (jobCores j).length + 2 ^ 21 * x.2) (rdBytes e c (Config.nearBase + x.1 * 2 ^ 21) (2 ^ 21)))

/-- A capture of which a write failed: which bytes arrived is open, so free bytes, beside STATUS 2 (log entry 4). -/
def writeBroken (c : Chip) (tag a : Nat) (j : Job) (s : Snap) : Chip :=
  let x := drawBytes c (captureSize (jobCores j).length - 32)
  wr x.2 a (captureHead c tag j s 2 ++ x.1)

/-- CAPTURE (R379, R380): the capture of a stopped job ends, and its arming with it. -/
def captureEnd (e : Env) (c : Chip) (tag : Nat) (failed : Bool) : Chip :=
  match tfind c.jobs tag with
  | none => c
  | some j =>
    match j.captureRun, j.capture with
    | some s, some b =>
      if linkWaits c b.addr then c
      else
      let c1 := if failed then writeBroken c tag b.addr j s else writeCapture e c tag b.addr j s
      onJob c1 tag (fun j => { j with capture := none, captureRun := none })
    | _, _ => c

/-! Clearing. -/

/-- Near scratchpads of cores. -/
def clearNear (c : Chip) (is : List Nat) : Chip := each is c (fun c i => clearRange c (Config.nearBase + i * 2 ^ 21) (2 ^ 21))

/-- Whether a declared range is cleared with its job (R373): key-value pool, plan area and prompt area always, the lookup map with CLEAR_ALL. -/
def clearedRange (all : Bool) (u : Serving) : Bool :=
  match u with
  | .kv _ _ _ => true | .plan _ _ => true | .prompt _ => true | .lookup _ => all | _ => false

/-- Store of a job that CLEAR_ALL clears beside its serving ranges (R373): weight sections, the cabinet, the host area. -/
def clearWeights (c : Chip) (j : Job) : Chip :=
  let c1 := each j.decl.tiles c (fun c g => clearRange (clearRange c g.base (g.tiles * tilePitch g.fmt)) g.hdr (if g.fmt ≤ 1 then 2 * g.tiles else 0))
  let c2 := each (jobCores j) c1 (fun c i => clearRange c (i * 2 ^ 24 + j.decl.cab.base) (j.decl.cab.drawers * j.decl.cab.span))
  clearRange c2 j.place.hostBase j.place.hostLen

/-- Buoys of a job cleared, its barrier groups empty (R373). -/
def clearSync (c : Chip) (tag : Nat) : Chip :=
  { c with buoys := c.buoys.map (fun b => if b.2.job = tag then (b.1, { b.2 with val := 0 }) else b), buoyq := c.buoyq.filter (fun o => o.m.job != tag)
           bars := c.bars.map (fun b => if b.2.job = tag then (b.1, { b.2 with phase := 0, arrived := [], rootAt := 0, fall := none }) else b) }

/-- Clearing of a job ends (R373, R374): its kill commands complete, a STOP_JOB with UNLOAD with the last committed tick. Fog on the ports it held is turned off where a partition of it is released. -/
def clearJob (c : Chip) (tag : Nat) : Chip :=
  match tfind c.jobs tag with
  | none => c
  | some j =>
    if j.clearing = false ∨ j.captureRun.isSome then c
    else
      let c1 := clearNear c (jobCores j)
      let c2 := each (j.decl.ranges.filter (fun r => clearedRange j.clearAll r.use)) c1 (fun c r => clearRange c r.lo r.len)
      let c3 := each (jobCores j) (clearSync c2 tag) (fun c i => onCore c i (fun _ => Core.idle))
      let c3 := if j.place.parts.any (fun p => (part c p).state == 2) then
          each (jobPorts j) c3 (fun c n => onPort c n (fun p => { p with fogTx := Fog.off, fogRx := Fog.off }))
        else c3
      let c4 := if j.clearAll then unload (clearWeights c3 j) tag else onJob c3 tag (fun j => { j with clearing := false, killCmds := [] })
      each j.killCmds c4 (fun c x => finalCmd c x .ok (if (findCmd c x).any (fun m => m.opcode == 5) then j.ticks.committed else 0) 0 0)

/-- Store slices of cores. -/
def clearSlices (c : Chip) (is : List Nat) : Chip := each is c (fun c i => clearRange c (i * 2 ^ 24) (2 ^ 24))

/-- What a partition had of the host die leaves it (R373, R378): rings, aperture windows, fog of its ports. -/
def clearHost (c : Chip) (p : Nat) : Chip :=
  { c with
    rings := c.rings.filter (fun r => r.1 / 256 != p)
    aper := c.aper.filter (fun w => !(bitOf w.2.toNat 4 && w.2.toNat % 16 == p))
    ports := c.ports.map (fun q => if q.2.partEn ∧ q.2.part = p then (q.1, { q.2 with fogTx := Fog.off, fogRx := Fog.off }) else q) }

/-- Clearing of a released partition ends once no job spans it (R370, R373, R377, R378). -/
def clearPart (c : Chip) (p : Nat) : Chip :=
  let q := part c p
  if q.state ≠ 2 ∨ c.jobs.any (fun j => j.2.place.parts.contains p) then c
  else
    let is := coresOf q.bands
    let c1 := clearSlices (clearNear c is) is
    let c2 := each ((c1.cmds.filter (fun m => m.id.part == p)).map (fun m => m.id)) c1 (fun c x => final c x .partitionKilled)
    let c3 := onPart (clearHost c2 p) p (fun q => { q with
      state := if q.newTenant = 0 then 0 else 1, tenant := q.newTenant, newTenant := 0, relCmd := none, catalog := 0, key := 0
      keyValid := false, signedOnly := false, seq := 1 })
    match q.relCmd with | some x => final c3 x .ok | none => c3

/-- CLEARING (R374): of a job, or of what a released partition has left once its jobs are gone. -/
def clearingEnd (c : Chip) (tag p : Nat) : Chip := lampReviews (clearPart (clearJob c tag) (p % 16))

/-! The rows. -/

/-- KILL_JOB (R372). -/
def execKillJob (id : CmdId) (s : State) := lift (fun _ c => withStarted c id 0x40 killJob) s
/-- RELEASE_PARTITION (R377). -/
def execReleasePartition (id : CmdId) (s : State) := lift (fun _ c => withStarted c id 0x41 releasePartition) s
/-- ARM_CAPTURE (R379). -/
def execArmCapture (v : Via) (s : State) := lift (fun _ c => withFlag c v 0x42 false armCapture) s
/-- DISARM (R379). -/
def execDisarm (v : Via) (s : State) := lift (fun _ c => withFlag c v 0x42 true disarm) s
/-- CAPTURE (R380). -/
def execCapture (t : Nat) (failed : Bool) (s : State) := lift (fun e c => captureEnd e c t failed) s
/-- CLEARING (R374). -/
def execClearing (t p : Nat) (s : State) := lift (fun _ c => clearingEnd c t p) s

end Sys2Proof.Machine
end

