-- ==== Sys2Proof/Machine/Dispatch.lean ====
section
/-! DEFINITION. One arm per command: a direct call of its meaning, or a refusal by name. -/

namespace Sys2Proof.Machine

def exec (i : Instr) (s : State) : Host.Outcome State Fault Refusal :=
  match i with
  | .loadProgram via blocks bars others => Sys2Proof.Machine.execLoadProgram via blocks bars others s
  | .loadImage id elastic => Sys2Proof.Machine.execLoadImage id elastic s
  | .swapLayers cmd => Sys2Proof.Machine.execSwapLayers cmd s
  | .startJob via others => Sys2Proof.Machine.execStartJob via others s
  | .stopJob via => Sys2Proof.Machine.execStopJob via s
  | .admitReq id => Sys2Proof.Machine.execAdmitReq id s
  | .append id => Sys2Proof.Machine.execAppend id s
  | .cancel id => Sys2Proof.Machine.execCancel id s
  | .query id => Sys2Proof.Machine.execQuery id s
  | .putAdapter cmd => Sys2Proof.Machine.execPutAdapter cmd s
  | .dropAdapter via => Sys2Proof.Machine.execDropAdapter via s
  | .trainAdapter via => Sys2Proof.Machine.execTrainAdapter via s
  | .putCodeTable via => Sys2Proof.Machine.execPutCodeTable via s
  | .withdraw via => Sys2Proof.Machine.execWithdraw via s
  | .setTick cmd => Sys2Proof.Machine.execSetTick cmd s
  | .setTickJob via => Sys2Proof.Machine.execSetTickJob via s
  | .killJob id => Sys2Proof.Machine.execKillJob id s
  | .releasePartition id => Sys2Proof.Machine.execReleasePartition id s
  | .armCapture via => Sys2Proof.Machine.execArmCapture via s
  | .disarm via => Sys2Proof.Machine.execDisarm via s
  | .fog id => Sys2Proof.Machine.execFog id s
  | .rangePair id partner => Sys2Proof.Machine.execRangePair id partner s
  | .rangePairStop id => Sys2Proof.Machine.execRangePairStop id s
  | .drillDown id partner => Sys2Proof.Machine.execDrillDown id partner s
  | .parkSession via => Sys2Proof.Machine.execParkSession via s
  | .resumeSession via => Sys2Proof.Machine.execResumeSession via s
  | .submissionDoorbell part ring value => Sys2Proof.Machine.execSubmissionDoorbell part ring value s
  | .consumerDoorbell part ring value => Sys2Proof.Machine.execConsumerDoorbell part ring value s
  | .descriptorFetch part ring => Sys2Proof.Machine.execDescriptorFetch part ring s
  | .fence part ring => Sys2Proof.Machine.execFence part ring s
  | .coalTime part ring => Sys2Proof.Machine.execCoalTime part ring s
  | .assign src n bands oper signedOnly keyValid => Sys2Proof.Machine.execAssign src n bands oper signedOnly keyValid s
  | .unassign src n bands oper signedOnly keyValid => Sys2Proof.Machine.execUnassign src n bands oper signedOnly keyValid s
  | .keyValid src n signedOnly => Sys2Proof.Machine.execKeyValid src n signedOnly s
  | .keyValidClear src n signedOnly => Sys2Proof.Machine.execKeyValidClear src n signedOnly s
  | .partCatalog src n value => Sys2Proof.Machine.execPartCatalog src n value s
  | .partAper src w value => Sys2Proof.Machine.execPartAper src w value s
  | .ringEnable src part ring value => Sys2Proof.Machine.execRingEnable src part ring value s
  | .ringDisable src part ring value => Sys2Proof.Machine.execRingDisable src part ring value s
  | .lighthouse src => Sys2Proof.Machine.execLighthouse src s
  | .standby src => Sys2Proof.Machine.execStandby src s
  | .member src => Sys2Proof.Machine.execMember src s
  | .beaconDomain src value => Sys2Proof.Machine.execBeaconDomain src value s
  | .beaconPkg src value => Sys2Proof.Machine.execBeaconPkg src value s
  | .beaconLead src value => Sys2Proof.Machine.execBeaconLead src value s
  | .statClear src cap => Sys2Proof.Machine.execStatClear src cap s
  | .maxCap src cap => Sys2Proof.Machine.execMaxCap src cap s
  | .safeCntClear src value => Sys2Proof.Machine.execSafeCntClear src value s
  | .arm src kind core tag => Sys2Proof.Machine.execArm src kind core tag s
  | .enterTestState src => Sys2Proof.Machine.execEnterTestState src s
  | .leaveTestState src => Sys2Proof.Machine.execLeaveTestState src s
  | .linkEnable src port value => Sys2Proof.Machine.execLinkEnable src port value s
  | .linkDisable src port value => Sys2Proof.Machine.execLinkDisable src port value s
  | .retrain src port => Sys2Proof.Machine.execRetrain src port s
  | .cntClear src port => Sys2Proof.Machine.execCntClear src port s
  | .mgmtLogSel src value => Sys2Proof.Machine.execMgmtLogSel src value s
  | .recoveryGo src => Sys2Proof.Machine.execRecoveryGo src s
  | .registerWrite src off size value => Sys2Proof.Machine.execRegisterWrite src off size value s
  | .hostAccess src addr size write => Sys2Proof.Machine.execHostAccess src addr size write s
  | .identity => Sys2Proof.Machine.execIdentity s
  | .getVersion => Sys2Proof.Machine.execGetVersion s
  | .getCapabilities => Sys2Proof.Machine.execGetCapabilities s
  | .negotiateAlgorithms => Sys2Proof.Machine.execNegotiateAlgorithms s
  | .getDigests => Sys2Proof.Machine.execGetDigests s
  | .getCertificate off len => Sys2Proof.Machine.execGetCertificate off len s
  | .challenge nonce => Sys2Proof.Machine.execChallenge nonce s
  | .getMeasurements index => Sys2Proof.Machine.execGetMeasurements index s
  | .inBandInterrupt => Sys2Proof.Machine.execInBandInterrupt s
  | .pwrgoodRise => Sys2Proof.Machine.execPwrgoodRise s
  | .pwrgoodFall => Sys2Proof.Machine.execPwrgoodFall s
  | .verifyBootImage img => Sys2Proof.Machine.execVerifyBootImage img s
  | .perstAssert => Sys2Proof.Machine.execPerstAssert s
  | .perstDeassert => Sys2Proof.Machine.execPerstDeassert s
  | .pcieLinkUp cxl => Sys2Proof.Machine.execPcieLinkUp cxl s
  | .apertureTimeout id => Sys2Proof.Machine.execApertureTimeout id s
  | .stackPowerUp stack => Sys2Proof.Machine.execStackPowerUp stack s
  | .stackSelfTestDone stack failCause => Sys2Proof.Machine.execStackSelfTestDone stack failCause s
  | .wave w => Sys2Proof.Machine.execWave w s
  | .ready => Sys2Proof.Machine.execReady s
  | .lampExit stack => Sys2Proof.Machine.execLampExit stack s
  | .lampTransitionDone stack => Sys2Proof.Machine.execLampTransitionDone stack s
  | .clockFault monitor value => Sys2Proof.Machine.execClockFault monitor value s
  | .voltageFault monitor value => Sys2Proof.Machine.execVoltageFault monitor value s
  | .thermalWarn monitor value => Sys2Proof.Machine.execThermalWarn monitor value s
  | .thermalTrip monitor value => Sys2Proof.Machine.execThermalTrip monitor value s
  | .originateMark => Sys2Proof.Machine.execOriginateMark s
  | .edgeMark port crossings m => Sys2Proof.Machine.execEdgeMark port crossings m s
  | .fireEdge => Sys2Proof.Machine.execFireEdge s
  | .plan m body => Sys2Proof.Machine.execPlan m body s
  | .lighthouseLost => Sys2Proof.Machine.execLighthouseLost s
  | .standbyTakeover => Sys2Proof.Machine.execStandbyTakeover s
  | .domainHalted => Sys2Proof.Machine.execDomainHalted s
  | .buoyOperation m => Sys2Proof.Machine.execBuoyOperation m s
  | .waitRelease core => Sys2Proof.Machine.execWaitRelease core s
  | .barrierArrival m => Sys2Proof.Machine.execBarrierArrival m s
  | .barrierRelease m => Sys2Proof.Machine.execBarrierRelease m s
  | .settle job => Sys2Proof.Machine.execSettle job s
  | .vote m => Sys2Proof.Machine.execVote m s
  | .voteTimeout job => Sys2Proof.Machine.execVoteTimeout job s
  | .progress job => Sys2Proof.Machine.execProgress job s
  | .verdict m => Sys2Proof.Machine.execVerdict m s
  | .hold job tick => Sys2Proof.Machine.execHold job tick s
  | .edgeAnnouncement m => Sys2Proof.Machine.execEdgeAnnouncement m s
  | .replayEdge job => Sys2Proof.Machine.execReplayEdge job s
  | .verdictQuery job => Sys2Proof.Machine.execVerdictQuery job s
  | .verdictQueryReceipt job tick attempt => Sys2Proof.Machine.execVerdictQueryReceipt job tick attempt s
  | .verdictAnswer m => Sys2Proof.Machine.execVerdictAnswer m s
  | .attemptDiscard job => Sys2Proof.Machine.execAttemptDiscard job s
  | .killMessage job clearAll => Sys2Proof.Machine.execKillMessage job clearAll s
  | .join port m => Sys2Proof.Machine.execJoin port m s
  | .locked => Sys2Proof.Machine.execLocked s
  | .signalLoss port => Sys2Proof.Machine.execSignalLoss port s
  | .signalAppears port => Sys2Proof.Machine.execSignalAppears port s
  | .trainingDone port t => Sys2Proof.Machine.execTrainingDone port t s
  | .trainingTimeout port t => Sys2Proof.Machine.execTrainingTimeout port t s
  | .frameDeparture port slot pick => Sys2Proof.Machine.execFrameDeparture port slot pick s
  | .dataFrame port slot f fecOk crc => Sys2Proof.Machine.execDataFrame port slot f fecOk crc s
  | .release port => Sys2Proof.Machine.execRelease port s
  | .controlWord port w => Sys2Proof.Machine.execControlWord port w s
  | .resend port slot => Sys2Proof.Machine.execResend port slot s
  | .linkRetry port seq => Sys2Proof.Machine.execLinkRetry port seq s
  | .beaconFrame port copy msg head job fecOk crc => Sys2Proof.Machine.execBeaconFrame port copy msg head job fecOk crc s
  | .remoteWrite w => Sys2Proof.Machine.execRemoteWrite w s
  | .shelfWrite w => Sys2Proof.Machine.execShelfWrite w s
  | .remoteRead r => Sys2Proof.Machine.execRemoteRead r s
  | .scrub near row upset => Sys2Proof.Machine.execScrub near row upset s
  | .scrubWriteBack word => Sys2Proof.Machine.execScrubWriteBack word s
  | .storeLate => Sys2Proof.Machine.execStoreLate s
  | .nearLate => Sys2Proof.Machine.execNearLate s
  | .sectionVerified id inp => Sys2Proof.Machine.execSectionVerified id inp s
  | .layerRewrite job part => Sys2Proof.Machine.execLayerRewrite job part s
  | .fill job part => Sys2Proof.Machine.execFill job part s
  | .inputCopy entry => Sys2Proof.Machine.execInputCopy entry s
  | .appendCopy id => Sys2Proof.Machine.execAppendCopy id s
  | .parkCopy id => Sys2Proof.Machine.execParkCopy id s
  | .resumeCopy id => Sys2Proof.Machine.execResumeCopy id s
  | .trainedParameterWrite job verified => Sys2Proof.Machine.execTrainedParameterWrite job verified s
  | .capture job writeFailed => Sys2Proof.Machine.execCapture job writeFailed s
  | .clearing job part => Sys2Proof.Machine.execClearing job part s
  | .digest job tick value => Sys2Proof.Machine.execDigest job tick value s
  | .rangePairTimeout job => Sys2Proof.Machine.execRangePairTimeout job s
  | .longWord ctx agree => Sys2Proof.Machine.execLongWord ctx agree s
  | .take core x => Sys2Proof.Machine.execTake core x s
  | .credit ctx => Sys2Proof.Machine.execCredit ctx s
  | .queueStall core queue => Sys2Proof.Machine.execQueueStall core queue s
  | .mnop core arr => Sys2Proof.Machine.execMnop core arr s
  | .mload core arr => Sys2Proof.Machine.execMload core arr s
  | .muse core arr => Sys2Proof.Machine.execMuse core arr s
  | .mouter core arr => Sys2Proof.Machine.execMouter core arr s
  | .mdrain core arr => Sys2Proof.Machine.execMdrain core arr s
  | .mmerge core arr => Sys2Proof.Machine.execMmerge core arr s
  | .vnop core => Sys2Proof.Machine.execVnop core s
  | .vchain core => Sys2Proof.Machine.execVchain core s
  | .vprog core => Sys2Proof.Machine.execVprog core s
  | .vred core => Sys2Proof.Machine.execVred core s
  | .vperm core => Sys2Proof.Machine.execVperm core s
  | .vdraw core => Sys2Proof.Machine.execVdraw core s
  | .vflag core => Sys2Proof.Machine.execVflag core s
  | .vtest core => Sys2Proof.Machine.execVtest core s
  | .bnop core => Sys2Proof.Machine.execBnop core s
  | .set core => Sys2Proof.Machine.execSet core s
  | .add core => Sys2Proof.Machine.execAdd core s
  | .wait core => Sys2Proof.Machine.execWait core s
  | .testAndSet core => Sys2Proof.Machine.execTestAndSet core s
  | .clear core => Sys2Proof.Machine.execClear core s
  | .barrier core => Sys2Proof.Machine.execBarrier core s
  | .snop core => Sys2Proof.Machine.execSnop core s
  | .sbind core => Sys2Proof.Machine.execSbind core s
  | .sshelf core => Sys2Proof.Machine.execSshelf core s
  | .smove core => Sys2Proof.Machine.execSmove core s
  | .hostTierMoveDone core => Sys2Proof.Machine.execHostTierMoveDone core s
  | .programLoaded job verified => Sys2Proof.Machine.execProgramLoaded job verified s
  | .configurationRequest => Sys2Proof.Machine.execConfigurationRequest s
  | .setdasa addr => Sys2Proof.Machine.execSetdasa addr s
  | .boundaryScan op => Sys2Proof.Machine.execBoundaryScan op s

end Sys2Proof.Machine
end

