-- ==== Sys2Proof/Machine/Cycle.lean ====
section
/-! DEFINITION. What a core does in one cycle: the acts of its slots in flight, the banks and the bundle they meet in, arrivals, its arrays (03_memory.md R63-R76; 07_matrix.md R160-R173; 08_vector.md R183; 09_keeper.md R237). -/

namespace Sys2Proof.Machine

/-! Acts that fall due. -/

/-- Whether operand 0 of a slot in flight is a blocks stream that the expander decodes (R121). -/
def fromExpander (f : Flight) : Bool :=
  decide (f.eng ≤ 1) && ((opOf f.slot.w == 1 && sf f.slot.w 53 52 == 1) || (opOf f.slot.w == 2 && sf f.slot.w 26 25 == 1))

/-- Format in which the expander decodes for a slot (R121): with an AFMT that is neither BF16 nor binary16 the spec names no decoding, and the model decodes as BF16 (log entry 62). -/
def expandFmt (f : Flight) : Nat := let x := sf f.slot.w 57 54; if 2 ≤ x then 0 else x

/-- Reads of the indices that elements k to k + n − 1 of a gather destination need (R232), made in the cycle of the write. -/
def indexActs (f : Flight) (o k n : Nat) : List Act :=
  match f.ops[o]? with
  | some x => if x.ix.isSome then (readsOf f.ops o 0 k n).dropLast.map Todo.act else []
  | none => []

/-- The acts of a slot that are due, the indices a write needs before it; the second cycle of partial writes comes first. -/
def dueActs (f : Flight) (now : Nat) : List Act :=
  let due := (f.todo.filter (fun t => decide (t.at_ ≤ now))).map Todo.act
  due.filter (fun a => match a with | .land _ => true | _ => false) ++ due.flatMap (fun a => match a with
    | .write o k codes => indexActs f o k codes.length ++ [a]
    | .writeMx o k n _ => indexActs f o k n ++ [a]
    | .part o k _ _ codes => indexActs f o k codes.length ++ [a]
    | .land _ => []
    | .calc _ => []
    | .stay => []
    | a => [a])

/-- The accesses of a core in a cycle, engines in slot order (R68), older slots first. -/
def coreActs (k : Core) (now : Nat) : List (Flight × Act) :=
  [0, 1, 2, 3].flatMap (fun e => (k.flights.filter (fun f => f.eng == e)).flatMap (fun f => (dueActs f now).map (fun a => (f, a))))

/-! Waits. -/

/-- Whether a move waits for what the network brings it (R65, R66): the source elements of a read that is due have not all come. -/
def sourceWaits (c : Chip) (i : Nat) (f : Flight) : Bool :=
  f.eng == engS &&
    (match coreJob c i, f.ops[0]? with
      | some j, some o => f.todo.any (fun t => decide (t.at_ ≤ c.now) && (match t.act with | .read 0 k n => !(backReady c j i f o k n) | _ => false))
      | _, _ => false)

/-- The reads of a move that are due come one cycle later. -/
def holdReads (now : Nat) (f : Flight) : Flight :=
  { f with todo := f.todo.map (fun t => match t.act with | .read 0 _ _ => if t.at_ ≤ now then { t with at_ := now + 1 } else t | _ => t) }

/-- Cycles from now on, `d` later. -/
def later (now d : Nat) (l : List Nat) : List Nat := l.map (fun x => if now < x then x + d else x)

/-- The reads of a slot come `d` cycles later, and what was to come of them: the groups of a load, the fills of a use, the unit that it occupies (R63, R126, R167, R233). -/
def delayFlight (c : Chip) (i d : Nat) (f : Flight) : Chip :=
  let now := c.now
  let more := fun (t : Nat) => if now < t then t + d else t
  let c1 := onFlight c i f.id (fun f => { delayActs now d f with carry := if f.eng ≤ 1 ∧ (opOf f.slot.w = 2 ∨ opOf f.slot.w = 3) then later now d (f.carry.headD []) :: f.carry.tail else f.carry })
  if f.eng = engS then onCore c1 i (fun k => { k with moveReady := more k.moveReady })
  else if f.eng = engV then onCore c1 i (fun k => { k with vReady := more k.vReady })
  else if opOf f.slot.w = 1 then onArr c1 i f.eng (fun a => { a with loads := a.loads.map (fun l => if l.tile = f.tile then { l with hand := later now d l.hand } else l) })
  else c1

/-- Whether a fill of the next cycle finds its feeder queues full (R167): it waits, and the transfer that supplies it. -/
def fillWaits (k : Core) (now : Nat) (f : Flight) : Bool :=
  decide (f.eng ≤ 1) && (opOf f.slot.w == 2 || opOf f.slot.w == 3) && (f.carry.headD []).any (fun x => x == now + 1) && queuesFull k f.eng now

/-- Slots that cannot go on in this cycle (R65, R66, R167): what is due comes one cycle later; a full feeder holds the expander that fills it. -/
def holdBack (c : Chip) (i : Nat) : Chip :=
  each (core c i).flights c (fun c f =>
    if sourceWaits c i f then onCore (onFlight c i f.id (holdReads c.now)) i (fun k => { k with moveReady := if c.now < k.moveReady then k.moveReady + 1 else k.moveReady })
    else if fillWaits (core c i) c.now f then
      let c1 := delayFlight c i 1 f
      if fromExpander f then onCore c1 i (fun k => { k with xRead := if c.now < k.xRead then k.xRead + 1 else k.xRead, xPrev := if c.now < k.xPrev then k.xPrev + 1 else k.xPrev }) else c1
    else c)

/-! Accesses. -/

/-- The byte writes of an act. -/
def actWrites (e : Env) (c : Chip) (j : Job) (i : Nat) (f : Flight) (a : Act) : List (Nat × List Byte) :=
  match a with
  | .write o k codes => match f.ops[o]? with | some x => codeWrites e c j i f x k codes | none => []
  | .writeMx o k n bs => match f.ops[o]? with | some x => mxWrites e c j i f x k n bs | none => []
  | .part o k lo n codes => match f.ops[o]? with | some x => partWrites c j i f x k lo n codes | none => []
  | .land ws => ws
  | .beat b => beatWrites c j i f b
  | _ => []

/-- Whether an act reads. -/
def isRead : Act → Bool
  | .read _ _ _ => true
  | .fetch _ => true
  | .lines _ _ _ => true
  | .row _ _ => true
  | .heads _ _ => true
  | _ => false

/-- Whether operand 0 of a slot is not read by its own act: it comes from the expander, or over the network. -/
def elsewhere (c : Chip) (j : Job) (i : Nat) (f : Flight) (k n : Nat) : Bool :=
  fromExpander f || (f.eng == engS && (match f.ops[0]? with | some x => (List.range n).any (fun t => byNetwork c j i x (placeOf j i f x (k + t))) | none => false))

/-- Lines of 64 B that an act moves (R63, R67). -/
def actLines (e : Env) (c : Chip) (i : Nat) (f : Flight) (a : Act) : List Nat :=
  match coreJob c i with
  | none => []
  | some j =>
    let touches := fun (o k n : Nat) => match f.ops[o]? with | some x => readTouches c j i f x k n | none => []
    match a with
    | .read 0 k n => if elsewhere c j i f k n then [] else touches 0 k n
    | .read o k n => touches o k n
    | .fetch b =>
      let k := sourceCut f.slot.w b
      let n := sourceCut f.slot.w (b + 1) - k
      if elsewhere c j i f k n then [] else touches 0 k n
    | .lines o k n => match f.ops[o]? with | some x => (blockLacks c j i x k n).take 4 | none => []
    | .row x _ => [x / 64]
    | .heads x _ => [x / 64]
    | _ => distinct ((actWrites e c j i f a).flatMap (fun w => (List.range (w.2.length / 64 + 2)).filterMap (fun t =>
        if (w.1 / 64 + t) * 64 < w.1 + w.2.length then some (w.1 / 64 + t) else none)))

/-- Rows of the core's own slice that an act takes (R63): a store row holds four lines. -/
def actRows (i : Nat) (a : Act) (ls : List Nat) : Nat :=
  match a with
  | .row x n => if x % 256 + 64 * n ≤ 256 then 1 else 2
  | .heads x n => if x % 256 + 2 * n ≤ 256 then 1 else 2
  | _ => (distinct ((ls.filter (fun l => inSlice i (l * 64))).map (· / 4))).length

/-- The read of an act takes place; bytes of banks `lost` read as zero (R68). `more`: further cycles that the bundle takes for it. -/
def doRead (e : Env) (c : Chip) (i : Nat) (f0 : Flight) (lost : List Nat) (more : Nat) (a : Act) : Chip :=
  match a with
  | .row x n => rowAct c i f0 x n
  | .heads x n => headsAct c i f0 x n
  | .fetch b => fetchAct e c i f0 lost more b
  | .lines o k n => match coreJob c i, f0.ops[o]? with
    | some j, some x => linesAct e c i f0 lost o k n ((blockLacks c j i x k n).take 4)
    | _, _ => c
  | .read o k n =>
    if o = 0 ∧ fromExpander f0 = true then blockAct e c i f0 (expandFmt f0) k
    else if o = 0 ∧ f0.eng = engS then netAct e c i f0 lost k n
    else readAct e c i f0 lost o k n
  | _ => c

/-- The write of an act takes place, with its faults. -/
def doWrite (e : Env) (c : Chip) (i : Nat) (f0 : Flight) (lost : List Nat) (a : Act) : Chip :=
  match coreJob c i, flightOf (core c i) f0.id with
  | some j, some f =>
    match a with
    | .land ws => each (ws.filter (fun w => !(inNear i w.1 && lost.contains (bankOf w.1)))) c (fun c w => wr c w.1 w.2)
    | .beat b => beatAct c i f lost b
    | .write o k codes => match f.ops[o]? with
      | some x => landWrites (writeFaults c j i f x ((spots j i f x k codes).map Prod.snd)) i f.id lost (codeWrites e c j i f x k codes)
      | none => c
    | .part o k lo n codes => match f.ops[o]? with
      | some x => landWrites (writeFaults c j i f x ((spots j i f x k codes).map Prod.snd)) i f.id lost (partWrites c j i f x k lo n codes)
      | none => c
    | .writeMx o k n bs => match f.ops[o]? with
      | some x => landWrites (writeFaults c j i f x ((List.range n).map (fun t => placeOf j i f x (k + t)))) i f.id lost (mxWrites e c j i f x k n bs)
      | none => c
    | _ => c
  | _, _ => c

/-- What a core has done in a cycle so far: the chip, the banks whose program ports are taken and by which engines, the writes to come with the banks they lose, the slots whose reads wait. -/
structure Round where
  chip : Chip
  ports : List (Nat × Nat)
  later : List (Flight × List Nat × Act)
  held : List Nat

/-- A due act of a slot leaves its list. -/
def takeAct (c : Chip) (i id : Nat) (a : Act) : Chip :=
  onFlight c i id (fun f => { f with todo := match f.todo.find? (fun t => t.act == a && decide (t.at_ ≤ c.now)) with | some t => f.todo.erase t | none => f.todo })

/-- A due write of a slot comes one cycle later. -/
def putOff (c : Chip) (i id : Nat) (a : Act) : Chip :=
  onFlight c i id (fun f => { f with todo := f.todo.map (fun t => if t.act = a ∧ t.at_ ≤ c.now then { t with at_ := c.now + 1 } else t) })

/-- Whether a beat lacks elements that its bytes are of: the read that brings them has been held. -/
def beatLacks (f : Flight) (a : Act) : Bool :=
  match a with
  | .beat b =>
    let need := if sf f.slot.w 44 43 = 0 ∧ sf f.slot.w 42 41 = 0 then (beatSpan f.slot.w b).1 + (beatSpan f.slot.w b).2 else sourceCut f.slot.w (b + 1)
    (match f.ops[0]? with | some o => decide (o.base + o.got.length < need) | none => false)
  | _ => false

/-- Whether an act is a read of a transposed operand whose block the buffer does not hold: its lines are read first (R233). -/
def fillsBuffer (c : Chip) (i : Nat) (f : Flight) (a : Act) : Bool :=
  match a, coreJob c i with
  | .read o k n, some j => (match f.ops[o]? with | some x => !(blockLacks c j i x k n).isEmpty | none => false)
  | _, _ => false

/-- An access takes its program ports, or loses them to one before it (R67, R68): a read takes place, a write waits until the arrivals of the cycle have landed (R71). -/
def takeBanks (e : Env) (i : Nat) (r : Round) (f : Flight) (a : Act) : Round :=
  let c := r.chip
  let ls := actLines e c i f a
  let rows := actRows i a ls
  let banks := distinct ((ls.filter (fun l => inNear i (l * 64))).map (fun l => bankOf (l * 64)))
  let lost := banks.filter (fun b => r.ports.any (fun q => q.1 == b))
  let c1 := match lost.head? with
    | some b => flightFault c i f.eng f .bankConflict 0 b ((r.ports.filter (fun q => q.1 == b)).foldl (fun n q => n ||| 2 ^ q.2) (2 ^ f.eng))
    | none => c
  let c2 := takeAct (if rows = 0 then c1 else onCore c1 i (fun k => { k with bundle := c.now + rows })) i f.id a
  let ports := r.ports ++ (banks.filter (fun b => !(lost.contains b))).map (fun b => (b, f.eng))
  if isRead a then
    let c3 := doRead e c2 i f lost (rows - 1) a
    ⟨if 1 < rows then delayFlight c3 i (rows - 1) f else c3, ports, r.later, r.held⟩
  else ⟨c2, ports, r.later ++ [(f, lost, a)], r.held⟩

/-- One due access of a core: it waits for the reads of its slot before it, for the bundle (R63), for the transpose buffer (R233), or takes place. -/
def takePorts (e : Env) (i : Nat) (r : Round) (p : Flight × Act) : Round :=
  let c := r.chip
  let f := (flightOf (core c i) p.1.id).getD p.1
  let wait := fun (c : Chip) (d : Nat) => (⟨delayFlight c i d f, r.ports, r.later, f.id :: r.held⟩ : Round)
  if isRead p.2 && r.held.contains f.id then r
  else
    let hold := match p.2 with | .fetch b => fetchHold c i f b | _ => 0
    if 0 < hold then wait (onFlight c i f.id (fun f => { f with carry := [[0], [0]] })) hold
    else if beatLacks f p.2 then { r with chip := putOff c i f.id p.2 }
    else if fillsBuffer c i f p.2 then
      match p.2 with
      | .read o k n =>
        let r1 := takeBanks e i r f (.lines o k n)
        ⟨delayFlight r1.chip i 1 f, r1.ports, r1.later, f.id :: r1.held⟩
      | _ => r
    else if actRows i p.2 (actLines e c i f p.2) ≠ 0 ∧ c.now < (core c i).bundle then
      (if isRead p.2 then wait c 1 else { r with chip := putOff c i f.id p.2 })
    else takeBanks e i r f p.2

/-! Computation. -/

/-- A unit of a slot whose elements have been read. -/
def doCalc (c : Chip) (i : Nat) (f0 : Flight) (u : Nat) : Chip :=
  match flightOf (core c i) f0.id with
  | none => c
  | some f =>
    if f.eng = engV then vCalc c i f u
    else if opOf f.slot.w = 1 then loadCalc c i f
    else if opOf f.slot.w = 5 then mergeCalc c i f u
    else c

/-- Units that fall due; records that must wait for the drain hold their slot and its array (R162). -/
def doCalcs (c : Chip) (i : Nat) : Chip :=
  each (core c i).flights c (fun c f =>
    each (f.todo.filter (fun t => decide (t.at_ ≤ c.now))) c (fun c t => match t.act with
      | .calc u =>
        if f.eng ≤ 1 ∧ opOf f.slot.w = 5 ∧ mergeWaits (core c i) f u = true then
          onArr (onFlight c i f.id (fun g => { g with todo := g.todo.map (fun y => if (match y.act with | .calc _ => true | _ => false) && decide (c.now ≤ y.at_) then { y with at_ := y.at_ + 1 } else y) })) i f.eng
            (fun a => { a with ready := a.ready + 1 })
        else doCalc c i f u
      | _ => c))

/-! Window bypass (R167). -/

/-- Whether a window of a core holds two addresses. -/
def sameWindow (k : Core) (i now a b : Nat) : Bool :=
  k.wins.any (fun p =>
    let w := winSee p.2 now
    let at_ := fun (x : Nat) => if w.region then inSlice i x && decide (w.base * 64 ≤ x % 2 ^ 24) && decide (x % 2 ^ 24 < w.limit * 64)
      else inNear i x && decide (w.base * 64 ≤ nearOff x) && decide (nearOff x < w.limit * 64)
    w.isOpen && at_ a && at_ b)

/-- Elements of the bytes that a bypass use has taken: packed vectors of `len` elements (R135; log entry 51). -/
def bypassElems (w : Nat) (mx : Option Nat) (len : Nat) (bs : List Byte) : List Opnd :=
  match mx with
  | none => (unpackBits w (bs.length * 8 / w) bs).map (fun x => (⟨x, none, none⟩ : Opnd))
  | some _ =>
    let sc := cdiv len 32
    let size := sc + cdiv (len * w) 8
    (List.range (bs.length / size)).flatMap (fun v =>
      let b := bs.drop (v * size)
      (unpackBits w len (b.drop sc)).zipIdx.map (fun x => (⟨x.1, some (field b (x.2 / 32) 1), none⟩ : Opnd)))

/-- Bytes that land in a window go to the oldest use that takes its lines (R167). -/
def bypassFeed (c : Chip) (i a : Nat) (bs : List Byte) : Chip :=
  let k := core c i
  let open_ := fun (f : Flight) => decide (f.eng ≤ 1) && bypass f && decide ((f.ops.headD ⟨0, Bind.none, 1, none, .own, none, none, [], 0, []⟩).got.length < feedLen (arrOf k f.eng) f * sf f.slot.w 38 32) &&
    (match f.ops[0]? with | some o => sameWindow k i c.now (parseDesc o.bind.desc).base a | none => false)
  match k.flights.find? open_ with
  | none => c
  | some f => onFlight c i f.id (fun f => match f.ops[0]? with
    | none => f
    | some o =>
      let raw := (match o.lines with | p :: _ => p.2 | [] => []) ++ bs
      { f with ops := f.ops.set 0 { o with lines := [(0, raw)], got := bypassElems o.w o.mx (feedLen (arrOf k f.eng) f) raw } })

/-! The end of a slot. -/

/-- Whether something of an array is still to happen for a slot. -/
def inArray (k : Core) (id : Nat) : Bool :=
  [k.a0, k.a1].any (fun a => a.wave.any (fun v => v.fl == id) || a.drains.any (fun d => d.fl == id))

/-- Whether a slot in flight has nothing left to do: `stay` in cycle 0 marks a slot that its array ends. -/
def flightDone (k : Core) (now : Nat) (f : Flight) : Bool :=
  f.todo.all (fun t => match t.act with | .stay => decide (t.at_ ≤ now) | _ => false) && !(inArray k f.id)

/-- Acts that are done leave; slots with nothing left to do retire, each with the record of what it wrote (R229, R347). -/
def endFlights (c : Chip) (i : Nat) : Chip :=
  let c1 := onCore c i (fun k => { k with flights := k.flights.map (fun f => { f with todo := f.todo.filter (fun t => t.act == .stay || decide (c.now < t.at_)) }) })
  let k := core c1 i
  let gone := k.flights.filter (flightDone k c.now)
  if gone = [] then c1
  else
    let c2 := each gone c1 (fun c f => addRecord c i f.eng f.slot.lw f.ord f.out)
    onCore c2 i (fun k => { k with flights := k.flights.filter (fun f => !(gone.any (fun g => g.id == f.id))), retireAt := max k.retireAt c.now })

/-! A cycle. -/

/-- Whether something happens at a core without a command. -/
def coreBusy (k : Core) : Bool :=
  k.flights != [] || k.eject != [] || k.remq != [] || k.replies != [] || k.used != 0 ||
    [k.a0, k.a1].any (fun a => a.wave != [] || a.loads != [] || a.drains != [] || a.frozeAt.isSome)

/-- Whether the state of a session of a job is being copied out or in (R111). -/
def copying (c : Chip) (tag : Nat) : Bool :=
  c.sides.any (fun s => (c.reqs.any (fun q => q.1 == s.1 && q.2.job == tag)) && ((s.2.parkCmd.isSome && !s.2.parkCopied) || (s.2.resuming && !s.2.copied)))

/-- Whether service work waits for the slice of a core (R86): scrub that is behind its pace, clearing, loads, swaps, fills, and the copies of sessions that park or resume. Accesses of the host aperture are served whole by their commands. -/
def serviceWaits (c : Chip) (i : Nat) : Bool :=
  decide (c.boot.stacksUp.getLsbD (i / 256) = true ∧ 0 < rowsBehind c false) ||
  c.jobs.any (fun p => p.2.place.bands.getLsbD (bandOf i) &&
    (p.2.clearing || p.2.wts.loads != [] || p.2.wts.swap.isSome || p.2.wts.drawers.any (fun d => d.2.st == .filling) || copying c p.1))

/-- The end of a block of 1,024 cycles (R85, R86): where service work waited and had too few cycles, the block is counted. -/
def blockEnd (c : Chip) (i : Nat) : Chip :=
  if (c.now + 1) % 1024 ≠ 0 then c
  else
    let short := match coreJob c i with
      | some j => decide (1024 < (core c i).used + j.hdr.reserve) && serviceWaits c i
      | none => false
    let c1 := onCore c i (fun k => { k with used := 0 })
    if short then { c1 with safe := { c1.safe with short := satAdd 32 c1.safe.short 1 } } else c1

/-- Whether bytes at the head of the ejection port are for a use that takes the lines of their window as they land, and its feeder queues are full (R167): the port waits. -/
def bypassFull (c : Chip) (i : Nat) : Bool :=
  let k := core c i
  match k.eject with
  | a :: _ =>
    let at_ := match a.what with | .write w _ _ => some (w.addr + a.done) | .piece x _ _ => some (x + a.done) | _ => none
    (match at_ with
      | some x => k.flights.any (fun f => bypass f && queuesFull k f.eng c.now && (match f.ops[0]? with | some o => sameWindow k i c.now (parseDesc o.bind.desc).base x | none => false))
      | none => false)
  | [] => false

/-- One cycle of a core (R65-R76): its program reads, then arrivals and the remote queue, then its program writes (R71), its arrays, and the slots that end. -/
def coreCycle (e : Env) (c : Chip) (i : Nat) : Chip :=
  let c0 := holdBack c i
  let r := (coreActs (core c0 i) c.now).foldl (takePorts e i) ⟨c0, [], [], []⟩
  let c1 := doCalcs r.chip i
  let x := if bypassFull c1 i then (c1, none) else ejectBeat c1 i
  let c2 := match x.2 with | some l => bypassFeed x.1 i l.1 l.2 | none => x.1
  let c3 := if c.now < (core c2 i).bundle then onCore c2 i (fun k => { k with used := k.used + 1 }) else serveRemote e c2 i
  let c4 := each r.later (sendReplies c3 i) (fun c w => doWrite e c i w.1 w.2.1 w.2.2)
  let c5 := arrayCycle (arrayCycle c4 i 0) i 1
  blockEnd (endFlights c5 i) i

/-- One cycle of CCLK: words that arrive are checked, every core with something in hand has its cycle, then the buoys and barriers, then the done buoys; the clock advances. -/
def closeCycle (e : Env) (c : Chip) : Chip :=
  let c0 := each ((c.cores.filter (fun p => p.2.fifo.any (fun w => decide (w.arrive ≤ c.now) && !w.checked))).map Prod.fst) c arriveWords
  let c1 := each ((c0.cores.filter (fun p => coreBusy p.2)).map Prod.fst) c0 (coreCycle e)
  let c2 := each ((c1.cores.filter (fun p => p.2.ended && !p.2.doneSaid)).map Prod.fst) (syncTurn c1) sayDone
  { c2 with now := c2.now + 1 }

end Sys2Proof.Machine
end

