-- ==== Sys2Proof/Machine/Idle.lean ====
section
/-! DEFINITION. What passes in one cycle when no command waits (log entry 1). -/

namespace Sys2Proof.Machine

/-- Votes held for an attempt whose predecessor has committed decide it in a later cycle than that commit (R47). -/
def decideHeld (e : Env) (c : Chip) : Chip :=
  each ((c.jobs.filter (fun p => jobRunning p.2 && p.2.ticks.votes != [] && p.2.ticks.commitAt.isSome)).map Prod.fst) c (decide2 e)

/-- One cycle of CCLK: Beacon messages are released, the slots of the ports that begin send their words, the cores and the base dies have their cycle, and held votes decide. -/
def cycle (e : Env) (c : Chip) : Chip := decideHeld e (closeCycle e (slotWords e (releaseMsgs e c)))

def idle (s : State) : Host.Outcome State Fault Refusal := lift cycle s

end Sys2Proof.Machine
end

