-- ==== Sys2Proof/Safety.lean ====
section
/-! DEFINITION. The terms that statements use: a state between commands, the invariant of every step, a state with a new chip, a started command and its target, a state in which a cycle does little. -/

namespace Sys2Proof.Machine

/-- Between commands: no write, no cleared range and no fault of a command is left in hand. -/
abbrev State.quiet (s : State) : Prop := s.chip.writes = [] ∧ s.chip.clears = [] ∧ s.chip.raised = []

/-- What every step keeps: memory in its canonical form, nothing left in hand. -/
abbrev State.inv (s : State) : Prop := s.mem.wf = true ∧ s.quiet

/-- The same fuses, memory and queue with another chip. -/
def State.put (s : State) (c : Chip) : State := { s with chip := c }

/-- The state after a meaning has made the chip `c`: its faults are settled, then its clears and writes reach memory. -/
def State.after (s : State) (c : Chip) : State :=
  { s with mem := memAfter s.mem (settleFaults s.env c), chip := (settleFaults s.env c).rest }

/-- The byte at a device address. -/
def State.byte (s : State) (a : Nat) : Byte := s.mem.read a

/-- A set-up register may be written by a machine-mode hart or the I3C port (18_registers.md R407, class M). -/
abbrev MachineSrc (x : Src) : Prop := x = .m ∨ x = .i3c

/-- A source at the I3C port finds the port awake (00_scope.md R6, 17_power.md R404). -/
abbrev I3cUp (s : State) (x : Src) : Prop := x = .i3c → i3cAwake s.chip = true

/-- A machine-mode or supervisor-mode hart (R407, class H). -/
abbrev HartSrc (x : Src) : Prop := x = .m ∨ x = .s

/-- `m` is the started command `id` with an opcode: fetched, past its fence, its turn come, not yet answered (R295, R303, R304). -/
abbrev Started (s : State) (id : CmdId) (op : Nat) (m : Cmd) : Prop :=
  findCmd s.chip id = some m ∧ m.phase = .started ∧ m.opcode = op ∧ inTurn s.chip m = true

/-- The command's target is job `j` with tag `t` of the fetching partition, led by this package (R296, R308). -/
abbrev Aimed (s : State) (m : Cmd) (t : Nat) (j : Job) : Prop :=
  jobOf s.chip m.target = some (t, j) ∧ j.place.parts.contains m.id.part = true ∧ isLead s.chip j = true

/-- The command's target is request entry `i` of job `j`, led by this package (R296, R308). -/
abbrev AimedReq (s : State) (m : Cmd) (i : Nat) (r : Req) (j : Job) : Prop :=
  hKind m.target = 1 ∧ reqOf s.chip m.target = some (i, r) ∧ tfind s.chip.jobs r.job = some j ∧ j.place.parts.contains m.id.part = true ∧
    isLead s.chip j = true

/-- The head of queue `q` of core `i` may issue now, its engine is present, and its opcode is `op` (R225, R262). -/
abbrev Head (s : State) (i : Nat) (q : Queue) (sl : QSlot) (op : Nat) : Prop :=
  headNow s.chip i q = some sl ∧ enginePresent s.env s.chip i q = true ∧ opOf sl.w = op

/-- The predicate of a V, S, B or C slot, bits [57:55], is true now (R227). -/
abbrev Enabled (s : State) (i : Nat) (sl : QSlot) : Prop := predOf (core s.chip i) s.chip.now (sf sl.w 57 55) = true

/-- No stream of a slot is held by another slot (R234). -/
abbrev Claimed (s : State) (i n : Nat) (sids : List Nat) : Prop := (claim s.chip i 0 0 n sids).1 = true

/-- In the coming cycle no Beacon message is released, and at no open port a slot begins that no frame takes (R316, R320, R322). -/
abbrev State.linksStill (s : State) : Prop :=
  (∀ h ∈ s.chip.beacon.held, s.chip.now < h.at_) ∧
    ∀ n < 16, portOpen s.env s.chip n = true →
      slotTime s.chip n (slotFrom s.chip n s.chip.now) ≠ s.chip.now ∨
        (tget Port.reset s.chip.ports n).grid = (slotOrigin s.chip n, slotFrom s.chip n s.chip.now + 1)

/-- No command waits, and in the coming cycle nothing happens of itself but at the cores of `l`, in that order, at the buoys and at the barriers that fall. -/
abbrev State.onlyBusy (s : State) (l : List Nat) : Prop :=
  s.pending = [] ∧ s.linksStill ∧ (s.chip.cores.filter (fun p => coreBusy p.2)).map Prod.fst = l ∧
    (∀ p ∈ s.chip.cores, (∀ w ∈ p.2.fifo, w.checked = true) ∧ (p.2.ended = true → p.2.doneSaid = true) ∧ p.2.bFree = none) ∧
    (∀ q ∈ s.chip.jobs, q.2.ticks.votes = [])

/-- No buoy operation is under way and no barrier is about to fall. -/
abbrev State.syncStill (s : State) : Prop := s.chip.buoyq = [] ∧ ∀ b ∈ s.chip.bars, b.2.fall = none

/-- An array with no vector, load row, drain or frozen cycle in hand. -/
abbrev MArray.still (a : MArray) : Prop := a.wave = [] ∧ a.loads = [] ∧ a.drains = [] ∧ a.frozeAt = none

/-- Nothing goes on at a core but what waits at its ejection port or in the remote queue of its slice, and its bundle is free. -/
abbrev Core.still (k : Core) (now : Nat) : Prop := k.flights = [] ∧ k.replies = [] ∧ k.a0.still ∧ k.a1.still ∧ k.bundle ≤ now

end Sys2Proof.Machine
end

