-- ==== Sys2Proof/Certificates/Slice0/Obligations.lean ====
section
/-! DEFINITION. The statements about the model, for the provers; each docstring names the rules of spec/ it formalises. -/

open Sys2Proof Sys2Proof.Machine

/-! The step. -/

/-- With command `c` at the front of its queue, a step is `exec c` on the state with the queue's rest. On an empty queue one cycle of CCLK passes: the messages that are due are
released, the ports, the cores, the buoys and the barriers have their cycle, and where nothing is under way the clock advances and nothing else changes. The
model's choice: log entry 1. -/
def Obligations.StepTakesFrontCommand : Prop :=
  (∀ (c : Instr) (r : List Instr) (s : State), step { s with pending := c :: r } = exec c { s with pending := r }) ∧
  (∀ s : State, s.pending = [] → step s = .next (s.after (cycle s.env s.chip))) ∧
  (∀ s : State, s.quiet → s.onlyBusy [] → s.syncStill → step s = .next (s.put { s.chip with now := s.chip.now + 1 }))

/-- R3: every command answers a next state, in which the fuses are as they were; the queue is as it was too. -/
def Obligations.FusesNeverChange : Prop :=
  ∀ (c : Instr) (s : State), ∃ t, exec c s = .next t ∧ t.fuses = s.fuses ∧ t.pending = s.pending

/-- Every step keeps the canonical form of memory and leaves no write, clear or fault in hand. -/
def Obligations.StepKeepsInvariant : Prop :=
  ∀ s t : State, s.inv → step s = .next t → t.inv

/-- The state after reset meets the invariant of StepKeepsInvariant. Reset values that the spec gives: BOOT_STAGE CODE 0x00 with power-good low (R397, R403),
BEACON_LEAD 0x2B2A, SCRUB_CFG 0x0008_0800, MGMT_I3C static address 0x2C with IBI_EN, MERGE_CFG 0x00F8_4000 (R412), partitions in state 0 (R368), the device
not READY. -/
def Obligations.ResetMeetsInvariant : Prop :=
  (State.reset.inv) ∧
  (regValue State.reset.env State.reset.chip .bootStage = 0 ∧ regValue State.reset.env State.reset.chip .beaconLead = 0x2B2A ∧
   regValue State.reset.env State.reset.chip .scrubCfg = 0x00080800 ∧ regValue State.reset.env State.reset.chip .i3c = 0x12C ∧
   regValue State.reset.env State.reset.chip .idDevice = 0x4E5A0040 ∧
   (∀ n, regValue State.reset.env State.reset.chip (.mergeCfg n) = 0x00F84000 ∧ regValue State.reset.env State.reset.chip (.partCfg n) = 0) ∧
   deviceState State.reset.chip = 0 ∧ ∀ a, State.reset.byte a = Config.unlisted)

/-! Register writes (18_registers.md). -/

/-- R406, R407, R404: a write, through I3C once the port is awake, to an offset that no register occupies, of another size or alignment, from a source that may not write the register, or before
READY to a register other than BOOT_CTL, adds one to SAFE_UNMAPPED, saturating, and writes no register. After an access of LAMP_CFG's place the power controller looks
at the stacks (R390). -/
def Obligations.RefusedWriteIsCounted : Prop :=
  ∀ (x : Src) (off size : Nat) (v : Dword) (s : State), s.quiet → I3cUp s x → off < 2 ^ 20 →
    (regAt off = none ∨ ∃ r b w, regAt off = some (r, b, w) ∧
      (mayWrite (regWriters r) x = false ∨ (s.chip.boot.ready = false ∧ r ≠ .bootCtl) ∨
        (¬(size = w ∧ off = b) ∧ ¬(w = 8 ∧ size = 4 ∧ (off = b ∨ off = b + 4))))) →
    let c := { s.chip with safe := { s.chip.safe with unmapped := min (s.chip.safe.unmapped + 1) (2 ^ 32 - 1) } }
    exec (.registerWrite x off size v) s = .next (if off = 0x31000 then s.after (lampReviews c) else s.put c)

/-- R408, R409: a whole write applies at once; of a 64-bit register the low half is held for its source and applies with the next high half of that source; a
high half with no held low half applies with the register's present low half. After a write of LAMP_CFG the power controller looks at the stacks (R390). -/
def Obligations.AcceptedWriteApplies : Prop :=
  ∀ (x : Src) (off size : Nat) (v : Dword) (s : State) (r : Reg) (b w : Nat), s.quiet → I3cUp s x → off < 2 ^ 20 →
    regAt off = some (r, b, w) → mayWrite (regWriters r) x = true → (s.chip.boot.ready = true ∨ r = .bootCtl) →
    (size = w → off = b → exec (.registerWrite x off size v) s =
      .next (s.after ((if off = 0x31000 then lampReviews else id) (regPut s.env s.chip r (v.toNat % 2 ^ (8 * w)))))) ∧
    (w = 8 → size = 4 → off = b →
      exec (.registerWrite x off size v) s = .next (s.put { s.chip with halves := tset s.chip.halves (halfKey x b) (v.toNat % 2 ^ 32) })) ∧
    (w = 8 → size = 4 → off = b + 4 →
      exec (.registerWrite x off size v) s = .next (s.after (regPut s.env { s.chip with halves := tdel s.chip.halves (halfKey x b) } r
        (v.toNat % 2 ^ 32 * 2 ^ 32 + (tfind s.chip.halves (halfKey x b)).getD (regValue s.env s.chip r % 2 ^ 32)))))

/-- R418, R420: with no job loaded, a write of BEACON_DOMAIN or BEACON_PKG takes effect and every UP port joins again; with a job it is ignored. R420: a write
to BEACON_LEAD is ignored while any job with bands here is running, and so is a value outside 2,600 to 13,000; any other takes effect. R28, R30, R419: writes
of 0, 1 and 2 to BEACON_ROLE. A lighthouse takes an epoch one above every epoch seen, and a halted domain runs again. -/
def Obligations.BeaconRegisterWrites : Prop :=
  (∀ (x : Src) (v : Word) (s : State), s.quiet → s.chip.boot.ready = true → MachineSrc x → I3cUp s x →
     (s.chip.jobs = [] → ∃ t, exec (.beaconDomain x v) s = .next t ∧ t.chip.beacon = { s.chip.beacon with domain := v } ∧
       (∀ n ∈ portsHere s.env, (port s.env s.chip n).st = .up → (tget Port.reset t.chip.ports n).joined = false) ∧ t.mem = s.mem) ∧
     (s.chip.jobs = [] → ∃ t, exec (.beaconPkg x v) s = .next t ∧ t.chip.beacon = { s.chip.beacon with pkg := v.toNat % 2 ^ 12 } ∧
       (∀ n ∈ portsHere s.env, (port s.env s.chip n).st = .up → (tget Port.reset t.chip.ports n).joined = false) ∧ t.mem = s.mem) ∧
     (s.chip.jobs ≠ [] → exec (.beaconDomain x v) s = .next s ∧ exec (.beaconPkg x v) s = .next s)) ∧
  (∀ (x : Src) (v : Word) (s : State), s.quiet → s.chip.boot.ready = true → MachineSrc x → I3cUp s x →
     (s.chip.jobs.any (fun p => jobRunning p.2) = true → exec (.beaconLead x v) s = .next s) ∧
     ((v.toNat % 2 ^ 14 < 2600 ∨ 13000 < v.toNat % 2 ^ 14) → exec (.beaconLead x v) s = .next s) ∧
     (s.chip.jobs.any (fun p => jobRunning p.2) = false → 2600 ≤ v.toNat % 2 ^ 14 → v.toNat % 2 ^ 14 ≤ 13000 →
       exec (.beaconLead x v) s = .next (s.put { s.chip with beacon := { s.chip.beacon with lead := v.toNat % 2 ^ 14 } }))) ∧
  (∀ (x : Src) (s : State), s.quiet → s.chip.boot.ready = true → MachineSrc x → I3cUp s x →
     exec (.member x) s = .next (s.put { s.chip with beacon := { s.chip.beacon with role := 0 } }) ∧
     exec (.standby x) s = .next (s.put { s.chip with beacon := { s.chip.beacon with role := 2 } }) ∧
     ∃ t, exec (.lighthouse x) s = .next t ∧ t.chip.beacon.role = 1 ∧ t.chip.beacon.epoch = (s.chip.beacon.epoch + 1) % 2 ^ 16 ∧
       t.chip.boot = { s.chip.boot with halted := false } ∧ t.chip.beacon.lead = s.chip.beacon.lead ∧
       t.mem = s.mem ∧ t.chip.jobs = s.chip.jobs)

/-- R369, R415: ASSIGN = 1 on a partition in state 0 assigns it when its bands are some, belong to no other partition and a tenant is named (state 1, ERR 0
unless KEY_VALID is refused, handle sequence 1, every ring disabled); otherwise it is refused with ERR and stays in state 0. ASSIGN = 0 in state 1 returns it
to state 0 when no program is on its bands; otherwise, and in states 2 and 3, ERR is set and the state stays. An ASSIGN that is what it reads leaves the
assignment and ERR, and the other fields apply. -/
def Obligations.PartitionAssignment : Prop :=
  ∀ (x : Src) (n : Nat) (bands : BitVec 16) (op so kv : Bool) (s : State), s.quiet → s.chip.boot.ready = true → MachineSrc x → I3cUp s x → n < 16 →
    ((part s.chip n).state = 0 → bands ≠ 0 → (part s.chip n).tenant ≠ 0 →
      (∀ m < 16, m ≠ n → (part s.chip m).state ≠ 0 → (part s.chip m).bands &&& bands = 0) →
      ∃ t, exec (.assign x n bands op so kv) s = .next t ∧ (part t.chip n).state = 1 ∧ (part t.chip n).bands = bands ∧
        (part t.chip n).operator = op ∧ (part t.chip n).signedOnly = so ∧ (part t.chip n).seq = 1 ∧
        (kv = (part s.chip n).keyValid → (part t.chip n).err = false) ∧ (∀ i < 256, (ring t.chip (ringKey n i)).enable = false) ∧
        (∀ m, m ≠ n → part t.chip m = part s.chip m) ∧ t.mem = s.mem) ∧
    ((part s.chip n).state = 0 → (bands = 0 ∨ (part s.chip n).tenant = 0 ∨
        ∃ m < 16, m ≠ n ∧ (part s.chip m).state ≠ 0 ∧ (part s.chip m).bands &&& bands ≠ 0) →
      ∃ t, exec (.assign x n bands op so kv) s = .next t ∧ (part t.chip n).state = 0 ∧ (part t.chip n).err = true ∧ t.chip.rings = s.chip.rings) ∧
    ((part s.chip n).state = 1 → programOn s.chip n = false →
      ∃ t, exec (.unassign x n bands op so kv) s = .next t ∧
        part t.chip n = { part s.chip n with state := 0, signedOnly := so, err := (part s.chip n).err || (kv && !(part s.chip n).keyValid) } ∧
        (∀ m, m ≠ n → part t.chip m = part s.chip m)) ∧
    (((part s.chip n).state = 1 ∧ programOn s.chip n = true ∧ kv = (part s.chip n).keyValid ∨ (part s.chip n).state = 2 ∨ (part s.chip n).state = 3) →
      ∃ t, exec (.unassign x n bands op so kv) s = .next t ∧ part t.chip n = { part s.chip n with err := true, signedOnly := so }) ∧
    (kv = (part s.chip n).keyValid →
      ((part s.chip n).state ≠ 0 → ∃ t, exec (.assign x n bands op so kv) s = .next t ∧ part t.chip n = { part s.chip n with signedOnly := so } ∧
        (∀ m, m ≠ n → part t.chip m = part s.chip m) ∧ t.chip.rings = s.chip.rings) ∧
      ((part s.chip n).state = 0 → ∃ t, exec (.unassign x n bands op so kv) s = .next t ∧
        part t.chip n = { part s.chip n with bands := bands, operator := op, signedOnly := so } ∧ (∀ m, m ≠ n → part t.chip m = part s.chip m)))

/-- R369, R386, R415: KEY_VALID from 0 to 1 in state 1 is accepted when the key is a point of the curve and refused with ERR when it is not; from 1 to 0 it is
accepted in state 1. R413: PART_CATALOG_n takes a value in state 1 whose extent is empty or lies in the host store or in the partition's windows; otherwise
the write is refused as a whole and counted in SAFE_DENIED. R414: PART_APER_w with VALID is accepted when the window is not valid and the named partition is
in state 1; VALID is cleared when nothing of the partition uses the window; any other change is refused and counted in SAFE_DENIED. -/
def Obligations.PartitionKeyAndWindows : Prop :=
  (∀ (x : Src) (n : Nat) (so : Bool) (s : State), s.quiet → s.chip.boot.ready = true → MachineSrc x → I3cUp s x → n < 16 → (part s.chip n).state = 1 →
     (let k := beBytes 96 (part s.chip n).key.toNat
      (part s.chip n).keyValid = false → ecOn (beNat (k.take 48)) (beNat (k.drop 48)) = true →
       ∃ t, exec (.keyValid x n so) s = .next t ∧ part t.chip n = { part s.chip n with signedOnly := so, keyValid := true }) ∧
     (let k := beBytes 96 (part s.chip n).key.toNat
      (part s.chip n).keyValid = false → ecOn (beNat (k.take 48)) (beNat (k.drop 48)) = false →
       ∃ t, exec (.keyValid x n so) s = .next t ∧ part t.chip n = { part s.chip n with signedOnly := so, err := true }) ∧
     ((part s.chip n).keyValid = true →
       ∃ t, exec (.keyValidClear x n so) s = .next t ∧ part t.chip n = { part s.chip n with signedOnly := so, keyValid := false })) ∧
  (∀ (x : Src) (n : Nat) (v : Dword) (s : State), s.quiet → s.chip.boot.ready = true → MachineSrc x → I3cUp s x → n < 16 →
     ((part s.chip n).state = 1 →
       (bitsOf v.toNat 63 40 = 0 ∨ tierOk s.chip [n] (bitsOf v.toNat 39 5 * 32) (32 * bitsOf v.toNat 63 40) = true) →
       ∃ t, exec (.partCatalog x n v) s = .next t ∧
         part t.chip n = { part s.chip n with catalog := BitVec.ofNat 64 (v.toNat / 32 * 32) } ∧ t.chip.safe = s.chip.safe) ∧
     (((part s.chip n).state ≠ 1 ∨ (bitsOf v.toNat 63 40 ≠ 0 ∧
         tierOk s.chip [n] (bitsOf v.toNat 39 5 * 32) (32 * bitsOf v.toNat 63 40) = false)) →
       exec (.partCatalog x n v) s =
         .next (s.put { s.chip with safe := { s.chip.safe with denied := min (s.chip.safe.denied + 1) (2 ^ 32 - 1) } }))) ∧
  (∀ (x : Src) (w : Nat) (v : Dword) (s : State), s.quiet → s.chip.boot.ready = true → MachineSrc x → I3cUp s x → w < 448 →
     (aperPart s.chip w = none → bitOf v.toNat 4 = true → (part s.chip (v.toNat % 16)).state = 1 →
       ∃ t, exec (.partAper x w v) s = .next t ∧ aperPart t.chip w = some (v.toNat % 16) ∧ (∀ u, u ≠ w → aperPart t.chip u = aperPart s.chip u) ∧
         t.chip.safe = s.chip.safe) ∧
     (∀ n, aperPart s.chip w = some n → bitOf v.toNat 4 = false → windowUsed s.chip w n = false →
       ∃ t, exec (.partAper x w v) s = .next t ∧ aperPart t.chip w = none ∧ (∀ u, u ≠ w → aperPart t.chip u = aperPart s.chip u)) ∧
     ((aperPart s.chip w = none ∧ bitOf v.toNat 4 = true ∧ (part s.chip (v.toNat % 16)).state ≠ 1 ∨
         (∃ n, aperPart s.chip w = some n ∧ bitOf v.toNat 4 = false ∧ windowUsed s.chip w n = true) ∨
         ((aperPart s.chip w).isSome ∧ bitOf v.toNat 4 = true ∧ (tget 0#64 s.chip.aper w).toNat ≠ v.toNat / 2 ^ 30 * 2 ^ 30 + v.toNat % 32)) →
       exec (.partAper x w v) s =
         .next (s.put { s.chip with safe := { s.chip.safe with denied := min (s.chip.safe.denied + 1) (2 ^ 32 - 1) } })))

/-- R291, R416, R417: ENABLE = 1 always completes. On a disabled ring of a partition in state 1, with LOG2_SIZE from 4 to 16 and an extent in the host tier of
the partition, it enables the ring with all indices 0, armed unless it is a submission ring; on a disabled ring otherwise ERR is set and it stays disabled; an
enabled ring keeps everything but ERR. ENABLE = 0 always completes: a disabled ring takes its settings, an enabled one is disabled unless a FINAL is pending
on it or a request names it, and then ERR is set. Neither changes another ring, a partition or memory. -/
def Obligations.RingEnableDisable : Prop :=
  ∀ (x : Src) (p i : Nat) (v : Word) (s : State), s.quiet → s.chip.boot.ready = true → HartSrc x → p < 16 → i < 130 →
    let r := ring s.chip (ringKey p i)
    (let w := (v ||| 0x80000000#32).toNat
     let l := bitsOf w 26 22
     ∃ t, exec (.ringEnable x p i v) s = .next t ∧
       ring t.chip (ringKey p i) =
         (if r.enable = true then { r with err := false }
          else if (part s.chip p).state = 1 ∧ 4 ≤ l ∧ l ≤ 16 ∧ tierOk s.chip [p] (ringAddr r) (2 ^ l * recSize (kindOf i)) = true then
            { r with enable := true, err := false, log2 := l, msix := bitOf w 21, hart := bitsOf w 20 17, prod := 0, cons := 0, fetch := 0
                     armed := decide (32 ≤ i), pend := [] }
          else { r with err := true }) ∧
       (∀ k, k ≠ ringKey p i → ring t.chip k = ring s.chip k) ∧ t.mem = s.mem ∧ t.chip = { s.chip with rings := t.chip.rings }) ∧
    (let w := (v &&& 0x7FFFFFFF#32).toNat
     let taken := (32 ≤ i ∧ i < 64 ∧ pendingOn s.chip p (i - 32) ≠ 0) ∨
       (64 ≤ i ∧ i < 128 ∧ s.chip.reqs.any (fun q => q.2.st != .free && q.2.part == p && q.2.tokenRing == i - 64) = true)
     ∃ t, exec (.ringDisable x p i v) s = .next t ∧
       (r.enable = false → ring t.chip (ringKey p i) = { r with err := false, log2 := bitsOf w 26 22, msix := bitOf w 21, hart := bitsOf w 20 17 }) ∧
       (r.enable = true → ¬ taken → ring t.chip (ringKey p i) = { r with enable := false, err := false }) ∧
       (r.enable = true → taken → ring t.chip (ringKey p i) = { r with err := true }) ∧
       (∀ k, k ≠ ringKey p i → ring t.chip k = ring s.chip k) ∧ t.mem = s.mem ∧ t.chip = { s.chip with rings := t.chip.rings })

/-- R390, R392, R396: LAMP_CFG sets the cap; STAT_CLEAR clears the LATE count of every stack; then the power controller looks at the stacks. R367, R421, R422:
a 1 to a bit of SAFE_CNT_CLEAR clears the matching counter and nothing else; TEST = 1 is accepted while DEVICE_STATE reads 1; an injection is armed in test
state only; TEST = 0 leaves test state with every fog setting off and the injection disarmed. R383, R424: MGMT_LOG_SEL latches the record it names, which the
data words then return, or sets GONE with data words of zero; RECOVERY_GO makes the waiting ROM check the pushed image. -/
def Obligations.HouseRegisterWrites : Prop :=
  (∀ (x : Src) (cap : BitVec 2) (s : State), s.quiet → s.chip.boot.ready = true → MachineSrc x → I3cUp s x →
     (∃ t, exec (.maxCap x cap) s = .next t ∧ t.chip = lampReviews { s.chip with maxCap := cap.toNat } ∧ t.chip.maxCap = cap.toNat ∧ t.mem = s.mem) ∧
     (∃ t, exec (.statClear x cap) s = .next t ∧ t.chip.maxCap = cap.toNat ∧ (∀ k, (lamp t.chip k).late = 0) ∧ t.mem = s.mem ∧
       t.chip.jobs = s.chip.jobs ∧ t.chip.cores = s.chip.cores)) ∧
  (∀ (x : Src) (s : State), s.quiet → s.chip.boot.ready = true → MachineSrc x → I3cUp s x →
     (∀ v : Word, exec (.safeCntClear x v) s = .next (s.put { s.chip with safe := { s.chip.safe with
         unmapped := if bitOf v.toNat 0 then 0 else s.chip.safe.unmapped
         ceReads := if bitOf v.toNat 1 then 0 else s.chip.safe.ceReads
         denied := if bitOf v.toNat 2 then 0 else s.chip.safe.denied } })) ∧
     (deviceState s.chip = 1 → ∃ t, exec (.enterTestState x) s = .next t ∧ t.chip = { s.chip with boot := { s.chip.boot with test := true } } ∧
       deviceState t.chip = 2) ∧
     (deviceState s.chip ≠ 1 → exec (.enterTestState x) s = .next s) ∧
     (∀ (k : BitVec 4) (i : BitVec 10) (tag : BitVec 16), s.chip.boot.test = true → ∃ t, exec (.arm x k i tag) s = .next t ∧
       bitOf t.chip.safe.injCtl.toNat 31 = true ∧
       bitsOf t.chip.safe.injCtl.toNat 29 26 = k.toNat ∧ bitsOf t.chip.safe.injCtl.toNat 25 16 = i.toNat ∧ bitsOf t.chip.safe.injCtl.toNat 15 0 = tag.toNat ∧
       t.chip.jobs = s.chip.jobs ∧ t.mem = s.mem) ∧
     (∀ (k : BitVec 4) (i : BitVec 10) (tag : BitVec 16), s.chip.boot.test = false → ∃ t, exec (.arm x k i tag) s = .next t ∧
       bitOf t.chip.safe.injCtl.toNat 31 = bitOf s.chip.safe.injCtl.toNat 31) ∧
     (s.chip.boot.test = true → ∃ t, exec (.leaveTestState x) s = .next t ∧ t.chip.boot = { s.chip.boot with test := false } ∧
       fogActive t.chip = false ∧ bitOf t.chip.safe.injCtl.toNat 31 = false ∧ t.chip.jobs = s.chip.jobs ∧ t.mem = s.mem)) ∧
  (∀ (x : Src) (v : Word) (s : State), s.quiet → I3cUp s x →
     (s.chip.boot.ready = true → MachineSrc x → ∀ r, (if bitOf v.toNat 31 then s.chip.safe.events else s.chip.safe.faults).find?
         (fun y => y.seq == v.toNat % 2 ^ 16) = some r →
       ∃ t, exec (.mgmtLogSel x v) s = .next t ∧ (∀ k, regValue t.env t.chip (.logData k) = field r.bytes (4 * k) 4) ∧
         bitOf t.chip.safe.logSel.toNat 30 = false ∧ t.chip.safe.faults = s.chip.safe.faults ∧ t.chip.safe.events = s.chip.safe.events) ∧
     (s.chip.boot.ready = true → MachineSrc x → (if bitOf v.toNat 31 then s.chip.safe.events else s.chip.safe.faults).find?
         (fun y => y.seq == v.toNat % 2 ^ 16) = none →
       ∃ t, exec (.mgmtLogSel x v) s = .next t ∧ (∀ k, regValue t.env t.chip (.logData k) = 0) ∧ bitOf t.chip.safe.logSel.toNat 30 = true) ∧
     (s.chip.boot.recovering = true → s.chip.boot.code = 3 →
       exec (.recoveryGo x) s = .next (s.put { s.chip with boot := { s.chip.boot with code := 4 } })) ∧
     (s.chip.boot.code ≠ 3 → exec (.recoveryGo x) s = .next s))

/-- R333, R423, R440: LINK_ENABLE on a disabled port starts its training; LINK_DISABLE takes the port down; RETRAIN takes it down and trains it; a change of
WIDTH applies at the next training; CNT_CLEAR zeroes its four counters and keeps its state. -/
def Obligations.LinkRegisterWrites : Prop :=
  ∀ (x : Src) (n : Nat) (v : Word) (s : State), s.quiet → s.chip.boot.ready = true → MachineSrc x → I3cUp s x → n < 16 →
    (port s.env s.chip n).st ≠ .absent →
    ((port s.env s.chip n).enable = false → bitsOf (v ||| 0x80000000#32).toNat 29 28 < 2 →
      ∃ t, exec (.linkEnable x n v) s = .next t ∧ (port t.env t.chip n).enable = true ∧ (port t.env t.chip n).st = .training ∧
        (port t.env t.chip n).media = bitsOf (v ||| 0x80000000#32).toNat 29 28 ∧ (port t.env t.chip n).width = bitOf v.toNat 30 ∧
        (port t.env t.chip n).trainAt = s.chip.now) ∧
    ((port s.env s.chip n).enable = true → ∃ t, exec (.linkDisable x n v) s = .next t ∧ (port t.env t.chip n).enable = false ∧
      (port t.env t.chip n).st = .down ∧ (port t.env t.chip n).joined = false ∧ (port t.env t.chip n).hold = [] ∧
      (port t.env t.chip n).width = (port s.env s.chip n).width ∧ (port t.env t.chip n).cfgWidth = bitOf v.toNat 30) ∧
    ((port s.env s.chip n).enable = false → ∃ t, exec (.linkDisable x n v) s = .next t ∧ (port t.env t.chip n).enable = false ∧
      (port t.env t.chip n).st = (port s.env s.chip n).st ∧ t.mem = s.mem) ∧
    ((port s.env s.chip n).enable = true → (port s.env s.chip n).media < 2 → (port s.env s.chip n).part < 16 →
      ∃ t, exec (.retrain x n) s = .next t ∧ (port t.env t.chip n).st = .training ∧ (port t.env t.chip n).enable = true ∧
        (port t.env t.chip n).joined = false ∧ (port t.env t.chip n).part = (port s.env s.chip n).part ∧
        (port t.env t.chip n).width = (port s.env s.chip n).cfgWidth) ∧
    ((port s.env s.chip n).media < 4 → (port s.env s.chip n).part < 16 →
      exec (.cntClear x n) s = .next (s.put (onPort s.chip n (fun _ =>
        { port s.env s.chip n with unc := 0, crc := 0, resent := 0, droppedF := 0 }))))

/-- R411: while BOOT_STAGE reads CODE 0x03, an aligned 4-byte write of the server at offset 0xFFFC of the status window is a write of BOOT_CTL; at every other
time it is a status-window write, which is ignored and counted (R305). The link is up. -/
def Obligations.RecoveryThroughBar0 : Prop :=
  ∀ (v : Dword) (s : State), s.quiet → s.chip.boot.pcieUp = true →
    (s.chip.boot.code = 3 → exec (.hostAccess .server (Config.statusBase + 0xFFFC) 4 (some v)) s =
      .next (s.after (regPut s.env s.chip .bootCtl v.toNat))) ∧
    (s.chip.boot.code ≠ 3 → exec (.hostAccess .server (Config.statusBase + 0xFFFC) 4 (some v)) s =
      .next (s.put { s.chip with safe := { s.chip.safe with unmapped := min (s.chip.safe.unmapped + 1) (2 ^ 32 - 1) } }))

/-! Host accesses, rings, doorbells and the fetch (12_host.md). -/

/-- R288, R289, R371: a hart's write to the host store changes exactly its bytes; a read answers the bytes; a write to the store region outside the declared
ranges of programs in partitions of state 1 is discarded and counted in SAFE_DENIED, and such a read returns zeros. -/
def Obligations.HostAccessMemory : Prop :=
  ∀ (x : Src) (a size : Nat) (v : Dword) (s : State), s.quiet → HartSrc x → 0 < size → size ≤ 8 →
    (inHostStore a = true → inHostStore (a + size - 1) = true →
      ∃ t, exec (.hostAccess x a size (some v)) s = .next t ∧
        (∀ k, k < size → t.byte (a + k) = BitVec.ofNat 8 (v.toNat / 2 ^ (8 * k))) ∧ (∀ b, b < a ∨ a + size ≤ b → t.byte b = s.byte b) ∧
        t.chip.jobs = s.chip.jobs ∧ t.chip.rings = s.chip.rings) ∧
    (inHostStore a = true → inHostStore (a + size - 1) = true → s.chip.safe.ecc = [] →
      ∃ t, exec (.hostAccess x a size none) s = .next t ∧
        t.chip = emit s.chip (.hostRead a size (BitVec.ofNat 64 (leNat ((List.range size).map (fun i => s.byte (a + i)))))) ∧ t.mem = s.mem) ∧
    ((∀ k < size, (inStore (a + k) || inAnyNear (a + k)) = true ∧ hostMayTouch s.chip (a + k) = true) →
      ∃ t, exec (.hostAccess x a size (some v)) s = .next t ∧
        (∀ k, k < size → t.byte (a + k) = BitVec.ofNat 8 (v.toNat / 2 ^ (8 * k))) ∧ (∀ b, b < a ∨ a + size ≤ b → t.byte b = s.byte b) ∧
        t.chip.safe.denied = s.chip.safe.denied) ∧
    ((inStore a = true ∨ inAnyNear a = true) →
      (∃ k < size, (inStore (a + k) || inAnyNear (a + k)) = false ∨ hostMayTouch s.chip (a + k) = false) →
      exec (.hostAccess x a size (some v)) s = .next (s.put (countDenied s.chip)) ∧
      exec (.hostAccess x a size none) s = .next (s.put (emit (countDenied s.chip) (.hostRead a size 0))))

/-- R294, R307: while the doorbells of a partition are served and the ring is enabled, a valid producer index replaces the one held; a valid consumer index
replaces the one held and arms the ring, which sends its interrupt at once where a condition holds; the value held has no effect; an invalid one is ignored with a
RING_ERROR event; where they are not served nothing changes. R307: an armed ring
whose oldest pending record is COAL_TIME µs old sends its interrupt message, to its hart or as MSI-X, and is then not armed; a ring that is not armed sends
none. -/
def Obligations.DoorbellsAndInterrupts : Prop :=
  (∀ (p n i v : Nat) (s : State), s.quiet → p < 16 → n < 32 → 32 ≤ i → i < 130 → v < 2 ^ 32 →
     (let r := ring s.chip (ringKey p n)
      doorbellsServed s.chip p = true → r.enable = true → dist32 v r.fetch ≤ ringSize r → dist32 r.prod r.fetch ≤ dist32 v r.fetch → v ≠ r.prod →
       exec (.submissionDoorbell p n v) s = .next (s.put (onRing s.chip (ringKey p n) (fun r => { r with prod := v })))) ∧
     (let r := ring s.chip (ringKey p n)
      doorbellsServed s.chip p = true → r.enable = true → (ringSize r < dist32 v r.fetch ∨ dist32 v r.fetch < dist32 r.prod r.fetch) → v ≠ r.prod →
       exec (.submissionDoorbell p n v) s = .next (s.after (event s.chip [p] (plainEvent s.chip 3 0 (leBytes 4 0 ++ leBytes 4 n ++ leBytes 4 v))))) ∧
     (let r := ring s.chip (ringKey p i)
      doorbellsServed s.chip p = true → r.enable = true → dist32 v r.cons ≤ dist32 r.prod r.cons → v ≠ r.cons → r.coalCount = 0 → r.coalTime = 0 →
       r.pend.any (fun q => q.2) = false →
       exec (.consumerDoorbell p i v) s = .next (s.put (onRing s.chip (ringKey p i) (fun r =>
         { r with cons := v, armed := true, pend := r.pend.drop (r.pend.length - dist32 r.prod v) })))) ∧
     (let r := ring s.chip (ringKey p i)
      doorbellsServed s.chip p = true → r.enable = true → dist32 r.prod r.cons < dist32 v r.cons → v ≠ r.cons →
       ∃ t, exec (.consumerDoorbell p i v) s = .next t ∧ (ring t.chip (ringKey p i)).cons = r.cons) ∧
     (let r := ring s.chip (ringKey p i)
      doorbellsServed s.chip p = true → r.enable = true → dist32 v r.cons ≤ dist32 r.prod r.cons → v ≠ r.cons →
       let c := onRing s.chip (ringKey p i) (fun r => { r with cons := v, armed := true, pend := r.pend.drop (r.pend.length - dist32 r.prod v) })
       exec (.consumerDoorbell p i v) s = .next (s.put (if irqDue (ring c (ringKey p i)) s.chip.now then sendIrq c (ringKey p i) else c))) ∧
     exec (.submissionDoorbell p n (ring s.chip (ringKey p n)).prod) s = .next s ∧
     exec (.consumerDoorbell p i (ring s.chip (ringKey p i)).cons) s = .next s ∧
     ((doorbellsServed s.chip p = false ∨ (ring s.chip (ringKey p n)).enable = false) → exec (.submissionDoorbell p n v) s = .next s) ∧
     ((doorbellsServed s.chip p = false ∨ (ring s.chip (ringKey p i)).enable = false) → exec (.consumerDoorbell p i v) s = .next s)) ∧
  (∀ (p i : Nat) (s : State), s.quiet → p < 16 → 32 ≤ i → i < 130 →
     (let r := ring s.chip (ringKey p i)
      ∀ t0 irq rest, r.armed = true → r.pend = (t0, irq) :: rest → r.coalTime ≠ 0 → t0 + r.coalTime * Config.us ≤ s.chip.now →
       exec (.coalTime p i) s = .next (s.put (emit (onRing s.chip (ringKey p i) (fun r => { r with armed := false, pend := [] }))
         (if r.msix then .msix r.irqId else .hartIrq r.hart r.irqId)))) ∧
     ((ring s.chip (ringKey p i)).armed = false → exec (.coalTime p i) s = .next s))

/-- R295 to R298, R303, R304: the device fetches the 64 bytes at the fetch position of the ring whose turn it is, when the completion ring has room for two more records. A well-formed descriptor
without FENCE, with no held descriptor before it and no uncorrectable word of the host store in what it reads, starts; with FENCE and an earlier command that has no FINAL it is held, and FENCE starts it once every
earlier one counts as final. The fetch position and the handle sequence advance by one. -/
def Obligations.FetchAndFence : Prop :=
  ∀ (p n : Nat) (s : State), s.quiet → p < 16 → n < 32 → doorbellsServed s.chip p = true → (part s.chip p).state = 1 →
    (let r := ring s.chip (ringKey p n)
     let d := rdBytes s.env s.chip (ringAddr r + r.fetch % ringSize r * 64) 64
     let q := ring s.chip (ringKey p (32 + field d 2 1))
     let m : Cmd := ⟨⟨p, (part s.chip p).seq⟩, n, field d 0 1, field d 1 1, field d 2 1, field d 3 1, field d 4 4, field d 8 8, d.drop 16, .held,
       cmdHandle ⟨p, (part s.chip p).seq⟩, []⟩
     let earlier := s.chip.cmds.filter (fun y => y.id.part == p && y.sq == n)
     nextRing s.env s.chip p = some n → r.enable = true → r.fetch ≠ r.prod → field d 2 1 ≤ 31 → q.enable = true → ringUsed q + pendingOn s.chip p (field d 2 1) + 2 ≤ ringSize q →
     (∀ y ∈ s.chip.cmds, y.id ≠ m.id) → hostBad s.chip m = false →
      (descriptorOk m = true → earlier.any (fun y => y.phase == .held) = false → (bitOf m.flags 0 = true → earlier.any (fun y => !(fenceFinal y)) = false) →
        ∃ t, exec (.descriptorFetch p n) s = .next t ∧ findCmd t.chip m.id = some { m with phase := .started } ∧
          (ring t.chip (ringKey p n)).fetch = (r.fetch + 1) % 2 ^ 32 ∧ (part t.chip p).seq = nextSeq (part s.chip p).seq ∧ t.mem = s.mem ∧
          t.chip.jobs = s.chip.jobs) ∧
      ((earlier.any (fun y => y.phase == .held) = true ∨ (bitOf m.flags 0 = true ∧ earlier.any (fun y => !(fenceFinal y)) = true)) →
        ∃ t, exec (.descriptorFetch p n) s = .next t ∧ t.chip.cmds = s.chip.cmds ++ [m] ∧
          (ring t.chip (ringKey p n)).fetch = (r.fetch + 1) % 2 ^ 32 ∧ t.mem = s.mem)) ∧
    (∀ (m : Cmd) (before : List Cmd), s.chip.cmds = before ++ [m] → m.id.part = p → m.sq = n → m.phase = .held → descriptorOk m = true → hostBad s.chip m = false →
      (∀ y ∈ before, y.id ≠ m.id ∧ y.phase ≠ .held) → (∀ y ∈ before, y.id.part = p → y.sq = n → fenceFinal y = true) →
      ∃ t, exec (.fence p n) s = .next t ∧ findCmd t.chip m.id = some { m with phase := .started } ∧ t.mem = s.mem) ∧
    (s.chip.cmds.any (fun y => y.phase == .held) = false → exec (.fence p n) s = .next s)

/-! Power-on and the boot (17_power.md, 16_tenancy.md). -/

/-- R397, R437: power-good starts the first second with CODE 0x01, and an EXTEST in force acts as BYPASS from then on; a low power-good loses every state of the package, store contents included. R402, R404, R405:
PERST# resets only the endpoint; the link trains from 40 ms on, or at once in recovery, and not while PERST# is asserted; a configuration request gets Request
Retry Status until 140 ms, or 100 ms after PERST#. -/
def Obligations.PowerAndEndpoint : Prop :=
  (∀ s : State, s.quiet →
     (s.chip.boot.pwrgood = false → exec .pwrgoodRise s =
       .next (s.put { s.chip with
         boot := { s.chip.boot with pwrgood := true, riseAt := s.chip.now, code := 1 }
         mgmt := { s.chip.mgmt with tap := if s.chip.mgmt.tap = .extest then .bypass else s.chip.mgmt.tap } })) ∧
     ∃ t, exec .pwrgoodFall s = .next t ∧ deviceState t.chip = 0 ∧ t.chip.boot.pwrgood = false ∧ t.chip.jobs = [] ∧ t.chip.reqs = [] ∧
       t.chip.cmds = [] ∧ t.chip.cores = [] ∧ t.chip.buoys = [] ∧ t.chip.ports = [] ∧ (∀ p, part t.chip p = Part.reset) ∧
       (∀ k, ring t.chip k = Ring.reset) ∧ t.chip.boot.arb = s.chip.boot.arb ∧ (∀ a, inAperture a = false → t.byte a = Config.unlisted)) ∧
  (∀ (cxl : Bool) (s : State), s.quiet →
     (∃ t, exec .perstAssert s = .next t ∧ t.chip.boot.perst = true ∧ t.chip.boot.pcieUp = false ∧
       t.chip = { s.chip with boot := { s.chip.boot with perst := true, pcieUp := false, cxl := false, downAt := t.chip.boot.downAt } } ∧ t.mem = s.mem) ∧
     (s.chip.boot.perst = true →
       exec .perstDeassert s = .next (s.put { s.chip with boot := { s.chip.boot with perst := false, perstAt := s.chip.now } })) ∧
     (s.chip.boot.pwrgood = true → s.chip.boot.perst = false →
       (s.chip.boot.recovering = true ∨ (s.chip.boot.accepted = true ∧ s.chip.boot.riseAt + 40 * Config.ms ≤ s.chip.now)) →
       exec (.pcieLinkUp cxl) s = .next (s.put { s.chip with boot := { s.chip.boot with pcieUp := true, cxl := cxl } })) ∧
     (s.chip.boot.perst = true → exec (.pcieLinkUp cxl) s = .next s) ∧
     (s.chip.boot.pcieUp = true → exec .configurationRequest s = .next (s.put (emit s.chip (.cfgStatus
       (decide (s.chip.now < max (s.chip.boot.riseAt + s.chip.boot.late + 140 * Config.ms) (s.chip.boot.perstAt + 100 * Config.ms))))))) ∧
     (s.chip.boot.pcieUp = false → exec .configurationRequest s = .next s))

/-- R382, R383, R402: the ROM accepts the flash image that passes every check of R382, and the fuse counter rises to its security version; it enters recovery
on any other, and then trains PCIe at once. -/
def Obligations.BootImageChecked : Prop :=
  ∀ (img : BootImage) (s : State), s.quiet → s.chip.boot.pwrgood = true →
    ((s.chip.boot.code = 1 ∨ s.chip.boot.code = 2) → imageOk s.fuses s.chip.boot.arb img.head img.body = true →
      img.head.length + img.body.length ≤ 0x1800000 →
      ∃ t, exec (.verifyBootImage img) s = .next t ∧ t.chip.boot.code = 5 ∧ t.chip.boot.accepted = true ∧ t.chip.boot.udsLocked = true ∧
        t.chip.boot.arb = max s.chip.boot.arb (field img.head 2 1) ∧ s.chip.boot.arb ≤ field img.head 2 1 ∧
        t.chip.boot.headDigest = sha384 img.head ∧ t.mem = s.mem) ∧
    ((s.chip.boot.code = 1 ∨ s.chip.boot.code = 2) → imageOk s.fuses s.chip.boot.arb img.head img.body = false →
      ∃ t, exec (.verifyBootImage img) s = .next t ∧ t.chip.boot.code = 3 ∧ t.chip.boot.recovering = true ∧
        t.chip.boot.accepted = s.chip.boot.accepted ∧ t.chip.boot.arb = s.chip.boot.arb) ∧
    (let head := rdBytes s.env s.chip Config.hostStore 512
     let body := rdBytes s.env s.chip (Config.hostStore + 512) (min (field head 8 4) (2 ^ 25 - 512))
     s.chip.boot.code = 4 → imageOk s.fuses s.chip.boot.arb head body = false →
      exec (.verifyBootImage img) s = .next (s.put { s.chip with boot := { s.chip.boot with code := 3 } }))

/-- R399: stack s begins at 60 + 85 s ms. On success its store and near scratchpad read zero, its bit of STACKS_UP is set and it is DARK; a failure sets
STACKS_FAILED and FAIL_CAUSE and DEVICE_STATE reads FAILED. R400, R401, R418: wave w begins at 300 + 40 w ms and trains its enabled ports; before wave 0 the
identity record of the flash is applied; READY comes when the image is accepted, all stacks are up and every port is done and joined. -/
def Obligations.StacksWavesAndReady : Prop :=
  (∀ (n f : Nat) (s : State), s.quiet → n < 4 →
     (s.chip.boot.code = 5 → bootDue s.chip ((60 + 85 * n) * Config.ms) = true → s.chip.boot.stacksUp.getLsbD n = false →
       s.chip.boot.stacksFailed.getLsbD n = false → s.chip.boot.powering = 0 →
       exec (.stackPowerUp n) s = .next (s.put { s.chip with boot := { s.chip.boot with powering := BitVec.twoPow 4 n } })) ∧
     (bootDue s.chip ((60 + 85 * n) * Config.ms) = false → exec (.stackPowerUp n) s = .next s) ∧
     (s.chip.boot.powering.getLsbD n = true → f = 0 →
       ∃ t, exec (.stackSelfTestDone n f) s = .next t ∧ t.chip.boot.stacksUp = s.chip.boot.stacksUp ||| BitVec.twoPow 4 n ∧ (lamp t.chip n).st = .dark ∧
         (∀ a, n * 2 ^ 32 ≤ a → a < (n + 1) * 2 ^ 32 → t.byte a = 0) ∧
         (∀ a, Config.nearBase + n * 2 ^ 29 ≤ a → a < Config.nearBase + (n + 1) * 2 ^ 29 → t.byte a = 0) ∧
         (∀ a, ¬(n * 2 ^ 32 ≤ a ∧ a < (n + 1) * 2 ^ 32) → ¬(Config.nearBase + n * 2 ^ 29 ≤ a ∧ a < Config.nearBase + (n + 1) * 2 ^ 29) → t.byte a = s.byte a)) ∧
     (s.chip.boot.powering.getLsbD n = true → f ≠ 0 →
       ∃ t, exec (.stackSelfTestDone n f) s = .next t ∧ t.chip.boot.stacksFailed = s.chip.boot.stacksFailed ||| BitVec.twoPow 4 n ∧
         t.chip.boot.failCause = f % 256 ∧ deviceState t.chip = 4 ∧ t.mem = s.mem)) ∧
  (∀ (w : Nat) (s : State), s.quiet → w < 4 →
     (s.chip.boot.code = 5 → bootDue s.chip ((300 + 40 * w) * Config.ms) = true → s.chip.boot.waving.getLsbD w = false → 0 < w →
       s.chip.boot.waving.getLsbD 0 = true → ∃ t, exec (.wave w) s = .next t ∧ t.chip.boot.waving = s.chip.boot.waving ||| BitVec.twoPow 4 w ∧
         (∀ n ∈ wavePorts s.env w, (port s.env s.chip n).enable = true → (port s.env s.chip n).st ≠ .absent → (port s.env s.chip n).media < 2 →
           (port t.env t.chip n).st = .training) ∧ t.chip.beacon = s.chip.beacon ∧ t.mem = s.mem) ∧
     (s.chip.boot.code = 5 → bootDue s.chip (300 * Config.ms) = true → s.chip.boot.waving.getLsbD 0 = false →
       ∃ t, exec (.wave 0) s = .next t ∧ t.chip.boot.waving = s.chip.boot.waving ||| 1#4 ∧
         (s.chip.boot.identRec.length = 8 → field s.chip.boot.identRec 4 2 < 4096 → field s.chip.boot.identRec 6 2 = 0 →
           t.chip.beacon.domain.toNat = field s.chip.boot.identRec 0 4 ∧ t.chip.beacon.pkg = field s.chip.boot.identRec 4 2) ∧
         (s.chip.boot.identRec.length = 8 → (4096 ≤ field s.chip.boot.identRec 4 2 ∨ field s.chip.boot.identRec 6 2 ≠ 0) →
           t.chip.beacon.domain = 0 ∧ t.chip.beacon.pkg = 0)) ∧
     (s.chip.boot.code = 5 → s.chip.boot.accepted = true → s.chip.boot.failed = false → s.chip.boot.stacksUp = 0xF#4 →
       allJoined s.env s.chip = true → exec .ready s = .next (s.put { s.chip with boot := { s.chip.boot with code := 6, ready := true } })) ∧
     ((s.chip.boot.code ≠ 5 ∨ s.chip.boot.stacksUp ≠ 0xF#4 ∨ s.chip.boot.failed = true ∨ allJoined s.env s.chip = false) → exec .ready s = .next s))

/-! Management port and attestation (16_tenancy.md R385; 19_package.md R436, R437). -/

/-- R6, R366, R404, R436, R437: the identity answer over I3C from 5 ms after power-good; one in-band interrupt for the records since the last, at most one in
10 ms; SETDASA sets the dynamic address; EXTEST acts as BYPASS while power-good is high. -/
def Obligations.ManagementPort : Prop :=
  ∀ (a : BitVec 7) (op : Tap) (s : State), s.quiet →
    (i3cAwake s.chip = true → exec .identity s =
      .next (s.put (emit s.chip (.i3c (leBytes 4 (listed s.env) ++ leBytes 4 (firmware s.chip) ++ leBytes 4 (bootStage s.env s.chip)))))) ∧
    (i3cAwake s.chip = true → exec (.setdasa a) s = .next (s.put { s.chip with mgmt := { s.chip.mgmt with dynAddr := a.toNat } })) ∧
    (i3cAwake s.chip = false → exec .identity s = .next s ∧ exec (.setdasa a) s = .next s) ∧
    (s.chip.safe.ibiDue = true → s.chip.mgmt.ibiEn = true → (∀ t0, s.chip.safe.ibiAt = some t0 → t0 + 10 * Config.ms ≤ s.chip.now) →
      exec .inBandInterrupt s =
        .next (s.put (emit { s.chip with safe := { s.chip.safe with ibiDue := false, ibiAt := some s.chip.now } } .ibi))) ∧
    ((s.chip.safe.ibiDue = false ∨ s.chip.mgmt.ibiEn = false ∨ ∃ t0, s.chip.safe.ibiAt = some t0 ∧ s.chip.now < t0 + 10 * Config.ms) →
      exec .inBandInterrupt s = .next s) ∧
    exec (.boundaryScan op) s = .next (s.put { s.chip with mgmt := { s.chip.mgmt with
      tap := if op = .extest ∧ s.chip.boot.pwrgood = true then .bypass else op } })

/-- R385: until an image is accepted every request receives ERROR Busy. R384, R385: with an accepted image the requests are answered in the order of SPDM 1.3:
the version, the capabilities, the algorithms, the digest and the bytes of the slot-0 chain, a signature over the transcript with the Alias key, and the
measurements. The message codes are the model's (log entry 30). -/
def Obligations.SpdmRequests : Prop :=
  (∀ (off len i : Nat) (nonce : BitVec 256) (s : State), s.quiet → i3cAwake s.chip = true → s.chip.boot.accepted = false →
     ∀ q ∈ [Instr.getVersion, .getCapabilities, .negotiateAlgorithms, .getDigests, .getCertificate off len, .challenge nonce, .getMeasurements i],
       ∃ t, exec q s = .next t ∧ t.chip.out = s.chip.out ++ [.spdm [0x13#8, 0x7F#8, 0x03#8, 0x00#8]] ∧ t.chip.mgmt = s.chip.mgmt ∧ t.mem = s.mem) ∧
  (∀ (off len i : Nat) (nonce : BitVec 256) (s : State), s.quiet → i3cAwake s.chip = true → s.chip.boot.accepted = true →
     (∃ t, exec .getVersion s = .next t ∧ t.chip.out = s.chip.out ++ [.spdm (spdmMsg 0x04 0 0 (leBytes 2 1 ++ leBytes 2 0x1300))] ∧ 1 ≤ t.chip.mgmt.spdm) ∧
     (1 ≤ s.chip.mgmt.spdm → ∃ t, exec .getCapabilities s = .next t ∧ 2 ≤ t.chip.mgmt.spdm ∧ t.chip.out.length = s.chip.out.length + 1) ∧
     (2 ≤ s.chip.mgmt.spdm → ∃ t, exec .negotiateAlgorithms s = .next t ∧ 3 ≤ t.chip.mgmt.spdm ∧ t.chip.out.length = s.chip.out.length + 1) ∧
     (3 ≤ s.chip.mgmt.spdm →
       (∃ t, exec .getDigests s = .next t ∧ t.chip.out = s.chip.out ++ [.spdm (spdmMsg 0x01 0 0 (digestBytes (sha384 (certChain s.fuses s.chip))))]) ∧
       (∃ t, exec (.getCertificate off len) s = .next t ∧
         t.chip.out = s.chip.out ++ [.spdm (spdmMsg 0x02 0 0 (((certChain s.fuses s.chip).drop off).take len))]) ∧
       (∃ t, exec (.challenge nonce) s = .next t ∧ t.chip.out = s.chip.out ++ [.spdm (spdmMsg 0x03 0 0 (challengeBody s.chip nonce))] ∧
         t.chip.free = s.chip.free + 1) ∧
       (∀ b, 1 ≤ i → i < 0xFF → measurement s.env s.chip i = some b →
         ∃ t, exec (.getMeasurements i) s = .next t ∧
           t.chip.out = s.chip.out ++ [.spdm (spdmMsg 0x60 0 0 (leBytes 1 i ++ leBytes 2 b.length ++ b))])))

/-! Lamps and monitors (17_power.md R387-R394; 15_safety.md R358). -/

/-- R387, R389 to R391: a powered stack that is LIT begins the entry that the controller chooses and stays LIT until it ends; a deeper one begins its exit
when the controller chooses LIT; a transition whose time has come gives the stack its new state. -/
def Obligations.LampTransitions : Prop :=
  ∀ (n : Nat) (s : State), s.quiet → n < 4 →
    (s.chip.boot.stacksUp.getLsbD n = true → s.chip.boot.failed = false → (lamp s.chip n).goal = none → (lamp s.chip n).st = .lit →
      chooseLamp s.chip n ≠ .lit → ∃ t, exec (.lampExit n) s = .next t ∧ (lamp t.chip n).goal = some (chooseLamp s.chip n) ∧
        (lamp t.chip n).st = .lit ∧ (lamp t.chip n).till = s.chip.now + lampEntry (chooseLamp s.chip n) ∧
        (∀ k, k ≠ n → lamp t.chip k = lamp s.chip k) ∧ t.chip.jobs = s.chip.jobs ∧ t.mem = s.mem) ∧
    (s.chip.boot.stacksUp.getLsbD n = true → s.chip.boot.failed = false → (lamp s.chip n).goal = none → (lamp s.chip n).st ≠ .lit →
      chooseLamp s.chip n = .lit → ∃ t, exec (.lampExit n) s = .next t ∧ (lamp t.chip n).goal = some .lit ∧
        (lamp t.chip n).st = (lamp s.chip n).st ∧ (lamp t.chip n).till = s.chip.now + lampExitTime (lamp s.chip n).st) ∧
    (∀ g, (lamp s.chip n).goal = some g → g ≠ .lit → (lamp s.chip n).till ≤ s.chip.now →
      ∃ t, exec (.lampTransitionDone n) s = .next t ∧ (lamp t.chip n).st = g ∧ t.chip.jobs = s.chip.jobs ∧ t.mem = s.mem) ∧
    ((lamp s.chip n).goal = some .lit → (lamp s.chip n).till ≤ s.chip.now →
      (∀ q ∈ s.chip.jobs, q.2.wts.held = [] ∧ q.2.ticks.edge = none) →
      ∃ t, exec (.lampTransitionDone n) s = .next t ∧ (lamp t.chip n).st = .lit ∧ t.chip.jobs = s.chip.jobs ∧ t.mem = s.mem) ∧
    ((lamp s.chip n).goal = none ∨ s.chip.now < (lamp s.chip n).till → exec (.lampTransitionDone n) s = .next s)

/-- R358, R363, R364, R366: with no attempt unresolved, a clock or supply monitor makes one D4 record of its monitor and reading, in the management log; a
thermal warning is an event to every assigned partition; a thermal trip stops every job that runs with HW_FAULT and takes every stack to DARK and the device to FAILED. -/
def Obligations.MonitorFaults : Prop :=
  ∀ (m v : Nat) (s : State), s.quiet →
    (let rec_ : Nat → FaultRec := fun code => ⟨code, 4, engNone, 0, monitorLoc m, noLw, 0, s.chip.beacon.pkg, 0, s.chip.beacon.tick, 0,
       noCore + m % 2 ^ 32 * 2 ^ 32, m, v, 0⟩
     let log : Nat → List LogEntry := fun code => logPush s.chip.safe.faults 256 ⟨s.chip.safe.faultSeq, faultBytes (rec_ code) false 0⟩
     (∀ q ∈ s.chip.jobs, q.2.ticks.attempts = []) →
      (∃ t, exec (.clockFault m v) s = .next t ∧ t.chip.safe.faults = log 0x78 ∧ t.chip.safe.faultSeq = (s.chip.safe.faultSeq + 1) % 2 ^ 16 ∧
        t.chip.safe.ibiDue = true ∧ t.chip.jobs = s.chip.jobs ∧ t.chip.boot = s.chip.boot) ∧
      (∃ t, exec (.voltageFault m v) s = .next t ∧ t.chip.safe.faults = log 0x79 ∧ t.chip.safe.faultSeq = (s.chip.safe.faultSeq + 1) % 2 ^ 16 ∧
        t.chip.safe.ibiDue = true ∧ t.chip.jobs = s.chip.jobs ∧ t.chip.boot = s.chip.boot) ∧
      ((∀ q ∈ s.chip.jobs, jobRunning q.2 = false) → ∃ t, exec (.thermalTrip m v) s = .next t ∧ t.chip.safe.faults = log 0x7B ∧
        (∀ k < 4, (lamp t.chip k).st = .dark) ∧ deviceState t.chip = 4 ∧ t.chip.boot.thermtrip = true ∧ t.chip.jobs = s.chip.jobs)) ∧
    (∀ tag j, tfind s.chip.jobs tag = some j → jobRunning j = true → ∃ t j', exec (.thermalTrip m v) s = .next t ∧ tfind t.chip.jobs tag = some j' ∧
      j'.st = .halted ∧ j'.endSt = .hwFault ∧ j'.ticks.attempts = [] ∧ deviceState t.chip = 4) ∧
    (let r : EventRec := ⟨8, 0, 0, s.chip.beacon.pkg, 0, s.chip.beacon.tick, leBytes 4 m ++ leBytes 4 v⟩
     ∃ t, exec (.thermalWarn m v) s = .next t ∧
      t.chip.safe.events = logPush s.chip.safe.events 64 ⟨s.chip.safe.eventSeq, eventBytes r false 0⟩ ∧
      t.chip.safe.faults = s.chip.safe.faults ∧ t.chip.boot = s.chip.boot ∧ t.chip.jobs = s.chip.jobs)

/-! Beacon (02_beacon.md). -/

/-- R24: the lighthouse sends the mark of the next edge L ahead and schedules its own edge; a package takes the first new mark of the highest epoch and lowest
origin, schedules the edge at L less the delay, and forwards the mark on every joined port with the delay added on its way there; it drops and counts a mark whose delay is L
or more. R30: a lighthouse that receives a mark it must follow becomes a member and reports LIGHTHOUSE_LOST. -/
def Obligations.MarksScheduleEdges : Prop :=
  ∀ (p x : Nat) (m : Mark) (s : State), s.quiet → p < 16 →
    (∀ e, s.chip.beacon.role = 1 → s.chip.beacon.phase = some e → s.chip.beacon.pending = none → e.at_ + e.period ≤ s.chip.now + s.chip.beacon.lead →
      exec .originateMark s = .next (s.put (sendBeacon { s.chip with beacon := { s.chip.beacon with
        phase := some ⟨e.n + 1, e.at_ + e.period, e.period⟩, period := e.period, seen := some (e.n + 1)
        due := s.chip.beacon.due ++ [⟨e.n + 1, e.at_ + e.period, e.period⟩] } }
        (.mark ⟨e.n + 1, s.chip.beacon.epoch, e.period, s.chip.beacon.pkg, 0⟩)))) ∧
    (s.chip.beacon.role ≠ 1 → exec .originateMark s = .next s) ∧
    (let b := s.chip.beacon
     let d := m.delay + 310000 + x * 23077
     (tget Port.reset s.chip.ports p).joined = true → markFollowed b m = true → betterChoice b m p d = false → m.origin ≠ b.pkg →
      (b.role ≠ 1 → psCycles d < b.lead → ∃ t, exec (.edgeMark p x m) s = .next t ∧ t.chip.beacon.epoch = m.epoch ∧ t.chip.beacon.origin = some m.origin ∧
        t.chip.beacon.seen = some (max m.n (b.seen.getD 0)) ∧ t.chip.beacon.period = m.period ∧ t.chip.beacon.phase = some ⟨m.n, s.chip.now + b.lead - psCycles d, m.period⟩ ∧
        (b.locked = true → t.chip.beacon.due = b.due ++ [⟨m.n, s.chip.now + b.lead - psCycles d, m.period⟩]) ∧
        t.chip.out = (forwardMark s.chip p m).out ∧ t.chip.beacon.tick = b.tick ∧ t.mem = s.mem) ∧
      (b.role = 1 → psCycles d < b.lead → ∃ t, exec (.edgeMark p x m) s = .next t ∧ t.chip.beacon.role = 0 ∧ t.chip.beacon.epoch = m.epoch ∧
        t.chip.beacon.origin = some m.origin ∧ t.chip.beacon.lighthouse = m.origin ∧ t.chip.safe.faultSeq = (s.chip.safe.faultSeq + 1) % 2 ^ 16) ∧
      (b.role ≠ 1 → b.lead ≤ psCycles d → ∃ t, exec (.edgeMark p x m) s = .next t ∧ t.chip.beacon.dropped = min (b.dropped + 1) 255 ∧
        t.chip.beacon.due = b.due ∧ t.chip.out = s.chip.out)) ∧
    ((tget Port.reset s.chip.ports p).joined = false → exec (.edgeMark p x m) s = .next s)

/-- R24, R26, R32: a due edge fires at its cycle, once for its number; with no job running only the tick side of the Beacon and the lamps change. On a package
that does not lead, a running job whose job edge falls on it, with all its stacks LIT and no tick in hand, counts the edge and waits for its plan. -/
def Obligations.EdgesFire : Prop :=
  ∀ (d : DueEdge) (s : State), s.quiet → edgeDue s.chip = some d →
    ((∀ q ∈ s.chip.jobs, jobRunning q.2 = false ∧ q.2.ticks.attempts = []) →
      ∃ t, exec .fireEdge s = .next t ∧ t.chip.beacon = { s.chip.beacon with
          tick := d.n, firedAt := some s.chip.now, inForce := d.period, lostSaid := false, due := s.chip.beacon.due.filter (fun e => decide (d.n < e.n)) } ∧
        t.chip.jobs = s.chip.jobs ∧ t.mem = s.mem) ∧
    (∀ tag j, s.chip.jobs = [(tag, j)] → edgesCount s.chip j = true → isLead s.chip j = false → j.ticks.attempts = [] → j.ticks.announce = none →
      j.ticks.edge = none → j.ticks.planned = none → j.ticks.replayPlan = none → j.wts.held = [] → j.ticks.due = d.n →
      ∃ t j', exec .fireEdge s = .next t ∧ t.chip.beacon.tick = d.n ∧ tfind t.chip.jobs tag = some j' ∧
        j'.ticks.edge = some (j.ticks.next, s.chip.now) ∧ j'.ticks.next = j.ticks.next + 1 ∧ j'.ticks.due = d.n + edgeM j ∧ j'.ticks.attempts = [] ∧
        (jobLit s.chip j = false → ∀ k < 4, onStack j.place.bands k = true → ((lamp s.chip k).st ≠ .lit ∨ (lamp s.chip k).goal ≠ none) →
          (lamp t.chip k).late = min ((lamp s.chip k).late + 1) 255))

/-- R29 to R31, R332: no edge within 1.5 base periods is LIGHTHOUSE_LOST, said once; a standby that misses two edges becomes lighthouse with an epoch one
higher; a member that does so halts; clocks locked to the upstream port set the locked bit. -/
def Obligations.LighthouseWatch : Prop :=
  ∀ s : State, s.quiet →
    (∀ t0, s.chip.beacon.firedAt = some t0 → s.chip.beacon.lostSaid = false → s.chip.beacon.inForce ≠ 0 →
      2 * t0 + 3 * s.chip.beacon.inForce ≤ 2 * s.chip.now →
      ∃ t, exec .lighthouseLost s = .next t ∧ t.chip.beacon = { s.chip.beacon with lostSaid := true } ∧
        t.chip.safe.faultSeq = (s.chip.safe.faultSeq + 1) % 2 ^ 16 ∧ t.chip.jobs = s.chip.jobs) ∧
    (s.chip.beacon.lostSaid = true → exec .lighthouseLost s = .next s) ∧
    (s.chip.beacon.role = 2 → twoMissed s.chip.beacon s.chip.now = true →
      ∃ t, exec .standbyTakeover s = .next t ∧ t.chip.beacon.role = 1 ∧ t.chip.beacon.epoch = (s.chip.beacon.epoch + 1) % 2 ^ 16 ∧
        t.chip.beacon.origin = some s.chip.beacon.pkg ∧ t.chip.boot = s.chip.boot ∧ t.mem = s.mem) ∧
    (s.chip.beacon.role ≠ 2 → exec .standbyTakeover s = .next s) ∧
    (s.chip.boot.halted = false → s.chip.beacon.role = 0 → twoMissed s.chip.beacon s.chip.now = true → (∀ q ∈ s.chip.jobs, jobRunning q.2 = false) →
      ∃ t, exec .domainHalted s = .next t ∧ t.chip.boot = { s.chip.boot with halted := true } ∧
        t.chip.safe.eventSeq = (s.chip.safe.eventSeq + 1) % 2 ^ 16 ∧ t.chip.jobs = s.chip.jobs) ∧
    (s.chip.beacon.role ≠ 0 → exec .domainHalted s = .next s) ∧
    (s.chip.beacon.choice.isSome → exec .locked s = .next (s.put { s.chip with beacon := { s.chip.beacon with locked := true } }))

/-- R44, R47: 64 cycles after done, with no detector and no forbidden row status, the package votes yes; the vote of a package that does not lead goes to the
lead. The lead keeps the last vote of each package. -/
def Obligations.SettleAndVote : Prop :=
  ∀ (tag : Nat) (v : VoteMsg) (s : State), s.quiet →
    (∀ j a, tfind s.chip.jobs tag = some j → isLead s.chip j = false → j.ticks.attempts = [a] → a.st = .settling →
      a.doneAt + Config.settle ≤ s.chip.now → badRow s.env s.chip j a = none →
      ∃ t j', exec (.settle tag) s = .next t ∧ tfind t.chip.jobs tag = some j' ∧ j'.ticks.attempts = [{ a with st := .votedYes }] ∧
        t.chip.out = (sendTo s.chip tag j.place.lead s.chip.beacon.pkg (fun _ => 0) (.vote ⟨tag, s.chip.beacon.pkg, a.tick, a.ord, true, 0, 0⟩)).out ∧
        t.mem = s.mem) ∧
    (∀ j a, tfind s.chip.jobs tag = some j → j.ticks.attempts = [a] → a.st = .settling → s.chip.now < a.doneAt + Config.settle →
      ∃ t, exec (.settle tag) s = .next t ∧ t.chip.jobs = s.chip.jobs ∧ t.chip.out = s.chip.out) ∧
    (∀ j a rest, tfind s.chip.jobs v.job = some j → isLead s.chip j = true → j.ticks.attempts = a :: rest → a.tick = v.tick → a.ord = v.attempt →
      j.place.pkgs.contains v.pkg = true → v.yes = true →
      (∀ w ∈ j.ticks.votes, w.tick = v.tick → w.attempt = v.attempt → w.yes = true ∨ w.pkg = v.pkg) →
      (∃ p ∈ j.place.pkgs, p ≠ v.pkg ∧ ∀ w ∈ j.ticks.votes, w.tick = v.tick → w.attempt = v.attempt → w.pkg ≠ p) →
      ∃ t j', exec (.vote v) s = .next t ∧ tfind t.chip.jobs v.job = some j' ∧ j'.ticks.votes = j.ticks.votes.filter (fun w =>
        !(w.pkg == v.pkg && w.tick == v.tick && w.attempt == v.attempt)) ++ [v] ∧ j'.ticks.attempts = j.ticks.attempts ∧ t.mem = s.mem)

/-- R47, R54, R57: at the bound of a strict vote, and 1.25 job periods after an attempt began, the lead aborts the oldest attempt; PROGRESS records the fault
as well, and its abort carries it as the cause. The abort is applied as AbortVerdict says. R48, R49, R52, R56: on a package that does not lead, an abort of the oldest attempt of an elastic job
discards it and its run-ahead successor, keeps its plan for the replay, records the verdict and starts nothing; a commit verdict is applied in one step, and
one that came early for the attempt after it then follows; a verdict for an attempt not held is recorded. -/
def Obligations.AbortsAndVerdicts : Prop :=
  (∀ (tag : Nat) (j : Job) (a : Attempt) (rest : List Attempt) (s : State), s.quiet → tfind s.chip.jobs tag = some j → isLead s.chip j = true →
     j.ticks.attempts = a :: rest →
     let v := fun (cause : Nat) => (⟨tag, a.tick, a.ord, .abort, [], s.chip.beacon.pkg, cause, 0, []⟩ : VerdictMsg)
     (j.args.strict = true → a.tick + 1 < j.ticks.next →
       edgeCycle s.chip (j.ticks.due - (j.ticks.next - (a.tick + 1)) * j.args.m) + hopsTime j + 130 ≤ s.chip.now →
       exec (.voteTimeout tag) s = .next (s.after (lampReviews (applyAbort (flood s.chip (v 0)) tag a (v 0))))) ∧
     (j.args.strict = false → exec (.voteTimeout tag) s = .next (s.put (lampReviews s.chip))) ∧
     (0 < jobPeriod s.chip j → 5 * jobPeriod s.chip j ≤ 4 * (s.chip.now - a.startAt) →
       ∃ c r, exec (.progress tag) s = .next (s.after (lampReviews (applyAbort (flood c (v 0x71)) tag a (v 0x71)))) ∧
         c = { s.chip with raised := [r] } ∧ r.code = 0x71 ∧ r.attempt = some (a.tick, a.ord) ∧ r.itemA = s.chip.now - a.startAt)) ∧
  (∀ (v : VerdictMsg) (j : Job) (a : Attempt) (rest : List Attempt) (s : State), s.quiet → tfind s.chip.jobs v.job = some j →
     isLead s.chip j = false → jobRunning j = true → j.ticks.verdicts = [] → j.ticks.attempts = a :: rest →
     ∀ q ∈ [Instr.verdict v, .verdictAnswer v],
       (v.kind = .abort → a.tick = v.tick → a.ord = v.attempt → j.args.strict = false → j.ticks.fails + 1 < j.args.abortLimit → j.ticks.halt = false →
         (∀ b ∈ rest, a.tick ≤ b.tick) →
         ∃ t j', exec q s = .next t ∧ tfind t.chip.jobs v.job = some j' ∧ j'.ticks.attempts = [] ∧ j'.ticks.replayPlan = some a.plan ∧
           j'.ticks.fails = j.ticks.fails + 1 ∧ j'.ticks.committed = j.ticks.committed ∧ j'.st = j.st ∧ t.chip.reqs = s.chip.reqs ∧ t.mem = s.mem) ∧
       (v.kind = .commit → a.tick = v.tick → a.ord = v.attempt →
         exec q s = .next (s.after (lampReviews (applyEarly s.env (applyCommit s.env (flood s.chip v) v.job a v.frees v.turned).1 v.job)))) ∧
       (v.kind = .abort → (∀ b ∈ j.ticks.attempts, ¬(b.tick = v.tick ∧ b.ord = v.attempt)) →
         ∃ t j', exec q s = .next t ∧ tfind t.chip.jobs v.job = some j' ∧ j'.ticks.verdicts = [v] ∧ j'.ticks.attempts = j.ticks.attempts ∧ t.mem = s.mem))

/-- R51, R53: HOLD of a tick marks its attempt as held and discards the run-ahead attempt; an announced edge is kept and travels on; a package that voted yes
and has no verdict asks its neighbours for it, and one that holds the verdict answers; without a verdict 1.5 job periods after its start the attempt is discarded and the job
is HALTED. -/
def Obligations.HoldsQueriesDiscards : Prop :=
  ∀ (tag : Nat) (j : Job) (a : Attempt) (s : State), s.quiet → tfind s.chip.jobs tag = some j → j.ticks.attempts = [a] →
    (a.held = false → ∃ t j', exec (.hold tag a.tick) s = .next t ∧ tfind t.chip.jobs tag = some j' ∧ j'.ticks.attempts = [{ a with held := true }] ∧
      t.chip.out = (sendBeacon s.chip (.hold tag a.tick)).out ∧ t.mem = s.mem) ∧
    (∀ w : Announce, w.job = tag → isLead s.chip j = false → jobRunning j = true → j.ticks.announce ≠ some w →
      ∃ t j', exec (.edgeAnnouncement w) s = .next t ∧ tfind t.chip.jobs tag = some j' ∧ j'.ticks.announce = some w ∧
        t.chip.out = (sendBeacon s.chip (.announce w)).out ∧ t.mem = s.mem) ∧
    ((a.st = .votedYes ∨ a.st = .lateNo) → a.doneAt + verdictBound j + Config.us ≤ s.chip.now →
      exec (.verdictQuery tag) s = .next (s.put (sendBeacon s.chip (.query tag a.tick a.ord)))) ∧
    (a.st ≠ .votedYes → a.st ≠ .lateNo → exec (.verdictQuery tag) s = .next s) ∧
    (∀ w tick att, j.ticks.verdicts.find? (fun v => v.tick == tick && v.attempt == att) = some w →
      exec (.verdictQueryReceipt tag tick att) s = .next (s.put (sendBeacon s.chip (.answer w)))) ∧
    (0 < jobPeriod s.chip j → 3 * jobPeriod s.chip j ≤ 2 * (s.chip.now - a.startAt) →
      ∃ c j', exec (.attemptDiscard tag) s = .next (s.after c) ∧ tfind c.jobs tag = some j' ∧ j'.st = .halted ∧ j'.endSt = .hwFault ∧
        j'.ticks.attempts = []) ∧
    (2 * (s.chip.now - a.startAt) < 3 * jobPeriod s.chip j → ∃ t, exec (.attemptDiscard tag) s = .next t ∧ t.chip.jobs = s.chip.jobs)

/-- R43, R53, R273: on a package that does not lead, a plan whose edge this package fired starts its attempt with the counts of the message when the stacks
are LIT; the announced edge of a replay starts the tick again with its original plan; a plan whose edge it missed gets a no with cause edge missed. -/
def Obligations.PlansStartAttempts : Prop :=
  ∀ (m : PlanMsg) (body : Plan) (j : Job) (s : State), s.quiet → tfind s.chip.jobs m.job = some j → jobRunning j = true → j.ticks.attempts = [] →
    j.wts.held = [] → j.decl.tiles = [] →
    (isLead s.chip j = false → j.ticks.gone.contains (m.tick, m.attempt) = false →
      j.ticks.verdicts.any (fun v => v.tick == m.tick && v.attempt == m.attempt) = false →
      (∀ e, j.ticks.edge = some e → jobLit s.chip j = true → j.ticks.replayPlan = none → e.1 = m.tick →
        ∃ c j' a, exec (.plan m body) s = .next (s.after (lampReviews c)) ∧ tfind c.jobs m.job = some j' ∧ j'.ticks.attempts = [a] ∧ a.tick = m.tick ∧
          a.ord = m.attempt ∧ a.st = .running ∧ a.startAt = s.chip.now ∧ a.plan = { body with variant := m.variant, n := m.k1, chunk := m.k2, k := m.k3 }) ∧
      (j.ticks.edge = none → ∃ t j' a, exec (.plan m body) s = .next t ∧ tfind t.chip.jobs m.job = some j' ∧ j'.ticks.attempts = [a] ∧ a.st = .votedNo ∧
        a.cause = 0xFF ∧ t.chip.out = (sendTo s.chip m.job j.place.lead s.chip.beacon.pkg (fun _ => 0)
          (.vote ⟨m.job, s.chip.beacon.pkg, m.tick, m.attempt, false, 0xFF, 2 ^ 23 + 0xFFFF⟩)).out)) ∧
    (∀ w p, j.ticks.announce = some w → w.kind = .replay → s.chip.boot.halted = false → j.ticks.halt = false → w.due ≤ s.chip.beacon.tick →
      edgeCycle s.chip w.due + w.offset ≤ s.chip.now → jobLit s.chip j = true → j.ticks.replayPlan = some p →
      ∃ c j' a, exec (.replayEdge m.job) s = .next (s.after (lampReviews c)) ∧ tfind c.jobs m.job = some j' ∧ j'.ticks.attempts = [a] ∧
        a.tick = w.tick ∧ a.plan = p ∧ a.st = .running ∧ j'.cnt.replays = min (j.cnt.replays + 1) (2 ^ 32 - 1) ∧ j'.ticks.announce = none)

/-- R34 to R39: a SET, ADD or CLEAR of another package that arrives for a buoy here takes its turn from the next cycle on; a SET, ADD or CLEAR slot sends its
operation on its way to a buoy that its job declares, of this package with the latency of the distance, or to its package; with a false predicate it only
leaves its queue; on any other buoy it is BUOY_RANGE (R35, R227, R230). In its turn an operation of the job's present attempt changes its buoy as it says;
one of another attempt is discarded and counted; one on a buoy of another job is BUOY_RANGE and leaves every buoy as it was. -/
def Obligations.BuoyOperations : Prop :=
  (∀ (m : BuoyMsg) (s : State), s.quiet → refPkg m.ref = s.chip.beacon.pkg → (m.op = .set ∨ m.op = .add ∨ m.op = .clear) →
     exec (.buoyOperation m) s = .next (s.put { s.chip with buoyq := s.chip.buoyq ++ [⟨s.chip.now + 1, m, engRx, noLw, 0⟩] })) ∧
  (∀ (x : BuoyIn) (s : State), s.quiet → s.onlyBusy [] → (∀ b ∈ s.chip.bars, b.2.fall = none) → s.chip.buoyq = [x] → x.at_ ≤ s.chip.now + 1 →
     let m := x.m
     let n := refLocal m.ref
     let b := buoy s.chip n
     (b.job = m.job → m.job ≠ 0 → currentAttempt s.chip m.job m.tick m.attempt = true →
       ∀ v : Word, (m.op = .set ∧ v = m.val ∨ m.op = .clear ∧ v = 0 ∨
           m.op = .add ∧ 0 ≤ b.val.toNat + m.val.toInt ∧ b.val.toNat + m.val.toInt < 2 ^ 32 ∧ v = b.val + m.val) →
         ∃ t, step s = .next t ∧ t.chip.buoys = tset s.chip.buoys n { b with val := v } ∧ t.chip.buoyq = [] ∧ t.chip.jobs = s.chip.jobs ∧
           t.chip.beacon = s.chip.beacon ∧ t.mem = s.mem) ∧
     (b.job = m.job → m.job ≠ 0 → currentAttempt s.chip m.job m.tick m.attempt = false →
       step s = .next (s.put { s.chip with
         now := s.chip.now + 1, buoyq := [], beacon := { s.chip.beacon with stale := s.chip.beacon.stale + 1 } })) ∧
     ((b.job ≠ m.job ∨ b.job = 0) → ∃ c r, step s = .next (s.after c) ∧ c.raised = [r] ∧ r.code = 0x06 ∧ c.buoys = s.chip.buoys ∧ c.buoyq = [] ∧
       (x.eng = engRx → r.receiver = true ∧ r.job = m.job) ∧ (x.eng ≠ engRx → r.receiver = false ∧ r.lw = x.lw))) ∧
  (∀ (i : Nat) (sl : QSlot) (s : State), s.quiet → i < 1024 →
     ∀ y ∈ [(Instr.set i, BuoyOp.set, bValue sl, 1), (.add i, .add, bSigned sl, 2), (.clear i, .clear, 0, 5)], Head s i .b sl y.2.2.2 →
       let r := sf sl.w 51 22
       let m := slotMsg s.chip i y.2.1 sl y.2.2.1
       (¬ Enabled s i sl → exec y.1 s = .next (s.put (popHead s.chip i .b))) ∧
       (Enabled s i sl → refPkg r = s.chip.beacon.pkg → buoyDeclared s.chip i r = true →
         exec y.1 s = .next (s.put { popHead s.chip i .b with
           buoyq := s.chip.buoyq ++ [⟨s.chip.now + buoyLat i (refLocal r), m, engB, sl.lw, 0⟩] })) ∧
       (Enabled s i sl → refPkg r ≠ s.chip.beacon.pkg → buoyDeclared s.chip i r = true →
         exec y.1 s = .next (s.put (awayBuoy (popHead s.chip i .b) i m))) ∧
       (Enabled s i sl → buoyDeclared s.chip i r = false → ∃ c, exec y.1 s = .next (s.after c) ∧ c.raised ≠ [] ∧ (∀ q ∈ c.raised, q.code = 0x06) ∧
         c.buoys = s.chip.buoys ∧ c.buoyq = s.chip.buoyq ∧ c.writes = []))

/-- R36: an ADD whose true result lies below 0 or above 0xFFFF_FFFF leaves the buoy unchanged and is the program fault BUOY_WRAP, in the cycle in which it
takes effect: at the issuing slot for one of this package, at the receiver for one that came as a message. -/
def Obligations.AddOutOfRangeIsBuoyWrap : Prop :=
  ∀ (x : BuoyIn) (s : State), s.quiet → s.onlyBusy [] → (∀ b ∈ s.chip.bars, b.2.fall = none) → s.chip.buoyq = [x] → x.at_ ≤ s.chip.now + 1 →
    x.m.op = .add → currentAttempt s.chip x.m.job x.m.tick x.m.attempt = true →
    let b := buoy s.chip (refLocal x.m.ref)
    b.job ≠ 0 → b.job = x.m.job → (b.val.toNat + x.m.val.toInt < 0 ∨ 0xFFFFFFFF < b.val.toNat + x.m.val.toInt) →
    ∃ c r, step s = .next (s.after c) ∧ c.raised = [r] ∧ r.code = faultNo .buoyWrap ∧ faultClass r.code = 0 ∧ r.covers = true ∧
      c.buoys = s.chip.buoys ∧ c.writes = [] ∧ (x.eng = engRx → r.receiver = true ∧ r.job = x.m.job) ∧ (x.eng ≠ engRx → r.receiver = false ∧ r.lw = x.lw)

/-- R41, R42: an arrival at a group's root is noted with the cycle that it came; the last one makes the barrier fall 4 cycles after the latest; a second one of
the same core is BARRIER_REARRIVE. At the fall the phase advances, and each member here that the barrier holds leaves its queue after the path from the root
to its stack; the release of the present phase does so on a package that is not the root. R38: a held WAIT leaves the B queue in the cycle of its release, and
not before. R34, R35, R38, R41, R230: TEST_AND_SET sends its operation to a buoy of the core's own stack, which stores its value where the buoy is zero,
leaves any other, and writes its predicate with whether it was zero; WAIT holds its queue, on a reached threshold until 2 cycles after its issue; BARRIER arrives at a group rooted here after its path and holds. -/
def Obligations.BarriersAndWaits : Prop :=
  (∀ (m : BarrierMsg) (i : Nat) (s : State), s.quiet → i < 1024 →
     (let b := barAt s.chip m.group
      b.job ≠ 0 → b.job = m.job → barRoot b = s.chip.beacon.pkg → currentAttempt s.chip m.job m.tick m.attempt = true →
       (b.arrived.contains m.core = false → (∃ x ∈ barMembers b, x ≠ m.core ∧ b.arrived.contains x = false) →
         exec (.barrierArrival m) s = .next (s.put { s.chip with bars := tset s.chip.bars m.group (
           { b with arrived := m.core :: b.arrived, rootAt := max b.rootAt s.chip.now, fall := none }) })) ∧
       (b.arrived.contains m.core = false → (∀ x ∈ barMembers b, x = m.core ∨ b.arrived.contains x = true) →
         exec (.barrierArrival m) s = .next (s.put { s.chip with bars := tset s.chip.bars m.group (
           { b with arrived := m.core :: b.arrived, rootAt := max b.rootAt s.chip.now, fall := some (max b.rootAt s.chip.now + 4) }) })) ∧
       (b.arrived.contains m.core = true → ∃ c r, exec (.barrierArrival m) s = .next (s.after c) ∧ c = { s.chip with raised := [r] } ∧ r.code = 0x08)) ∧
     (let b := barAt s.chip m.group
      b.job ≠ 0 → b.job = m.job → b.phase = m.phase → barRoot b ≠ s.chip.beacon.pkg → currentAttempt s.chip m.job m.tick m.attempt = true →
       ∃ t, exec (.barrierRelease m) s = .next t ∧ barAt t.chip m.group = { b with phase := b.phase + 1, arrived := [] } ∧
         (∀ k ∈ barHere s.chip m.group, heldAt (core s.chip k) m.group = true → (core t.chip k).b = (core s.chip k).b.tail ∧ (core t.chip k).bHeld = none) ∧
         t.chip.buoys = s.chip.buoys ∧ t.mem = s.mem) ∧
     (∀ q rest t0 t, (core s.chip i).b = q :: rest → (core s.chip i).bHeld = some t0 → (core s.chip i).bFree = some t → opOf q.w = 3 →
       (t ≤ s.chip.now → exec (.waitRelease i) s = .next (s.put (onCore s.chip i (fun k =>
         { k with b := k.b.tail, bHeld := none, bFree := none, bReady := max k.bReady t, retireAt := max k.retireAt t })))) ∧
       (s.chip.now < t → exec (.waitRelease i) s = .next s)) ∧
     ((core s.chip i).bFree = none → exec (.waitRelease i) s = .next s)) ∧
  (∀ (g t : Nat) (s : State), s.quiet → s.onlyBusy [] → s.chip.buoyq = [] → (∀ b ∈ s.chip.bars, b.1 ≠ g → b.2.fall = none) →
     let b := barAt s.chip g
     b.fall = some t → t ≤ s.chip.now + 1 →
     ∃ u, step s = .next u ∧ barAt u.chip g = { b with phase := b.phase + 1, arrived := [], rootAt := 0, fall := none } ∧
       (∀ i ∈ barHere s.chip g, heldAt (core s.chip i) g = true →
         let r := t + Config.ring * ringHops (i / 256) (rootStack b)
         (r ≤ s.chip.now + 1 → (core u.chip i).b = (core s.chip i).b.tail ∧ (core u.chip i).bHeld = none) ∧
         (s.chip.now + 1 < r → (core u.chip i).b = (core s.chip i).b ∧ (core u.chip i).bFree = some r)) ∧
       u.chip.buoys = s.chip.buoys ∧ u.chip.jobs = s.chip.jobs ∧ u.mem = s.mem) ∧
  (∀ (x : BuoyIn) (s : State), s.quiet → s.onlyBusy [] → (∀ b ∈ s.chip.bars, b.2.fall = none) → s.chip.buoyq = [x] → x.at_ ≤ s.chip.now + 1 →
     let n := refLocal x.m.ref
     let b := buoy s.chip n
     x.m.op = .testAndSet → b.job = x.m.job → x.m.job ≠ 0 → currentAttempt s.chip x.m.job x.m.tick x.m.attempt = true →
     ∃ t, step s = .next t ∧ t.chip.buoys = tset s.chip.buoys n { b with val := if b.val = 0 then x.m.val else b.val } ∧
       (core t.chip (x.m.core % 1024)).preds = (core s.chip (x.m.core % 1024)).preds ++ [⟨s.chip.now + 1, 4, x.pd, b.val == 0⟩] ∧ t.mem = s.mem) ∧
  (∀ (i : Nat) (sl : QSlot) (s : State), s.quiet → i < 1024 → Enabled s i sl →
     (let n := refLocal (sf sl.w 51 22)
      let b := buoy s.chip n
      ownBuoy s.chip i (sf sl.w 51 22) = true →
       (Head s i .b sl 4 → sf sl.w 54 52 ≠ 0 → exec (.testAndSet i) s = .next (s.put { popHead s.chip i .b with
         buoyq := s.chip.buoyq ++ [⟨s.chip.now + 2, slotMsg s.chip i .testAndSet sl (bValue sl), engB, sl.lw, sf sl.w 54 52⟩] })) ∧
       (Head s i .b sl 3 → sf sl.w 21 0 ≤ b.val.toNat →
         ∃ t, exec (.wait i) s = .next t ∧ (core t.chip i).b = (core s.chip i).b ∧ (core t.chip i).bHeld = some s.chip.now ∧
           (core t.chip i).bFree = some (s.chip.now + 2) ∧ t.chip.buoys = s.chip.buoys ∧ t.mem = s.mem) ∧
       (Head s i .b sl 3 → b.val.toNat < sf sl.w 21 0 → ∃ t, exec (.wait i) s = .next t ∧ (core t.chip i).b = (core s.chip i).b ∧
         (core t.chip i).bHeld = some s.chip.now ∧ (core t.chip i).bFree = none ∧ t.chip.buoys = s.chip.buoys ∧ t.mem = s.mem)) ∧
     (let g := sf sl.w 31 22
      let b := barAt s.chip g
      let at_ := max b.rootAt (s.chip.now + Config.ring * ringHops (i / 256) (rootStack b))
      Head s i .b sl 6 → b.job ≠ 0 → b.job = jobOfCore s.chip i → (barMembers b).contains (gca s.chip i) = true → barRoot b = s.chip.beacon.pkg →
       b.arrived.contains (gca s.chip i) = false →
       ∃ t, exec (.barrier i) s = .next t ∧ (core t.chip i).b = (core s.chip i).b ∧ (core t.chip i).bHeld = some s.chip.now ∧ t.mem = s.mem ∧
         ((∃ x ∈ barMembers b, x ≠ gca s.chip i ∧ b.arrived.contains x = false) →
           barAt t.chip g = { b with arrived := gca s.chip i :: b.arrived, rootAt := at_, fall := none }) ∧
         ((∀ x ∈ barMembers b, x = gca s.chip i ∨ b.arrived.contains x = true) →
           barAt t.chip g = { b with arrived := gca s.chip i :: b.arrived, rootAt := at_, fall := some (at_ + 4) })))

/-! Ihlan links (13_ihlan.md). -/

/-- R314, R315, R331, R333, R440: training that passes brings the port UP and, without fog, sends its join, any other fails it with its cause, and so does the end of 200
ms; a join of the same domain and width joins the port, one of another domain fails it with cause 4 and one of another width with cause 5; loss of signal
takes an UP port down, and a signal makes a DOWN port train. -/
def Obligations.PortsTrainAndJoin : Prop :=
  ∀ (n : Nat) (tr : Training) (m : JoinMsg) (s : State), s.quiet → n < 16 → (port s.env s.chip n).st ≠ .absent →
    (let p := port s.env s.chip n
     (p.st = .training → trainCause p tr = 0 → p.fogTx.action = 0 → ∃ t, exec (.trainingDone n tr) s = .next t ∧ (port t.env t.chip n).st = .up ∧
        (port t.env t.chip n).joined = false ∧ (port t.env t.chip n).laneRev = tr.laneRev ∧ t.mem = s.mem ∧
        (let q : BeaconMsg := .join ⟨s.chip.beacon.domain.toNat, s.chip.beacon.pkg, n, s.chip.beacon.epoch, s.chip.beacon.role, p.width⟩
         t.chip.out = s.chip.out ++ [.beacon (some n) everyPkg q (cleanCopies everyPkg s.chip.beacon.pkg q)])) ∧
      (p.st = .training → trainCause p tr ≠ 0 → ∃ t, exec (.trainingDone n tr) s = .next t ∧ (port t.env t.chip n).st = .failed ∧
        (port t.env t.chip n).cause = trainCause p tr ∧ t.chip.out = s.chip.out) ∧
      (p.st = .training → p.trainAt + 200 * Config.ms ≤ s.chip.now → ∃ t, exec (.trainingTimeout n tr) s = .next t ∧
        (port t.env t.chip n).st = .failed ∧ 1 ≤ (port t.env t.chip n).cause) ∧
      (p.st ≠ .training → exec (.trainingDone n tr) s = .next s ∧ exec (.trainingTimeout n tr) s = .next s) ∧
      (p.st = .up → m.domain = s.chip.beacon.domain.toNat → m.pkg ≠ s.chip.beacon.pkg → m.width = p.width →
        exec (.join n m) s = .next (s.put (onPort s.chip n (fun p => { p with joined := true, nbrPkg := m.pkg, nbrPort := m.port })))) ∧
      (p.st = .up → (m.domain ≠ s.chip.beacon.domain.toNat ∨ m.pkg = s.chip.beacon.pkg) → ∃ t, exec (.join n m) s = .next t ∧
        (port t.env t.chip n).st = .failed ∧ (port t.env t.chip n).cause = 4 ∧ (port t.env t.chip n).joined = false) ∧
      (p.st = .up → m.domain = s.chip.beacon.domain.toNat → m.pkg ≠ s.chip.beacon.pkg → m.width ≠ p.width → ∃ t, exec (.join n m) s = .next t ∧
        (port t.env t.chip n).st = .failed ∧ (port t.env t.chip n).cause = 5) ∧
      (p.st = .up → ∃ t, exec (.signalLoss n) s = .next t ∧ (port t.env t.chip n).st = .down ∧ (port t.env t.chip n).joined = false ∧
        (port t.env t.chip n).hold = []) ∧
      (p.st ≠ .up → exec (.signalLoss n) s = .next s) ∧
      (p.st = .down → s.chip.boot.waving.getLsbD (n % 4) = true → p.enable = true → p.media < 2 →
        ∃ t, exec (.signalAppears n) s = .next t ∧ (port t.env t.chip n).st = .training ∧ (port t.env t.chip n).trainAt = s.chip.now ∧ t.mem = s.mem))

/-- R316 to R320, R326, R329: without fog, a waiting frame leaves an open port, by one that its job holds, in its slot, later by the delay of the insertions
ahead of it, with the next sequence and its CRC-32, and is kept until acknowledged; its control word says whether it was displaced (R323, R324); before its time,
and by a port that its job does not hold, no frame leaves; a control word that passes its CRC-16 lets acknowledged frames go, and one that fails it does nothing;
a lost frame leaves again in a reserve slot with RETX; a loss not mended within the window, or a frame booked on a port that is down, is LINK_RETRY (R330, R333). -/
def Obligations.FramesLeave : Prop :=
  ∀ (n slot pick seq : Nat) (f : Frame) (x : ControlIn) (s : State), s.quiet → n < 16 →
    (let p := port s.env s.chip n
     let d := displaced s.chip n slot
     portOpen s.env s.chip n = true →
      (frameTime s.chip n (slot + d.1) f ≤ s.chip.now → p.relay = [] → s.chip.egress[pick]? = some f → p.fogTx.action = 0 → p.swapTx = none → f.cls ≠ 5 →
        (f.cls ≤ 3 → portHolder s.chip n = some f.tag) →
        ∃ t ctl, exec (.frameDeparture n slot pick) s = .next t ∧ t.chip.egress = s.chip.egress.eraseIdx pick ∧
          (tget Port.reset t.chip.ports n).txSeq = (p.txSeq + 1) % 1024 ∧
          (tget Port.reset t.chip.ports n).kept = p.kept ++ [⟨p.txSeq % 1024, slot, { f with seq := p.txSeq % 1024 }, 0⟩] ∧
          (let g := { f with seq := p.txSeq % 1024 }
           t.chip.out = s.chip.out ++ [.frame n slot g (frameCrc g) true 0, .control n ctl (controlCrc ctl)]) ∧ ctl.kind = (if d.2.1 = true then 2 else 1) ∧
          (tget Port.reset t.chip.ports n).shift = d.1 ∧ (tget Port.reset t.chip.ports n).waiting = d.2.2 ∧ t.mem = s.mem) ∧
      (p.relay = [] → s.chip.egress[pick]? = some f → (s.chip.now < frameTime s.chip n (slot + d.1) f ∨ (f.cls ≤ 3 ∧ portHolder s.chip n ≠ some f.tag)) →
        exec (.frameDeparture n slot pick) s = .next s) ∧
      (x.crc = controlCrc x.word → x.word.nackV = false → ∃ t, exec (.controlWord n x) s = .next t ∧
        (tget Port.reset t.chip.ports n).kept = p.kept.filter (fun k => decide (512 ≤ seqDist x.word.ackSeq k.seq)) ∧ t.chip.out = s.chip.out ∧
        t.mem = s.mem) ∧
      (x.crc ≠ controlCrc x.word → exec (.controlWord n x) s = .next s) ∧
      (∀ l k, linkOf s.chip n = some l → 0 < l.period → slot % l.period = l.period - 1 → p.reserve ≤ slot → slotTime s.chip n slot ≤ s.chip.now →
        p.again = [k] → frameTime s.chip n (k.slot + resendGap (hopOf s.chip k.f.tag) p.width) k.f ≤ slotTime s.chip n slot →
        slotTime s.chip n slot ≤ frameTime s.chip n (k.slot + l.window) k.f → p.fogTx.action = 0 → p.swapTx = none →
        ∃ t ctl, exec (.resend n slot) s = .next t ∧ (tget Port.reset t.chip.ports n).again = [] ∧
          (tget Port.reset t.chip.ports n).resent = min (p.resent + 1) 255 ∧ (tget Port.reset t.chip.ports n).reserve = slot + 1 ∧
          (let g := { k.f with retx := true }
           t.chip.out = s.chip.out ++ [.frame n slot g (frameCrc g) true 0, .control n ctl (controlCrc ctl)]) ∧ t.mem = s.mem)) ∧
    (∀ l tag x, linkOf s.chip n = some l → portHolder s.chip n = some tag →
      (tget Port.reset s.chip.ports n).nacks.find? (fun y => y.seq == seq % 1024) = some x →
      (retryDue s.chip n tag l x = true → ∃ c r, exec (.linkRetry n seq) s = .next (s.after c) ∧ c.raised = [r] ∧ r.code = 0x49 ∧ r.job = tag ∧
        (tget Port.reset c.ports n).nacks = (tget Port.reset s.chip.ports n).nacks.filter (fun y => y.seq != x.seq)) ∧
      (retryDue s.chip n tag l x = false → exec (.linkRetry n seq) s = .next s)) ∧
    (∀ l tag j a, linkOf s.chip n = some l → portHolder s.chip n = some tag → (tget Port.reset s.chip.ports n).nacks = [] →
      (tget Port.reset s.chip.ports n).st ≠ .up → tfind s.chip.jobs tag = some j → newest j = some a → a.st = .running →
      ∃ c r, exec (.linkRetry n seq) s = .next (s.after c) ∧ c = { s.chip with raised := [r] } ∧ r.code = 0x49 ∧ r.job = tag)

/-- R318, R319, R322, R329: without fog, a new data frame that passes its checks on an open port is held to its release one hop after its slot; one that fails
its CRC is counted and asked for again; before READY every data frame is dropped and counted; at its release a held one-frame window write of this package
that a window admits goes with all of its bytes to the core it is for, 30 cycles later for each ring crossing; one that none admits is WINDOW_VIOLATION. The port's
place in the mesh of its die is the model's choice: log entry 77. -/
def Obligations.FramesArrive : Prop :=
  ∀ (n slot crc : Nat) (f : Frame) (s : State), s.quiet → n < 16 →
    (let p := port s.env s.chip n
     p.st = .up → f.cls < 8 →
      (s.chip.boot.ready = true → p.joined = true → p.fogRx.action = 0 → p.swapRx = none → f.retx = false →
        (f.cls < 5 → s.chip.now ≤ frameTime s.chip n slot f + hopOf s.chip f.tag → ∃ t, exec (.dataFrame n slot f true (frameCrc f)) s = .next t ∧
          (tget Port.reset t.chip.ports n).hold = p.hold ++ [⟨f, frameTime s.chip n slot f + hopOf s.chip f.tag, slot⟩] ∧
          (tget Port.reset t.chip.ports n).rxSeq = f.seq % 1024 ∧ t.chip.safe = s.chip.safe ∧ t.mem = s.mem) ∧
        (crc ≠ frameCrc f → ∃ t, exec (.dataFrame n slot f true crc) s = .next t ∧ (tget Port.reset t.chip.ports n).crc = min (p.crc + 1) 255 ∧
          (tget Port.reset t.chip.ports n).hold = p.hold ∧
          ((tget Port.reset t.chip.ports n).nacks.any (fun y => y.seq == nextRx p % 1024)) = true ∧ t.mem = s.mem) ∧
        (∃ t, exec (.dataFrame n slot f false crc) s = .next t ∧ (tget Port.reset t.chip.ports n).unc = min (p.unc + 1) 255 ∧
          (tget Port.reset t.chip.ports n).hold = p.hold)) ∧
      (s.chip.boot.ready = false → exec (.dataFrame n slot f true crc) s =
        .next (s.put (onPort s.chip n (fun p => { p with droppedF := min (p.droppedF + 1) 255 }))))) ∧
    (let p := port s.env s.chip n
     ∀ h, p.hold.find? (fun h => decide (h.at_ ≤ s.chip.now)) = some h → h.f.destPkg = s.chip.beacon.pkg → h.f.cls = 0 → h.f.wlen < 512 → h.f.idx = 0 →
      h.f.payload.length = h.f.wlen + 1 → dropped s.chip h.f.tag ((frameAttempt s.chip h.f).getD (h.f.tick, h.f.attempt)).1
        ((frameAttempt s.chip h.f).getD (h.f.tick, h.f.attempt)).2 = false →
      let i := coreAt h.f.destAddr
      meshOff s.chip i = false → p.xfers = [] →
      (windowTakes s.chip i h.f.destAddr (h.f.wlen + 1) h.f.tag = true → landOk s.chip i h.f.tag h.f.destAddr (h.f.wlen + 1) = true →
        ∃ t, exec (.release n) s = .next t ∧ (tget Port.reset t.chip.ports n).hold = p.hold.erase h ∧
          (core t.chip i).eject = sortBy (fun y => y.at_) ((core s.chip i).eject ++ [⟨fromPort s.chip n i, .piece h.f.destAddr h.f.payload none, 0, false⟩]) ∧ t.mem = s.mem ∧ t.chip.jobs = s.chip.jobs) ∧
      (windowTakes s.chip i h.f.destAddr (h.f.wlen + 1) h.f.tag = false →
        ∃ c, exec (.release n) s = .next (s.after c) ∧ (tget Port.reset c.ports n).hold = p.hold.erase h ∧ (core c i).eject = (core s.chip i).eject ∧
          c.raised ≠ [] ∧ ∀ r ∈ c.raised, r.code = 0x05)) ∧
    ((port s.env s.chip n).hold = [] → exec (.release n) s = .next s)

/-- R321 to R323: on a joined port without fog, once the device is ready or for a join, the first copy of a Beacon message that passes its CRC-32 is held until
its sending time plus the hop, and then acts as the command that carries it, or goes on to the package it is for; its second copy does nothing more; one that comes
after that is released at once, counted and, with a job tag, LINK_LATE; a message lost in both copies is BEACON_LOSS where it carries a tag. R335
to R337: FOG in the test state on a port of the partition's sets one direction's fog and is done; outside the test state it is DENIED. -/
def Obligations.BeaconFramesAndFog : Prop :=
  (∀ (n job crc : Nat) (msg : BeaconMsg) (h : BeaconHead) (s : State), s.quiet → n < 16 → (port s.env s.chip n).st = .up →
     (port s.env s.chip n).joined = true → (port s.env s.chip n).fogRx.action = 0 → (s.chip.boot.ready = true ∨ isJoin msg = true) →
     let due := slotTime s.chip n h.slot + msgHop s.chip job
     let with_ := fun (b : List (Nat × Nat)) (at_ : Nat) => { s.chip with
       ports := tset s.chip.ports n (port s.env s.chip n), beacon := { s.chip.beacon with copies := b, held := s.chip.beacon.held ++ [⟨at_, n, h.dest, h.src, msg⟩] } }
     (s.chip.now ≤ due → ∃ b, exec (.beaconFrame n 0 msg h job true (beaconCrc 0 h.dest h.src msg)) s = .next (s.put (with_ b due)) ∧
       tfind b n = some (h.ident * 2 + 1)) ∧
     (due < s.chip.now → ∃ b, exec (.beaconFrame n 0 msg h job true (beaconCrc 0 h.dest h.src msg)) s =
       .next (s.after (lateBeacon (with_ b s.chip.now) n job))) ∧
     (tfind s.chip.beacon.copies n = some (h.ident * 2 + 1) → ∃ t, exec (.beaconFrame n 1 msg h job true crc) s = .next t ∧ t.chip.beacon = s.chip.beacon ∧
       t.chip.buoys = s.chip.buoys ∧ t.chip.jobs = s.chip.jobs ∧ t.chip.out = s.chip.out ∧ t.mem = s.mem) ∧
     (tfind s.chip.beacon.copies n = some (h.ident * 2) → job ≠ 0 → crc ≠ beaconCrc 1 h.dest h.src msg →
       ∃ c r, exec (.beaconFrame n 1 msg h job true crc) s = .next (s.after c) ∧
         c.raised = [r] ∧ r.code = 0x4A ∧ r.job = job ∧ c.buoys = s.chip.buoys ∧ c.jobs = s.chip.jobs)) ∧
  (∀ (h : HeldMsg) (e : Env) (c : Chip), c.beacon.held = [h] →
     (c.now < h.at_ → releaseMsgs e c = c) ∧
     (h.at_ ≤ c.now → (h.dest = everyPkg ∨ h.dest = c.beacon.pkg) →
       releaseMsgs e c = beaconAct e { c with beacon := { c.beacon with held := [] } } h.port h.msg) ∧
     (h.at_ ≤ c.now → h.dest ≠ everyPkg → h.dest ≠ c.beacon.pkg → ∀ tag j out, msgTagOf h.msg = tag → tfind c.jobs tag = some j → tfind j.place.toward h.dest = some out →
       releaseMsgs e c = portBeacon { c with beacon := { c.beacon with held := [] } } out h.dest h.src (c.now + Config.ring * portHops h.port out) h.msg)) ∧
  (∀ (id : CmdId) (m : Cmd) (s : State), s.quiet → Started s id 0x50 m →
     let n := arg m 0x10 1
     let act := arg m 0x12 1
     (s.chip.boot.test = false → exec (.fog id) s = .next (s.after (final s.chip m.id .denied))) ∧
     (s.chip.boot.test = true → n ≤ 15 → (port s.env s.chip n).st ≠ .absent → portBelongs s.chip n m.id.part = true → arg m 0x11 1 ≤ 1 → 1 ≤ act → act ≤ 3 →
       arg m 0x14 1 = 0 → exec (.fog id) s = .next (s.after (doneCmd (onPort s.chip n (fun p =>
         let f : Fog := ⟨act, arg m 0x13 1, false, arg m 0x16 2, BitVec.ofNat 64 (arg m 0x18 8), BitVec.ofNat 32 (arg m 0x20 4), arg m 0x24 4, 0⟩
         if arg m 0x11 1 = 0 then { p with fogTx := f } else { p with fogRx := f })) m.id .ok 0 0))))

/-! Arrivals at the memories (03_memory.md). -/

/-- R83: a remote write of zero bytes performs no access and no window check, and completes at once. -/
def Obligations.ZeroByteRemoteWrite : Prop :=
  ∀ (w : RemoteWrite) (s : State), s.quiet → w.data = [] → exec (.remoteWrite w) s = .next s

/-- R60, R65, R70: a remote write to the stores or near scratchpads queues at the ejection port of its core; to any other address it is ADDRESS_RANGE. R80 to
R82, R388: when its first line is taken, a write of the present attempt that one open window with its tag admits, and whose bytes the job declares outside its
shelves, is written whole, and changes no other byte; one that no window admits changes nothing and is WINDOW_VIOLATION; one to bytes not declared is
ADDRESS_RANGE; one of a discarded attempt is dropped and counted. The write is one beat here, alone at its core. -/
def Obligations.RemoteWriteWindows : Prop :=
  (∀ (w : RemoteWrite) (s : State), s.quiet → w.data ≠ [] →
    ((inStore w.addr = true ∨ inAnyNear w.addr = true) → exec (.remoteWrite w) s =
      .next (s.put (atPort s.chip (coreAt w.addr) (.write w w.addr w.data.length)))) ∧
    (inStore w.addr = false → inAnyNear w.addr = false →
      ∃ c r, exec (.remoteWrite w) s = .next (s.after c) ∧ c = { s.chip with raised := [r] } ∧ r.code = 0x01 ∧ r.receiver = true ∧ r.addr = w.addr)) ∧
  (∀ (w : RemoteWrite) (t0 : Nat) (s : State), s.quiet → s.syncStill → w.data ≠ [] → (inStore w.addr = true ∨ inAnyNear w.addr = true) → t0 ≤ s.chip.now →
    let i := coreAt w.addr
    let n := w.data.length
    s.onlyBusy [i] → (core s.chip i).still s.chip.now → (core s.chip i).remq = [] → (core s.chip i).eject = [⟨t0, .write w w.addr n, 0, false⟩] →
    beatLen w.addr n = n →
    (dropped s.chip w.tag w.tick w.attempt = false → meshOff s.chip i = false →
      (windowTakes s.chip i w.addr n w.tag = true →
        (landOk s.chip i w.tag w.addr n = true →
          ∃ t, step s = .next t ∧ (∀ k, k < n → t.byte (w.addr + k) = w.data.getD k 0) ∧ (∀ a, a < w.addr ∨ w.addr + n ≤ a → t.byte a = s.byte a) ∧
            (core t.chip i).eject = [] ∧ (core t.chip i).remq = [] ∧
            t.chip.jobs = (noteWriter s.chip (jobOfCore s.chip i) w.src [(w.addr, n)]).jobs ∧ t.chip.safe.faultSeq = s.chip.safe.faultSeq) ∧
        (landOk s.chip i w.tag w.addr n = false →
          ∃ c r, step s = .next (s.after c) ∧ c.writes = [] ∧ c.raised = [r] ∧ r.code = 0x01 ∧ r.receiver = true ∧ r.addr = w.addr)) ∧
      (windowTakes s.chip i w.addr n w.tag = false →
        ∃ c, step s = .next (s.after c) ∧ c.writes = [] ∧ (∀ r ∈ c.raised, r.code = 0x05) ∧
          c.raised.head?.any (fun r => r.receiver && r.addr == w.addr && r.itemA == w.tag && r.itemB == n) = true)) ∧
    (dropped s.chip w.tag w.tick w.attempt = true →
      ∃ t, step s = .next t ∧ t.mem = s.mem ∧ t.chip.beacon.stale = s.chip.beacon.stale + 1 ∧ (core t.chip i).eject = [] ∧
        t.chip.safe.faultSeq = s.chip.safe.faultSeq))

/-- R73 to R75, R236: a shelf write queues at the ejection port of its core. When its first line is taken it is admitted where its slot of the writer's own job
is EMPTY, and each cycle 256 bytes land in the slot's lines and nowhere else; with the last of them the slot is FULL from the next cycle. Into a FULL slot it
is SHELF_OVERRUN and nothing is stored. R60, R65, R66, R82: a remote read of a program's declared store bytes queues at its core, takes a row a cycle, and
each row goes back, after the store-read latency of the job's profile and the path between the cores, to the core of this package that asked; any other address is
ADDRESS_RANGE and delivers zeros (R84); one of a discarded attempt is dropped and counted. The core has
nothing else in hand. -/
def Obligations.ShelvesAndRemoteReads : Prop :=
  (∀ (w : ShelfWrite) (s : State), s.quiet → w.core < 1024 → w.data ≠ [] → exec (.shelfWrite w) s =
     .next (s.put (atPort s.chip w.core (.shelf w 0 w.data.length)))) ∧
  (∀ (w : ShelfWrite) (j : Job) (d : ShelfDecl) (t0 done : Nat) (ok : Bool) (s : State), s.quiet → s.syncStill → s.onlyBusy [w.core] →
     (core s.chip w.core).still s.chip.now → (core s.chip w.core).remq = [] → t0 ≤ s.chip.now →
     (core s.chip w.core).eject = [⟨t0, .shelf w 0 w.data.length, done, ok⟩] → w.core < 1024 → w.tag ≠ 0 →
     jobOfCore s.chip w.core = w.tag → dropped s.chip w.tag w.tick w.attempt = false → meshOff s.chip w.core = false → coreJob s.chip w.core = some j →
     shelfOf j w.core w.shelf = some d → w.slot < d.slots → w.data.length = d.lines * 64 → done < w.data.length → done % 256 = 0 →
     let a := slotAddr d w.core w.slot
     let n := min 256 (w.data.length - done)
     (done = 0 ∧ guardFull (core s.chip w.core) s.chip.now w.shelf w.slot = false ∨ 0 < done ∧ ok = true →
       ∃ t, step s = .next t ∧ (∀ k, k < n → t.byte (a + done + k) = w.data.getD (done + k) 0) ∧
         (∀ b, b < a + done ∨ a + done + n ≤ b → t.byte b = s.byte b) ∧ t.chip.jobs = s.chip.jobs ∧
         (done + n < w.data.length → (core t.chip w.core).eject = [⟨t0, .shelf w 0 w.data.length, done + n, true⟩] ∧ (core t.chip w.core).guards = (core s.chip w.core).guards) ∧
         (done + n = w.data.length → (core t.chip w.core).eject = [] ∧ guardFull (core t.chip w.core) s.chip.now w.shelf w.slot = false ∧
           guardFull (core t.chip w.core) (s.chip.now + 1) w.shelf w.slot = true)) ∧
     (done = 0 → guardFull (core s.chip w.core) s.chip.now w.shelf w.slot = true →
       ∃ c r, step s = .next (s.after c) ∧ c.writes = [] ∧ c.raised = [r] ∧ r.code = 0x04 ∧ r.covers = true ∧
         (core c w.core).guards = (core s.chip w.core).guards)) ∧
  (∀ (r : RemoteRead) (s : State), s.quiet → 0 < r.len →
     (dropped s.chip r.tag r.tick r.attempt = true → ∃ t, exec (.remoteRead r) s = .next t ∧ t.chip.beacon.stale = s.chip.beacon.stale + 1 ∧
       t.chip.cores = s.chip.cores ∧ t.mem = s.mem) ∧
     (∀ j, dropped s.chip r.tag r.tick r.attempt = false → tfind s.chip.jobs r.tag = some j →
       ((∀ k < r.len, inStore (r.addr + k) = true ∧ inRanges j (r.addr + k) = true) →
         exec (.remoteRead r) s = .next (s.put (atPort s.chip (coreAt r.addr) (.read r)))) ∧
       ((∃ k < r.len, inStore (r.addr + k) = false ∨ inRanges j (r.addr + k) = false) →
         ∃ f, exec (.remoteRead r) s = .next (s.after (answerRead { s.chip with raised := [f] } (coreAt r.addr) r (List.replicate r.len 0))) ∧
           f.code = 0x01 ∧ f.addr = r.addr))) ∧
  (∀ (r : RemoteRead) (got : List Byte) (s : State), s.quiet → s.syncStill →
     let i := coreAt r.addr
     let a := r.addr + got.length
     let n := min (r.len - got.length) (256 - a % 256)
     let all := got ++ (List.range n).map (fun k => s.byte (a + k))
     ∀ j, tfind s.chip.jobs r.tag = some j →
     s.onlyBusy [i] → (core s.chip i).still s.chip.now → (core s.chip i).eject = [] → (core s.chip i).remq = [.read r got] → got.length < r.len →
     r.src / 1024 = s.chip.beacon.pkg → s.chip.safe.ecc = [] → s.chip.safe.injCtl = 0 →
     ∃ t, step s = .next t ∧ t.mem = s.mem ∧ t.chip.jobs = s.chip.jobs ∧ t.chip.out = s.chip.out ∧
       (core t.chip i).remq = (if all.length < r.len then [.read r all] else []) ∧
       (core t.chip i).replies = [(s.chip.now + Config.storeRead j.hdr.profile, { r with addr := a, len := n }, (List.range n).map (fun k => s.byte (a + k)))]) ∧
  (∀ (i t0 : Nat) (r : RemoteRead) (bs : List Byte) (s : State), s.quiet → s.syncStill → s.onlyBusy [i] →
     let k := core s.chip i
     let m := r.src % 1024
     k.flights = [] → k.a0.still → k.a1.still → k.eject = [] → k.remq = [] → k.replies = [(t0, r, bs)] → t0 ≤ s.chip.now → r.src / 1024 = s.chip.beacon.pkg →
     ∃ t, step s = .next t ∧ (core t.chip i).replies = [] ∧ t.mem = s.mem ∧ t.chip.jobs = s.chip.jobs ∧
       (core t.chip m).eject = sortBy (fun x => x.at_) ((core s.chip m).eject ++ [⟨s.chip.now + pathTime i m, .back r.addr bs, 0, false⟩]))

/-- R87 to R89, R357: scrub of a row of a powered stack finds a word with one bit in error, counts it in SCRUB_CE and marks it for write-back, which corrects
it unless a write reached the line; a pass older than its limit sets its alarm bit, with an event and a D2 record. -/
def Obligations.ScrubRules : Prop :=
  ∀ (near : Bool) (row k bit : Nat) (s : State), s.quiet → k < rowWords near → bit < 137 →
    s.chip.boot.stacksUp.getLsbD (rowCore near row / 256) = true → s.chip.safe.ecc = [] → s.chip.safe.fixes = [] →
    (∃ t, exec (.scrub near row []) s = .next t ∧ t.chip.safe.ceCount = s.chip.safe.ceCount ∧ t.chip.safe.ecc = [] ∧ t.mem = s.mem) ∧
    (∃ t, exec (.scrub near row [(k, [bit])]) s = .next t ∧ t.chip.safe.ceCount = min (s.chip.safe.ceCount + 1) (2 ^ 16 - 1) ∧
      t.chip.safe.fixes = [rowAddr near row / 16 + k] ∧ t.chip.safe.ecc = [(rowAddr near row / 16 + k, [bit])] ∧ t.mem = s.mem ∧
      ∃ u, exec (.scrubWriteBack (rowAddr near row / 16 + k)) t = .next u ∧ u.chip.safe.ecc = [] ∧ u.chip.safe.fixes = [] ∧ u.mem = s.mem) ∧
    exec (.scrubWriteBack (rowAddr near row / 16 + k)) s = .next s ∧
    (s.chip.boot.stacksUp = 0xF#4 → s.chip.safe.storeLate = false → s.chip.safe.storePass + 16000 * Config.ms ≤ s.chip.now →
      ∃ t, exec .storeLate s = .next t ∧ t.chip.safe.storeLate = true ∧ t.chip.safe.nearLate = s.chip.safe.nearLate ∧
        t.chip.safe.eventSeq = (s.chip.safe.eventSeq + 1) % 2 ^ 16 ∧ t.chip.safe.faultSeq = (s.chip.safe.faultSeq + 1) % 2 ^ 16) ∧
    (s.chip.boot.stacksUp = 0xF#4 → s.chip.safe.nearLate = false → s.chip.safe.nearPass + 1000 * Config.ms ≤ s.chip.now →
      ∃ t, exec .nearLate s = .next t ∧ t.chip.safe.nearLate = true ∧ t.chip.safe.storeLate = s.chip.safe.storeLate ∧
        t.chip.safe.eventSeq = (s.chip.safe.eventSeq + 1) % 2 ^ 16 ∧ t.chip.safe.faultSeq = (s.chip.safe.faultSeq + 1) % 2 ^ 16) ∧
    (s.chip.safe.storeLate = true → exec .storeLate s = .next s) ∧ (s.chip.safe.nearLate = true → exec .nearLate s = .next s)

/-! Cores (07_matrix.md, 08_vector.md, 09_keeper.md). -/

/-- R180, R208, R225, R230, R235: MNOP, VNOP, BNOP and SNOP only leave their queue; no slot command does anything while its queue's head may not issue. R180,
R208, R225, R230, R235, R262: a head with an unlisted opcode leaves its queue with the encoding fault of its engine, and one whose engine the declared set
lacks with ENGINE_ABSENT; neither does anything else before the fault is settled. -/
def Obligations.IdleAndBadSlots : Prop :=
  (∀ (i a : Nat) (sl : QSlot) (s : State), s.quiet → i < 1024 → a < 2 →
     (Head s i (mq a) sl 0 → exec (.mnop i a) s = .next (s.put (popHead s.chip i (mq a)))) ∧
     (Head s i .v sl 0 → exec (.vnop i) s = .next (s.put (popHead s.chip i .v))) ∧
     (Head s i .b sl 0 → exec (.bnop i) s = .next (s.put (popHead s.chip i .b))) ∧
     (Head s i .s sl 0 → exec (.snop i) s = .next (s.put (popHead s.chip i .s))) ∧
     (headNow s.chip i (mq a) = none → ∀ q ∈ [Instr.mnop i a, .mload i a, .muse i a, .mouter i a, .mdrain i a, .mmerge i a], exec q s = .next s) ∧
     (headNow s.chip i .v = none → ∀ q ∈ [Instr.vnop i, .vchain i, .vprog i, .vred i, .vperm i, .vdraw i, .vflag i, .vtest i], exec q s = .next s) ∧
     (headNow s.chip i .b = none → ∀ q ∈ [Instr.bnop i, .set i, .add i, .wait i, .testAndSet i, .clear i, .barrier i], exec q s = .next s) ∧
     (headNow s.chip i .s = none → ∀ q ∈ [Instr.snop i, .sbind i, .sshelf i, .smove i], exec q s = .next s)) ∧
  (∀ (i : Nat) (q : Queue) (sl : QSlot) (x : Instr) (s : State), s.quiet → i < 1024 → headNow s.chip i q = some sl → Enabled s i sl →
     (q, x) ∈ [(.m0, Instr.mnop i 0), (.m1, .mnop i 1), (.v, .vnop i), (.b, .bnop i), (.s, .snop i)] →
     (enginePresent s.env s.chip i q = false → ∃ c r, exec x s = .next (s.after c) ∧ c = { popHead s.chip i q with raised := [r] } ∧ r.code = 0x0A ∧
       r.lw = sl.lw ∧ r.covers = true) ∧
     (enginePresent s.env s.chip i q = true → queueTop q < opOf sl.w → ∃ c r, exec x s = .next (s.after c) ∧
       c = { popHead s.chip i q with raised := [r] } ∧ r.code = faultNo (queueFault q) ∧ r.lw = sl.lw ∧ r.covers = true))

/-- R163, R164, R165: a valid MLOAD with a free shadow puts a tile of its format into the shadow and its load wave behind the waves before it, with the cycles
from which its six groups are in hand, rising; it leaves the active tile and the accumulators. A taken shadow is SHADOW_FULL and an invalid field M_ENCODING.
R159 to R163, R174, R175: a valid MUSE completes with each form of its fields: it takes the shadow as the active tile with SWAP, sends its vectors into the wave
two cycles after its issue, occupies its array for them by the use cycle of the formats, and stores nothing yet; a valid MOUTER does the same with its tokens. -/
def Obligations.MatrixLoadsAndUses : Prop :=
  (∀ (i a : Nat) (sl : QSlot) (j : Job) (s : State), s.quiet → i < 1024 → a < 2 → Head s i (mq a) sl 1 → coreJob s.chip i = some j →
     let src := sf sl.w 53 52
     let k := arrOf (core s.chip i) a
     let id := (core s.chip i).nextId
     (sf sl.w 57 54 < 14 → src ≠ 3 → (src = 1 → sf sl.w 57 54 < 2) → k.shadow = none →
       Claimed s i 1 (if src = 2 then [sf sl.w 51 47, sf sl.w 46 42] else [sf sl.w 51 47]) →
       ∃ c t hand, exec (.mload i a) s = .next (s.after c) ∧ (arrOf (core c i) a).shadow = some id ∧ tfind (arrOf (core c i) a).tiles id = some t ∧
         t.fmt = sf sl.w 57 54 ∧ (arrOf (core c i) a).loads = k.loads ++ [⟨id, hand, 0, 0⟩] ∧ (src ≠ 1 → hand.length = 6 ∧ hand.Pairwise (· < ·)) ∧
         (arrOf (core c i) a).active = k.active ∧ (arrOf (core c i) a).acc = k.acc ∧ (core c i).flights.length = (core s.chip i).flights.length + 1 ∧
         c.writes = []) ∧
     (sf sl.w 57 54 < 14 → src ≠ 3 → (src = 1 → sf sl.w 57 54 < 2) → k.shadow ≠ none →
       ∃ c r, exec (.mload i a) s = .next (s.after c) ∧ c = { popHead s.chip i (mq a) with raised := [r] } ∧ r.code = 0x0E) ∧
     ((14 ≤ sf sl.w 57 54 ∨ src = 3 ∨ (src = 1 ∧ 2 ≤ sf sl.w 57 54)) →
       ∃ c r, exec (.mload i a) s = .next (s.after c) ∧ c = { popHead s.chip i (mq a) with raised := [r] } ∧ r.code = 0x0F)) ∧
  (∀ (i a : Nat) (sl : QSlot) (s : State), s.quiet → i < 1024 → a < 2 →
     (let k := arrOf (core s.chip i) a
      let swap := sf sl.w 50 50 = 1
      let trans := sf sl.w 49 49 = 1
      let fin := sf sl.w 47 47 = 1
      let n := sf sl.w 38 32
      ∀ j t tile, Head s i (mq a) sl 2 → coreJob s.chip i = some j → (if swap then k.shadow else k.active) = some t → tfind k.tiles t = some tile →
       sf sl.w 57 54 < 14 → sf sl.w 26 25 ≠ 3 → (fin → sf sl.w 53 51 ≠ 7) → (trans → pathAbsent s.env s.chip i 4 = false ∧ cellQ tile.fmt ≠ 2) →
       0 < n → n ≤ 64 →
       Claimed s i n ([sf sl.w 31 27, sf sl.w 24 20] ++ (if fin then [sf sl.w 19 15] else []) ++
         (if fin ∧ sf sl.w 45 45 = 1 then [sf sl.w 14 10] else [])) →
       ∃ c, exec (.muse i a) s = .next (s.after c) ∧ (arrOf (core c i) a).wave.length = k.wave.length + n ∧
         (arrOf (core c i) a).ready = s.chip.now + n * useCycle (cellQ tile.fmt) (widest tile.fmt (sf sl.w 57 54)) ∧
         (arrOf (core c i) a).active = some t ∧ (arrOf (core c i) a).shadow = (if swap then none else k.shadow) ∧ (arrOf (core c i) a).acc = k.acc ∧
         (core c i).flights.length = (core s.chip i).flights.length + 1 ∧ c.writes = []) ∧
     (let k := arrOf (core s.chip i) a
      let n := sf sl.w 48 42
      Head s i (mq a) sl 3 → pathAbsent s.env s.chip i 5 = false → sf sl.w 57 54 < 14 → sf sl.w 53 50 < 14 → 0 < n → n ≤ 64 →
       Claimed s i n [sf sl.w 41 37, sf sl.w 36 32, sf sl.w 31 27] →
       ∃ c, exec (.mouter i a) s = .next (s.after c) ∧ (arrOf (core c i) a).wave.length = k.wave.length + n ∧
         (arrOf (core c i) a).ready = s.chip.now + n * (if 8 < widest (sf sl.w 57 54) (sf sl.w 53 50) then 2 else 1) ∧
         (arrOf (core c i) a).acc = k.acc ∧ (arrOf (core c i) a).cells = k.cells ∧ (core c i).flights.length = (core s.chip i).flights.length + 1 ∧
         c.writes = []))

/-- R181: an M slot whose COUNT is 0, with valid fields, retires at once with no effect but leaving its queue. R161, R162, R175, R181: a valid MDRAIN puts its
entries, or its rows of cells, in order behind the drains before it and occupies the array one cycle a vector, three for records; a valid MMERGE occupies it
for the lines of its records. Neither stores at its issue. R160, R161: a drain of one entry that may leave goes in one beat, and then its entry is clear and no
other has changed. -/
def Obligations.MatrixDrains : Prop :=
  (∀ (i a : Nat) (sl : QSlot) (s : State), s.quiet → i < 1024 → a < 2 → pathAbsent s.env s.chip i 4 = false → pathAbsent s.env s.chip i 5 = false →
     (Head s i (mq a) sl 2 → sf sl.w 57 54 < 14 → sf sl.w 26 25 ≠ 3 → sf sl.w 53 51 ≠ 7 → sf sl.w 49 49 = 0 → sf sl.w 38 32 = 0 →
       exec (.muse i a) s = .next (s.put (popHead s.chip i (mq a)))) ∧
     (Head s i (mq a) sl 3 → sf sl.w 57 54 < 14 → sf sl.w 53 50 < 14 → sf sl.w 48 42 = 0 →
       exec (.mouter i a) s = .next (s.put (popHead s.chip i (mq a)))) ∧
     (Head s i (mq a) sl 4 → sf sl.w 57 55 ≠ 7 → sf sl.w 45 39 = 0 → exec (.mdrain i a) s = .next (s.put (popHead s.chip i (mq a)))) ∧
     (Head s i (mq a) sl 5 → sf sl.w 56 54 ≠ 7 → sf sl.w 45 39 = 0 → exec (.mmerge i a) s = .next (s.put (popHead s.chip i (mq a))))) ∧
  (∀ (i a : Nat) (sl : QSlot) (s : State), s.quiet → i < 1024 → a < 2 →
     let k := arrOf (core s.chip i) a
     let n := sf sl.w 45 39
     (let cells := sf sl.w 54 54 = 1
      Head s i (mq a) sl 4 → (cells → pathAbsent s.env s.chip i 5 = false) → sf sl.w 57 55 ≠ 7 → 0 < n → n ≤ (if cells then 48 else 64) →
       Claimed s i n ([sf sl.w 38 34] ++ (if sf sl.w 52 52 = 1 then [sf sl.w 33 29] else [])) →
       ∃ c, exec (.mdrain i a) s = .next (s.after c) ∧ (arrOf (core c i) a).drains = k.drains ++ (List.range n).map (fun t =>
           ⟨(core s.chip i).nextId, t, if cells then t else (sf sl.w 51 46 + t) % 64, decide cells, none, 0⟩) ∧
         (arrOf (core c i) a).ready = s.chip.now + n * (if sf sl.w 57 55 = 6 then 3 else 1) ∧
         (arrOf (core c i) a).active = k.active ∧ (arrOf (core c i) a).acc = k.acc ∧ (arrOf (core c i) a).cells = k.cells ∧ c.writes = []) ∧
     (let fin := sf sl.w 57 57 = 1
      Head s i (mq a) sl 5 → (fin → sf sl.w 56 54 ≠ 7) → 0 < n → n ≤ 64 →
       Claimed s i n ([sf sl.w 37 33] ++ (if fin then [sf sl.w 32 28] else []) ++ (if fin ∧ sf sl.w 52 52 = 1 then [sf sl.w 27 23] else [])) →
       ∃ c, exec (.mmerge i a) s = .next (s.after c) ∧
         (arrOf (core c i) a).ready = s.chip.now + cdiv (n * (if sf sl.w 38 38 = 1 then 48 else 32) * 24) 256 ∧
         (core c i).flights.length = (core s.chip i).flights.length + 1 ∧
         (arrOf (core c i) a).active = k.active ∧ (arrOf (core c i) a).acc = k.acc ∧ c.writes = [])) ∧
  (∀ (i a : Nat) (f : Flight) (d : Drain) (s : State), s.quiet → s.syncStill → s.onlyBusy [i] → a < 2 →
     let k := core s.chip i
     let m := arrOf k a
     k.eject = [] → k.remq = [] → k.flights = [f] → f.id = d.fl → opOf f.slot.w = 4 → f.todo = [⟨0, .stay⟩] → sf f.slot.w 57 55 < 6 →
     (arrOf k (1 - a)).still → m.wave = [] → m.loads = [] → m.frozeAt = none → m.drains = [d] → d.cells = false → d.beat = 0 → d.ins = none →
     (tget [] m.acc d.place).length ≤ 48 →
     ∃ c, step s = .next (s.after c) ∧ (arrOf (core c i) a).drains = [] ∧ tfind (arrOf (core c i) a).acc d.place = none ∧
       (∀ p, p ≠ d.place → tfind (arrOf (core c i) a).acc p = tfind m.acc p) ∧ c.writes = [])

/-- R188, R194, R196, R198, R202, R227: a V slot whose predicate is false, or whose count is 0, touches no stream and no memory and occupies the engine as
long as its rule says. R187 to R206: a V slot that runs occupies the engine for the cycles its rule gives: VCHAIN one a group of 64, two where complex; VPROG
16 a word and group of 1,024; VRED one a group, for top-k no fewer than k / 8; VPERM one a group; VDRAW 2 G + 72 a segment. R208: a format field that does not
apply is V_ENCODING. R186 to R190: a group of a plain chain with binary32 output is written Λ cycles after its read, each element with its stage's value. R203,
R205, R227: VFLAG captures the lane flags set before its issue, four bits a lane from lane 0 up, and clears them where its mode says; VTEST writes its predicate
as of the second cycle after its issue, with the condition on the element it has read. -/
def Obligations.VectorSlots : Prop :=
  (∀ (i : Nat) (sl : QSlot) (s : State), s.quiet → i < 1024 →
     (∀ ch, Head s i .v sl 1 → chainOf s.chip i (sf sl.w 54 49) = some ch → strayFormat ch false = false →
       (sf sl.w 48 31 = 0 → exec (.vchain i) s = .next (s.put (occupy (popHead s.chip i .v) i .v 1))) ∧
       (0 < sf sl.w 48 31 → ¬ Enabled s i sl → exec (.vchain i) s =
         .next (s.put (occupy (popHead s.chip i .v) i .v ((if ch.complex then 2 else 1) * cdiv (sf sl.w 48 31) 64))))) ∧
     (∀ ch, Head s i .v sl 1 → chainOf s.chip i (sf sl.w 54 49) = some ch → strayFormat ch false = true →
       ∃ c r, exec (.vchain i) s = .next (s.after c) ∧ c = { popHead s.chip i .v with raised := [r] } ∧ r.code = faultNo .vEncoding ∧ r.lw = sl.lw) ∧
     (∀ p, Head s i .v sl 2 → progOf s.chip i (sf sl.w 54 51) = some p →
       (sf sl.w 50 33 = 0 → exec (.vprog i) s = .next (s.put (occupy (popHead s.chip i .v) i .v 1))) ∧
       (0 < sf sl.w 50 33 → ¬ Enabled s i sl →
         exec (.vprog i) s = .next (s.put (occupy (popHead s.chip i .v) i .v (16 * p.words.length * cdiv (sf sl.w 50 33) 1024))))) ∧
     (∀ ch, Head s i .v sl 3 → chainOf s.chip i (sf sl.w 54 49) = some ch → ch.complex = false → strayFormat ch true = false → sf sl.w 48 46 < 5 →
       (sf sl.w 23 15 = 0 → exec (.vred i) s = .next (s.put (occupy (popHead s.chip i .v) i .v 1))) ∧
       (0 < sf sl.w 23 15 → ¬ Enabled s i sl → exec (.vred i) s = .next (s.put (occupy (popHead s.chip i .v) i .v
         (sf sl.w 23 15 * segCycles (sf sl.w 48 46) (sf sl.w 45 40 + 1) (sf sl.w 39 24 + 1)))))) ∧
     (Head s i .v sl 5 →
       (sf sl.w 34 26 = 0 → exec (.vdraw i) s = .next (s.put (occupy (popHead s.chip i .v) i .v 1))) ∧
       (0 < sf sl.w 34 26 → ¬ Enabled s i sl →
         exec (.vdraw i) s = .next (s.put (occupy (popHead s.chip i .v) i .v (sf sl.w 34 26 * (2 * cdiv (sf sl.w 50 35 + 1) 64 + 72)))))) ∧
     (Head s i .v sl 6 → sf sl.w 54 53 ≠ 3 → ¬ Enabled s i sl → exec (.vflag i) s = .next (s.put (occupy (popHead s.chip i .v) i .v 1))) ∧
     (Head s i .v sl 7 → sf sl.w 54 52 ≠ 0 → ¬ Enabled s i sl → exec (.vtest i) s = .next (s.put (occupy (popHead s.chip i .v) i .v 1)))) ∧
  (∀ (i : Nat) (sl : QSlot) (s : State), s.quiet → i < 1024 → Enabled s i sl →
     (∀ ch, Head s i .v sl 1 → chainOf s.chip i (sf sl.w 54 49) = some ch → strayFormat ch false = false → 0 < sf sl.w 48 31 →
       Claimed s i (sf sl.w 48 31) ((chainIns ch [sf sl.w 30 26, sf sl.w 25 21, sf sl.w 20 16]).map (fun x => x.2.1) ++
         ([sf sl.w 15 11] ++ if ch.eEn then [sf sl.w 10 6] else [])) →
       ∃ c, exec (.vchain i) s = .next (s.after c) ∧ (core c i).vReady = s.chip.now + (if ch.complex then 2 else 1) * cdiv (sf sl.w 48 31) 64 ∧
         (core c i).v = (core s.chip i).v.tail ∧ (core c i).flights.length = (core s.chip i).flights.length + 1 ∧ c.writes = []) ∧
     (∀ p, Head s i .v sl 2 → progOf s.chip i (sf sl.w 54 51) = some p → 0 < sf sl.w 50 33 → 0 < p.words.length →
       Claimed s i (sf sl.w 50 33) ((progIns p sl.w).map Prod.fst ++ (progOuts p sl.w).map Prod.fst) →
       ∃ c, exec (.vprog i) s = .next (s.after c) ∧ (core c i).vReady = s.chip.now + 16 * p.words.length * cdiv (sf sl.w 50 33) 1024 ∧
         (core c i).v = (core s.chip i).v.tail ∧ (core c i).flights.length = (core s.chip i).flights.length + 1 ∧ c.writes = []) ∧
     (∀ ch, Head s i .v sl 3 → chainOf s.chip i (sf sl.w 54 49) = some ch → ch.complex = false → strayFormat ch true = false → sf sl.w 48 46 < 5 →
       0 < sf sl.w 23 15 →
       Claimed s i (sf sl.w 23 15 * (sf sl.w 39 24 + 1)) ((chainIns ch [sf sl.w 14 10, sf sl.w 9 5]).map (fun x => x.2.1) ++ [sf sl.w 4 0]) →
       ∃ c, exec (.vred i) s = .next (s.after c) ∧ (core c i).v = (core s.chip i).v.tail ∧ (core c i).vReady = s.chip.now + sf sl.w 23 15 *
         (if sf sl.w 48 46 = 4 then max (cdiv (sf sl.w 39 24 + 1) 64) (cdiv (sf sl.w 45 40 + 1) 8) else cdiv (sf sl.w 39 24 + 1) 64) ∧
         (core c i).flights.length = (core s.chip i).flights.length + 1 ∧ c.writes = []) ∧
     (let g := sf sl.w 50 39 + 1
      let r := sf sl.w 38 27 + 1
      Head s i .v sl 4 → sf sl.w 54 53 ≠ 3 → sf sl.w 52 51 ≠ 3 → (sf sl.w 54 53 = 2 → g % r = 0) →
       (g = 2 ∨ g = 4 ∨ g = 8 ∨ g = 16 ∨ g = 32 ∨ g = 64 ∨ g = 128 ∨ g = 256 ∨ g = 512 ∨ g = 1024 ∨ g = 2048 ∨ g = 4096 ∨
         (sf sl.w 54 53 ≠ 1 ∧ g % 64 = 0)) → 0 < sf sl.w 26 15 →
       Claimed s i (sf sl.w 26 15 * g) ([sf sl.w 14 10, sf sl.w 4 0] ++ if sf sl.w 54 53 = 0 then [sf sl.w 9 5] else []) →
       ∃ c, exec (.vperm i) s = .next (s.after c) ∧ (core c i).vReady = s.chip.now + cdiv (sf sl.w 26 15 * g) 64 ∧ (core c i).v = (core s.chip i).v.tail ∧
         (core c i).flights.length = (core s.chip i).flights.length + 1 ∧ c.writes = []) ∧
     (Head s i .v sl 5 → 0 < sf sl.w 34 26 →
       Claimed s i (sf sl.w 34 26 * (sf sl.w 50 35 + 1)) [sf sl.w 25 21, sf sl.w 20 16, sf sl.w 15 11] →
       ∃ c, exec (.vdraw i) s = .next (s.after c) ∧ (core c i).vReady = s.chip.now + sf sl.w 34 26 * (2 * cdiv (sf sl.w 50 35 + 1) 64 + 72) ∧
         (core c i).v = (core s.chip i).v.tail ∧ (core c i).flights.length = (core s.chip i).flights.length + 1 ∧ c.writes = [])) ∧
  (∀ (i : Nat) (sl : QSlot) (s : State), s.quiet → i < 1024 → Enabled s i sl →
     (Head s i .v sl 6 → sf sl.w 54 53 = 2 → ∃ t, exec (.vflag i) s = .next t ∧
       (core t.chip i).flags = (core s.chip i).flags.filter (fun f => decide (s.chip.now ≤ f.at_)) ∧ (core t.chip i).vReady = s.chip.now + 1 ∧
       t.mem = s.mem ∧ t.chip.jobs = s.chip.jobs) ∧
     (Head s i .v sl 6 → sf sl.w 54 53 < 2 → Claimed s i 1 [sf sl.w 52 48] → ∃ c f cap, exec (.vflag i) s = .next (s.after c) ∧
       (core c i).flights = (core s.chip i).flights ++ [f] ∧ f.todo = [⟨s.chip.now, .write 0 0 [cap]⟩] ∧
       (∀ l < 64, cap / 16 ^ l % 16 = (flagsBefore (core s.chip i) s.chip.now l).toNat) ∧
       (core c i).flags = (if sf sl.w 54 53 = 1 then (core s.chip i).flags.filter (fun f => decide (s.chip.now ≤ f.at_)) else (core s.chip i).flags) ∧
       (core c i).vReady = s.chip.now + 1 ∧ c.writes = [] ∧ c.jobs = s.chip.jobs) ∧
     (Head s i .v sl 7 → sf sl.w 54 52 ≠ 0 → Claimed s i 1 [sf sl.w 49 45] →
       ∃ c f, exec (.vtest i) s = .next (s.after c) ∧ (core c i).flights = (core s.chip i).flights ++ [f] ∧ f.slot = sl ∧ f.start = s.chip.now ∧
         ⟨s.chip.now, .read 0 0 1⟩ ∈ f.todo ∧ ⟨s.chip.now, .calc 0⟩ ∈ f.todo ∧ (core c i).preds = (core s.chip i).preds ∧
         c.writes = [] ∧ (core c i).vReady = s.chip.now + 1)) ∧
  (∀ (i : Nat) (f : Flight) (s : State), s.quiet → s.syncStill → s.onlyBusy [i] → i < 1024 →
     let k := core s.chip i
     k.eject = [] → k.remq = [] → k.flights = [f] → k.a0.still → k.a1.still → f.eng = 2 → f.todo = [⟨s.chip.now, .calc 0⟩] →
     (let v := ((taken f 0 0 1).headD Opnd.zero).code
      opOf f.slot.w = 7 → ∃ c, step s = .next (s.after c) ∧
       (core c i).preds = k.preds ++ [⟨f.start + 2, 2, sf f.slot.w 54 52, (match sf f.slot.w 51 50 with
           | 0 => valIsNaN (b32 v) || fabs v != 0 | 1 => valIsNaN (b32 v) | 2 => anySpecial [b32 v] | _ => v != 0)⟩] ∧
       (core c i).flights = [] ∧ c.writes = []) ∧
     (∀ ch o, opOf f.slot.w = 1 → chainOf s.chip i (sf f.slot.w 54 49) = some ch → ch.complex = false → ch.eEn = false → ch.ofmt.getD 0 0 = 14 →
       f.ops[f.outs]? = some o →
       let n := sf f.slot.w 48 31
       let xs := chainElems ch f (inPos f (chainIns ch [sf f.slot.w 30 26, sf f.slot.w 25 21, sf f.slot.w 20 16])) 0 (min 64 n) 0
       ∃ c g, step s = .next (s.after c) ∧ (core c i).flights = [g] ∧
         g.todo = [⟨s.chip.now + 3 + chainLat (profileOf s.chip i) ch, .write f.outs 0 (xs.map (fun x => ((runChain ch x).1.getD ch.dSel (0, 0)).1))⟩] ∧
         c.writes = [] ∧ c.jobs = s.chip.jobs))

/-- R60, R76, R183, R234: a matrix or vector slot stores nothing in the cycle it issues and changes no other core, ring, partition, request, buoy, port, lamp,
context or register of the Beacon. In a cycle, every byte that a matrix or vector slot in flight stores lies in a declared range of the core's job, outside its
shelves, in the core's own slice or near scratchpad, and in the near scratchpad where its streams are a vector engine's; no other core changes. -/
def Obligations.SlotStoresStayHome : Prop :=
  (∀ (i a : Nat) (s : State), s.quiet → i < 1024 → a < 2 →
    let kept := fun (c : Chip) => (∀ k, k ≠ i → core c k = core s.chip k) ∧ c.writes = [] ∧ c.clears = [] ∧ c.parts = s.chip.parts ∧
      c.rings = s.chip.rings ∧ c.cmds = s.chip.cmds ∧ c.reqs = s.chip.reqs ∧ c.buoys = s.chip.buoys ∧ c.bars = s.chip.bars ∧ c.ports = s.chip.ports ∧
      c.lamps = s.chip.lamps ∧ c.ctxs = s.chip.ctxs ∧ c.beacon = s.chip.beacon ∧ c.boot = s.chip.boot ∧ c.now = s.chip.now
    (∀ q ∈ [Instr.vnop i, .vchain i, .vprog i, .vred i, .vperm i, .vdraw i, .vflag i, .vtest i],
      ∃ c, exec q s = .next (s.after c) ∧ kept c ∧ c.jobs = s.chip.jobs) ∧
    (∀ q ∈ [Instr.mnop i a, .mload i a, .muse i a, .mouter i a, .mdrain i a, .mmerge i a], ∃ c, exec q s = .next (s.after c) ∧ kept c)) ∧
  (∀ (i : Nat) (s : State), s.quiet → s.syncStill → s.onlyBusy [i] → i < 1024 →
    let k := core s.chip i
    k.eject = [] → k.remq = [] → k.replies = [] →
    (∀ f ∈ k.flights, f.eng ≤ 2 ∧ (∀ o ∈ f.ops, o.reach ≠ .move) ∧ ∀ t ∈ f.todo, (∀ ws, t.act ≠ .land ws) ∧ ∀ b, t.act ≠ .beat b ∧ t.act ≠ .fetch b) →
    ∃ c, step s = .next (s.after c) ∧ (∀ k, k ≠ i → core c k = core s.chip k) ∧
      (∀ w ∈ c.writes, ∀ x < w.2.length, ∃ j, coreJob s.chip i = some j ∧ plainOk j i false (w.1 + x) = true) ∧
      ((∀ f ∈ k.flights, ∀ o ∈ f.ops, o.reach = .nearOnly) →
        ∀ w ∈ c.writes, ∀ x < w.2.length, ∃ j, coreJob s.chip i = some j ∧ plainOk j i true (w.1 + x) = true))

/-- R231 to R235: SBIND and SSHELF bind a stream that no slot holds; claims see the new binding, with its cursor at 0, from the next cycle and the old one in
this cycle; a held stream is STREAM_BUSY. R227, R237, R264: a move of no elements only leaves its queue, unless it notifies: then the local buoy rises by 1 in
the next cycle; a move of elements takes the move unit one beat of 256 B at a time, or runs beside it where it touches the host tier; with the move unit still
at work a move of elements waits, and one of none does not; invalid fields are S_ENCODING; the end of a host-tier move of the present attempt lands its bytes and nothing else, and of an older attempt nothing (R82). -/
def Obligations.StreamsAndMoves : Prop :=
  (∀ (i : Nat) (sl : QSlot) (j : Job) (s : State), s.quiet → i < 1024 → Enabled s i sl → coreJob s.chip i = some j →
     (let d := (tfind j.decl.descs (i * 256 + sf sl.w 49 42)).getD (List.replicate 64 0)
      Head s i .s sl 1 → descOk (parseDesc d) = true → sf sl.w 41 40 ≠ 3 →
       (busy (core s.chip i) (sf sl.w 54 50) = false → ∃ t, exec (.sbind i) s = .next t ∧
         (let st := streamOf (core t.chip i) (sf sl.w 54 50)
          (bindOf st (s.chip.now + 1)).kind = 1 ∧ (bindOf st (s.chip.now + 1)).desc = d ∧ (bindOf st (s.chip.now + 1)).cursor = 0 ∧
          bindOf st s.chip.now = bindOf (streamOf (core s.chip i) (sf sl.w 54 50)) s.chip.now) ∧ t.mem = s.mem ∧ t.chip.jobs = s.chip.jobs) ∧
       (busy (core s.chip i) (sf sl.w 54 50) = true → ∃ c r, exec (.sbind i) s = .next (s.after c) ∧
         c = { popHead s.chip i .s with raised := [r] } ∧ r.code = 0x19)) ∧
     (Head s i .s sl 2 →
       (busy (core s.chip i) (sf sl.w 54 50) = false → ∃ t, exec (.sshelf i) s = .next t ∧
         (let b := bindOf (streamOf (core t.chip i) (sf sl.w 54 50)) (s.chip.now + 1)
          b.kind = (if sf sl.w 29 29 = 1 then 3 else 2) ∧ b.shelf = sf sl.w 49 42 ∧ b.slot = sf sl.w 41 30 ∧ b.drain = (sf sl.w 28 28 == 1) ∧
          b.core = sf sl.w 21 0 ∧ b.cursor = 0) ∧ t.mem = s.mem ∧ t.chip.jobs = s.chip.jobs) ∧
       (busy (core s.chip i) (sf sl.w 54 50) = true → ∃ c r, exec (.sshelf i) s = .next (s.after c) ∧
         c = { popHead s.chip i .s with raised := [r] } ∧ r.code = 0x19))) ∧
  (∀ (i : Nat) (sl : QSlot) (s : State), s.quiet → i < 1024 →
     (Head s i .s sl 3 → Enabled s i sl →
       ((sf sl.w 44 43 ≠ 0 ∧ sf sl.w 42 41 ≠ 0) ∨ (sf sl.w 44 43 ≠ 0 ∧ sf sl.w 40 39 = 3) ∨ sf sl.w 38 37 = 3) → (core s.chip i).moveReady ≤ s.chip.now →
       ∃ r, exec (.smove i) s = .next (s.after { popHead s.chip i .s with raised := [r] }) ∧ r.code = faultNo .sEncoding ∧ r.lw = sl.lw ∧ r.covers = true) ∧
     (Head s i .s sl 3 → Enabled s i sl →
       ¬ ((sf sl.w 44 43 ≠ 0 ∧ sf sl.w 42 41 ≠ 0) ∨ (sf sl.w 44 43 ≠ 0 ∧ sf sl.w 40 39 = 3) ∨ sf sl.w 38 37 = 3) →
       (sf sl.w 36 19 = 0 → sf sl.w 18 18 = 0 → exec (.smove i) s = .next (s.put (popHead s.chip i .s))) ∧
       (sf sl.w 36 19 = 0 → sf sl.w 18 18 = 1 → ∃ x, exec (.smove i) s = .next (s.put { popHead s.chip i .s with buoyq := s.chip.buoyq ++ [x] }) ∧
         x.at_ = s.chip.now + 1 ∧ x.m.ref = s.chip.beacon.pkg * 2 ^ 18 + sf sl.w 17 0 ∧ x.m.op = .add ∧ x.m.val = 1 ∧ x.m.job = jobOfCore s.chip i) ∧
       (∀ j, coreJob s.chip i = some j → 0 < sf sl.w 36 19 → (core s.chip i).moveReady ≤ s.chip.now → Claimed s i (sf sl.w 36 19) [sf sl.w 54 50, sf sl.w 49 45] →
         let b := bindOf (streamOf (core s.chip i) (sf sl.w 49 45)) s.chip.now
         let sh := moveShape sl.w
         (b.kind = 3 → ∃ x, boundShelf j i b = some x ∧ b.slot < x.slots ∧ sh.2.2.2 * sh.2.2.1 / 8 = x.lines * 64) →
         ∃ c, exec (.smove i) s = .next (s.after c) ∧ (core c i).s = (core s.chip i).s.tail ∧ c.writes = [] ∧
           (((core c i).moves = (core s.chip i).moves ∧ (core c i).moveReady = s.chip.now + cdiv (sh.2.2.2 * sh.2.2.1 / 8) 256 ∧
               (core c i).flights.length = (core s.chip i).flights.length + 1) ∨
            (∃ m, (core c i).moves = (core s.chip i).moves ++ [m] ∧ m.sids = [sf sl.w 54 50, sf sl.w 49 45] ∧
               (core c i).moveReady = (core s.chip i).moveReady)))) ∧
     (∀ q rest, (core s.chip i).s = q :: rest → sf q.w 36 19 ≠ 0 → s.chip.now < (core s.chip i).moveReady → exec (.smove i) s = .next s) ∧
     (∀ m rest, (core s.chip i).moves = m :: rest → m.notify = false → (∀ x ∈ m.dst, linkWaits s.chip x.1 = false) →
       goneAttempt s.chip (jobOfCore s.chip i) m.tick m.attempt = false →
       ∃ t, exec (.hostTierMoveDone i) s = .next t ∧ (core t.chip i).moves = rest ∧ t.mem = m.dst.foldl (fun m x => m.writeBytes x.1 x.2) s.mem ∧
         t.chip.jobs = s.chip.jobs) ∧
     (∀ m rest, (core s.chip i).moves = m :: rest → (∀ x ∈ m.dst, linkWaits s.chip x.1 = false) →
       goneAttempt s.chip (jobOfCore s.chip i) m.tick m.attempt = true →
       ∃ t, exec (.hostTierMoveDone i) s = .next t ∧ (core t.chip i).moves = rest ∧ t.mem = s.mem) ∧
     (∀ m rest, (core s.chip i).moves = m :: rest → (∃ x ∈ m.dst, linkWaits s.chip x.1 = true) → exec (.hostTierMoveDone i) s = .next s) ∧
     ((core s.chip i).moves = [] → exec (.hostTierMoveDone i) s = .next s))

/-- R213, R215 to R223: a running context whose time has come, with fewer than 32 words outstanding, fetches its next long word and delivers it, with the CRC of
its header and slots, to the FIFO of every core of its bands 10 cycles on; the next fetch comes after WAIT + 1 cycles. Copies of the Keeper that differ, in
whatever cycle, are KEEPER_LOCKSTEP, and the context fetches nothing more. -/
def Obligations.LongWordBroadcast : Prop :=
  ∀ (x : Nat) (s : State), s.quiet → x < 16 →
    (let t := ctx s.chip x
     let h := leNat ((List.range 4).map (fun k => s.byte (Config.progBase (x / 4) + t.pc + k)))
     let n := slotCount (bitsOf h 5 0)
     t.run = true → t.nextAt ≤ s.chip.now → t.sent - t.back < 32 → inRegion t t.pc = true → t.pc + 4 + 8 * n ≤ t.region.1 + t.region.2 →
      s.chip.safe.ecc = [] → s.chip.safe.injCtl = 0 → bitOf h 5 = false → t.loops = [] → ∃ u, exec (.longWord x true) s = .next u ∧
        ctx u.chip x = { t with pc := t.pc + 4 + 8 * n, sent := t.sent + 1, nextAt := s.chip.now + 1 + bitsOf h 15 8, run := true } ∧
        (∀ i ∈ ctxCores t, ∃ w : FWord, (core u.chip i).fifo = (core s.chip i).fifo ++ [w] ∧ w.hdr.toNat = h ∧ w.slots.length = n ∧ w.lw = t.pc ∧
          w.arrive = s.chip.now + 10 ∧ w.crc = wordCrc w.hdr w.slots ∧ w.checked = false) ∧ u.mem = s.mem ∧ u.chip.jobs = s.chip.jobs) ∧
    (∃ c r, exec (.longWord x false) s = .next (s.after c) ∧ c.raised = [r] ∧ r.code = 0x47 ∧ r.lw = (ctx s.chip x).pc ∧ r.covers = true ∧
      (ctx c x).run = false) ∧
    ((ctx s.chip x).run = false ∨ s.chip.now < (ctx s.chip x).nextAt ∨ 32 ≤ (ctx s.chip x).sent - (ctx s.chip x).back →
      exec (.longWord x true) s = .next s)

/-- R221 to R224, R226, R228: a core takes the head of its FIFO whole when its time and the room of every queue it names have come; END ends the core; a word
that fails its CRC check is BROADCAST_CRC: every word that has come is discarded with a credit for each, and that core executes nothing more; the credit of a
word returns 10 cycles after the last take; a hold over the stall bound, the present cycle counted, is QUEUE_STALL. Errors that strike the core with the take wait for the checks
that meet them; those that strike stored words are in the words (R206, R355, R356; log entry 75). -/
def Obligations.TakesAndCredits : Prop :=
  ∀ (i : Nat) (us : List Upset) (w : FWord) (rest : List FWord) (s : State), s.quiet → i < 1024 → s.chip.safe.injCtl = 0 → (core s.chip i).fifo = w :: rest →
    (core s.chip i).dead = false → (core s.chip i).ended = false →
    (w.intact = true → w.arrive + 1 ≤ s.chip.now → ((core s.chip i).lastLw.isSome → (core s.chip i).lastTake + 1 + (core s.chip i).lastWait ≤ s.chip.now) →
      hasRoom (core s.chip i) w = true →
      (w.hdr.getLsbD 5 = false → ∃ t, exec (.take i ⟨true, us⟩) s = .next t ∧ (core t.chip i).fifo = rest ∧ (core t.chip i).lastLw = some w.lw ∧
        (core t.chip i).lastTake = s.chip.now ∧ (core t.chip i).v = (enqueue s.chip.now w (core s.chip i)).v ∧
        (core t.chip i).b = (enqueue s.chip.now w (core s.chip i)).b ∧ (core t.chip i).takeTimes = (core s.chip i).takeTimes ++ [s.chip.now] ∧
        (core t.chip i).upsets = (core s.chip i).upsets ++ (us.filter (fun u => !(storedUpset u))).map (fun u => (u, false)) ∧ t.mem = s.mem ∧ t.chip.jobs = s.chip.jobs) ∧
      (∀ p, (wordSlots w).find? (fun p => p.1 == 5) = some p → opOf p.2 = 1 → sf p.2 57 55 = 0 →
        ∃ t, exec (.take i ⟨true, us⟩) s = .next t ∧ (core t.chip i).ended = true ∧ (core t.chip i).fifo = rest)) ∧
    (w.arrive ≤ s.chip.now → ∃ c r x, exec (.take i ⟨false, us⟩) s = .next (s.after c) ∧ damaged (core s.chip i) s.chip.now = some x ∧ c.raised = [r] ∧
      r.code = 0x44 ∧ r.lw = x.lw ∧ r.covers = true ∧ (core c i).dead = true ∧ (core c i).fifo = (w :: rest).filter (fun y => decide (s.chip.now < y.arrive)) ∧
      (core c i).takeTimes = (core s.chip i).takeTimes ++ ((w :: rest).filter (fun y => decide (y.arrive ≤ s.chip.now))).map (fun _ => s.chip.now) ∧
      (core c i).v = (core s.chip i).v) ∧
    (w.intact = false → w.arrive ≤ s.chip.now → ∃ c r, exec (.take i ⟨true, us⟩) s = .next (s.after c) ∧ c.raised = [r] ∧ r.code = 0x44 ∧ r.lw = w.lw ∧
      (core c i).dead = true) ∧
    (s.chip.now < w.arrive → exec (.take i ⟨true, []⟩) s = .next s) ∧
    (∀ x, (ctx s.chip x).back < (ctx s.chip x).sent → x < 16 → ctxCores (ctx s.chip x) ≠ [] →
      (∀ k ∈ ctxCores (ctx s.chip x), ∃ t0 more, (core s.chip k).takeTimes = t0 :: more ∧ t0 + 10 ≤ s.chip.now) →
      ∃ t, exec (.credit x) s = .next t ∧ (ctx t.chip x).back = (ctx s.chip x).back + 1 ∧ t.mem = s.mem ∧ t.chip.jobs = s.chip.jobs) ∧
    (∀ j q t0 lw, coreJob s.chip i = some j → holdSince (core s.chip i) s.chip.now q = some (t0, lw) →
      (j.hdr.stall < s.chip.now + 1 - t0 → ∃ c r, exec (.queueStall i q) s = .next (s.after c) ∧ c = { s.chip with raised := [r] } ∧ r.code = 0x09 ∧ r.lw = lw ∧
        r.itemA = s.chip.now + 1 - t0) ∧
      (s.chip.now + 1 - t0 ≤ j.hdr.stall → exec (.queueStall i q) s = .next s))

/-! Programs and weights (10_contract.md, 04_weights.md, 05_expander.md). -/

/-- R1, R259, R308: LOAD_PROGRAM with its buffers in the partition's host tier places the program, LOADING, when every step of every package passes, and ends
with the status of the lowest failing step and its package otherwise; an image of another format is INVALID_ARG, and one with an uncorrectable word HW_FAULT (R355); PROGRAM_LOADED makes the job LOADED, or
unloads it with HW_FAULT. -/
def Obligations.ProgramsLoad : Prop :=
  (∀ (id : CmdId) (blocks : List PkgBlock) (bars : List (List (Nat × Nat))) (others : List PkgCheck) (m : Cmd) (s : State), s.quiet → Started s id 0x01 m →
    let own := s.chip.beacon.pkg
    let ok := fun (a n : Nat) => bufferOk s.chip [m.id.part] a n
    let img := readImg (fun o n => rdBytes s.env s.chip (arg m 0x10 8 + o) n)
    let rdP := fun o n => rdBytes s.env s.chip (arg m 0x18 8 + o) n
    let lays := (List.range img.npkg).map (layAt rdP)
    let q : LoadReq := ⟨m, img, arg m 0x18 8, blocks, bars, lays, (lays.map (fun l => l.pkg)).idxOf own, others, none, rdP 0 8,
       codeStands (fun o n => rdBytes s.env s.chip (arg m 0x10 8 + o) n) img.body blocks⟩
    ((ok (arg m 0x10 8) 256 = false ∨ ok (arg m 0x18 8) 8 = false ∨ ok (arg m 0x20 8) (arg m 0x28 8) = false) →
      exec (.loadProgram (.ring id) blocks bars others) s = .next (s.after (finalCmd s.chip m.id .denied 0 0 own))) ∧
    (ok (arg m 0x10 8) 256 = true → ok (arg m 0x18 8) 8 = true → ok (arg m 0x20 8) (arg m 0x28 8) = true →
      (img.here = false → spansBad s.chip [(arg m 0x10 8, 256), (arg m 0x18 8, 8)] = false →
        exec (.loadProgram (.ring id) blocks bars others) s = .next (s.after (finalCmd s.chip m.id .invalidArg 0 0 own))) ∧
      (img.here = true → (ok (arg m 0x10 8) (256 + img.body) = false ∨ ok (arg m 0x18 8) (8 + 16 * img.npkg) = false) →
        exec (.loadProgram (.ring id) blocks bars others) s = .next (s.after (finalCmd s.chip m.id .denied 0 0 own))) ∧
      (img.here = true → ok (arg m 0x10 8) (256 + img.body) = true → ok (arg m 0x18 8) (8 + 16 * img.npkg) = true →
        (spansBad s.chip [(arg m 0x10 8, 256 + img.body), (arg m 0x18 8, 8 + 16 * img.npkg)] = true →
          exec (.loadProgram (.ring id) blocks bars others) s = .next (s.after (finalCmd s.chip m.id .hwFault 0 0 own))) ∧
        (∀ p st, spansBad s.chip [(arg m 0x10 8, 256 + img.body), (arg m 0x18 8, 8 + 16 * img.npkg)] = false →
          deciding own (ownCheck s.env s.chip q) others = some (p, st) →
          exec (.loadProgram (.ring id) blocks bars others) s = .next (s.after (finalCmd s.chip m.id st 0 0 p))) ∧
        (∀ al code descs wins, spansBad s.chip [(arg m 0x10 8, 256 + img.body), (arg m 0x18 8, 8 + 16 * img.npkg)] = false →
          deciding own (ownCheck s.env s.chip q) others = none →
          allocate s.chip img q.block q.lay (q.parts s.chip) others = some al → relocated q al = some (code, descs, wins) →
          exec (.loadProgram (.ring id) blocks bars others) s = .next (s.after (placeProgram s.chip q al code descs wins)))))) ∧
  (∀ (t : Nat) (j : Job) (x : CmdId) (s : State), s.quiet → tfind s.chip.jobs t = some j → j.st = .loading → j.loadCmd = some x →
    (jobLit s.chip j = true →
      exec (.programLoaded t true) s = .next (s.after (lampReviews (final (onJob s.chip t (fun j => { j with st := .loaded, loadCmd := none })) x .ok))) ∧
      exec (.programLoaded t false) s = .next (s.after (lampReviews (unload (final s.chip x .hwFault) t)))) ∧
    (jobLit s.chip j = false → exec (.programLoaded t true) s = .next s))

/-- R92 to R95: LOAD_IMAGE on a job that runs is BUSY; one whose image, extents and sections pass is accepted and holds the sections of this package that are
left, and so is one from a peer that an UP port faces; the next section is kept, found missing at the peer, written with its tiles, terms and tables from the
image or from what the peer sends, or refused with its index where its digest differs. R355: an uncorrectable word of the host store in what it reads is HW_FAULT. R405: while the link is down an image in the aperture waits. A range of
no sections is OK; its RESULT_A and RESULT_B are the model's choice (log entry 60). -/
def Obligations.ImagesLoad : Prop :=
  (∀ (id : CmdId) (el : Bool) (m : Cmd) (t : Nat) (j : Job) (s : State), s.quiet → Started s id 0x02 m → jobOf s.chip m.target = some (t, j) →
    j.place.parts.contains m.id.part = true → programHere j = true →
    let a := arg m 0x10 8
    let n := arg m 0x1C 4
    let ks := (List.range n).map (arg m 0x18 4 + ·)
    let g := readWImg s.env s.chip j a
    let own := ownSecs s.env s.chip j a ks
    let secs := ks.map (fun k => readSec s.env s.chip (secAddr s.env s.chip a k))
    let xs := own.map (fun x => Carried.here s.env s.chip x.2.1 x.2.2)
    let l : Load := ⟨m.id, a, own.map Prod.fst, 0, none, arg m 0x20 1 == 1, bitOf m.flags 2, own.any (fun x => x.2.1.tables != 0)⟩
    let bad := spansBad s.chip (readExtents j.place.layout a g.count secs (own.map (fun x => x.2.1)))
    let c := onJob (noteExtents (acceptCmd s.chip m.id (cmdHandle m.id)) m.id (imageExtents j.place.layout a g.count secs)) t (fun j => { j with wts := { j.wts with loads := j.wts.loads ++ [l] } })
    ((jobRunning j = true ∨ j.clearing = true) →
      exec (.loadImage id el) s = .next (s.after (finalCmd s.chip m.id .busy 0 (2 ^ 32 - 1) 0))) ∧
    (jobRunning j = false → j.clearing = false → (1 < arg m 0x20 1 ∨ (arg m 0x20 1 = 1 ∧ facesPeer s.env s.chip (arg m 0x22 2) = false)) →
      exec (.loadImage id el) s = .next (s.after (finalCmd s.chip m.id .invalidArg 0 (2 ^ 32 - 1) 0))) ∧
    (jobRunning j = false → j.clearing = false → (arg m 0x20 1 = 0 ∨ (arg m 0x20 1 = 1 ∧ facesPeer s.env s.chip (arg m 0x22 2) = true)) →
      (n = 0 → exec (.loadImage id el) s = .next (s.after (doneCmd s.chip m.id .ok 0 (2 ^ 32 - 1)))) ∧
      (0 < n → tierStatus s.chip j.place.parts .invalidArg a 256 = none → g.ok = true → arg m 0x18 4 + n ≤ g.count →
        (imageExtents j.place.layout a g.count secs).findSome? (fun x => tierStatus s.chip j.place.parts .invalidArg x.1 x.2) = none →
        (bad = true → exec (.loadImage id el) s = .next (s.after (finalCmd s.chip m.id .hwFault 0 (2 ^ 32 - 1) 0))) ∧
        (∀ st, bad = false → secStatus s.env s.chip j m.id.part g.version el secs xs = some st →
          exec (.loadImage id el) s = .next (s.after (finalCmd s.chip m.id st 0 (2 ^ 32 - 1) 0))) ∧
        (bad = false → secStatus s.env s.chip j m.id.part g.version el secs xs = none →
          exec (.loadImage id el) s = .next (s.after (if own = [] then loadFinal c t l .ok none else lampReviews c)))))) ∧
  (∀ (id : CmdId) (inp : SectionIn) (t : Nat) (j : Job) (l : Load) (k : Nat) (rest : List Nat) (s : State), s.quiet →
    loadOf s.chip id = some (t, j, l) → l.left = k :: rest →
    let x := readSec s.env s.chip (secAddr s.env s.chip l.image k)
    let ts := tileList j x.layer
    let y : Carried := if l.peer then ⟨x, ts, inp.bytes⟩ else Carried.here s.env s.chip x ts
    let kept := l.skip && (tfind j.wts.sections x.layer).any (fun y => y.ok && y.digest == x.digest && y.version == x.version)
    (x.tables = 0 ∨ jobLit s.chip j = true) → (l.peer = true ∨ linkWaits s.chip l.image = false) →
    (kept = true → exec (.sectionVerified id inp) s = .next (s.after (lampReviews (loadNext (takeVersion s.chip t x) t
      { l with left := rest, done := l.done + 1 })))) ∧
    (kept = false → l.peer = true → inp.peerHolds = false →
      exec (.sectionVerified id inp) s = .next (s.after (lampReviews (loadNext s.chip t { l with left := rest, firstMissing := l.firstMissing.or (some k) })))) ∧
    let bad := spansBad s.chip (imageExtents j.place.layout l.image 0 [x])
    (kept = false → l.peer = false → bad = true →
      exec (.sectionVerified id inp) s = .next (s.after (lampReviews (loadFinal s.chip t l .hwFault (some k))))) ∧
    (kept = false → (l.peer = true → inp.peerHolds = true) → (l.peer = true ∨ bad = false) →
      (sha384 y.body ≠ x.digest →
        exec (.sectionVerified id inp) s = .next (s.after (lampReviews (loadFinal (onJob (clearTiles s.chip ts) t (fun j =>
          { j with wts := { j.wts with sections := tdel j.wts.sections x.layer } })) t l .invalidArg (some k))))) ∧
      (sha384 y.body = x.digest → termsOk s.chip j y.tables y = false →
        exec (.sectionVerified id inp) s = .next (s.after (lampReviews (loadFinal s.chip t l .invalidArg (some k))))) ∧
      (sha384 y.body = x.digest → termsOk s.chip j y.tables y = true →
        exec (.sectionVerified id inp) s = .next (s.after (lampReviews (loadNext (writeSection s.chip t j y) t
          { l with left := rest, done := l.done + 1 }))))))

/-- R98 to R101: SWAP_LAYERS on a job that does not run is INVALID_ARG, a second one BUSY, one that a package refuses has that status, and one that passes on
every package waits for the barrier at the next job tick; once no old-version step has still to pass it, a layer whose digest agrees is written and verified, one
that differs counts, and the third mismatch on a layer ends the job on every package; before that it waits; the verification of a layer of another package is noted.
The tick in which a step passes a layer is a free value (log entry 28). -/
def Obligations.LayersSwap : Prop :=
  (∀ (id : CmdId) (others : List PkgCheck) (m : Cmd) (t : Nat) (j : Job) (s : State), s.quiet → Started s id 0x03 m → m.id.part < 16 → Aimed s m t j →
    let a := arg m 0x10 8
    let g := readWImg s.env s.chip j a
    let ks := List.range g.count
    let own := ownSecs s.env s.chip j a ks
    let secs := ks.map (fun k => readSec s.env s.chip (secAddr s.env s.chip a k))
    let xs := own.map (fun x => Carried.here s.env s.chip x.2.1 x.2.2)
    let tabs := xs.flatMap Carried.tables
    (jobRunning j = false → exec (.swapLayers ⟨.ring id, others⟩) s = .next (s.after (final s.chip m.id .invalidArg))) ∧
    (jobRunning j = true → arg m 0x18 1 ≤ 1 → j.wts.swap ≠ none → exec (.swapLayers ⟨.ring id, others⟩) s = .next (s.after (final s.chip m.id .busy))) ∧
    (jobRunning j = true → arg m 0x18 1 ≤ 1 → j.wts.swap = none → tierStatus s.chip j.place.parts .invalidArg a 256 = none → g.ok = true → g.version ≠ j.wts.version →
      (imageExtents j.place.layout a g.count secs).findSome? (fun x => tierStatus s.chip j.place.parts .invalidArg x.1 x.2) = none → oneEach j secs = true →
      spansBad s.chip (readExtents j.place.layout a g.count secs (own.map (fun x => x.2.1))) = false →
      tablesAgree tabs = true → secStatus s.env s.chip j m.id.part g.version j.args.elasticLen secs xs = none →
      xs.all (termsOk s.chip j tabs) = true →
      (∀ p st, deciding s.chip.beacon.pkg (0, .ok) others = some (p, st) →
        exec (.swapLayers ⟨.ring id, others⟩) s = .next (s.after (final s.chip m.id st))) ∧
      (deciding s.chip.beacon.pkg (0, .ok) others = none →
        exec (.swapLayers ⟨.ring id, others⟩) s = .next (s.after (lampReviews (onJob (noteExtents (acceptCmd s.chip m.id (cmdHandle m.id)) m.id
          (imageExtents j.place.layout a g.count secs)) t (fun j => { j with wts := { j.wts with
          swap := some ⟨m.id, a, arg m 0x18 1 == 1, g.version, some j.ticks.next, [], [], 0, 0, [], [],
            ((own.map (fun x => x.2.1)).filter (fun y => y.tables != 0)).map (fun y => y.layer), []⟩ } }))))))) ∧
  (∀ (t layer k : Nat) (j : Job) (w : Swap) (x : Sec) (ts : List TilePlace) (s : State), s.quiet → tfind s.chip.jobs t = some j → j.wts.swap = some w →
    (ownSecs s.env s.chip j w.image (List.range (readWImg s.env s.chip j w.image).count)).find? (fun y => y.2.1.layer == layer) = some (k, x, ts) →
    jobRunning j = true → layerOpen j w layer = true → (x.tables = 0 ∨ jobLit s.chip j = true) →
    let y := Carried.here s.env s.chip x ts
    heldClash s.chip j y.tables = false →
    (layerClear s.chip t j w j.place.sym layer = false → exec (.layerRewrite t ⟨layer, j.place.sym⟩) s = .next s) ∧
    (layerClear s.chip t j w j.place.sym layer = true →
    let mism := if w.misLayer = layer then w.mism else 0
    (sha384 (coveredBytes s.env s.chip x ts) ≠ x.digest →
      (2 ≤ mism → exec (.layerRewrite t ⟨layer, j.place.sym⟩) s = .next (s.after (endJob
        (flood s.chip ⟨t, j.ticks.committed, 0, .kill, [], s.chip.beacon.pkg, 0, statusCode .hwFault, []⟩) t .halted .hwFault))) ∧
      (mism < 2 → exec (.layerRewrite t ⟨layer, j.place.sym⟩) s = .next (s.put (onJob s.chip t (fun j => { j with wts := { j.wts with
        swap := some { w with mism := mism + 1, misLayer := layer } } }))))) ∧
    (sha384 (coveredBytes s.env s.chip x ts) = x.digest →
      let h := tablesHeld (writeTiles s.chip t y) t y.tables
      exec (.layerRewrite t ⟨layer, j.place.sym⟩) s = .next (s.after (onJob (putSection h.2 t layer ⟨layer, true, x.digest, x.version,
        excessOf j.decl.tiles y, splitRefs h.1 (refsOf y), h.1⟩) t (fun j => { j with wts := { j.wts with
          swap := some { w with mism := 0, misLayer := layer, verified := w.verified.filter (· != layer) ++ [layer] } } })))))) ∧
  (∀ (t layer sym : Nat) (j : Job) (w : Swap) (s : State), s.quiet → tfind s.chip.jobs t = some j → j.wts.swap = some w → sym ≠ j.place.sym →
    (layerClear s.chip t j w sym layer = true → j.place.layout.any (fun x => x.sym == sym && x.layer == layer) = true → w.far.contains (sym, layer) = false →
      exec (.layerRewrite t ⟨layer, sym⟩) s = .next (s.put (onJob s.chip t (fun j => { j with wts := { j.wts with
        swap := some { w with far := w.far ++ [(sym, layer)] } } })))) ∧
    (layerClear s.chip t j w sym layer = false → exec (.layerRewrite t ⟨layer, sym⟩) s = .next s))

/-- R119, R129, R393: PUT_CODE_TABLE of the table that is there, or that is held for the slot, is done at once, and of another one while one is held is
INVALID_ARG; else it is held while blocks use the slot, written at once where none does and the stacks are LIT, and held for the wake otherwise; an invalid
table is INVALID_ARG; WITHDRAW cancels the held write. -/
def Obligations.CodeTablesPut : Prop :=
  ∀ (id : CmdId) (m : Cmd) (t : Nat) (j : Job) (s : State), s.quiet → Started s id 0x23 m → m.id.part < 16 → Aimed s m t j → programHere j = true →
    let rel := arg m 0x10 1
    let b := rdBytes s.env s.chip (arg m 0x18 8) 64
    let hold := fun (wake : Bool) => onJob (acceptCmd s.chip m.id (cmdHandle m.id)) t (fun j =>
      { j with wts := { j.wts with held := tset j.wts.held rel ⟨b, some m.id, wake⟩ } })
    rel < j.hdr.ctSlots →
    (bitOf m.flags 2 = false → bufferOk s.chip j.place.parts (arg m 0x18 8) 64 = true →
      (ctValid b = false → exec (.putCodeTable (.ring id)) s = .next (s.after (final s.chip m.id .invalidArg))) ∧
      (ctValid b = true → field b 3 1 = 0 →
        (tableBody (curTable s.chip j rel) = tableBody b → exec (.putCodeTable (.ring id)) s = .next (s.after (doneCmd s.chip m.id .ok 0 0))) ∧
        (∀ h, tableBody (curTable s.chip j rel) ≠ tableBody b → tfind j.wts.held rel = some h → exec (.putCodeTable (.ring id)) s =
          .next (s.after (if tableBody h.bytes = tableBody b then doneCmd s.chip m.id .ok 0 0 else final s.chip m.id .invalidArg))) ∧
        (tableBody (curTable s.chip j rel) ≠ tableBody b → tfind j.wts.held rel = none →
          (tableRefs j rel ≠ 0 → exec (.putCodeTable (.ring id)) s = .next (s.after (hold false))) ∧
          (tableRefs j rel = 0 → jobLit s.chip j = true → exec (.putCodeTable (.ring id)) s = .next (s.after (doneCmd (setTable s.chip t j rel b) m.id .ok 0 0))) ∧
          (tableRefs j rel = 0 → jobLit s.chip j = false → exec (.putCodeTable (.ring id)) s = .next (s.after (lampReviews (hold true))))))) ∧
    (bitOf m.flags 2 = true →
      (tfind j.wts.held rel = none → exec (.withdraw (.ring id)) s = .next (s.after (doneCmd (onJob s.chip t (fun j =>
        { j with wts := { j.wts with held := tdel j.wts.held rel } })) m.id .ok 0 0))) ∧
      (∀ h x, tfind j.wts.held rel = some h → h.cmd = some x → exec (.withdraw (.ring id)) s = .next (s.after (doneCmd (onJob (final s.chip x .cancelled) t (fun j =>
        { j with wts := { j.wts with held := tdel j.wts.held rel } })) m.id .ok 0 0))))

/-! Jobs, requests and sessions (02_beacon.md R23, R26; 11_serving.md; 12_host.md R309). -/

/-- R23, R26, R261, R309: START_JOB that passes on every package starts the job at the next base edge with its arguments, and is BUSY where it runs; STOP_JOB
of a running job makes it STOPPING, of a stopped one it is done with the last committed tick, and with UNLOAD clearing begins and the job's other commands end
(R297; their status is the model's choice: log entry 42); SET_TICK sets the base period on the lighthouse for an operator
partition while no job of the domain runs, and SET_TICK of a job a multiple that its variants fit. -/
def Obligations.JobsStartAndStop : Prop :=
  (∀ (id : CmdId) (others : List PkgCheck) (m : Cmd) (t : Nat) (j : Job) (s : State), s.quiet → Started s id 0x04 m → Aimed s m t j → j.st ≠ .loading →
    (jobRunning j = true ∨ j.clearing = true → exec (.startJob (.ring id) others) s = .next (s.after (final s.chip m.id .busy))) ∧
    (jobRunning j = false → j.clearing = false →
      (∀ p st, deciding s.chip.beacon.pkg (startCheck s.env s.chip t m j others) others = some (p, st) →
        exec (.startJob (.ring id) others) s = .next (s.after (final s.chip m.id st))) ∧
      (∀ base, deciding s.chip.beacon.pkg (startCheck s.env s.chip t m j others) others = none →
        firstFit (reserved s.chip t) 16384 (startArgs m).reqCount = some base →
        exec (.startJob (.ring id) others) s = .next (s.after (lampReviews (beginJob (doneCmd s.chip m.id .ok (s.chip.beacon.tick + 1) 0) t base
          (s.chip.beacon.tick + 1) (startArgs m))))))) ∧
  (∀ (id : CmdId) (m : Cmd) (t : Nat) (j : Job) (s : State), s.quiet → Started s id 0x05 m → Aimed s m t j → j.st ≠ .loading → j.stop = none →
    (jobRunning j = true → lastTick j ≠ none → exec (.stopJob (.ring id)) s = .next (s.after (onJob (acceptCmd s.chip m.id (cmdHandle m.id)) t (fun j' =>
      { j' with st := .stopping, stop := some ⟨m.id, bitOf m.flags 3, bitOf m.flags 2, if bitOf m.flags 3 then none else lastTick j⟩ })))) ∧
    (jobRunning j = false → bitOf m.flags 2 = false →
      exec (.stopJob (.ring id)) s = .next (s.after (doneCmd (onJob s.chip t (fun j => { j with capture := none })) m.id .ok j.ticks.committed 0))) ∧
    (jobRunning j = false → bitOf m.flags 2 = true → exec (.stopJob (.ring id)) s = .next (s.after (onJob
      (each ((jobCmds s.chip t).filter (fun x => x != m.id)) (acceptCmd s.chip m.id (cmdHandle m.id)) (fun c x => final c x .partitionKilled)) t (fun j =>
        { j with capture := none, clearing := true, clearAll := true, killCmds := j.killCmds ++ [m.id]
                 wts := Weights.tidy { j.wts with
                   loads := [], held := [], drops := [], trains := []
                   drawers := j.wts.drawers.map (fun d => if d.2.st = .filling then (d.1, Drawer.free) else d) } }))))) ∧
  (∀ (id : CmdId) (elsewhere : Bool) (m : Cmd) (s : State), s.quiet → Started s id 0x30 m → m.target = 0 →
    (arg m 0x10 4 < 26000 → exec (.setTick ⟨id, elsewhere⟩) s = .next (s.after (final s.chip m.id .invalidArg))) ∧
    (26000 ≤ arg m 0x10 4 → (part s.chip m.id.part).operator = false → exec (.setTick ⟨id, elsewhere⟩) s = .next (s.after (final s.chip m.id .denied))) ∧
    (26000 ≤ arg m 0x10 4 → (part s.chip m.id.part).operator = true → s.chip.beacon.role ≠ 1 →
      exec (.setTick ⟨id, elsewhere⟩) s = .next (s.after (finalCmd s.chip m.id .invalidArg 0 0 s.chip.beacon.lighthouse))) ∧
    (26000 ≤ arg m 0x10 4 → (part s.chip m.id.part).operator = true → s.chip.beacon.role = 1 →
      ((elsewhere = true ∨ s.chip.jobs.any (fun j => jobRunning j.2) = true) →
        exec (.setTick ⟨id, elsewhere⟩) s = .next (s.after (final s.chip m.id .busy))) ∧
      (elsewhere = false → s.chip.jobs.any (fun j => jobRunning j.2) = false →
        exec (.setTick ⟨id, elsewhere⟩) s = .next (s.after (setPeriod (doneCmd s.chip m.id .ok 0 0) (arg m 0x10 4)))))) ∧
  (∀ (id : CmdId) (m : Cmd) (t : Nat) (j : Job) (s : State), s.quiet → Started s id 0x30 m → Aimed s m t j → jobRunning j = true →
    let n := arg m 0x14 2
    (1 ≤ n → n ≤ 256 → fitsTick j j.args.strict (n * s.chip.beacon.period) = true → exec (.setTickJob (.ring id)) s =
      .next (s.after (onJob (doneCmd s.chip m.id .ok 0 0) t (fun j' => { j' with args := { j'.args with mNext := some (n, lastTick j) } })))) ∧
    ((n = 0 ∨ 256 < n ∨ fitsTick j j.args.strict (n * s.chip.beacon.period) = false) →
      exec (.setTickJob (.ring id)) s = .next (s.after (final s.chip m.id .invalidArg))))

/-- R271, R283: an ADMIT that passes the checks takes the job's lowest free entry, QUEUED with the arguments and the next arrival ordinal, and is ACCEPTED
with its handle; it ends with the first check that fails; one for a group goes to the member picked. R270: once its input is copied, into the prompt area too (R269;
where in it is the model's choice: log entry 90), the request is READY. -/
def Obligations.RequestsAdmitted : Prop :=
  (∀ (id : CmdId) (m : Cmd) (t : Nat) (j : Job) (s : State), s.quiet → Started s id 0x10 m →
    let a := admitArgs m
    ((m.target ≠ 0 ∧ a.group = 0 ∧ Aimed s m t j) ∨
      (m.target = 0 ∧ a.group ≠ 0 ∧ pickMember s.chip (members s.chip a.group (part s.chip m.id.part).tenant.toNat) = some (t, j))) →
    (∀ st, admitCheck s.env s.chip t j m = some st → exec (.admitReq id) s = .next (s.after (final s.chip m.id st))) ∧
    (∀ i, admitCheck s.env s.chip t j m = none → freeEntry s.chip t = some i → exec (.admitReq id) s = .next (s.after (placeReq s.chip t i m
      (newReq j m t (req s.chip i)) { ReqSide.none with cmd := m.id, inAddr := a.input, outAddr := a.output })))) ∧
  (∀ (i : Nat) (j : Job) (s : State), s.quiet →
    let q := req s.chip i
    let d := side s.chip i
    let n := ((findCmd s.chip d.cmd).map (fun m => arg m 0x20 4)).getD 0
    tfind s.chip.jobs q.job = some j → isLead s.chip j = true → q.st = .queued → d.copied = false → d.resuming = false → linkWaits s.chip d.inAddr = false →
    (q.adapter = false ∨ (tfind j.wts.dir q.adapterId).isSome = true) →
    let toks := if n = 0 then [BitVec.ofNat 32 j.hdr.startToken] else readToks s.env s.chip d.inAddr n
    exec (.inputCopy i) s = .next (s.after (writePrompt (onSide (onReq s.chip i (fun q => { q with st := .ready })) i (fun x => { x with
      copied := true, toks := toks ++ x.toks, looks := readLooks s.env s.chip d.inAddr n q.lookups })) q.job toks)))

/-- R272, R282, R311: APPEND within the context limit is accepted and joins the request's appends in order, and its copy brings its tokens; CANCEL sets the
flag, and ends the request at once on a job that does not run; QUERY writes the record into a buffer that holds it, or says how long it is. R405: while the
link has been down for 1 s, a command whose transfer is in the aperture ends with HW_FAULT: a request's entry with it, or the command with what it had in
hand; before that it waits. -/
def Obligations.RequestCommands : Prop :=
  ((∀ (id : CmdId) (m : Cmd) (i : Nat) (q : Req) (j : Job) (s : State), s.quiet → Started s id 0x11 m → AimedReq s m i q j → q.st ≠ .parking →
     let n := arg m 0x18 4
     ((q.encodeOnly = true ∨ contextLimit j < q.promptLen + appendWaiting s.chip (side s.chip i) + n + q.maxNew) →
       exec (.append id) s = .next (s.after (final s.chip m.id .invalidArg))) ∧
     (q.encodeOnly = false → q.promptLen + appendWaiting s.chip (side s.chip i) + n + q.maxNew ≤ contextLimit j →
       bufferOk s.chip j.place.parts (arg m 0x10 8) (4 * n) = true → 0 < n →
       exec (.append id) s = .next (s.after (onSide (acceptCmd s.chip m.id (cmdHandle m.id)) i (fun d => { d with appends := d.appends ++ [⟨m.id, [], false⟩] }))))) ∧
   (∀ (id : CmdId) (m : Cmd) (i : Nat) (d : ReqSide) (s : State), s.quiet → findCmd s.chip id = some m →
     s.chip.sides.find? (fun x => (x.2.appends.find? (fun a => !a.copied)).any (fun a => a.cmd == id)) = some (i, d) →
     linkWaits s.chip (arg m 0x10 8) = false →
     let toks := readToks s.env s.chip (arg m 0x10 8) (arg m 0x18 4)
     exec (.appendCopy id) s = .next (s.after (writePrompt (onSide s.chip i (fun d => { d with appends := d.appends.map (fun a =>
       if a.cmd = id then { a with toks := toks, copied := true } else a) })) (req s.chip i).job toks))) ∧
   (∀ (id : CmdId) (m : Cmd) (i : Nat) (q : Req) (j : Job) (s : State), s.quiet → Started s id 0x12 m → AimedReq s m i q j →
     let c := onSide (onReq (acceptCmd s.chip m.id (cmdHandle m.id)) i (fun q => { q with cancel := true })) i (fun d => { d with cancels := d.cancels ++ [m.id] })
     (jobRunning j = true → exec (.cancel id) s = .next (s.after c)) ∧
     (jobRunning j = false → exec (.cancel id) s = .next (s.after (endReqNow c i .cancelled)))) ∧
   (∀ (id : CmdId) (m : Cmd) (i t : Nat) (q : Req) (j : Job) (s : State), s.quiet → Started s id 0x13 m →
     let n := arg m 0x18 4
     let a := arg m 0x10 8
     (AimedReq s m i q j →
       (64 ≤ n → bufferOk s.chip j.place.parts a n = true → exec (.query id) s = .next (s.after (doneCmd (wr s.chip a (reqBytes q)) m.id .ok 64 0))) ∧
       (n < 64 → exec (.query id) s = .next (s.after (finalCmd s.chip m.id .invalidArg 64 0 0)))) ∧
     (hKind m.target = 3 → Aimed s m t j → bitOf m.flags 2 = false → (jobBytes s.chip t j).length ≤ n → bufferOk s.chip j.place.parts a n = true →
       exec (.query id) s = .next (s.after (doneCmd (wr s.chip a (jobBytes s.chip t j)) m.id .ok (jobBytes s.chip t j).length 0))) ∧
     (hKind m.target = 3 → Aimed s m t j → bitOf m.flags 2 = true → 16 ≤ n → bufferOk s.chip j.place.parts a n = true →
       exec (.query id) s = .next (s.after (doneCmd (wr s.chip a (adapterById s.chip t j (arg m 0x1C 4))) m.id .ok 16 0))))) ∧
  (∀ (id : CmdId) (m : Cmd) (s : State), s.quiet → findCmd s.chip id = some m →
     (apertureWaited s.chip m = false → exec (.apertureTimeout id) s = .next s) ∧
     (apertureWaited s.chip m = true →
       (∀ x, s.chip.sides.find? (fun y => y.2.cmd == id) = some x → exec (.apertureTimeout id) s = .next (s.after (endReqNow s.chip x.1 .hwFault))) ∧
       (s.chip.sides.find? (fun y => y.2.cmd == id) = none →
         exec (.apertureTimeout id) s = .next (s.after (final (dropCopies (dropWork s.chip id) id) id .hwFault)))))

/-- R111, R270: PARK_SESSION of a request that is being served is accepted and the request is PARKING; its copy writes the entry, the key-value entries and
the tokens into the buffer; RESUME_SESSION of such a buffer for the same program and weights takes an entry, and its copy brings them back, before the tokens that were appended
meanwhile (R272); the copies of the other packages are noted as they end. The layout of the buffer is the model's (log entry 39). -/
def Obligations.SessionsPark : Prop :=
  (∀ (id : CmdId) (m : Cmd) (i : Nat) (q : Req) (j : Job) (s : State), s.quiet → Started s id 0x52 m → bitOf m.flags 2 = false → AimedReq s m i q j →
    let a := arg m 0x10 8
    let n := arg m 0x18 8
    (q.st ≠ .prompt → q.st ≠ .decode → exec (.parkSession (.ring id)) s = .next (s.after (final s.chip m.id .invalidArg))) ∧
    ((q.st = .prompt ∨ q.st = .decode) → parkSize j q (side s.chip i) ≤ n → bufferOk s.chip j.place.parts a n = true → exec (.parkSession (.ring id)) s =
      .next (s.after (onSide (onReq (acceptCmd s.chip m.id (cmdHandle m.id)) i (fun q => { q with st := .parking, park := true })) i
        (fun d => { d with parkCmd := some m.id, parkAddr := a, parkLen := n, parkCopied := false, farCopied := decide (j.place.pkgs.length ≤ 1) }))))) ∧
  (∀ (id : CmdId) (i : Nat) (d : ReqSide) (j : Job) (s : State), s.quiet →
    s.chip.sides.find? (fun x => x.2.parkCmd == some id && !x.2.parkCopied) = some (i, d) → tfind s.chip.jobs (req s.chip i).job = some j →
    inFlight j i = false → linkWaits s.chip d.parkAddr = false → parkSize j (req s.chip i) d ≤ d.parkLen →
    let q := req s.chip i
    let k := kvSpan j q.kvSlot q.kvLen
    let c := wr (wr s.chip d.parkAddr (parkHead j q d)) (d.parkAddr + 128)
      (rdBytes s.env s.chip k.1 k.2)
    exec (.parkCopy ⟨id, false⟩) s = .next (s.after (onSide (wr c (d.parkAddr + 128 + k.2) (d.toks.flatMap (fun w => leBytes 4 w.toNat))) i
      (fun e => { e with parkCopied := true, parkBytes := parkSize j q d })))) ∧
  (∀ (id : CmdId) (m : Cmd) (t : Nat) (j : Job) (s : State), s.quiet → Started s id 0x52 m → bitOf m.flags 2 = true → Aimed s m t j →
    let a := arg m 0x10 8
    let n := arg m 0x18 8
    let b := rdBytes s.env s.chip a 128
    (j.st ≠ .running → exec (.resumeSession (.ring id)) s = .next (s.after (final s.chip m.id .notReady))) ∧
    (j.st = .running → bufferOk s.chip j.place.parts a n = true → 128 ≤ n → (b.drop 64).take 48 = digestBytes j.hdr.digest → field b 112 4 = j.wts.version →
      bitOf (field b 1 1) 2 = false → 128 + (kvSpan j 0 (field b 0x18 4)).2 + 4 * field b 0x10 4 ≤ n → tokenRingOk s.chip m.id.part m.aux = true →
      field b 0x18 4 ≤ contextLimit j → bitOf (field b 1 1) 6 = false → ∀ i sl, freeEntry s.chip t = some i → freeSlot s.chip t j (plannedSlots j) = some sl →
      exec (.resumeSession (.ring id)) s = .next (s.after (placeReq s.chip t i m (resumedReq b j m t sl (req s.chip i) (0xFFFF, 0))
        { ReqSide.none with cmd := m.id, inAddr := a, outAddr := field b 120 8, resuming := true, farCopied := decide (j.place.pkgs.length ≤ 1) })))) ∧
  (∀ (id : CmdId) (i : Nat) (d : ReqSide) (j : Job) (s : State), s.quiet →
    s.chip.sides.find? (fun x => x.2.cmd == id && x.2.resuming && !x.2.copied) = some (i, d) → tfind s.chip.jobs (req s.chip i).job = some j →
    (req s.chip i).adapter = false → linkWaits s.chip d.inAddr = false → isLead s.chip j = true →
    let q := req s.chip i
    let k := kvSpan j q.kvSlot q.kvLen
    let n := q.promptLen - d.toks.length
    exec (.resumeCopy ⟨id, false⟩) s = .next (s.after (onSide (onReq (wr s.chip k.1 (rdBytes s.env s.chip (d.inAddr + 128) k.2)) i (fun q => { q with st := .queued })) i
      (fun e => { e with copied := true, toks := readToks s.env s.chip (d.inAddr + 128 + k.2) n ++ d.toks, planned := true, backBytes := some (128 + k.2 + 4 * n) })))) ∧
  (∀ (id : CmdId) (s : State), s.quiet → exec (.parkCopy ⟨id, true⟩) s = exec (.parkCopy ⟨id, false⟩) (s.put (copiedFar s.chip ⟨id, true⟩)) ∧
    exec (.resumeCopy ⟨id, true⟩) s = exec (.resumeCopy ⟨id, false⟩) (s.put (copiedFar s.chip ⟨id, true⟩)) ∧
    ∀ x ∈ s.chip.sides, x.2.parkCmd = some id → ∃ y ∈ (copiedFar s.chip ⟨id, true⟩).sides, y = (x.1, { x.2 with farCopied := true }))

/-! Adapters (04_weights.md R104-R110; 11_serving.md R285, R286). -/

/-- R105, R106, R108, R285: PUT_ADAPTER of an image that passes on every package takes a drawer, FILLING with the next generation, and is NO_ROOM without one
(before the image is judged: the model's choice, log entry 61); DROP_ADAPTER of
a resident adapter waits for the next commit; TRAIN_ADAPTER holds a drawer and waits for its margin ticks, and is ENGINE_ABSENT on a part that cannot. R94,
R106, R110, R286: the end of a fill whose digests agree verifies the drawer here, and makes it READY once the other packages have it and its tables are in
their slots; one that does not, here or on another package, frees the drawer, and the PUT_ADAPTER ends INVALID_ARG, the requests that wait for a fill on demand
HW_FAULT; one that another package refuses before anything is written ends with its status; the
trained parameters are written after the last step, and verified they make the held drawer READY. -/
def Obligations.AdapterCommands : Prop :=
  ((∀ (id : CmdId) (others : List PkgCheck) (m : Cmd) (t : Nat) (j : Job) (s : State), s.quiet → Started s id 0x20 m → m.id.part < 16 → Aimed s m t j →
     programHere j = true →
     training j (arg m 0x10 4) = false → j.clearing = false →
     (takeDrawer j = none → exec (.putAdapter ⟨.ring id, others⟩) s = .next (s.after (final s.chip m.id .noRoom))) ∧
     (∀ d st, takeDrawer j = some d → adapterStatus s.env s.chip j m.id.part (arg m 0x18 8) d = .inl st →
       exec (.putAdapter ⟨.ring id, others⟩) s = .next (s.after (final s.chip m.id st))) ∧
     (∀ d rank p st, takeDrawer j = some d → adapterStatus s.env s.chip j m.id.part (arg m 0x18 8) d = .inr rank →
       deciding s.chip.beacon.pkg (0, .ok) others = some (p, st) → exec (.putAdapter ⟨.ring id, others⟩) s = .next (s.after (final s.chip m.id st))) ∧
     (∀ d rank, takeDrawer j = some d → adapterStatus s.env s.chip j m.id.part (arg m 0x18 8) d = .inr rank →
       deciding s.chip.beacon.pkg (0, .ok) others = none → exec (.putAdapter ⟨.ring id, others⟩) s = .next (s.after (lampReviews (beginFill
         (noteExtents (acceptCmd s.chip m.id (mkHandle m.id.part 2 d (nextGen (tget 0 j.wts.gens (arg m 0x10 4))) m.id.seq)) m.id
           (adapterExtents s.env s.chip j (arg m 0x18 8))) t d (arg m 0x10 4) rank
         (bitOf m.flags 2) .put (some m.id) (arg m 0x18 8) (fillTabled s.env s.chip j (arg m 0x18 8) d)))))) ∧
   (∀ (id : CmdId) (m : Cmd) (t : Nat) (j : Job) (s : State), s.quiet → Started s id 0x21 m → Aimed s m t j → programHere j = true →
     let a := arg m 0x10 4
     (putPending j a = false → tfind j.wts.dir a = none → exec (.dropAdapter (.ring id)) s = .next (s.after (final s.chip m.id .invalidArg))) ∧
     (putPending j a = true ∨ ((tfind j.wts.dir a).isSome = true ∧ dropPending j a = false) → training j a = false →
       exec (.dropAdapter (.ring id)) s = .next (s.after (onJob (acceptCmd s.chip m.id (cmdHandle m.id)) t (fun j =>
         { j with wts := { j.wts with drops := j.wts.drops ++ [(a, m.id)] } }))))) ∧
   (∀ (id : CmdId) (m : Cmd) (t : Nat) (j : Job) (s : State), s.quiet → Started s id 0x22 m → m.id.part < 16 → Aimed s m t j →
     let a := arg m 0x10 4
     (canTrain s.env j = false → exec (.trainAdapter (.ring id)) s = .next (s.after (final s.chip m.id .engineAbsent))) ∧
     (∀ w d, canTrain s.env j = true → training j a = false → putPending j a = false → dropPending j a = false → j.clearing = false →
       bufferOk s.chip j.place.parts (arg m 0x28 8) 256 = true → bufferOk s.chip j.place.parts (arg m 0x18 8) (min 1 (arg m 0x20 4)) = true → programHere j = true → tfind j.wts.dir a = some w → 0 < arg m 0x24 4 → 0 < arg m 0x14 2 →
       arg m 0x14 2 ≤ 4096 → takeDrawer j = some d →
       exec (.trainAdapter (.ring id)) s = .next (s.after (startFills s.env (onJob (beginFill
         (acceptCmd s.chip m.id (mkHandle m.id.part 2 d (nextGen (tget 0 j.wts.gens a)) m.id.seq)) t d a (tget Drawer.free j.wts.drawers w).rank
         (bitOf m.flags 2) .train (some m.id) 0 false) t (fun j => { j with wts := { j.wts with trains := j.wts.trains ++
           [⟨m.id, a, d, arg m 0x14 2, arg m 0x20 4, arg m 0x18 8, arg m 0x24 4, 0, arg m 0x28 8, arg m 0x30 8, 0, 0⟩] } })) t false))))) ∧
  ((∀ (t d : Nat) (others : FarFill) (j : Job) (s : State), s.quiet → tfind s.chip.jobs t = some j →
     let w := tget Drawer.free j.wts.drawers d
     let own := adapterSecs s.env s.chip j w.image d
     let xs := own.map (fun x => Carried.here s.env s.chip x.1 x.2)
     let all := others == .verified || decide (j.place.pkgs.length ≤ 1)
     let fail := fun (c : Chip) (put st : Status) => lampReviews (match w.cmd with
       | some x => final (freeDrawer c t d) x put
       | none => endWaiting (freeDrawer c t d) t w.adapter st)
     w.st = .filling → (w.by_ = .put ∨ w.by_ = .demand) →
     ((others = .waiting ∨ others = .verified) → w.verified = false → (own.any (fun x => x.1.tables != 0) = false ∨ jobLit s.chip j = true) →
       linkWaits s.chip w.image = false →
       (spansBad s.chip (adapterReads s.env s.chip j w.image d) = true →
         exec (.fill t ⟨d, others, none⟩) s = .next (s.after (fail s.chip .hwFault .hwFault))) ∧
       (spansBad s.chip (adapterReads s.env s.chip j w.image d) = false → heldClash s.chip j (xs.flatMap Carried.tables) = false →
       (own.all (fun x => sha384 (coveredBytes s.env s.chip x.1 x.2) == x.1.digest) = true → exec (.fill t ⟨d, others, none⟩) s =
         .next (s.after (lampReviews (onJob (each xs s.chip (writeDrawerSec j t d)) t (fun j => { j with wts := { j.wts with
           drawers := tset j.wts.drawers d { w with verified := true, elsewhere := all, st := if all && drawerTabled j d then .ready else .filling } } }))))) ∧
       (own.all (fun x => sha384 (coveredBytes s.env s.chip x.1 x.2) == x.1.digest) = false → exec (.fill t ⟨d, others, none⟩) s =
         .next (s.after (fail (layersGone (each own s.chip (fun c x => clearTiles c x.2)) t d (fun l => own.any (fun x => x.1.layer == l)))
           .invalidArg .hwFault))))) ∧
     ((others = .waiting ∨ others = .verified) → w.verified = true → exec (.fill t ⟨d, others, none⟩) s =
       .next (s.after (lampReviews (onJob s.chip t (fun j => { j with wts := { j.wts with drawers := tset j.wts.drawers d { w with
         st := if all && drawerTabled j d then .ready else .filling, elsewhere := w.elsewhere || all } } }))))) ∧
     (others = .failed → exec (.fill t ⟨d, others, none⟩) s = .next (s.after (fail s.chip .invalidArg .hwFault))) ∧
     (∀ st, others = .refused st → w.verified = false → exec (.fill t ⟨d, others, none⟩) s = .next (s.after (fail s.chip st st)))) ∧
   (∀ (t : Nat) (j : Job) (w : Train) (s : State), s.quiet → tfind s.chip.jobs t = some j →
     j.wts.trains.find? (fun x => x.step == x.steps && (tget Drawer.free j.wts.drawers x.drawer).st == .filling) = some w →
     let c := layersGone (writeTrained s.chip j w.drawer) t w.drawer (fun _ => true)
     exec (.trainedParameterWrite t false) s = .next (s.after c) ∧
     exec (.trainedParameterWrite t true) s = .next (s.after (onJob c t (fun j => { j with wts := { j.wts with
       drawers := tupd Drawer.free j.wts.drawers w.drawer (fun w => { w with st := .ready, verified := true }) } })))))

/-! Tenancy (16_tenancy.md) and range pairs (14_reproducibility.md). -/

/-- R372, R376: the lead of a job decides its kill: the job is KILLED and being cleared, with no attempt, no live request and the status PARTITION_KILLED; a
package that does not lead leaves the message alone. R372 to R378: KILL_JOB is accepted and the job is killed from its lead; RELEASE_PARTITION from an
operator partition puts the partition in state 2 and kills its jobs; when clearing ends, the near scratchpads of the job's cores and its pools read zero and
nothing else changes; a released partition is free, or its new tenant's, with its key gone and its handle sequence at 1. R379, R380: ARM_CAPTURE with a buffer
large enough arms the job's capture and says how many bytes it takes, and is INVALID_ARG with that number otherwise; DISARM clears it; the capture of a
stopped job is written and its arming ends. -/
def Obligations.KillsAndClearing : Prop :=
  (∀ (tag : Nat) (all : Bool) (j : Job) (s : State), s.quiet → tfind s.chip.jobs tag = some j →
     (isLead s.chip j = true → j.clearing = false → ∃ c j', exec (.killMessage tag all) s = .next (s.after c) ∧ tfind c.jobs tag = some j' ∧
       j'.st = .killed ∧ j'.clearing = true ∧ j'.endSt = .partitionKilled ∧ j'.clearAll = (all || j.clearAll || j.st == .loading) ∧
       j'.ticks.attempts = []) ∧
     (isLead s.chip j = false → exec (.killMessage tag all) s = .next s)) ∧
  ((∀ (id : CmdId) (m : Cmd) (t : Nat) (j : Job) (s : State), s.quiet → Started s id 0x40 m → jobOf s.chip m.target = some (t, j) →
     (j.place.parts.contains m.id.part = false → exec (.killJob id) s = .next (s.after (final s.chip m.id .denied))) ∧
     (j.place.parts.contains m.id.part = true → exec (.killJob id) s = .next (s.after (lampReviews (killFrom
       (onJob (acceptCmd s.chip m.id (cmdHandle m.id)) t (fun j => { j with killCmds := j.killCmds ++ [m.id], clearAll := j.clearAll || bitOf m.flags 2 }))
       t (bitOf m.flags 2)))))) ∧
   (∀ (id : CmdId) (m : Cmd) (s : State), s.quiet → Started s id 0x41 m →
     let p := arg m 0x10 1
     ((part s.chip m.id.part).operator = false → exec (.releasePartition id) s = .next (s.after (final s.chip m.id .denied))) ∧
     ((part s.chip m.id.part).operator = true → p ≠ m.id.part → p < 16 → (part s.chip p).state ≠ 0 → (part s.chip p).state ≠ 2 →
       s.chip.jobs.all (fun j => !(j.2.place.parts.contains p)) = true → exec (.releasePartition id) s = .next (s.after (lampReviews (closeWindows
         (onPart (acceptCmd s.chip m.id (cmdHandle m.id)) p (fun q => { q with
           state := 2, newTenant := BitVec.ofNat 32 (arg m 0x14 4), relCmd := some m.id })) p))))) ∧
   (∀ (t p : Nat) (j : Job) (s : State), s.quiet → tfind s.chip.jobs t = some j → j.clearing = true → j.captureRun = none →
     (part s.chip (p % 16)).state ≠ 2 →
     (j.clearAll = false → j.killCmds = [] → ∃ u j', exec (.clearing t p) s = .next u ∧ tfind u.chip.jobs t = some j' ∧ j'.clearing = false ∧
       (∀ i ∈ jobCores j, ∀ a, inNear i a = true → u.byte a = 0) ∧
       (∀ r ∈ j.decl.ranges, clearedRange false r.use = true → ∀ a, r.lo ≤ a → a < r.lo + r.len → u.byte a = 0) ∧
       (∀ a, (∀ i ∈ jobCores j, inNear i a = false) → (∀ r ∈ j.decl.ranges, clearedRange false r.use = true → a < r.lo ∨ r.lo + r.len ≤ a) →
         u.byte a = s.byte a)) ∧
     (j.clearAll = true → ∃ u, exec (.clearing t p) s = .next u ∧ tfind u.chip.jobs t = none ∧ (∀ x ∈ u.chip.ctxs, x.2.job ≠ t))) ∧
   (∀ (t p : Nat) (s : State), s.quiet → p < 16 → tfind s.chip.jobs t = none → (part s.chip p).state = 2 →
     s.chip.jobs.all (fun j => !(j.2.place.parts.contains p)) = true →
     ∃ u, exec (.clearing t p) s = .next u ∧ (part u.chip p).state = (if (part s.chip p).newTenant = 0 then 0 else 1) ∧
       (part u.chip p).tenant = (part s.chip p).newTenant ∧ (part u.chip p).key = 0 ∧ (part u.chip p).keyValid = false ∧ (part u.chip p).seq = 1 ∧
       (∀ n, n ≠ p → (part u.chip n).state = (part s.chip n).state))) ∧
  ((∀ (id : CmdId) (m : Cmd) (t : Nat) (j : Job) (s : State), s.quiet → Started s id 0x42 m → m.id.part < 16 → Aimed s m t j → j.st ≠ .loading →
     let a := arg m 0x10 8
     let n := arg m 0x18 8
     let need := captureSize j.place.maxCores
     (bitOf m.flags 2 = false → bufferOk s.chip j.place.parts a n = true →
       (need ≤ n → exec (.armCapture (.ring id)) s = .next (s.after (onJob (doneCmd s.chip m.id .ok need 0) t (fun j => { j with capture := some ⟨m.id, a, n⟩ })))) ∧
       (n < need → exec (.armCapture (.ring id)) s = .next (s.after (finalCmd s.chip m.id .invalidArg need 0 0)))) ∧
     (bitOf m.flags 2 = true → exec (.disarm (.ring id)) s = .next (s.after (onJob (doneCmd s.chip m.id .ok need 0) t (fun j => { j with capture := none }))))) ∧
   (∀ (t : Nat) (j : Job) (x : Snap) (b : Capture) (s : State), s.quiet → tfind s.chip.jobs t = some j → j.captureRun = some x → j.capture = some b → linkWaits s.chip b.addr = false →
     exec (.capture t false) s = .next (s.after (onJob (writeCapture s.env s.chip t b.addr j x) t (fun j => { j with capture := none, captureRun := none }))) ∧
     exec (.capture t true) s = .next (s.after (onJob (writeBroken s.chip t b.addr j x) t (fun j => { j with capture := none, captureRun := none })))))

/-- R2, R308, R346, R349: a RANGE_PAIR start on a port that is absent is ENGINE_ABSENT; one on a free port that faces its partner is accepted and waits; with the partner's start it forms where both agree, and ends
INVALID_ARG where they do not; it times out after 100 ms; a stop ends the pair with its first mismatch; a digest of a tick before the first compared is
dropped. R350, R351: DRILL_DOWN on a job with no pair is INVALID_ARG, while another runs BUSY, and without a formed pair, or a held bank, NOT_READY; it is
taken up, and with the partner's records completes with the tick and what the comparison finds, and frees the bank. -/
def Obligations.RangePairs : Prop :=
  ((∀ (id : CmdId) (m : Cmd) (t : Nat) (j : Job) (s : State), s.quiet → Started s id 0x51 m → jobOf s.chip m.target = some (t, j) →
     j.place.parts.contains m.id.part = true → arg m 0x10 1 = 0 →
     let n := arg m 0x14 1
     (n ≤ 15 → (port s.env s.chip n).st = .absent → exec (.rangePair id none) s = .next (s.after (final s.chip m.id .engineAbsent))) ∧
     ((n ≤ 15 → (port s.env s.chip n).st ≠ .absent) → (j.pair ≠ none ∨ pairPort s.chip n = true) →
       exec (.rangePair id none) s = .next (s.after (final s.chip m.id .busy))) ∧
     (j.pair = none → pairPort s.chip n = false → n ≤ 15 → pairOk s.env s.chip m.id.part n (arg m 0x12 2) j = true →
       exec (.rangePair id none) s = .next (s.after (onJob (acceptCmd s.chip m.id (cmdHandle m.id)) t (fun j =>
         { j with pair := some ⟨m.id, arg m 0x12 2, n, false, s.chip.now, 0, [], [], none, none, none, 0, false, none⟩ }))))) ∧
   (∀ (id : CmdId) (r : PairReport) (t : Nat) (j : Job) (p : Pair) (m : Cmd) (s : State), s.quiet → findCmd s.chip id = some m → m.phase = .accepted →
     pairOf s.chip id = some t → tfind s.chip.jobs t = some j → j.pair = some p → p.formed = false →
     (pairAgrees s.env j p r = true → pairOk s.env s.chip p.cmd.part p.port p.partner j = true → exec (.rangePair id (some r)) s =
       .next (s.put (onJob s.chip t (fun j' => { j' with pair := some { p with
         formed := true, since := firstCompared s.chip j, delta := (r.firstTick : Int) - (firstCompared s.chip j : Int) } })))) ∧
     (pairAgrees s.env j p r = false → exec (.rangePair id (some r)) s =
       .next (s.after (final (onJob s.chip t (fun j => { j with pair := none })) p.cmd .invalidArg))) ∧
     (p.since + 100 * Config.ms ≤ s.chip.now → exec (.rangePairTimeout t) s =
       .next (s.after (final (onJob s.chip t (fun j => { j with pair := none })) p.cmd .notReady))) ∧
     (s.chip.now < p.since + 100 * Config.ms → exec (.rangePairTimeout t) s = .next s)) ∧
   (∀ (id : CmdId) (m : Cmd) (t : Nat) (j : Job) (p : Pair) (s : State), s.quiet → Started s id 0x51 m → jobOf s.chip m.target = some (t, j) →
     j.place.parts.contains m.id.part = true → arg m 0x10 1 = 1 → j.pair = some p →
     exec (.rangePairStop id) s = .next (s.after (doneCmd (pairEnds s.chip t p) m.id .ok (p.firstMiss.getD 0) 0)) ∧
     (p.answered = true → p.drill = none → pairEnds s.chip t p = onJob s.chip t (fun j => { j with pair := none }))) ∧
   (∀ (t tick v : Nat) (j : Job) (p : Pair) (s : State), s.quiet → tfind s.chip.jobs t = some j → j.pair = some p →
     ((p.formed = false ∨ (tick : Int) - p.delta < (p.since : Int)) → exec (.digest t tick v) s = .next s) ∧
     (p.formed = true → (p.since : Int) ≤ (tick : Int) - p.delta → tfind p.own ((tick : Int) - p.delta).toNat = none →
       exec (.digest t tick v) s = .next (s.put (onJob s.chip t (fun j' => { j' with pair := some { p with
         theirs := tset p.theirs ((tick : Int) - p.delta).toNat v } })))))) ∧
  ((∀ (id : CmdId) (m : Cmd) (t : Nat) (j : Job) (p : Pair) (s : State), s.quiet → Started s id 0x51 m →
     jobOf s.chip m.target = some (t, j) → j.place.parts.contains m.id.part = true → arg m 0x10 1 = 2 → drillOf s.chip id = none →
     (j.pair = none → ∀ r, exec (.drillDown id r) s = .next (s.after (final s.chip m.id .invalidArg))) ∧
     (j.pair = some p → p.drill.isSome = true → ∀ r, exec (.drillDown id r) s = .next (s.after (final s.chip m.id .busy))) ∧
     (j.pair = some p → p.drill = none → (p.formed = false ∨ tfind j.log (arg m 0x18 8) = none) →
       ∀ r, exec (.drillDown id r) s = .next (s.after (final s.chip m.id .notReady))) ∧
     (j.pair = some p → p.drill = none → p.formed = true → (tfind j.log (arg m 0x18 8)).isSome = true →
       exec (.drillDown id none) s = .next (s.after (onJob (acceptCmd s.chip m.id (cmdHandle m.id)) t (fun j =>
         { j with pair := some { p with drill := some (m.id, arg m 0x18 8) } }))))) ∧
   (∀ (id : CmdId) (r : DrillReport) (t k : Nat) (j : Job) (m : Cmd) (s : State), s.quiet → findCmd s.chip id = some m → m.phase = .accepted →
     drillOf s.chip id = some (t, k) → tfind s.chip.jobs t = some j →
     let c := onJob s.chip t (fun j => { j with pair := j.pair.map (fun p => { p with drill := none }) })
     let d := onJob c t (fun j => { j with pair := j.pair.map (fun p => { p with hold := if p.hold = some k then none else p.hold }) })
     ((r.held = false ∨ tfind j.log k = none) → exec (.drillDown id (some r)) s = .next (s.after (final c id .notReady))) ∧
     (∀ hash ls, tfind j.log k = some (hash, ls) → r.held = true →
       let x := drillResult hash ls r
       (x.2 = none → exec (.drillDown id (some r)) s = .next (s.after (doneCmd d id .ok k x.1))) ∧
       (∀ w, x.2 = some w → exec (.drillDown id (some r)) s = .next (s.after (doneCmd (jobEvent d t k 4 4 (leBytes 16 w.1 ++ leBytes 16 w.2)) id .ok k x.1)))) ∧
     exec (.drillDown id none) s = .next s))
end

