-- ==== Sys2Proof/Laws/Memory.lean ====
section
/-! SUPPORT. Laws of tables and of the byte memory: reads after writes, and that every operation keeps the canonical form. -/

namespace Sys2Proof.Machine

/-! Tables. -/

theorem tfind_filter {α : Type} (t : Tab α) (p : Nat → Bool) (k : Nat) :
    tfind (t.filter (fun x => p x.1)) k = if p k then tfind t k else none := by
  induction t with
  | nil => simp [tfind]
  | cons a r ih =>
    rw [List.filter_cons]
    by_cases ha : p a.1 = true
    · rw [if_pos ha]
      by_cases h : a.1 = k
      · subst h; simp [tfind, ha]
      · simp only [tfind, if_neg h]; exact ih
    · rw [if_neg ha, ih]
      by_cases h : a.1 = k
      · subst h; simp [ha]
      · simp [tfind, if_neg h]

theorem tfind_tdel {α : Type} (t : Tab α) (k j : Nat) : tfind (tdel t k) j = if j = k then none else tfind t j := by
  have h := tfind_filter t (fun n => n != k) j
  unfold tdel
  rw [h]
  by_cases hj : j = k <;> simp [hj]

theorem tfind_tins {α : Type} (t : Tab α) (k j : Nat) (v : α) (hk : tfind t k = none) :
    tfind (tins t k v) j = if j = k then some v else tfind t j := by
  induction t with
  | nil =>
    by_cases h : j = k
    · simp [tins, tfind, h]
    · have : k ≠ j := fun e => h e.symm
      simp [tins, tfind, h, this]
  | cons a r ih =>
    have hak : a.1 ≠ k := by
      intro e; simp [tfind, e] at hk
    have hr : tfind r k = none := by simpa [tfind, hak] using hk
    unfold tins
    split
    · by_cases h : j = k
      · simp [tfind, h]
      · have : k ≠ j := fun e => h e.symm
        simp [tfind, h, this]
    · by_cases h : a.1 = j
      · have : j ≠ k := fun e => hak (h.trans e)
        simp [tfind, h, this]
      · simp [tfind, h, ih hr]

theorem tfind_tset {α : Type} (t : Tab α) (k j : Nat) (v : α) : tfind (tset t k v) j = if j = k then some v else tfind t j := by
  have h : tfind (tdel t k) k = none := by simp [tfind_tdel]
  unfold tset
  rw [tfind_tins _ _ _ _ h, tfind_tdel]
  by_cases hj : j = k <;> simp [hj]

theorem tget_tset {α : Type} (d : α) (t : Tab α) (k j : Nat) (v : α) : tget d (tset t k v) j = if j = k then v else tget d t j := by
  unfold tget
  rw [tfind_tset]
  by_cases hj : j = k <;> simp [hj]

theorem tget_tupd {α : Type} (d : α) (t : Tab α) (k j : Nat) (f : α → α) :
    tget d (tupd d t k f) j = if j = k then f (tget d t k) else tget d t j := tget_tset d t k j _

@[simp] theorem part_onPart (c : Chip) (n m : Nat) (f : Part → Part) : part (onPart c n f) m = if m = n then f (part c n) else part c m :=
  tget_tupd _ _ _ _ _
@[simp] theorem ring_onRing (c : Chip) (n m : Nat) (f : Ring → Ring) : ring (onRing c n f) m = if m = n then f (ring c n) else ring c m :=
  tget_tupd _ _ _ _ _
@[simp] theorem core_onCore (c : Chip) (n m : Nat) (f : Core → Core) : core (onCore c n f) m = if m = n then f (core c n) else core c m :=
  tget_tupd _ _ _ _ _
@[simp] theorem req_onReq (c : Chip) (n m : Nat) (f : Req → Req) : req (onReq c n f) m = if m = n then f (req c n) else req c m :=
  tget_tupd _ _ _ _ _
@[simp] theorem side_onSide (c : Chip) (n m : Nat) (f : ReqSide → ReqSide) : side (onSide c n f) m = if m = n then f (side c n) else side c m :=
  tget_tupd _ _ _ _ _
@[simp] theorem lamp_onLamp (c : Chip) (n m : Nat) (f : LampSt → LampSt) : lamp (onLamp c n f) m = if m = n then f (lamp c n) else lamp c m :=
  tget_tupd _ _ _ _ _
@[simp] theorem ctx_onCtx (c : Chip) (n m : Nat) (f : Ctx → Ctx) : ctx (onCtx c n f) m = if m = n then f (ctx c n) else ctx c m :=
  tget_tupd _ _ _ _ _
theorem tget_onPort (c : Chip) (n m : Nat) (f : Port → Port) :
    tget Port.reset (onPort c n f).ports m = if m = n then f (tget Port.reset c.ports n) else tget Port.reset c.ports m := tget_tupd _ _ _ _ _
theorem tfind_onJob (c : Chip) (t u : Nat) (f : Job → Job) :
    tfind (onJob c t f).jobs u = if u = t then (tfind c.jobs t).map f else tfind c.jobs u := by
  unfold onJob
  split
  · rename_i h; by_cases e : u = t
    · subst e; simp [h]
    · simp [e]
  · rename_i j h; rw [tfind_tset]
    by_cases e : u = t
    · subst e; simp [h]
    · simp [e]

/-! Reads of memory. -/

theorem Memory.read_write (m : Memory) (a k : Nat) (b : Byte) : (m.write a b).read k = if k = a then b else m.read k := by
  unfold Memory.write Memory.read
  split
  · rename_i h
    unfold tget; rw [tfind_tdel]
    by_cases hk : k = a
    · simp [hk, h]
    · simp [hk]
  · exact tget_tset _ _ _ _ _

/-- Reading after a write of bytes: the bytes written where the address lies among them, else as before. -/
theorem Memory.read_writeBytes (m : Memory) (a k : Nat) (bs : List Byte) :
    (m.writeBytes a bs).read k = if a ≤ k ∧ k < a + bs.length then bs.getD (k - a) 0 else m.read k := by
  induction bs generalizing m a with
  | nil => simp only [Memory.writeBytes, List.length_nil, Nat.add_zero]; rw [if_neg (by omega)]
  | cons b r ih =>
    simp only [Memory.writeBytes]
    rw [ih, Memory.read_write]
    by_cases h1 : a + 1 ≤ k ∧ k < a + 1 + r.length
    · have h2 : a ≤ k ∧ k < a + (b :: r).length := by simp; omega
      have h3 : k - a = (k - (a + 1)) + 1 := by omega
      rw [if_pos h1, if_pos h2, h3, List.getD_cons_succ]
    · rw [if_neg h1]
      by_cases h2 : k = a
      · subst h2; simp
      · have h3 : ¬ (a ≤ k ∧ k < a + (b :: r).length) := by simp; omega
        rw [if_neg h2, if_neg h3]

theorem Memory.read_clear (m : Memory) (lo len k : Nat) : (m.clear lo len).read k = if lo ≤ k ∧ k < lo + len then Config.unlisted else m.read k := by
  unfold Memory.clear Memory.read tget
  have h := tfind_filter m (fun n => decide (n < lo) || decide (lo + len ≤ n)) k
  rw [h]
  by_cases h1 : lo ≤ k ∧ k < lo + len
  · have : (decide (k < lo) || decide (lo + len ≤ k)) = false := by simp; omega
    rw [this, if_pos h1]; simp
  · have : (decide (k < lo) || decide (lo + len ≤ k)) = true := by simp; omega
    rw [this, if_neg h1]; simp

/-! The canonical form. -/

/-- The canonical form as a property of every entry and of every pair of entries. -/
theorem Memory.wf_iff (m : Memory) : m.wf = true ↔ m.Pairwise (fun x y => x.1 < y.1) ∧ ∀ x ∈ m, x.2 ≠ Config.unlisted := by
  induction m with
  | nil => simp [Memory.wf]
  | cons c r ih =>
    cases r with
    | nil => simp [Memory.wf]
    | cons d r =>
      simp only [Memory.wf, Bool.and_eq_true, decide_eq_true_eq, bne_iff_ne, ih]
      constructor
      · rintro ⟨⟨h1, h2⟩, h3, h4⟩
        refine ⟨List.pairwise_cons.mpr ⟨?_, h3⟩, ?_⟩
        · intro x hx
          rcases List.mem_cons.mp hx with rfl | hx
          · exact h1
          · exact Nat.lt_trans h1 ((List.pairwise_cons.mp h3).1 x hx)
        · intro x hx
          rcases List.mem_cons.mp hx with rfl | hx
          · exact h2
          · exact h4 x hx
      · rintro ⟨h1, h2⟩
        have h3 := List.pairwise_cons.mp h1
        exact ⟨⟨h3.1 d (by simp), h2 c (by simp)⟩, h3.2, fun x hx => h2 x (List.mem_cons_of_mem _ hx)⟩

theorem Memory.wf_filter (m : Memory) (p : Host.Cell → Bool) (h : m.wf = true) : Memory.wf (m.filter p) = true := by
  rw [Memory.wf_iff] at *
  exact ⟨h.1.filter p, fun x hx => h.2 x (List.mem_filter.mp hx).1⟩

theorem Memory.wf_clear (m : Memory) (lo len : Nat) (h : m.wf = true) : (m.clear lo len).wf = true := Memory.wf_filter m _ h

theorem mem_tins {α : Type} (t : Tab α) (k : Nat) (v : α) (x : Nat × α) : x ∈ tins t k v ↔ x = (k, v) ∨ x ∈ t := by
  induction t with
  | nil => simp [tins]
  | cons a r ih =>
    unfold tins
    split
    · simp
    · simp only [List.mem_cons, ih]; tauto

theorem tins_sorted {α : Type} (t : Tab α) (k : Nat) (v : α) (hk : ∀ x ∈ t, x.1 ≠ k) (h : t.Pairwise (fun x y => x.1 < y.1)) :
    (tins t k v).Pairwise (fun x y => x.1 < y.1) := by
  induction t with
  | nil => simp [tins]
  | cons a r ih =>
    have h' := List.pairwise_cons.mp h
    unfold tins
    split
    · rename_i hlt
      refine List.pairwise_cons.mpr ⟨?_, h⟩
      intro x hx
      rcases List.mem_cons.mp hx with rfl | hx
      · exact hlt
      · exact Nat.lt_trans hlt (h'.1 x hx)
    · rename_i hlt
      have hne := hk a (by simp)
      refine List.pairwise_cons.mpr ⟨?_, ih (fun x hx => hk x (List.mem_cons_of_mem _ hx)) h'.2⟩
      intro x hx
      rcases (mem_tins r k v x).mp hx with rfl | hx
      · simp; omega
      · exact h'.1 x hx

theorem Memory.wf_write (m : Memory) (a : Nat) (b : Byte) (h : m.wf = true) : (m.write a b).wf = true := by
  unfold Memory.write
  split
  · exact Memory.wf_filter m _ h
  · rename_i hb
    have h1 := (Memory.wf_iff _).mp (Memory.wf_filter m (fun p => p.1 != a) h)
    rw [Memory.wf_iff]
    refine ⟨tins_sorted _ _ _ ?_ h1.1, ?_⟩
    · intro x hx
      have := (List.mem_filter.mp hx).2
      simpa using this
    · intro x hx
      rcases (mem_tins _ _ _ x).mp hx with rfl | hx
      · exact hb
      · exact h1.2 x hx

theorem Memory.wf_writeBytes (m : Memory) (a : Nat) (bs : List Byte) (h : m.wf = true) : (m.writeBytes a bs).wf = true := by
  induction bs generalizing m a with
  | nil => exact h
  | cons b r ih => exact ih _ _ (Memory.wf_write m a b h)

theorem Memory.wf_apply (m : Memory) (ws : List (Nat × List Byte)) (h : m.wf = true) : (m.apply ws).wf = true := by
  induction ws with
  | nil => exact h
  | cons w r ih => exact Memory.wf_writeBytes _ _ _ ih

/-- What a command does to memory keeps the canonical form. -/
theorem memAfter_wf (m : Memory) (c : Chip) (h : m.wf = true) : (memAfter m c).wf = true := by
  unfold memAfter
  apply Memory.wf_apply
  generalize c.clears = l
  induction l generalizing m with
  | nil => exact h
  | cons r l ih => exact ih _ (Memory.wf_clear m _ _ h)

end Sys2Proof.Machine
end

