-- ==== Sys2Proof/Laws/State.lean ====
section
/-! SUPPORT. One lemma per field for every update of the state and of the chip, so that no proof unfolds a record update. -/

namespace Sys2Proof.Machine

variable (c : Chip) (s : State)

@[simp] theorem State.put_fuses : (s.put c).fuses = s.fuses := rfl
@[simp] theorem State.put_mem : (s.put c).mem = s.mem := rfl
@[simp] theorem State.put_chip : (s.put c).chip = c := rfl
@[simp] theorem State.put_pending : (s.put c).pending = s.pending := rfl
@[simp] theorem State.after_fuses : (s.after c).fuses = s.fuses := rfl
@[simp] theorem State.after_mem : (s.after c).mem = memAfter s.mem (settleFaults s.env c) := rfl
@[simp] theorem State.after_chip : (s.after c).chip = (settleFaults s.env c).rest := rfl
@[simp] theorem State.after_pending : (s.after c).pending = s.pending := rfl
@[simp] theorem State.env_fuses : s.env.fuses = s.fuses := rfl
@[simp] theorem State.env_mem : s.env.mem = s.mem := rfl

/-! Chip.rest -/
@[simp] theorem Chip.rest_now : c.rest.now = c.now := rfl
@[simp] theorem Chip.rest_free : c.rest.free = c.free := rfl
@[simp] theorem Chip.rest_boot : c.rest.boot = c.boot := rfl
@[simp] theorem Chip.rest_parts : c.rest.parts = c.parts := rfl
@[simp] theorem Chip.rest_aper : c.rest.aper = c.aper := rfl
@[simp] theorem Chip.rest_rings : c.rest.rings = c.rings := rfl
@[simp] theorem Chip.rest_halves : c.rest.halves = c.halves := rfl
@[simp] theorem Chip.rest_cmds : c.rest.cmds = c.cmds := rfl
@[simp] theorem Chip.rest_beacon : c.rest.beacon = c.beacon := rfl
@[simp] theorem Chip.rest_ports : c.rest.ports = c.ports := rfl
@[simp] theorem Chip.rest_egress : c.rest.egress = c.egress := rfl
@[simp] theorem Chip.rest_jobs : c.rest.jobs = c.jobs := rfl
@[simp] theorem Chip.rest_jobGens : c.rest.jobGens = c.jobGens := rfl
@[simp] theorem Chip.rest_reqs : c.rest.reqs = c.reqs := rfl
@[simp] theorem Chip.rest_sides : c.rest.sides = c.sides := rfl
@[simp] theorem Chip.rest_ctxs : c.rest.ctxs = c.ctxs := rfl
@[simp] theorem Chip.rest_buoys : c.rest.buoys = c.buoys := rfl
@[simp] theorem Chip.rest_bars : c.rest.bars = c.bars := rfl
@[simp] theorem Chip.rest_buoyq : c.rest.buoyq = c.buoyq := rfl
@[simp] theorem Chip.rest_slots : c.rest.slots = c.slots := rfl
@[simp] theorem Chip.rest_cores : c.rest.cores = c.cores := rfl
@[simp] theorem Chip.rest_safe : c.rest.safe = c.safe := rfl
@[simp] theorem Chip.rest_mgmt : c.rest.mgmt = c.mgmt := rfl
@[simp] theorem Chip.rest_lamps : c.rest.lamps = c.lamps := rfl
@[simp] theorem Chip.rest_maxCap : c.rest.maxCap = c.maxCap := rfl
@[simp] theorem Chip.rest_out : c.rest.out = c.out := rfl
@[simp] theorem Chip.rest_writes : c.rest.writes = [] := rfl
@[simp] theorem Chip.rest_clears : c.rest.clears = [] := rfl
@[simp] theorem Chip.rest_raised : c.rest.raised = [] := rfl

/-! emit -/
@[simp] theorem emit_now (o : Out) : (emit c o).now = c.now := rfl
@[simp] theorem emit_free (o : Out) : (emit c o).free = c.free := rfl
@[simp] theorem emit_boot (o : Out) : (emit c o).boot = c.boot := rfl
@[simp] theorem emit_parts (o : Out) : (emit c o).parts = c.parts := rfl
@[simp] theorem emit_aper (o : Out) : (emit c o).aper = c.aper := rfl
@[simp] theorem emit_rings (o : Out) : (emit c o).rings = c.rings := rfl
@[simp] theorem emit_halves (o : Out) : (emit c o).halves = c.halves := rfl
@[simp] theorem emit_cmds (o : Out) : (emit c o).cmds = c.cmds := rfl
@[simp] theorem emit_beacon (o : Out) : (emit c o).beacon = c.beacon := rfl
@[simp] theorem emit_ports (o : Out) : (emit c o).ports = c.ports := rfl
@[simp] theorem emit_egress (o : Out) : (emit c o).egress = c.egress := rfl
@[simp] theorem emit_jobs (o : Out) : (emit c o).jobs = c.jobs := rfl
@[simp] theorem emit_jobGens (o : Out) : (emit c o).jobGens = c.jobGens := rfl
@[simp] theorem emit_reqs (o : Out) : (emit c o).reqs = c.reqs := rfl
@[simp] theorem emit_sides (o : Out) : (emit c o).sides = c.sides := rfl
@[simp] theorem emit_ctxs (o : Out) : (emit c o).ctxs = c.ctxs := rfl
@[simp] theorem emit_buoys (o : Out) : (emit c o).buoys = c.buoys := rfl
@[simp] theorem emit_bars (o : Out) : (emit c o).bars = c.bars := rfl
@[simp] theorem emit_buoyq (o : Out) : (emit c o).buoyq = c.buoyq := rfl
@[simp] theorem emit_slots (o : Out) : (emit c o).slots = c.slots := rfl
@[simp] theorem emit_cores (o : Out) : (emit c o).cores = c.cores := rfl
@[simp] theorem emit_safe (o : Out) : (emit c o).safe = c.safe := rfl
@[simp] theorem emit_mgmt (o : Out) : (emit c o).mgmt = c.mgmt := rfl
@[simp] theorem emit_lamps (o : Out) : (emit c o).lamps = c.lamps := rfl
@[simp] theorem emit_maxCap (o : Out) : (emit c o).maxCap = c.maxCap := rfl
@[simp] theorem emit_out (o : Out) : (emit c o).out = c.out ++ [o] := rfl
@[simp] theorem emit_writes (o : Out) : (emit c o).writes = c.writes := rfl
@[simp] theorem emit_clears (o : Out) : (emit c o).clears = c.clears := rfl
@[simp] theorem emit_raised (o : Out) : (emit c o).raised = c.raised := rfl

/-! raise -/
@[simp] theorem raise_now (r : Raise) : (raise c r).now = c.now := rfl
@[simp] theorem raise_free (r : Raise) : (raise c r).free = c.free := rfl
@[simp] theorem raise_boot (r : Raise) : (raise c r).boot = c.boot := rfl
@[simp] theorem raise_parts (r : Raise) : (raise c r).parts = c.parts := rfl
@[simp] theorem raise_aper (r : Raise) : (raise c r).aper = c.aper := rfl
@[simp] theorem raise_rings (r : Raise) : (raise c r).rings = c.rings := rfl
@[simp] theorem raise_halves (r : Raise) : (raise c r).halves = c.halves := rfl
@[simp] theorem raise_cmds (r : Raise) : (raise c r).cmds = c.cmds := rfl
@[simp] theorem raise_beacon (r : Raise) : (raise c r).beacon = c.beacon := rfl
@[simp] theorem raise_ports (r : Raise) : (raise c r).ports = c.ports := rfl
@[simp] theorem raise_egress (r : Raise) : (raise c r).egress = c.egress := rfl
@[simp] theorem raise_jobs (r : Raise) : (raise c r).jobs = c.jobs := rfl
@[simp] theorem raise_jobGens (r : Raise) : (raise c r).jobGens = c.jobGens := rfl
@[simp] theorem raise_reqs (r : Raise) : (raise c r).reqs = c.reqs := rfl
@[simp] theorem raise_sides (r : Raise) : (raise c r).sides = c.sides := rfl
@[simp] theorem raise_ctxs (r : Raise) : (raise c r).ctxs = c.ctxs := rfl
@[simp] theorem raise_buoys (r : Raise) : (raise c r).buoys = c.buoys := rfl
@[simp] theorem raise_bars (r : Raise) : (raise c r).bars = c.bars := rfl
@[simp] theorem raise_buoyq (r : Raise) : (raise c r).buoyq = c.buoyq := rfl
@[simp] theorem raise_slots (r : Raise) : (raise c r).slots = c.slots := rfl
@[simp] theorem raise_cores (r : Raise) : (raise c r).cores = c.cores := rfl
@[simp] theorem raise_safe (r : Raise) : (raise c r).safe = c.safe := rfl
@[simp] theorem raise_mgmt (r : Raise) : (raise c r).mgmt = c.mgmt := rfl
@[simp] theorem raise_lamps (r : Raise) : (raise c r).lamps = c.lamps := rfl
@[simp] theorem raise_maxCap (r : Raise) : (raise c r).maxCap = c.maxCap := rfl
@[simp] theorem raise_out (r : Raise) : (raise c r).out = c.out := rfl
@[simp] theorem raise_writes (r : Raise) : (raise c r).writes = c.writes := rfl
@[simp] theorem raise_clears (r : Raise) : (raise c r).clears = c.clears := rfl
@[simp] theorem raise_raised (r : Raise) : (raise c r).raised = c.raised ++ [r] := rfl

/-! onBoot -/
@[simp] theorem onBoot_now (f : Boot → Boot) : (onBoot c f).now = c.now := rfl
@[simp] theorem onBoot_free (f : Boot → Boot) : (onBoot c f).free = c.free := rfl
@[simp] theorem onBoot_boot (f : Boot → Boot) : (onBoot c f).boot = f c.boot := rfl
@[simp] theorem onBoot_parts (f : Boot → Boot) : (onBoot c f).parts = c.parts := rfl
@[simp] theorem onBoot_aper (f : Boot → Boot) : (onBoot c f).aper = c.aper := rfl
@[simp] theorem onBoot_rings (f : Boot → Boot) : (onBoot c f).rings = c.rings := rfl
@[simp] theorem onBoot_halves (f : Boot → Boot) : (onBoot c f).halves = c.halves := rfl
@[simp] theorem onBoot_cmds (f : Boot → Boot) : (onBoot c f).cmds = c.cmds := rfl
@[simp] theorem onBoot_beacon (f : Boot → Boot) : (onBoot c f).beacon = c.beacon := rfl
@[simp] theorem onBoot_ports (f : Boot → Boot) : (onBoot c f).ports = c.ports := rfl
@[simp] theorem onBoot_egress (f : Boot → Boot) : (onBoot c f).egress = c.egress := rfl
@[simp] theorem onBoot_jobs (f : Boot → Boot) : (onBoot c f).jobs = c.jobs := rfl
@[simp] theorem onBoot_jobGens (f : Boot → Boot) : (onBoot c f).jobGens = c.jobGens := rfl
@[simp] theorem onBoot_reqs (f : Boot → Boot) : (onBoot c f).reqs = c.reqs := rfl
@[simp] theorem onBoot_sides (f : Boot → Boot) : (onBoot c f).sides = c.sides := rfl
@[simp] theorem onBoot_ctxs (f : Boot → Boot) : (onBoot c f).ctxs = c.ctxs := rfl
@[simp] theorem onBoot_buoys (f : Boot → Boot) : (onBoot c f).buoys = c.buoys := rfl
@[simp] theorem onBoot_bars (f : Boot → Boot) : (onBoot c f).bars = c.bars := rfl
@[simp] theorem onBoot_buoyq (f : Boot → Boot) : (onBoot c f).buoyq = c.buoyq := rfl
@[simp] theorem onBoot_slots (f : Boot → Boot) : (onBoot c f).slots = c.slots := rfl
@[simp] theorem onBoot_cores (f : Boot → Boot) : (onBoot c f).cores = c.cores := rfl
@[simp] theorem onBoot_safe (f : Boot → Boot) : (onBoot c f).safe = c.safe := rfl
@[simp] theorem onBoot_mgmt (f : Boot → Boot) : (onBoot c f).mgmt = c.mgmt := rfl
@[simp] theorem onBoot_lamps (f : Boot → Boot) : (onBoot c f).lamps = c.lamps := rfl
@[simp] theorem onBoot_maxCap (f : Boot → Boot) : (onBoot c f).maxCap = c.maxCap := rfl
@[simp] theorem onBoot_out (f : Boot → Boot) : (onBoot c f).out = c.out := rfl
@[simp] theorem onBoot_writes (f : Boot → Boot) : (onBoot c f).writes = c.writes := rfl
@[simp] theorem onBoot_clears (f : Boot → Boot) : (onBoot c f).clears = c.clears := rfl
@[simp] theorem onBoot_raised (f : Boot → Boot) : (onBoot c f).raised = c.raised := rfl

/-! onBeacon -/
@[simp] theorem onBeacon_now (f : Beacon → Beacon) : (onBeacon c f).now = c.now := rfl
@[simp] theorem onBeacon_free (f : Beacon → Beacon) : (onBeacon c f).free = c.free := rfl
@[simp] theorem onBeacon_boot (f : Beacon → Beacon) : (onBeacon c f).boot = c.boot := rfl
@[simp] theorem onBeacon_parts (f : Beacon → Beacon) : (onBeacon c f).parts = c.parts := rfl
@[simp] theorem onBeacon_aper (f : Beacon → Beacon) : (onBeacon c f).aper = c.aper := rfl
@[simp] theorem onBeacon_rings (f : Beacon → Beacon) : (onBeacon c f).rings = c.rings := rfl
@[simp] theorem onBeacon_halves (f : Beacon → Beacon) : (onBeacon c f).halves = c.halves := rfl
@[simp] theorem onBeacon_cmds (f : Beacon → Beacon) : (onBeacon c f).cmds = c.cmds := rfl
@[simp] theorem onBeacon_beacon (f : Beacon → Beacon) : (onBeacon c f).beacon = f c.beacon := rfl
@[simp] theorem onBeacon_ports (f : Beacon → Beacon) : (onBeacon c f).ports = c.ports := rfl
@[simp] theorem onBeacon_egress (f : Beacon → Beacon) : (onBeacon c f).egress = c.egress := rfl
@[simp] theorem onBeacon_jobs (f : Beacon → Beacon) : (onBeacon c f).jobs = c.jobs := rfl
@[simp] theorem onBeacon_jobGens (f : Beacon → Beacon) : (onBeacon c f).jobGens = c.jobGens := rfl
@[simp] theorem onBeacon_reqs (f : Beacon → Beacon) : (onBeacon c f).reqs = c.reqs := rfl
@[simp] theorem onBeacon_sides (f : Beacon → Beacon) : (onBeacon c f).sides = c.sides := rfl
@[simp] theorem onBeacon_ctxs (f : Beacon → Beacon) : (onBeacon c f).ctxs = c.ctxs := rfl
@[simp] theorem onBeacon_buoys (f : Beacon → Beacon) : (onBeacon c f).buoys = c.buoys := rfl
@[simp] theorem onBeacon_bars (f : Beacon → Beacon) : (onBeacon c f).bars = c.bars := rfl
@[simp] theorem onBeacon_buoyq (f : Beacon → Beacon) : (onBeacon c f).buoyq = c.buoyq := rfl
@[simp] theorem onBeacon_slots (f : Beacon → Beacon) : (onBeacon c f).slots = c.slots := rfl
@[simp] theorem onBeacon_cores (f : Beacon → Beacon) : (onBeacon c f).cores = c.cores := rfl
@[simp] theorem onBeacon_safe (f : Beacon → Beacon) : (onBeacon c f).safe = c.safe := rfl
@[simp] theorem onBeacon_mgmt (f : Beacon → Beacon) : (onBeacon c f).mgmt = c.mgmt := rfl
@[simp] theorem onBeacon_lamps (f : Beacon → Beacon) : (onBeacon c f).lamps = c.lamps := rfl
@[simp] theorem onBeacon_maxCap (f : Beacon → Beacon) : (onBeacon c f).maxCap = c.maxCap := rfl
@[simp] theorem onBeacon_out (f : Beacon → Beacon) : (onBeacon c f).out = c.out := rfl
@[simp] theorem onBeacon_writes (f : Beacon → Beacon) : (onBeacon c f).writes = c.writes := rfl
@[simp] theorem onBeacon_clears (f : Beacon → Beacon) : (onBeacon c f).clears = c.clears := rfl
@[simp] theorem onBeacon_raised (f : Beacon → Beacon) : (onBeacon c f).raised = c.raised := rfl

/-! onMgmt -/
@[simp] theorem onMgmt_now (f : Mgmt → Mgmt) : (onMgmt c f).now = c.now := rfl
@[simp] theorem onMgmt_free (f : Mgmt → Mgmt) : (onMgmt c f).free = c.free := rfl
@[simp] theorem onMgmt_boot (f : Mgmt → Mgmt) : (onMgmt c f).boot = c.boot := rfl
@[simp] theorem onMgmt_parts (f : Mgmt → Mgmt) : (onMgmt c f).parts = c.parts := rfl
@[simp] theorem onMgmt_aper (f : Mgmt → Mgmt) : (onMgmt c f).aper = c.aper := rfl
@[simp] theorem onMgmt_rings (f : Mgmt → Mgmt) : (onMgmt c f).rings = c.rings := rfl
@[simp] theorem onMgmt_halves (f : Mgmt → Mgmt) : (onMgmt c f).halves = c.halves := rfl
@[simp] theorem onMgmt_cmds (f : Mgmt → Mgmt) : (onMgmt c f).cmds = c.cmds := rfl
@[simp] theorem onMgmt_beacon (f : Mgmt → Mgmt) : (onMgmt c f).beacon = c.beacon := rfl
@[simp] theorem onMgmt_ports (f : Mgmt → Mgmt) : (onMgmt c f).ports = c.ports := rfl
@[simp] theorem onMgmt_egress (f : Mgmt → Mgmt) : (onMgmt c f).egress = c.egress := rfl
@[simp] theorem onMgmt_jobs (f : Mgmt → Mgmt) : (onMgmt c f).jobs = c.jobs := rfl
@[simp] theorem onMgmt_jobGens (f : Mgmt → Mgmt) : (onMgmt c f).jobGens = c.jobGens := rfl
@[simp] theorem onMgmt_reqs (f : Mgmt → Mgmt) : (onMgmt c f).reqs = c.reqs := rfl
@[simp] theorem onMgmt_sides (f : Mgmt → Mgmt) : (onMgmt c f).sides = c.sides := rfl
@[simp] theorem onMgmt_ctxs (f : Mgmt → Mgmt) : (onMgmt c f).ctxs = c.ctxs := rfl
@[simp] theorem onMgmt_buoys (f : Mgmt → Mgmt) : (onMgmt c f).buoys = c.buoys := rfl
@[simp] theorem onMgmt_bars (f : Mgmt → Mgmt) : (onMgmt c f).bars = c.bars := rfl
@[simp] theorem onMgmt_buoyq (f : Mgmt → Mgmt) : (onMgmt c f).buoyq = c.buoyq := rfl
@[simp] theorem onMgmt_slots (f : Mgmt → Mgmt) : (onMgmt c f).slots = c.slots := rfl
@[simp] theorem onMgmt_cores (f : Mgmt → Mgmt) : (onMgmt c f).cores = c.cores := rfl
@[simp] theorem onMgmt_safe (f : Mgmt → Mgmt) : (onMgmt c f).safe = c.safe := rfl
@[simp] theorem onMgmt_mgmt (f : Mgmt → Mgmt) : (onMgmt c f).mgmt = f c.mgmt := rfl
@[simp] theorem onMgmt_lamps (f : Mgmt → Mgmt) : (onMgmt c f).lamps = c.lamps := rfl
@[simp] theorem onMgmt_maxCap (f : Mgmt → Mgmt) : (onMgmt c f).maxCap = c.maxCap := rfl
@[simp] theorem onMgmt_out (f : Mgmt → Mgmt) : (onMgmt c f).out = c.out := rfl
@[simp] theorem onMgmt_writes (f : Mgmt → Mgmt) : (onMgmt c f).writes = c.writes := rfl
@[simp] theorem onMgmt_clears (f : Mgmt → Mgmt) : (onMgmt c f).clears = c.clears := rfl
@[simp] theorem onMgmt_raised (f : Mgmt → Mgmt) : (onMgmt c f).raised = c.raised := rfl

/-! onCore -/
@[simp] theorem onCore_now (i : Nat) (f : Core → Core) : (onCore c i f).now = c.now := rfl
@[simp] theorem onCore_free (i : Nat) (f : Core → Core) : (onCore c i f).free = c.free := rfl
@[simp] theorem onCore_boot (i : Nat) (f : Core → Core) : (onCore c i f).boot = c.boot := rfl
@[simp] theorem onCore_parts (i : Nat) (f : Core → Core) : (onCore c i f).parts = c.parts := rfl
@[simp] theorem onCore_aper (i : Nat) (f : Core → Core) : (onCore c i f).aper = c.aper := rfl
@[simp] theorem onCore_rings (i : Nat) (f : Core → Core) : (onCore c i f).rings = c.rings := rfl
@[simp] theorem onCore_halves (i : Nat) (f : Core → Core) : (onCore c i f).halves = c.halves := rfl
@[simp] theorem onCore_cmds (i : Nat) (f : Core → Core) : (onCore c i f).cmds = c.cmds := rfl
@[simp] theorem onCore_beacon (i : Nat) (f : Core → Core) : (onCore c i f).beacon = c.beacon := rfl
@[simp] theorem onCore_ports (i : Nat) (f : Core → Core) : (onCore c i f).ports = c.ports := rfl
@[simp] theorem onCore_egress (i : Nat) (f : Core → Core) : (onCore c i f).egress = c.egress := rfl
@[simp] theorem onCore_jobs (i : Nat) (f : Core → Core) : (onCore c i f).jobs = c.jobs := rfl
@[simp] theorem onCore_jobGens (i : Nat) (f : Core → Core) : (onCore c i f).jobGens = c.jobGens := rfl
@[simp] theorem onCore_reqs (i : Nat) (f : Core → Core) : (onCore c i f).reqs = c.reqs := rfl
@[simp] theorem onCore_sides (i : Nat) (f : Core → Core) : (onCore c i f).sides = c.sides := rfl
@[simp] theorem onCore_ctxs (i : Nat) (f : Core → Core) : (onCore c i f).ctxs = c.ctxs := rfl
@[simp] theorem onCore_buoys (i : Nat) (f : Core → Core) : (onCore c i f).buoys = c.buoys := rfl
@[simp] theorem onCore_bars (i : Nat) (f : Core → Core) : (onCore c i f).bars = c.bars := rfl
@[simp] theorem onCore_buoyq (i : Nat) (f : Core → Core) : (onCore c i f).buoyq = c.buoyq := rfl
@[simp] theorem onCore_slots (i : Nat) (f : Core → Core) : (onCore c i f).slots = c.slots := rfl
@[simp] theorem onCore_cores (i : Nat) (f : Core → Core) : (onCore c i f).cores = tupd Core.idle c.cores i f := rfl
@[simp] theorem onCore_safe (i : Nat) (f : Core → Core) : (onCore c i f).safe = c.safe := rfl
@[simp] theorem onCore_mgmt (i : Nat) (f : Core → Core) : (onCore c i f).mgmt = c.mgmt := rfl
@[simp] theorem onCore_lamps (i : Nat) (f : Core → Core) : (onCore c i f).lamps = c.lamps := rfl
@[simp] theorem onCore_maxCap (i : Nat) (f : Core → Core) : (onCore c i f).maxCap = c.maxCap := rfl
@[simp] theorem onCore_out (i : Nat) (f : Core → Core) : (onCore c i f).out = c.out := rfl
@[simp] theorem onCore_writes (i : Nat) (f : Core → Core) : (onCore c i f).writes = c.writes := rfl
@[simp] theorem onCore_clears (i : Nat) (f : Core → Core) : (onCore c i f).clears = c.clears := rfl
@[simp] theorem onCore_raised (i : Nat) (f : Core → Core) : (onCore c i f).raised = c.raised := rfl

/-! onPart -/
@[simp] theorem onPart_now (i : Nat) (f : Part → Part) : (onPart c i f).now = c.now := rfl
@[simp] theorem onPart_free (i : Nat) (f : Part → Part) : (onPart c i f).free = c.free := rfl
@[simp] theorem onPart_boot (i : Nat) (f : Part → Part) : (onPart c i f).boot = c.boot := rfl
@[simp] theorem onPart_parts (i : Nat) (f : Part → Part) : (onPart c i f).parts = tupd Part.reset c.parts i f := rfl
@[simp] theorem onPart_aper (i : Nat) (f : Part → Part) : (onPart c i f).aper = c.aper := rfl
@[simp] theorem onPart_rings (i : Nat) (f : Part → Part) : (onPart c i f).rings = c.rings := rfl
@[simp] theorem onPart_halves (i : Nat) (f : Part → Part) : (onPart c i f).halves = c.halves := rfl
@[simp] theorem onPart_cmds (i : Nat) (f : Part → Part) : (onPart c i f).cmds = c.cmds := rfl
@[simp] theorem onPart_beacon (i : Nat) (f : Part → Part) : (onPart c i f).beacon = c.beacon := rfl
@[simp] theorem onPart_ports (i : Nat) (f : Part → Part) : (onPart c i f).ports = c.ports := rfl
@[simp] theorem onPart_egress (i : Nat) (f : Part → Part) : (onPart c i f).egress = c.egress := rfl
@[simp] theorem onPart_jobs (i : Nat) (f : Part → Part) : (onPart c i f).jobs = c.jobs := rfl
@[simp] theorem onPart_jobGens (i : Nat) (f : Part → Part) : (onPart c i f).jobGens = c.jobGens := rfl
@[simp] theorem onPart_reqs (i : Nat) (f : Part → Part) : (onPart c i f).reqs = c.reqs := rfl
@[simp] theorem onPart_sides (i : Nat) (f : Part → Part) : (onPart c i f).sides = c.sides := rfl
@[simp] theorem onPart_ctxs (i : Nat) (f : Part → Part) : (onPart c i f).ctxs = c.ctxs := rfl
@[simp] theorem onPart_buoys (i : Nat) (f : Part → Part) : (onPart c i f).buoys = c.buoys := rfl
@[simp] theorem onPart_bars (i : Nat) (f : Part → Part) : (onPart c i f).bars = c.bars := rfl
@[simp] theorem onPart_buoyq (i : Nat) (f : Part → Part) : (onPart c i f).buoyq = c.buoyq := rfl
@[simp] theorem onPart_slots (i : Nat) (f : Part → Part) : (onPart c i f).slots = c.slots := rfl
@[simp] theorem onPart_cores (i : Nat) (f : Part → Part) : (onPart c i f).cores = c.cores := rfl
@[simp] theorem onPart_safe (i : Nat) (f : Part → Part) : (onPart c i f).safe = c.safe := rfl
@[simp] theorem onPart_mgmt (i : Nat) (f : Part → Part) : (onPart c i f).mgmt = c.mgmt := rfl
@[simp] theorem onPart_lamps (i : Nat) (f : Part → Part) : (onPart c i f).lamps = c.lamps := rfl
@[simp] theorem onPart_maxCap (i : Nat) (f : Part → Part) : (onPart c i f).maxCap = c.maxCap := rfl
@[simp] theorem onPart_out (i : Nat) (f : Part → Part) : (onPart c i f).out = c.out := rfl
@[simp] theorem onPart_writes (i : Nat) (f : Part → Part) : (onPart c i f).writes = c.writes := rfl
@[simp] theorem onPart_clears (i : Nat) (f : Part → Part) : (onPart c i f).clears = c.clears := rfl
@[simp] theorem onPart_raised (i : Nat) (f : Part → Part) : (onPart c i f).raised = c.raised := rfl

/-! onRing -/
@[simp] theorem onRing_now (i : Nat) (f : Ring → Ring) : (onRing c i f).now = c.now := rfl
@[simp] theorem onRing_free (i : Nat) (f : Ring → Ring) : (onRing c i f).free = c.free := rfl
@[simp] theorem onRing_boot (i : Nat) (f : Ring → Ring) : (onRing c i f).boot = c.boot := rfl
@[simp] theorem onRing_parts (i : Nat) (f : Ring → Ring) : (onRing c i f).parts = c.parts := rfl
@[simp] theorem onRing_aper (i : Nat) (f : Ring → Ring) : (onRing c i f).aper = c.aper := rfl
@[simp] theorem onRing_rings (i : Nat) (f : Ring → Ring) : (onRing c i f).rings = tupd Ring.reset c.rings i f := rfl
@[simp] theorem onRing_halves (i : Nat) (f : Ring → Ring) : (onRing c i f).halves = c.halves := rfl
@[simp] theorem onRing_cmds (i : Nat) (f : Ring → Ring) : (onRing c i f).cmds = c.cmds := rfl
@[simp] theorem onRing_beacon (i : Nat) (f : Ring → Ring) : (onRing c i f).beacon = c.beacon := rfl
@[simp] theorem onRing_ports (i : Nat) (f : Ring → Ring) : (onRing c i f).ports = c.ports := rfl
@[simp] theorem onRing_egress (i : Nat) (f : Ring → Ring) : (onRing c i f).egress = c.egress := rfl
@[simp] theorem onRing_jobs (i : Nat) (f : Ring → Ring) : (onRing c i f).jobs = c.jobs := rfl
@[simp] theorem onRing_jobGens (i : Nat) (f : Ring → Ring) : (onRing c i f).jobGens = c.jobGens := rfl
@[simp] theorem onRing_reqs (i : Nat) (f : Ring → Ring) : (onRing c i f).reqs = c.reqs := rfl
@[simp] theorem onRing_sides (i : Nat) (f : Ring → Ring) : (onRing c i f).sides = c.sides := rfl
@[simp] theorem onRing_ctxs (i : Nat) (f : Ring → Ring) : (onRing c i f).ctxs = c.ctxs := rfl
@[simp] theorem onRing_buoys (i : Nat) (f : Ring → Ring) : (onRing c i f).buoys = c.buoys := rfl
@[simp] theorem onRing_bars (i : Nat) (f : Ring → Ring) : (onRing c i f).bars = c.bars := rfl
@[simp] theorem onRing_buoyq (i : Nat) (f : Ring → Ring) : (onRing c i f).buoyq = c.buoyq := rfl
@[simp] theorem onRing_slots (i : Nat) (f : Ring → Ring) : (onRing c i f).slots = c.slots := rfl
@[simp] theorem onRing_cores (i : Nat) (f : Ring → Ring) : (onRing c i f).cores = c.cores := rfl
@[simp] theorem onRing_safe (i : Nat) (f : Ring → Ring) : (onRing c i f).safe = c.safe := rfl
@[simp] theorem onRing_mgmt (i : Nat) (f : Ring → Ring) : (onRing c i f).mgmt = c.mgmt := rfl
@[simp] theorem onRing_lamps (i : Nat) (f : Ring → Ring) : (onRing c i f).lamps = c.lamps := rfl
@[simp] theorem onRing_maxCap (i : Nat) (f : Ring → Ring) : (onRing c i f).maxCap = c.maxCap := rfl
@[simp] theorem onRing_out (i : Nat) (f : Ring → Ring) : (onRing c i f).out = c.out := rfl
@[simp] theorem onRing_writes (i : Nat) (f : Ring → Ring) : (onRing c i f).writes = c.writes := rfl
@[simp] theorem onRing_clears (i : Nat) (f : Ring → Ring) : (onRing c i f).clears = c.clears := rfl
@[simp] theorem onRing_raised (i : Nat) (f : Ring → Ring) : (onRing c i f).raised = c.raised := rfl

/-! onPort -/
@[simp] theorem onPort_now (i : Nat) (f : Port → Port) : (onPort c i f).now = c.now := rfl
@[simp] theorem onPort_free (i : Nat) (f : Port → Port) : (onPort c i f).free = c.free := rfl
@[simp] theorem onPort_boot (i : Nat) (f : Port → Port) : (onPort c i f).boot = c.boot := rfl
@[simp] theorem onPort_parts (i : Nat) (f : Port → Port) : (onPort c i f).parts = c.parts := rfl
@[simp] theorem onPort_aper (i : Nat) (f : Port → Port) : (onPort c i f).aper = c.aper := rfl
@[simp] theorem onPort_rings (i : Nat) (f : Port → Port) : (onPort c i f).rings = c.rings := rfl
@[simp] theorem onPort_halves (i : Nat) (f : Port → Port) : (onPort c i f).halves = c.halves := rfl
@[simp] theorem onPort_cmds (i : Nat) (f : Port → Port) : (onPort c i f).cmds = c.cmds := rfl
@[simp] theorem onPort_beacon (i : Nat) (f : Port → Port) : (onPort c i f).beacon = c.beacon := rfl
@[simp] theorem onPort_ports (i : Nat) (f : Port → Port) : (onPort c i f).ports = tupd Port.reset c.ports i f := rfl
@[simp] theorem onPort_egress (i : Nat) (f : Port → Port) : (onPort c i f).egress = c.egress := rfl
@[simp] theorem onPort_jobs (i : Nat) (f : Port → Port) : (onPort c i f).jobs = c.jobs := rfl
@[simp] theorem onPort_jobGens (i : Nat) (f : Port → Port) : (onPort c i f).jobGens = c.jobGens := rfl
@[simp] theorem onPort_reqs (i : Nat) (f : Port → Port) : (onPort c i f).reqs = c.reqs := rfl
@[simp] theorem onPort_sides (i : Nat) (f : Port → Port) : (onPort c i f).sides = c.sides := rfl
@[simp] theorem onPort_ctxs (i : Nat) (f : Port → Port) : (onPort c i f).ctxs = c.ctxs := rfl
@[simp] theorem onPort_buoys (i : Nat) (f : Port → Port) : (onPort c i f).buoys = c.buoys := rfl
@[simp] theorem onPort_bars (i : Nat) (f : Port → Port) : (onPort c i f).bars = c.bars := rfl
@[simp] theorem onPort_buoyq (i : Nat) (f : Port → Port) : (onPort c i f).buoyq = c.buoyq := rfl
@[simp] theorem onPort_slots (i : Nat) (f : Port → Port) : (onPort c i f).slots = c.slots := rfl
@[simp] theorem onPort_cores (i : Nat) (f : Port → Port) : (onPort c i f).cores = c.cores := rfl
@[simp] theorem onPort_safe (i : Nat) (f : Port → Port) : (onPort c i f).safe = c.safe := rfl
@[simp] theorem onPort_mgmt (i : Nat) (f : Port → Port) : (onPort c i f).mgmt = c.mgmt := rfl
@[simp] theorem onPort_lamps (i : Nat) (f : Port → Port) : (onPort c i f).lamps = c.lamps := rfl
@[simp] theorem onPort_maxCap (i : Nat) (f : Port → Port) : (onPort c i f).maxCap = c.maxCap := rfl
@[simp] theorem onPort_out (i : Nat) (f : Port → Port) : (onPort c i f).out = c.out := rfl
@[simp] theorem onPort_writes (i : Nat) (f : Port → Port) : (onPort c i f).writes = c.writes := rfl
@[simp] theorem onPort_clears (i : Nat) (f : Port → Port) : (onPort c i f).clears = c.clears := rfl
@[simp] theorem onPort_raised (i : Nat) (f : Port → Port) : (onPort c i f).raised = c.raised := rfl

/-! onReq -/
@[simp] theorem onReq_now (i : Nat) (f : Req → Req) : (onReq c i f).now = c.now := rfl
@[simp] theorem onReq_free (i : Nat) (f : Req → Req) : (onReq c i f).free = c.free := rfl
@[simp] theorem onReq_boot (i : Nat) (f : Req → Req) : (onReq c i f).boot = c.boot := rfl
@[simp] theorem onReq_parts (i : Nat) (f : Req → Req) : (onReq c i f).parts = c.parts := rfl
@[simp] theorem onReq_aper (i : Nat) (f : Req → Req) : (onReq c i f).aper = c.aper := rfl
@[simp] theorem onReq_rings (i : Nat) (f : Req → Req) : (onReq c i f).rings = c.rings := rfl
@[simp] theorem onReq_halves (i : Nat) (f : Req → Req) : (onReq c i f).halves = c.halves := rfl
@[simp] theorem onReq_cmds (i : Nat) (f : Req → Req) : (onReq c i f).cmds = c.cmds := rfl
@[simp] theorem onReq_beacon (i : Nat) (f : Req → Req) : (onReq c i f).beacon = c.beacon := rfl
@[simp] theorem onReq_ports (i : Nat) (f : Req → Req) : (onReq c i f).ports = c.ports := rfl
@[simp] theorem onReq_egress (i : Nat) (f : Req → Req) : (onReq c i f).egress = c.egress := rfl
@[simp] theorem onReq_jobs (i : Nat) (f : Req → Req) : (onReq c i f).jobs = c.jobs := rfl
@[simp] theorem onReq_jobGens (i : Nat) (f : Req → Req) : (onReq c i f).jobGens = c.jobGens := rfl
@[simp] theorem onReq_reqs (i : Nat) (f : Req → Req) : (onReq c i f).reqs = tupd Req.free c.reqs i f := rfl
@[simp] theorem onReq_sides (i : Nat) (f : Req → Req) : (onReq c i f).sides = c.sides := rfl
@[simp] theorem onReq_ctxs (i : Nat) (f : Req → Req) : (onReq c i f).ctxs = c.ctxs := rfl
@[simp] theorem onReq_buoys (i : Nat) (f : Req → Req) : (onReq c i f).buoys = c.buoys := rfl
@[simp] theorem onReq_bars (i : Nat) (f : Req → Req) : (onReq c i f).bars = c.bars := rfl
@[simp] theorem onReq_buoyq (i : Nat) (f : Req → Req) : (onReq c i f).buoyq = c.buoyq := rfl
@[simp] theorem onReq_slots (i : Nat) (f : Req → Req) : (onReq c i f).slots = c.slots := rfl
@[simp] theorem onReq_cores (i : Nat) (f : Req → Req) : (onReq c i f).cores = c.cores := rfl
@[simp] theorem onReq_safe (i : Nat) (f : Req → Req) : (onReq c i f).safe = c.safe := rfl
@[simp] theorem onReq_mgmt (i : Nat) (f : Req → Req) : (onReq c i f).mgmt = c.mgmt := rfl
@[simp] theorem onReq_lamps (i : Nat) (f : Req → Req) : (onReq c i f).lamps = c.lamps := rfl
@[simp] theorem onReq_maxCap (i : Nat) (f : Req → Req) : (onReq c i f).maxCap = c.maxCap := rfl
@[simp] theorem onReq_out (i : Nat) (f : Req → Req) : (onReq c i f).out = c.out := rfl
@[simp] theorem onReq_writes (i : Nat) (f : Req → Req) : (onReq c i f).writes = c.writes := rfl
@[simp] theorem onReq_clears (i : Nat) (f : Req → Req) : (onReq c i f).clears = c.clears := rfl
@[simp] theorem onReq_raised (i : Nat) (f : Req → Req) : (onReq c i f).raised = c.raised := rfl

/-! onSide -/
@[simp] theorem onSide_now (i : Nat) (f : ReqSide → ReqSide) : (onSide c i f).now = c.now := rfl
@[simp] theorem onSide_free (i : Nat) (f : ReqSide → ReqSide) : (onSide c i f).free = c.free := rfl
@[simp] theorem onSide_boot (i : Nat) (f : ReqSide → ReqSide) : (onSide c i f).boot = c.boot := rfl
@[simp] theorem onSide_parts (i : Nat) (f : ReqSide → ReqSide) : (onSide c i f).parts = c.parts := rfl
@[simp] theorem onSide_aper (i : Nat) (f : ReqSide → ReqSide) : (onSide c i f).aper = c.aper := rfl
@[simp] theorem onSide_rings (i : Nat) (f : ReqSide → ReqSide) : (onSide c i f).rings = c.rings := rfl
@[simp] theorem onSide_halves (i : Nat) (f : ReqSide → ReqSide) : (onSide c i f).halves = c.halves := rfl
@[simp] theorem onSide_cmds (i : Nat) (f : ReqSide → ReqSide) : (onSide c i f).cmds = c.cmds := rfl
@[simp] theorem onSide_beacon (i : Nat) (f : ReqSide → ReqSide) : (onSide c i f).beacon = c.beacon := rfl
@[simp] theorem onSide_ports (i : Nat) (f : ReqSide → ReqSide) : (onSide c i f).ports = c.ports := rfl
@[simp] theorem onSide_egress (i : Nat) (f : ReqSide → ReqSide) : (onSide c i f).egress = c.egress := rfl
@[simp] theorem onSide_jobs (i : Nat) (f : ReqSide → ReqSide) : (onSide c i f).jobs = c.jobs := rfl
@[simp] theorem onSide_jobGens (i : Nat) (f : ReqSide → ReqSide) : (onSide c i f).jobGens = c.jobGens := rfl
@[simp] theorem onSide_reqs (i : Nat) (f : ReqSide → ReqSide) : (onSide c i f).reqs = c.reqs := rfl
@[simp] theorem onSide_sides (i : Nat) (f : ReqSide → ReqSide) : (onSide c i f).sides = tupd ReqSide.none c.sides i f := rfl
@[simp] theorem onSide_ctxs (i : Nat) (f : ReqSide → ReqSide) : (onSide c i f).ctxs = c.ctxs := rfl
@[simp] theorem onSide_buoys (i : Nat) (f : ReqSide → ReqSide) : (onSide c i f).buoys = c.buoys := rfl
@[simp] theorem onSide_bars (i : Nat) (f : ReqSide → ReqSide) : (onSide c i f).bars = c.bars := rfl
@[simp] theorem onSide_buoyq (i : Nat) (f : ReqSide → ReqSide) : (onSide c i f).buoyq = c.buoyq := rfl
@[simp] theorem onSide_slots (i : Nat) (f : ReqSide → ReqSide) : (onSide c i f).slots = c.slots := rfl
@[simp] theorem onSide_cores (i : Nat) (f : ReqSide → ReqSide) : (onSide c i f).cores = c.cores := rfl
@[simp] theorem onSide_safe (i : Nat) (f : ReqSide → ReqSide) : (onSide c i f).safe = c.safe := rfl
@[simp] theorem onSide_mgmt (i : Nat) (f : ReqSide → ReqSide) : (onSide c i f).mgmt = c.mgmt := rfl
@[simp] theorem onSide_lamps (i : Nat) (f : ReqSide → ReqSide) : (onSide c i f).lamps = c.lamps := rfl
@[simp] theorem onSide_maxCap (i : Nat) (f : ReqSide → ReqSide) : (onSide c i f).maxCap = c.maxCap := rfl
@[simp] theorem onSide_out (i : Nat) (f : ReqSide → ReqSide) : (onSide c i f).out = c.out := rfl
@[simp] theorem onSide_writes (i : Nat) (f : ReqSide → ReqSide) : (onSide c i f).writes = c.writes := rfl
@[simp] theorem onSide_clears (i : Nat) (f : ReqSide → ReqSide) : (onSide c i f).clears = c.clears := rfl
@[simp] theorem onSide_raised (i : Nat) (f : ReqSide → ReqSide) : (onSide c i f).raised = c.raised := rfl

/-! onLamp -/
@[simp] theorem onLamp_now (i : Nat) (f : LampSt → LampSt) : (onLamp c i f).now = c.now := rfl
@[simp] theorem onLamp_free (i : Nat) (f : LampSt → LampSt) : (onLamp c i f).free = c.free := rfl
@[simp] theorem onLamp_boot (i : Nat) (f : LampSt → LampSt) : (onLamp c i f).boot = c.boot := rfl
@[simp] theorem onLamp_parts (i : Nat) (f : LampSt → LampSt) : (onLamp c i f).parts = c.parts := rfl
@[simp] theorem onLamp_aper (i : Nat) (f : LampSt → LampSt) : (onLamp c i f).aper = c.aper := rfl
@[simp] theorem onLamp_rings (i : Nat) (f : LampSt → LampSt) : (onLamp c i f).rings = c.rings := rfl
@[simp] theorem onLamp_halves (i : Nat) (f : LampSt → LampSt) : (onLamp c i f).halves = c.halves := rfl
@[simp] theorem onLamp_cmds (i : Nat) (f : LampSt → LampSt) : (onLamp c i f).cmds = c.cmds := rfl
@[simp] theorem onLamp_beacon (i : Nat) (f : LampSt → LampSt) : (onLamp c i f).beacon = c.beacon := rfl
@[simp] theorem onLamp_ports (i : Nat) (f : LampSt → LampSt) : (onLamp c i f).ports = c.ports := rfl
@[simp] theorem onLamp_egress (i : Nat) (f : LampSt → LampSt) : (onLamp c i f).egress = c.egress := rfl
@[simp] theorem onLamp_jobs (i : Nat) (f : LampSt → LampSt) : (onLamp c i f).jobs = c.jobs := rfl
@[simp] theorem onLamp_jobGens (i : Nat) (f : LampSt → LampSt) : (onLamp c i f).jobGens = c.jobGens := rfl
@[simp] theorem onLamp_reqs (i : Nat) (f : LampSt → LampSt) : (onLamp c i f).reqs = c.reqs := rfl
@[simp] theorem onLamp_sides (i : Nat) (f : LampSt → LampSt) : (onLamp c i f).sides = c.sides := rfl
@[simp] theorem onLamp_ctxs (i : Nat) (f : LampSt → LampSt) : (onLamp c i f).ctxs = c.ctxs := rfl
@[simp] theorem onLamp_buoys (i : Nat) (f : LampSt → LampSt) : (onLamp c i f).buoys = c.buoys := rfl
@[simp] theorem onLamp_bars (i : Nat) (f : LampSt → LampSt) : (onLamp c i f).bars = c.bars := rfl
@[simp] theorem onLamp_buoyq (i : Nat) (f : LampSt → LampSt) : (onLamp c i f).buoyq = c.buoyq := rfl
@[simp] theorem onLamp_slots (i : Nat) (f : LampSt → LampSt) : (onLamp c i f).slots = c.slots := rfl
@[simp] theorem onLamp_cores (i : Nat) (f : LampSt → LampSt) : (onLamp c i f).cores = c.cores := rfl
@[simp] theorem onLamp_safe (i : Nat) (f : LampSt → LampSt) : (onLamp c i f).safe = c.safe := rfl
@[simp] theorem onLamp_mgmt (i : Nat) (f : LampSt → LampSt) : (onLamp c i f).mgmt = c.mgmt := rfl
@[simp] theorem onLamp_lamps (i : Nat) (f : LampSt → LampSt) : (onLamp c i f).lamps = tupd LampSt.reset c.lamps i f := rfl
@[simp] theorem onLamp_maxCap (i : Nat) (f : LampSt → LampSt) : (onLamp c i f).maxCap = c.maxCap := rfl
@[simp] theorem onLamp_out (i : Nat) (f : LampSt → LampSt) : (onLamp c i f).out = c.out := rfl
@[simp] theorem onLamp_writes (i : Nat) (f : LampSt → LampSt) : (onLamp c i f).writes = c.writes := rfl
@[simp] theorem onLamp_clears (i : Nat) (f : LampSt → LampSt) : (onLamp c i f).clears = c.clears := rfl
@[simp] theorem onLamp_raised (i : Nat) (f : LampSt → LampSt) : (onLamp c i f).raised = c.raised := rfl

/-! onCtx -/
@[simp] theorem onCtx_now (i : Nat) (f : Ctx → Ctx) : (onCtx c i f).now = c.now := rfl
@[simp] theorem onCtx_free (i : Nat) (f : Ctx → Ctx) : (onCtx c i f).free = c.free := rfl
@[simp] theorem onCtx_boot (i : Nat) (f : Ctx → Ctx) : (onCtx c i f).boot = c.boot := rfl
@[simp] theorem onCtx_parts (i : Nat) (f : Ctx → Ctx) : (onCtx c i f).parts = c.parts := rfl
@[simp] theorem onCtx_aper (i : Nat) (f : Ctx → Ctx) : (onCtx c i f).aper = c.aper := rfl
@[simp] theorem onCtx_rings (i : Nat) (f : Ctx → Ctx) : (onCtx c i f).rings = c.rings := rfl
@[simp] theorem onCtx_halves (i : Nat) (f : Ctx → Ctx) : (onCtx c i f).halves = c.halves := rfl
@[simp] theorem onCtx_cmds (i : Nat) (f : Ctx → Ctx) : (onCtx c i f).cmds = c.cmds := rfl
@[simp] theorem onCtx_beacon (i : Nat) (f : Ctx → Ctx) : (onCtx c i f).beacon = c.beacon := rfl
@[simp] theorem onCtx_ports (i : Nat) (f : Ctx → Ctx) : (onCtx c i f).ports = c.ports := rfl
@[simp] theorem onCtx_egress (i : Nat) (f : Ctx → Ctx) : (onCtx c i f).egress = c.egress := rfl
@[simp] theorem onCtx_jobs (i : Nat) (f : Ctx → Ctx) : (onCtx c i f).jobs = c.jobs := rfl
@[simp] theorem onCtx_jobGens (i : Nat) (f : Ctx → Ctx) : (onCtx c i f).jobGens = c.jobGens := rfl
@[simp] theorem onCtx_reqs (i : Nat) (f : Ctx → Ctx) : (onCtx c i f).reqs = c.reqs := rfl
@[simp] theorem onCtx_sides (i : Nat) (f : Ctx → Ctx) : (onCtx c i f).sides = c.sides := rfl
@[simp] theorem onCtx_ctxs (i : Nat) (f : Ctx → Ctx) : (onCtx c i f).ctxs = tupd Ctx.free c.ctxs i f := rfl
@[simp] theorem onCtx_buoys (i : Nat) (f : Ctx → Ctx) : (onCtx c i f).buoys = c.buoys := rfl
@[simp] theorem onCtx_bars (i : Nat) (f : Ctx → Ctx) : (onCtx c i f).bars = c.bars := rfl
@[simp] theorem onCtx_buoyq (i : Nat) (f : Ctx → Ctx) : (onCtx c i f).buoyq = c.buoyq := rfl
@[simp] theorem onCtx_slots (i : Nat) (f : Ctx → Ctx) : (onCtx c i f).slots = c.slots := rfl
@[simp] theorem onCtx_cores (i : Nat) (f : Ctx → Ctx) : (onCtx c i f).cores = c.cores := rfl
@[simp] theorem onCtx_safe (i : Nat) (f : Ctx → Ctx) : (onCtx c i f).safe = c.safe := rfl
@[simp] theorem onCtx_mgmt (i : Nat) (f : Ctx → Ctx) : (onCtx c i f).mgmt = c.mgmt := rfl
@[simp] theorem onCtx_lamps (i : Nat) (f : Ctx → Ctx) : (onCtx c i f).lamps = c.lamps := rfl
@[simp] theorem onCtx_maxCap (i : Nat) (f : Ctx → Ctx) : (onCtx c i f).maxCap = c.maxCap := rfl
@[simp] theorem onCtx_out (i : Nat) (f : Ctx → Ctx) : (onCtx c i f).out = c.out := rfl
@[simp] theorem onCtx_writes (i : Nat) (f : Ctx → Ctx) : (onCtx c i f).writes = c.writes := rfl
@[simp] theorem onCtx_clears (i : Nat) (f : Ctx → Ctx) : (onCtx c i f).clears = c.clears := rfl
@[simp] theorem onCtx_raised (i : Nat) (f : Ctx → Ctx) : (onCtx c i f).raised = c.raised := rfl

/-! countUnmapped -/
@[simp] theorem countUnmapped_now : (countUnmapped c).now = c.now := rfl
@[simp] theorem countUnmapped_free : (countUnmapped c).free = c.free := rfl
@[simp] theorem countUnmapped_boot : (countUnmapped c).boot = c.boot := rfl
@[simp] theorem countUnmapped_parts : (countUnmapped c).parts = c.parts := rfl
@[simp] theorem countUnmapped_aper : (countUnmapped c).aper = c.aper := rfl
@[simp] theorem countUnmapped_rings : (countUnmapped c).rings = c.rings := rfl
@[simp] theorem countUnmapped_halves : (countUnmapped c).halves = c.halves := rfl
@[simp] theorem countUnmapped_cmds : (countUnmapped c).cmds = c.cmds := rfl
@[simp] theorem countUnmapped_beacon : (countUnmapped c).beacon = c.beacon := rfl
@[simp] theorem countUnmapped_ports : (countUnmapped c).ports = c.ports := rfl
@[simp] theorem countUnmapped_egress : (countUnmapped c).egress = c.egress := rfl
@[simp] theorem countUnmapped_jobs : (countUnmapped c).jobs = c.jobs := rfl
@[simp] theorem countUnmapped_jobGens : (countUnmapped c).jobGens = c.jobGens := rfl
@[simp] theorem countUnmapped_reqs : (countUnmapped c).reqs = c.reqs := rfl
@[simp] theorem countUnmapped_sides : (countUnmapped c).sides = c.sides := rfl
@[simp] theorem countUnmapped_ctxs : (countUnmapped c).ctxs = c.ctxs := rfl
@[simp] theorem countUnmapped_buoys : (countUnmapped c).buoys = c.buoys := rfl
@[simp] theorem countUnmapped_bars : (countUnmapped c).bars = c.bars := rfl
@[simp] theorem countUnmapped_buoyq : (countUnmapped c).buoyq = c.buoyq := rfl
@[simp] theorem countUnmapped_slots : (countUnmapped c).slots = c.slots := rfl
@[simp] theorem countUnmapped_cores : (countUnmapped c).cores = c.cores := rfl
@[simp] theorem countUnmapped_safe : (countUnmapped c).safe = { c.safe with unmapped := satAdd 32 c.safe.unmapped 1 } := rfl
@[simp] theorem countUnmapped_mgmt : (countUnmapped c).mgmt = c.mgmt := rfl
@[simp] theorem countUnmapped_lamps : (countUnmapped c).lamps = c.lamps := rfl
@[simp] theorem countUnmapped_maxCap : (countUnmapped c).maxCap = c.maxCap := rfl
@[simp] theorem countUnmapped_out : (countUnmapped c).out = c.out := rfl
@[simp] theorem countUnmapped_writes : (countUnmapped c).writes = c.writes := rfl
@[simp] theorem countUnmapped_clears : (countUnmapped c).clears = c.clears := rfl
@[simp] theorem countUnmapped_raised : (countUnmapped c).raised = c.raised := rfl

/-! countDenied -/
@[simp] theorem countDenied_now : (countDenied c).now = c.now := rfl
@[simp] theorem countDenied_free : (countDenied c).free = c.free := rfl
@[simp] theorem countDenied_boot : (countDenied c).boot = c.boot := rfl
@[simp] theorem countDenied_parts : (countDenied c).parts = c.parts := rfl
@[simp] theorem countDenied_aper : (countDenied c).aper = c.aper := rfl
@[simp] theorem countDenied_rings : (countDenied c).rings = c.rings := rfl
@[simp] theorem countDenied_halves : (countDenied c).halves = c.halves := rfl
@[simp] theorem countDenied_cmds : (countDenied c).cmds = c.cmds := rfl
@[simp] theorem countDenied_beacon : (countDenied c).beacon = c.beacon := rfl
@[simp] theorem countDenied_ports : (countDenied c).ports = c.ports := rfl
@[simp] theorem countDenied_egress : (countDenied c).egress = c.egress := rfl
@[simp] theorem countDenied_jobs : (countDenied c).jobs = c.jobs := rfl
@[simp] theorem countDenied_jobGens : (countDenied c).jobGens = c.jobGens := rfl
@[simp] theorem countDenied_reqs : (countDenied c).reqs = c.reqs := rfl
@[simp] theorem countDenied_sides : (countDenied c).sides = c.sides := rfl
@[simp] theorem countDenied_ctxs : (countDenied c).ctxs = c.ctxs := rfl
@[simp] theorem countDenied_buoys : (countDenied c).buoys = c.buoys := rfl
@[simp] theorem countDenied_bars : (countDenied c).bars = c.bars := rfl
@[simp] theorem countDenied_buoyq : (countDenied c).buoyq = c.buoyq := rfl
@[simp] theorem countDenied_slots : (countDenied c).slots = c.slots := rfl
@[simp] theorem countDenied_cores : (countDenied c).cores = c.cores := rfl
@[simp] theorem countDenied_safe : (countDenied c).safe = { c.safe with denied := satAdd 32 c.safe.denied 1 } := rfl
@[simp] theorem countDenied_mgmt : (countDenied c).mgmt = c.mgmt := rfl
@[simp] theorem countDenied_lamps : (countDenied c).lamps = c.lamps := rfl
@[simp] theorem countDenied_maxCap : (countDenied c).maxCap = c.maxCap := rfl
@[simp] theorem countDenied_out : (countDenied c).out = c.out := rfl
@[simp] theorem countDenied_writes : (countDenied c).writes = c.writes := rfl
@[simp] theorem countDenied_clears : (countDenied c).clears = c.clears := rfl
@[simp] theorem countDenied_raised : (countDenied c).raised = c.raised := rfl

/-! updCmd -/
@[simp] theorem updCmd_now (id : CmdId) (f : Cmd → Cmd) : (updCmd c id f).now = c.now := rfl
@[simp] theorem updCmd_free (id : CmdId) (f : Cmd → Cmd) : (updCmd c id f).free = c.free := rfl
@[simp] theorem updCmd_boot (id : CmdId) (f : Cmd → Cmd) : (updCmd c id f).boot = c.boot := rfl
@[simp] theorem updCmd_parts (id : CmdId) (f : Cmd → Cmd) : (updCmd c id f).parts = c.parts := rfl
@[simp] theorem updCmd_aper (id : CmdId) (f : Cmd → Cmd) : (updCmd c id f).aper = c.aper := rfl
@[simp] theorem updCmd_rings (id : CmdId) (f : Cmd → Cmd) : (updCmd c id f).rings = c.rings := rfl
@[simp] theorem updCmd_halves (id : CmdId) (f : Cmd → Cmd) : (updCmd c id f).halves = c.halves := rfl
@[simp] theorem updCmd_cmds (id : CmdId) (f : Cmd → Cmd) : (updCmd c id f).cmds = c.cmds.map (fun x => if x.id = id then f x else x) := rfl
@[simp] theorem updCmd_beacon (id : CmdId) (f : Cmd → Cmd) : (updCmd c id f).beacon = c.beacon := rfl
@[simp] theorem updCmd_ports (id : CmdId) (f : Cmd → Cmd) : (updCmd c id f).ports = c.ports := rfl
@[simp] theorem updCmd_egress (id : CmdId) (f : Cmd → Cmd) : (updCmd c id f).egress = c.egress := rfl
@[simp] theorem updCmd_jobs (id : CmdId) (f : Cmd → Cmd) : (updCmd c id f).jobs = c.jobs := rfl
@[simp] theorem updCmd_jobGens (id : CmdId) (f : Cmd → Cmd) : (updCmd c id f).jobGens = c.jobGens := rfl
@[simp] theorem updCmd_reqs (id : CmdId) (f : Cmd → Cmd) : (updCmd c id f).reqs = c.reqs := rfl
@[simp] theorem updCmd_sides (id : CmdId) (f : Cmd → Cmd) : (updCmd c id f).sides = c.sides := rfl
@[simp] theorem updCmd_ctxs (id : CmdId) (f : Cmd → Cmd) : (updCmd c id f).ctxs = c.ctxs := rfl
@[simp] theorem updCmd_buoys (id : CmdId) (f : Cmd → Cmd) : (updCmd c id f).buoys = c.buoys := rfl
@[simp] theorem updCmd_bars (id : CmdId) (f : Cmd → Cmd) : (updCmd c id f).bars = c.bars := rfl
@[simp] theorem updCmd_buoyq (id : CmdId) (f : Cmd → Cmd) : (updCmd c id f).buoyq = c.buoyq := rfl
@[simp] theorem updCmd_slots (id : CmdId) (f : Cmd → Cmd) : (updCmd c id f).slots = c.slots := rfl
@[simp] theorem updCmd_cores (id : CmdId) (f : Cmd → Cmd) : (updCmd c id f).cores = c.cores := rfl
@[simp] theorem updCmd_safe (id : CmdId) (f : Cmd → Cmd) : (updCmd c id f).safe = c.safe := rfl
@[simp] theorem updCmd_mgmt (id : CmdId) (f : Cmd → Cmd) : (updCmd c id f).mgmt = c.mgmt := rfl
@[simp] theorem updCmd_lamps (id : CmdId) (f : Cmd → Cmd) : (updCmd c id f).lamps = c.lamps := rfl
@[simp] theorem updCmd_maxCap (id : CmdId) (f : Cmd → Cmd) : (updCmd c id f).maxCap = c.maxCap := rfl
@[simp] theorem updCmd_out (id : CmdId) (f : Cmd → Cmd) : (updCmd c id f).out = c.out := rfl
@[simp] theorem updCmd_writes (id : CmdId) (f : Cmd → Cmd) : (updCmd c id f).writes = c.writes := rfl
@[simp] theorem updCmd_clears (id : CmdId) (f : Cmd → Cmd) : (updCmd c id f).clears = c.clears := rfl
@[simp] theorem updCmd_raised (id : CmdId) (f : Cmd → Cmd) : (updCmd c id f).raised = c.raised := rfl

/-! wr -/
@[simp] theorem wr_now (a : Nat) (bs : List Byte) : (wr c a bs).now = c.now := by unfold wr; split <;> rfl
@[simp] theorem wr_free (a : Nat) (bs : List Byte) : (wr c a bs).free = c.free := by unfold wr; split <;> rfl
@[simp] theorem wr_boot (a : Nat) (bs : List Byte) : (wr c a bs).boot = c.boot := by unfold wr; split <;> rfl
@[simp] theorem wr_parts (a : Nat) (bs : List Byte) : (wr c a bs).parts = c.parts := by unfold wr; split <;> rfl
@[simp] theorem wr_aper (a : Nat) (bs : List Byte) : (wr c a bs).aper = c.aper := by unfold wr; split <;> rfl
@[simp] theorem wr_rings (a : Nat) (bs : List Byte) : (wr c a bs).rings = c.rings := by unfold wr; split <;> rfl
@[simp] theorem wr_halves (a : Nat) (bs : List Byte) : (wr c a bs).halves = c.halves := by unfold wr; split <;> rfl
@[simp] theorem wr_cmds (a : Nat) (bs : List Byte) : (wr c a bs).cmds = c.cmds := by unfold wr; split <;> rfl
@[simp] theorem wr_beacon (a : Nat) (bs : List Byte) : (wr c a bs).beacon = c.beacon := by unfold wr; split <;> rfl
@[simp] theorem wr_ports (a : Nat) (bs : List Byte) : (wr c a bs).ports = c.ports := by unfold wr; split <;> rfl
@[simp] theorem wr_egress (a : Nat) (bs : List Byte) : (wr c a bs).egress = c.egress := by unfold wr; split <;> rfl
@[simp] theorem wr_jobs (a : Nat) (bs : List Byte) : (wr c a bs).jobs = c.jobs := by unfold wr; split <;> rfl
@[simp] theorem wr_jobGens (a : Nat) (bs : List Byte) : (wr c a bs).jobGens = c.jobGens := by unfold wr; split <;> rfl
@[simp] theorem wr_reqs (a : Nat) (bs : List Byte) : (wr c a bs).reqs = c.reqs := by unfold wr; split <;> rfl
@[simp] theorem wr_sides (a : Nat) (bs : List Byte) : (wr c a bs).sides = c.sides := by unfold wr; split <;> rfl
@[simp] theorem wr_ctxs (a : Nat) (bs : List Byte) : (wr c a bs).ctxs = c.ctxs := by unfold wr; split <;> rfl
@[simp] theorem wr_buoys (a : Nat) (bs : List Byte) : (wr c a bs).buoys = c.buoys := by unfold wr; split <;> rfl
@[simp] theorem wr_bars (a : Nat) (bs : List Byte) : (wr c a bs).bars = c.bars := by unfold wr; split <;> rfl
@[simp] theorem wr_buoyq (a : Nat) (bs : List Byte) : (wr c a bs).buoyq = c.buoyq := by unfold wr; split <;> rfl
@[simp] theorem wr_slots (a : Nat) (bs : List Byte) : (wr c a bs).slots = c.slots := by unfold wr; split <;> rfl
@[simp] theorem wr_cores (a : Nat) (bs : List Byte) : (wr c a bs).cores = c.cores := by unfold wr; split <;> rfl
@[simp] theorem wr_mgmt (a : Nat) (bs : List Byte) : (wr c a bs).mgmt = c.mgmt := by unfold wr; split <;> rfl
@[simp] theorem wr_lamps (a : Nat) (bs : List Byte) : (wr c a bs).lamps = c.lamps := by unfold wr; split <;> rfl
@[simp] theorem wr_maxCap (a : Nat) (bs : List Byte) : (wr c a bs).maxCap = c.maxCap := by unfold wr; split <;> rfl
@[simp] theorem wr_out (a : Nat) (bs : List Byte) : (wr c a bs).out = c.out := by unfold wr; split <;> rfl
@[simp] theorem wr_clears (a : Nat) (bs : List Byte) : (wr c a bs).clears = c.clears := by unfold wr; split <;> rfl
@[simp] theorem wr_raised (a : Nat) (bs : List Byte) : (wr c a bs).raised = c.raised := by unfold wr; split <;> rfl

/-! clearRange -/
@[simp] theorem clearRange_now (lo len : Nat) : (clearRange c lo len).now = c.now := by unfold clearRange; split <;> rfl
@[simp] theorem clearRange_free (lo len : Nat) : (clearRange c lo len).free = c.free := by unfold clearRange; split <;> rfl
@[simp] theorem clearRange_boot (lo len : Nat) : (clearRange c lo len).boot = c.boot := by unfold clearRange; split <;> rfl
@[simp] theorem clearRange_parts (lo len : Nat) : (clearRange c lo len).parts = c.parts := by unfold clearRange; split <;> rfl
@[simp] theorem clearRange_aper (lo len : Nat) : (clearRange c lo len).aper = c.aper := by unfold clearRange; split <;> rfl
@[simp] theorem clearRange_rings (lo len : Nat) : (clearRange c lo len).rings = c.rings := by unfold clearRange; split <;> rfl
@[simp] theorem clearRange_halves (lo len : Nat) : (clearRange c lo len).halves = c.halves := by unfold clearRange; split <;> rfl
@[simp] theorem clearRange_cmds (lo len : Nat) : (clearRange c lo len).cmds = c.cmds := by unfold clearRange; split <;> rfl
@[simp] theorem clearRange_beacon (lo len : Nat) : (clearRange c lo len).beacon = c.beacon := by unfold clearRange; split <;> rfl
@[simp] theorem clearRange_ports (lo len : Nat) : (clearRange c lo len).ports = c.ports := by unfold clearRange; split <;> rfl
@[simp] theorem clearRange_egress (lo len : Nat) : (clearRange c lo len).egress = c.egress := by unfold clearRange; split <;> rfl
@[simp] theorem clearRange_jobs (lo len : Nat) : (clearRange c lo len).jobs = c.jobs := by unfold clearRange; split <;> rfl
@[simp] theorem clearRange_jobGens (lo len : Nat) : (clearRange c lo len).jobGens = c.jobGens := by unfold clearRange; split <;> rfl
@[simp] theorem clearRange_reqs (lo len : Nat) : (clearRange c lo len).reqs = c.reqs := by unfold clearRange; split <;> rfl
@[simp] theorem clearRange_sides (lo len : Nat) : (clearRange c lo len).sides = c.sides := by unfold clearRange; split <;> rfl
@[simp] theorem clearRange_ctxs (lo len : Nat) : (clearRange c lo len).ctxs = c.ctxs := by unfold clearRange; split <;> rfl
@[simp] theorem clearRange_buoys (lo len : Nat) : (clearRange c lo len).buoys = c.buoys := by unfold clearRange; split <;> rfl
@[simp] theorem clearRange_bars (lo len : Nat) : (clearRange c lo len).bars = c.bars := by unfold clearRange; split <;> rfl
@[simp] theorem clearRange_buoyq (lo len : Nat) : (clearRange c lo len).buoyq = c.buoyq := by unfold clearRange; split <;> rfl
@[simp] theorem clearRange_slots (lo len : Nat) : (clearRange c lo len).slots = c.slots := by unfold clearRange; split <;> rfl
@[simp] theorem clearRange_cores (lo len : Nat) : (clearRange c lo len).cores = c.cores := by unfold clearRange; split <;> rfl
@[simp] theorem clearRange_mgmt (lo len : Nat) : (clearRange c lo len).mgmt = c.mgmt := by unfold clearRange; split <;> rfl
@[simp] theorem clearRange_lamps (lo len : Nat) : (clearRange c lo len).lamps = c.lamps := by unfold clearRange; split <;> rfl
@[simp] theorem clearRange_maxCap (lo len : Nat) : (clearRange c lo len).maxCap = c.maxCap := by unfold clearRange; split <;> rfl
@[simp] theorem clearRange_out (lo len : Nat) : (clearRange c lo len).out = c.out := by unfold clearRange; split <;> rfl
@[simp] theorem clearRange_writes (lo len : Nat) : (clearRange c lo len).writes = c.writes := by unfold clearRange; split <;> rfl
@[simp] theorem clearRange_raised (lo len : Nat) : (clearRange c lo len).raised = c.raised := by unfold clearRange; split <;> rfl

/-! onJob -/
@[simp] theorem onJob_now (t : Nat) (f : Job → Job) : (onJob c t f).now = c.now := by unfold onJob; split <;> rfl
@[simp] theorem onJob_free (t : Nat) (f : Job → Job) : (onJob c t f).free = c.free := by unfold onJob; split <;> rfl
@[simp] theorem onJob_boot (t : Nat) (f : Job → Job) : (onJob c t f).boot = c.boot := by unfold onJob; split <;> rfl
@[simp] theorem onJob_parts (t : Nat) (f : Job → Job) : (onJob c t f).parts = c.parts := by unfold onJob; split <;> rfl
@[simp] theorem onJob_aper (t : Nat) (f : Job → Job) : (onJob c t f).aper = c.aper := by unfold onJob; split <;> rfl
@[simp] theorem onJob_rings (t : Nat) (f : Job → Job) : (onJob c t f).rings = c.rings := by unfold onJob; split <;> rfl
@[simp] theorem onJob_halves (t : Nat) (f : Job → Job) : (onJob c t f).halves = c.halves := by unfold onJob; split <;> rfl
@[simp] theorem onJob_cmds (t : Nat) (f : Job → Job) : (onJob c t f).cmds = c.cmds := by unfold onJob; split <;> rfl
@[simp] theorem onJob_beacon (t : Nat) (f : Job → Job) : (onJob c t f).beacon = c.beacon := by unfold onJob; split <;> rfl
@[simp] theorem onJob_ports (t : Nat) (f : Job → Job) : (onJob c t f).ports = c.ports := by unfold onJob; split <;> rfl
@[simp] theorem onJob_egress (t : Nat) (f : Job → Job) : (onJob c t f).egress = c.egress := by unfold onJob; split <;> rfl
@[simp] theorem onJob_jobGens (t : Nat) (f : Job → Job) : (onJob c t f).jobGens = c.jobGens := by unfold onJob; split <;> rfl
@[simp] theorem onJob_reqs (t : Nat) (f : Job → Job) : (onJob c t f).reqs = c.reqs := by unfold onJob; split <;> rfl
@[simp] theorem onJob_sides (t : Nat) (f : Job → Job) : (onJob c t f).sides = c.sides := by unfold onJob; split <;> rfl
@[simp] theorem onJob_ctxs (t : Nat) (f : Job → Job) : (onJob c t f).ctxs = c.ctxs := by unfold onJob; split <;> rfl
@[simp] theorem onJob_buoys (t : Nat) (f : Job → Job) : (onJob c t f).buoys = c.buoys := by unfold onJob; split <;> rfl
@[simp] theorem onJob_bars (t : Nat) (f : Job → Job) : (onJob c t f).bars = c.bars := by unfold onJob; split <;> rfl
@[simp] theorem onJob_buoyq (t : Nat) (f : Job → Job) : (onJob c t f).buoyq = c.buoyq := by unfold onJob; split <;> rfl
@[simp] theorem onJob_slots (t : Nat) (f : Job → Job) : (onJob c t f).slots = c.slots := by unfold onJob; split <;> rfl
@[simp] theorem onJob_cores (t : Nat) (f : Job → Job) : (onJob c t f).cores = c.cores := by unfold onJob; split <;> rfl
@[simp] theorem onJob_safe (t : Nat) (f : Job → Job) : (onJob c t f).safe = c.safe := by unfold onJob; split <;> rfl
@[simp] theorem onJob_mgmt (t : Nat) (f : Job → Job) : (onJob c t f).mgmt = c.mgmt := by unfold onJob; split <;> rfl
@[simp] theorem onJob_lamps (t : Nat) (f : Job → Job) : (onJob c t f).lamps = c.lamps := by unfold onJob; split <;> rfl
@[simp] theorem onJob_maxCap (t : Nat) (f : Job → Job) : (onJob c t f).maxCap = c.maxCap := by unfold onJob; split <;> rfl
@[simp] theorem onJob_out (t : Nat) (f : Job → Job) : (onJob c t f).out = c.out := by unfold onJob; split <;> rfl
@[simp] theorem onJob_writes (t : Nat) (f : Job → Job) : (onJob c t f).writes = c.writes := by unfold onJob; split <;> rfl
@[simp] theorem onJob_clears (t : Nat) (f : Job → Job) : (onJob c t f).clears = c.clears := by unfold onJob; split <;> rfl
@[simp] theorem onJob_raised (t : Nat) (f : Job → Job) : (onJob c t f).raised = c.raised := by unfold onJob; split <;> rfl

end Sys2Proof.Machine
end

