-- ==== Sys2Proof/Laws/Lift.lean ====
section
/-! SUPPORT. What a meaning made by `lift` can do: it always answers a next state, with the fuses and the queue as they were. -/

namespace Sys2Proof.Machine

/-- Everything that a lifted meaning does. -/
theorem lift_eq (f : Env → Chip → Chip) (s : State) : lift f s = .next (s.after (f s.env s.chip)) := rfl

/-- A chip with no fault in hand is settled. -/
theorem settleFaults_none (e : Env) (c : Chip) (h : c.raised = []) : settleFaults e c = c := by
  cases c; simp only at h; subst h; rfl

/-- With no fault, no clear and no write in hand, only the chip changes. -/
theorem State.after_put (s : State) (c : Chip) (hw : c.writes = []) (hc : c.clears = []) (hr : c.raised = []) : s.after c = s.put c := by
  unfold State.after State.put
  rw [settleFaults_none _ _ hr]
  cases c; simp only at hw hc hr; subst hw hc hr; rfl

/-- With no fault in hand, the writes and clears reach memory. -/
theorem State.after_mem_of_unraised (s : State) (c : Chip) (hr : c.raised = []) : (s.after c).mem = memAfter s.mem c := by
  rw [State.after_mem, settleFaults_none _ _ hr]

theorem State.after_chip_of_unraised (s : State) (c : Chip) (hr : c.raised = []) : (s.after c).chip = c.rest := by
  rw [State.after_chip, settleFaults_none _ _ hr]

/-- A meaning that leaves a quiet chip in hand. -/
theorem lift_put (f : Env → Chip → Chip) (s : State) (hw : (f s.env s.chip).writes = []) (hc : (f s.env s.chip).clears = [])
    (hr : (f s.env s.chip).raised = []) : lift f s = .next (s.put (f s.env s.chip)) := by
  rw [lift_eq, State.after_put s _ hw hc hr]

/-- A meaning whose condition does not hold leaves a quiet state as it was. -/
theorem lift_same (f : Env → Chip → Chip) (s : State) (h : f s.env s.chip = s.chip) (hq : s.quiet) : lift f s = .next s := by
  rw [lift_put f s (by rw [h]; exact hq.1) (by rw [h]; exact hq.2.1) (by rw [h]; exact hq.2.2), h]; rfl

/-- After a command nothing is left in hand. -/
theorem State.after_quiet (s : State) (c : Chip) : (s.after c).quiet := ⟨rfl, rfl, rfl⟩

theorem State.after_wf (s : State) (c : Chip) (h : s.mem.wf = true) : (s.after c).mem.wf = true := memAfter_wf s.mem _ h

end Sys2Proof.Machine
end

