-- ==== Sys2Proof/Laws/Commands.lean ====
section
/-! SUPPORT. How a host command, a slot and a register write reach their meaning: the shared operations that every proof of a command starts with. -/

namespace Sys2Proof.Machine

/-- A started command runs its meaning. -/
theorem withStarted_of {s : State} {id : CmdId} {op : Nat} {m : Cmd} (h : Started s id op m) (f : Cmd → Chip → Chip) :
    withStarted s.chip id op f = f m s.chip := by
  obtain ⟨h1, h2, h3, h4⟩ := h
  unfold withStarted; rw [h1]; simp [h2, h3, h4]

/-- A command aimed at a job that this package leads runs on that job. -/
theorem onJobTarget_of {s : State} {m : Cmd} {t : Nat} {j : Job} (h : Aimed s m t j) (b : Bool) (f : Nat → Job → Chip → Chip) :
    onJobTarget m s.chip b f = f t j s.chip := by
  obtain ⟨h1, h2, h3⟩ := h
  unfold onJobTarget; rw [h1]; simp only [h2, h3]; simp

theorem onJobTarget_any {s : State} {m : Cmd} {t : Nat} {j : Job} (h : jobOf s.chip m.target = some (t, j))
    (h2 : j.place.parts.contains m.id.part = true) (f : Nat → Job → Chip → Chip) : onJobTarget m s.chip false f = f t j s.chip := by
  unfold onJobTarget; rw [h]; simp only [h2]; simp

/-- A request of a job that this package leads is not led elsewhere. -/
theorem ledElsewhere_of {c : Chip} {h i : Nat} {r : Req} {j : Job} (h2 : reqOf c h = some (i, r)) (h3 : tfind c.jobs r.job = some j)
    (h5 : isLead c j = true) : ledElsewhere c h = none := by
  unfold reqOf at h2; unfold ledElsewhere
  split at h2
  · cases hf : tfind c.reqs (hIndex h) with
    | none => simp [hf] at h2
    | some q =>
      simp only [hf] at h2 ⊢
      split at h2
      · cases h2; simp [h3, h5]
      · cases h2
  · cases h2

theorem onReqTarget_of {s : State} {m : Cmd} {i : Nat} {r : Req} {j : Job} (h : AimedReq s m i r j) (f : Nat → Req → Nat → Job → Chip → Chip) :
    onReqTarget m s.chip f = f i r r.job j s.chip := by
  obtain ⟨h1, h2, h3, h4, h5⟩ := h
  unfold onReqTarget; rw [ledElsewhere_of h2 h3 h5, h2]; simp only [h1, h3, h4]; simp

/-- The head slot of a queue issues. -/
theorem issue_of {s : State} {i : Nat} {q : Queue} {sl : QSlot} {op : Nat} (h : Head s i q sl op) (ho : op ≤ queueTop q) (f : Chip → QSlot → Chip) :
    issue s.env s.chip i q op f = f (popHead s.chip i q) sl := by
  obtain ⟨h1, h2, h3⟩ := h
  unfold issue; rw [h1]; simp only [h2, h3]
  simp [Nat.not_lt.mpr ho]

/-- No head that may issue: nothing happens. -/
theorem issue_none {e : Env} {c : Chip} {i : Nat} {q : Queue} {op : Nat} (h : headNow c i q = none) (f : Chip → QSlot → Chip) :
    issue e c i q op f = c := by unfold issue; rw [h]

/-- A source of class M may write a register of class M (R407). -/
theorem mayWrite_m {x : Src} (h : MachineSrc x) : mayWrite .m x = true := by rcases h with rfl | rfl <;> rfl

theorem mayWrite_h {x : Src} (h : HartSrc x) : mayWrite .h x = true := by rcases h with rfl | rfl <;> rfl

/-- A whole write, after READY and by a source that may write, is the register's own effect (R409). -/
theorem putReg_whole {x : Src} {off v w : Nat} {e : Env} {c : Chip} {r : Reg} (hreg : regAt off = some (r, off, w))
    (hw : mayWrite (regWriters r) x = true) (hr : c.boot.ready = true ∨ r = .bootCtl) (hn : off ≠ 0x31000) (ha : x = .i3c → i3cAwake c = true) :
    putReg x off w v e c = regPut e c r (v % 2 ^ (8 * w)) := by
  unfold putReg regWrite
  rw [if_neg hn, hreg]
  have : ¬(mayWrite (regWriters r) x = false ∨ (c.boot.ready = false ∧ r ≠ .bootCtl)) := by
    rw [hw]; rintro (h | h)
    · cases h
    · rcases hr with h1 | h1
      · rw [h1] at h; cases h.1
      · exact h.2 h1
  have hb : ¬(x = .i3c ∧ i3cAwake c = false) := by rintro ⟨h, h1⟩; rw [ha h] at h1; cases h1
  simp [if_neg this, if_neg hb]

/-- A quiet state is what settling it gives. -/
theorem State.after_self (s : State) (h : s.quiet) : s.after s.chip = s := by rw [State.after_put s s.chip h.1 h.2.1 h.2.2]; rfl

end Sys2Proof.Machine
end

