-- ==== Sys2Proof/Laws/Quiet.lean ====
section
/-! SUPPORT. Chips that hold the same of a command in hand: no write, cleared range or fault is added. -/

namespace Sys2Proof.Machine

/-- `d` has the writes, clears and faults in hand that `c` has. -/
def Chip.SameHand (c d : Chip) : Prop := d.writes = c.writes ∧ d.clears = c.clears ∧ d.raised = c.raised

theorem Chip.SameHand.refl (c : Chip) : c.SameHand c := ⟨rfl, rfl, rfl⟩

theorem Chip.SameHand.trans {c d e : Chip} (h : c.SameHand d) (k : d.SameHand e) : c.SameHand e :=
  ⟨k.1.trans h.1, k.2.1.trans h.2.1, k.2.2.trans h.2.2⟩

/-- From a quiet state a meaning that adds nothing in hand only changes the chip. -/
theorem State.after_sameHand (s : State) (c : Chip) (hq : s.quiet) (h : s.chip.SameHand c) : s.after c = s.put c :=
  State.after_put s c (h.1.trans hq.1) (h.2.1.trans hq.2.1) (h.2.2.trans hq.2.2)

theorem sameHand_onPart (c : Chip) (n : Nat) (f : Part → Part) : c.SameHand (onPart c n f) := ⟨rfl, rfl, rfl⟩
theorem sameHand_onRing (c : Chip) (n : Nat) (f : Ring → Ring) : c.SameHand (onRing c n f) := ⟨rfl, rfl, rfl⟩
theorem sameHand_onPort (c : Chip) (n : Nat) (f : Port → Port) : c.SameHand (onPort c n f) := ⟨rfl, rfl, rfl⟩
theorem sameHand_onReq (c : Chip) (n : Nat) (f : Req → Req) : c.SameHand (onReq c n f) := ⟨rfl, rfl, rfl⟩
theorem sameHand_onSide (c : Chip) (n : Nat) (f : ReqSide → ReqSide) : c.SameHand (onSide c n f) := ⟨rfl, rfl, rfl⟩
theorem sameHand_onLamp (c : Chip) (n : Nat) (f : LampSt → LampSt) : c.SameHand (onLamp c n f) := ⟨rfl, rfl, rfl⟩
theorem sameHand_onCtx (c : Chip) (n : Nat) (f : Ctx → Ctx) : c.SameHand (onCtx c n f) := ⟨rfl, rfl, rfl⟩
theorem sameHand_onCore (c : Chip) (n : Nat) (f : Core → Core) : c.SameHand (onCore c n f) := ⟨rfl, rfl, rfl⟩
theorem sameHand_onBeacon (c : Chip) (f : Beacon → Beacon) : c.SameHand (onBeacon c f) := ⟨rfl, rfl, rfl⟩
theorem sameHand_emit (c : Chip) (o : Out) : c.SameHand (emit c o) := ⟨rfl, rfl, rfl⟩

theorem sameHand_onJob (c : Chip) (t : Nat) (f : Job → Job) : c.SameHand (onJob c t f) := by
  unfold onJob; split <;> exact ⟨rfl, rfl, rfl⟩

theorem sameHand_each {α : Type} (l : List α) (f : Chip → α → Chip) (h : ∀ (c : Chip) (x : α), c.SameHand (f c x)) (c : Chip) : c.SameHand (each l c f) := by
  induction l generalizing c with
  | nil => exact .refl c
  | cons x l ih => exact (h c x).trans (ih (f c x))

theorem sameHand_sendIrq (c : Chip) (k : Nat) : c.SameHand (sendIrq c k) := ⟨rfl, rfl, rfl⟩

theorem sameHand_checkIrq (c : Chip) (k : Nat) : c.SameHand (checkIrq c k) := by
  unfold checkIrq; split
  · exact sameHand_sendIrq c k
  · exact .refl c

end Sys2Proof.Machine
end

