-- ==== Sys2Proof/Tests/Slice0.lean ====
section
/-! SUPPORT. Tests: ill-formed commands refused, worked examples of spec/, and for every statement with hypotheses a state and operands that meet them. -/

set_option Elab.async false

namespace Sys2Proof.Tests

open Sys2Proof.Machine

/-! States that the tests share. -/

/-- The package READY, each stack LIT. -/
def bootUp : Boot := { Boot.reset with
  pwrgood := true, code := 6, accepted := true, stacksUp := 0xF#4, waving := 0xF#4, pcieUp := true, ready := true }

def lampLit : LampSt := { LampSt.reset with st := .lit }

def part0 : Part := { Part.reset with state := 1, bands := 1#16, tenant := 7#32, operator := true }

/-- Ring 0 of each kind of partition 0, in the host store. -/
def ring0 : Ring := { Ring.reset with enable := true, log2 := 4, base := 0x8000000, armed := true }

def chip0 : Chip := { Chip.reset with
  now := 3000000, boot := bootUp, parts := [(0, part0)], lamps := [(0, lampLit), (1, lampLit), (2, lampLit), (3, lampLit)]
  rings := [(0, ring0), (32, { ring0 with base := 0x8000001 }), (64, { ring0 with base := 0x8000002 })] }

def stOf (c : Chip) : State := { State.reset with chip := c }

def plan0 : Plan := { Plan.idle with rows := [] }

def att0 : Attempt := ⟨3, 0, 0, false, .running, 2990000, 2990000, 0, 0, 0, false, plan0, false, false, []⟩

def hdr0 : ProgHdr := ⟨1, 1, 0x3F, 100, 31, 4, true, 5, 0, 0, [⟨0, 0, 0, 0, 1000, 1000⟩, ⟨8, 0, 0, 0, 2000, 2000⟩, ⟨0, 0, 0, 1, 2000, 2000⟩]⟩

def place0 : Place := ⟨[0], 0, 0, 0, 1#16, [0], [0], [], [], [], [], [[0], [], [], []], [], 0x8000000000, 0x100000, 64, [], [], [], [], [], [], [], []⟩

def decl0 : Decls := ⟨[], [], [], [⟨3, 1, 0, 1, 2⟩], [], [⟨0x400600000, 0x1000, .plain⟩, ⟨0, 0x8000, .kv 2 100 16⟩], ⟨2, 3072, 16, 0x100000, 1, []⟩, []⟩

/-- A job with tag 5 on band 0, led by package 0, running. -/
def job0 : Job :=
  { gen := 1, part := 0, seq := 1, st := .running, tenant := 7, hdr := hdr0, place := place0, decl := decl0
    args := { RunArgs.none with m := 1, reqCount := 4 }, cnt := JobCnt.zero, ticks := { Ticks.zero with due := 4, next := 4 }, wts := Weights.none, loadCmd := none
    stop := none, endSt := .ok, killCmds := [], clearAll := false, clearing := false, capture := none, captureRun := none, pair := none
    log := [], slotNo := [(0, 0)], promptAt := 0 }

/-- The handle of job 5. -/
def jh : Nat := mkHandle 0 3 5 1 1

def beacon0 : Beacon := { Beacon.reset with
  period := 26000, inForce := 26000, locked := true, phase := some ⟨3, 2990000, 26000⟩, seen := some 3, tick := 3, firedAt := some 2990000, role := 1 }

/-- The package with the given job under tag 5, on core 0 to 63 through context 0. -/
def withJob (j : Job) : Chip := { chip0 with jobs := [(5, j)], beacon := beacon0, ctxs := [(0, { Ctx.free with job := 5, bands := 1#16, region := (0, 64) })] }

def id9 : CmdId := ⟨0, 9⟩

/-- A started command of partition 0: opcode, flags, target, argument bytes. -/
def cmd (op flags target : Nat) (args : List Byte) : Cmd :=
  ⟨id9, 0, op, flags, 0, 0, 0, target, args ++ List.replicate (48 - args.length) 0, .started, cmdHandle id9, []⟩

def jobCmd (j : Job) (m : Cmd) : State := stOf { withJob j with cmds := [m] }

/-- Queue `q` of core 3 holds one slot with opcode `op`, taken long ago; streams unbound. -/
def slotOn (q : Queue) (w : Nat) : State :=
  stOf { withJob job0 with cores := [(3, setQueue Core.idle q [⟨BitVec.ofNat 64 w, 8, 100⟩])] }

def qslot (w : Nat) : QSlot := ⟨BitVec.ofNat 64 w, 8, 100⟩

/-- A slot word: opcode and fields given by their lowest bits. -/
def word (op : Nat) (fs : List (Nat × Nat)) : Nat := op * 2 ^ 58 + (fs.map (fun f => f.2 * 2 ^ f.1)).sum

/-- The answer of a step is a next state with a property. -/
def nextWith (o : Host.Outcome State Fault Refusal) (p : State → Bool) : Bool := match o with | .next t => p t | _ => false

def s0 : State := stOf chip0
def up (f : Chip → Chip) : State := stOf (f chip0)
def upB (f : Boot → Boot) : State := stOf { chip0 with boot := f bootUp }
def upBc (f : Beacon → Beacon) : State := stOf { chip0 with beacon := f beacon0 }
def upS (f : Safe → Safe) : State := stOf { chip0 with safe := f Safe.reset }
/-- The package with the given ports. -/
def upP (l : Tab Port) : State := stOf { withJob job0 with ports := l }

/-- Each range of WellFormed refuses a term outside it. -/
theorem test_wf_refuses :
    [Instr.stopJob (.ring ⟨17, 1⟩), .stopJob (.ring ⟨0, 0⟩), .submissionDoorbell 0 32 0, .submissionDoorbell 0 0 (2 ^ 32), .consumerDoorbell 0 130 0, .descriptorFetch 16 0,
     .partAper .m 448 0, .partCatalog .m 16 0, .arm .m 12 0 0, .linkEnable .m 16 0, .registerWrite .m 0x100000 4 0, .registerWrite .m 0 3 0,
     .hostAccess .m (2 ^ 40) 4 none, .getCertificate 65536 0, .getMeasurements 256, .verifyBootImage ⟨[], [], [], [], []⟩, .stackPowerUp 4,
     .stackSelfTestDone 0 16, .clockFault 256 0, .edgeMark 0 5 ⟨0, 0, 26000, 0, 0⟩, .edgeMark 0 0 ⟨0, 0, 26000, 4096, 0⟩,
     .plan ⟨1, 0, 0, 1024, 0, 0, 0⟩ Plan.idle, .plan ⟨1, 0, 0, 0, 0, 0, 0⟩ { Plan.idle with k := 9 }].all (fun i => !i.wf) = true := by decide

theorem test_wf_refuses_more :
    [Instr.buoyOperation ⟨2 ^ 30, .set, 0, 1, 0, 0, 0⟩, .barrierArrival ⟨1024, 0, 1, 1, 0, 0, 0⟩, .waitRelease 1024, .settle 0, .settle 0xFFFF, .hold 1 (2 ^ 48),
     .vote ⟨1, 4096, 0, 0, true, 0, 0⟩, .verdict ⟨1, 0, 0, .commit, [16384], 0, 0, 0, []⟩, .verdict ⟨1, 0, 0, .commit, [], 0, 0, 0, [16384]⟩, .edgeAnnouncement ⟨0, .replay, 0, 0, 0⟩, .join 0 ⟨0, 0, 0, 0, 3, false⟩,
     .trainingDone 0 ⟨true, 0, 0, false, 16, false⟩, .dataFrame 0 0 ⟨0, false, 0, 0, 0, 0, 0, 0, 0, 0, 0, []⟩ true 0,
     .controlWord 0 ⟨⟨3, 0, 0, 0, 0, false⟩, 0⟩, .linkRetry 0 1024, .beaconFrame 0 2 (.hold 1 0) ⟨0, 0, 0, 0⟩ 1 true 0, .beaconFrame 0 0 (.reserved 11) ⟨0, 0, 0, 0⟩ 0 true 0,
     .remoteWrite ⟨0, List.replicate 4097 0, 0, 0, 0, 0, 0⟩, .shelfWrite ⟨0, 256, 0, [], 0, 0, 0, 0, 0⟩, .remoteRead ⟨2 ^ 40, 0, 0, 0, 0, 0⟩,
     .scrub false 0 [(0, [137])], .layerRewrite 1 ⟨65536, 0⟩, .fill 1 ⟨4096, .verified, none⟩, .inputCopy 16384, .digest 1 0 (2 ^ 64), .longWord 16 true, .take 1024 ⟨true, []⟩,
     .queueStall 0 6, .mnop 0 2, .clearing 0xFFFF 0, .rangePair ⟨0, 1⟩ (some ⟨4096, true, 0, 0, 0, 1, 0⟩), .drillDown ⟨0, 1⟩ (some ⟨true, 0, [], []⟩),
     .startJob (.ring ⟨0, 1⟩) [⟨0, 7, .ok, [], [], [], none⟩]].all (fun i => !i.wf) = true := by decide +kernel

theorem meets_StepTakesFrontCommand : s0.pending = [] ∧ s0.quiet ∧ s0.onlyBusy [] ∧ s0.syncStill := by decide

theorem meets_StepKeepsInvariant : s0.inv ∧ nextWith (step s0) (fun _ => true) = true ∧
    nextWith (step { s0 with pending := [.remoteWrite ⟨0x8000000000, [1], 0, 0, 0, 0, 0⟩] }) (fun _ => true) = true := by decide +kernel

/-- R412: the values after reset that the map gives. -/
theorem test_reset_registers :
    [Reg.idDevice, .beaconLead, .scrubCfg, .i3c, .mergeCfg 15, .bootStage, .partCfg 0].map (regValue State.reset.env State.reset.chip) =
      [0x4E5A0040, 0x2B2A, 0x00080800, 0x12C, 0x00F84000, 0, 0] := by decide +kernel

/-- Awake at the I3C port. -/
def sI : State := stOf { chip0 with now := 20 * Config.ms }

theorem meets_RefusedWriteIsCounted : s0.quiet ∧ I3cUp s0 .m ∧ I3cUp State.reset .server ∧ (sI.quiet ∧ I3cUp sI .i3c ∧ i3cAwake sI.chip = true) ∧ State.reset.quiet ∧ regAt (2 ^ 20 - 1) = none ∧
    (regAt 0 = some (.idDevice, 0, 4) ∧ mayWrite (regWriters .idDevice) .m = false) ∧
    (regAt 0x30000 = some (.beaconDomain, 0x30000, 4) ∧ State.reset.chip.boot.ready = false) ∧
    (regAt 0x31000 = some (.lampCfg, 0x31000, 4) ∧ ¬(8 = 4 ∧ 0x31000 = 0x31000)) ∧
    (regAt 0x10083 = some (.partCatalog 0, 0x10080, 8) ∧ ¬(1 = 8 ∧ 0x10083 = 0x10080) ∧ ¬(1 = 4 ∧ (0x10083 = 0x10080 ∨ 0x10083 = 0x10084))) := by
  decide +kernel

theorem meets_AcceptedWriteApplies : s0.quiet ∧ I3cUp s0 .m ∧ I3cUp sI .i3c ∧ s0.chip.boot.ready = true ∧
    (regAt 0x30000 = some (.beaconDomain, 0x30000, 4) ∧ mayWrite (regWriters .beaconDomain) .m = true) ∧
    (regAt 0x10080 = some (.partCatalog 0, 0x10080, 8) ∧ mayWrite (regWriters (.partCatalog 0)) .m = true) ∧
    (regAt 0x31000 = some (.lampCfg, 0x31000, 4) ∧ mayWrite (regWriters .lampCfg) .m = true) ∧
    regAt 0x10084 = some (.partCatalog 0, 0x10080, 8) ∧ (regAt 0x2004 = some (.bootCtl, 0x2004, 4) ∧ mayWrite (regWriters .bootCtl) .m = true) := by
  decide +kernel

theorem meets_BeaconRegisterWrites : s0.quiet ∧ s0.chip.boot.ready = true ∧ s0.chip.jobs = [] ∧ (jobCmd job0 (cmd 1 0 0 [])).quiet ∧
    (jobCmd job0 (cmd 1 0 0 [])).chip.jobs.any (fun p => jobRunning p.2) = true ∧ (2599#32).toNat % 2 ^ 14 < 2600 ∧ 13000 < (13001#32).toNat % 2 ^ 14 ∧
    2600 ≤ (2600#32).toNat % 2 ^ 14 ∧ (13000#32).toNat % 2 ^ 14 ≤ 13000 ∧ s0.chip.jobs.any (fun p => jobRunning p.2) = false := by decide +kernel

theorem meets_PartitionAssignment : s0.quiet ∧
    (let s := up (fun c => { c with parts := [(0, { part0 with state := 0 }), (1, { part0 with bands := 2, state := 3 }), (2, { part0 with state := 2 })] })
     s.chip.boot.ready = true ∧ (part s.chip 0).state = 0 ∧ (part s.chip 0).tenant ≠ 0 ∧ (part s.chip 2).state = 2 ∧ (part s.chip 1).state = 3 ∧
       (∀ m < 16, m ≠ 0 → (part s.chip m).state ≠ 0 → (part s.chip m).bands &&& 4#16 = 0) ∧
       (∃ m < 16, m ≠ 0 ∧ (part s.chip m).state ≠ 0 ∧ (part s.chip m).bands &&& 3#16 ≠ 0)) ∧
    ((part s0.chip 0).state = 1 ∧ (part s0.chip 0).keyValid = false ∧ programOn s0.chip 0 = false) ∧
    (let s := jobCmd job0 (cmd 1 0 0 []); s.quiet ∧ (part s.chip 0).state = 1 ∧ programOn s.chip 0 = true) := by decide +kernel

/-- The base point of P-384 (FIPS 186) as a partition's key, and a key off the curve. -/
theorem meets_PartitionKeyAndWindows_key :
    let s := up (fun c => { c with parts := [(0, { part0 with key :=
      0xAA87CA22BE8B05378EB1C71EF320AD746E1D3B628BA79B9859F741E082542A385502F25DBF55296C3A545E3872760AB73617DE4A96262C6F5D9E98BF9292DC29F8F41DBD289A147CE9DA3113B5F0B8C00A60B1CE1D7E819D7A431D7C90EA0E5F })] })
    (s.quiet ∧ (part s.chip 0).state = 1 ∧ (part s.chip 0).keyValid = false ∧
      ecOn (beNat ((beBytes 96 (part s.chip 0).key.toNat).take 48)) (beNat ((beBytes 96 (part s.chip 0).key.toNat).drop 48)) = true) ∧
    ecOn (beNat ((beBytes 96 (part s0.chip 0).key.toNat).take 48)) (beNat ((beBytes 96 (part s0.chip 0).key.toNat).drop 48)) = false ∧
    (part (up (fun c => { c with parts := [(0, { part0 with keyValid := true })] })).chip 0).keyValid = true := by decide +kernel

theorem meets_PartitionKeyAndWindows : s0.quiet ∧ (part s0.chip 0).state = 1 ∧ (part s0.chip 1).state ≠ 1 ∧
    (bitsOf (0x8000000000#64).toNat 63 40 = 0 ∧ bitsOf (0x18000000000#64).toNat 63 40 = 1 ∧
      tierOk s0.chip [0] (bitsOf (0x18000000000#64).toNat 39 5 * 32) (32 * bitsOf (0x18000000000#64).toNat 63 40) = true) ∧
    (bitsOf (0x10000000000#64).toNat 63 40 ≠ 0 ∧
      tierOk s0.chip [0] (bitsOf (0x10000000000#64).toNat 39 5 * 32) (32 * bitsOf (0x10000000000#64).toNat 63 40) = false) ∧
    (aperPart s0.chip 447 = none ∧ bitOf (0x10#64).toNat 4 = true ∧ (part s0.chip ((0x10#64).toNat % 16)).state = 1 ∧
      bitOf (0x11#64).toNat 4 = true ∧ (part s0.chip ((0x11#64).toNat % 16)).state ≠ 1) ∧
    (let s := up (fun c => { c with aper := [(0, 0x40000010#64)] })
     s.quiet ∧ aperPart s.chip 0 = some 0 ∧ windowUsed s.chip 0 0 = false ∧ bitOf (0#64).toNat 4 = false ∧
      (tget 0#64 s.chip.aper 0).toNat ≠ (0x10#64).toNat / 2 ^ 30 * 2 ^ 30 + (0x10#64).toNat % 32) ∧
    (let s := up (fun c => { c with aper := [(0, 0x40000010#64)], cmds := [cmd 2 0 0 (leBytes 8 Config.aperture)] })
     s.quiet ∧ aperPart s.chip 0 = some 0 ∧ windowUsed s.chip 0 0 = true) := by decide +kernel

/-! Rings, ports, host accesses. -/

def ringOff : Ring := { Ring.reset with base := 0x8000010 }
/-- Chip with the given rings of partition 0. -/
def upR (l : Tab Ring) : State := up (fun c => { c with rings := l })

theorem meets_RingEnableDisable :
    (let s := upR [(129, ringOff), (65, { ringOff with base := 0x1000 })]
     s.quiet ∧ (ring s.chip (ringKey 0 129)).enable = false ∧ (part s.chip 0).state = 1 ∧ bitsOf ((0x01000000#32 ||| 0x80000000#32).toNat) 26 22 = 4 ∧
      bitsOf ((0x04000000#32 ||| 0x80000000#32).toNat) 26 22 = 16 ∧ tierOk s.chip [0] (ringAddr (ring s.chip (ringKey 0 129))) (2 ^ 16 * recSize (kindOf 129)) = true ∧
      (part s.chip 15).state ≠ 1 ∧ bitsOf ((0x00C00000#32 ||| 0x80000000#32).toNat) 26 22 < 4 ∧ 16 < bitsOf ((0x04400000#32 ||| 0x80000000#32).toNat) 26 22 ∧
      tierOk s.chip [0] (ringAddr (ring s.chip (ringKey 0 65))) (2 ^ 4 * recSize (kindOf 65)) = false) ∧
    (s0.quiet ∧ (ring s0.chip (ringKey 0 32)).enable = true ∧ pendingOn s0.chip 0 0 = 0 ∧ (ring s0.chip (ringKey 0 64)).enable = true ∧
      s0.chip.reqs.any (fun q => q.2.st != .free && q.2.part == 0 && q.2.tokenRing == 64 - 64) = false) ∧
    (let s := up (fun c => { c with cmds := [cmd 1 0 0 []], reqs := [(3, { Req.free with st := .queued, tokenRing := 0 })] })
     s.quiet ∧ (ring s.chip (ringKey 0 32)).enable = true ∧ pendingOn s.chip 0 (32 - 32) ≠ 0 ∧ (ring s.chip (ringKey 0 64)).enable = true ∧
      s.chip.reqs.any (fun q => q.2.st != .free && q.2.part == 0 && q.2.tokenRing == 64 - 64) = true) := by decide +kernel

theorem meets_HouseRegisterWrites : s0.quiet ∧ s0.chip.boot.ready = true ∧ deviceState s0.chip = 1 ∧
    (let s := upB (fun b => { b with test := true }); s.quiet ∧ s.chip.boot.test = true ∧ deviceState s.chip ≠ 1) ∧ s0.chip.boot.test = false ∧
    (let s := upS (fun x => { x with events := [⟨0xFFFF, [7]⟩], faults := [⟨1, [9]⟩] })
     s.quiet ∧ (if bitOf (0x8000FFFF#32).toNat 31 then s.chip.safe.events else s.chip.safe.faults).find? (fun y => y.seq == (0x8000FFFF#32).toNat % 2 ^ 16) = some ⟨0xFFFF, [7]⟩ ∧
      (if bitOf (1#32).toNat 31 then s.chip.safe.events else s.chip.safe.faults).find? (fun y => y.seq == (1#32).toNat % 2 ^ 16) = some ⟨1, [9]⟩ ∧
      (if bitOf (2#32).toNat 31 then s.chip.safe.events else s.chip.safe.faults).find? (fun y => y.seq == (2#32).toNat % 2 ^ 16) = none) ∧
    (let s := upB (fun b => { b with recovering := true, code := 3 }); s.quiet ∧ s.chip.boot.recovering = true ∧ s.chip.boot.code = 3) ∧ s0.chip.boot.code ≠ 3 := by
  decide +kernel

theorem meets_LinkRegisterWrites :
    (let s := upP [(15, { Port.reset with enable := false }), (0, { Port.reset with st := .up, joined := true, media := 1, part := 15 })]
     s.quiet ∧ s.chip.boot.ready = true ∧ (port s.env s.chip 15).st ≠ .absent ∧ (port s.env s.chip 15).enable = false ∧
      bitsOf ((0x10000000#32 ||| 0x80000000#32).toNat) 29 28 < 2 ∧ (port s.env s.chip 0).st ≠ .absent ∧ (port s.env s.chip 0).enable = true ∧
      (port s.env s.chip 0).media < 2 ∧ (port s.env s.chip 0).part < 16 ∧ (port s.env s.chip 0).media < 4) := by decide +kernel

theorem meets_RecoveryThroughBar0 : (let s := upB (fun b => { b with code := 3 }); s.quiet ∧ s.chip.boot.pcieUp = true ∧ s.chip.boot.code = 3) ∧ s0.quiet ∧
    s0.chip.boot.pcieUp = true ∧ s0.chip.boot.code ≠ 3 := by
  decide

theorem meets_HostAccessMemory : s0.quiet ∧ (inHostStore Config.hostStore = true ∧ inHostStore (Config.hostStore + 8 - 1) = true) ∧
    inHostStore (Config.hostStore + Config.hostStoreSize - 1 + 1 - 1) = true ∧ s0.chip.safe.ecc = [] ∧
    (let s := jobCmd job0 (cmd 1 0 0 [])
     s.quiet ∧ (∀ k < 8, (inStore (0x400600000 + k) || inAnyNear (0x400600000 + k)) = true ∧ hostMayTouch s.chip (0x400600000 + k) = true)) ∧
    (inAnyNear 0x400600000 = true ∧ ∃ k < 1, (inStore (0x400600000 + k) || inAnyNear (0x400600000 + k)) = false ∨ hostMayTouch s0.chip (0x400600000 + k) = false) := by
  decide +kernel

theorem meets_DoorbellsAndInterrupts :
    (let s := upR [(31, { ring0 with fetch := 2 ^ 32 - 1, prod := 2 ^ 32 - 1 }), (129, { ring0 with prod := 3, cons := 1, coalCount := 0, coalTime := 0, pend := [(1, false), (2, false)] })]
     s.quiet ∧ doorbellsServed s.chip 0 = true ∧ (ring s.chip (ringKey 0 31)).enable = true ∧
      (dist32 15 (ring s.chip (ringKey 0 31)).fetch ≤ ringSize (ring s.chip (ringKey 0 31)) ∧
        dist32 (ring s.chip (ringKey 0 31)).prod (ring s.chip (ringKey 0 31)).fetch ≤ dist32 15 (ring s.chip (ringKey 0 31)).fetch ∧ 15 ≠ (ring s.chip (ringKey 0 31)).prod) ∧
      (ringSize (ring s.chip (ringKey 0 31)) < dist32 16 (ring s.chip (ringKey 0 31)).fetch ∧ 16 ≠ (ring s.chip (ringKey 0 31)).prod) ∧
      (ring s.chip (ringKey 0 129)).enable = true ∧ (dist32 3 (ring s.chip (ringKey 0 129)).cons ≤ dist32 (ring s.chip (ringKey 0 129)).prod (ring s.chip (ringKey 0 129)).cons ∧
        3 ≠ (ring s.chip (ringKey 0 129)).cons ∧ (ring s.chip (ringKey 0 129)).coalCount = 0 ∧ (ring s.chip (ringKey 0 129)).coalTime = 0 ∧
        (ring s.chip (ringKey 0 129)).pend.any (fun q => q.2) = false) ∧
      (dist32 (ring s.chip (ringKey 0 129)).prod (ring s.chip (ringKey 0 129)).cons < dist32 4 (ring s.chip (ringKey 0 129)).cons ∧ 4 ≠ (ring s.chip (ringKey 0 129)).cons) ∧
      doorbellsServed s.chip 1 = false ∧ (ring s.chip (ringKey 0 5)).enable = false) ∧
    (let s := upR [(32, { ring0 with coalTime := 2, pend := [(3000000 - 2600, true)] }), (33, { ring0 with armed := false })]
     s.quiet ∧ (ring s.chip (ringKey 0 32)).armed = true ∧ (ring s.chip (ringKey 0 32)).pend = (3000000 - 2600, true) :: [] ∧
      (ring s.chip (ringKey 0 32)).coalTime ≠ 0 ∧ 3000000 - 2600 + (ring s.chip (ringKey 0 32)).coalTime * Config.us ≤ s.chip.now ∧
      (ring s.chip (ringKey 0 33)).armed = false) := by decide +kernel

/-- A ring with one SET_TICK descriptor to fetch; the command before it, if any. -/
def fetchSt (flags : Nat) (cs : List Cmd) : State :=
  { up (fun c => { c with rings := [(0, { ring0 with prod := 1 }), (32, { ring0 with base := 0x8000001 })], cmds := cs
                          parts := [(0, { part0 with seq := 2 })] }) with
    mem := Memory.writeBytes [] Config.hostStore (leBytes 1 0x30 ++ leBytes 1 flags) }

theorem meets_FetchAndFence :
    let ok := fun (s : State) =>
      let r := ring s.chip (ringKey 0 0)
      let d := rdBytes s.env s.chip (ringAddr r + r.fetch % ringSize r * 64) 64
      let q := ring s.chip (ringKey 0 (32 + field d 2 1))
      decide (s.quiet ∧ doorbellsServed s.chip 0 = true ∧ (part s.chip 0).state = 1 ∧ r.enable = true ∧ r.fetch ≠ r.prod ∧ field d 0 1 = 0x30 ∧ field d 2 1 ≤ 31 ∧
        q.enable = true ∧ ringUsed q + pendingOn s.chip 0 (field d 2 1) + 2 ≤ ringSize q ∧ (∀ y ∈ s.chip.cmds, y.id ≠ ⟨0, (part s.chip 0).seq⟩) ∧ nextRing s.env s.chip 0 = some 0 ∧
        hostBad s.chip (cmd 0x30 0 0 []) = false)
    let old : Cmd := { cmd 0x30 0 0 [] with id := ⟨0, 1⟩ }
    ok (fetchSt 0 []) = true ∧ (ok (fetchSt 1 [{ old with opcode := 0x10, phase := .accepted }]) = true ∧ fenceFinal { old with opcode := 0x10, phase := .accepted } = true) ∧
    (ok (fetchSt 1 [old]) = true ∧ fenceFinal old = false) ∧ ok (fetchSt 0 [{ old with phase := .held }]) = true ∧
    (let m : Cmd := { old with id := id9, flags := 1, phase := .held }
     let s := fetchSt 0 ([{ old with opcode := 0x10, phase := .accepted }] ++ [m])
     s.quiet ∧ doorbellsServed s.chip 0 = true ∧ descriptorOk m = true ∧ hostBad s.chip m = false ∧ m.id.part = 0 ∧ m.sq = 0 ∧
      (∀ y ∈ [({ old with opcode := 0x10, phase := .accepted } : Cmd)], y.id ≠ m.id ∧ y.phase ≠ .held) ∧
      (∀ y ∈ [({ old with opcode := 0x10, phase := .accepted } : Cmd)], y.id.part = 0 → y.sq = 0 → fenceFinal y = true)) ∧
    (fetchSt 0 []).chip.cmds.any (fun y => y.phase == .held) = false := by decide +kernel

/-! Power-on, boot, management port, lamps and monitors. -/

theorem meets_PowerAndEndpoint : s0.quiet ∧ State.reset.quiet ∧ State.reset.chip.boot.pwrgood = false ∧
    (let s := upB (fun b => { b with perst := true, pcieUp := false }); s.quiet ∧ s.chip.boot.perst = true ∧ s.chip.boot.pcieUp = false) ∧
    (let s := stOf { chip0 with now := 40 * Config.ms }
     s.quiet ∧ s.chip.boot.pwrgood = true ∧ s.chip.boot.perst = false ∧ s.chip.boot.accepted = true ∧ s.chip.boot.riseAt + 40 * Config.ms ≤ s.chip.now) ∧
    (let s := upB (fun b => { b with recovering := true }); s.quiet ∧ s.chip.boot.recovering = true) ∧ s0.chip.boot.pcieUp = true := by decide +kernel

/-- An image of version 7 and security version 3 with an empty body, signed under the P-384 key whose private number is 1 (FIPS 186). -/
def headOf (svn : Nat) : List Byte :=
  leBytes 2 1 ++ leBytes 2 svn ++ leBytes 4 7 ++ leBytes 8 0 ++
    beBytes 48 0x38b060a751ac96384cd9327eb1b1e36a21fdb71114be07434c0cc7bf63f6e1da274edebfe76f65fbd51ad2f14898b95b ++
    beBytes 48 0x8d999057ba3d2d969260045c55b97f089025959a6f434d651d207d19fb96e9e4fe0e86ebe0e64f85b96a9c75295df61 ++
    beBytes 48 0x399610bb86b97b448d96e0bcc6cbbd22cac40e8e502771b354a4df0da25a12fb7eebf199a35ed2e076782d13cca7d607 ++
    beBytes 48 ecGx ++ beBytes 48 ecGy ++ List.replicate 256 0

def fusesK : Fuses :=
  { Fuses.reset with keyDigest := 0xa19d4db171b582eb8052b0cfe555e17894aa22d1c8a9770950697dd8f796d2fa4bf0a56ad80006b7ea08e1191f814b65 }

/-- The ROM at CODE 0x02 with that key's digest in its fuses and the fuse counter at `n`. -/
def romAt (n : Nat) : State := { upB (fun b => { b with code := 2, arb := n }) with fuses := fusesK }

theorem meets_BootImageChecked :
    (∀ n ∈ [3, 4], (romAt n).quiet ∧ (romAt n).chip.boot.pwrgood = true ∧ (romAt n).chip.boot.code = 2 ∧ (romAt n).chip.boot.arb = n) ∧
    imageOk (romAt 3).fuses 3 (headOf 3) [] = true ∧ (headOf 3).length + 0 ≤ 0x1800000 ∧ imageOk (romAt 4).fuses 4 (headOf 3) [] = false ∧
    imageOk (romAt 3).fuses 3 (headOf 4) [] = false := by
  decide +kernel

theorem meets_BootImageChecked_push :
    let s := upB (fun b => { b with code := 4 })
    let head := rdBytes s.env s.chip Config.hostStore 512
    let body := rdBytes s.env s.chip (Config.hostStore + 512) (min (field head 8 4) (2 ^ 25 - 512))
    s.quiet ∧ s.chip.boot.pwrgood = true ∧ s.chip.boot.code = 4 ∧ imageOk s.fuses s.chip.boot.arb head body = false := by decide +kernel

theorem meets_StacksWavesAndReady :
    let s := stOf { chip0 with now := 420 * Config.ms, boot := { bootUp with code := 5, ready := false, stacksUp := 7, waving := 7 }
                               ports := (List.range 16).map (fun n => (n, { Port.reset with st := .failed, enable := n % 4 != 3 })) }
    s.quiet ∧ (s.chip.boot.code = 5 ∧ bootDue s.chip ((60 + 85 * 3) * Config.ms) = true ∧ s.chip.boot.stacksUp.getLsbD 3 = false ∧
      s.chip.boot.stacksFailed.getLsbD 3 = false ∧ s.chip.boot.powering = 0) ∧ bootDue (stOf { chip0 with now := 60 * Config.ms - 1 }).chip ((60 + 85 * 0) * Config.ms) = false ∧
    (upB (fun b => { b with powering := 8 })).chip.boot.powering.getLsbD 3 = true ∧
    (bootDue s.chip ((300 + 40 * 3) * Config.ms) = true ∧ s.chip.boot.waving.getLsbD 3 = false ∧ s.chip.boot.waving.getLsbD 0 = true ∧
      (∃ n ∈ wavePorts s.env 0, (port s.env s.chip n).enable = true ∧ (port s.env s.chip n).st ≠ .absent ∧ (port s.env s.chip n).media < 2)) ∧
    (let t := stOf { s.chip with boot := { s.chip.boot with waving := 0, identRec := leBytes 4 5 ++ leBytes 2 4095 ++ leBytes 2 0 } }
     t.quiet ∧ t.chip.boot.waving.getLsbD 0 = false ∧ bootDue t.chip (300 * Config.ms) = true ∧ t.chip.boot.identRec.length = 8 ∧ field t.chip.boot.identRec 4 2 < 4096 ∧
      field t.chip.boot.identRec 6 2 = 0 ∧ 4096 ≤ field (leBytes 4 5 ++ leBytes 2 4096 ++ leBytes 2 0) 4 2 ∧ field (leBytes 4 5 ++ leBytes 2 0 ++ leBytes 2 1) 6 2 ≠ 0) ∧
    (let t := stOf { s.chip with boot := { s.chip.boot with waving := 15, stacksUp := 15 } }
     t.quiet ∧ t.chip.boot.code = 5 ∧ t.chip.boot.accepted = true ∧ t.chip.boot.failed = false ∧ t.chip.boot.stacksUp = 0xF#4 ∧ allJoined t.env t.chip = true) ∧
    s0.chip.boot.code ≠ 5 := by decide +kernel

theorem meets_ManagementPort :
    let awake := fun (x : Safe) => stOf { chip0 with now := 20 * Config.ms, safe := x }
    (awake Safe.reset).quiet ∧ i3cAwake (awake Safe.reset).chip = true ∧ s0.quiet ∧ i3cAwake s0.chip = false ∧
    (let s := awake { Safe.reset with ibiDue := true, ibiAt := some (10 * Config.ms) }
     s.quiet ∧ s.chip.safe.ibiDue = true ∧ s.chip.mgmt.ibiEn = true ∧ 10 * Config.ms + 10 * Config.ms ≤ s.chip.now) ∧
    (let s := awake { Safe.reset with ibiDue := true, ibiAt := some (10 * Config.ms + 1) }
     s.quiet ∧ s.chip.now < 10 * Config.ms + 1 + 10 * Config.ms) ∧ (awake Safe.reset).chip.safe.ibiDue = false := by decide +kernel

theorem meets_SpdmRequests :
    let awake := fun (b : Boot) (k : Nat) => stOf { chip0 with now := 20 * Config.ms, boot := b, mgmt := { Mgmt.reset with spdm := k } }
    ((awake { bootUp with accepted := false } 0).quiet ∧ i3cAwake (awake { bootUp with accepted := false } 0).chip = true ∧
      (awake { bootUp with accepted := false } 0).chip.boot.accepted = false) ∧
    ((awake bootUp 3).quiet ∧ i3cAwake (awake bootUp 3).chip = true ∧ (awake bootUp 3).chip.boot.accepted = true ∧ 3 ≤ (awake bootUp 3).chip.mgmt.spdm ∧
      2 ≤ (awake bootUp 2).chip.mgmt.spdm ∧ 1 ≤ (awake bootUp 1).chip.mgmt.spdm ∧
      [1, 2, 3, 4, 16, 31].all (fun i => (measurement (awake bootUp 3).env (awake bootUp 3).chip i).isSome) = true) := by decide +kernel

theorem meets_LampTransitions :
    (s0.quiet ∧ s0.chip.boot.stacksUp.getLsbD 3 = true ∧ s0.chip.boot.failed = false ∧ (lamp s0.chip 3).goal = none ∧ (lamp s0.chip 3).st = .lit ∧
      chooseLamp s0.chip 3 = .dark) ∧
    (let s := stOf ({ withJob { job0 with st := .loading } with lamps := [(0, { LampSt.reset with st := .dark }), (1, { LampSt.reset with goal := some .shade, st := .lit, till := 3000000 }), (2, { LampSt.reset with goal := some .lit, till := 3000000 }), (3, { LampSt.reset with goal := some .lit, till := 3000001 })] })
     s.quiet ∧ s.chip.boot.stacksUp.getLsbD 0 = true ∧ (lamp s.chip 0).goal = none ∧ (lamp s.chip 0).st ≠ .lit ∧ chooseLamp s.chip 0 = .lit ∧
      ((lamp s.chip 1).goal = some .shade ∧ Lamp.shade ≠ .lit ∧ (lamp s.chip 1).till ≤ s.chip.now) ∧
      ((lamp s.chip 2).goal = some .lit ∧ (lamp s.chip 2).till ≤ s.chip.now ∧ (∀ q ∈ s.chip.jobs, q.2.wts.held = [] ∧ q.2.ticks.edge = none)) ∧
      s.chip.now < (lamp s.chip 3).till) := by decide +kernel

theorem meets_MonitorFaults : (jobCmd { job0 with st := .loaded } (cmd 1 0 0 [])).quiet ∧
    (∀ q ∈ (jobCmd { job0 with st := .loaded } (cmd 1 0 0 [])).chip.jobs, q.2.ticks.attempts = []) ∧
    (∀ q ∈ (jobCmd { job0 with st := .loaded } (cmd 1 0 0 [])).chip.jobs, jobRunning q.2 = false) ∧
    ((jobCmd job0 (cmd 1 0 0 [])).quiet ∧ tfind (jobCmd job0 (cmd 1 0 0 [])).chip.jobs 5 = some job0 ∧ jobRunning job0 = true) := by decide +kernel

/-! Beacon: ticks, attempts, buoys, barriers. -/

def jobT (t : Ticks) : Job := { job0 with ticks := t }
def tk0 : Ticks := { Ticks.zero with due := 4, next := 4 }
/-- Job 5 on a package that does not lead it: package 1 leads, with the given ticks. -/
def jobF (t : Ticks) : Job := { job0 with ticks := t, place := { place0 with lead := 1, pkgs := [1, 0], sym := 1 } }
def stJ (j : Job) : State := stOf (withJob j)

theorem meets_MarksScheduleEdges :
    (let s := upBc (fun b => { b with phase := some ⟨3, 2990000, 26000⟩, lead := 16000 })
     s.quiet ∧ s.chip.beacon.role = 1 ∧ s.chip.beacon.phase = some ⟨3, 2990000, 26000⟩ ∧ s.chip.beacon.pending = none ∧ 2990000 + 26000 ≤ s.chip.now + s.chip.beacon.lead) ∧
    (let s := stOf { chip0 with ports := [(15, { Port.reset with st := .up, joined := true })]
                                beacon := { beacon0 with role := 0, pkg := 2, epoch := 7, origin := some 4, lead := 493 } }
     let m : Mark := ⟨4, 7, 26000, 4, 23077⟩
     s.quiet ∧ s.chip.beacon.role ≠ 1 ∧ (tget Port.reset s.chip.ports 15).joined = true ∧ markFollowed s.chip.beacon m = true ∧
      betterChoice s.chip.beacon m 15 (m.delay + 310000 + 2 * 23077) = false ∧ m.origin ≠ s.chip.beacon.pkg ∧
      psCycles (m.delay + 310000 + 2 * 23077) = 493 ∧ psCycles (m.delay + 310000 + 1 * 23077) < s.chip.beacon.lead ∧ betterChoice s.chip.beacon m 15 (m.delay + 310000 + 1 * 23077) = false ∧
      s.chip.beacon.lead ≤ psCycles (m.delay + 310000 + 2 * 23077) ∧ (tget Port.reset s.chip.ports 0).joined = false) ∧
    (let s := stOf { chip0 with ports := [(15, { Port.reset with st := .up, joined := true })]
                                beacon := { beacon0 with role := 1, pkg := 2, epoch := 7, origin := some 2, seen := some 4 } }
     let m : Mark := ⟨4, 7, 26000, 1, 0⟩
     s.quiet ∧ s.chip.beacon.role = 1 ∧ (tget Port.reset s.chip.ports 15).joined = true ∧ markFollowed s.chip.beacon m = true ∧
      betterChoice s.chip.beacon m 15 (m.delay + 310000) = false ∧ m.origin ≠ s.chip.beacon.pkg ∧ psCycles (m.delay + 310000 + 0 * 23077) < s.chip.beacon.lead) := by
  decide +kernel

theorem meets_EdgesFire :
    (let s := stOf { chip0 with beacon := { beacon0 with due := [⟨4, 3000000, 26000⟩] } }
     s.quiet ∧ edgeDue s.chip = some ⟨4, 3000000, 26000⟩ ∧ (∀ q ∈ s.chip.jobs, jobRunning q.2 = false ∧ q.2.ticks.attempts = [])) ∧
    (let j := jobF tk0
     let s := stOf { withJob j with beacon := { beacon0 with due := [⟨4, 3000000, 26000⟩] }, lamps := [(0, { LampSt.reset with st := .shade })] }
     s.quiet ∧ edgeDue s.chip = some ⟨4, 3000000, 26000⟩ ∧ s.chip.jobs = [(5, j)] ∧ edgesCount s.chip j = true ∧ isLead s.chip j = false ∧ j.ticks.attempts = [] ∧
      j.ticks.announce = none ∧ j.ticks.edge = none ∧ j.ticks.planned = none ∧ j.ticks.replayPlan = none ∧ j.wts.held = [] ∧ j.ticks.due = 4 ∧
      jobLit s.chip j = false ∧ onStack j.place.bands 0 = true ∧ (lamp s.chip 0).st ≠ .lit) := by decide +kernel

theorem meets_LighthouseWatch :
    (let s := upBc (fun b => { b with firedAt := some (3000000 - 39000) })
     s.quiet ∧ s.chip.beacon.lostSaid = false ∧ s.chip.beacon.inForce ≠ 0 ∧ 2 * (3000000 - 39000) + 3 * s.chip.beacon.inForce ≤ 2 * s.chip.now) ∧
    (let s := upBc (fun b => { b with role := 2, lostSaid := true, phase := some ⟨3, 3000000 - 52130, 26000⟩, choice := some (3, 0, 1) })
     s.quiet ∧ s.chip.beacon.lostSaid = true ∧ s.chip.beacon.role = 2 ∧ twoMissed s.chip.beacon s.chip.now = true ∧ s.chip.beacon.role ≠ 0 ∧
      s.chip.beacon.choice.isSome) ∧
    (let s := upBc (fun b => { b with role := 0, phase := some ⟨3, 3000000 - 52130, 26000⟩ })
     s.quiet ∧ s.chip.boot.halted = false ∧ s.chip.beacon.role = 0 ∧ s.chip.beacon.role ≠ 2 ∧ twoMissed s.chip.beacon s.chip.now = true ∧
      (∀ q ∈ s.chip.jobs, jobRunning q.2 = false)) := by decide +kernel

theorem meets_SettleAndVote :
    (let a : Attempt := { att0 with st := .settling, doneAt := 3000000 - Config.settle }
     let s := stJ (jobF { tk0 with attempts := [a] })
     s.quiet ∧ tfind s.chip.jobs 5 = some (jobF { tk0 with attempts := [a] }) ∧ isLead s.chip (jobF { tk0 with attempts := [a] }) = false ∧ a.st = .settling ∧
      a.doneAt + Config.settle ≤ s.chip.now ∧ badRow s.env s.chip (jobF { tk0 with attempts := [a] }) a = none ∧ s.chip.now < a.doneAt + 1 + Config.settle) ∧
    (let j := { jobT { tk0 with attempts := [att0] } with place := { place0 with pkgs := [0, 1] } }
     let v : VoteMsg := ⟨5, 1, 3, 0, true, 0, 0⟩
     let s := stJ j
     s.quiet ∧ tfind s.chip.jobs v.job = some j ∧ isLead s.chip j = true ∧ att0.tick = v.tick ∧ att0.ord = v.attempt ∧ j.place.pkgs.contains v.pkg = true ∧
      v.yes = true ∧ (∀ w ∈ j.ticks.votes, w.tick = v.tick → w.attempt = v.attempt → w.yes = true ∨ w.pkg = v.pkg) ∧
      (∃ p ∈ j.place.pkgs, p ≠ v.pkg ∧ ∀ w ∈ j.ticks.votes, w.tick = v.tick → w.attempt = v.attempt → w.pkg ≠ p)) := by decide +kernel

theorem meets_AbortsAndVerdicts :
    (let j := { jobT { tk0 with attempts := [{ att0 with tick := 2, startAt := 3000000 - 32500 }], next := 4 } with args := { job0.args with strict := true } }
     let s := stOf { withJob j with beacon := { beacon0 with firedAt := some (3000000 - 130 - hopsTime j) } }
     s.quiet ∧ tfind s.chip.jobs 5 = some j ∧ isLead s.chip j = true ∧ j.args.strict = true ∧ 2 + 1 < j.ticks.next ∧
      edgeCycle s.chip (j.ticks.due - (j.ticks.next - (2 + 1)) * j.args.m) + hopsTime j + 130 ≤ s.chip.now ∧
      0 < jobPeriod s.chip j ∧ 5 * jobPeriod s.chip j ≤ 4 * (s.chip.now - (3000000 - 32500))) ∧
    (let j := jobT { tk0 with attempts := [att0] }
     (stJ j).quiet ∧ tfind (stJ j).chip.jobs 5 = some j ∧ isLead (stJ j).chip j = true ∧ j.args.strict = false) ∧
    (let b := { att0 with tick := 4, ord := 1, runAhead := true }
     let j := jobF { tk0 with attempts := [att0, b], fails := 6 }
     let s := stJ j
     s.quiet ∧ tfind s.chip.jobs 5 = some j ∧ isLead s.chip j = false ∧ jobRunning j = true ∧ j.ticks.verdicts = [] ∧ j.args.strict = false ∧
      j.ticks.fails + 1 < j.args.abortLimit ∧ j.ticks.halt = false ∧ (∀ x ∈ [b], att0.tick ≤ x.tick) ∧
      (∀ x ∈ j.ticks.attempts, ¬(x.tick = 5 ∧ x.ord = 0))) := by decide +kernel

theorem meets_HoldsQueriesDiscards :
    (let w : VerdictMsg := ⟨5, 2, 0, .commit, [], 0, 0, 0, []⟩
     let a := { att0 with st := .votedYes, doneAt := 3000000 - 4 * Config.us, startAt := 3000000 - 39000 }
     let j := jobF { tk0 with attempts := [a], verdicts := [w] }
     let s := stJ j
     s.quiet ∧ tfind s.chip.jobs 5 = some j ∧ j.ticks.attempts = [a] ∧ a.held = false ∧ isLead s.chip j = false ∧ jobRunning j = true ∧
      j.ticks.announce ≠ some ⟨5, .replay, 3, 5, 0⟩ ∧ a.st = .votedYes ∧ a.doneAt + verdictBound j + Config.us ≤ s.chip.now ∧
      j.ticks.verdicts.find? (fun v => v.tick == 2 && v.attempt == 0) = some w ∧
      0 < jobPeriod s.chip j ∧ 3 * jobPeriod s.chip j ≤ 2 * (s.chip.now - a.startAt)) ∧
    (let j := jobF { tk0 with attempts := [{ att0 with startAt := 3000000 - 38999 }] }
     (stJ j).quiet ∧ att0.st ≠ .votedYes ∧ 2 * ((stJ j).chip.now - (3000000 - 38999)) < 3 * jobPeriod (stJ j).chip j) := by decide +kernel

theorem meets_PlansStartAttempts :
    (let m : PlanMsg := ⟨5, 4, 0, 1, 0, 64, 0⟩
     let j := jobF { tk0 with edge := some (4, 2999999) }
     let s := stJ j
     s.quiet ∧ tfind s.chip.jobs m.job = some j ∧ jobRunning j = true ∧ j.ticks.attempts = [] ∧ j.wts.held = [] ∧ j.decl.tiles = [] ∧ isLead s.chip j = false ∧
      j.ticks.gone.contains (m.tick, m.attempt) = false ∧ j.ticks.verdicts.any (fun v => v.tick == m.tick && v.attempt == m.attempt) = false ∧
      j.ticks.edge = some (4, 2999999) ∧ jobLit s.chip j = true ∧ j.ticks.replayPlan = none ∧ m.tick = 4 ∧ tk0.edge = none) ∧
    (let w : Announce := ⟨5, .replay, 3, 3, 10000⟩
     let j := jobF { tk0 with announce := some w, replayPlan := some plan0 }
     let s := stJ j
     s.quiet ∧ w.kind = .replay ∧ s.chip.boot.halted = false ∧ j.ticks.halt = false ∧ w.due ≤ s.chip.beacon.tick ∧ edgeCycle s.chip w.due + w.offset ≤ s.chip.now ∧
      jobLit s.chip j = true ∧ jobRunning j = true ∧ j.ticks.attempts = [] ∧ j.wts.held = [] ∧ j.decl.tiles = []) := by decide +kernel

/-! Buoys and barriers. Buoy 7 of stack 0 belongs to job 5, buoy 8 to job 6; group 2 has the cores of band 0 as members. -/

def bar0 : Bar := ⟨5, [(0, 1)], 9, [], 0, none⟩
def jobA : Job := jobT { tk0 with attempts := [att0] }
/-- The head of queue `q` of core 3, with buoys and barrier groups. -/
def slotB (q : Queue) (w : Nat) (v : Word) (b : Bar) : State :=
  stOf { withJob jobA with cores := [(3, setQueue Core.idle q [qslot w])], buoys := [(7, ⟨v, 5, 0⟩), (8, ⟨v, 6, 0⟩)], bars := [(2, b)] }
def bw (op : Nat) (fs : List (Nat × Nat)) : Nat := word op fs
/-- A core's first predicate, 1, is false: a slot under it is not enabled. -/
def P1 : Nat × Nat := (55, 1)
def onHead (s : State) (q : Queue) (op : Nat) : Bool := decide (s.quiet) && (headNow s.chip 3 q).any (fun x => opOf x.w == op) && enginePresent s.env s.chip 3 q
def enabled (s : State) (q : Queue) : Bool := (headNow s.chip 3 q).any (fun x => predOf (Machine.core s.chip 3) s.chip.now (sf x.w 57 55))

/-- One buoy operation in its turn, on buoy 7 with value `v`. -/
def turnSt (v : Word) (x : BuoyIn) : State :=
  stOf { withJob jobA with buoys := [(7, ⟨v, 5, 0⟩), (8, ⟨v, 6, 0⟩)], bars := [(2, bar0)], buoyq := [x] }
def opIn (r : Nat) (op : BuoyOp) (v : Word) (att : Nat) (eng : Nat) : BuoyIn := ⟨3000001, ⟨r, op, v, 5, 3, att, 0⟩, eng, noLw, 0⟩
/-- What its turn asks of the state: nothing else happens in the cycle. -/
def itsTurn (s : State) (x : BuoyIn) : Bool :=
  decide (s.quiet ∧ s.onlyBusy [] ∧ (∀ b ∈ s.chip.bars, b.2.fall = none) ∧ s.chip.buoyq = [x] ∧ x.at_ ≤ s.chip.now + 1)

theorem meets_BuoyOperations_arrival :
    (∀ op ∈ [BuoyOp.set, .add, .clear], (slotB .b 0 5 bar0).quiet ∧ refPkg 7 = (slotB .b 0 5 bar0).chip.beacon.pkg ∧
      (let x := opIn 7 op 0xFFFFFFFB#32 0 engRx
       let s := turnSt 5 x
       itsTurn s x = true ∧ (buoy s.chip (refLocal x.m.ref)).job = x.m.job ∧ x.m.job ≠ 0 ∧ currentAttempt s.chip x.m.job x.m.tick x.m.attempt = true)) ∧
    (0 ≤ (5#32).toNat + (0xFFFFFFFB#32).toInt ∧ (5#32).toNat + (0xFFFFFFFB#32).toInt < 2 ^ 32 ∧ (0xFFFFFFFE#32).toNat + (1#32).toInt < 2 ^ 32) ∧
    (let x := opIn 7 .add 1 1 engB
     let s := turnSt 5 x
     itsTurn s x = true ∧ (buoy s.chip 7).job = x.m.job ∧ currentAttempt s.chip x.m.job x.m.tick x.m.attempt = false) ∧
    (∀ r ∈ [8, 9], ∀ eng ∈ [engRx, engB], let x := opIn r .set 1 0 eng
      itsTurn (turnSt 5 x) x = true ∧ ((buoy (turnSt 5 x).chip (refLocal r)).job ≠ x.m.job ∨ (buoy (turnSt 5 x).chip (refLocal r)).job = 0)) := by decide +kernel

/-- A job that spans a second package, which declares buoys 16 to 19 of its stack 1. -/
def jobFar : Job := { jobA with place := { place0 with pkgs := [0, 1], far := [(1, 2 ^ 16 + 16, 4)] } }
def farRef (n : Nat) : Nat := 2 ^ 18 + 2 ^ 16 + n

theorem meets_BuoyOperations_slot :
    (∀ op ∈ [1, 2, 5], let s := slotB .b (bw op [(22, 7), (0, 1)]) 5 bar0
      (onHead s .b op && enabled s .b) = true ∧ refPkg 7 = s.chip.beacon.pkg ∧ buoyDeclared s.chip 3 7 = true) ∧
    (∀ op ∈ [1, 2, 5], let s := slotB .b (bw op [P1, (22, 7)]) 5 bar0; (onHead s .b op && !(enabled s .b)) = true) ∧
    (∀ op ∈ [1, 2, 5], ∀ r ∈ [8, 9], let s := slotB .b (bw op [(22, r)]) 5 bar0; (onHead s .b op && enabled s .b) = true ∧ buoyDeclared s.chip 3 r = false) ∧
    (∀ op ∈ [1, 2, 5], ∀ n ∈ [15, 16, 19, 20],
      let s := stOf { withJob jobFar with cores := [(3, setQueue Core.idle .b [qslot (bw op [(22, farRef n)])])] }
      (onHead s .b op && enabled s .b) = true ∧ refPkg (farRef n) ≠ s.chip.beacon.pkg ∧ buoyDeclared s.chip 3 (farRef n) = (n == 16 || n == 19)) := by decide +kernel

theorem meets_AddOutOfRangeIsBuoyWrap :
    ∀ eng ∈ [engRx, engB], ∀ v ∈ [(0, 2 ^ 32 - 1), (2 ^ 32 - 1, 1)], let x := opIn 7 .add (BitVec.ofNat 32 v.2) 0 eng
      let s := turnSt (BitVec.ofNat 32 v.1) x
      itsTurn s x = true ∧ currentAttempt s.chip x.m.job x.m.tick x.m.attempt = true ∧ (buoy s.chip (refLocal x.m.ref)).job = x.m.job ∧
        (buoy s.chip (refLocal x.m.ref)).val.toNat = v.1 ∧ ((0#32).toNat + (0xFFFFFFFF#32).toInt < 0 ∧ 0xFFFFFFFF < (0xFFFFFFFF#32).toNat + (1#32).toInt) := by
  decide +kernel

/-- A WAIT that holds the B queue of core 3, its release in cycle `t`. -/
def waitSt (t : Option Nat) : State :=
  stOf { withJob jobA with cores := [(3, { Core.idle with b := [qslot (bw 3 [(22, 7), (0, 5)])], bHeld := some 2999990, bFree := t })], buoys := [(7, ⟨5, 5, 0⟩)] }

theorem meets_BarriersAndWaits_arrival :
    (let s := slotB .b 0 5 bar0
     s.quiet ∧ (barAt s.chip 2).job ≠ 0 ∧ (barAt s.chip 2).job = 5 ∧ barRoot (barAt s.chip 2) = s.chip.beacon.pkg ∧ currentAttempt s.chip 5 3 0 = true ∧
      (barAt s.chip 2).arrived.contains 63 = false ∧ (∃ x ∈ barMembers (barAt s.chip 2), x ≠ 63 ∧ (barAt s.chip 2).arrived.contains x = false)) ∧
    (let s := slotB .b 0 5 { bar0 with arrived := List.range 63 }
     s.quiet ∧ (barAt s.chip 2).arrived.contains 63 = false ∧ (∀ x ∈ barMembers (barAt s.chip 2), x = 63 ∨ (barAt s.chip 2).arrived.contains x = true) ∧
      (barAt s.chip 2).arrived.contains 62 = true) ∧
    (let s := stOf { (slotB .b 0 5 { bar0 with members := [(0, 1), (1, 1)] }).chip with beacon := { beacon0 with pkg := 1 } }
     let b := barAt s.chip 2
     s.quiet ∧ b.job = 5 ∧ b.phase = 9 ∧ barRoot b ≠ s.chip.beacon.pkg ∧ currentAttempt s.chip 5 3 0 = true) ∧
    (∀ t ∈ [3000000, 3000001], let s := waitSt (some t)
     s.quiet ∧ (Machine.core s.chip 3).b = qslot (bw 3 [(22, 7), (0, 5)]) :: [] ∧ (Machine.core s.chip 3).bHeld = some 2999990 ∧
      (Machine.core s.chip 3).bFree = some t ∧ opOf (qslot (bw 3 [(22, 7), (0, 5)])).w = 3) ∧
    ((waitSt none).quiet ∧ (Machine.core (waitSt none).chip 3).bFree = none) := by decide +kernel

/-- Group 2 about to fall, core 3 of stack 0 and core 256 of stack 1 held in it. -/
def fallSt : State :=
  let k := { setQueue Core.idle .b [qslot (bw 6 [(22, 2)])] with bHeld := some 2999990 }
  stOf { withJob { jobA with place := { place0 with bands := 0x11 } } with cores := [(3, k), (256, k)], bars := [(2, { bar0 with members := [(0, 0x11)], fall := some 3000001 })] }

theorem meets_BarriersAndWaits_fall :
    (let s := fallSt
     s.quiet ∧ s.onlyBusy [] ∧ s.chip.buoyq = [] ∧ (∀ b ∈ s.chip.bars, b.1 ≠ 2 → b.2.fall = none) ∧ (barAt s.chip 2).fall = some 3000001 ∧
      3000001 ≤ s.chip.now + 1 ∧ (∀ i ∈ [3, 256], i ∈ barHere s.chip 2 ∧ heldAt (Machine.core s.chip i) 2 = true) ∧
      3000001 + Config.ring * ringHops (3 / 256) (rootStack (barAt s.chip 2)) ≤ s.chip.now + 1 ∧
      s.chip.now + 1 < 3000001 + Config.ring * ringHops (256 / 256) (rootStack (barAt s.chip 2))) ∧
    (∀ v ∈ [0, 4], let x : BuoyIn := { opIn 7 .testAndSet 1 0 engB with pd := 2 }
     let s := turnSt (BitVec.ofNat 32 v) x
     itsTurn s x = true ∧ x.m.op = .testAndSet ∧ (buoy s.chip 7).job = x.m.job ∧ x.m.job ≠ 0 ∧ currentAttempt s.chip x.m.job x.m.tick x.m.attempt = true) := by
  decide +kernel

theorem meets_BarriersAndWaits_slot :
    (let s := slotB .b (bw 4 [(22, 7), (52, 1)]) 0 bar0
     (onHead s .b 4 && enabled s .b) = true ∧ ownBuoy s.chip 3 7 = true ∧ sf (BitVec.ofNat 64 (bw 4 [(22, 7), (52, 1)])) 54 52 ≠ 0) ∧
    (let s := slotB .b (bw 3 [(22, 7), (0, 5)]) 5 bar0
     (onHead s .b 3 && enabled s .b) = true ∧ ownBuoy s.chip 3 7 = true ∧ sf (BitVec.ofNat 64 (bw 3 [(22, 7), (0, 5)])) 21 0 ≤ (buoy s.chip 7).val.toNat ∧
      (buoy (slotB .b 0 4 bar0).chip 7).val.toNat < 5) ∧
    (let s := slotB .b (bw 6 [(22, 2)]) 5 bar0
     (onHead s .b 6 && enabled s .b) = true ∧ sf (BitVec.ofNat 64 (bw 6 [(22, 2)])) 31 22 = 2 ∧ (barAt s.chip 2).job = jobOfCore s.chip 3 ∧ (barAt s.chip 2).job ≠ 0 ∧
      (barMembers (barAt s.chip 2)).contains (gca s.chip 3) = true ∧ barRoot (barAt s.chip 2) = s.chip.beacon.pkg ∧
      (barAt s.chip 2).arrived.contains (gca s.chip 3) = false ∧ (∃ x ∈ barMembers (barAt s.chip 2), x ≠ gca s.chip 3 ∧ (barAt s.chip 2).arrived.contains x = false)) := by
  decide +kernel

/-! Links and arrivals. -/

def tr0 : Training := ⟨true, 50, 0, false, 0, false⟩
def port1 : Port := { Port.reset with st := .up, joined := true }
def frame0 : Frame := ⟨0, false, 511, 0, 0, 0x400600000, 5, 1024, 0, 3, 0, List.replicate 512 7⟩
def link0 : LinkDecl := ⟨1, 1, 1, 16, 512, []⟩

theorem meets_PortsTrainAndJoin :
    let s := upP [(0, { Port.reset with st := .training, trainAt := 3000000 }), (15, port1), (14, { Port.reset with st := .down })]
    s.quiet ∧ (port s.env s.chip 0).st = .training ∧ trainCause (port s.env s.chip 0) tr0 = 0 ∧ (port s.env s.chip 0).fogTx.action = 0 ∧
    trainCause (port s.env s.chip 0) { tr0 with signal := false } ≠ 0 ∧
    (let t := stOf { s.chip with now := 3000000 + 200 * Config.ms }; t.quiet ∧ (port t.env t.chip 0).trainAt + 200 * Config.ms ≤ t.chip.now) ∧
    ((port s.env s.chip 15).st = .up ∧ (port s.env s.chip 15).st ≠ .training ∧ 0 = s.chip.beacon.domain.toNat ∧ 1 ≠ s.chip.beacon.pkg ∧
      false = (port s.env s.chip 15).width ∧ true ≠ (port s.env s.chip 15).width ∧ 1 ≠ s.chip.beacon.domain.toNat) ∧
    ((port s.env s.chip 14).st = .down ∧ (port s.env s.chip 14).st ≠ .up ∧ (port s.env s.chip 14).st ≠ .absent ∧ s.chip.boot.waving.getLsbD (14 % 4) = true ∧
      (port s.env s.chip 14).enable = true ∧ (port s.env s.chip 14).media < 2) := by decide +kernel

/-- Port 1 held by job 5 through its link table. -/
def jobL : Job := { job0 with place := { place0 with links := [link0] } }
def stL (p : Port) (fs : List Frame) : State := stOf { withJob jobL with ports := [(1, p)], egress := fs }

theorem meets_FramesLeave :
    (let s := stL port1 [{ frame0 with destPkg := 1 }]
     let p := port s.env s.chip 1
     s.quiet ∧ portOpen s.env s.chip 1 = true ∧ (displaced s.chip 1 0).1 = 0 ∧ (displaced s.chip 1 0).2.1 = false ∧ frameTime s.chip 1 0 frame0 ≤ s.chip.now ∧ p.relay = [] ∧
      s.chip.egress[0]? = some { frame0 with destPkg := 1 } ∧ p.fogTx.action = 0 ∧ p.swapTx = none ∧ frame0.cls ≠ 5 ∧ portHolder s.chip 1 = some frame0.tag ∧
      s.chip.now < frameTime s.chip 1 (10000 + (displaced s.chip 1 10000).1) frame0 ∧
      (controlCrc ⟨1, 0, 0, 0, 0, false⟩ < 2 ^ 16 ∧ controlCrc ⟨1, 0, 0, 0, 0, false⟩ + 1 ≠ controlCrc ⟨1, 0, 0, 0, 0, false⟩)) ∧
    (let s := stL port1 [{ frame0 with tag := 6 }]
     portOpen s.env s.chip 1 = true ∧ (port s.env s.chip 1).relay = [] ∧ s.chip.egress[0]? = some { frame0 with tag := 6 } ∧ frame0.cls ≤ 3 ∧ portHolder s.chip 1 ≠ some 6) ∧
    (let s := stL { port1 with waiting := [2990000] } [{ frame0 with destPkg := 1 }]
     portOpen s.env s.chip 1 = true ∧ (displaced s.chip 1 0).2.1 = true ∧ frameTime s.chip 1 (0 + (displaced s.chip 1 0).1) frame0 ≤ s.chip.now) := by decide +kernel

/-- A frame lost in slot 3, to be sent again; the reserve slots of link 1 are those with number 15 modulo 16. -/
def lostSt (nacks : List Nack) : State := stL { port1 with again := [⟨3, 3, frame0, 0⟩], nacks := nacks } []

theorem meets_FramesLeave_again :
    (let k : SentFrame := ⟨3, 3, frame0, 0⟩
     let s := lostSt []
     let p := port s.env s.chip 1
     s.quiet ∧ portOpen s.env s.chip 1 = true ∧ linkOf s.chip 1 = some link0 ∧ 0 < link0.period ∧ 511 % link0.period = link0.period - 1 ∧ p.reserve ≤ 511 ∧
      slotTime s.chip 1 511 ≤ s.chip.now ∧ p.again = [k] ∧ frameTime s.chip 1 (k.slot + resendGap (hopOf s.chip k.f.tag) p.width) k.f ≤ slotTime s.chip 1 511 ∧
      slotTime s.chip 1 511 ≤ frameTime s.chip 1 (k.slot + link0.window) k.f ∧
      p.fogTx.action = 0 ∧ p.swapTx = none) ∧
    (∀ x ∈ [((⟨9, 3, 3, 2990000⟩ : Nack), true), (⟨9, 2990, 2990, 2990000⟩, false)],
      let s := lostSt [x.1]
      linkOf s.chip 1 = some link0 ∧ portHolder s.chip 1 = some 5 ∧ (tget Port.reset s.chip.ports 1).nacks.find? (fun y => y.seq == 1033 % 1024) = some x.1 ∧
        retryDue s.chip 1 5 link0 x.1 = x.2) ∧
    (let j := { jobL with ticks := { tk0 with attempts := [att0] } }
     let s := stOf { withJob j with ports := [(1, { port1 with st := .down })] }
     s.quiet ∧ linkOf s.chip 1 = some link0 ∧ portHolder s.chip 1 = some 5 ∧ (tget Port.reset s.chip.ports 1).nacks = [] ∧
      (tget Port.reset s.chip.ports 1).st ≠ .up ∧ tfind s.chip.jobs 5 = some j ∧ newest j = some att0 ∧ att0.st = .running) := by decide +kernel

theorem meets_FramesArrive :
    (let s := stL port1 []
     let p := port s.env s.chip 1
     s.quiet ∧ p.st = .up ∧ frame0.cls < 8 ∧ s.chip.boot.ready = true ∧ p.joined = true ∧ p.fogRx.action = 0 ∧ p.swapRx = none ∧ frame0.retx = false ∧ frame0.cls < 5 ∧
      s.chip.now ≤ frameTime s.chip 1 3000 frame0 + hopOf s.chip frame0.tag ∧ p.hold = []) ∧
    (let s := stOf { (stL port1 []).chip with boot := { bootUp with ready := false } }; s.quiet ∧ s.chip.boot.ready = false) ∧
    ((stL port1 []).quiet ∧ (port (stL port1 []).env (stL port1 []).chip 1).hold = []) ∧
    (∀ tag ∈ [5, 6], let h : HeldFrame := ⟨{ frame0 with destAddr := 0x400600080 }, 3000000, 4⟩
     let s := stOf { (stL { port1 with hold := [h] } []).chip with cores := [(3, { Core.idle with wins := [(0, ⟨⟨true, false, 0, 32768, tag⟩, Window.closed, 1⟩)] })] }
     let p := port s.env s.chip 1
     let i := coreAt h.f.destAddr
     s.quiet ∧ p.hold.find? (fun h => decide (h.at_ ≤ s.chip.now)) = some h ∧ h.f.destPkg = s.chip.beacon.pkg ∧ h.f.cls = 0 ∧ h.f.wlen < 512 ∧ h.f.idx = 0 ∧
      h.f.payload.length = h.f.wlen + 1 ∧
      dropped s.chip h.f.tag ((frameAttempt s.chip h.f).getD (h.f.tick, h.f.attempt)).1 ((frameAttempt s.chip h.f).getD (h.f.tick, h.f.attempt)).2 = false ∧
      meshOff s.chip i = false ∧ p.xfers = [] ∧ landOk s.chip i h.f.tag h.f.destAddr (h.f.wlen + 1) = true ∧
      windowTakes s.chip i h.f.destAddr (h.f.wlen + 1) h.f.tag = (tag == 5)) := by decide +kernel

theorem meets_FramesArrive_crc : frameCrc frame0 + 1 ≠ frameCrc frame0 := by
  generalize frameCrc frame0 = n
  omega

theorem meets_BeaconFramesAndFog :
    (let s := stOf { (stL port1 []).chip with beacon := { beacon0 with copies := [(1, 6)] } }
     s.quiet ∧ (port s.env s.chip 1).st = .up ∧ (port s.env s.chip 1).joined = true ∧ (port s.env s.chip 1).fogRx.action = 0 ∧ s.chip.boot.ready = true ∧
      tfind s.chip.beacon.copies 1 = some (3 * 2) ∧ s.chip.now ≤ slotTime s.chip 1 3000 + msgHop s.chip 5 ∧ slotTime s.chip 1 0 + msgHop s.chip 5 < s.chip.now) ∧
    (∀ t ∈ [3000000, 3000001], ∀ d ∈ [everyPkg, 0, 3], let h : HeldMsg := ⟨t, 1, d, 2, .hold 5 3⟩
     let c := { withJob { jobL with place := { jobL.place with toward := [(3, 14)] } } with beacon := { beacon0 with held := [h] } }
     c.beacon.held = [h] ∧ (d ≠ 3 → d = everyPkg ∨ d = c.beacon.pkg) ∧
      (d = 3 → d ≠ everyPkg ∧ d ≠ c.beacon.pkg ∧ (tfind c.jobs (msgTagOf h.msg)).any (fun j => tfind j.place.toward d == some 14) = true)) ∧
    isJoin (.join ⟨0, 1, 0, 0, 0, false⟩) = true ∧
    (let s := stOf { (stL port1 []).chip with beacon := { beacon0 with copies := [(1, 7)] } }; s.quiet ∧ tfind s.chip.beacon.copies 1 = some (3 * 2 + 1)) ∧
    (let m := cmd 0x50 0 0 (leBytes 1 15 ++ leBytes 1 1 ++ leBytes 1 3)
     let s := stOf { chip0 with cmds := [m], ports := [(15, { port1 with part := 0, partEn := true })] }
     let t := stOf { s.chip with boot := { bootUp with test := true } }
     s.quiet ∧ Started s id9 0x50 m ∧ s.chip.boot.test = false ∧ t.quiet ∧ Started t id9 0x50 m ∧ t.chip.boot.test = true ∧ arg m 0x10 1 ≤ 15 ∧
      (port t.env t.chip 15).st ≠ .absent ∧ portBelongs t.chip 15 m.id.part = true ∧ arg m 0x11 1 ≤ 1 ∧ 1 ≤ arg m 0x12 1 ∧ arg m 0x12 1 ≤ 3 ∧ arg m 0x14 1 = 0) := by
  decide +kernel

def wr1 (a : Nat) : RemoteWrite := ⟨a, [7], 0, 5, 3, 0, 0⟩
/-- One arrival stands first at the ejection port of core 3, alone. -/
def ejectSt (j : Job) (f : Core → Core) (p : Arrival) (done : Nat) (ok : Bool) : State :=
  stOf { withJob j with cores := [(3, { f Core.idle with eject := [⟨3000000, p, done, ok⟩] })] }
def openWins (k : Core) : Core :=
  { k with wins := [(0, ⟨⟨true, false, 0, 32768, 5⟩, Window.closed, 1⟩), (1, ⟨⟨true, true, 0, 1, 5⟩, Window.closed, 1⟩)] }
/-- Job 5 with the first lines of the store of core 3 declared, too. -/
def jobN : Job := { jobA with decl := { decl0 with ranges := decl0.ranges ++ [⟨0x3000000, 128, .plain⟩] } }
def alone (s : State) : Bool :=
  decide (s.quiet ∧ s.syncStill ∧ s.onlyBusy [3] ∧ (Machine.core s.chip 3).still s.chip.now)

theorem meets_ZeroByteRemoteWrite : s0.quiet ∧ ([] : List Byte) = [] := by decide

theorem meets_RemoteWriteWindows :
    (s0.quiet ∧ (∀ a ∈ [0, 0x3FFFFFFFF, 0x400000000, 0x47FFFFFFF], inStore a = true ∨ inAnyNear a = true) ∧
      (∀ a ∈ [0x480000000, 0x8000000000], inStore a = false ∧ inAnyNear a = false)) ∧
    (∀ a ∈ [0x400600080, 0x400600FFF, 0x3000000, 0x300003F],
      let s := ejectSt jobN openWins (.write (wr1 a) a 1) 0 false
      (alone s = true ∧ (Machine.core s.chip 3).remq = []) ∧ (inStore a = true ∨ inAnyNear a = true) ∧ coreAt a = 3 ∧ beatLen a 1 = 1 ∧
        dropped s.chip 5 3 0 = false ∧ meshOff s.chip 3 = false ∧ windowTakes s.chip 3 a 1 5 = true ∧ landOk s.chip 3 5 a 1 = true) ∧
    (∀ a ∈ [0x400600000, 0x40060007F, 0x400601000],
      let s := ejectSt jobN openWins (.write (wr1 a) a 1) 0 false
      alone s = true ∧ windowTakes s.chip 3 a 1 5 = true ∧ landOk s.chip 3 5 a 1 = false) ∧
    (let s := ejectSt jobN openWins (.write (wr1 0x3000040) 0x3000040 1) 0 false
     alone s = true ∧ dropped s.chip 5 3 0 = false ∧ windowTakes s.chip 3 0x3000040 1 5 = false ∧
      windowTakes s.chip 3 0x300003F 2 5 = false ∧ windowTakes s.chip 3 0x400600080 1 6 = false) ∧
    (let s := ejectSt { jobN with ticks := { jobN.ticks with gone := [(3, 0)] } } openWins (.write (wr1 0x3000000) 0x3000000 1) 0 false
     alone s = true ∧ dropped s.chip 5 3 0 = true) := by decide +kernel

/-- Shelf 255 of core 3: four slots of eight lines; slot 3 is FULL. -/
def jobH : Job := { jobA with decl := { decl0 with shelves := [⟨3, 255, 16, 8, 4⟩], ranges := [⟨0x3000000, 64, .plain⟩] } }
def shelfW (n : Nat) : ShelfWrite := ⟨3, 255, n, List.replicate 512 9, 0, 5, 3, 0, noLw⟩

theorem meets_ShelvesAndRemoteReads :
    (∀ x ∈ [(0, 0, false), (0, 256, true), (3, 0, false)],
      let s := ejectSt jobH (fun k => { k with guards := [(255 * 8192 + 3, ⟨true, 5⟩)] }) (.shelf (shelfW x.1) 0 512) x.2.1 x.2.2
      (alone s = true ∧ (Machine.core s.chip 3).remq = []) ∧ jobOfCore s.chip 3 = 5 ∧ dropped s.chip 5 3 0 = false ∧ meshOff s.chip 3 = false ∧
        coreJob s.chip 3 = some jobH ∧ shelfOf jobH 3 255 = some ⟨3, 255, 16, 8, 4⟩ ∧ x.1 < 4 ∧ (shelfW x.1).data.length = 8 * 64 ∧ x.2.1 < 512 ∧ x.2.1 % 256 = 0 ∧
        guardFull (Machine.core s.chip 3) s.chip.now 255 x.1 = (x.1 == 3)) ∧
    (let s := stJ jobH
     s.quiet ∧ (∀ k < 64, inStore (0x3000000 + k) = true ∧ inRanges jobH (0x3000000 + k) = true) ∧ tfind s.chip.jobs 5 = some jobH ∧ dropped s.chip 5 3 0 = false ∧
      (∃ k < 2, inStore (0x300003F + k) = false ∨ inRanges jobH (0x300003F + k) = false) ∧ 0 < 64 ∧
      dropped (stJ { jobH with ticks := { jobH.ticks with gone := [(3, 0)] } }).chip 5 3 0 = true) ∧
    (∀ got ∈ [([] : List Byte), [1, 2]],
      let s := stOf { withJob jobH with cores := [(3, { Core.idle with remq := [.read ⟨0x30000FE, 4, 3, 5, 3, 0⟩ got] })] }
      alone s = true ∧ coreAt 0x30000FE = 3 ∧ (Machine.core s.chip 3).eject = [] ∧ got.length < 4 ∧ 3 / 1024 = s.chip.beacon.pkg ∧ s.chip.safe.ecc = [] ∧
        s.chip.safe.injCtl = 0 ∧ tfind s.chip.jobs 5 = some jobH) := by decide +kernel

/-- A row read for core 1,023 is ready to go. -/
def replySt : State := stOf { withJob jobH with cores := [(3, { Core.idle with replies := [(3000000, ⟨0x30000FE, 2, 1023, 5, 3, 0⟩, [1, 2])] })] }

theorem meets_ShelvesAndRemoteReads_reply :
    (replySt.quiet ∧ replySt.syncStill ∧ replySt.onlyBusy [3]) ∧
    (let k := Machine.core replySt.chip 3
     k.flights = [] ∧ k.a0.still ∧ k.a1.still ∧ k.eject = [] ∧ k.remq = [] ∧ k.replies = [(3000000, ⟨0x30000FE, 2, 1023, 5, 3, 0⟩, [1, 2])] ∧
      3000000 ≤ replySt.chip.now ∧ 1023 / 1024 = replySt.chip.beacon.pkg) := by decide +kernel

theorem meets_ScrubRules : s0.quiet ∧ 0 < rowWords true ∧ 136 < 137 ∧ s0.chip.boot.stacksUp.getLsbD (rowCore false 0 / 256) = true ∧ s0.chip.safe.ecc = [] ∧
    s0.chip.safe.fixes = [] ∧
    (let s := stOf { chip0 with now := 16000 * Config.ms }
     s.quiet ∧ s.chip.boot.stacksUp = 0xF#4 ∧ s.chip.safe.storeLate = false ∧ s.chip.safe.storePass + 16000 * Config.ms ≤ s.chip.now ∧ s.chip.safe.nearLate = false ∧
      s.chip.safe.nearPass + 1000 * Config.ms ≤ s.chip.now) ∧
    (let s := upS (fun x => { x with storeLate := true, nearLate := true }); s.quiet ∧ s.chip.safe.storeLate = true ∧ s.chip.safe.nearLate = true) := by decide +kernel

/-! Core slots: queue `q` of core 3 holds the word; `f` sets the rest of the core. -/

def slotC (j : Job) (f : Core → Core) (q : Queue) (w : Nat) : State :=
  stOf { withJob j with cores := [(3, f (setQueue Core.idle q [qslot w]))] }
def slotQ (q : Queue) (w : Nat) : State := slotC jobA id q w
/-- The head may issue with its engine there and opcode `op`, its predicate holds, and the fields of its word satisfy `p`. -/
def issues (s : State) (q : Queue) (op : Nat) (p : Dword → Bool) : Bool := onHead s q op && enabled s q && (headNow s.chip 3 q).any (fun x => p x.w)
def heads (s : State) (q : Queue) (op : Nat) (p : Dword → Bool) : Bool := onHead s q op && (headNow s.chip 3 q).any (fun x => p x.w)
def free (s : State) (sids : List Nat) : Bool := (claim s.chip 3 0 0 1 sids).1

theorem meets_IdleAndBadSlots :
    (∀ q ∈ [Queue.m0, .m1, .v, .s, .b], onHead (slotQ q 0) q 0 = true) ∧ (∀ q ∈ [Queue.m0, .m1, .v, .s, .b], s0.quiet ∧ headNow s0.chip 3 q = none) ∧
    (∀ q ∈ [Queue.m0, .m1, .v, .s, .b], issues (slotQ q (bw (queueTop q + 1) [])) q (queueTop q + 1) (fun w => decide (queueTop q < opOf w)) = true) ∧
    (∀ q ∈ [Queue.m0, .m1, .v, .s], let s := slotC { jobA with hdr := { hdr0 with engines := 0x10 } } id q 0
      s.quiet ∧ (headNow s.chip 3 q).isSome = true ∧ enabled s q = true ∧ enginePresent s.env s.chip 3 q = false) := by decide +kernel

/-- Tile formats 0 to 13 are the valid ones; a load of an MX tile comes from the store. -/
theorem meets_MatrixLoadsAndUses_loads :
    (let s := slotQ .m1 (bw 1 [(54, 13), (52, 0), (47, 31)])
     onHead s .m1 1 = true ∧ sf (qslot (bw 1 [(54, 13), (52, 0), (47, 31)])).w 57 54 = 13 ∧ (arrOf (Machine.core s.chip 3) 1).shadow = none ∧ free s [31] = true ∧
      coreJob s.chip 3 = some jobA) ∧
    (let s := slotQ .m0 (bw 1 [(54, 1), (52, 1)]); onHead s .m0 1 = true ∧ free s [0] = true) ∧
    (let s := slotQ .m0 (bw 1 [(54, 2), (52, 2), (47, 1), (42, 2)]); onHead s .m0 1 = true ∧ free s [1, 2] = true) ∧
    (let s := slotC jobA (fun k => { k with a0 := { MArray.empty with tiles := [(1, ⟨2, [], [], [], 0⟩)], shadow := some 1, next := 2 } }) .m0 (bw 1 [(54, 2)])
     onHead s .m0 1 = true ∧ (arrOf (Machine.core s.chip 3) 0).shadow ≠ none) ∧
    (∀ w ∈ [bw 1 [(54, 14)], bw 1 [(52, 3)], bw 1 [(52, 1), (54, 2)]], onHead (slotQ .m0 w) .m0 1 = true) := by decide +kernel

/-- A MUSE of 64 vectors, with SWAP or without, on an array that holds an active tile and a loaded one. -/
def useSt (sw tr : Nat) : State :=
  slotC jobA (fun k => { k with a0 := { MArray.empty with tiles := [(1, ⟨13, [], [], [], 0⟩), (2, ⟨13, [], [], [], 0⟩)], active := some 1, shadow := some 2, next := 3 } }) .m0
    (bw 2 [(54, 13), (50, sw), (49, tr), (47, tr), (45, tr), (32, 64), (27, 1), (20, 2), (15, 3), (10, 4)])

theorem meets_MatrixLoadsAndUses_uses :
    (∀ sw ∈ [0, 1], ∀ tr ∈ [0, 1], let s := useSt sw tr
      let k := arrOf (Machine.core s.chip 3) 0
      heads s .m0 2 (fun w => sf w 57 54 == 13 && sf w 26 25 != 3 && sf w 53 51 != 7 && sf w 50 50 == sw && sf w 49 49 == tr && sf w 47 47 == tr && sf w 45 45 == tr &&
          sf w 38 32 == 64 && sf w 31 27 == 1 && sf w 24 20 == 2 && sf w 19 15 == 3 && sf w 14 10 == 4) = true ∧
        free s [1, 2, 3, 4] = true ∧ pathAbsent s.env s.chip 3 4 = false ∧ coreJob s.chip 3 = some jobA ∧
        (if sw = 1 then k.shadow else k.active) = some (sw + 1) ∧ (tfind k.tiles (sw + 1)).any (fun t => cellQ t.fmt != 2) = true) ∧
    (let s := slotQ .m1 (bw 3 [(54, 13), (50, 9), (42, 1), (37, 1), (32, 2), (27, 3)])
     heads s .m1 3 (fun w => sf w 57 54 == 13 && sf w 53 50 == 9 && sf w 48 42 == 1 && sf w 49 49 == 0) = true ∧ pathAbsent s.env s.chip 3 5 = false ∧
      free s [1, 2, 3] = true) := by decide +kernel

theorem meets_MatrixDrains :
    (pathAbsent (slotQ .m0 0).env (slotQ .m0 0).chip 3 4 = false ∧ pathAbsent (slotQ .m0 0).env (slotQ .m0 0).chip 3 5 = false) ∧
    heads (slotQ .m0 (bw 2 [])) .m0 2 (fun w => decide (sf w 57 54 < 14) && sf w 26 25 != 3 && sf w 53 51 != 7 && sf w 49 49 == 0 && sf w 38 32 == 0) = true ∧
    heads (slotQ .m0 (bw 3 [])) .m0 3 (fun w => decide (sf w 57 54 < 14) && decide (sf w 53 50 < 14) && sf w 48 42 == 0) = true ∧
    heads (slotQ .m0 (bw 4 [])) .m0 4 (fun w => sf w 57 55 != 7 && sf w 45 39 == 0) = true ∧
    heads (slotQ .m0 (bw 5 [])) .m0 5 (fun w => sf w 56 54 != 7 && sf w 45 39 == 0) = true ∧
    (∀ dt ∈ [0, 6], let s := slotQ .m0 (bw 4 [(55, dt), (39, 64), (46, 63), (34, 1), (29, 2), (52, 1)])
      heads s .m0 4 (fun w => sf w 54 54 == 0 && sf w 57 55 == dt && sf w 45 39 == 64 && sf w 52 52 == 1) = true ∧ free s [1, 2] = true) ∧
    (let s := slotQ .m0 (bw 4 [(54, 1), (55, 2), (39, 48), (34, 1)])
     heads s .m0 4 (fun w => sf w 54 54 == 1 && sf w 57 55 == 2 && sf w 45 39 == 48 && sf w 52 52 == 0) = true ∧ pathAbsent s.env s.chip 3 5 = false ∧ free s [1] = true) ∧
    (∀ n ∈ [1, 64], let s := slotQ .m1 (bw 5 [(39, n), (33, 1)]); heads s .m1 5 (fun w => sf w 57 57 == 0 && sf w 45 39 == n) = true ∧ free s [1] = true) ∧
    (let s := slotQ .m1 (bw 5 [(57, 1), (54, 2), (52, 1), (39, 64), (38, 1), (33, 1), (28, 2), (23, 3)])
     heads s .m1 5 (fun w => sf w 57 57 == 1 && sf w 56 54 == 2 && sf w 52 52 == 1 && sf w 45 39 == 64) = true ∧ free s [1, 2, 3] = true) := by decide +kernel

/-- An MDRAIN of entry 5 of array 0 of core 3, to binary32, whose one drain may leave. -/
def drainFl : Flight := ⟨1, qslot (bw 4 [(39, 1), (46, 5)]), 0, 0, 2999990, [], 0, [⟨0, .stay⟩], [], [], [], 0⟩
def drainSt : State :=
  stOf { withJob jobA with cores := [(3, { Core.idle with
    flights := [drainFl], nextId := 2, a0 := { MArray.empty with acc := [(5, [Lane.zero]), (6, [Lane.zero])], drains := [⟨1, 0, 5, false, none, 0⟩] } })] }

theorem meets_MatrixDrains_leave :
    (drainSt.quiet ∧ drainSt.syncStill ∧ drainSt.onlyBusy [3]) ∧
    (let k := Machine.core drainSt.chip 3
     let m := arrOf k 0
     k.eject = [] ∧ k.remq = [] ∧ k.flights = [drainFl] ∧ drainFl.id = 1 ∧ opOf drainFl.slot.w = 4 ∧ drainFl.todo = [⟨0, .stay⟩] ∧ sf drainFl.slot.w 57 55 < 6 ∧
      (arrOf k 1).still ∧ m.wave = [] ∧ m.loads = [] ∧ m.frozeAt = none ∧ m.drains = [⟨1, 0, 5, false, none, 0⟩] ∧
      (tget [] m.acc 5).length ≤ 48) := by decide +kernel

/-- A job whose core 3 has chain 2 with no stage, complex or not, and element program 1 with one empty word. Chain 3 names a format of input A, which it does not read; chain 4 writes binary32. -/
def jobV (cx : Nat) : Job := { jobA with decl := { decl0 with
  chains := [(3 * 64 + 2, leBytes 1 0 ++ leBytes 1 (cx * 128) ++ List.replicate 62 0), (3 * 64 + 3, leBytes 2 0 ++ leBytes 2 14 ++ List.replicate 60 0),
    (3 * 64 + 4, leBytes 4 0 ++ leBytes 1 14 ++ List.replicate 59 0)], progs := [(3 * 16 + 1, ⟨[], [], [], [0]⟩)] } }
/-- A V slot under predicate 0 (true) or 1 (false). -/
def vAt (cx p op : Nat) (fs : List (Nat × Nat)) : State := slotC (jobV cx) id .v (bw op ((55, p) :: fs))
def runs? (s : State) (op : Nat) (p : Dword → Bool) : Bool := heads s .v op p && free s [0]

theorem meets_VectorSlots :
    (∀ cx ∈ [0, 1], (chainOf (vAt cx 0 1 []).chip 3 2).any (fun c => c.complex == (cx == 1) && !(strayFormat c false) && !(strayFormat c true)) = true) ∧
    (runs? (vAt 0 0 1 [(49, 3)]) 1 (fun w => sf w 54 49 == 3) = true ∧ (chainOf (vAt 0 0 1 []).chip 3 3).any (fun c => strayFormat c false) = true) ∧
    (∀ p ∈ [0, 1],
      (enabled (vAt 0 p 1 []) .v == (p == 0)) = true ∧
      (∀ cx ∈ [0, 1], runs? (vAt cx p 1 [(49, 2), (31, 2 ^ 18 - 1)]) 1 (fun w => sf w 54 49 == 2 && sf w 48 31 == 2 ^ 18 - 1) = true) ∧
      runs? (vAt 0 p 1 [(49, 2)]) 1 (fun w => sf w 48 31 == 0) = true ∧
      (runs? (vAt 0 p 2 [(51, 1), (33, 1)]) 2 (fun w => sf w 54 51 == 1 && sf w 50 33 == 1) = true ∧
        (tfind (jobV 0).decl.progs (3 * 16 + 1)).any (fun q => decide (0 < q.words.length)) = true) ∧
      runs? (vAt 0 p 3 [(49, 2), (46, 3), (24, 2 ^ 16 - 1), (15, 1)]) 3 (fun w => sf w 54 49 == 2 && sf w 48 46 == 3 && sf w 39 24 == 65535 && sf w 23 15 == 1) = true ∧
      runs? (vAt 0 p 5 [(35, 65535), (26, 1)]) 5 (fun w => sf w 50 35 == 65535 && sf w 34 26 == 1) = true ∧
      (∀ md ∈ [0, 1, 2], runs? (vAt 0 p 6 [(53, md)]) 6 (fun w => sf w 54 53 == md) = true) ∧ runs? (vAt 0 p 7 [(52, 7)]) 7 (fun w => sf w 54 52 == 7) = true) ∧
    runs? (vAt 0 0 3 [(49, 2), (46, 4), (40, 63), (24, 0), (15, 1)]) 3 (fun w => sf w 48 46 == 4 && sf w 45 40 == 63 && sf w 39 24 == 0) = true ∧
    (∀ g ∈ [2, 4, 8, 16, 32, 64], runs? (vAt 0 0 4 [(53, 1), (39, g - 1), (15, 1)]) 4 (fun w => sf w 54 53 == 1 && sf w 52 51 != 3 && sf w 50 39 + 1 == g && sf w 26 15 == 1) = true) ∧
    (∀ x ∈ [(0, 192), (2, 4096)], runs? (vAt 0 0 4 [(53, x.1), (39, x.2 - 1), (27, 31), (15, 1)]) 4 (fun w => sf w 54 53 == x.1 && sf w 50 39 + 1 == x.2 && sf w 38 27 + 1 == 32 &&
      x.2 % 32 == 0 && x.2 % 64 == 0) = true) := by
  decide +kernel

/-- A V slot in flight whose one act computes its first unit now, after element 0 of its operand was read. -/
def calcFl (w outs : Nat) : Flight :=
  let o : OpStr := ⟨0, Bind.none, 32, none, .nearOnly, none, none, [], 0, [⟨0x3F800000, none, none⟩]⟩
  ⟨1, qslot w, 0, 2, 2999999, [o, { o with got := [] }], outs, [⟨3000000, .calc 0⟩], [], [], [], 0⟩
def calcSt (w outs : Nat) : State := slotC (jobV 0) (fun k => { k with flights := [calcFl w outs], nextId := 2 }) .v 0

theorem meets_VectorSlots_calc :
    ∀ x ∈ [(bw 7 [(52, 7)], 1), (bw 1 [(49, 4), (31, 64)], 0)], let s := calcSt x.1 x.2
      let k := Machine.core s.chip 3
      (s.quiet ∧ s.syncStill ∧ s.onlyBusy [3]) ∧ k.eject = [] ∧ k.remq = [] ∧ k.flights = [calcFl x.1 x.2] ∧ k.a0.still ∧ k.a1.still ∧
        (calcFl x.1 x.2).todo = [⟨s.chip.now, .calc 0⟩] ∧ ((calcFl x.1 x.2).ops[x.2]?).isSome = true ∧
        (opOf (qslot x.1).w = 7 ∨ (opOf (qslot x.1).w = 1 ∧
          (chainOf s.chip 3 (sf (qslot x.1).w 54 49)).any (fun c => !(c.complex) && !(c.eEn) && c.ofmt.getD 0 0 == 14) = true)) := by decide +kernel

theorem meets_SlotStoresStayHome : (calcSt 0 0).quiet ∧ (calcSt 0 0).syncStill ∧ (calcSt 0 0).onlyBusy [3] ∧
    (let k := Machine.core (calcSt 0 0).chip 3
     let f := calcFl 0 0
     k.eject = [] ∧ k.remq = [] ∧ k.replies = [] ∧ k.flights = [f] ∧ f.eng ≤ 2 ∧ (∀ o ∈ f.ops, o.reach = .nearOnly) ∧ f.todo = [⟨3000000, .calc 0⟩]) := by decide +kernel

/-- Job 5 with descriptor 255 of core 3 all zeros. -/
def jobB : Job := { jobA with decl := { decl0 with descs := [(3 * 256 + 255, List.replicate 64 0)] } }
/-- A host-tier move of one byte to address `a`, of tick `n`, that holds streams 1 and 2. -/
def hmove (a n : Nat) : HostMove := ⟨[1, 2], [(a, [1])], false, 0, 8, 0, n, false⟩

theorem meets_StreamsAndMoves_bind :
    ∀ b ∈ [false, true], let s := slotC jobB (fun k => { k with moves := if b then [{ hmove 0x400600000 3 with sids := [31] }] else [] }) .s (bw 1 [(50, 31), (42, 255)])
      issues s .s 1 (fun w => sf w 54 50 == 31 && sf w 49 42 == 255 && sf w 41 40 != 3) = true ∧ descOk (parseDesc (List.replicate 64 0)) = true ∧
        coreJob s.chip 3 = some jobB ∧ busy (Machine.core s.chip 3) 31 = b ∧
        (let t := slotC jobB (fun k => { k with moves := if b then [hmove 0x400600000 3] else [] }) .s (bw 2 [(50, 1), (29, 1)])
         issues t .s 2 (fun w => sf w 29 29 == 1 && sf w 54 50 == 1) = true ∧ busy (Machine.core t.chip 3) 1 = b) := by decide +kernel

theorem meets_StreamsAndMoves :
    (∀ y ∈ [0, 1], let s := slotQ .s (bw 3 [(18, y)])
     issues s .s 3 (fun w => sf w 44 43 == 0 && sf w 42 41 == 0 && sf w 36 19 == 0 && sf w 18 18 == y) = true ∧ (Machine.core s.chip 3).moveReady ≤ s.chip.now) ∧
    (let s := slotC jobB id .s (bw 3 [(50, 1), (45, 2), (39, 3), (19, 2 ^ 18 - 1)])
     issues s .s 3 (fun w => sf w 44 43 == 0 && sf w 42 41 == 0 && sf w 36 19 == 2 ^ 18 - 1 && sf w 54 50 == 1 && sf w 49 45 == 2) = true ∧ free s [1, 2] = true ∧
      coreJob s.chip 3 = some jobB ∧ (bindOf (streamOf (Machine.core s.chip 3) 2) s.chip.now).kind ≠ 3 ∧ (Machine.core s.chip 3).moveReady ≤ s.chip.now) ∧
    (let w := bw 3 [(50, 1), (45, 2), (19, 64)]
     let j := { jobB with decl := { decl0 with shelves := [⟨3, 255, 16, 1, 4⟩] } }
     let s := slotC j (fun k => { k with streams := [(2, ⟨⟨3, [], 0, 255, 3, false, 3, 0, none⟩, Bind.none, 0⟩)] }) .s w
     let b := bindOf (streamOf (Machine.core s.chip 3) 2) s.chip.now
     issues s .s 3 (fun w => sf w 36 19 == 64) = true ∧ free s [1, 2] = true ∧ b.kind = 3 ∧ (Machine.core s.chip 3).moveReady ≤ s.chip.now ∧
      (boundShelf j 3 b).any (fun x => decide (b.slot < x.slots) &&
        (moveShape (qslot w).w).2.2.2 * (moveShape (qslot w).w).2.2.1 / 8 == x.lines * 64) = true) ∧
    (let s := slotC jobA (fun k => { k with moveReady := 3000001 }) .s (bw 3 [(19, 1)])
     s.quiet ∧ (Machine.core s.chip 3).s = [qslot (bw 3 [(19, 1)])] ∧ sf (qslot (bw 3 [(19, 1)])).w 36 19 ≠ 0 ∧ s.chip.now < (Machine.core s.chip 3).moveReady) ∧
    (∀ n ∈ [3, 2], let m := hmove 0x400600000 n
     let s := slotC { jobA with ticks := { jobA.ticks with gone := [(2, 0)] } } (fun k => { k with moves := [m] }) .s 0
     s.quiet ∧ (Machine.core s.chip 3).moves = m :: [] ∧ m.notify = false ∧ (∀ x ∈ m.dst, linkWaits s.chip x.1 = false) ∧
      goneAttempt s.chip (jobOfCore s.chip 3) m.tick m.attempt = (n == 2)) ∧
    (let m := hmove Config.aperture 3
     let s := stOf { (slotC jobA (fun k => { k with moves := [m] }) .s 0).chip with boot := { bootUp with pcieUp := false } }
     s.quiet ∧ (Machine.core s.chip 3).moves = m :: [] ∧ (∃ x ∈ m.dst, linkWaits s.chip x.1 = true)) ∧
    (∀ w ∈ [bw 3 [(43, 1), (41, 1)], bw 3 [(43, 1), (39, 3)], bw 3 [(37, 3)]], issues (slotQ .s w) .s 3 (fun w => (sf w 44 43 != 0 && sf w 42 41 != 0) || (sf w 44 43 != 0 && sf w 40 39 == 3) || sf w 38 37 == 3) = true ∧
      (Machine.core (slotQ .s w).chip 3).moveReady ≤ (slotQ .s w).chip.now) ∧
    ((slotQ .s 0).quiet ∧ (Machine.core (slotQ .s 0).chip 3).moves = []) := by decide +kernel

/-- Context 0 running at the start of its region, whose first long word is a header with one B slot and WAIT 255. -/
def ctxRun : Ctx := { Ctx.free with job := 5, bands := 1#16, region := (0, 16), run := true, nextAt := 3000000 }
def stK : State :=
  { stOf { withJob jobA with ctxs := [(0, ctxRun)] } with mem := Memory.writeBytes [] (Config.progBase 0) (leBytes 4 0xFF10) }

theorem meets_LongWordBroadcast :
    let t := ctx stK.chip 0
    let h := leNat ((List.range 4).map (fun k => stK.byte (Config.progBase (0 / 4) + t.pc + k)))
    stK.quiet ∧ t.run = true ∧ t.nextAt ≤ stK.chip.now ∧ t.sent - t.back < 32 ∧ inRegion t t.pc = true ∧ slotCount (bitsOf h 5 0) = 1 ∧
      t.pc + 4 + 8 * slotCount (bitsOf h 5 0) ≤ t.region.1 + t.region.2 ∧ stK.chip.safe.ecc = [] ∧ stK.chip.safe.injCtl = 0 ∧ bitOf h 5 = false ∧ t.loops = [] ∧
      (ctx stK.chip 15).run = false := by decide +kernel

/-- A word with one B slot, and one with the C slot END alone. -/
def fword (b : Nat) (w : Nat) : FWord :=
  ⟨BitVec.ofNat 32 (2 ^ b), [BitVec.ofNat 64 w], 0, 2999999, wordCrc (BitVec.ofNat 32 (2 ^ b)) [BitVec.ofNat 64 w], true⟩
def stT (w : FWord) (f : Core → Core) : State :=
  stOf { withJob jobA with ctxs := [(0, { ctxRun with sent := 1 })], cores := (3, f { Core.idle with fifo := [w] }) :: [] }

theorem meets_TakesAndCredits :
    (let w := fword 4 0
     let s := stT w (fun k => { k with lastLw := some 0, lastTake := 2999989, lastWait := 10, b := List.replicate 7 (qslot 0) })
     s.quiet ∧ s.chip.safe.injCtl = 0 ∧ (Machine.core s.chip 3).fifo = w :: [] ∧ (Machine.core s.chip 3).dead = false ∧ (Machine.core s.chip 3).ended = false ∧
      w.intact = true ∧ w.arrive + 1 ≤ s.chip.now ∧ (Machine.core s.chip 3).lastTake + 1 + (Machine.core s.chip 3).lastWait ≤ s.chip.now ∧
      hasRoom (Machine.core s.chip 3) w = true ∧ w.hdr.getLsbD 5 = false) ∧
    (let w := fword 5 (word 1 [])
     let s := stT w id
     s.quiet ∧ hasRoom (Machine.core s.chip 3) w = true ∧ (wordSlots w).find? (fun p => p.1 == 5) = some (5, BitVec.ofNat 64 (word 1 [])) ∧
      opOf (BitVec.ofNat 64 (word 1 [])) = 1 ∧ sf (BitVec.ofNat 64 (word 1 [])) 57 55 = 0) ∧
    (let w := { fword 4 0 with arrive := 3000001 }; (stT w id).quiet ∧ (stT w id).chip.now < w.arrive) ∧
    (let w := { fword 4 0 with crc := (fword 4 0).crc + 1, checked := false }; (stT w id).quiet ∧ w.intact = false ∧ w.arrive ≤ (stT w id).chip.now) ∧
    (let s := stOf { (stT (fword 4 0) id).chip with cores := (List.range 64).map (fun i => (i, { Core.idle with fifo := [fword 4 0], takeTimes := [2999990] })) }
     s.quiet ∧ (ctx s.chip 0).back < (ctx s.chip 0).sent ∧ ctxCores (ctx s.chip 0) ≠ [] ∧ (Machine.core s.chip 3).fifo = fword 4 0 :: [] ∧
      (∀ k ∈ ctxCores (ctx s.chip 0), (Machine.core s.chip k).takeTimes = [2999990] ∧ 2999990 + 10 ≤ s.chip.now)) ∧
    (let s := stT (fword 4 0) (fun k => { k with b := List.replicate 8 (qslot 0), bHeld := some 2999899, v := [⟨0, 8, 2999900⟩] })
     s.quiet ∧ coreJob s.chip 3 = some jobA ∧ (holdSince (Machine.core s.chip 3) s.chip.now 4).any (fun x => decide (jobA.hdr.stall < s.chip.now + 1 - x.1)) = true ∧
      (holdSince (Machine.core s.chip 3) s.chip.now 2).any (fun x => decide (s.chip.now + 1 - x.1 ≤ jobA.hdr.stall)) = true ∧
      (holdSince (Machine.core s.chip 3) s.chip.now 5).any (fun x => decide (s.chip.now + 1 - x.1 ≤ jobA.hdr.stall)) = true) := by decide +kernel

/-! Programs and weights. H: the first byte of the host store. -/

def H : Nat := Config.hostStore
/-- The package with job, a started command and bytes in the host store. -/
def cmdM (j : Job) (m : Cmd) (mem : Memory) : State := { jobCmd j m with mem := mem }
def aimed (s : State) (op : Nat) (m : Cmd) (j : Job) : Bool := decide (s.quiet ∧ Started s id9 op m ∧ Aimed s m 5 j)

/-- A one-package program image: one idle variant, no relocations, one code-table slot; its digest by SHA-384 (FIPS 180-4). -/
def imgBytes : List Byte :=
  leBytes 2 0x40 ++ leBytes 1 1 ++ leBytes 1 1 ++ leBytes 4 0x3F ++ leBytes 2 1 ++ leBytes 2 1 ++ leBytes 4 100 ++ leBytes 2 31 ++ leBytes 2 1 ++ leBytes 12 0 ++
    leBytes 8 28 ++ leBytes 8 256 ++ leBytes 8 272 ++ leBytes 8 256 ++ leBytes 16 0 ++
    beBytes 48 0x515d81c86dff2c34588a82548d0553aee56f185254d4a602470c96d6ca31b2c71a0a81c3d053d6488acaa4492a7c37e9 ++ leBytes 128 0 ++ leBytes 16 0 ++ leBytes 8 280 ++ leBytes 4 0
/-- One context on stack 0 with band position 0, a plan area, no descriptors. -/
def block0 : PkgBlock := ⟨[⟨0, 0, 1, false, [0], List.replicate 4 0, 280⟩], [], [], [], [], [], [], [⟨0, 192, .plan 64 0⟩], ⟨0, 0, 1, 0, 0, []⟩, [], [], 4096⟩
def loadCmd0 : Cmd := cmd 1 0 0 (leBytes 8 (H + 4096) ++ leBytes 8 (H + 8192) ++ leBytes 8 H ++ leBytes 8 4096)
/-- The placement asks for band `b`. -/
def loadSt (b : Nat) : State :=
  { stOf { chip0 with cmds := [loadCmd0] } with
    mem := Memory.writeBytes (Memory.writeBytes [] (H + 4096) imgBytes) (H + 8192) (leBytes 2 1 ++ leBytes 6 0 ++ leBytes 4 0 ++ leBytes 8 b) }
def loadReq (s : State) : LoadReq :=
  let rdP := fun (o n : Nat) => rdBytes s.env s.chip (H + 8192 + o) n
  let img := readImg (fun o n => rdBytes s.env s.chip (H + 4096 + o) n)
  let lays := (List.range img.npkg).map (layAt rdP)
  ⟨loadCmd0, img, H + 8192, [block0], [], lays, (lays.map (fun l => l.pkg)).idxOf 0, [], none, rdP 0 8,
    codeStands (fun o n => rdBytes s.env s.chip (H + 4096 + o) n) img.body [block0]⟩

/-- The same with two bits flipped in the word at an address. -/
def struckAt (s : State) (a : Nat) : State := stOf { s.chip with safe := { s.chip.safe with ecc := [(a / 16, [0, 1])] } }

theorem meets_ProgramsLoad :
    (let s := loadSt 1
     let q := loadReq s
     s.quiet ∧ Started s id9 0x01 loadCmd0 ∧ arg loadCmd0 0x10 8 = H + 4096 ∧ arg loadCmd0 0x18 8 = H + 8192 ∧ arg loadCmd0 0x20 8 = H ∧ arg loadCmd0 0x28 8 = 4096 ∧
      bufferOk s.chip [0] (H + 4096) 256 = true ∧ bufferOk s.chip [0] (H + 8192) 8 = true ∧ bufferOk s.chip [0] H 4096 = true ∧ q.img.here = true ∧
      bufferOk s.chip [0] (H + 4096) (256 + q.img.body) = true ∧ bufferOk s.chip [0] (H + 8192) (8 + 16 * q.img.npkg) = true ∧
      spansBad s.chip [(H + 4096, 256 + q.img.body), (H + 8192, 8 + 16 * q.img.npkg)] = false ∧ spansBad (struckAt s (H + 4096)).chip [(H + 4096, 256 + q.img.body)] = true ∧
      deciding 0 (ownCheck s.env s.chip q) [] = none ∧
      (allocate s.chip q.img q.block q.lay (q.parts s.chip) []).any (fun al => (relocated q al).isSome) = true) ∧
    deciding 0 (ownCheck (loadSt 2).env (loadSt 2).chip (loadReq (loadSt 2))) [] = some (0, .invalidArg) ∧
    bufferOk s0.chip [0] 0 256 = false := by decide +kernel

/-- The same, its image of format `f` with BODY_LENGTH `n`. -/
def imgSt (f n : Nat) : State :=
  { loadSt 1 with mem := Memory.writeBytes (Memory.writeBytes (loadSt 1).mem (H + 4096) (leBytes 2 f)) (H + 4096 + 0x20) (leBytes 8 n) }

theorem meets_ProgramsLoad_header :
    (let s := imgSt 0x41 (2 ^ 40)
     s.quiet ∧ Started s id9 0x01 loadCmd0 ∧ bufferOk s.chip [0] (H + 4096) 256 = true ∧ (readImg (fun o n => rdBytes s.env s.chip (H + 4096 + o) n)).here = false ∧
      spansBad s.chip [(H + 4096, 256), (H + 8192, 8)] = false) ∧
    (let s := imgSt 0x40 (2 ^ 40)
     let img := readImg (fun o n => rdBytes s.env s.chip (H + 4096 + o) n)
     s.quiet ∧ Started s id9 0x01 loadCmd0 ∧ img.here = true ∧ bufferOk s.chip [0] (H + 4096) (256 + img.body) = false) := by decide +kernel

theorem meets_ProgramsLoad_written :
    let j := { job0 with st := .loading, loadCmd := some id9 }
    (stJ j).quiet ∧ tfind (stJ j).chip.jobs 5 = some j ∧ j.st = .loading ∧ j.loadCmd = some id9 ∧ jobLit (stJ j).chip j = true ∧
      jobLit { (stJ j).chip with lamps := [] } j = false := by decide +kernel

/-- A weight image at H with one section for layer 0, whose tile group is empty: DATA_DIGEST `d`, version `v`. -/
def wimg (v d : Nat) : Memory :=
  Memory.writeBytes (Memory.writeBytes [] H (leBytes 2 1 ++ leBytes 2 0 ++ leBytes 4 1 ++ leBytes 8 0 ++ leBytes 4 v ++ leBytes 236 0 ++ leBytes 8 512)) (H + 512)
    (leBytes 4 0 ++ leBytes 4 0 ++ leBytes 8 0 ++ leBytes 8 512 ++ leBytes 8 0 ++ leBytes 8 512 ++ leBytes 8 512 ++ leBytes 8 512 ++ leBytes 4 v ++ leBytes 4 0 ++ beBytes 48 d)
/-- SHA-384 of no bytes (FIPS 180-4). -/
def zeroDigest : Nat := 0x38b060a751ac96384cd9327eb1b1e36a21fdb71114be07434c0cc7bf63f6e1da274edebfe76f65fbd51ad2f14898b95b
def jobW : Job := { jobA with decl := { decl0 with tiles := [⟨3, 0, 4, 0, 0, 0x3010000, 0⟩] }, place := { place0 with layout := [⟨0, 0, 0, 0, 0⟩], cabLayout := [⟨0, 0, 0, 0, 0⟩] } }
def imgCmd : Cmd := cmd 2 0 jh (leBytes 8 H ++ leBytes 4 0 ++ leBytes 4 1)

/-- A job that runs, in another state. -/
def jobW1 : Job := { jobW with st := .loaded }

theorem meets_ImagesLoad :
    (let s := cmdM jobW1 imgCmd (wimg 6 zeroDigest)
     let j := jobW1
     let own := ownSecs s.env s.chip j H [0]
     let xs := own.map (fun x => Carried.here s.env s.chip x.2.1 x.2.2)
     let g := readWImg s.env s.chip j H
     s.quiet ∧ Started s id9 0x02 imgCmd ∧ jobOf s.chip jh = some (5, j) ∧ j.place.parts.contains 0 = true ∧ programHere j = true ∧ jobRunning j = false ∧
      j.clearing = false ∧ arg imgCmd 0x10 8 = H ∧ arg imgCmd 0x18 4 = 0 ∧ arg imgCmd 0x1C 4 = 1 ∧ arg imgCmd 0x20 1 = 0 ∧ tierStatus s.chip j.place.parts .invalidArg H 256 = none ∧
      g.ok = true ∧ 0 + 1 ≤ g.count ∧ (imageExtents j.place.layout H g.count ([0].map (fun k => readSec s.env s.chip (secAddr s.env s.chip H k)))).findSome? (fun x => tierStatus s.chip j.place.parts .invalidArg x.1 x.2) = none ∧
      secStatus s.env s.chip j 0 g.version false ([0].map (fun k => readSec s.env s.chip (secAddr s.env s.chip H k))) xs = none ∧ own.length = 1 ∧
      (let secs := [0].map (fun k => readSec s.env s.chip (secAddr s.env s.chip H k))
       spansBad s.chip (readExtents j.place.layout H g.count secs (own.map (fun x => x.2.1))) = false ∧
        ∀ a ∈ [H, H + 1023], spansBad (struckAt s a).chip (readExtents j.place.layout H g.count secs (own.map (fun x => x.2.1))) = true)) ∧
    (let s := cmdM jobW imgCmd []
     s.quiet ∧ Started s id9 0x02 imgCmd ∧ jobOf s.chip jh = some (5, jobW) ∧ jobRunning jobW = true) ∧
    (let j := { jobW1 with place := { jobW.place with layout := [] } }
     let s := cmdM j imgCmd (wimg 6 zeroDigest)
     let xs := (ownSecs s.env s.chip j H [0]).map (fun x => Carried.here s.env s.chip x.2.1 x.2.2)
     s.quiet ∧ Started s id9 0x02 imgCmd ∧ jobOf s.chip jh = some (5, j) ∧
      spansBad s.chip (readExtents j.place.layout H 1 ([0].map (fun k => readSec s.env s.chip (secAddr s.env s.chip H k))) ((ownSecs s.env s.chip j H [0]).map (fun x => x.2.1))) = false ∧
      secStatus s.env s.chip j 0 6 false ([0].map (fun k => readSec s.env s.chip (secAddr s.env s.chip H k))) xs = some .invalidArg) := by decide +kernel

/-- A LOAD_IMAGE of `n` sections from source `x`; port 1 faces package 1. -/
def peerCmd (x n : Nat) : Cmd := cmd 2 0 jh (leBytes 8 H ++ leBytes 4 0 ++ leBytes 4 n ++ leBytes 2 x ++ leBytes 2 1)
def peerSt (up : Bool) (m : Cmd) : State :=
  stOf { (cmdM jobW1 m []).chip with ports := [(1, { port1 with st := if up then .up else .down, nbrPkg := 1 })] }

theorem meets_ImagesLoad_peer :
    (∀ b ∈ [false, true], let s := peerSt b (peerCmd 1 0)
      s.quiet ∧ Started s id9 0x02 (peerCmd 1 0) ∧ jobOf s.chip jh = some (5, jobW1) ∧ arg (peerCmd 1 0) 0x20 1 = 1 ∧ arg (peerCmd 1 0) 0x1C 4 = 0 ∧
        facesPeer s.env s.chip (arg (peerCmd 1 0) 0x22 2) = b) ∧
    1 < arg (peerCmd 2 1) 0x20 1 := by decide +kernel

def jobLoad (skip peer : Bool) : Job := { jobW with wts := { Weights.none with
  loads := [⟨id9, H, [0], 0, none, peer, skip, false⟩], sections := [(0, ⟨0, true, BitVec.ofNat 384 zeroDigest, 6, 0, [], []⟩)] } }

theorem meets_ImagesLoad_sections :
    let ok := fun (skip peer : Bool) (d : Nat) (p : Sec → Carried → State → Job → Bool) =>
      let j := jobLoad skip peer
      let s := cmdM j imgCmd (wimg 6 d)
      decide s.quiet && (loadOf s.chip id9).any (fun l => l.2.2.left == [0] && !(linkWaits s.chip l.2.2.image) && (
        let x := readSec s.env s.chip (secAddr s.env s.chip l.2.2.image 0)
        let ts := tileList j x.layer
        x.tables == 0 && !(spansBad s.chip (imageExtents j.place.layout l.2.2.image 0 [x])) && spansBad (struckAt s x.at_).chip (imageExtents j.place.layout l.2.2.image 0 [x]) &&
          p x (if peer then ⟨x, ts, []⟩ else Carried.here s.env s.chip x ts) s j))
    let same := fun (x : Sec) (j : Job) => (tfind j.wts.sections x.layer).any (fun y => y.ok && y.digest == x.digest && y.version == x.version)
    (∀ peer ∈ [false, true], ok true peer zeroDigest (fun x _ _ j => same x j) = true ∧
      ok false peer zeroDigest (fun x y s j => sha384 y.body == x.digest && termsOk s.chip j y.tables y) = true ∧
      ok false peer 5 (fun x y _ _ => sha384 y.body != x.digest) = true) := by decide +kernel

def swapCmd : Cmd := cmd 3 0 jh (leBytes 8 H ++ leBytes 1 1)
def swap0 : Swap := ⟨id9, H, true, 6, some 3, [], [], 2, 0, [], [], [], []⟩

theorem meets_LayersSwap :
    (let s := cmdM jobW swapCmd (wimg 6 zeroDigest)
     let g := readWImg s.env s.chip jobW H
     let ks := List.range g.count
     let own := ownSecs s.env s.chip jobW H ks
     let secs := ks.map (fun k => readSec s.env s.chip (secAddr s.env s.chip H k))
     let xs := own.map (fun x => Carried.here s.env s.chip x.2.1 x.2.2)
     let tabs := xs.flatMap Carried.tables
     aimed s 3 swapCmd jobW = true ∧ swapCmd.id.part < 16 ∧ jobRunning jobW = true ∧ arg swapCmd 0x18 1 ≤ 1 ∧ arg swapCmd 0x10 8 = H ∧ jobW.wts.swap = none ∧
      tierStatus s.chip jobW.place.parts .invalidArg H 256 = none ∧ g.ok = true ∧ g.version ≠ jobW.wts.version ∧
      (imageExtents jobW.place.layout H g.count secs).findSome? (fun x => tierStatus s.chip jobW.place.parts .invalidArg x.1 x.2) = none ∧ oneEach jobW secs = true ∧
      spansBad s.chip (readExtents jobW.place.layout H g.count secs (own.map (fun x => x.2.1))) = false ∧
      tablesAgree tabs = true ∧ secStatus s.env s.chip jobW 0 g.version jobW.args.elasticLen secs xs = none ∧ xs.all (termsOk s.chip jobW tabs) = true ∧
      deciding 0 (0, .ok) [⟨1, 0, .ok, [], [], [], none⟩] = none ∧ deciding 0 (0, .ok) [⟨1, 2, .notReady, [], [], [], none⟩] = some (1, .notReady)) ∧
    (let j := { jobW with st := .loaded }; aimed (cmdM j swapCmd []) 3 swapCmd j = true ∧ jobRunning j = false) ∧
    (let j := { jobW with wts := { jobW.wts with swap := some swap0 } }; aimed (cmdM j swapCmd []) 3 swapCmd j = true ∧ j.wts.swap ≠ none) := by decide +kernel

/-- A swap in a job of two packages, each with layer 0, its barrier before tick `n`. -/
def jobFarSwap (n : Nat) : Job := { jobW with place := { jobW.place with pkgs := [0, 1], layout := [⟨0, 0, 0, 0, 0⟩, ⟨1, 0, 0, 0, 0⟩] }
                                              wts := { jobW.wts with swap := some { swap0 with barrier := some n } } }

theorem meets_LayersSwap_far :
    ∀ n ∈ [3, 9], let j := jobFarSwap n
      let w := { swap0 with barrier := some n }
      (stJ j).quiet ∧ tfind (stJ j).chip.jobs 5 = some j ∧ j.wts.swap = some w ∧ 1 ≠ j.place.sym ∧ layerClear (stJ j).chip 5 j w 1 0 = (n == 3) ∧
        j.place.layout.any (fun x => x.sym == 1 && x.layer == 0) = true ∧ w.far.contains (1, 0) = false := by decide +kernel

theorem meets_LayersSwap_rewrite :
    (let w := { swap0 with barrier := some 9 }
     let j := { jobW with wts := { jobW.wts with swap := some w } }
     let s := cmdM j swapCmd (wimg 6 zeroDigest)
     s.quiet ∧ layerClear s.chip 5 j w j.place.sym 0 = false ∧ layerOpen j w 0 = true) ∧
    (∀ d ∈ [zeroDigest, 5], ∀ mis ∈ [1, 2],
      let w := { swap0 with mism := mis }
      let j := { jobW with wts := { jobW.wts with swap := some w } }
      let s := cmdM j swapCmd (wimg 6 d)
      s.quiet ∧ tfind s.chip.jobs 5 = some j ∧ j.wts.swap = some w ∧ jobRunning j = true ∧ layerClear s.chip 5 j w j.place.sym 0 = true ∧ layerOpen j w 0 = true ∧ w.misLayer = 0 ∧
        ((ownSecs s.env s.chip j w.image (List.range (readWImg s.env s.chip j w.image).count)).find? (fun y => y.2.1.layer == 0)).any (fun y =>
          y.2.1.tables == 0 && !(heldClash s.chip j (Carried.here s.env s.chip y.2.1 y.2.2).tables) && ((sha384 (coveredBytes s.env s.chip y.2.1 y.2.2) == y.2.1.digest) == (d == zeroDigest))) = true) := by decide +kernel

/-- A code table of BF16 with symbols 0 and 1 of one bit each. -/
def table0 : List Byte := leBytes 4 0x0200 ++ leBytes 1 0 ++ leBytes 1 1 ++ leBytes 30 0 ++ leBytes 1 0x11 ++ leBytes 27 0
def putCmd (fl : Nat) : Cmd := cmd 0x23 fl jh (leBytes 1 3 ++ leBytes 7 0 ++ leBytes 8 H)
def tabM : Memory := Memory.writeBytes [] H table0
def jobHeld (h : Tab HeldTable) (r : Nat) : Job :=
  { jobA with wts := { Weights.none with held := h, sections := if r = 0 then [] else [(0, ⟨0, true, 0, 1, 0, [(3, r)], []⟩)] } }

theorem meets_CodeTablesPut :
    (let j := jobHeld [] 0
     let s := cmdM j (putCmd 0) tabM
     aimed s 0x23 (putCmd 0) j = true ∧ (putCmd 0).id.part < 16 ∧ programHere j = true ∧ arg (putCmd 0) 0x10 1 = 3 ∧ 3 < j.hdr.ctSlots ∧ bufferOk s.chip j.place.parts H 64 = true ∧
      rdBytes s.env s.chip H 64 = table0 ∧ ctValid table0 = true ∧ field table0 3 1 = 0 ∧ tableBody (curTable s.chip j 3) ≠ tableBody table0 ∧
      tfind j.wts.held 3 = none ∧ tableRefs j 3 = 0 ∧ jobLit s.chip j = true ∧ jobLit { s.chip with lamps := [] } j = false ∧ ctValid (List.replicate 64 0) = false ∧
      tableRefs (jobHeld [] 1) 3 ≠ 0) ∧
    (let j := { jobHeld [] 0 with place := { place0 with slotMap := [[0, 1, 2, 7], [], [], []] } }
     let s := stOf { (cmdM j (putCmd 0) tabM).chip with slots := [(7, (5, table0))] }
     tableBody (curTable s.chip j 3) = tableBody table0) ∧
    (let h : HeldTable := ⟨table0, some ⟨0, 8⟩, false⟩
     let j := jobHeld [(3, h)] 1
     aimed (cmdM j (putCmd 4) []) 0x23 (putCmd 4) j = true ∧ bitOf (putCmd 4).flags 2 = true ∧ tfind j.wts.held 3 = some h ∧ h.cmd = some ⟨0, 8⟩ ∧ tableBody h.bytes = tableBody table0 ∧
      tfind (jobHeld [] 1).wts.held 3 = none ∧ tableBody (curTable (cmdM j (putCmd 0) tabM).chip j 3) ≠ tableBody table0) := by decide +kernel

/-! Jobs, requests, sessions. -/

def startCmd0 (n : Nat) : Cmd := cmd 4 0 jh (leBytes 1 0 ++ leBytes 1 8 ++ leBytes 2 1 ++ leBytes 2 n ++ leBytes 1 0 ++ leBytes 1 3)
def jobS : Job := { jobA with st := .loaded }

theorem meets_JobsStartAndStop :
    (let s := jobCmd jobS (startCmd0 16384)
     aimed s 4 (startCmd0 16384) jobS = true ∧ jobS.st ≠ .loading ∧ jobRunning jobS = false ∧ jobS.clearing = false ∧
      deciding 0 (startCheck s.env s.chip 5 (startCmd0 16384) jobS []) [] = none ∧ firstFit (reserved s.chip 5) 16384 (startArgs (startCmd0 16384)).reqCount = some 0 ∧
      deciding 0 (startCheck s.env s.chip 5 (startCmd0 16385) jobS []) [] = some (0, .invalidArg)) ∧
    (aimed (jobCmd jobA (startCmd0 1)) 4 (startCmd0 1) jobA = true ∧ jobRunning jobA = true) ∧
    (∀ fl ∈ [0, 4, 8], let m := cmd 5 fl jh []
      aimed (jobCmd jobA m) 5 m jobA = true ∧ jobA.stop = none ∧ jobRunning jobA = true ∧ lastTick jobA ≠ none ∧ aimed (jobCmd jobS m) 5 m jobS = true) ∧
    (let m := cmd 0x30 0 0 (leBytes 4 26000)
     let s := stOf { chip0 with cmds := [m], beacon := beacon0 }
     s.quiet ∧ Started s id9 0x30 m ∧ m.target = 0 ∧ 26000 ≤ arg m 0x10 4 ∧ (part s.chip 0).operator = true ∧ s.chip.beacon.role = 1 ∧
      s.chip.jobs.any (fun j => jobRunning j.2) = false ∧ (jobCmd jobA m).chip.jobs.any (fun j => jobRunning j.2) = true ∧
      { beacon0 with role := 2 }.role ≠ 1 ∧ arg (cmd 0x30 0 0 (leBytes 4 25999)) 0x10 4 < 26000 ∧
      (part { s.chip with parts := [(0, { part0 with operator := false })] } 0).operator = false) ∧
    (let m := cmd 0x30 0 jh (leBytes 4 0 ++ leBytes 2 256)
     aimed (jobCmd jobA m) 0x30 m jobA = true ∧ arg m 0x14 2 = 256 ∧ fitsTick jobA jobA.args.strict (256 * (jobCmd jobA m).chip.beacon.period) = true ∧
      256 < arg (cmd 0x30 0 jh (leBytes 4 0 ++ leBytes 2 257)) 0x14 2 ∧
      fitsTick { jobA with hdr := { hdr0 with variants := [⟨0, 0, 0, 0, 26001, 0⟩] } } false (1 * 26000) = false) := by decide +kernel

def admit0 (n new target group : Nat) : Cmd :=
  cmd 0x10 0 target (leBytes 8 H ++ leBytes 8 0 ++ leBytes 4 n ++ leBytes 4 new ++ leBytes 8 1 ++ leBytes 8 0 ++ leBytes 2 group)
def reqsOf (q : Req) : Tab Req := [(0, { q with job := 5 }), (1, { Req.free with job := 5, gen := 1 })]

theorem meets_RequestsAdmitted :
    (let m := admit0 4 96 jh 0
     let s := stOf { (jobCmd jobA m).chip with reqs := reqsOf { Req.free with st := .decode } }
     aimed s 0x10 m jobA = true ∧ m.target ≠ 0 ∧ (admitArgs m).group = 0 ∧ admitCheck s.env s.chip 5 jobA m = none ∧ freeEntry s.chip 5 = some 1 ∧
      admitCheck s.env s.chip 5 jobA (admit0 4 97 jh 0) = some .invalidArg) ∧
    (let j := { jobA with args := { jobA.args with group := 9 } }
     let m := admit0 0 0 0 9
     let s := stOf { (jobCmd j m).chip with reqs := reqsOf Req.free }
     s.quiet ∧ Started s id9 0x10 m ∧ m.target = 0 ∧ (admitArgs m).group ≠ 0 ∧ pickMember s.chip (members s.chip 9 (part s.chip 0).tenant.toNat) = some (5, j) ∧
      admitCheck s.env s.chip 5 j m = none ∧ freeEntry s.chip 5 = some 0) ∧
    (∀ ad ∈ [false, true],
      let j := { jobA with wts := { Weights.none with dir := [(4, 0)] } }
      let s := stOf { (jobCmd j (admit0 4 9 jh 0)).chip with reqs := reqsOf { Req.free with st := .queued, adapter := ad, adapterId := 4 }, sides := [(0, { ReqSide.none with cmd := id9, inAddr := H })] }
      s.quiet ∧ tfind s.chip.jobs (req s.chip 0).job = some j ∧ isLead s.chip j = true ∧ (req s.chip 0).st = .queued ∧ (side s.chip 0).copied = false ∧
        (side s.chip 0).resuming = false ∧ linkWaits s.chip (side s.chip 0).inAddr = false ∧ ((req s.chip 0).adapter = false ∨ (tfind j.wts.dir (req s.chip 0).adapterId).isSome = true)) := by decide +kernel

/-- A request in DECODE, generation 1, and a command that names it. -/
def reqD : Req := { Req.free with st := .decode, job := 5, gen := 1, seq := 7, promptLen := 50, promptDone := 50, kvLen := 50, kvSlot := 0, maxNew := 10 }
def rh : Nat := mkHandle 0 1 0 1 7
def reqSt (j : Job) (m : Cmd) (d : ReqSide) : State := stOf { (jobCmd j m).chip with reqs := reqsOf reqD, sides := [(0, d)] }
def aimedReq (s : State) (op : Nat) (m : Cmd) (j : Job) : Bool := decide (s.quiet ∧ Started s id9 op m ∧ AimedReq s m 0 reqD j)

theorem meets_RequestCommands :
    (let m := cmd 0x11 0 rh (leBytes 8 H ++ leBytes 4 40)
     let s := reqSt jobA m ReqSide.none
     aimedReq s 0x11 m jobA = true ∧ reqD.st ≠ .parking ∧ reqD.encodeOnly = false ∧ arg m 0x18 4 = 40 ∧
      reqD.promptLen + appendWaiting s.chip (side s.chip 0) + 40 + reqD.maxNew = contextLimit jobA ∧ bufferOk s.chip [0] H (4 * 40) = true ∧
      contextLimit jobA < reqD.promptLen + appendWaiting s.chip (side s.chip 0) + 41 + reqD.maxNew) ∧
    (let m := cmd 0x11 0 rh (leBytes 8 H ++ leBytes 4 40)
     let d := { ReqSide.none with appends := [⟨id9, [], false⟩] }
     let s := reqSt jobA m d
     s.quiet ∧ findCmd s.chip id9 = some m ∧ s.chip.sides.find? (fun x => (x.2.appends.find? (fun a => !a.copied)).any (fun a => a.cmd == id9)) = some (0, d) ∧ linkWaits s.chip (arg m 0x10 8) = false) ∧
    (let m := cmd 0x12 0 rh []; aimedReq (reqSt jobA m ReqSide.none) 0x12 m jobA = true ∧ aimedReq (reqSt jobS m ReqSide.none) 0x12 m jobS = true) ∧
    (let m := cmd 0x13 0 rh (leBytes 8 H ++ leBytes 4 64)
     aimedReq (reqSt jobA m ReqSide.none) 0x13 m jobA = true ∧ 64 ≤ arg m 0x18 4 ∧ bufferOk (reqSt jobA m ReqSide.none).chip jobA.place.parts H 64 = true ∧
      arg (cmd 0x13 0 rh (leBytes 8 H ++ leBytes 4 63)) 0x18 4 < 64) ∧
    (∀ fl ∈ [0, 4], let m := cmd 0x13 fl jh (leBytes 8 H ++ leBytes 4 4096)
     let s := jobCmd jobA m
     aimed s 0x13 m jobA = true ∧ hKind m.target = 3 ∧ (jobBytes s.chip 5 jobA).length ≤ 4096 ∧ 16 ≤ 4096 ∧ bufferOk s.chip jobA.place.parts H 4096 = true) ∧
    (let m := cmd 2 0 jh (leBytes 8 Config.aperture)
     let down := fun (x : Tab ReqSide) => stOf { (jobCmd jobA m).chip with now := 1000 * Config.ms, sides := x, boot := { bootUp with pcieUp := false } }
     (down []).quiet ∧ findCmd (down []).chip id9 = some m ∧ apertureWaited (down []).chip m = true ∧ apertureWaited (jobCmd jobA m).chip m = false ∧
      (down [(0, { ReqSide.none with cmd := id9 })]).chip.sides.find? (fun y => y.2.cmd == id9) = some (0, { ReqSide.none with cmd := id9 })) := by decide +kernel

/-- A parked buffer of a prompt of 4 tokens, 4 of them committed, for weights of version 0. -/
def parked : Memory := Memory.writeBytes [] H (leBytes 16 0 ++ leBytes 4 4 ++ leBytes 4 4 ++ leBytes 4 4)

theorem meets_SessionsPark :
    (let m := cmd 0x52 0 rh (leBytes 8 H ++ leBytes 8 4096)
     let s := reqSt jobA m ReqSide.none
     aimedReq s 0x52 m jobA = true ∧ bitOf m.flags 2 = false ∧ reqD.st = .decode ∧ arg m 0x10 8 = H ∧ parkSize jobA reqD (side s.chip 0) ≤ arg m 0x18 8 ∧
      bufferOk s.chip jobA.place.parts H 4096 = true) ∧
    (let m := cmd 0x52 0 rh (leBytes 8 H ++ leBytes 8 4096)
     let s := stOf { (jobCmd jobA m).chip with reqs := reqsOf { reqD with st := .ready } }
     s.quiet ∧ Started s id9 0x52 m ∧ AimedReq s m 0 { reqD with st := .ready } jobA) ∧
    (let d := { ReqSide.none with parkCmd := some id9, parkAddr := H, parkLen := 928 }
     let s := reqSt jobA (cmd 0x52 0 rh []) d
     s.quiet ∧ s.chip.sides.find? (fun x => x.2.parkCmd == some id9 && !x.2.parkCopied) = some (0, d) ∧ tfind s.chip.jobs (req s.chip 0).job = some jobA ∧
      inFlight jobA 0 = false ∧ linkWaits s.chip d.parkAddr = false ∧ parkSize jobA (req s.chip 0) d = d.parkLen) ∧
    (let m := cmd 0x52 4 jh (leBytes 8 H ++ leBytes 8 4096)
     let s := { reqSt jobA m ReqSide.none with mem := parked }
     let b := rdBytes s.env s.chip H 128
     aimed s 0x52 m jobA = true ∧ bitOf m.flags 2 = true ∧ jobA.st = .running ∧ bufferOk s.chip jobA.place.parts H 4096 = true ∧ 128 ≤ 4096 ∧
      (b.drop 64).take 48 = digestBytes jobA.hdr.digest ∧ field b 112 4 = jobA.wts.version ∧ bitOf (field b 1 1) 2 = false ∧
      128 + (kvSpan jobA 0 (field b 0x18 4)).2 + 4 * field b 0x10 4 ≤ 4096 ∧ tokenRingOk s.chip 0 m.aux = true ∧ field b 0x18 4 ≤ contextLimit jobA ∧
      bitOf (field b 1 1) 6 = false ∧ freeEntry s.chip 5 = some 1 ∧ freeSlot s.chip 5 jobA (plannedSlots jobA) = some 1 ∧ jobS.st ≠ .running ∧
      aimed (jobCmd jobS m) 0x52 m jobS = true) ∧
    (let d := { ReqSide.none with cmd := id9, inAddr := H, resuming := true }
     let s := reqSt jobA (cmd 0x52 4 jh []) d
     s.quiet ∧ s.chip.sides.find? (fun x => x.2.cmd == id9 && x.2.resuming && !x.2.copied) = some (0, d) ∧ tfind s.chip.jobs (req s.chip 0).job = some jobA ∧
      (req s.chip 0).adapter = false ∧ linkWaits s.chip d.inAddr = false ∧ isLead s.chip jobA = true) := by decide +kernel

/-! Adapters, tenancy, range pairs. -/

/-- An adapter image at H: one section for layer 0 of rank `r`, flags `f`, DATA_DIGEST `d`. -/
def aimg (f r d : Nat) : Memory :=
  Memory.writeBytes (Memory.writeBytes [] H (leBytes 2 1 ++ leBytes 2 0 ++ leBytes 4 1 ++ leBytes 8 0 ++ leBytes 4 1 ++ leBytes 236 0 ++ leBytes 8 512)) (H + 512)
    (leBytes 4 0 ++ leBytes 4 0 ++ leBytes 4 0 ++ leBytes 4 f ++ leBytes 8 512 ++ leBytes 8 0 ++ leBytes 8 512 ++ leBytes 8 512 ++ leBytes 8 512 ++ leBytes 4 1 ++ leBytes 4 r ++ beBytes 48 d)
def putA : Cmd := cmd 0x20 0 jh (leBytes 4 9 ++ leBytes 4 0 ++ leBytes 8 H)
def drawer0 : Drawer := { Drawer.free with st := .current, adapter := 9, gen := 1, rank := 16 }
/-- Both drawers of job 5 hold something: adapter 9 is resident in drawer 0. -/
def jobD (w : Drawer) : Job := { jobW with wts := { Weights.none with drawers := [(0, drawer0), (1, w)], dir := [(9, 0)], gens := [(9, 1)] } }

theorem meets_AdapterCommands_put :
    (let s := cmdM jobW putA (aimg 2 16 zeroDigest)
     aimed s 0x20 putA jobW = true ∧ putA.id.part < 16 ∧ programHere jobW = true ∧ training jobW 9 = false ∧ jobW.clearing = false ∧ arg putA 0x10 4 = 9 ∧
      takeDrawer jobW = some 0 ∧ (match adapterStatus s.env s.chip jobW 0 (arg putA 0x18 8) 0 with | .inr r => r == 16 | .inl _ => false) = true ∧
      deciding 0 (0, .ok) [] = none ∧ deciding 0 (0, .ok) [⟨1, 3, .lengthBudget, [], [], [], none⟩] = some (1, .lengthBudget)) ∧
    (let s := cmdM jobW putA (aimg 2 17 zeroDigest)
     s.quiet ∧ (match adapterStatus s.env s.chip jobW 0 H 0 with | .inl st => st == .invalidArg | .inr _ => false) = true) ∧
    (aimed (cmdM (jobD drawer0) putA []) 0x20 putA (jobD drawer0) = true ∧ takeDrawer (jobD drawer0) = none) := by decide +kernel

theorem meets_AdapterCommands_drop :
    (let m := cmd 0x21 0 jh (leBytes 4 9)
     let j := jobD Drawer.free
     aimed (cmdM j m []) 0x21 m j = true ∧ programHere j = true ∧ (tfind j.wts.dir 9).isSome = true ∧ dropPending j 9 = false ∧ training j 9 = false ∧
      putPending jobW 9 = false ∧ tfind jobW.wts.dir 9 = none ∧ aimed (cmdM jobW m []) 0x21 m jobW = true) ∧
    (let m := cmd 0x22 0 jh (leBytes 4 9 ++ leBytes 2 4096 ++ leBytes 2 0 ++ leBytes 8 H ++ leBytes 4 7 ++ leBytes 4 1 ++ leBytes 8 H ++ leBytes 8 0)
     let j := jobD Drawer.free
     let k := { j with hdr := { hdr0 with variants := hdr0.variants ++ [⟨0, 0, 0, 1, 9, 9⟩] } }
     aimed (cmdM k m []) 0x22 m k = true ∧ canTrain (cmdM k m []).env k = true ∧ training k 9 = false ∧ putPending k 9 = false ∧ dropPending k 9 = false ∧
      k.clearing = false ∧ bufferOk (cmdM k m []).chip k.place.parts (arg m 0x28 8) 256 = true ∧ bufferOk (cmdM k m []).chip k.place.parts (arg m 0x18 8) (min 1 (arg m 0x20 4)) = true ∧ programHere k = true ∧ tfind k.wts.dir (arg m 0x10 4) = some 0 ∧
      0 < arg m 0x24 4 ∧ arg m 0x14 2 = 4096 ∧ takeDrawer k = some 1 ∧
      aimed (cmdM { k with hdr := { hdr0 with engines := 0x1F } } m []) 0x22 m { k with hdr := { hdr0 with engines := 0x1F } } = true ∧
      canTrain (cmdM k m []).env { k with hdr := { hdr0 with engines := 0x1F } } = false) := by decide +kernel

theorem meets_AdapterCommands_fill :
    (∀ d ∈ [zeroDigest, 5], ∀ v ∈ [false, true],
      let w := { drawer0 with st := .filling, by_ := .put, cmd := some id9, image := H, verified := v }
      let j := jobD w
      let s := cmdM j putA (aimg 2 16 d)
      let own := adapterSecs s.env s.chip j w.image 1
      s.quiet ∧ tfind s.chip.jobs 5 = some j ∧ tget Drawer.free j.wts.drawers 1 = w ∧ w.verified = v ∧ own.length = 1 ∧ own.any (fun x => x.1.tables != 0) = false ∧
        spansBad s.chip (adapterReads s.env s.chip j w.image 1) = false ∧
        (let u := { s with chip := (struckAt s (H + 512)).chip }; spansBad u.chip (adapterReads u.env u.chip j w.image 1) = true) ∧
        linkWaits s.chip w.image = false ∧ heldClash s.chip j ((own.map (fun x => Carried.here s.env s.chip x.1 x.2)).flatMap Carried.tables) = false ∧ (own.all (fun x => sha384 (coveredBytes s.env s.chip x.1 x.2) == x.1.digest) == (d == zeroDigest)) = true) ∧
    (let w : Train := ⟨id9, 9, 1, 1, 1, H, 3, 3, H, 0, 1, 0⟩
     let j := { jobD Drawer.free with wts := { Weights.none with trains := [w], drawers := [(1, { drawer0 with st := .filling, by_ := .train })] } }
     (stJ j).quiet ∧ tfind (stJ j).chip.jobs 5 = some j ∧
      j.wts.trains.find? (fun x => x.step == x.steps && (tget Drawer.free j.wts.drawers x.drawer).st == .filling) = some w) := by decide +kernel

theorem meets_KillsAndClearing :
    ((stJ jobA).quiet ∧ tfind (stJ jobA).chip.jobs 5 = some jobA ∧ isLead (stJ jobA).chip jobA = true ∧ jobA.clearing = false ∧ isLead (stJ (jobF tk0)).chip (jobF tk0) = false) ∧
    (let m := cmd 0x40 4 jh []
     let s := jobCmd jobA m
     let j := { jobA with place := { place0 with parts := [1] } }
     s.quiet ∧ Started s id9 0x40 m ∧ jobOf s.chip m.target = some (5, jobA) ∧ jobA.place.parts.contains m.id.part = true ∧
      (jobCmd j m).quiet ∧ Started (jobCmd j m) id9 0x40 m ∧ jobOf (jobCmd j m).chip m.target = some (5, j) ∧ j.place.parts.contains m.id.part = false) ∧
    (let m := cmd 0x41 0 0 (leBytes 1 15 ++ leBytes 3 0 ++ leBytes 4 8)
     let s := stOf { chip0 with cmds := [m], parts := [(0, part0), (15, { part0 with bands := 2, state := 3 })] }
     let u := stOf { chip0 with cmds := [m], parts := [(0, { part0 with operator := false })] }
     s.quiet ∧ Started s id9 0x41 m ∧ (part s.chip m.id.part).operator = true ∧ arg m 0x10 1 ≠ m.id.part ∧ arg m 0x10 1 = 15 ∧ (part s.chip 15).state ≠ 0 ∧
      (part s.chip 15).state ≠ 2 ∧ s.chip.jobs.all (fun j => !(j.2.place.parts.contains 15)) = true ∧ u.quiet ∧ Started u id9 0x41 m ∧
      (part u.chip m.id.part).operator = false) := by decide +kernel

theorem meets_KillsAndClearing_clear :
    (∀ all ∈ [false, true], let j := { jobA with clearing := true, clearAll := all }
      (stJ j).quiet ∧ tfind (stJ j).chip.jobs 5 = some j ∧ j.captureRun = none ∧ (part (stJ j).chip (0 % 16)).state ≠ 2 ∧ j.killCmds = []) ∧
    (let s := stOf { chip0 with parts := [(15, { part0 with state := 2, newTenant := 8 })] }
     s.quiet ∧ tfind s.chip.jobs 5 = none ∧ (part s.chip 15).state = 2 ∧ s.chip.jobs.all (fun j => !(j.2.place.parts.contains 15)) = true) := by decide +kernel

/-- R380: 64 cores need 134,258,688 bytes. -/
theorem meets_KillsAndClearing_capture : captureSize 64 = 134258688 ∧
    (∀ fl ∈ [0, 4], ∀ n ∈ [134258687, 134258688], let m := cmd 0x42 fl jh (leBytes 8 H ++ leBytes 8 n)
      aimed (jobCmd jobA m) 0x42 m jobA = true ∧ m.id.part < 16 ∧ jobA.st ≠ .loading ∧ bufferOk (jobCmd jobA m).chip jobA.place.parts H n = true ∧ captureSize jobA.place.maxCores = 134258688) ∧
    (let j := { jobA with captureRun := some ⟨3, 0, 3, 0, []⟩, capture := some ⟨id9, H, 134258688⟩ }
     (stJ j).quiet ∧ tfind (stJ j).chip.jobs 5 = some j ∧ j.captureRun = some ⟨3, 0, 3, 0, []⟩ ∧ j.capture = some ⟨id9, H, 134258688⟩ ∧ linkWaits (stJ j).chip H = false) := by decide +kernel

def pair0 : Pair := ⟨id9, 1, 15, false, 3000000 - 130000000, 0, [], [], none, none, none, 0, false, none⟩
def jobP (p : Option Pair) : Job := { jobA with pair := p, log := [(2, (77, [⟨3, 5, [⟨9, 8, 2, 0⟩]⟩]))] }
def pairSt (j : Job) (m : Cmd) : State := stOf { (jobCmd j m).chip with ports := [(15, { port1 with nbrPkg := 1, part := 0, partEn := true })] }
def pcmd (a : Nat) : Cmd := cmd 0x51 0 jh (leBytes 2 a ++ leBytes 2 1 ++ leBytes 4 15 ++ leBytes 8 2)

theorem meets_RangePairs_start :
    (let s := { pairSt (jobP none) (pcmd 0) with fuses := { Fuses.reset with gradeC := true } }
     s.quiet ∧ Started s id9 0x51 (pcmd 0) ∧ jobOf s.chip (pcmd 0).target = some (5, jobP none) ∧ (port s.env s.chip 15).st = .absent) ∧
    (let s := pairSt (jobP none) (pcmd 0)
     s.quiet ∧ Started s id9 0x51 (pcmd 0) ∧ jobOf s.chip (pcmd 0).target = some (5, jobP none) ∧ (jobP none).place.parts.contains 0 = true ∧ arg (pcmd 0) 0x10 1 = 0 ∧
      pairPort s.chip (arg (pcmd 0) 0x14 1) = false ∧ arg (pcmd 0) 0x14 1 = 15 ∧ (port s.env s.chip 15).st ≠ .absent ∧ pairOk s.env s.chip 0 15 (arg (pcmd 0) 0x12 2) (jobP none) = true) ∧
    (let j := jobP (some pair0)
     let s := pairSt j (pcmd 0)
     s.quiet ∧ Started s id9 0x51 (pcmd 0) ∧ jobOf s.chip (pcmd 0).target = some (5, j) ∧ j.pair ≠ none) ∧
    (let j := jobP (some { pair0 with since := 3000000 })
     let m := { pcmd 0 with phase := .accepted }
     let s := pairSt j m
     let r : PairReport := ⟨1, true, 90, listed s.env, 0, 1, 0⟩
     s.quiet ∧ findCmd s.chip id9 = some m ∧ m.phase = .accepted ∧ pairOf s.chip id9 = some 5 ∧ tfind s.chip.jobs 5 = some j ∧ pair0.formed = false ∧
      pairAgrees s.env j pair0 r = true ∧ pairOk s.env s.chip 0 15 1 j = true ∧ pairAgrees s.env j pair0 { r with m := 2 } = false ∧
      s.chip.now < 3000000 + 100 * Config.ms ∧ (let t := stOf { s.chip with now := 3000000 + 100 * Config.ms }; t.quiet ∧ 3000000 + 100 * Config.ms ≤ t.chip.now)) := by
  decide +kernel

/-- A formed pair whose first compared tick is 2, and the partner's tick numbers 3 lower. -/
def pair1 : Pair := { pair0 with formed := true, answered := true, since := 2, delta := -3 }

theorem meets_RangePairs_stop :
    (pairSt (jobP (some pair1)) (pcmd 1)).quiet ∧ Started (pairSt (jobP (some pair1)) (pcmd 1)) id9 0x51 (pcmd 1) ∧
      jobOf (pairSt (jobP (some pair1)) (pcmd 1)).chip (pcmd 1).target = some (5, jobP (some pair1)) ∧ (jobP (some pair1)).place.parts.contains 0 = true ∧
      arg (pcmd 1) 0x10 1 = 1 ∧ pair1.answered = true ∧ pair1.drill = none := by decide +kernel

theorem meets_RangePairs_digest :
    tfind (pairSt (jobP (some pair1)) (pcmd 1)).chip.jobs 5 = some (jobP (some pair1)) ∧ pair1.formed = true ∧ ((0 : Nat) : Int) - pair1.delta = 3 ∧
      (pair1.since : Int) ≤ ((0 : Nat) : Int) - pair1.delta ∧ tfind pair1.own (((0 : Nat) : Int) - pair1.delta).toNat = none ∧ pair0.formed = false ∧
      ((4 : Nat) : Int) - ({ pair1 with delta := 3 } : Pair).delta < (pair1.since : Int) := by decide +kernel

def drillLog : List CoreLog := [⟨3, 5, [⟨9, 8, 2, 0⟩]⟩]
/-- Both differ at core 3; the first has the same log there. -/
def drillSame : DrillReport := ⟨true, 77, List.replicate 1024 0, [logWord ⟨9, 8, 2, 0⟩]⟩
def drillOther : DrillReport := ⟨true, 78, List.replicate 1024 0, []⟩

theorem meets_RangePairs_drill :
    (pairSt (jobP (some pair1)) (pcmd 2)).quiet ∧ Started (pairSt (jobP (some pair1)) (pcmd 2)) id9 0x51 (pcmd 2) ∧
      jobOf (pairSt (jobP (some pair1)) (pcmd 2)).chip (pcmd 2).target = some (5, jobP (some pair1)) ∧ (jobP (some pair1)).place.parts.contains 0 = true ∧
      arg (pcmd 2) 0x10 1 = 2 ∧ arg (pcmd 2) 0x18 8 = 2 ∧ drillOf (pairSt (jobP (some pair1)) (pcmd 2)).chip id9 = none ∧ pair1.drill = none ∧ pair1.formed = true ∧
      (jobP none).pair = none ∧ Started (pairSt (jobP none) (pcmd 2)) id9 0x51 (pcmd 2) ∧ tfind jobA.log 2 = none ∧
      (let j := jobP (some { pair1 with drill := some (⟨0, 8⟩, 2) })
       Started (pairSt j (pcmd 2)) id9 0x51 (pcmd 2) ∧ drillOf (pairSt j (pcmd 2)).chip id9 = none ∧ jobOf (pairSt j (pcmd 2)).chip (pcmd 2).target = some (5, j)) := by decide +kernel

/-- The drill-down above, taken up. -/
def jobDrill : Job := jobP (some { pair1 with drill := some (id9, 2) })

theorem meets_RangePairs_drill_end :
    (let m := { pcmd 2 with phase := .accepted }
     let s := pairSt jobDrill m
     s.quiet ∧ findCmd s.chip id9 = some m ∧ m.phase = .accepted ∧ drillOf s.chip id9 = some (5, 2) ∧ tfind s.chip.jobs 5 = some jobDrill) ∧
      tfind jobDrill.log 2 = some (77, drillLog) ∧ tfind jobA.log 2 = none ∧ drillSame.held = true ∧
      (drillResult 77 drillLog drillSame).2 = none ∧ (drillResult 77 drillLog drillOther).2.isSome = true := by decide +kernel

/-! Worked examples of spec/, each with its section. -/

/-- 12_host.md, R306 example: handle of partition 3, kind 1, index 0x01A4, generation 2, sequence 0x7B21. -/
theorem test_handle : mkHandle 3 1 0x1A4 2 0x7B21 = 0x3101A40200007B21 := by decide +kernel

/-- 12_host.md, R292 example: records 200 and 456 of a ring of 256 entries. -/
theorem test_phase :
    (let r := { ring0 with log2 := 8 }
     phaseBit r 200 = 1 ∧ phaseBit r 456 = 0 ∧ 456 % ringSize r = 200) := by decide +kernel

/-- 03_memory.md, R59 example: the slice and the near scratchpad of core 0x25A. -/
theorem test_memory_map :
    inSlice 0x25A 0x025A314C80 = true ∧ inSlice 0x259 0x025A314C80 = false ∧ inNear 0x25A 0x044B461240 = true ∧
    nearOff 0x044B461240 = 0x61240 ∧ bankOf 0x044B461240 = 3 := by decide +kernel

/-- 05_expander.md, R120 example: symbols 122, 121, 123, 120, 124 with lengths 2, 2, 2, 3, 4 and ESC_LEN 4. -/
def ctExample : List Byte :=
  [0, 5, 4, 0, 122, 121, 123, 120, 124] ++ List.replicate 27 0 ++ [0x22, 0x32, 0x04] ++ List.replicate 25 0

theorem test_code_table :
    ctValid ctExample = true ∧
    ctCodes ctExample = [(2, 0b00, some 122), (2, 0b01, some 121), (2, 0b10, some 123), (3, 0b110, some 120), (4, 0b1110, some 124), (4, 0b1111, none)] := by
  decide +kernel

/-- The same example: exponents 121, 122, 130 and 120 in 19 bits. -/
theorem test_decode_exponents :
    decodeExps 4 (ctCodes ctExample) 8 0b0100111110000010110 19 0 = [121, 122, 130, 120] := by decide +kernel

/-- 05_expander.md, R132 example: amax 5.75 gives scale code 121, the element 384 and −0.6875. -/
theorem test_mx_block :
    (let b := mxBlock 8 (Val.fin false 23 (-2) :: Val.fin true 11 (-10) :: List.replicate 30 (Val.fin false 0 0))
     b.1 = 121 ∧ (b.2.map (fun x => decodeVal .e4m3 x.1)).head? = some (decodeVal .e4m3 0x7C)) := by decide +kernel

/-- 06_numerics.md, R137 example: conversions of 0x3F81_8000 and of 70,000.0. -/
theorem test_convert :
    (roundTo .bf16 (b32 0x3F818000) false).1 = 0x3F82 ∧ (roundTo .b16 (b32 0x4788B800) false).1 = 0x7C00 ∧
    (roundTo .e5m2 (b32 0x4788B800) false).1 = 0x7B ∧ (roundTo .int8 (b32 0x4788B800) false).1 = 127 := by decide +kernel

/-- The accumulator of anchor `a` after some exact products. -/
def accOf (a : Int) (ps : List Val) : Lane := ps.foldl (fun l p => accProduct true l (p, false)) { Lane.zero with anchor := a, live := true }

/-- 06_numerics.md, R147 example: 2^24 + 1 − 2^24 is exactly 1 in every order, and INEXACT stays clear. -/
theorem test_anchored_sum :
    (let l := accOf 24 [.fin false 1 24, .fin false 1 0, .fin true 1 24]
     (roundTo .b32 (laneValue l) false).1 = 0x3F800000 ∧ laneFlags l = 0) := by decide +kernel

/-- 06_numerics.md, R147 example: one rounding, to 0x3F81, with INEXACT from the product 1.5 × 2^−102. -/
theorem test_one_rounding :
    (let l := accOf 2 [.fin false 1 0, .fin false 1 (-8), .fin false 1 (-90), .fin false 3 (-103)]
     (roundTo .bf16 (laneValue l) false).1 = 0x3F81 ∧ laneFlags l = 1) := by decide +kernel

/-- 06_numerics.md, R145 example: the product 30 under anchor −1 adds 2 and sets OVERFLOW. -/
theorem test_stale_tag :
    (let l := accOf (-1) [.fin false 30 0]
     l.ovf = true ∧ l.sum.toNat = 2 ^ 104) := by decide +kernel

/-- 06_numerics.md, R154 example. -/
theorem test_rcp_three : (frcp 0x40400000).1 = 0x3EAAAAAB := by decide +kernel

/-- 09_keeper.md, R232 example: the address program of a 1-D convolution. -/
def convDesc : Desc :=
  parseDesc (leBytes 5 0x044B440000 ++ [0, 1, 0] ++ leBytes 2 16 ++ leBytes 2 3 ++ leBytes 2 1500 ++ leBytes 2 1 ++ leBytes 2 1 ++ leBytes 2 1
    ++ leBytes 4 1 ++ leBytes 4 0 ++ leBytes 4 16 ++ leBytes 12 0 ++ leBytes 4 0 ++ [0x0A, 1, 1, 2] ++ leBytes 2 1500 ++ leBytes 10 0)

theorem test_conv_stream :
    descOk convDesc = true ∧ descLen convDesc = 72000 ∧ loopIdx convDesc (700 * 48 + 5) = [5, 0, 700, 0, 0, 0] ∧
    descOff convDesc [5, 0, 700, 0, 0, 0] 0 = some 11173 ∧ descOff convDesc [5, 0, 0, 0, 0, 0] 0 = none := by decide +kernel

/-- 11_serving.md, R276 example: the variants of job J. -/
def planJob (balancing : Bool) (budget : Nat) : Job :=
  { job0 with
    args := { job0.args with m := 2, balancing := balancing, budget := budget }
    hdr := { hdr0 with variants := [⟨0, 0, 0, 0, 1000, 1000⟩, ⟨8, 0, 0, 0, 30000, 30000⟩, ⟨8, 256, 0, 0, 44000, 44000⟩,
      ⟨8, 512, 0, 0, 51500, 51500⟩, ⟨12, 0, 0, 0, 40000, 40000⟩, ⟨12, 256, 0, 0, 50570, 50570⟩, ⟨12, 256, 0, 1, 51900, 51900⟩] } }

theorem test_variant_choice :
    (let c := { chip0 with beacon := beacon0 }
     chooseVariant c (planJob true 0) 9 700 true = (6, 256) ∧ chooseVariant c (planJob true 0) 8 700 true = (3, 512) ∧
     chooseVariant c (planJob true 50000) 9 700 true = (4, 0)) := by decide +kernel

/-- 15_safety.md, R367 example: SAFE_INJECT_SEL 0x160E flips bit 1 of cell (7, 12) of an E4M3 tile, 0x30 (0.5) to 0x32 (0.625). -/
theorem test_flip_weight :
    (let t : Tile := ⟨2, List.replicate 1536 (decodeVal .e4m3 0x30), [], [], 0⟩
     bitsOf 0x160E 6 1 = 7 ∧ (flipWeight 2 (List.replicate 1536 0x30) [] 0x160E t).weights.getD 236 .nan = decodeVal .e4m3 0x32) := by
  decide +kernel

end Sys2Proof.Tests
end

section
/-! SUPPORT. Facts that the proofs below share: what a lifted row answers, a command in each phase, the record of an answer, a job written twice the same way. -/

namespace Sys2Proof.Machine

/-- A row that settles some chip answers a next state, with the fuses and the queue as they were. -/
theorem keeps_fuses_pending_of_after {o : Host.Outcome State Fault Refusal} {s : State} {c : Chip} (h : o = .next (s.after c)) :
    ∃ t, o = .next t ∧ t.fuses = s.fuses ∧ t.pending = s.pending :=
  ⟨s.after c, h, s.after_fuses c, s.after_pending c⟩

theorem sameHand_ite {p : Prop} [Decidable p] {c d e : Chip} (hd : c.SameHand d) (he : c.SameHand e) : c.SameHand (if p then d else e) := by
  split
  · exact hd
  · exact he

/-! Commands in hand. -/

/-- A command that is already accepted is not taken up again. -/
theorem withStarted_accepted {c : Chip} {id : CmdId} {m : Cmd} (h : findCmd c id = some m) (ha : m.phase = .accepted) (op : Nat)
    (f : Cmd → Chip → Chip) : withStarted c id op f = c := by
  unfold withStarted; rw [h]; simp [ha]

/-! Answering a command leaves the jobs alone. -/

@[simp] theorem checkIrq_jobs (c : Chip) (k : Nat) : (checkIrq c k).jobs = c.jobs := by
  unfold checkIrq; split <;> rfl

@[simp] theorem postRecord_jobs (c : Chip) (k : Nat) (irq : Bool) (body : Nat → List Byte) : (postRecord c k irq body).jobs = c.jobs := by
  simp [postRecord]

@[simp] theorem complete_jobs (c : Chip) (m : Cmd) (h : Nat) (st : Status) (fin : Bool) (a b detail : Nat) :
    (complete c m h st fin a b detail).jobs = c.jobs := postRecord_jobs _ _ _ _

@[simp] theorem finalCmd_jobs (c : Chip) (id : CmdId) (st : Status) (a b detail : Nat) : (finalCmd c id st a b detail).jobs = c.jobs := by
  unfold finalCmd; split
  · rfl
  · exact complete_jobs _ _ _ _ _ _ _ _

@[simp] theorem final_jobs (c : Chip) (id : CmdId) (st : Status) : (final c id st).jobs = c.jobs := finalCmd_jobs _ _ _ _ _ _

/-! Jobs. -/

/-- Only what is made of the job that stands there counts. -/
theorem onJob_congr {c : Chip} {t : Nat} {j : Job} {f g : Job → Job} (hj : tfind c.jobs t = some j) (h : f j = g j) :
    onJob c t f = onJob c t g := by
  unfold onJob; simp only [hj, h]

theorem tfind_onJob_self {c : Chip} {t : Nat} {j : Job} (hj : tfind c.jobs t = some j) (f : Job → Job) :
    tfind (onJob c t f).jobs t = some (f j) := by
  rw [tfind_onJob, if_pos rfl, hj]; rfl

end Sys2Proof.Machine
end

section
/-! O2: the fuses and the queue (00_scope.md R3). -/

namespace Sys2Proof.Machine

/-- Settles O2: each row is a lifted meaning, but the fall of power-good, which keeps fuses and queue by its own form. -/
theorem fusesNeverChange : Obligations.FusesNeverChange := by
  intro c s
  cases c
  case pwrgoodFall => exact ⟨_, rfl, rfl, rfl⟩
  all_goals exact keeps_fuses_pending_of_after rfl

end Sys2Proof.Machine
end

section
/-! O20: the management endpoint, in-band interrupts, SETDASA and the TAP (00_scope.md R6; 15_safety.md R366; 17_power.md R404; 19_package.md R436, R437). -/

namespace Sys2Proof.Machine

theorem identityAnswer_awake {c : Chip} (e : Env) (h : i3cAwake c = true) :
    identityAnswer e c = emit c (.i3c (leBytes 4 (listed e) ++ leBytes 4 (firmware c) ++ leBytes 4 (bootStage e c))) := if_pos h

theorem identityAnswer_asleep {c : Chip} (e : Env) (h : i3cAwake c = false) : identityAnswer e c = c := if_neg (by simp [h])

theorem setAddr_awake {c : Chip} (a : BitVec 7) (h : i3cAwake c = true) :
    setAddr c a = { c with mgmt := { c.mgmt with dynAddr := a.toNat } } := if_pos h

theorem setAddr_asleep {c : Chip} (a : BitVec 7) (h : i3cAwake c = false) : setAddr c a = c := if_neg (by simp [h])

/-- R366: records wait, IBI_EN is set, and the last interrupt is 10 ms back or more. -/
theorem inBand_due {c : Chip} (hd : c.safe.ibiDue = true) (he : c.mgmt.ibiEn = true)
    (ht : ∀ t0, c.safe.ibiAt = some t0 → t0 + 10 * Config.ms ≤ c.now) :
    inBand c = emit { c with safe := { c.safe with ibiDue := false, ibiAt := some c.now } } .ibi := by
  unfold inBand
  cases ha : c.safe.ibiAt with
  | none => simp [hd, he]
  | some t0 => simp [hd, he, ht t0 ha]

theorem inBand_not_due {c : Chip}
    (h : c.safe.ibiDue = false ∨ c.mgmt.ibiEn = false ∨ ∃ t0, c.safe.ibiAt = some t0 ∧ c.now < t0 + 10 * Config.ms) : inBand c = c := by
  unfold inBand
  rcases h with h | h | ⟨t0, ha, ht⟩
  · simp [h]
  · simp [h]
  · simp [ha, ht]

/-! No row of the port leaves anything in hand. -/

theorem sameHand_setAddr (c : Chip) (a : BitVec 7) : c.SameHand (setAddr c a) := sameHand_ite ⟨rfl, rfl, rfl⟩ (.refl c)

theorem sameHand_inBand (c : Chip) : c.SameHand (inBand c) := sameHand_ite ⟨rfl, rfl, rfl⟩ (.refl c)

theorem sameHand_scanOp (c : Chip) (op : Tap) : c.SameHand (scanOp c op) := ⟨rfl, rfl, rfl⟩

/-! The rows, each by the chip that it settles. -/

theorem exec_identity (s : State) : exec .identity s = .next (s.after (identityAnswer s.env s.chip)) := rfl
theorem exec_setdasa (a : BitVec 7) (s : State) : exec (.setdasa a) s = .next (s.after (setAddr s.chip a)) := rfl
theorem exec_inBandInterrupt (s : State) : exec .inBandInterrupt s = .next (s.after (inBand s.chip)) := rfl
theorem exec_boundaryScan (op : Tap) (s : State) : exec (.boundaryScan op) s = .next (s.after (scanOp s.chip op)) := rfl

/-- Settles O20: each row by the two sides of its condition; the answers add nothing in hand. -/
theorem managementPort : Obligations.ManagementPort := by
  intro a op s hq
  refine ⟨fun h => ?identity, fun h => ?setdasa, fun h => ⟨?identityAsleep, ?setdasaAsleep⟩, fun hd he ht => ?due, fun h => ?notDue, ?tap⟩
  case identity => rw [exec_identity, identityAnswer_awake s.env h, State.after_sameHand s _ hq (sameHand_emit _ _)]
  case setdasa => rw [exec_setdasa, State.after_sameHand s _ hq (sameHand_setAddr _ a), setAddr_awake a h]
  case identityAsleep => rw [exec_identity, identityAnswer_asleep s.env h, s.after_self hq]
  case setdasaAsleep => rw [exec_setdasa, setAddr_asleep a h, s.after_self hq]
  case due => rw [exec_inBandInterrupt, State.after_sameHand s _ hq (sameHand_inBand _), inBand_due hd he ht]
  case notDue => rw [exec_inBandInterrupt, inBand_not_due h, s.after_self hq]
  case tap => rw [exec_boundaryScan, State.after_sameHand s _ hq (sameHand_scanOp _ op)]; rfl

end Sys2Proof.Machine
end

section
/-! O50: LOAD_PROGRAM and the end of a load (00_scope.md R1; 10_contract.md R259; 12_host.md R308; 15_safety.md R355). -/

namespace Sys2Proof.Machine

/-! What a LOAD_PROGRAM from a ring names and reads. -/

/-- The image at the address that the command names. -/
def imgAt (e : Env) (c : Chip) (m : Cmd) : Img := readImg (fun o n => rdBytes e c (arg m 0x10 8 + o) n)

/-- The placement record at the address that the command names. -/
def placementAt (e : Env) (c : Chip) (m : Cmd) (o n : Nat) : List Byte := rdBytes e c (arg m 0x18 8 + o) n

/-- A buffer that the command names lies outside the host tier of its partition (R264, R289). -/
def loadUnnamed (c : Chip) (m : Cmd) : Bool :=
  !(bufferOk c [m.id.part] (arg m 0x10 8) 256) || !(bufferOk c [m.id.part] (arg m 0x18 8) 8) || !(bufferOk c [m.id.part] (arg m 0x20 8) (arg m 0x28 8))

/-- The image is of this format, and it or its placement runs out of the host tier. -/
def loadCut (e : Env) (c : Chip) (m : Cmd) : Bool :=
  (imgAt e c m).here && (!(bufferOk c [m.id.part] (arg m 0x10 8) (256 + (imgAt e c m).body)) ||
    !(bufferOk c [m.id.part] (arg m 0x18 8) (8 + 16 * (imgAt e c m).npkg)))

/-- An uncorrectable word lies in what the command reads (R355): header and first word of a foreign image, everything of one of this format. -/
def loadStruck (e : Env) (c : Chip) (m : Cmd) : Bool :=
  spansBad c [(arg m 0x10 8, 256 + (if (imgAt e c m).here then (imgAt e c m).body else 0)),
    (arg m 0x18 8, 8 + (if (imgAt e c m).here then 16 * (imgAt e c m).npkg else 0))]

theorem loadUnnamed_eq_true {c : Chip} {m : Cmd} (h : bufferOk c [m.id.part] (arg m 0x10 8) 256 = false ∨
    bufferOk c [m.id.part] (arg m 0x18 8) 8 = false ∨ bufferOk c [m.id.part] (arg m 0x20 8) (arg m 0x28 8) = false) : loadUnnamed c m = true := by
  rcases h with h | h | h <;> simp [loadUnnamed, h]

theorem loadUnnamed_eq_false {c : Chip} {m : Cmd} (hi : bufferOk c [m.id.part] (arg m 0x10 8) 256 = true)
    (hp : bufferOk c [m.id.part] (arg m 0x18 8) 8 = true) (hh : bufferOk c [m.id.part] (arg m 0x20 8) (arg m 0x28 8) = true) :
    loadUnnamed c m = false := by
  simp [loadUnnamed, hi, hp, hh]

section Extents
variable {e : Env} {c : Chip} {m : Cmd}

theorem loadCut_foreign (h : (imgAt e c m).here = false) : loadCut e c m = false := by simp [loadCut, h]

theorem loadCut_eq_true (h : (imgAt e c m).here = true) (hb : bufferOk c [m.id.part] (arg m 0x10 8) (256 + (imgAt e c m).body) = false ∨
    bufferOk c [m.id.part] (arg m 0x18 8) (8 + 16 * (imgAt e c m).npkg) = false) : loadCut e c m = true := by
  rcases hb with hb | hb <;> simp [loadCut, h, hb]

theorem loadCut_eq_false (hi : bufferOk c [m.id.part] (arg m 0x10 8) (256 + (imgAt e c m).body) = true)
    (hp : bufferOk c [m.id.part] (arg m 0x18 8) (8 + 16 * (imgAt e c m).npkg) = true) : loadCut e c m = false := by
  simp [loadCut, hi, hp]

theorem loadStruck_foreign (h : (imgAt e c m).here = false) :
    loadStruck e c m = spansBad c [(arg m 0x10 8, 256), (arg m 0x18 8, 8)] := by simp [loadStruck, h]

theorem loadStruck_here (h : (imgAt e c m).here = true) :
    loadStruck e c m = spansBad c [(arg m 0x10 8, 256 + (imgAt e c m).body), (arg m 0x18 8, 8 + 16 * (imgAt e c m).npkg)] := by
  simp [loadStruck, h]

end Extents

/-- The request that the steps of R259 check, on a command that came by a ring. -/
def ringLoad (e : Env) (c : Chip) (blocks : List PkgBlock) (bars : List (List (Nat × Nat))) (others : List PkgCheck) (m : Cmd) : LoadReq :=
  let img := imgAt e c m
  let lays := (List.range img.npkg).map (layAt (placementAt e c m))
  ⟨m, img, arg m 0x18 8, blocks, bars, lays, (lays.map (fun l => l.pkg)).idxOf c.beacon.pkg, others, none, placementAt e c m 0 8,
   codeStands (fun o n => rdBytes e c (arg m 0x10 8 + o) n) img.body blocks⟩

/-! The steps of R259. -/

/-- R1: an image of another format fails the first step. -/
theorem readImg_foreign {rd : Nat → Nat → List Byte} (h : (readImg rd).here = false) : (readImg rd).ok = false := by
  have h' : (field (rd 0 256) 0 2 == 0x0040) = false := h
  simp [readImg, h']

theorem ownCheck_badImage {e : Env} {c : Chip} {q : LoadReq} (h : q.img.ok = false) : ownCheck e c q = (1, .invalidArg) :=
  if_pos (by simp [progImageOk, h])

/-- This package decides about the image itself. -/
theorem deciding_image {own : Nat} {st : Status} (others : List PkgCheck) : deciding own (1, st) others = some (own, st) := if_pos rfl

/-- What the steps decide: the lowest failing step answers, else the program is placed. -/
def loadDecided (e : Env) (c : Chip) (q : LoadReq) : Chip :=
  match deciding c.beacon.pkg (ownCheck e c q) q.others with
  | some (p, st) => finalCmd c q.m.id st 0 0 p
  | none =>
    match q.give c (q.parts c) with
    | none => finalCmd c q.m.id .noRoom 0 0 c.beacon.pkg
    | some al =>
      match relocated q al with
      | none => finalCmd c q.m.id .invalidArg 0 0 c.beacon.pkg
      | some (code, descs, wins) => placeProgram c q al code descs wins

section Decided
variable {e : Env} {c : Chip} {q : LoadReq}

theorem loadDecided_refused {p : Nat} {st : Status} (h : deciding c.beacon.pkg (ownCheck e c q) q.others = some (p, st)) :
    loadDecided e c q = finalCmd c q.m.id st 0 0 p := by
  unfold loadDecided; rw [h]

theorem loadDecided_foreign (h : q.img.ok = false) : loadDecided e c q = finalCmd c q.m.id .invalidArg 0 0 c.beacon.pkg :=
  loadDecided_refused (by rw [ownCheck_badImage h, deciding_image])

theorem loadDecided_placed {al : Alloc} {code : List (List Byte)} {descs : Tab (List Byte)} {wins : Tab Window}
    (h : deciding c.beacon.pkg (ownCheck e c q) q.others = none) (ha : q.give c (q.parts c) = some al)
    (hr : relocated q al = some (code, descs, wins)) : loadDecided e c q = placeProgram c q al code descs wins := by
  unfold loadDecided; simp only [h, ha, hr]

end Decided

/-! LOAD_PROGRAM from a ring: the checks before the steps of R259, and by them the steps. -/

section Load
variable {e : Env} {c : Chip} {m : Cmd} (blocks : List PkgBlock) (bars : List (List (Nat × Nat))) (others : List PkgCheck)

theorem loadProgram_ring : loadProgram e blocks bars others none m c =
    if loadUnnamed c m = true then finalCmd c m.id .denied 0 0 c.beacon.pkg
    else if loadCut e c m = true then finalCmd c m.id .denied 0 0 c.beacon.pkg
    else if loadStruck e c m = true then finalCmd c m.id .hwFault 0 0 c.beacon.pkg
    else loadDecided e c (ringLoad e c blocks bars others m) := by
  unfold loadProgram loadUnnamed loadCut loadStruck
  simp only [Option.isSome_none, Option.isNone_none, Bool.false_or, Bool.true_and]
  unfold imgAt
  rfl

variable {s : State} {id : CmdId} (h : Started s id 0x01 m)
include h

/-- The row runs `loadProgram` on its started command. -/
theorem exec_loadProgram :
    exec (.loadProgram (.ring id) blocks bars others) s = .next (s.after (loadProgram s.env blocks bars others none m s.chip)) := by
  rw [← withStarted_of h (loadProgram s.env blocks bars others none)]; rfl

theorem exec_loadProgram_unnamed (hn : loadUnnamed s.chip m = true) :
    exec (.loadProgram (.ring id) blocks bars others) s = .next (s.after (finalCmd s.chip m.id .denied 0 0 s.chip.beacon.pkg)) := by
  rw [exec_loadProgram blocks bars others h, loadProgram_ring, if_pos hn]

variable (hn : loadUnnamed s.chip m = false)
include hn

theorem exec_loadProgram_cut (hw : loadCut s.env s.chip m = true) :
    exec (.loadProgram (.ring id) blocks bars others) s = .next (s.after (finalCmd s.chip m.id .denied 0 0 s.chip.beacon.pkg)) := by
  rw [exec_loadProgram blocks bars others h, loadProgram_ring, if_neg (ne_true_of_eq_false hn), if_pos hw]

variable (hw : loadCut s.env s.chip m = false)
include hw

theorem exec_loadProgram_struck (hs : loadStruck s.env s.chip m = true) :
    exec (.loadProgram (.ring id) blocks bars others) s = .next (s.after (finalCmd s.chip m.id .hwFault 0 0 s.chip.beacon.pkg)) := by
  rw [exec_loadProgram blocks bars others h, loadProgram_ring, if_neg (ne_true_of_eq_false hn), if_neg (ne_true_of_eq_false hw), if_pos hs]

theorem exec_loadProgram_decided (hs : loadStruck s.env s.chip m = false) :
    exec (.loadProgram (.ring id) blocks bars others) s =
      .next (s.after (loadDecided s.env s.chip (ringLoad s.env s.chip blocks bars others m))) := by
  rw [exec_loadProgram blocks bars others h, loadProgram_ring, if_neg (ne_true_of_eq_false hn), if_neg (ne_true_of_eq_false hw),
    if_neg (ne_true_of_eq_false hs)]

end Load

/-! The end of a load (R259, R393). -/

theorem exec_programLoaded (t : Nat) (v : Bool) (s : State) : exec (.programLoaded t v) s = .next (s.after (programLoaded s.chip t v)) := rfl

section Loaded
variable {c : Chip} {t : Nat} {j : Job} (hj : tfind c.jobs t = some j)
include hj

/-- The tables of cores are written on LIT stacks only (R393). -/
theorem programLoaded_unlit (hl : jobLit c j = false) (v : Bool) : programLoaded c t v = c := by
  unfold programLoaded; simp [hj, hl]

variable {x : CmdId} (hs : j.st = .loading) (hx : j.loadCmd = some x) (hl : jobLit c j = true)
include hs hx hl

theorem programLoaded_verified :
    programLoaded c t true = lampReviews (final (onJob c t (fun j => { j with st := .loaded, loadCmd := none })) x .ok) := by
  unfold programLoaded; simp [hj, hs, hx, hl]

theorem programLoaded_failed : programLoaded c t false = lampReviews (unload (final c x .hwFault) t) := by
  unfold programLoaded; simp [hj, hs, hx, hl]

end Loaded

/-- Settles O50: LOAD_PROGRAM by the first check that fails (buffers, extents, words of the host store, the steps of R259), PROGRAM_LOADED by its outcome. -/
theorem programsLoad : Obligations.ProgramsLoad := by
  refine ⟨?load, ?loaded⟩
  case load =>
    intro id blocks bars others m s _ h own ok img rdP lays q
    refine ⟨fun hb => exec_loadProgram_unnamed blocks bars others h (loadUnnamed_eq_true hb), fun hi hp hh => ?_⟩
    have hn : loadUnnamed s.chip m = false := loadUnnamed_eq_false hi hp hh
    refine ⟨fun hf hs => ?foreign, fun hf hb => exec_loadProgram_cut blocks bars others h hn (loadCut_eq_true hf hb), fun hf hib hpb => ?own⟩
    case foreign =>
      have hs' : loadStruck s.env s.chip m = false := (loadStruck_foreign hf).trans hs
      rw [exec_loadProgram_decided blocks bars others h hn (loadCut_foreign hf) hs', loadDecided_foreign (readImg_foreign hf)]
      rfl
    case own =>
      have hw : loadCut s.env s.chip m = false := loadCut_eq_false hib hpb
      have hspans := loadStruck_here (e := s.env) (c := s.chip) (m := m) hf
      have hdec (hs : loadStruck s.env s.chip m = false) :
          exec (.loadProgram (.ring id) blocks bars others) s = .next (s.after (loadDecided s.env s.chip q)) :=
        exec_loadProgram_decided blocks bars others h hn hw hs
      refine ⟨fun hs => exec_loadProgram_struck blocks bars others h hn hw (hspans.trans hs), fun p st hs hd => ?_, fun al code descs wins hs hd ha hr => ?_⟩
      · rw [hdec (hspans.trans hs), loadDecided_refused hd]
      · rw [hdec (hspans.trans hs), loadDecided_placed hd ha hr]
  case loaded =>
    intro t j x s hq hj hs hx
    simp only [exec_programLoaded]
    refine ⟨fun hl => ⟨?_, ?_⟩, fun hl => ?_⟩
    · rw [programLoaded_verified hj hs hx hl]
    · rw [programLoaded_failed hj hs hx hl]
    · rw [programLoaded_unlit hj hl, s.after_self hq]

end Sys2Proof.Machine
end

section
/-! O60: range pairs, digests and drill-down (00_scope.md R2; 12_host.md R308; 14_reproducibility.md R346-R351). -/

namespace Sys2Proof.Machine

/-! The rows, each by the chip that it settles. -/

theorem exec_rangePair (id : CmdId) (r : Option PairReport) (s : State) :
    exec (.rangePair id r) s = .next (s.after (rangePair s.env s.chip id r)) := rfl
theorem exec_rangePairStop (id : CmdId) (s : State) :
    exec (.rangePairStop id) s = .next (s.after (withAction s.chip id 1 pairStop)) := rfl
theorem exec_rangePairTimeout (t : Nat) (s : State) : exec (.rangePairTimeout t) s = .next (s.after (pairTimeout s.chip t)) := rfl
theorem exec_digest (t tick v : Nat) (s : State) : exec (.digest t tick v) s = .next (s.after (digestArrives s.chip t tick v)) := rfl
theorem exec_drillDown (id : CmdId) (r : Option DrillReport) (s : State) :
    exec (.drillDown id r) s = .next (s.after (drillDown s.chip id r)) := rfl

/-! Commands of opcode 0x51 by their action (R309). -/

theorem withAction_of {s : State} {id : CmdId} {m : Cmd} {a : Nat} (h : Started s id 0x51 m) (ha : arg m 0x10 1 = a)
    (f : Cmd → Chip → Chip) : withAction s.chip id a f = f m s.chip := by
  unfold withAction; rw [withStarted_of h, if_pos ha]

theorem withAction_accepted {c : Chip} {id : CmdId} {m : Cmd} (h : findCmd c id = some m) (ha : m.phase = .accepted) (a : Nat)
    (f : Cmd → Chip → Chip) : withAction c id a f = c := withStarted_accepted h ha _ _

/-! Pairs that the rows make. -/

/-- The pair that a start makes, which waits for the partner's start from `now`. -/
def freshPair (m : Cmd) (now : Nat) : Pair :=
  ⟨m.id, arg m 0x12 2, arg m 0x14 1, false, now, 0, [], [], none, none, none, 0, false, none⟩

/-- The pair with the partner's digest `v` of local tick `k` (R349). -/
def Pair.told (p : Pair) (k v : Nat) : Pair := { p with theirs := tset p.theirs k v }

/-! The start of a pair (R346). -/

section Start
variable {e : Env} {s : State} {id : CmdId} {m : Cmd} {t : Nat} {j : Job}

/-- A new start of this package, without the partner's. -/
theorem rangePair_start (h : Started s id 0x51 m) (ha : arg m 0x10 1 = 0) : rangePair e s.chip id none = pairStart e m s.chip := by
  unfold rangePair; rw [withStarted_of h]; simp [ha]

variable (hj : jobOf s.chip m.target = some (t, j)) (hp : j.place.parts.contains m.id.part = true)
include hj hp

/-- R2: a port that the part does not have. -/
theorem pairStart_absent (hn : arg m 0x14 1 ≤ 15) (ha : (port e s.chip (arg m 0x14 1)).st = .absent) :
    pairStart e m s.chip = final s.chip m.id .engineAbsent := by
  unfold pairStart; rw [onJobTarget_any hj hp]; exact if_pos ⟨hn, ha⟩

theorem pairStart_busy (hn : arg m 0x14 1 ≤ 15 → (port e s.chip (arg m 0x14 1)).st ≠ .absent)
    (hb : j.pair ≠ none ∨ pairPort s.chip (arg m 0x14 1) = true) : pairStart e m s.chip = final s.chip m.id .busy := by
  have hb' : j.pair.isSome = true ∨ pairPort s.chip (arg m 0x14 1) = true := hb.imp_left Option.isSome_iff_ne_none.mpr
  unfold pairStart; rw [onJobTarget_any hj hp]
  exact (if_neg fun h => hn h.1 h.2).trans (if_pos hb')

theorem pairStart_accepted (hf : j.pair = none) (hb : pairPort s.chip (arg m 0x14 1) = false) (hn : arg m 0x14 1 ≤ 15)
    (ho : pairOk e s.chip m.id.part (arg m 0x14 1) (arg m 0x12 2) j = true) :
    pairStart e m s.chip =
      onJob (acceptCmd s.chip m.id (cmdHandle m.id)) t (fun j => { j with pair := some (freshPair m s.chip.now) }) := by
  have hup : (port e s.chip (arg m 0x14 1)).st ≠ .absent := fun h => by simp [pairOk, h] at ho
  unfold pairStart; rw [onJobTarget_any hj hp]
  simp [hup, hf, hb, Nat.not_lt.mpr hn, ho, freshPair]

end Start

/-! The partner's start, and the wait for it (R346). -/

section Form
variable {t : Nat} {j : Job} {p : Pair}

/-- The partner's start meets a start that was accepted before. -/
theorem rangePair_partner {e : Env} {c : Chip} {id : CmdId} {m : Cmd} (h : findCmd c id = some m) (ha : m.phase = .accepted)
    (hp : pairOf c id = some t) (r : PairReport) : rangePair e c id (some r) = pairForm e c t r := by
  unfold rangePair; rw [withStarted_accepted h ha]; simp only [hp]

variable {e : Env} {c : Chip} (hj : tfind c.jobs t = some j) (hp : j.pair = some p)
include hj hp

theorem pairForm_agrees (hf : p.formed = false) {r : PairReport} (ha : pairAgrees e j p r = true)
    (ho : pairOk e c p.cmd.part p.port p.partner j = true) :
    pairForm e c t r = onJob c t (fun j' => { j' with pair := some { p with
      formed := true, since := firstCompared c j, delta := (r.firstTick : Int) - (firstCompared c j : Int) } }) := by
  unfold pairForm; simp [hj, hp, hf, ha, ho]

theorem pairForm_disagrees (hf : p.formed = false) {r : PairReport} (ha : pairAgrees e j p r = false) :
    pairForm e c t r = final (onJob c t (fun j => { j with pair := none })) p.cmd .invalidArg := by
  unfold pairForm; simp [hj, hp, hf, ha]

theorem pairTimeout_late (hf : p.formed = false) (hl : p.since + 100 * Config.ms ≤ c.now) :
    pairTimeout c t = final (onJob c t (fun j => { j with pair := none })) p.cmd .notReady := by
  unfold pairTimeout; simp [hj, hp, hf, Nat.not_lt.mpr hl]

theorem pairTimeout_early (hl : c.now < p.since + 100 * Config.ms) : pairTimeout c t = c := by
  unfold pairTimeout; simp [hj, hp, hl]

/-! Digests (R349). -/

theorem digestArrives_dropped {tick : Nat} (v : Nat) (h : p.formed = false ∨ (tick : Int) - p.delta < (p.since : Int)) :
    digestArrives c t tick v = c := by
  unfold digestArrives; simp only [hj, hp, Option.bind_some]; exact if_pos h

/-- No comparison without this package's own digest of the tick. -/
theorem comparePair_waits {k : Nat} (h : tfind p.own k = none) : comparePair c t k = c := by
  unfold comparePair; simp [hj, hp, h]

/-- A digest that comes before this package's own is kept. -/
theorem digestArrives_kept {tick : Nat} (v : Nat) (hf : p.formed = true) (hs : (p.since : Int) ≤ (tick : Int) - p.delta)
    (ho : tfind p.own ((tick : Int) - p.delta).toNat = none) :
    digestArrives c t tick v = onJob c t (fun j' => { j' with pair := some (p.told ((tick : Int) - p.delta).toNat v) }) := by
  have hg : ¬(p.formed = false ∨ (tick : Int) - p.delta < (p.since : Int)) := by simp [hf]; omega
  unfold digestArrives; simp only [hj, hp, Option.bind_some, if_neg hg]
  rw [onJob_congr (g := fun j' => { j' with pair := some (p.told ((tick : Int) - p.delta).toNat v) }) hj (by simp [hp, Pair.told])]
  exact comparePair_waits (p := p.told ((tick : Int) - p.delta).toNat v) (tfind_onJob_self hj _) rfl ho

end Form

/-! The end of a pair (R349). -/

theorem pairStop_of {s : State} {m : Cmd} {t : Nat} {j : Job} {p : Pair} (hj : jobOf s.chip m.target = some (t, j))
    (hc : j.place.parts.contains m.id.part = true) (hp : j.pair = some p) :
    pairStop m s.chip = doneCmd (pairEnds s.chip t p) m.id .ok (p.firstMiss.getD 0) 0 := by
  unfold pairStop; rw [onJobTarget_any hj hc, hp]

theorem pairEnds_answered (c : Chip) (t : Nat) {p : Pair} (ha : p.answered = true) (hd : p.drill = none) :
    pairEnds c t p = onJob c t (fun j => { j with pair := none }) := by
  unfold pairEnds; simp [ha, hd]

/-! Drill-down (R351). -/

/-- Which drill-down a command runs is written in the jobs alone. -/
theorem drillOf_congr {c d : Chip} (h : d.jobs = c.jobs) (id : CmdId) : drillOf d id = drillOf c id := by
  unfold drillOf; rw [h]

section Drill
variable {s : State} {id : CmdId} {m : Cmd} {t : Nat} {j : Job} {p : Pair}

/-- A drill-down that is refused runs none, whatever the partner reports. -/
theorem drillDown_refused {st : Status} (h : Started s id 0x51 m) (ha : arg m 0x10 1 = 2) (hd : drillOf s.chip id = none)
    (hr : drillStart m s.chip = final s.chip m.id st) (r : Option DrillReport) : drillDown s.chip id r = final s.chip m.id st := by
  have hn : drillOf (final s.chip m.id st) id = none := (drillOf_congr (final_jobs _ _ _) id).trans hd
  unfold drillDown; rw [withAction_of h ha, hr]; simp only [hn]

theorem drillDown_started (h : Started s id 0x51 m) (ha : arg m 0x10 1 = 2) : drillDown s.chip id none = drillStart m s.chip := by
  unfold drillDown; rw [withAction_of h ha]

theorem drillDown_idle {c : Chip} (h : findCmd c id = some m) (ha : m.phase = .accepted) : drillDown c id none = c := by
  unfold drillDown; rw [withAction_accepted h ha]

theorem drillDown_partner {c : Chip} {k : Nat} (h : findCmd c id = some m) (ha : m.phase = .accepted)
    (hd : drillOf c id = some (t, k)) (r : DrillReport) : drillDown c id (some r) = drillEnd c id t k r := by
  unfold drillDown; rw [withAction_accepted h ha]; simp only [hd]

section Taken
variable (hj : jobOf s.chip m.target = some (t, j)) (hc : j.place.parts.contains m.id.part = true)
include hj hc

theorem drillStart_unpaired (hp : j.pair = none) : drillStart m s.chip = final s.chip m.id .invalidArg := by
  unfold drillStart; rw [onJobTarget_any hj hc, hp]

variable (hp : j.pair = some p)
include hp

theorem drillStart_busy (hd : p.drill.isSome = true) : drillStart m s.chip = final s.chip m.id .busy := by
  unfold drillStart; rw [onJobTarget_any hj hc, hp]; exact if_pos hd

theorem drillStart_notReady (hd : p.drill = none) (hn : p.formed = false ∨ tfind j.log (arg m 0x18 8) = none) :
    drillStart m s.chip = final s.chip m.id .notReady := by
  unfold drillStart; rw [onJobTarget_any hj hc, hp]
  exact (if_neg (by simp [hd])).trans (if_pos hn)

theorem drillStart_accepted (hd : p.drill = none) (hf : p.formed = true) (hl : (tfind j.log (arg m 0x18 8)).isSome = true) :
    drillStart m s.chip = onJob (acceptCmd s.chip m.id (cmdHandle m.id)) t (fun j =>
      { j with pair := some { p with drill := some (m.id, arg m 0x18 8) } }) := by
  have hn : ¬(p.formed = false ∨ tfind j.log (arg m 0x18 8) = none) := by simp [hf, Option.isSome_iff_ne_none.mp hl]
  unfold drillStart; rw [onJobTarget_any hj hc, hp]
  exact (if_neg (by simp [hd])).trans (if_neg hn)

end Taken

/-- The pair of a job runs no drill-down any more. -/
def drillOver (j : Job) : Job := { j with pair := j.pair.map (fun p => { p with drill := none }) }

/-- The bank that the pair of a job keeps for tick `k` is free again (R350). -/
def bankFreed (k : Nat) (j : Job) : Job := { j with pair := j.pair.map (fun p => { p with hold := if p.hold = some k then none else p.hold }) }

variable {c : Chip} {k : Nat} (id : CmdId) (hj : tfind c.jobs t = some j) (r : DrillReport)
include hj

theorem drillEnd_notReady (h : r.held = false ∨ tfind j.log k = none) : drillEnd c id t k r = final (onJob c t drillOver) id .notReady := by
  unfold drillEnd; simp only [hj, Option.bind_some]
  cases hl : tfind j.log k with
  | none => rfl
  | some x => exact if_pos (h.resolve_right (by simp [hl]))

/-- With a kept bank on both sides the comparison answers, with an event where it finds two entries that differ. -/
theorem drillEnd_compared {hash : Nat} {ls : List CoreLog} (hl : tfind j.log k = some (hash, ls)) (hh : r.held = true) :
    let x := drillResult hash ls r
    let d := onJob (onJob c t drillOver) t (bankFreed k)
    (x.2 = none → drillEnd c id t k r = doneCmd d id .ok k x.1) ∧
      (∀ w, x.2 = some w → drillEnd c id t k r = doneCmd (jobEvent d t k 4 4 (leBytes 16 w.1 ++ leBytes 16 w.2)) id .ok k x.1) := by
  unfold drillEnd; simp only [hj, hl, hh, Option.bind_some]
  exact ⟨fun h => by simp only [h]; rfl, fun w h => by simp only [h]; rfl⟩

end Drill

/-- Settles O60: each row by the side of its conditions that the statement names; a pair that is only written in the job leaves nothing in hand. -/
theorem rangePairs : Obligations.RangePairs := by
  refine ⟨⟨?start, ?form, ?stop, ?digest⟩, ?drill, ?drillEnd⟩
  case start =>
    intro id m t j s _ h hj hp ha
    simp only [exec_rangePair, rangePair_start h ha]
    exact ⟨fun hn hab => by rw [pairStart_absent hj hp hn hab], fun hn hb => by rw [pairStart_busy hj hp hn hb],
      fun hf hb hn ho => by rw [pairStart_accepted hj hp hf hb hn ho]; rfl⟩
  case form =>
    intro id r t j p m s hq h ha ht hj hp hf
    rw [exec_rangePair, exec_rangePairTimeout, rangePair_partner h ha ht]
    refine ⟨fun hg ho => ?_, fun hg => ?_, fun hl => ?_, fun hl => ?_⟩
    · rw [pairForm_agrees hj hp hf hg ho, State.after_sameHand s _ hq (sameHand_onJob _ _ _)]
    · rw [pairForm_disagrees hj hp hf hg]
    · rw [pairTimeout_late hj hp hf hl]
    · rw [pairTimeout_early hj hp hl, s.after_self hq]
  case stop =>
    intro id m t j p s _ h hj hc ha hp
    exact ⟨by rw [exec_rangePairStop, withAction_of h ha, pairStop_of hj hc hp], pairEnds_answered s.chip t⟩
  case digest =>
    intro t tick v j p s hq hj hp
    rw [exec_digest]
    refine ⟨fun hd => ?_, fun hf hs ho => ?_⟩
    · rw [digestArrives_dropped hj hp v hd, s.after_self hq]
    · rw [digestArrives_kept hj hp v hf hs ho, State.after_sameHand s _ hq (sameHand_onJob _ _ _)]; rfl
  case drill =>
    intro id m t j p s _ h hj hc ha hd
    simp only [exec_drillDown]
    refine ⟨fun hp r => ?_, fun hp hb r => ?_, fun hp hn hr r => ?_, fun hp hn hf hl => ?_⟩
    · rw [drillDown_refused h ha hd (drillStart_unpaired hj hc hp)]
    · rw [drillDown_refused h ha hd (drillStart_busy hj hc hp hb)]
    · rw [drillDown_refused h ha hd (drillStart_notReady hj hc hp hn hr)]
    · rw [drillDown_started h ha, drillStart_accepted hj hc hp hn hf hl]
  case drillEnd =>
    intro id r t k j m s hq h ha hd hj
    simp only [exec_drillDown, drillDown_partner h ha hd]
    refine ⟨fun hr => ?_, fun hash ls hl hh => ?_, ?_⟩
    · rw [drillEnd_notReady id hj r hr]; rfl
    · obtain ⟨hsame, hdiff⟩ := drillEnd_compared id hj r hl hh
      exact ⟨fun hx => by rw [hsame hx]; rfl, fun w hx => by rw [hdiff w hx]; rfl⟩
    · rw [drillDown_idle h ha, s.after_self hq]

end Sys2Proof.Machine
end

section
/-! SUPPORT. What the operations of the Beacon leave alone: folds over the chip, the power controller, messages that leave by the ports, records that are posted. -/

namespace Sys2Proof.Machine

/-! Folds. -/

section Folds
variable {α : Type} {f : Chip → α → Chip}

/-- What every step keeps, the fold keeps. -/
theorem each_keeps {P : Chip → Prop} (h : ∀ c x, P c → P (f c x)) (l : List α) {c : Chip} (h0 : P c) : P (each l c f) := by
  induction l generalizing c with
  | nil => exact h0
  | cons x l ih => exact ih (h c x h0)

theorem each_field {β : Type} (g : Chip → β) (h : ∀ c x, g (f c x) = g c) (l : List α) (c : Chip) : g (each l c f) = g c :=
  each_keeps (P := fun d => g d = g c) (fun d x hd => (h d x).trans hd) l rfl

/-- Steps that change nothing of `c`. -/
theorem each_same {l : List α} {c : Chip} (h : ∀ x ∈ l, f c x = c) : each l c f = c := by
  induction l with
  | nil => rfl
  | cons x l ih =>
    have hx : f c x = c := h x List.mem_cons_self
    unfold each at ih ⊢
    rw [List.foldl_cons, hx]
    exact ih fun y hy => h y (List.mem_cons_of_mem _ hy)

theorem each_nil (c : Chip) (f : Chip → α → Chip) : each [] c f = c := rfl
theorem each_one (c : Chip) (x : α) (f : Chip → α → Chip) : each [x] c f = f c x := rfl

end Folds

/-! The power controller changes lamps alone (R389-R394). -/

/-- `d` is `c` but for the lamps. -/
def Chip.LampsOnly (c d : Chip) : Prop := d = { c with lamps := d.lamps }

section
variable {c d e : Chip}

theorem Chip.LampsOnly.trans (h : c.LampsOnly d) (k : d.LampsOnly e) : c.LampsOnly e := by
  unfold Chip.LampsOnly at *
  rw [k, h]

theorem Chip.LampsOnly.on (h : c.LampsOnly d) {β : Type} (g : Chip → β) : g d = g { c with lamps := d.lamps } := congrArg g h

theorem Chip.LampsOnly.sameHand (h : c.LampsOnly d) : c.SameHand d := ⟨h.on Chip.writes, h.on Chip.clears, h.on Chip.raised⟩

end

theorem lampsOnly_each {α : Type} (l : List α) (f : Chip → α → Chip) (h : ∀ (c : Chip) x, c.LampsOnly (f c x)) (c : Chip) : c.LampsOnly (each l c f) :=
  each_keeps (P := c.LampsOnly) (fun d x hd => hd.trans (h d x)) l (show c.LampsOnly c from rfl)

/-- A review of a stack leaves it or begins a transition. -/
theorem lampReview_cases (c : Chip) (k : Nat) : lampReview c k = c ∨ ∃ g, lampReview c k = beginLamp c k g := by
  unfold lampReview
  simp only []
  split_ifs
  · exact .inl rfl
  · exact .inl rfl
  · exact .inr ⟨_, rfl⟩
  · exact .inr ⟨_, rfl⟩
  · exact .inr ⟨_, rfl⟩
  · exact .inl rfl

theorem lampsOnly_lampReview (c : Chip) (k : Nat) : c.LampsOnly (lampReview c k) := by
  obtain h | ⟨g, h⟩ := lampReview_cases c k <;> rw [h] <;> rfl

theorem lampsOnly_lampReviews (c : Chip) : c.LampsOnly (lampReviews c) := lampsOnly_each _ _ lampsOnly_lampReview c

theorem lampsOnly_countLate (c : Chip) (j : Job) : c.LampsOnly (countLate c j) := lampsOnly_each _ _ (fun d k => show d.LampsOnly (onLamp d k _) from rfl) c

theorem sameHand_lampReviews (c : Chip) : c.SameHand (lampReviews c) := (lampsOnly_lampReviews c).sameHand

section
variable (c : Chip)
@[simp] theorem lampReviews_now : (lampReviews c).now = c.now := (lampsOnly_lampReviews c).on Chip.now
@[simp] theorem lampReviews_jobs : (lampReviews c).jobs = c.jobs := (lampsOnly_lampReviews c).on Chip.jobs
@[simp] theorem lampReviews_reqs : (lampReviews c).reqs = c.reqs := (lampsOnly_lampReviews c).on Chip.reqs
@[simp] theorem lampReviews_beacon : (lampReviews c).beacon = c.beacon := (lampsOnly_lampReviews c).on Chip.beacon
@[simp] theorem lampReviews_out : (lampReviews c).out = c.out := (lampsOnly_lampReviews c).on Chip.out
end

theorem lampReview_late (c : Chip) (n k : Nat) : (lamp (lampReview c n) k).late = (lamp c k).late := by
  obtain h | ⟨g, h⟩ := lampReview_cases c n <;> rw [h]
  unfold beginLamp; rw [lamp_onLamp]
  split
  · next hk => rw [hk]
  · rfl

/-- The controller counts nothing: LATE is counted where an event is met (R394). -/
theorem lampReviews_late (c : Chip) (k : Nat) : (lamp (lampReviews c) k).late = (lamp c k).late :=
  each_field (fun d => (lamp d k).late) (fun d n => lampReview_late d n k) _ c

/-! Messages that leave (R321): the ports and the record of what leaves change. -/

/-- `d` is `c` but for its ports and what has left. -/
def Chip.WireOnly (c d : Chip) : Prop := d = { c with ports := d.ports, out := d.out }

section
variable {c d e : Chip}

theorem Chip.WireOnly.refl (c : Chip) : c.WireOnly c := rfl

theorem Chip.WireOnly.trans (h : c.WireOnly d) (k : d.WireOnly e) : c.WireOnly e := by
  unfold Chip.WireOnly at *
  rw [k, h]

theorem Chip.WireOnly.on (h : c.WireOnly d) {β : Type} (g : Chip → β) : g d = g { c with ports := d.ports, out := d.out } := congrArg g h

theorem Chip.WireOnly.sameHand (h : c.WireOnly d) : c.SameHand d := ⟨h.on Chip.writes, h.on Chip.clears, h.on Chip.raised⟩

end

theorem wireOnly_portBeacon (c : Chip) (n dest src at_ : Nat) (m : BeaconMsg) : c.WireOnly (portBeacon c n dest src at_ m) := by
  unfold portBeacon; simp only []; split <;> rfl

theorem wireOnly_foldl {α : Type} (l : List α) (f : Chip → α → Chip) (h : ∀ (c : Chip) x, c.WireOnly (f c x)) (c : Chip) : c.WireOnly (l.foldl f c) :=
  each_keeps (P := c.WireOnly) (fun d x hd => hd.trans (h d x)) l (Chip.WireOnly.refl c)

theorem wireOnly_sendBeacon (c : Chip) (m : BeaconMsg) : c.WireOnly (sendBeacon c m) :=
  wireOnly_foldl _ _ (fun d n => wireOnly_portBeacon d n _ _ _ m) c

theorem wireOnly_flood (c : Chip) (v : VerdictMsg) : c.WireOnly (flood c v) := wireOnly_sendBeacon c _

theorem wireOnly_forwardMark (c : Chip) (p : Nat) (m : Mark) : c.WireOnly (forwardMark c p m) :=
  wireOnly_foldl _ _ (fun d n => wireOnly_portBeacon d n _ _ _ _) c

theorem wireOnly_sendTo (c : Chip) (tag dest src : Nat) (lat : Nat → Nat) (m : BeaconMsg) : c.WireOnly (sendTo c tag dest src lat m) := by
  unfold sendTo; split
  · exact wireOnly_portBeacon c _ _ _ _ m
  · rfl

/-- `c` and `d` send alike: the same clock, package, ports and record of what has left. -/
structure Chip.SameWire (c d : Chip) : Prop where
  now : d.now = c.now
  pkg : d.beacon.pkg = c.beacon.pkg
  ports : d.ports = c.ports
  out : d.out = c.out

theorem sameWire_portBeacon {c d : Chip} (h : c.SameWire d) (n dest src at_ : Nat) (m : BeaconMsg) :
    (portBeacon c n dest src at_ m).SameWire (portBeacon d n dest src at_ m) := by
  obtain ⟨hn, hk, hp, ho⟩ := h
  have hc := wireOnly_portBeacon c n dest src at_ m
  have hd := wireOnly_portBeacon d n dest src at_ m
  refine ⟨((hd.on Chip.now).trans hn).trans (hc.on Chip.now).symm,
    ((hd.on (fun x => x.beacon.pkg)).trans hk).trans (hc.on (fun x => x.beacon.pkg)).symm, ?_, ?_⟩
  all_goals
    unfold portBeacon onPort emit
    simp only [hp]
    split <;> simp only [ho]

theorem sameWire_foldl {α : Type} (l : List α) {f : Chip → α → Chip} (h : ∀ (c d : Chip) x, c.SameWire d → (f c x).SameWire (f d x)) {c d : Chip}
    (hw : c.SameWire d) : (l.foldl f c).SameWire (l.foldl f d) := by
  induction l generalizing c d with
  | nil => exact hw
  | cons x l ih => exact ih (h c d x hw)

theorem joinedPorts_congr {c d : Chip} (h : d.ports = c.ports) : joinedPorts d = joinedPorts c := by unfold joinedPorts; rw [h]

/-- A message floods alike where the places of the jobs are alike (R48). -/
theorem floodPorts_congr {c d : Chip} (h : c.SameWire d) (hj : ∀ t, (tfind d.jobs t).map (fun j => j.place) = (tfind c.jobs t).map (fun j => j.place))
    (m : BeaconMsg) : floodPorts d m = floodPorts c m := by
  have hany (t q : Nat) : (tfind d.jobs t).any (fun j => q != d.beacon.pkg && j.place.pkgs.contains q) =
      (tfind c.jobs t).any (fun j => q != c.beacon.pkg && j.place.pkgs.contains q) := by
    have := congrArg (fun o : Option Place => o.any (fun p => q != c.beacon.pkg && p.pkgs.contains q)) (hj t)
    rw [h.pkg]
    simpa [Option.any_map] using this
  unfold floodPorts
  simp only [joinedPorts_congr h.ports, h.ports, hany]

theorem sameWire_sendBeacon {c d : Chip} (h : c.SameWire d) {m : BeaconMsg} (hf : floodPorts d m = floodPorts c m) :
    (sendBeacon c m).SameWire (sendBeacon d m) := by
  unfold sendBeacon; rw [hf]
  refine sameWire_foldl _ (fun a b n hab => ?_) h
  rw [hab.pkg, hab.now]
  exact sameWire_portBeacon hab _ _ _ _ _

theorem sameWire_sendTo {c d : Chip} (h : c.SameWire d) {tag : Nat}
    (hj : (tfind d.jobs tag).map (fun j => j.place) = (tfind c.jobs tag).map (fun j => j.place)) (dest src : Nat) (lat : Nat → Nat) (m : BeaconMsg) :
    (sendTo c tag dest src lat m).SameWire (sendTo d tag dest src lat m) := by
  have hr : (tfind d.jobs tag).bind (fun j => tfind j.place.toward dest) = (tfind c.jobs tag).bind (fun j => tfind j.place.toward dest) := by
    have := congrArg (fun o : Option Place => o.bind (fun p => tfind p.toward dest)) hj
    simpa [Option.bind_map, Function.comp_def] using this
  unfold sendTo; rw [hr]
  split
  · rw [h.now]; exact sameWire_portBeacon h _ _ _ _ _
  · exact ⟨h.now, h.pkg, h.ports, congrArg (· ++ _) h.out⟩

/-! Records that are posted (R299, R302, R363-R366). -/

/-- `d` is `c` but for rings, counts of lost records, the safety state, what has left and the writes in hand. -/
def Chip.RecordsOnly (c d : Chip) : Prop :=
  d = { c with parts := d.parts, rings := d.rings, safe := d.safe, out := d.out, writes := d.writes }

section
variable {c d e : Chip}

theorem Chip.RecordsOnly.refl (c : Chip) : c.RecordsOnly c := rfl

theorem Chip.RecordsOnly.trans (h : c.RecordsOnly d) (k : d.RecordsOnly e) : c.RecordsOnly e := by
  unfold Chip.RecordsOnly at *
  rw [k, h]

theorem Chip.RecordsOnly.on (h : c.RecordsOnly d) {β : Type} (g : Chip → β) :
    g d = g { c with parts := d.parts, rings := d.rings, safe := d.safe, out := d.out, writes := d.writes } := congrArg g h

end

theorem recordsOnly_postRecord (c : Chip) (k : Nat) (irq : Bool) (body : Nat → List Byte) : c.RecordsOnly (postRecord c k irq body) := by
  unfold postRecord checkIrq sendIrq wr
  simp only []
  repeat' split
  all_goals rfl

theorem recordsOnly_postLossy (c : Chip) (p i : Nat) (body : Bool → Nat → List Byte) : c.RecordsOnly (postLossy c p i body) := by
  unfold postLossy; simp only []
  split
  · rfl
  · exact Chip.RecordsOnly.trans (d := onRing c (ringKey p i) (fun r => { r with lost := false })) rfl (recordsOnly_postRecord _ _ _ _)

theorem recordsOnly_event (c : Chip) (ps : List Nat) (r : EventRec) : c.RecordsOnly (event c ps r) := by
  have h := each_keeps (P := c.RecordsOnly) (fun d p hd => hd.trans (recordsOnly_postLossy d p 128 (eventBytes r))) ps (Chip.RecordsOnly.refl c)
  unfold event; simp only []
  split
  · exact h.trans rfl
  · exact h

theorem recordsOnly_postFault (c : Chip) (p : Option Nat) (r : FaultRec) : c.RecordsOnly (postFault c p r) := by
  unfold postFault
  cases p with
  | none => rfl
  | some p => exact (recordsOnly_postLossy c p 129 (faultBytes r)).trans rfl

/-! The sequences of the management log (R366) rise with its own entries only. -/

/-- Both sequences of the management log. -/
def Chip.logSeqs (c : Chip) : Nat × Nat := (c.safe.faultSeq, c.safe.eventSeq)

theorem logSeqs_wr (c : Chip) (a : Nat) (bs : List Byte) : (wr c a bs).logSeqs = c.logSeqs := by unfold wr; split <;> rfl

theorem logSeqs_postRecord (c : Chip) (k : Nat) (irq : Bool) (body : Nat → List Byte) : (postRecord c k irq body).logSeqs = c.logSeqs := by
  have hirq (d : Chip) : (checkIrq d k).logSeqs = d.logSeqs := by unfold checkIrq sendIrq; split <;> rfl
  unfold postRecord; simp only []
  rw [hirq]
  exact logSeqs_wr c _ _

theorem logSeqs_postLossy (c : Chip) (p i : Nat) (body : Bool → Nat → List Byte) : (postLossy c p i body).logSeqs = c.logSeqs := by
  unfold postLossy; simp only []
  split
  · rfl
  · exact logSeqs_postRecord _ _ _ _

theorem logSeqs_postLossy_each (c : Chip) (ps : List Nat) (i : Nat) (body : Bool → Nat → List Byte) :
    (each ps c (fun c p => postLossy c p i body)).logSeqs = c.logSeqs := each_field Chip.logSeqs (fun d p => logSeqs_postLossy d p i body) ps c

theorem postFault_faultSeq (c : Chip) (p : Option Nat) (r : FaultRec) : (postFault c p r).safe.faultSeq = (c.safe.faultSeq + 1) % 2 ^ 16 := by
  cases p with
  | none => rfl
  | some p => exact congrArg (fun x : Nat × Nat => (x.1 + 1) % 2 ^ 16) (logSeqs_postLossy c p 129 (faultBytes r))

/-- An event that the management log does not keep leaves its sequences. -/
theorem logSeqs_event_plain (c : Chip) (ps : List Nat) {r : EventRec} (h : r.event < 6) : (event c ps r).logSeqs = c.logSeqs := by
  unfold event; simp only []
  rw [if_neg (by omega)]
  exact logSeqs_postLossy_each c ps 128 (eventBytes r)

theorem event_eventSeq_halt (c : Chip) (ps : List Nat) {r : EventRec} (h : r.event = 9) :
    (event c ps r).safe.eventSeq = (c.safe.eventSeq + 1) % 2 ^ 16 := by
  unfold event; simp only []
  rw [if_pos (by omega)]
  exact congrArg (fun x : Nat × Nat => (x.2 + 1) % 2 ^ 16) (logSeqs_postLossy_each c ps 128 (eventBytes r))

end Sys2Proof.Machine
end

section
/-! O7: the Beacon's set-up registers (02_beacon.md R28, R30; 18_registers.md R418-R420). -/

namespace Sys2Proof.Machine

/-! The rows, each by the chip that it settles. -/

theorem exec_beaconDomain (x : Src) (v : Word) (s : State) :
    exec (.beaconDomain x v) s = .next (s.after (putReg x 0x30000 4 v.toNat s.env s.chip)) := rfl
theorem exec_beaconPkg (x : Src) (v : Word) (s : State) :
    exec (.beaconPkg x v) s = .next (s.after (putReg x 0x30004 4 v.toNat s.env s.chip)) := rfl
theorem exec_beaconLead (x : Src) (v : Word) (s : State) :
    exec (.beaconLead x v) s = .next (s.after (putReg x 0x3000C 4 v.toNat s.env s.chip)) := rfl
theorem exec_member (x : Src) (s : State) : exec (.member x) s = .next (s.after (putReg x 0x30008 4 0 s.env s.chip)) := rfl
theorem exec_lighthouse (x : Src) (s : State) : exec (.lighthouse x) s = .next (s.after (putReg x 0x30008 4 1 s.env s.chip)) := rfl
theorem exec_standby (x : Src) (s : State) : exec (.standby x) s = .next (s.after (putReg x 0x30008 4 2 s.env s.chip)) := rfl

/-- A whole write of a four-byte register of class M, after READY and by a source that may write, is its effect (R407, R409). -/
theorem putReg_machine {x : Src} {s : State} {r : Reg} {off : Nat} (hr : s.chip.boot.ready = true) (hx : MachineSrc x) (hi : I3cUp s x)
    (hreg : regAt off = some (r, off, 4)) (hw : regWriters r = .m) (hn : off ≠ 0x31000) (v : Nat) :
    putReg x off 4 v s.env s.chip = regPut s.env s.chip r (v % 2 ^ 32) :=
  putReg_whole hreg (by rw [hw]; exact mayWrite_m hx) (.inl hr) hn hi

/-! Joining again (R418). -/

theorem wireOnly_rejoin (e : Env) (c : Chip) : c.WireOnly (rejoin e c) :=
  wireOnly_foldl _ _ (fun d n => (show d.WireOnly (onPort d n _) from rfl).trans (wireOnly_portBeacon _ n _ _ _ _)) c

theorem portBeacon_joined (c : Chip) (n k dest src at_ : Nat) (m : BeaconMsg) :
    (tget Port.reset (portBeacon c n dest src at_ m).ports k).joined = (tget Port.reset c.ports k).joined := by
  have hport (f : Port → Port) (hf : ∀ p, (f p).joined = p.joined) :
      (tget Port.reset (onPort c n f).ports k).joined = (tget Port.reset c.ports k).joined := by
    rw [tget_onPort]; split
    · next h => rw [hf, h]
    · rfl
  unfold portBeacon; simp only []
  split
  · exact hport _ fun p => by repeat' split
                              all_goals rfl
  · rw [emit_ports]
    exact hport _ fun p => by repeat' split
                              all_goals rfl

/-- A port that has left its domain stays so while the others join again. -/
theorem rejoin_unjoined (e : Env) (c : Chip) {n : Nat} (h : n ∈ portsHere e) (hu : (port e c n).st = .up) :
    (tget Port.reset (rejoin e c).ports n).joined = false := by
  have hstep (d : Chip) (k : Nat) : (tget Port.reset (sendJoin (onPort d k (fun p => { p with joined := false })) k).ports n).joined =
      if n = k then false else (tget Port.reset d.ports n).joined := by
    unfold sendJoin; rw [portBeacon_joined, tget_onPort]; split <;> rfl
  have hfold (l : List Nat) (d : Chip) (hd : n ∈ l ∨ (tget Port.reset d.ports n).joined = false) :
      (tget Port.reset (each l d (fun c k => sendJoin (onPort c k (fun p => { p with joined := false })) k)).ports n).joined = false := by
    induction l generalizing d with
    | nil => exact hd.resolve_left List.not_mem_nil
    | cons k l ih =>
      refine ih _ ?_
      rw [hstep]
      by_cases hk : n = k
      · exact .inr (if_pos hk)
      · rw [if_neg hk]; exact hd.imp_left fun hm => (List.mem_cons.mp hm).resolve_left hk
  exact hfold _ c (.inl (List.mem_filter.mpr ⟨h, by simp [hu]⟩))

/-! BEACON_ROLE (R419). -/

theorem sameHand_roleWrite_lighthouse (c : Chip) : c.SameHand (roleWrite c 1) := ⟨rfl, rfl, rfl⟩

/-! Effects that depend on the jobs of the package (R418, R420). -/

theorem regPut_beaconDomain (e : Env) (c : Chip) (v : Nat) :
    regPut e c .beaconDomain v = if c.jobs = [] then rejoin e (onBeacon c (fun b => { b with domain := BitVec.ofNat 32 v })) else c := rfl
theorem regPut_beaconPkg (e : Env) (c : Chip) (v : Nat) :
    regPut e c .beaconPkg v = if c.jobs = [] then rejoin e (onBeacon c (fun b => { b with pkg := v % 2 ^ 12 })) else c := rfl
theorem regPut_beaconLead (e : Env) (c : Chip) (v : Nat) : regPut e c .beaconLead v =
    if c.jobs.any (fun p => jobRunning p.2) ∨ v % 2 ^ 14 < 2600 ∨ 13000 < v % 2 ^ 14 then c else onBeacon c (fun b => { b with lead := v % 2 ^ 14 }) := rfl

/-- What joining again after a change of the Beacon leaves: the Beacon as changed, every UP port not joined. -/
theorem after_rejoin {s : State} (hq : s.quiet) (f : Beacon → Beacon) :
    (s.after (rejoin s.env (onBeacon s.chip f))).chip.beacon = f s.chip.beacon ∧
      (∀ n ∈ portsHere s.env, (port s.env s.chip n).st = .up →
        (tget Port.reset (s.after (rejoin s.env (onBeacon s.chip f))).chip.ports n).joined = false) ∧
      (s.after (rejoin s.env (onBeacon s.chip f))).mem = s.mem := by
  have hw : (onBeacon s.chip f).WireOnly (rejoin s.env (onBeacon s.chip f)) := wireOnly_rejoin _ _
  rw [State.after_sameHand s _ hq ((sameHand_onBeacon s.chip f).trans hw.sameHand)]
  exact ⟨hw.on Chip.beacon, fun n hn hu => rejoin_unjoined s.env (onBeacon s.chip f) hn hu, rfl⟩

/-- Settles O7: every write is its register's own effect; joining again leaves the UP ports not joined, whatever they send. -/
theorem beaconRegisterWrites : Obligations.BeaconRegisterWrites := by
  refine ⟨?identity, ?lead, ?role⟩
  case identity =>
    intro x v s hq hr hx hi
    have hv : v.toNat % 2 ^ 32 = v.toNat := Nat.mod_eq_of_lt v.isLt
    rw [exec_beaconDomain, exec_beaconPkg, putReg_machine hr hx hi rfl rfl (by decide), putReg_machine hr hx hi rfl rfl (by decide), hv,
      regPut_beaconDomain, regPut_beaconPkg, BitVec.ofNat_toNat, BitVec.setWidth_eq]
    refine ⟨fun hj => ?_, fun hj => ?_, fun hj => ?_⟩
    · rw [if_pos hj]; exact ⟨_, rfl, after_rejoin hq _⟩
    · rw [if_pos hj]; exact ⟨_, rfl, after_rejoin hq _⟩
    · rw [if_neg hj, if_neg hj, s.after_self hq]; exact ⟨rfl, rfl⟩
  case lead =>
    intro x v s hq hr hx hi
    have hv : v.toNat % 2 ^ 32 = v.toNat := Nat.mod_eq_of_lt v.isLt
    rw [exec_beaconLead, putReg_machine hr hx hi rfl rfl (by decide), hv, regPut_beaconLead]
    refine ⟨fun hj => ?_, fun hj => ?_, fun hj hl hu => ?_⟩
    · rw [if_pos (.inl hj), s.after_self hq]
    · rw [if_pos (.inr hj), s.after_self hq]
    · have hn : ¬(s.chip.jobs.any (fun p => jobRunning p.2) = true ∨ v.toNat % 2 ^ 14 < 2600 ∨ 13000 < v.toNat % 2 ^ 14) := by simp [hj]; omega
      rw [if_neg hn, State.after_sameHand s _ hq (sameHand_onBeacon _ _)]; rfl
  case role =>
    intro x s hq hr hx hi
    have hput (v : Nat) (hv : v < 4) : putReg x 0x30008 4 v s.env s.chip = roleWrite s.chip v := by
      rw [putReg_machine hr hx hi rfl rfl (by decide), Nat.mod_eq_of_lt (by omega)]; rfl
    rw [exec_member, exec_standby, exec_lighthouse, hput 0 (by decide), hput 1 (by decide), hput 2 (by decide),
      State.after_sameHand s (roleWrite s.chip 1) hq (sameHand_roleWrite_lighthouse _)]
    refine ⟨?_, ?_, _, rfl, rfl, rfl, rfl, rfl, rfl, rfl⟩
    · exact congrArg _ (State.after_sameHand s _ hq (sameHand_onBeacon _ _))
    · exact congrArg _ (State.after_sameHand s _ hq (sameHand_onBeacon _ _))

end Sys2Proof.Machine
end

section
/-! O24, O26: edge marks, and the watch over the lighthouse (02_beacon.md R24, R29-R31; 13_ihlan.md R332). -/

namespace Sys2Proof.Machine

/-! The rows, each by the chip that it settles. -/

theorem exec_originateMark (s : State) : exec .originateMark s = .next (s.after (originateMark s.chip)) := rfl
theorem exec_edgeMark {p : Nat} (hp : p < 16) (x : Nat) (m : Mark) (s : State) : exec (.edgeMark p x m) s = .next (s.after (edgeMark s.chip p x m)) := by
  show Host.Outcome.next (s.after (edgeMark s.chip (p % 16) x m)) = _
  rw [Nat.mod_eq_of_lt hp]
theorem exec_lighthouseLost (s : State) : exec .lighthouseLost s = .next (s.after (lighthouseWatch s.chip)) := rfl
theorem exec_standbyTakeover (s : State) : exec .standbyTakeover s = .next (s.after (standbyTakeover s.chip)) := rfl
theorem exec_domainHalted (s : State) : exec .domainHalted s = .next (s.after (domainHalt s.chip)) := rfl
theorem exec_locked (s : State) : exec .locked s = .next (s.after (setLocked s.chip)) := rfl

/-! LIGHTHOUSE_LOST (R29). -/

/-- Reporting the loss posts records, and is noted. -/
theorem lighthouseLost_eq (c : Chip) : ∃ d, c.RecordsOnly d ∧ d.safe.faultSeq = (c.safe.faultSeq + 1) % 2 ^ 16 ∧
    lighthouseLost c = onBeacon d (fun b => { b with lostSaid := true }) := by
  refine ⟨_, ?_, ?_, rfl⟩
  · exact (recordsOnly_event c _ _).trans (recordsOnly_postFault _ _ _)
  · rw [postFault_faultSeq]
    exact congrArg (fun x : Nat × Nat => (x.1 + 1) % 2 ^ 16) (logSeqs_event_plain c (assignedParts c) (show (2 : Nat) < 6 by decide))

theorem lighthouseWatch_lost {c : Chip} {t : Nat} (hf : c.beacon.firedAt = some t) (hs : c.beacon.lostSaid = false) (hi : c.beacon.inForce ≠ 0)
    (hl : 2 * t + 3 * c.beacon.inForce ≤ 2 * c.now) : lighthouseWatch c = lighthouseLost c := by
  unfold lighthouseWatch; rw [hf]; exact if_pos ⟨hs, hi, hl⟩

theorem lighthouseWatch_said {c : Chip} (hs : c.beacon.lostSaid = true) : lighthouseWatch c = c := by
  unfold lighthouseWatch
  cases c.beacon.firedAt with
  | none => rfl
  | some t => exact if_neg fun h => by simp [hs] at h

/-! Marks of the lighthouse (R24). -/

/-- The chip whose lighthouse has taken `e` for its next edge. -/
def edgeOriginated (c : Chip) (e : DueEdge) : Chip :=
  onBeacon c (fun b => { b with phase := some e, period := e.period, seen := some e.n, due := b.due ++ [e] })

theorem originateMark_member {c : Chip} (h : c.beacon.role ≠ 1) : originateMark c = c := if_pos h

theorem originateMark_next {c : Chip} {e : DueEdge} (hr : c.beacon.role = 1) (hp : c.beacon.phase = some e) (hn : c.beacon.pending = none)
    (hl : e.at_ + e.period ≤ c.now + c.beacon.lead) : originateMark c =
      sendBeacon (edgeOriginated c ⟨e.n + 1, e.at_ + e.period, e.period⟩) (.mark ⟨e.n + 1, c.beacon.epoch, e.period, c.beacon.pkg, 0⟩) := by
  have hedge : nextEdge c.beacon = some ⟨e.n + 1, e.at_ + e.period, e.period⟩ := by unfold nextEdge; rw [hp, hn]
  unfold originateMark
  rw [if_neg (not_not_intro hr), hedge]
  simp only [hp, hn, if_neg (Nat.not_lt.mpr hl)]
  unfold edgeOriginated onBeacon
  rw [← hn]; rfl

/-! Marks that arrive (R24, R25, R30). -/

/-- The Beacon once a mark is taken: it is the phase, and its edge `e` is scheduled while the clocks are locked. -/
def markTaken (b : Beacon) (fresh : Bool) (p d : Nat) (m : Mark) (e : DueEdge) : Beacon :=
  { b with
    epoch := m.epoch, origin := some m.origin, lighthouse := m.origin, seen := some (max m.n (b.seen.getD 0)), period := m.period, phase := some e
    choice := if fresh || b.choice.isNone then some (m.n, p, d) else b.choice
    due := if b.locked then b.due ++ [e] else b.due }

/-- The chip that has taken a mark: one of a source that prevails ends a halt. -/
def takeMark (c : Chip) (fresh : Bool) (p d : Nat) (m : Mark) (e : DueEdge) : Chip :=
  { onBeacon c (fun b => markTaken b fresh p d m e) with boot := { c.boot with halted := c.boot.halted && !fresh } }

theorem sameHand_takeMark (c : Chip) (fresh : Bool) (p d : Nat) (m : Mark) (e : DueEdge) : c.SameHand (takeMark c fresh p d m e) := ⟨rfl, rfl, rfl⟩

theorem sameWire_takeMark (c : Chip) (fresh : Bool) (p d : Nat) (m : Mark) (e : DueEdge) : c.SameWire (takeMark c fresh p d m e) := ⟨rfl, rfl, rfl, rfl⟩

theorem delay_add_hopPs (m : Mark) (x : Nat) : m.delay + hopPs x = m.delay + 310000 + x * 23077 := (Nat.add_assoc _ _ _).symm

theorem edgeMark_unjoined {c : Chip} {p : Nat} (h : (tget Port.reset c.ports p).joined = false) (x : Nat) (m : Mark) : edgeMark c p x m = c := if_pos h

section Followed
variable {c : Chip} {p x : Nat} {m : Mark} (hj : (tget Port.reset c.ports p).joined = true) (hf : markFollowed c.beacon m = true)
  (hb : betterChoice c.beacon m p (m.delay + hopPs x) = false) (ho : m.origin ≠ c.beacon.pkg)
include hj hf hb ho

theorem edgeMark_taken (hr : c.beacon.role ≠ 1) (hl : psCycles (m.delay + hopPs x) < c.beacon.lead) : edgeMark c p x m =
    forwardMark (takeMark c (newSource c.beacon m) p (m.delay + hopPs x) m
      ⟨m.n, c.now + c.beacon.lead - psCycles (m.delay + hopPs x), m.period⟩) p m := by
  unfold edgeMark
  simp only [hj, hb, hf, ho, Nat.not_le.mpr hl, beq_false_of_ne hr, Bool.true_eq_false, Bool.false_eq_true, or_self, if_false]
  rfl

/-- A lighthouse that must follow a mark steps down, reports the loss and takes the mark. -/
theorem edgeMark_steps_down (hr : c.beacon.role = 1) (hl : psCycles (m.delay + hopPs x) < c.beacon.lead) : edgeMark c p x m =
    forwardMark (takeMark (lighthouseLost (onBeacon c (fun b => { b with role := 0 }))) (newSource c.beacon m) p (m.delay + hopPs x) m
      ⟨m.n, c.now + c.beacon.lead - psCycles (m.delay + hopPs x), m.period⟩) p m := by
  unfold edgeMark
  simp only [hj, hb, hf, ho, Nat.not_le.mpr hl, hr, beq_self_eq_true, Bool.true_eq_false, Bool.false_eq_true, or_self, if_false, if_true]
  rfl

theorem edgeMark_dropped (hr : c.beacon.role ≠ 1) (hl : c.beacon.lead ≤ psCycles (m.delay + hopPs x)) :
    edgeMark c p x m = onBeacon c (fun b => { b with dropped := satAdd 8 b.dropped 1, epoch := m.epoch, origin := some m.origin }) := by
  unfold edgeMark
  simp only [hj, hb, hf, ho, hl, beq_false_of_ne hr, Bool.true_eq_false, Bool.false_eq_true, or_self, if_false, if_true]

end Followed

theorem forwardMark_out_congr {c d : Chip} (h : c.SameWire d) (p : Nat) (m : Mark) : (forwardMark d p m).out = (forwardMark c p m).out := by
  unfold forwardMark
  rw [joinedPorts_congr h.ports]
  refine (sameWire_foldl _ (fun a b n hab => ?_) h).out
  rw [hab.pkg, hab.now]
  exact sameWire_portBeacon hab _ _ _ _ _

/-- Settles O24: a mark taken is written to the Beacon and goes on by the joined ports, which change nothing else; the other marks by the branch that drops them. -/
theorem marksScheduleEdges : Obligations.MarksScheduleEdges := by
  intro p x m s hq hp
  refine ⟨fun e hr hph hpe hl => ?originate, fun hr => ?notLight, fun hj hf hb ho => ⟨fun hr hl => ?taken, fun hr hl => ?down, fun hr hl => ?dropped⟩, fun hj => ?unjoined⟩
  case originate =>
    rw [exec_originateMark, originateMark_next hr hph hpe hl, State.after_sameHand s _ hq]
    · rfl
    · exact Chip.SameHand.trans ⟨rfl, rfl, rfl⟩ (wireOnly_sendBeacon _ _).sameHand
  case notLight => rw [exec_originateMark, originateMark_member hr, s.after_self hq]
  case unjoined => rw [exec_edgeMark hp, edgeMark_unjoined hj, s.after_self hq]
  all_goals rw [← delay_add_hopPs] at hb hl
  case taken =>
    rw [exec_edgeMark hp, edgeMark_taken hj hf hb ho hr hl, ← delay_add_hopPs]
    generalize he : (⟨m.n, _, m.period⟩ : DueEdge) = e
    have hw := wireOnly_forwardMark (takeMark s.chip (newSource s.chip.beacon m) p (m.delay + hopPs x) m e) p m
    rw [State.after_sameHand s _ hq ((sameHand_takeMark _ _ _ _ _ _).trans hw.sameHand)]
    have hbeacon := hw.on Chip.beacon
    refine ⟨_, rfl, ?_⟩
    rw [State.put_chip, hbeacon]
    exact ⟨rfl, rfl, rfl, rfl, rfl, fun hk => if_pos hk, forwardMark_out_congr (sameWire_takeMark s.chip _ _ _ _ _) p m, rfl, rfl⟩
  case down =>
    rw [exec_edgeMark hp, edgeMark_steps_down hj hf hb ho hr hl]
    obtain ⟨d, hd, hseq, hlost⟩ := lighthouseLost_eq (onBeacon s.chip (fun b => { b with role := 0 }))
    rw [hlost]
    generalize (⟨m.n, _, m.period⟩ : DueEdge) = e
    have hw := wireOnly_forwardMark (takeMark (onBeacon d (fun b => { b with lostSaid := true })) (newSource s.chip.beacon m) p (m.delay + hopPs x) m e) p m
    have hraised := (hw.on Chip.raised).trans ((hd.on Chip.raised).trans hq.2.2)
    have hbeacon := hw.on Chip.beacon
    refine ⟨_, rfl, ?_⟩
    rw [State.after_chip_of_unraised s _ hraised, Chip.rest_beacon, Chip.rest_safe, hbeacon]
    exact ⟨congrArg Beacon.role (hd.on Chip.beacon), rfl, rfl, rfl, (hw.on (fun c => c.safe.faultSeq)).trans hseq⟩
  case dropped =>
    rw [exec_edgeMark hp, edgeMark_dropped hj hf hb ho hr hl, State.after_sameHand s _ hq (sameHand_onBeacon _ _)]
    exact ⟨_, rfl, rfl, rfl, rfl⟩

/-! Takeover, halt, lock (R30, R31, R332). -/

theorem standbyTakeover_due {c : Chip} (hr : c.beacon.role = 2) (hm : twoMissed c.beacon c.now = true) : standbyTakeover c = becomeLighthouse c :=
  if_pos ⟨hr, hm⟩

theorem standbyTakeover_other {c : Chip} (hr : c.beacon.role ≠ 2) : standbyTakeover c = c := if_neg fun h => hr h.1

theorem domainHalt_other {c : Chip} (hr : c.beacon.role ≠ 0) : domainHalt c = c := by
  unfold domainHalt; simp [bne_iff_ne.mpr hr]

/-- A member that halts with no job running says so, and does nothing else. -/
theorem domainHalt_idle {c : Chip} (hh : c.boot.halted = false) (hr : c.beacon.role = 0) (hm : twoMissed c.beacon c.now = true)
    (hj : ∀ q ∈ c.jobs, jobRunning q.2 = false) :
    domainHalt c = event { c with boot := { c.boot with halted := true } } (assignedParts c) (plainEvent c 9 0 (leBytes 8 (c.beacon.seen.getD 0))) := by
  have hevent := recordsOnly_event { c with boot := { c.boot with halted := true } } (assignedParts c) (plainEvent c 9 0 (leBytes 8 (c.beacon.seen.getD 0)))
  have hnone : c.jobs.filter (fun p => jobRunning p.2) = [] := List.filter_eq_nil_iff.mpr fun q h => by simp [hj q h]
  unfold domainHalt
  simp only [hh, hr, hm, hevent.on Chip.jobs, hnone]
  rfl

theorem setLocked_chosen {c : Chip} (h : c.beacon.choice.isSome = true) : setLocked c = onBeacon c (fun b => { b with locked := true }) := if_pos h

end Sys2Proof.Machine

namespace Sys2Proof
open Machine

/-- Settles O26: each row by the side of its condition; records are posted beside what the Beacon notes. -/
theorem lighthouseWatch : Obligations.LighthouseWatch := by
  intro s hq
  refine ⟨fun t0 hf hs hi hl => ?lost, fun hs => ?said, fun hr hm => ?takeover, fun hr => ?noStandby, fun hh hr hm hj => ?halt, fun hr => ?noMember, fun hc => ?locked⟩
  case lost =>
    obtain ⟨d, hd, hseq, hlost⟩ := lighthouseLost_eq s.chip
    rw [exec_lighthouseLost, lighthouseWatch_lost hf hs hi hl, hlost]
    have hraised : (onBeacon d (fun b => { b with lostSaid := true })).raised = [] := (hd.on Chip.raised).trans hq.2.2
    refine ⟨_, rfl, ?_⟩
    rw [State.after_chip_of_unraised s _ hraised]
    exact ⟨congrArg (fun b : Beacon => { b with lostSaid := true }) (hd.on Chip.beacon), hseq, hd.on Chip.jobs⟩
  case said => rw [exec_lighthouseLost, lighthouseWatch_said hs, s.after_self hq]
  case takeover =>
    rw [exec_standbyTakeover, standbyTakeover_due hr hm, State.after_sameHand s (becomeLighthouse s.chip) hq (sameHand_onBeacon _ _)]
    exact ⟨_, rfl, rfl, rfl, rfl, rfl, rfl⟩
  case noStandby => rw [exec_standbyTakeover, standbyTakeover_other hr, s.after_self hq]
  case halt =>
    rw [exec_domainHalted, domainHalt_idle hh hr hm hj]
    have hrec := recordsOnly_event { s.chip with boot := { s.chip.boot with halted := true } } (assignedParts s.chip)
      (plainEvent s.chip 9 0 (leBytes 8 (s.chip.beacon.seen.getD 0)))
    refine ⟨_, rfl, ?_⟩
    rw [State.after_chip_of_unraised s _ ((hrec.on Chip.raised).trans hq.2.2)]
    exact ⟨hrec.on Chip.boot, event_eventSeq_halt _ _ rfl, hrec.on Chip.jobs⟩
  case noMember => rw [exec_domainHalted, domainHalt_other hr, s.after_self hq]
  case locked => rw [exec_locked, setLocked_chosen hc, State.after_sameHand s _ hq (sameHand_onBeacon _ _)]; rfl

end Sys2Proof
end

section
/-! SUPPORT. The ticks of a job: what writes them, what the discard of attempts leaves, what the end of a job leaves (02_beacon.md R43-R57; 09_keeper.md R238). -/

namespace Sys2Proof.Machine

/-! Writes of a job and of its ticks. -/

theorem sameHand_setTicks (c : Chip) (t : Nat) (f : Ticks → Ticks) : c.SameHand (setTicks c t f) := sameHand_onJob c t _
theorem sameHand_setAttempt (c : Chip) (t tick ord : Nat) (f : Attempt → Attempt) : c.SameHand (setAttempt c t tick ord f) := sameHand_onJob c t _

theorem sameWire_onJob (c : Chip) (t : Nat) (f : Job → Job) : c.SameWire (onJob c t f) :=
  ⟨onJob_now c t f, congrArg Beacon.pkg (onJob_beacon c t f), onJob_ports c t f, onJob_out c t f⟩

theorem sameWire_setTicks (c : Chip) (t : Nat) (f : Ticks → Ticks) : c.SameWire (setTicks c t f) := sameWire_onJob c t _

/-- A write that leaves the place of its job leaves the places of all jobs. -/
theorem place_onJob (c : Chip) (t : Nat) {f : Job → Job} (hf : ∀ j, (f j).place = j.place) (u : Nat) :
    (tfind (onJob c t f).jobs u).map (fun j => j.place) = (tfind c.jobs u).map (fun j => j.place) := by
  rw [tfind_onJob]; split
  · next h => subst h; simp [Option.map_map, Function.comp_def, hf]
  · rfl

theorem place_setTicks (c : Chip) (t : Nat) (f : Ticks → Ticks) (u : Nat) :
    (tfind (setTicks c t f).jobs u).map (fun j => j.place) = (tfind c.jobs u).map (fun j => j.place) :=
  place_onJob c t (f := fun j => { j with ticks := f j.ticks }) (fun _ => rfl) u

/-- Messages flood after a write of ticks as before it. -/
theorem sendBeacon_setTicks_out (c : Chip) (t : Nat) (f : Ticks → Ticks) (m : BeaconMsg) : (sendBeacon (setTicks c t f) m).out = (sendBeacon c m).out :=
  (sameWire_sendBeacon (sameWire_setTicks c t f) (floodPorts_congr (sameWire_setTicks c t f) (place_setTicks c t f) m)).out

theorem sendTo_setTicks_out (c : Chip) (t : Nat) (f : Ticks → Ticks) (tag dest src : Nat) (lat : Nat → Nat) (m : BeaconMsg) :
    (sendTo (setTicks c t f) tag dest src lat m).out = (sendTo c tag dest src lat m).out :=
  (sameWire_sendTo (sameWire_setTicks c t f) (place_setTicks c t f tag) dest src lat m).out

theorem tfind_lampReviews (c : Chip) (t : Nat) : tfind (lampReviews c).jobs t = tfind c.jobs t := by rw [lampReviews_jobs]

section Job
variable {c : Chip} {tag : Nat} {j : Job} (hj : tfind c.jobs tag = some j)
include hj

theorem tfind_setTicks (f : Ticks → Ticks) : tfind (setTicks c tag f).jobs tag = some { j with ticks := f j.ticks } := tfind_onJob_self hj _

/-- The only attempt of a job written. -/
theorem tfind_setAttempt_only {a : Attempt} (ha : j.ticks.attempts = [a]) (f : Attempt → Attempt) :
    tfind (setAttempt c tag a.tick a.ord f).jobs tag = some { j with ticks := { j.ticks with attempts := [f a] } } := by
  unfold setAttempt; rw [tfind_setTicks hj, ha]; simp

/-! Done (R44). -/

/-- An attempt that is settling has been noted as done already. -/
theorem touchDone_settling {a : Attempt} (ha : j.ticks.attempts = [a]) (hs : a.st = .settling) : touchDone c tag = c := by
  have hn : newest j = some a := by unfold newest; rw [ha]; rfl
  unfold touchDone; rw [hj]; simp only [hn]
  cases doneTime c j with
  | none => rfl
  | some t => simp [hs]

theorem touchDone_idle (ha : j.ticks.attempts = []) : touchDone c tag = c := by
  have hn : newest j = none := by unfold newest; rw [ha]; rfl
  unfold touchDone; rw [hj]; simp only [hn]

/-! The discard of attempts (R45). -/

theorem discardAttempts_none {p : Attempt → Bool} (h : ∀ a ∈ j.ticks.attempts, p a = false) : discardAttempts c tag p = c := by
  have hd : j.ticks.attempts.filter p = [] := List.filter_eq_nil_iff.mpr fun a ha => by simp [h a ha]
  unfold discardAttempts; rw [hj]; exact if_pos hd

end Job

section Contexts
variable (c : Chip) (j : Job)

/-- Contexts and cores alone change. -/
def Chip.CoresOnly (c d : Chip) : Prop := d = { c with ctxs := d.ctxs, cores := d.cores }

theorem Chip.CoresOnly.trans {c d e : Chip} (h : c.CoresOnly d) (k : d.CoresOnly e) : c.CoresOnly e := by
  unfold Chip.CoresOnly at *
  rw [k, h]

theorem Chip.CoresOnly.on {c d : Chip} (h : c.CoresOnly d) {β : Type} (g : Chip → β) : g d = g { c with ctxs := d.ctxs, cores := d.cores } := congrArg g h

theorem Chip.CoresOnly.sameHand {c d : Chip} (h : c.CoresOnly d) : c.SameHand d := ⟨h.on Chip.writes, h.on Chip.clears, h.on Chip.raised⟩

theorem coresOnly_each {α : Type} (l : List α) {f : Chip → α → Chip} (h : ∀ (c : Chip) x, c.CoresOnly (f c x)) (c : Chip) : c.CoresOnly (each l c f) :=
  each_keeps (P := c.CoresOnly) (fun d x hd => hd.trans (h d x)) l (show c.CoresOnly c from rfl)

theorem coresOnly_stopCtx (x : Nat) : c.CoresOnly (stopCtx c x) :=
  Chip.CoresOnly.trans (d := onCtx c x (fun t => { t with run := false })) rfl
    (coresOnly_each _ (by intro d i; rfl) _)

theorem coresOnly_stopContexts : c.CoresOnly (stopContexts c j) := coresOnly_each _ coresOnly_stopCtx c

theorem coresOnly_endWindows : c.CoresOnly (endWindows c j) :=
  coresOnly_each _ (by intro d i; rfl) c

end Contexts

section Discard
variable {c : Chip} {tag : Nat} {j : Job} (hj : tfind c.jobs tag = some j)
include hj

/-- Of its job a discard changes counters and the ticks: the attempts, what is recorded as gone, and the votes. -/
theorem discardAttempts_job (p : Attempt → Bool) : ∃ n g v, tfind (discardAttempts c tag p).jobs tag = some { j with
    cnt := n, ticks := { j.ticks with attempts := j.ticks.attempts.filter (fun a => !(p a)), gone := g, votes := v } } := by
  unfold discardAttempts; rw [hj]; simp only []
  split
  · next hd =>
    have hkeep : j.ticks.attempts.filter (fun a => !(p a)) = j.ticks.attempts :=
      List.filter_eq_self.mpr fun a ha => by simp [Bool.eq_false_iff.mpr (List.filter_eq_nil_iff.mp hd a ha)]
    exact ⟨j.cnt, j.ticks.gone, j.ticks.votes, by rw [hkeep, hj]⟩
  · have hcount (l : List Attempt) : ∃ n, tfind (each l c (fun c a => uncountDeferred c tag a.plan)).jobs tag = some { j with cnt := n } := by
      refine each_keeps (P := fun d => ∃ n, tfind d.jobs tag = some { j with cnt := n }) (fun d a hd => ?_) l ⟨j.cnt, hj⟩
      obtain ⟨n, hn⟩ := hd
      have hreqs : (each a.plan.deferred d (fun c i => onReq c i (fun q => { q with deferrals := q.deferrals - 1 }))).jobs = d.jobs :=
        each_field Chip.jobs (by intros; rfl) _ d
      exact ⟨_, tfind_onJob_self (j := { j with cnt := n }) (by rw [hreqs]; exact hn) _⟩
    obtain ⟨n, hn⟩ := hcount (List.filter (fun a => isLead c j && a.runAhead && j.ticks.attempts.head? != some a) (j.ticks.attempts.filter p))
    refine ⟨n, _, _, tfind_setTicks (j := { j with cnt := n }) ?_ _⟩
    split
    · rw [(coresOnly_endWindows _ j).on Chip.jobs]
      exact ((coresOnly_stopContexts _ j).on (fun c => tfind c.jobs tag)).trans hn
    · exact hn

/-- On a package that does not lead, a discard changes contexts, cores and the job. -/
theorem discardAttempts_member (hl : isLead c j = false) (p : Attempt → Bool) :
    c.SameHand (discardAttempts c tag p) ∧ (discardAttempts c tag p).reqs = c.reqs := by
  unfold discardAttempts; rw [hj]; simp only []
  split
  · exact ⟨.refl c, rfl⟩
  · have hnone : List.filter (fun a => isLead c j && a.runAhead && j.ticks.attempts.head? != some a) (j.ticks.attempts.filter p) = [] :=
      List.filter_eq_nil_iff.mpr fun a _ => by simp [hl]
    rw [hnone, each_nil]
    have hcores : c.CoresOnly (if (newest j).any p = true then endWindows (stopContexts c j) j else c) := by
      split
      · exact (coresOnly_stopContexts c j).trans (coresOnly_endWindows _ j)
      · rfl
    exact ⟨hcores.sameHand.trans (sameHand_setTicks _ _ _), (onJob_reqs _ _ _).trans (hcores.on Chip.reqs)⟩

end Discard

/-! The end of a job (R286, R312, R373). -/

theorem captureBegins_jobs (c : Chip) (tag : Nat) (j : Job) (s : Snap) : (captureBegins c tag j s).jobs = c.jobs := by
  unfold captureBegins; split
  · split <;> simp
  · rfl

theorem endCommands_jobs (c : Chip) (s : ReqSide) (st : Status) : (endCommands c s st).jobs = c.jobs := by
  have hfinals : (each s.cancels (each s.appends c (fun c a => final c a.cmd .alreadyDone))
      (fun c x => final c x (if st = .cancelled then .ok else .alreadyDone))).jobs = c.jobs :=
    (each_field Chip.jobs (fun d _ => final_jobs d _ _) _ _).trans (each_field Chip.jobs (fun d _ => final_jobs d _ _) _ c)
  unfold endCommands; simp only []
  split
  · rw [finalCmd_jobs]; exact hfinals
  · exact hfinals

theorem endReqNow_jobs (c : Chip) (i : Nat) (st : Status) : (endReqNow c i st).jobs = c.jobs := by
  unfold endReqNow postEnd; simp only []
  split
  · rfl
  · rw [endCommands_jobs, finalCmd_jobs]

theorem jobEvent_jobs (c : Chip) (tag tick ev flags : Nat) (body : List Byte) : (jobEvent c tag tick ev flags body).jobs = c.jobs := by
  unfold jobEvent; split
  · rfl
  · exact (recordsOnly_event _ _ _).on Chip.jobs

/-- The end of a range pair writes the pair of its job. -/
theorem rangeLost_job {c : Chip} {tag : Nat} {j : Job} (hj : tfind c.jobs tag = some j) (cause : Nat) :
    ∃ p, tfind (rangeLost c tag cause).jobs tag = some { j with pair := p } := by
  unfold rangeLost; rw [hj]; simp only []
  split
  · exact ⟨j.pair, hj⟩
  · next p _ =>
    have hends : tfind (pairEnds c tag p).jobs tag = some { j with pair := none } := by
      unfold pairEnds; simp only []
      refine tfind_onJob_self ?_ _
      repeat' split
      all_goals simpa using hj
    split
    · exact ⟨none, by rw [jobEvent_jobs]; exact hends⟩
    · exact ⟨none, hends⟩

/-- A job that ends keeps no attempt, and its status says why. -/
theorem endJob_job {c : Chip} {tag : Nat} {j : Job} (hj : tfind c.jobs tag = some j) (st : JobSt) (status : Status) :
    ∃ j', tfind (endJob c tag st status).jobs tag = some j' ∧ j'.st = st ∧ j'.endSt = status ∧ j'.ticks.attempts = [] := by
  unfold endJob; rw [hj]; simp only []
  generalize snapshot c tag j (captureCause c j st status) = snap
  have hstop : tfind (stopContexts (captureBegins c tag j snap) j).jobs tag = some j := by
    rw [(coresOnly_stopContexts _ j).on Chip.jobs, captureBegins_jobs, hj]
  obtain ⟨n, g, v, hdrop⟩ := discardAttempts_job hstop (fun _ => true)
  generalize discardAttempts (stopContexts (captureBegins c tag j snap) j) tag (fun _ => true) = c1 at hdrop ⊢
  have hcmds (l : List CmdId) : (each l c1 (fun c x => final c x status)).jobs = c1.jobs := each_field Chip.jobs (fun d _ => final_jobs d _ _) l c1
  have hreqs (l : List Nat) (d : Chip) : (each l d (fun c i => endReqNow c i status)).jobs = d.jobs :=
    each_field Chip.jobs (fun d i => endReqNow_jobs d i _) l d
  generalize hc2 : each _ c1 (fun c x => final c x status) = c2
  generalize hc3 : each (liveReqs c2 tag) c2 (fun c i => endReqNow c i status) = c3
  obtain ⟨p, hpair⟩ := rangeLost_job (c := c3) (by rw [← hc3, hreqs, ← hc2, hcmds]; exact hdrop) 0
  have hcores (l : List Nat) (d : Chip) : (each l d (fun c i => onCore c i (fun k => { k with wins := [], guards := [], moves := [] }))).jobs = d.jobs :=
    each_field Chip.jobs (by intros; rfl) l d
  refine ⟨_, tfind_onJob_self (by rw [hcores]; exact hpair) _, rfl, rfl, ?_⟩
  simp

end Sys2Proof.Machine
end

section
/-! O27, O29: votes, holds, announced edges, verdict queries and the discard of an attempt (02_beacon.md R44, R47, R51, R53). -/

namespace Sys2Proof.Machine

/-! The rows, each by the chip that it settles. -/

theorem exec_settle (t : Nat) (s : State) : exec (.settle t) s = .next (s.after (settleJob s.env s.chip t)) := rfl
theorem exec_vote (v : VoteMsg) (s : State) : exec (.vote v) s = .next (s.after (lampReviews (recordVote s.env s.chip v))) := rfl
theorem exec_hold (t tick : Nat) (s : State) : exec (.hold t tick) s = .next (s.after (receiveHold s.chip t tick)) := rfl
theorem exec_edgeAnnouncement (w : Announce) (s : State) :
    exec (.edgeAnnouncement w) s = .next (s.after (lampReviews (receiveAnnounce s.chip w))) := rfl
theorem exec_verdictQuery (t : Nat) (s : State) : exec (.verdictQuery t) s = .next (s.after (askVerdict s.chip t)) := rfl
theorem exec_verdictQueryReceipt (t tick att : Nat) (s : State) :
    exec (.verdictQueryReceipt t tick att) s = .next (s.after (answerQuery s.chip t tick att)) := rfl
theorem exec_attemptDiscard (t : Nat) (s : State) : exec (.attemptDiscard t) s = .next (s.after (lampReviews (discardWatch s.chip t))) := rfl

/-- What a row leaves that adds nothing in hand and ends with the power controller. -/
theorem after_lampReviews (s : State) {c : Chip} (hq : s.quiet) (h : s.chip.SameHand c) : s.after (lampReviews c) = s.put (lampReviews c) :=
  State.after_sameHand s _ hq (h.trans (sameHand_lampReviews c))

section Votes
variable {e : Env} {c : Chip} {tag : Nat} {j : Job} (hj : tfind c.jobs tag = some j)
include hj

/-- A package that does not lead sends its vote to the lead (R47). -/
theorem castVote_member (hl : isLead c j = false) (a : Attempt) (yes : Bool) (cause loc : Nat) : castVote e c tag a yes cause loc =
    sendTo c tag j.place.lead c.beacon.pkg (fun _ => 0) (.vote ⟨tag, c.beacon.pkg, a.tick, a.ord, yes, cause, loc⟩) := by
  unfold castVote; rw [hj]; exact if_neg (by simp [hl])

/-! The settle window (R44). -/

theorem settleJob_settling {a : Attempt} (ha : j.ticks.attempts = [a]) (hs : a.st = .settling) :
    settleJob e c tag = lampReviews (settleAttempt e c tag j a) := by
  unfold settleJob
  rw [touchDone_settling hj ha hs]
  simp only [hj, ha, each_one]

omit hj in
theorem settleAttempt_yes {a : Attempt} (hs : a.st = .settling) (hd : a.doneAt + Config.settle ≤ c.now) (hb : badRow e c j a = none) :
    settleAttempt e c tag j a = castVote e (setAttempt c tag a.tick a.ord (fun a => { a with st := .votedYes })) tag a true 0 0 := by
  unfold settleAttempt; rw [if_pos ⟨hs, hd⟩, hb]

omit hj in
theorem settleAttempt_early {a : Attempt} (hd : c.now < a.doneAt + Config.settle) : settleAttempt e c tag j a = c :=
  if_neg fun h => Nat.not_le.mpr hd h.2

/-! The lead's decision (R47). -/

/-- With no vote against its oldest attempt and one vote still to come, the lead decides nothing. -/
theorem decide2_waits {a : Attempt} {rest : List Attempt} (ha : j.ticks.attempts = a :: rest)
    (hyes : ∀ w ∈ j.ticks.votes, w.tick = a.tick → w.attempt = a.ord → w.yes = true) {p : Nat} (hp : p ∈ j.place.pkgs)
    (hmiss : ∀ w ∈ j.ticks.votes, w.tick = a.tick → w.attempt = a.ord → w.pkg ≠ p) : decide2 e c tag = c := by
  have hof {w : VoteMsg} (hw : w ∈ j.ticks.votes.filter (fun v => v.tick == a.tick && v.attempt == a.ord)) :
      w ∈ j.ticks.votes ∧ w.tick = a.tick ∧ w.attempt = a.ord := by simpa [and_assoc] using hw
  have hno : (j.ticks.votes.filter (fun v => v.tick == a.tick && v.attempt == a.ord)).find? (fun v => !v.yes) = none :=
    List.find?_eq_none.mpr fun w hw => by
      obtain ⟨hm, ht, hx⟩ := hof hw
      simp [hyes w hm ht hx]
  have hopen : j.place.pkgs.all (fun p => (j.ticks.votes.filter (fun v => v.tick == a.tick && v.attempt == a.ord)).any (fun v => v.pkg == p)) = false := by
    refine List.all_eq_false.mpr ⟨p, hp, Bool.not_eq_true _ ▸ List.any_eq_false.mpr fun w hw => ?_⟩
    obtain ⟨hm, ht, hx⟩ := hof hw
    simpa using hmiss w hm ht hx
  unfold decide2 decideJob
  rw [hj]; simp only [ha]
  split
  · rfl
  · rw [hno]; simp only [hopen, Bool.and_false]; rfl

end Votes

/-- The votes with the last vote of its package for its attempt replaced (R47). -/
def lastVotes (v : VoteMsg) (l : List VoteMsg) : List VoteMsg :=
  l.filter (fun w => !(w.pkg == v.pkg && w.tick == v.tick && w.attempt == v.attempt)) ++ [v]

theorem mem_lastVotes {v w : VoteMsg} {l : List VoteMsg} (h : w ∈ lastVotes v l) (ht : w.tick = v.tick) (ha : w.attempt = v.attempt) :
    w = v ∨ (w ∈ l ∧ w.pkg ≠ v.pkg) := by
  simp only [lastVotes, List.mem_append, List.mem_filter, List.mem_singleton] at h
  exact h.symm.imp_right fun hw => ⟨hw.1, by simpa [ht, ha] using hw.2⟩

theorem recordVote_lead {e : Env} {c : Chip} {v : VoteMsg} {j : Job} {a : Attempt} {rest : List Attempt} (hj : tfind c.jobs v.job = some j)
    (hl : isLead c j = true) (ha : j.ticks.attempts = a :: rest) (ht : a.tick = v.tick) (ho : a.ord = v.attempt)
    (hp : j.place.pkgs.contains v.pkg = true) :
    recordVote e c v = decide2 e (setTicks c v.job (fun t => { t with votes := lastVotes v t.votes })) v.job := by
  have hany : j.ticks.attempts.any (fun a => a.tick == v.tick && a.ord == v.attempt) = true := by rw [ha]; simp [ht, ho]
  unfold recordVote; rw [hj]
  exact if_pos (by rw [hl, hany, hp]; rfl)

/-- Settles O27: each row by its condition; the lead decides nothing while a package has not voted. -/
theorem settleAndVote : Obligations.SettleAndVote := by
  intro tag v s hq
  refine ⟨fun j a hj hl ha hs hd hb => ?yes, fun j a hj ha hs hd => ?early, fun j a rest hj hl ha ht ho hp hy hyes hmiss => ?lead⟩
  case yes =>
    have hset : tfind (setAttempt s.chip tag a.tick a.ord (fun a => { a with st := .votedYes })).jobs tag =
        some { j with ticks := { j.ticks with attempts := [{ a with st := .votedYes }] } } := tfind_setAttempt_only hj ha _
    have hkeep : (setAttempt s.chip tag a.tick a.ord (fun a => { a with st := .votedYes })).beacon = s.chip.beacon := onJob_beacon _ _ _
    rw [exec_settle, settleJob_settling hj ha hs, settleAttempt_yes hs hd hb, castVote_member hset (by unfold isLead; rw [hkeep]; exact hl), hkeep]
    have hsend := wireOnly_sendTo (setAttempt s.chip tag a.tick a.ord (fun a => { a with st := .votedYes })) tag j.place.lead s.chip.beacon.pkg (fun _ => 0)
      (.vote ⟨tag, s.chip.beacon.pkg, a.tick, a.ord, true, 0, 0⟩)
    rw [after_lampReviews s hq ((sameHand_setAttempt _ _ _ _ _).trans hsend.sameHand)]
    exact ⟨_, _, rfl, (tfind_lampReviews _ _).trans ((hsend.on (fun d => tfind d.jobs tag)).trans hset), rfl,
      (lampReviews_out _).trans (sendTo_setTicks_out _ _ _ _ _ _ _ _), rfl⟩
  case early =>
    rw [exec_settle, settleJob_settling hj ha hs, settleAttempt_early hd, after_lampReviews s hq (.refl _)]
    exact ⟨_, rfl, lampReviews_jobs _, lampReviews_out _⟩
  case lead =>
    obtain ⟨p, hpk, hne, hno⟩ := hmiss
    have hset := tfind_setTicks hj (fun t => { t with votes := lastVotes v t.votes })
    have hwait : decide2 s.env (setTicks s.chip v.job (fun t => { t with votes := lastVotes v t.votes })) v.job =
        setTicks s.chip v.job (fun t => { t with votes := lastVotes v t.votes }) := by
      refine decide2_waits hset ha (fun w hw hwt hwa => ?_) hpk fun w hw hwt hwa => ?_
      · obtain rfl | ⟨hm, hk⟩ := mem_lastVotes hw (hwt.trans ht) (hwa.trans ho)
        · exact hy
        · exact (hyes w hm (hwt.trans ht) (hwa.trans ho)).resolve_right hk
      · obtain rfl | ⟨hm, _⟩ := mem_lastVotes hw (hwt.trans ht) (hwa.trans ho)
        · exact hne.symm
        · exact hno w hm (hwt.trans ht) (hwa.trans ho)
    rw [exec_vote, recordVote_lead hj hl ha ht ho hp, hwait, after_lampReviews s hq (sameHand_setTicks _ _ _)]
    exact ⟨_, _, rfl, (tfind_lampReviews _ _).trans hset, rfl, rfl, rfl⟩

/-! HOLD and announced edges (R53). -/

/-- The ticks of a job whose tick `n` is held: no plan starts, and an edge that was counted ahead is taken back. -/
def heldTicks (m n : Nat) (t : Ticks) : Ticks :=
  { t with
    attempts := t.attempts.map (fun b => if b.tick = n then { b with held := true } else b)
    edge := none, planned := none
    due := if n + 1 < t.next then t.due - m else t.due, next := n + 1 }

section Watch
variable {c : Chip} {tag : Nat} {j : Job} {a : Attempt} (hj : tfind c.jobs tag = some j) (ha : j.ticks.attempts = [a])
include hj ha

theorem receiveHold_only (hh : a.held = false) : receiveHold c tag a.tick = sendBeacon (setTicks c tag (heldTicks j.args.m a.tick)) (.hold tag a.tick) := by
  have hnone : discardAttempts c tag (fun b => b.runAhead && b.tick == a.tick + 1) = c :=
    discardAttempts_none hj fun b hb => by rw [ha, List.mem_singleton] at hb; simp [hb]
  unfold receiveHold; rw [hj]
  simp only [ha, List.find?_cons, beq_self_eq_true, hh, hnone]
  rfl

omit ha in
theorem receiveAnnounce_new {w : Announce} (hw : w.job = tag) (hl : isLead c j = false) (hr : jobRunning j = true) (hn : j.ticks.announce ≠ some w) :
    receiveAnnounce c w = sendBeacon (setTicks c tag (fun t => { t with announce := some w })) (.announce w) := by
  subst hw
  unfold receiveAnnounce; rw [hj]; simp only []
  rw [if_neg (by simp [hl, hr, hn])]

/-! Verdict queries, and the end of the wait (R51). -/

theorem askVerdict_due (hs : a.st = .votedYes ∨ a.st = .lateNo) (hd : a.doneAt + verdictBound j + Config.us ≤ c.now) :
    askVerdict c tag = sendBeacon c (.query tag a.tick a.ord) := by
  unfold askVerdict; simp only [hj, ha]; exact if_pos ⟨hs, hd⟩

theorem askVerdict_unvoted (hy : a.st ≠ .votedYes) (hn : a.st ≠ .lateNo) : askVerdict c tag = c := by
  unfold askVerdict; simp only [hj, ha]; exact if_neg fun h => h.1.elim hy hn

omit ha in
theorem answerQuery_known {tick att : Nat} {w : VerdictMsg} (hw : j.ticks.verdicts.find? (fun v => v.tick == tick && v.attempt == att) = some w) :
    answerQuery c tag tick att = sendBeacon c (.answer w) := by
  unfold answerQuery; rw [hj, Option.bind_some, hw]

theorem discardWatch_due (hp : 0 < jobPeriod c j) (hl : 3 * jobPeriod c j ≤ 2 * (c.now - a.startAt)) : discardWatch c tag = endJob c tag .halted .hwFault := by
  unfold discardWatch; simp only [hj, ha]; exact if_pos ⟨hp, hl⟩

theorem discardWatch_early (hl : 2 * (c.now - a.startAt) < 3 * jobPeriod c j) : discardWatch c tag = c := by
  unfold discardWatch; simp only [hj, ha]; exact if_neg fun h => Nat.not_le.mpr hl h.2

end Watch

/-- Settles O29: a hold and an announcement are written to the ticks and travel on; a query and its answer only leave; a wait that is over ends the job. -/
theorem holdsQueriesDiscards : Obligations.HoldsQueriesDiscards := by
  intro tag j a s hq hj ha
  have hsend (m : BeaconMsg) : s.after (sendBeacon s.chip m) = s.put (sendBeacon s.chip m) :=
    State.after_sameHand s _ hq (wireOnly_sendBeacon s.chip m).sameHand
  refine ⟨fun hh => ?hold, fun w hw hl hr hn => ?announce, fun hs hd => ?ask, fun hy hn => ?unvoted, fun w tick att hw => ?answer, fun hp hl => ?discard,
    fun hl => ?early⟩
  case hold =>
    have hwire := wireOnly_sendBeacon (setTicks s.chip tag (heldTicks j.args.m a.tick)) (.hold tag a.tick)
    rw [exec_hold, receiveHold_only hj ha hh, State.after_sameHand s _ hq ((sameHand_setTicks _ _ _).trans hwire.sameHand)]
    exact ⟨_, _, rfl, (hwire.on (fun d => tfind d.jobs tag)).trans (tfind_setTicks hj _), by simp [heldTicks, ha], sendBeacon_setTicks_out _ _ _ _, rfl⟩
  case announce =>
    have hwire := wireOnly_sendBeacon (setTicks s.chip tag (fun t => { t with announce := some w })) (.announce w)
    rw [exec_edgeAnnouncement, receiveAnnounce_new hj hw hl hr hn, after_lampReviews s hq ((sameHand_setTicks _ _ _).trans hwire.sameHand)]
    exact ⟨_, _, rfl, (tfind_lampReviews _ _).trans ((hwire.on (fun d => tfind d.jobs tag)).trans (tfind_setTicks hj _)), rfl,
      (lampReviews_out _).trans (sendBeacon_setTicks_out _ _ _ _), rfl⟩
  case ask => rw [exec_verdictQuery, askVerdict_due hj ha hs hd, hsend]
  case unvoted => rw [exec_verdictQuery, askVerdict_unvoted hj ha hy hn, s.after_self hq]
  case answer => rw [exec_verdictQueryReceipt, answerQuery_known hj hw, hsend]
  case discard =>
    obtain ⟨j', hend, hst, hes, hat⟩ := endJob_job hj .halted .hwFault
    rw [exec_attemptDiscard, discardWatch_due hj ha hp hl]
    exact ⟨_, j', rfl, (tfind_lampReviews _ _).trans hend, hst, hes, hat⟩
  case early =>
    rw [exec_attemptDiscard, discardWatch_early hj ha hl, after_lampReviews s hq (.refl _)]
    exact ⟨_, rfl, lampReviews_jobs _⟩

end Sys2Proof.Machine
end

section
/-! O28: aborts of the lead, and the verdicts that reach a package that does not lead (02_beacon.md R47-R49, R52-R57). -/

namespace Sys2Proof.Machine

/-! The rows, each by the chip that it settles. -/

theorem exec_voteTimeout (t : Nat) (s : State) : exec (.voteTimeout t) s = .next (s.after (lampReviews (voteTimeout s.chip t))) := rfl
theorem exec_progress (t : Nat) (s : State) : exec (.progress t) s = .next (s.after (lampReviews (progressWatch s.chip t))) := rfl

/-- A verdict acts alike whether it was sent or asked for (R48, R51). -/
theorem exec_verdict_row {v : VerdictMsg} {q : Instr} (hq : q ∈ [Instr.verdict v, .verdictAnswer v]) (s : State) :
    exec q s = .next (s.after (lampReviews (receiveVerdict s.env s.chip v))) := by
  simp only [List.mem_cons, List.not_mem_nil, or_false] at hq
  obtain rfl | rfl := hq <;> rfl

/-! Aborts that the lead decides (R47, R54, R57). -/

section Lead
variable {c : Chip} {tag : Nat} {j : Job} {a : Attempt} {rest : List Attempt} (hj : tfind c.jobs tag = some j) (ha : j.ticks.attempts = a :: rest)
include hj ha

/-- The lead aborts the oldest attempt without a source. -/
theorem abortOldest_lead (hl : isLead c j = true) (cause : Nat) {v : VerdictMsg}
    (hv : v = ⟨tag, a.tick, a.ord, .abort, [], c.beacon.pkg, cause, 0, []⟩) : abortOldest c tag cause = applyAbort (flood c v) tag a v := by
  unfold abortOldest; simp only [hj, ha, hl, if_true, hv]

theorem voteTimeout_due (hl : isLead c j = true) (hs : j.args.strict = true) (hn : a.tick + 1 < j.ticks.next)
    (hd : edgeCycle c (j.ticks.due - (j.ticks.next - (a.tick + 1)) * j.args.m) + hopsTime j + 130 ≤ c.now) {v : VerdictMsg}
    (hv : v = ⟨tag, a.tick, a.ord, .abort, [], c.beacon.pkg, 0, 0, []⟩) : voteTimeout c tag = applyAbort (flood c v) tag a v := by
  unfold voteTimeout
  simp only [hj, ha, hs, hn, hd, decide_true, Bool.and_true, if_true]
  exact abortOldest_lead hj ha hl 0 hv

/-- Only strict votes have a bound. -/
theorem voteTimeout_elastic (hs : j.args.strict = false) : voteTimeout c tag = c := by
  unfold voteTimeout; simp [hj, ha, hs]

/-- The fault of an attempt that is not decided in time: it covers no attempt, since the abort follows at once. -/
def progressFault (c : Chip) (tag : Nat) (a : Attempt) : Raise :=
  ⟨faultNo .progress, engNone, 0, none, noLw, tag, some (a.tick, a.ord), 0, noCore, c.now - a.startAt, 0, false, false, false⟩

theorem progressWatch_due (hl : isLead c j = true) (hp : 0 < jobPeriod c j) (hd : 5 * jobPeriod c j ≤ 4 * (c.now - a.startAt)) {v : VerdictMsg}
    (hv : v = ⟨tag, a.tick, a.ord, .abort, [], c.beacon.pkg, 0x71, 0, []⟩) :
    progressWatch c tag = applyAbort (flood (raise c (progressFault c tag a)) v) tag a v := by
  unfold progressWatch
  simp only [hj, ha, hl, hp, hd, decide_true, Bool.and_true, if_true]
  exact abortOldest_lead (c := raise c (progressFault c tag a)) hj ha hl 0x71 hv

end Lead

/-! Verdicts that arrive (R48, R49, R52, R56). -/

/-- The ticks of an elastic member after an abort of attempt `a`: its plan is kept for the replay; `ahead`: the next edge was counted already, and is taken back. -/
def abortedTicks (m : Nat) (ahead : Bool) (named : List (Nat × Nat × Nat)) (a : Attempt) (v : VerdictMsg) (t : Ticks) : Ticks :=
  { t with
    fails := t.fails + 1, sources := nextSources t.sources named, verdicts := (v :: t.verdicts).take 4, replayPlan := some a.plan, edge := none, planned := none
    due := if ahead then t.due - m else t.due, next := if ahead then a.tick + 1 else t.next }

/-- An abort of an elastic job under its limit only discards, notes and keeps the plan on a package that does not lead. -/
theorem applyAbort_member {c : Chip} {tag : Nat} {j : Job} (hj : tfind c.jobs tag = some j) (hl : isLead c j = false) (hs : j.args.strict = false)
    (hf : j.ticks.fails + 1 < j.args.abortLimit) (hh : j.ticks.halt = false) (a : Attempt) (v : VerdictMsg) : ∃ ahead named,
    applyAbort c tag a v = setTicks (discardAttempts c tag (fun b => decide (a.tick ≤ b.tick))) tag (abortedTicks j.args.m ahead named a v) := by
  refine ⟨decide (a.tick + 1 < j.ticks.next), if a.faulted && a.cause != 0xFF then [(c.beacon.pkg, a.cause, a.loc)] else [], ?_⟩
  unfold applyAbort; rw [hj]
  simp only [hl, hs, hh, Nat.not_le.mpr hf, Bool.false_and, Bool.false_eq_true, if_false, Bool.not_false, Bool.and_true, if_true]
  rfl

section Member
variable {e : Env} {c : Chip} {v : VerdictMsg} {j : Job} (hj : tfind c.jobs v.job = some j) (hl : isLead c j = false) (hr : jobRunning j = true)
  (hv : j.ticks.verdicts = [])
include hj hl hr hv

theorem receiveVerdict_commit {a : Attempt} {rest : List Attempt} (hk : v.kind = .commit) (ha : j.ticks.attempts = a :: rest) (ht : a.tick = v.tick)
    (ho : a.ord = v.attempt) : receiveVerdict e c v = applyEarly e (applyCommit e (flood c v) v.job a v.frees v.turned).1 v.job := by
  unfold receiveVerdict; rw [hj]
  simp [hl, hr, hv, hk, ha, ht, ho]

theorem receiveVerdict_abort {a : Attempt} {rest : List Attempt} (hk : v.kind = .abort) (ha : j.ticks.attempts = a :: rest) (ht : a.tick = v.tick)
    (ho : a.ord = v.attempt) : receiveVerdict e c v = applyAbort (flood c v) v.job a v := by
  unfold receiveVerdict; rw [hj]
  simp [hl, hr, hv, hk, ha, ht, ho]

/-- An abort of an attempt that is not held is kept. -/
theorem receiveVerdict_unheld (hk : v.kind = .abort) (ha : ∀ b ∈ j.ticks.attempts, ¬(b.tick = v.tick ∧ b.ord = v.attempt)) :
    receiveVerdict e c v = setTicks (flood c v) v.job (fun t => { t with verdicts := (v :: t.verdicts).take 4 }) := by
  have hnone : j.ticks.attempts.find? (fun a => a.tick == v.tick && a.ord == v.attempt) = none :=
    List.find?_eq_none.mpr fun b hb => by simpa using ha b hb
  unfold receiveVerdict; rw [hj]
  simp [hl, hr, hv, hk, hnone]

end Member

/-- Settles O28: the lead's aborts by their conditions; on a member an abort is applied after it is flooded, and changes contexts, cores and its job. -/
theorem abortsAndVerdicts : Obligations.AbortsAndVerdicts := by
  refine ⟨?lead, ?member⟩
  case lead =>
    intro tag j a rest s hq hj hl ha
    refine ⟨fun hs hn hd => ?_, fun hs => ?_, fun hp hd => ?_⟩
    · rw [exec_voteTimeout, voteTimeout_due hj ha hl hs hn hd rfl]
    · rw [exec_voteTimeout, voteTimeout_elastic hj ha hs, after_lampReviews s hq (.refl _)]
    · refine ⟨_, progressFault s.chip tag a, by rw [exec_progress, progressWatch_due hj ha hl hp hd rfl], ?_, rfl, rfl, rfl⟩
      unfold raise; rw [hq.2.2]; rfl
  case member =>
    intro v j a rest s hq hj hl hr hv ha q hrow
    rw [exec_verdict_row hrow]
    have hw := wireOnly_flood s.chip v
    have hflood : tfind (flood s.chip v).jobs v.job = some j := (hw.on (fun d => tfind d.jobs v.job)).trans hj
    have hmember : isLead (flood s.chip v) j = false := (hw.on (fun d => isLead d j)).trans hl
    refine ⟨fun hk ht ho hs hf hh hle => ?abort, fun hk ht ho => ?commit, fun hk hn => ?unheld⟩
    case abort =>
      obtain ⟨ahead, named, happly⟩ := applyAbort_member hflood hmember hs hf hh a v
      obtain ⟨n, g, w, hdrop⟩ := discardAttempts_job hflood (fun b => decide (a.tick ≤ b.tick))
      obtain ⟨hhand, hreqs⟩ := discardAttempts_member hflood hmember (fun b => decide (a.tick ≤ b.tick))
      have hall : j.ticks.attempts.filter (fun b => !(decide (a.tick ≤ b.tick))) = [] :=
        List.filter_eq_nil_iff.mpr fun b hb => by
          rw [ha, List.mem_cons] at hb
          obtain rfl | hb := hb
          · simp
          · simpa using hle b hb
      rw [receiveVerdict_abort hj hl hr hv hk ha ht ho, happly,
        after_lampReviews s hq ((hw.sameHand.trans hhand).trans (sameHand_setTicks _ _ _))]
      refine ⟨_, _, rfl, (tfind_lampReviews _ _).trans (tfind_setTicks hdrop _), hall, rfl, rfl, rfl, rfl, ?_, rfl⟩
      rw [State.put_chip, lampReviews_reqs]
      exact (onJob_reqs _ _ _).trans (hreqs.trans (hw.on Chip.reqs))
    case commit => rw [receiveVerdict_commit hj hl hr hv hk ha ht ho]
    case unheld =>
      rw [receiveVerdict_unheld hj hl hr hv hk hn, after_lampReviews s hq (hw.sameHand.trans (sameHand_setTicks _ _ _))]
      exact ⟨_, _, rfl, (tfind_lampReviews _ _).trans (tfind_setTicks hflood _), by rw [hv]; rfl, rfl, rfl⟩

end Sys2Proof.Machine
end

section
/-! O25, O30: edges that fire, and the attempts that they start (02_beacon.md R24, R26, R32, R43, R53; 11_serving.md R273; 17_power.md R394). -/

namespace Sys2Proof.Machine

/-! The rows, each by the chip that it settles. -/

theorem exec_fireEdge (s : State) : exec .fireEdge s = .next (s.after (fireEdge s.env s.chip)) := rfl
theorem exec_plan (m : PlanMsg) (p : Plan) (s : State) : exec (.plan m p) s = .next (s.after (lampReviews (receivePlan s.env s.chip m p))) := rfl
theorem exec_replayEdge (t : Nat) (s : State) : exec (.replayEdge t) s = .next (s.after (announcedEdge s.env s.chip t)) := rfl

theorem mem_of_tfind {α : Type} {t : Tab α} {k : Nat} {v : α} (h : tfind t k = some v) : (k, v) ∈ t := by
  induction t with
  | nil => cases h
  | cons x r ih =>
    unfold tfind at h
    split at h
    · next hk => cases h; rw [← hk]; exact List.mem_cons_self
    · exact List.mem_cons_of_mem _ (ih h)

/-- Whether a job is LIT hangs on the lamps and on its bands (R393). -/
theorem jobLit_congr {c d : Chip} {i j : Job} (hl : d.lamps = c.lamps) (hp : i.place = j.place) : jobLit d i = jobLit c j := by
  unfold jobLit lamp; rw [hl, hp]

/-! LATE (R394). -/

/-- The stacks with bands of a job that are not LIT. -/
def unlitStacks (c : Chip) (j : Job) : List Nat :=
  [0, 1, 2, 3].filter (fun s => onStack j.place.bands s && !((lamp c s).st == .lit && (lamp c s).goal.isNone))

theorem mem_unlitStacks {c : Chip} {j : Job} {k : Nat} (hk : k < 4) (hb : onStack j.place.bands k = true)
    (hl : (lamp c k).st ≠ .lit ∨ (lamp c k).goal ≠ none) : k ∈ unlitStacks c j := by
  refine List.mem_filter.mpr ⟨by simp; omega, ?_⟩
  obtain h | h := hl
  · simp [hb, h]
  · simp [hb, Option.isSome_iff_ne_none.mpr h, ← Option.not_isSome]

theorem unlitStacks_congr {c d : Chip} {i j : Job} (hl : d.lamps = c.lamps) (hp : i.place = j.place) : unlitStacks d i = unlitStacks c j := by
  unfold unlitStacks lamp; rw [hl, hp]

/-- Every stack of a list counts one late event. -/
theorem late_each_onLamp {l : List Nat} (hl : l.Nodup) (c : Chip) (k : Nat) :
    (lamp (each l c (fun c s => onLamp c s (fun l => { l with late := satAdd 8 l.late 1 }))) k).late =
      if k ∈ l then satAdd 8 (lamp c k).late 1 else (lamp c k).late := by
  induction l generalizing c with
  | nil => rfl
  | cons n l ih =>
    obtain ⟨hn, hd⟩ := List.nodup_cons.mp hl
    refine (ih hd _).trans ?_
    rw [lamp_onLamp]
    by_cases hk : k = n
    · subst hk; simp [hn]
    · simp [hk]

theorem countLate_late {c : Chip} {j : Job} {k : Nat} (h : k ∈ unlitStacks c j) : (lamp (countLate c j) k).late = satAdd 8 (lamp c k).late 1 := by
  have hnodup : (unlitStacks c j).Nodup := List.Nodup.filter _ (by decide)
  exact (late_each_onLamp hnodup c k).trans (if_pos h)

/-! The start of an attempt (R43, R216). -/

theorem startPorts_jobs (c : Chip) (tag : Nat) (j : Job) (ra : Bool) : (startPorts c tag j ra).jobs = c.jobs :=
  each_field Chip.jobs (by intros; rfl) _ _

theorem writePlan_jobs (c : Chip) (j : Job) (r : Nat) (p : Plan) : (writePlan c j r p).jobs = c.jobs := by
  unfold writePlan; split
  · rfl
  · simp only []; split <;> simp

theorem ageLanes_jobs (c : Chip) (i : Nat) : (ageLanes c i).jobs = c.jobs := by unfold ageLanes; simp only []; split <;> rfl

theorem unpark_keeps (c : Chip) (p : Plan) : (unpark c p).jobs = c.jobs ∧ (unpark c p).now = c.now := by
  refine each_keeps (P := fun d => d.jobs = c.jobs ∧ d.now = c.now) (fun d r hd => ?_) _ ⟨rfl, rfl⟩
  split
  · exact hd
  · exact hd

/-- The ticks of job `j` once an attempt `a` of it has started on `c`. -/
def startedTicks (c : Chip) (j : Job) (a : Attempt) (t : Ticks) : Ticks :=
  { t with
    attempts := (t.attempts.map (fun b => if b.recs = [] then { b with recs := coreRecs c j } else b)) ++ [a]
    ords := tset t.ords a.tick (a.ord + 1), dones := []
    writers := t.writers.filter (fun w => !(decide (copyAddr j a.r < w.1 + w.2.1) && decide (w.1 < copyAddr j a.r + ((planOf j).map (fun p => p.2.1)).getD 0))) }

/-- The attempt of a tick that starts now. -/
def freshAttempt (c : Chip) (j : Job) (tick r edge : Nat) (ra : Bool) (p : Plan) : Attempt :=
  ⟨tick, nextOrd j tick, r, ra, .running, c.now, edge, 0, 0, 0, false, p, false, false, []⟩

/-- Of the jobs, the start of an attempt writes the ticks of its own. -/
theorem startAttempt_jobs {c : Chip} {tag : Nat} {j : Job} (hj : tfind c.jobs tag = some j) (tick r edge : Nat) (ra : Bool) (p : Plan) :
    (startAttempt c tag tick r edge ra p).jobs = (setTicks c tag (startedTicks c j (freshAttempt c j tick r edge ra p))).jobs := by
  have hctxs (l : List Nat) (d : Chip) : (each l d (fun c x => startCtx c x (entryOf j x p.variant) p.variant p.n p.chunk p.k tick (nextOrd j tick))).jobs = d.jobs :=
    each_field Chip.jobs (by intros; rfl) l d
  have hcores (l : List Nat) (d : Chip) : (each l d (fun d i => onCore (ageLanes d i) i (startCore j d.now i))).jobs = d.jobs :=
    each_field Chip.jobs (f := fun d i => onCore (ageLanes d i) i (startCore j d.now i)) (fun d i => ageLanes_jobs d i) l d
  unfold startAttempt; rw [hj]
  simp only []
  rw [apply_ite Chip.jobs]
  have hstart (d : Chip) (hd : d.jobs = (setTicks c tag (startedTicks c j (freshAttempt c j tick r edge ra p))).jobs) :
      (each j.place.ctxs (each (jobCores j) (writePlan (startPorts (resetSync d tag) tag j ra) j r p) (fun d i => onCore (ageLanes d i) i (startCore j d.now i)))
        (fun c x => startCtx c x (entryOf j x p.variant) p.variant p.n p.chunk p.k tick (nextOrd j tick))).jobs =
      (setTicks c tag (startedTicks c j (freshAttempt c j tick r edge ra p))).jobs := by
    rw [hctxs, hcores, writePlan_jobs, startPorts_jobs]; exact hd
  repeat' split
  all_goals exact hstart _ rfl

/-- The one attempt of a job that had none. -/
theorem startAttempt_only {c : Chip} {tag : Nat} {j : Job} (hj : tfind c.jobs tag = some j) (ha : j.ticks.attempts = []) (tick r edge : Nat) (ra : Bool)
    (p : Plan) : ∃ j', tfind (startAttempt c tag tick r edge ra p).jobs tag = some j' ∧ j'.ticks.attempts = [freshAttempt c j tick r edge ra p] ∧
      j'.cnt = j.cnt ∧ j'.ticks.announce = j.ticks.announce := by
  refine ⟨_, (congrArg (fun t => tfind t tag) (startAttempt_jobs hj tick r edge ra p)).trans (tfind_setTicks hj _), ?_, rfl, rfl⟩
  simp [startedTicks, ha]

/-! The launch of a job edge that has fired (R43, R53). -/

theorem applyHeld_none {c : Chip} {tag : Nat} {j : Job} (hj : tfind c.jobs tag = some j) (hh : j.wts.held = []) (lit : Bool) : applyHeld c tag lit = c := by
  unfold applyHeld; rw [hj]; simp only [hh, List.filter_nil, each_nil]

/-- The ticks once an edge that fired has its attempt. -/
def edgeSpent (t : Ticks) : Ticks := { t with edge := none, planned := none, replayPlan := none }

section Launch
variable {e : Env} {c : Chip} {tag : Nat} {j : Job} (hj : tfind c.jobs tag = some j) (hh : j.wts.held = [])
include hj

section Fired
variable {tick edge : Nat} (he : j.ticks.edge = some (tick, edge))
include hh he

theorem launch_replay {p : Plan} (hp : j.ticks.replayPlan = some p) :
    launch e c tag = startAttempt (setTicks c tag edgeSpent) tag tick j.ticks.q edge false p := by
  unfold launch; simp only [hj, he, hp, applyHeld_none hj hh false]; rfl

variable (hr : j.ticks.replayPlan = none) (hl : isLead c j = false)
include hr hl

theorem launch_planned {m : PlanMsg} {p : Plan} (hp : j.ticks.planned = some (m, p)) : launch e c tag = memberStart (setTicks c tag edgeSpent) m edge p := by
  unfold launch; simp only [hj, he, hr, hl, hp, applyHeld_none hj hh false, Bool.false_eq_true, if_false]; rfl

/-- On a package that does not lead, the edge waits for its plan. -/
theorem launch_waits (hp : j.ticks.planned = none) : launch e c tag = c := by
  unfold launch; simp only [hj, he, hr, hl, hp, applyHeld_none hj hh false, Bool.false_eq_true, if_false]

end Fired

/-- A job edge that falls is noted with its cycle. -/
def edgeNoted (c : Chip) (tag tick : Nat) : Chip := setTicks c tag (fun t => { t with edge := some (tick, c.now) })

theorem tfind_edgeNoted (tick : Nat) :
    tfind (edgeNoted c tag tick).jobs tag = some { j with ticks := { j.ticks with edge := some (tick, c.now) } } := tfind_setTicks hj _

theorem edgeStart_lit (tick : Nat) (hl : jobLit c j = true) : edgeStart e c tag tick = launch e (edgeNoted c tag tick) tag := by
  have hlit : jobLit (edgeNoted c tag tick) { j with ticks := { j.ticks with edge := some (tick, c.now) } } = true :=
    (jobLit_congr (onJob_lamps _ _ _) rfl).trans hl
  unfold edgeStart; simp only []
  rw [tfind_setTicks hj]; exact if_pos hlit

theorem edgeStart_unlit (tick : Nat) (hl : jobLit c j = false) :
    edgeStart e c tag tick = countLate (edgeNoted c tag tick) { j with ticks := { j.ticks with edge := some (tick, c.now) } } := by
  have hlit : jobLit (edgeNoted c tag tick) { j with ticks := { j.ticks with edge := some (tick, c.now) } } = false :=
    (jobLit_congr (onJob_lamps _ _ _) rfl).trans hl
  unfold edgeStart; simp only []
  rw [tfind_setTicks hj]; exact if_neg (by simp [edgeNoted] at hlit; simp [hlit])

/-- The edge of a member that has no plan yet is noted, and the stacks that are not LIT count it as late (R394). -/
theorem edgeStart_waits (tick : Nat) (hr : j.ticks.replayPlan = none) (hl : isLead c j = false) (hp : j.ticks.planned = none) (hh : j.wts.held = []) :
    (edgeNoted c tag tick).LampsOnly (edgeStart e c tag tick) ∧
      (jobLit c j = false → ∀ k ∈ unlitStacks c j, (lamp (edgeStart e c tag tick) k).late = satAdd 8 (lamp c k).late 1) := by
  have hlamps : (edgeNoted c tag tick).lamps = c.lamps := onJob_lamps _ _ _
  cases hlit : jobLit c j with
  | true =>
    have hmember : isLead (edgeNoted c tag tick) j = false := by simpa [isLead, edgeNoted, setTicks] using hl
    rw [edgeStart_lit hj tick hlit, launch_waits (tfind_edgeNoted hj tick) hh rfl hr hmember hp]
    exact ⟨rfl, fun h => by cases h⟩
  | false =>
    rw [edgeStart_unlit hj tick hlit]
    refine ⟨lampsOnly_countLate _ _, fun _ k hk => ?_⟩
    refine (countLate_late ((unlitStacks_congr hlamps rfl).symm ▸ hk)).trans ?_
    unfold lamp; rw [hlamps]

/-- A member starts the attempt of the plan, with the ordinal of the message. -/
theorem memberStart_only {m : PlanMsg} (hm : m.job = tag) (ha : j.ticks.attempts = []) (edge : Nat) (p : Plan) : ∃ j' a,
    tfind (memberStart c m edge p).jobs tag = some j' ∧ j'.ticks.attempts = [a] ∧ a.tick = m.tick ∧ a.ord = m.attempt ∧ a.st = .running ∧
      a.startAt = c.now ∧ a.plan = p := by
  subst hm
  obtain ⟨hjobs, hnow⟩ := unpark_keeps c p
  have hset : tfind (setTicks (unpark c p) m.job (fun t => { t with ords := tset t.ords m.tick m.attempt, next := m.tick + 1 })).jobs m.job =
      some { j with ticks := { j.ticks with ords := tset j.ticks.ords m.tick m.attempt, next := m.tick + 1 } } := tfind_setTicks (by rw [hjobs]; exact hj) _
  obtain ⟨j', hfind, hat, _, _⟩ := startAttempt_only hset ha m.tick (j.ticks.q + b2n (newest j).isSome) edge (newest j).isSome p
  unfold memberStart; rw [hj]
  refine ⟨j', _, hfind, hat, rfl, ?_, rfl, (onJob_now _ _ _).trans hnow, rfl⟩
  simp [freshAttempt, nextOrd, tget_tset]

end Launch

/-! PLAN (R32, R273). -/

/-- A plan as the message counts it. -/
def countedPlan (m : PlanMsg) (p : Plan) : Plan := { p with variant := m.variant, n := m.k1, chunk := m.k2, k := m.k3 }

theorem realign_job {c : Chip} {tag : Nat} {j : Job} (hj : tfind c.jobs tag = some j) :
    ∃ d n, tfind (realign c tag).jobs tag = some { j with ticks := { j.ticks with due := d }, cnt := n } := by
  unfold realign
  rw [tfind_onJob_self hj]
  by_cases h : (j.args.strict || decide (c.beacon.tick + j.args.m ≤ j.ticks.due)) = true
  · exact ⟨j.ticks.due, j.cnt, congrArg some (if_pos h)⟩
  · exact ⟨_, _, congrArg some (if_neg h)⟩

/-- The attempt of a plan whose edge this package missed: it has voted no (R32). -/
def missedAttempt (c : Chip) (j : Job) (m : PlanMsg) (p : Plan) : Attempt :=
  ⟨m.tick, m.attempt, j.ticks.q, (newest j).isSome, .votedNo, c.now, c.now, c.now + 1, 0xFF, 2 ^ 23 + 0xFFFF, true, p, false, true, []⟩

/-- The ticks with a missed attempt: its edge counts as used. -/
def missedTicks (c : Chip) (j : Job) (m : PlanMsg) (a : Attempt) (t : Ticks) : Ticks :=
  { t with
    attempts := t.attempts ++ [a], ords := tset t.ords m.tick (m.attempt + 1)
    due := if m.tick < t.next then t.due else if j.args.strict then t.due + j.args.m else c.beacon.tick + j.args.m
    next := max t.next (m.tick + 1) }

section Plan
variable {e : Env} {c : Chip} {m : PlanMsg} {j : Job} (body : Plan) (hj : tfind c.jobs m.job = some j) (hr : jobRunning j = true)
  (ha : j.ticks.attempts = []) (hl : isLead c j = false) (hg : j.ticks.gone.contains (m.tick, m.attempt) = false)
  (hv : j.ticks.verdicts.any (fun v => v.tick == m.tick && v.attempt == m.attempt) = false)
include hj hr ha hl hg hv

theorem receivePlan_fired {x : Nat × Nat} (he : j.ticks.edge = some x) (hlit : jobLit c j = true) : receivePlan e c m body =
    launch e (setTicks (realign c m.job) m.job (fun t => { t with planned := some (m, countedPlan m body) })) m.job := by
  unfold receivePlan; rw [hj]
  simp only [hl, hr, ha, hg, hv, he, hlit, List.any_nil, Bool.not_true, Bool.or_self, Bool.false_eq_true, if_false, if_true]
  rfl

theorem receivePlan_missed (he : j.ticks.edge = none) : receivePlan e c m body =
    castVote e (setTicks c m.job (missedTicks c j m (missedAttempt c j m (countedPlan m body)))) m.job (missedAttempt c j m (countedPlan m body))
      false 0xFF (2 ^ 23 + 0xFFFF) := by
  unfold receivePlan; rw [hj]
  simp only [hl, hr, ha, hg, hv, he, List.any_nil, Bool.not_true, Bool.or_self, Bool.false_eq_true, if_false]
  rfl

end Plan

/-! REPLAY_EDGE (R53). -/

/-- The job whose replay edge fires: the next job edge is set from it, and the replay is counted. -/
def replayed (c : Chip) (w : Announce) (j : Job) : Job :=
  { j with
    ticks := { j.ticks with announce := none, due := edgeAtOrAfter c (c.now + jobPeriod c j), next := w.tick + 1 }
    cnt := { j.cnt with
      replays := satAdd 32 j.cnt.replays 1, stretch := satAdd 32 j.cnt.stretch (edgeAtOrAfter c (c.now + jobPeriod c j) - j.ticks.due) } }

theorem tfind_onJob_onJob {c : Chip} {t : Nat} {j : Job} (hj : tfind c.jobs t = some j) (f g : Job → Job) :
    tfind (onJob (onJob c t f) t g).jobs t = some (g (f j)) := tfind_onJob_self (tfind_onJob_self hj f) g

/-- The announced edge of a replay notes its tick, and starts it. -/
theorem announcedEdge_replay {e : Env} {c : Chip} {tag : Nat} {j : Job} {w : Announce} (hj : tfind c.jobs tag = some j) (hr : jobRunning j = true)
    (hw : j.ticks.announce = some w) (hk : w.kind = .replay) (hb : c.boot.halted = false) (hh : j.ticks.halt = false) (hd : w.due ≤ c.beacon.tick)
    (ht : edgeCycle c w.due + w.offset ≤ c.now) : ∃ d, announcedEdge e c tag = lampReviews (edgeStart e d tag w.tick) ∧
      tfind d.jobs tag = some (replayed c w j) ∧ d.beacon = c.beacon ∧ d.lamps = c.lamps ∧ d.now = c.now := by
  unfold announcedEdge
  simp only [hj, hw, hr, hb, hh, hk, Nat.not_lt.mpr hd, Nat.not_lt.mpr ht, Bool.not_true, Bool.or_self, decide_false, Bool.false_eq_true, if_false]
  exact ⟨_, rfl, tfind_onJob_onJob hj _ _, by simp [setTicks], by simp [setTicks], by simp [setTicks]⟩

/-- Settles O30: a plan and a replay edge reach the start of an attempt by `launch`; a missed plan is a no vote of its attempt. -/
theorem plansStartAttempts : Obligations.PlansStartAttempts := by
  intro m body j s hq hj hr ha hh _
  refine ⟨fun hl hg hv => ⟨fun x he hlit hp hx => ?start, fun he => ?missed⟩, fun w p hw hk hb hhalt hd ht hlit hp => ?replay⟩
  case start =>
    obtain ⟨d, n, hre⟩ := realign_job hj
    have hset := tfind_setTicks hre (fun t => { t with planned := some (m, countedPlan m body) })
    have hmember : isLead (setTicks (realign s.chip m.job) m.job (fun t => { t with planned := some (m, countedPlan m body) })) j = false := by
      simpa [isLead, setTicks, realign] using hl
    obtain ⟨tick, edge⟩ := x
    obtain ⟨j', a, hfind, hat, htick, hord, hst, hnow, hplan⟩ := memberStart_only (tfind_setTicks hset edgeSpent) rfl ha edge (countedPlan m body)
    refine ⟨_, j', a, rfl, ?_, hat, htick, hord, hst, hnow.trans (by simp [setTicks, realign]), hplan⟩
    rw [receivePlan_fired body hj hr ha hl hg hv he hlit, launch_planned hset hh he hp hmember rfl]
    exact hfind
  case missed =>
    have hset := tfind_setTicks hj (missedTicks s.chip j m (missedAttempt s.chip j m (countedPlan m body)))
    have hbeacon : (setTicks s.chip m.job (missedTicks s.chip j m (missedAttempt s.chip j m (countedPlan m body)))).beacon = s.chip.beacon := onJob_beacon _ _ _
    rw [exec_plan, receivePlan_missed body hj hr ha hl hg hv he, castVote_member hset (by unfold isLead; rw [hbeacon]; exact hl), hbeacon]
    have hw := wireOnly_sendTo (setTicks s.chip m.job (missedTicks s.chip j m (missedAttempt s.chip j m (countedPlan m body)))) m.job j.place.lead
      s.chip.beacon.pkg (fun _ => 0) (.vote ⟨m.job, s.chip.beacon.pkg, m.tick, m.attempt, false, 0xFF, 2 ^ 23 + 0xFFFF⟩)
    refine ⟨_, _, _, congrArg _ (after_lampReviews s hq ((sameHand_setTicks _ _ _).trans hw.sameHand)), (tfind_lampReviews _ _).trans
      ((hw.on (fun d => tfind d.jobs m.job)).trans hset), congrArg (· ++ _) ha, rfl, rfl, (lampReviews_out _).trans (sendTo_setTicks_out _ _ _ _ _ _ _ _)⟩
  case replay =>
    obtain ⟨d, hedge, hfind, hbeacon, hlamps, hnow⟩ := announcedEdge_replay (e := s.env) hj hr hw hk hb hhalt hd ht
    have hnoted := tfind_setTicks hfind (fun t => { t with edge := some (w.tick, d.now) })
    obtain ⟨j', hj', hat, hcnt, hann⟩ := startAttempt_only (tfind_setTicks hnoted edgeSpent) ha w.tick j.ticks.q d.now false p
    refine ⟨edgeStart s.env d m.job w.tick, j', _, by rw [exec_replayEdge, hedge], ?_, hat, rfl, rfl, rfl, congrArg JobCnt.replays hcnt, hann⟩
    rw [edgeStart_lit hfind _ ((jobLit_congr hlamps rfl).trans hlit)]
    exact (congrArg (fun c => tfind c.jobs m.job) (launch_replay hnoted hh rfl hp)).trans hj'

/-! FIRE_EDGE (R24, R26, R32). -/

theorem fireEdge_due (e : Env) {c : Chip} {d : DueEdge} (h : edgeDue c = some d) :
    fireEdge e c = lampReviews (each (c.jobs.map Prod.fst) (fireDomainEdge c d) (jobEdge e)) := by
  unfold fireEdge; rw [h]; rfl

theorem passEdges_stopped {c : Chip} {tag : Nat} (h : ∀ j, tfind c.jobs tag = some j → jobRunning j = false) (fuel n : Nat) : passEdges fuel c tag n = c := by
  cases fuel with
  | zero => rfl
  | succ fuel =>
    unfold passEdges
    cases hj : tfind c.jobs tag with
    | none => rfl
    | some j => exact if_neg (by simp [edgesCount, h j hj])

/-- A job that does not run and has no attempt takes no edge. -/
theorem jobEdge_stopped {e : Env} {c : Chip} {tag : Nat} (h : ∀ j, tfind c.jobs tag = some j → jobRunning j = false ∧ j.ticks.attempts = []) :
    jobEdge e c tag = c := by
  have htouch : touchDone c tag = c := by
    cases hj : tfind c.jobs tag with
    | none => unfold touchDone; rw [hj]
    | some j => exact touchDone_idle hj (h j hj).2
  unfold jobEdge; simp only []
  rw [htouch, passEdges_stopped fun j hj => (h j hj).1]
  cases hj : tfind c.jobs tag with
  | none => rfl
  | some j => exact if_pos (by simp [edgesCount, (h j hj).1])

/-- The job whose edge counts at domain edge `n`. -/
def edgeCounted (n : Nat) (j : Job) : Job :=
  { j with
    args := { j.args with m := edgeM j, mNext := match j.args.mNext with | some (_, none) => none | x => x }
    ticks := { j.ticks with next := j.ticks.next + 1, due := n + edgeM j }
    cnt := { j.cnt with stretch := if j.args.strict then j.cnt.stretch else satAdd 32 j.cnt.stretch (n - j.ticks.due) } }

theorem countEdge_eq (c : Chip) (tag n : Nat) : countEdge c tag n = onJob c tag (edgeCounted n) := rfl

/-- A job edge that falls on the domain edge just fired, with no tick in hand. -/
theorem jobEdge_falls {e : Env} {c : Chip} {tag : Nat} {j : Job} (hj : tfind c.jobs tag = some j) (hc : edgesCount c j = true) (ha : j.ticks.attempts = [])
    (hn : j.ticks.announce = none) (hp : j.ticks.replayPlan = none) (he : j.ticks.edge = none) (hd : j.ticks.due = c.beacon.tick) :
    jobEdge e c tag = edgeStart e (onJob c tag (edgeCounted c.beacon.tick)) tag j.ticks.next := by
  rw [← countEdge_eq]
  have hpast : edgesPast c tag c.beacon.tick = 0 := by unfold edgesPast; rw [hj]; exact Nat.sub_eq_zero_of_le (by rw [hd])
  unfold jobEdge; simp only []
  rw [touchDone_idle hj ha, hpast]
  unfold passEdges
  simp only [hj, hc, hd, ha, waitsReplay, edgeTaken, hn, hp, he, Nat.lt_irrefl]
  rfl

/-- Settles O25: an edge is written to the Beacon, and each job takes it or not by its own state; a member's edge waits for the plan, and counts LATE where it met a stack that is not LIT. -/
theorem edgesFire : Obligations.EdgesFire := by
  intro d s hq hdue
  have hfired : s.chip.SameHand (fireDomainEdge s.chip d) := sameHand_onBeacon _ _
  rw [exec_fireEdge, fireEdge_due s.env hdue]
  refine ⟨fun hstop => ?stopped, fun tag j hjobs hc hl ha hn he hpl hrp hh hd => ?falls⟩
  case stopped =>
    have hsame : each (s.chip.jobs.map Prod.fst) (fireDomainEdge s.chip d) (jobEdge s.env) = fireDomainEdge s.chip d :=
      each_same fun t _ => jobEdge_stopped fun j hj => hstop (t, j) (mem_of_tfind hj)
    rw [hsame, after_lampReviews s hq hfired]
    exact ⟨_, rfl, lampReviews_beacon _, lampReviews_jobs _, rfl⟩
  case falls =>
    have hj : tfind (fireDomainEdge s.chip d).jobs tag = some j := by
      show tfind s.chip.jobs tag = some j
      rw [hjobs]; exact if_pos rfl
    have hrow : each (s.chip.jobs.map Prod.fst) (fireDomainEdge s.chip d) (jobEdge s.env) =
        edgeStart s.env (onJob (fireDomainEdge s.chip d) tag (edgeCounted d.n)) tag j.ticks.next := by
      rw [hjobs]; exact jobEdge_falls hj hc ha hn hrp he hd
    have hcount : tfind (onJob (fireDomainEdge s.chip d) tag (edgeCounted d.n)).jobs tag = some (edgeCounted d.n j) := tfind_onJob_self hj _
    have hlamps : (onJob (fireDomainEdge s.chip d) tag (edgeCounted d.n)).lamps = s.chip.lamps := onJob_lamps _ _ _
    have hbeacon : (onJob (fireDomainEdge s.chip d) tag (edgeCounted d.n)).beacon = (fireDomainEdge s.chip d).beacon := onJob_beacon _ _ _
    have hnow : (onJob (fireDomainEdge s.chip d) tag (edgeCounted d.n)).now = s.chip.now := onJob_now _ _ _
    have hmember : isLead (onJob (fireDomainEdge s.chip d) tag (edgeCounted d.n)) (edgeCounted d.n j) = false := by
      unfold isLead; rw [hbeacon]; exact hl
    have hhand := hfired.trans (sameHand_onJob _ tag (edgeCounted d.n))
    rw [hrow]
    generalize onJob (fireDomainEdge s.chip d) tag (edgeCounted d.n) = c at hcount hlamps hbeacon hnow hmember hhand ⊢
    obtain ⟨hstart, hlate⟩ := edgeStart_waits (e := s.env) hcount j.ticks.next hrp hmember hpl hh
    rw [after_lampReviews s hq ((hhand.trans (sameHand_setTicks _ _ _)).trans hstart.sameHand)]
    refine ⟨_, _, rfl, ?_, (tfind_lampReviews _ _).trans ((hstart.on (fun d => tfind d.jobs tag)).trans (tfind_setTicks hcount _)), ?_, rfl, rfl, ha, ?_⟩
    · rw [State.put_chip, lampReviews_beacon, hstart.on Chip.beacon]
      exact congrArg Beacon.tick ((onJob_beacon _ _ _).trans hbeacon)
    · rw [hnow]
    · intro hlit k hk hb hst
      rw [State.put_chip, lampReviews_late, hlate ((jobLit_congr hlamps rfl).trans hlit) k ((unlitStacks_congr hlamps rfl).symm ▸ mem_unlitStacks hk hb hst)]
      unfold lamp; rw [hlamps]; rfl

end Sys2Proof.Machine
end

section
/-! O54: START_JOB, STOP_JOB and SET_TICK (02_beacon.md R23, R26; 10_contract.md R261; 12_host.md R297, R309). -/

namespace Sys2Proof.Machine

/-! The rows, each by the chip that it settles. -/

theorem exec_startJob (id : CmdId) (others : List PkgCheck) (s : State) :
    exec (.startJob (.ring id) others) s = .next (s.after (withStarted s.chip id 0x04 (startJob s.env others none))) := rfl
theorem exec_stopJob (id : CmdId) (s : State) : exec (.stopJob (.ring id)) s = .next (s.after (withStarted s.chip id 0x05 (stopJob none))) := rfl
theorem exec_setTick (id : CmdId) (elsewhere : Bool) (s : State) : exec (.setTick ⟨id, elsewhere⟩) s =
    .next (s.after (withStarted s.chip id 0x30 (fun m c => if (m.target != 0) = false then setTick elsewhere m c else c))) := rfl
theorem exec_setTickJob (id : CmdId) (s : State) : exec (.setTickJob (.ring id)) s =
    .next (s.after (withStarted s.chip id 0x30 (fun m c => if (m.target != 0) = true then setTickJob none m c else c))) := rfl

/-- The handle of a job is not 0 (R296). -/
theorem target_ne_zero {c : Chip} {h : Nat} {x : Nat × Job} (hj : jobOf c h = some x) : h ≠ 0 := by
  rintro rfl
  have hnone : jobOf c 0 = none := if_neg (by decide)
  exact Option.some_ne_none x (hj.symm.trans hnone)

theorem tfind_of_jobOf {c : Chip} {h t : Nat} {j : Job} (hj : jobOf c h = some (t, j)) : tfind c.jobs t = some j := by
  unfold jobOf at hj
  split at hj
  · split at hj
    · next hf =>
      split at hj
      · obtain ⟨rfl, rfl⟩ := Prod.mk.inj (Option.some.inj hj)
        exact hf
      · exact absurd hj.symm (Option.some_ne_none _)
    · exact absurd hj.symm (Option.some_ne_none _)
  · exact absurd hj.symm (Option.some_ne_none _)

theorem acceptCmd_jobs (c : Chip) (id : CmdId) (h : Nat) : (acceptCmd c id h).jobs = c.jobs := by
  unfold acceptCmd; split
  · rfl
  · rw [updCmd_jobs, complete_jobs]

theorem doneCmd_jobs (c : Chip) (id : CmdId) (st : Status) (a b : Nat) : (doneCmd c id st a b).jobs = c.jobs :=
  (finalCmd_jobs _ _ _ _ _ _).trans (acceptCmd_jobs _ _ _)

section Target
variable {s : State} {m : Cmd} {t : Nat} {j : Job} (ht : Aimed s m t j)
include ht

/-! START_JOB (R261, R309). -/

section Start
variable {others : List PkgCheck} (hl : j.st ≠ .loading)
include hl

theorem startJob_busy (h : jobRunning j = true ∨ j.clearing = true) : startJob s.env others none m s.chip = final s.chip m.id .busy := by
  unfold startJob; rw [onJobTarget_of ht]
  exact (if_neg hl).trans (if_pos h)

variable (hr : jobRunning j = false) (hc : j.clearing = false)
include hr hc

theorem startJob_refused {p : Nat} {st : Status} (hd : deciding s.chip.beacon.pkg (startCheck s.env s.chip t m j others) others = some (p, st)) :
    startJob s.env others none m s.chip = final s.chip m.id st := by
  unfold startJob; rw [onJobTarget_of ht]
  simp only [if_neg hl, hr, hc, hd, Bool.false_eq_true, or_self, if_false]

theorem startJob_passes {base : Nat} (hd : deciding s.chip.beacon.pkg (startCheck s.env s.chip t m j others) others = none)
    (hb : firstFit (reserved s.chip t) 16384 (startArgs m).reqCount = some base) : startJob s.env others none m s.chip =
      lampReviews (beginJob (doneCmd s.chip m.id .ok (s.chip.beacon.tick + 1) 0) t base (s.chip.beacon.tick + 1) (startArgs m)) := by
  unfold startJob; rw [onJobTarget_of ht]
  simp only [if_neg hl, hr, hc, hd, hb, Bool.false_eq_true, or_self, if_false, Option.getD_some]

end Start

/-! STOP_JOB (R297, R309). -/

section Stop
variable (hl : j.st ≠ .loading) (hs : j.stop = none)
include hl hs

theorem stopJob_running (hr : jobRunning j = true) (hk : lastTick j ≠ none) : stopJob none m s.chip =
    onJob (acceptCmd s.chip m.id (cmdHandle m.id)) t (fun j' =>
      { j' with st := .stopping, stop := some ⟨m.id, bitOf m.flags 3, bitOf m.flags 2, if bitOf m.flags 3 then none else lastTick j⟩ }) := by
  unfold stopJob; rw [onJobTarget_of ht]
  simp only [hl, hs, hr, hk, Option.isSome_none, Bool.false_eq_true, or_self, false_and, if_false, if_true, Option.isNone_none, Bool.and_true]

theorem stopJob_stopped (hr : jobRunning j = false) (hu : bitOf m.flags 2 = false) : stopJob none m s.chip =
    doneCmd (onJob s.chip t (fun j => { j with capture := none })) m.id .ok j.ticks.committed 0 := by
  unfold stopJob; rw [onJobTarget_of ht]
  simp only [hl, hs, hr, hu, Option.isSome_none, Bool.false_eq_true, or_self, if_false]

/-- A job that does not run is unloaded: its other commands end, and clearing begins. -/
theorem stopJob_unloads (hr : jobRunning j = false) (hu : bitOf m.flags 2 = true) : stopJob none m s.chip =
    onJob (each ((jobCmds s.chip t).filter (fun x => x != m.id)) (acceptCmd s.chip m.id (cmdHandle m.id)) (fun c x => final c x .partitionKilled)) t (fun j =>
      { j with capture := none, clearing := true, clearAll := true, killCmds := j.killCmds ++ [m.id]
               wts := Weights.tidy { j.wts with
                 loads := [], held := [], drops := [], trains := []
                 drawers := j.wts.drawers.map (fun d => if d.2.st = .filling then (d.1, Drawer.free) else d) } }) := by
  unfold stopJob; rw [onJobTarget_of ht]
  simp only [hl, hs, hr, hu, Option.isSome_none, Bool.false_eq_true, or_self, if_false, if_true]

end Stop

/-! SET_TICK of a job (R26, R261). -/

theorem setTickJob_fits (hr : jobRunning j = true) (h1 : 1 ≤ arg m 0x14 2) (h2 : arg m 0x14 2 ≤ 256)
    (hf : fitsTick j j.args.strict (arg m 0x14 2 * s.chip.beacon.period) = true) : setTickJob none m s.chip =
      onJob (doneCmd s.chip m.id .ok 0 0) t (fun j' => { j' with args := { j'.args with mNext := some (arg m 0x14 2, lastTick j) } }) := by
  have hn : arg m 0x14 2 ≠ 0 := Nat.one_le_iff_ne_zero.mp h1
  unfold setTickJob; rw [onJobTarget_of ht]
  simp only [hr, hn, hf, Nat.not_lt.mpr h2, Bool.true_eq_false, or_self, if_false]
  exact onJob_congr (by rw [doneCmd_jobs]; exact tfind_of_jobOf ht.1) rfl

theorem setTickJob_refused (h : arg m 0x14 2 = 0 ∨ 256 < arg m 0x14 2 ∨ fitsTick j j.args.strict (arg m 0x14 2 * s.chip.beacon.period) = false) :
    setTickJob none m s.chip = final s.chip m.id .invalidArg := by
  unfold setTickJob; rw [onJobTarget_of ht]
  exact if_pos (.inr h)

end Target

/-! SET_TICK of the domain (R23, R308). -/

section Domain
variable {c : Chip} {m : Cmd} {elsewhere : Bool}

theorem setTick_short (h : arg m 0x10 4 < 26000) : setTick elsewhere m c = final c m.id .invalidArg := if_pos h

variable (h : 26000 ≤ arg m 0x10 4)
include h

theorem setTick_denied (ho : (part c m.id.part).operator = false) : setTick elsewhere m c = final c m.id .denied :=
  (if_neg (Nat.not_lt.mpr h)).trans (if_pos ho)

variable (ho : (part c m.id.part).operator = true)
include ho

theorem setTick_elsewhere (hr : c.beacon.role ≠ 1) : setTick elsewhere m c = finalCmd c m.id .invalidArg 0 0 c.beacon.lighthouse :=
  (if_neg (Nat.not_lt.mpr h)).trans ((if_neg (by simp [ho])).trans (if_pos hr))

variable (hr : c.beacon.role = 1)
include hr

theorem setTick_busy (hb : elsewhere = true ∨ c.jobs.any (fun j => jobRunning j.2) = true) : setTick elsewhere m c = final c m.id .busy :=
  (if_neg (Nat.not_lt.mpr h)).trans ((if_neg (by simp [ho])).trans ((if_neg (not_not_intro hr)).trans (if_pos (by simpa using hb))))

theorem setTick_sets (he : elsewhere = false) (hj : c.jobs.any (fun j => jobRunning j.2) = false) :
    setTick elsewhere m c = setPeriod (doneCmd c m.id .ok 0 0) (arg m 0x10 4) :=
  (if_neg (Nat.not_lt.mpr h)).trans ((if_neg (by simp [ho])).trans ((if_neg (not_not_intro hr)).trans (if_neg (by rw [he, hj]; decide))))

end Domain

/-- Settles O54: each command reaches its meaning on its target, which answers by the branch of its conditions. -/
theorem jobsStartAndStop : Obligations.JobsStartAndStop := by
  refine ⟨?start, ?stop, ?tick, ?tickJob⟩
  case start =>
    intro id others m t j s _ h ht hl
    rw [exec_startJob, withStarted_of h]
    exact ⟨fun hb => by rw [startJob_busy ht hl hb], fun hr hc => ⟨fun p st hd => by rw [startJob_refused ht hl hr hc hd],
      fun base hd hb => by rw [startJob_passes ht hl hr hc hd hb]⟩⟩
  case stop =>
    intro id m t j s _ h ht hl hs
    rw [exec_stopJob, withStarted_of h]
    exact ⟨fun hr hk => by rw [stopJob_running ht hl hs hr hk], fun hr hu => by rw [stopJob_stopped ht hl hs hr hu],
      fun hr hu => by rw [stopJob_unloads ht hl hs hr hu]⟩
  case tick =>
    intro id elsewhere m s _ h ht
    rw [exec_setTick, withStarted_of h, if_pos (by rw [ht]; rfl)]
    exact ⟨fun hp => by rw [setTick_short hp], fun hp ho => by rw [setTick_denied hp ho], fun hp ho hr => by rw [setTick_elsewhere hp ho hr],
      fun hp ho hr => ⟨fun hb => by rw [setTick_busy hp ho hr hb], fun he hj => by rw [setTick_sets hp ho hr he hj]⟩⟩
  case tickJob =>
    intro id m t j s _ h ht hr
    rw [exec_setTickJob, withStarted_of h, if_pos (bne_iff_ne.mpr (target_ne_zero ht.1))]
    exact ⟨fun h1 h2 hf => by rw [setTickJob_fits ht hr h1 h2 hf], fun hn => by rw [setTickJob_refused ht hn]⟩

end Sys2Proof.Machine
end

section
/-! SUPPORT. The cycle in which only the synchronisation logic acts, and what that logic leaves alone (02_beacon.md R33-R42; log entry 1). -/

namespace Sys2Proof.Machine

theorem sortBy_nil {α : Type} (f : α → Nat) : sortBy f [] = [] := rfl

/-! The links of a still cycle. -/

/-- No message is released, so the Beacon and the ports are as they were. -/
theorem releaseMsgs_still (e : Env) {c : Chip} (h : ∀ x ∈ c.beacon.held, c.now < x.at_) : releaseMsgs e c = c := by
  have hnone : c.beacon.held.filter (fun x => decide (x.at_ ≤ c.now)) = [] := List.filter_eq_nil_iff.mpr fun x hx => by simpa using h x hx
  have hall : c.beacon.held.filter (fun x => decide (c.now < x.at_)) = c.beacon.held := List.filter_eq_self.mpr fun x hx => by simpa using h x hx
  unfold releaseMsgs onBeacon
  rw [hnone, sortBy_nil, each_nil]
  simp only [hall]

/-- No slot begins that no frame takes. -/
theorem slotWords_still {e : Env} {c : Chip} (h : ∀ n < 16, portOpen e c n = true → slotTime c n (slotFrom c n c.now) ≠ c.now ∨
    (tget Port.reset c.ports n).grid = (slotOrigin c n, slotFrom c n c.now + 1)) : slotWords e c = c := by
  refine each_same fun n hn => ?_
  obtain ⟨hlt, hopen⟩ := List.mem_filter.mp hn
  refine if_neg fun hs => ?_
  obtain ht | hg := h n (List.mem_range.mp hlt) hopen
  · exact ht hs.1
  · exact hs.2 hg

/-- In a cycle in which at most buoys and barriers act, they have their turn and the clock advances. -/
theorem cycle_still {s : State} (hb : s.onlyBusy []) (hj : (syncTurn s.chip).jobs = s.chip.jobs) :
    cycle s.env s.chip = { syncTurn s.chip with now := (syncTurn s.chip).now + 1 } := by
  obtain ⟨_, ⟨hheld, hslots⟩, hbusy, hcores, hvotes⟩ := hb
  have hfifo : s.chip.cores.filter (fun p => p.2.fifo.any (fun w => decide (w.arrive ≤ s.chip.now) && !w.checked)) = [] :=
    List.filter_eq_nil_iff.mpr fun p hp => by
      obtain ⟨hchecked, _, _⟩ := hcores p hp
      simpa using fun w hw _ => hchecked w hw
  have hend : s.chip.cores.filter (fun p => p.2.ended && !p.2.doneSaid) = [] :=
    List.filter_eq_nil_iff.mpr fun p hp => by
      obtain ⟨_, hsaid, _⟩ := hcores p hp
      simpa using hsaid
  have hdecide : (syncTurn s.chip).jobs.filter (fun p => jobRunning p.2 && p.2.ticks.votes != [] && p.2.ticks.commitAt.isSome) = [] := by
    rw [hj]; exact List.filter_eq_nil_iff.mpr fun p hp => by simp [hvotes p hp]
  unfold cycle closeCycle decideHeld
  rw [releaseMsgs_still s.env hheld, slotWords_still hslots]
  simp only [hfifo, List.map_nil, each_nil, hbusy, hend]
  rw [hdecide]; rfl

/-- An idle step is a cycle. -/
theorem step_idle {s : State} (h : s.pending = []) : step s = .next (s.after (cycle s.env s.chip)) := by unfold step; rw [h]; rfl

theorem step_still {s : State} (hb : s.onlyBusy []) (hj : (syncTurn s.chip).jobs = s.chip.jobs) :
    step s = .next (s.after { syncTurn s.chip with now := (syncTurn s.chip).now + 1 }) := by rw [step_idle hb.1, cycle_still hb hj]

/-! Cores that a fold writes one by one. -/

/-- Each core of a list is written once, where writing it again changes nothing. -/
theorem core_each {f : Chip → Nat → Chip} {G : Nat → Core → Core} {n : Nat} (hnow : ∀ c i, (f c i).now = c.now)
    (hf : ∀ c i k, c.now = n → core (f c i) k = if k = i then G i (core c i) else core c k) (hG : ∀ i x, G i (G i x) = G i x) (l : List Nat)
    {c : Chip} (hc : c.now = n) (k : Nat) : core (each l c f) k = if k ∈ l then G k (core c k) else core c k := by
  induction l generalizing c with
  | nil => rfl
  | cons i l ih =>
    refine (ih ((hnow c i).trans hc)).trans ?_
    rw [hf c i k hc]
    by_cases hk : k = i
    · subst hk; simp [hG]
    · simp [hk]

/-- A fold over copies of one number is one step, where a second step changes nothing. -/
theorem each_copies {f : Chip → Nat → Chip} {c : Chip} {g : Nat} {l : List Nat} (hall : ∀ x ∈ l, x = g) (hg : g ∈ l) (hf : f (f c g) g = f c g) :
    each l c f = f c g := by
  cases l with
  | nil => cases hg
  | cons x l =>
    obtain rfl := hall x List.mem_cons_self
    exact each_same (c := f c x) fun y hy => by rw [hall y (List.mem_cons_of_mem _ hy), hf]

/-- A core with something in it stands in the table. -/
theorem mem_cores {c : Chip} {i : Nat} (h : (core c i).bFree ≠ none) : (i, core c i) ∈ c.cores := by
  unfold core tget at h ⊢
  cases hf : tfind c.cores i with
  | none => rw [hf] at h; exact absurd rfl h
  | some k => exact mem_of_tfind hf

/-! The release of a BARRIER (R41). -/

/-- A core whose held slot leaves its B queue in cycle `t`. -/
def Core.letGo (k : Core) (t : Nat) : Core :=
  { k with b := k.b.tail, bHeld := none, bFree := none, bReady := max k.bReady t, retireAt := max k.retireAt t }

/-- A core at the end of cycle `n`: a BARRIER whose release has come has left the queue. -/
def Core.barFreed (n : Nat) (k : Core) : Core :=
  match k.b, k.bFree with
  | s :: _, some t => if opOf s.w = 6 ∧ t ≤ n + 1 then k.letGo t else k
  | _, _ => k

theorem Core.barFreed_cases (n : Nat) (k : Core) : k.barFreed n = k ∨ ∃ t, k.barFreed n = k.letGo t := by
  unfold Core.barFreed
  split
  · split
    · exact .inr ⟨_, rfl⟩
    · exact .inl rfl
  · exact .inl rfl

theorem Core.barFreed_barFreed (n : Nat) (k : Core) : (k.barFreed n).barFreed n = k.barFreed n := by
  obtain h | ⟨t, h⟩ := k.barFreed_cases n
  · rw [h, h]
  · rw [h]
    unfold Core.barFreed Core.letGo
    split
    · next hf => cases hf
    · rfl

/-- A core whose release has come is let go. -/
theorem Core.barFreed_due {n t : Nat} {k : Core} {q : QSlot} {r : List QSlot} (hb : k.b = q :: r) (hf : k.bFree = some t) (ho : opOf q.w = 6)
    (ht : t ≤ n + 1) : k.barFreed n = k.letGo t := by
  unfold Core.barFreed; rw [hb, hf]; exact if_pos ⟨ho, ht⟩

theorem Core.barFreed_early {n t : Nat} {k : Core} (hf : k.bFree = some t) (ht : n + 1 < t) : k.barFreed n = k := by
  unfold Core.barFreed; rw [hf]
  split
  · next h => cases h; exact if_neg fun h => by omega
  · rfl

theorem coresOnly_letGo (c : Chip) (i t : Nat) : c.CoresOnly (letGo c i t) := rfl

theorem core_letGo (c : Chip) (i t k : Nat) : core (letGo c i t) k = if k = i then (core c i).letGo t else core c k := core_onCore _ _ _ _

theorem barFree_cases (c : Chip) (i : Nat) :
    (barFree c i = c ∧ (core c i).barFreed c.now = core c i) ∨ ∃ t, barFree c i = letGo c i t ∧ (core c i).barFreed c.now = (core c i).letGo t := by
  unfold barFree Core.barFreed
  cases hb : (core c i).b with
  | nil => exact .inl ⟨by simp only [hb], rfl⟩
  | cons q r =>
    cases hf : (core c i).bFree with
    | none => exact .inl ⟨by simp only [hb, hf], rfl⟩
    | some t =>
      simp only [hb, hf]
      by_cases h : opOf q.w = 6 ∧ t ≤ c.now + 1
      · exact .inr ⟨t, if_pos h, if_pos h⟩
      · exact .inl ⟨if_neg h, if_neg h⟩

theorem coresOnly_barFree (c : Chip) (i : Nat) : c.CoresOnly (barFree c i) := by
  obtain ⟨h, _⟩ | ⟨t, h, _⟩ := barFree_cases c i <;> rw [h]
  · rfl
  · exact coresOnly_letGo c i t

theorem core_barFree (c : Chip) (i k : Nat) : core (barFree c i) k = if k = i then (core c i).barFreed c.now else core c k := by
  obtain ⟨h, hk⟩ | ⟨t, h, hk⟩ := barFree_cases c i <;> rw [h, hk]
  · split
    · next e => rw [e]
    · rfl
  · exact core_letGo c i t k

/-- The last stage of a cycle's turn: cores whose BARRIER is released let it go. -/
def barsFree (c : Chip) : Chip := each ((c.cores.filter (fun p => p.2.bFree.isSome)).map Prod.fst) c barFree

theorem coresOnly_barsFree (c : Chip) : c.CoresOnly (barsFree c) := coresOnly_each _ coresOnly_barFree c

theorem core_barsFree {c : Chip} {i : Nat} (h : (core c i).bFree ≠ none) : core (barsFree c) i = (core c i).barFreed c.now := by
  have hmem : i ∈ (c.cores.filter (fun p => p.2.bFree.isSome)).map Prod.fst :=
    List.mem_map.mpr ⟨_, List.mem_filter.mpr ⟨mem_cores h, Option.isSome_iff_ne_none.mpr h⟩, rfl⟩
  refine (core_each (G := fun _ k => k.barFreed c.now) (n := c.now) (fun d k => (coresOnly_barFree d k).on Chip.now)
    (fun d a k hd => ?_) (fun _ k => k.barFreed_barFreed _) _ rfl i).trans (if_pos hmem)
  rw [core_barFree, hd]

/-! The turn of a cycle. -/

theorem syncTurn_eq (c : Chip) : syncTurn c =
    let c1 := each (buoyPick c) { c with buoyq := c.buoyq.filter (fun x => !((buoyPick c).contains x)) } buoyAct
    barsFree (each ((c1.bars.filter (fun b => b.2.fall.isSome)).map Prod.fst) c1 barFall) := rfl

/-- A turn with no barrier about to fall. -/
theorem syncTurn_noFall {c d : Chip} (hd : each (buoyPick c) { c with buoyq := c.buoyq.filter (fun x => !((buoyPick c).contains x)) } buoyAct = d)
    (hf : ∀ b ∈ d.bars, b.2.fall = none) : syncTurn c = barsFree d := by
  have hnone : d.bars.filter (fun b => b.2.fall.isSome) = [] := List.filter_eq_nil_iff.mpr fun b hb => by simp [hf b hb]
  rw [syncTurn_eq]; simp only [hd, hnone, List.map_nil, each_nil]

/-- Every core that waits for a release holds a WAIT. -/
def WaitsOnly (c : Chip) : Prop := ∀ p ∈ c.cores, p.2.bFree ≠ none → ∃ q r, p.2.b = q :: r ∧ opOf q.w = 3

/-- A WAIT leaves its queue by a command of its own. -/
theorem barsFree_waits {c : Chip} (h : WaitsOnly c) : barsFree c = c := by
  refine each_same fun i _ => ?_
  unfold barFree; simp only []
  split
  · next hq hf =>
    have hfree : (core c i).bFree ≠ none := by rw [hf]; exact Option.some_ne_none _
    obtain ⟨q, r, hqr, ho⟩ := h _ (mem_cores hfree) hfree
    rw [hq] at hqr; cases hqr
    exact if_neg fun hx => by rw [ho] at hx; exact absurd hx.1 (by decide)
  · rfl

end Sys2Proof.Machine
end

section
/-! O31, O32: operations on buoys, as messages, as slots and in their turn (02_beacon.md R34-R39; 09_keeper.md R227, R230). -/

namespace Sys2Proof.Machine

/-! The turn of one operation. -/

/-- An operation that has come and is alone has its turn. -/
theorem buoyPick_one {c : Chip} {x : BuoyIn} (hq : c.buoyq = [x]) (hx : x.at_ ≤ c.now + 1) : buoyPick c = [x] := by
  unfold buoyPick; rw [hq, List.filter_cons_of_pos (by simpa using hx)]; rfl

theorem buoyPick_none {c : Chip} (hq : c.buoyq = []) : buoyPick c = [] := by unfold buoyPick; rw [hq]; rfl

/-- The fault of an operation: at the issuing slot for one of this package, at the receiver for a message (R36). -/
def buoyFault (c : Chip) (x : BuoyIn) (f : FaultCode) : Raise :=
  if x.eng = engRx then
    ⟨faultNo f, engRx, gca c (refLocal x.m.ref / 2 ^ 16 * 256), none, noLw, x.m.job, some (x.m.tick, x.m.attempt), 0, x.m.core, x.m.ref, x.m.val.toNat,
      true, true, false⟩
  else
    ⟨faultNo f, x.eng, gca c (x.m.core % 1024), some (x.m.core % 1024), x.lw, jobOfCore c (x.m.core % 1024), none, 0, noCore, x.m.ref, x.m.val.toNat,
      true, false, false⟩

theorem buoyFault_code (c : Chip) (x : BuoyIn) (f : FaultCode) : (buoyFault c x f).code = faultNo f ∧ (buoyFault c x f).covers = true := by
  unfold buoyFault; split <;> exact ⟨rfl, rfl⟩

theorem buoyFault_receiver (c : Chip) (x : BuoyIn) (f : FaultCode) (h : x.eng = engRx) :
    (buoyFault c x f).receiver = true ∧ (buoyFault c x f).job = x.m.job := by unfold buoyFault; rw [if_pos h]; exact ⟨rfl, rfl⟩

theorem buoyFault_issuer (c : Chip) (x : BuoyIn) (f : FaultCode) (h : x.eng ≠ engRx) :
    (buoyFault c x f).receiver = false ∧ (buoyFault c x f).lw = x.lw := by unfold buoyFault; rw [if_neg h]; exact ⟨rfl, rfl⟩

theorem buoyFault_raise (c : Chip) (x : BuoyIn) (f : FaultCode) :
    (if x.eng = engRx then buoyRx c x.m f else coreFault c (x.m.core % 1024) x.eng x.lw f 0 x.m.ref x.m.val.toNat) = raise c (buoyFault c x f) := by
  unfold buoyFault; split <;> rfl

/-- What an operation of the present attempt leaves at the buoys, before waiting cores are looked at. -/
def buoyEffect (c : Chip) (x : BuoyIn) : Chip := buoyAt c x.m (fun f c => raise c (buoyFault c x f))

/-- The operation's effect with the predicate that a TEST_AND_SET writes. -/
def buoyNoted (c : Chip) (x : BuoyIn) : Chip :=
  if x.m.op = .testAndSet then
    onCore (buoyEffect c x) (x.m.core % 1024) (fun k => setPred k (c.now + 1) 4 x.pd ((buoy c (refLocal x.m.ref)).val == 0)) else buoyEffect c x

section Act
variable {c : Chip} {x : BuoyIn}

/-- An operation of another attempt is discarded and counted (R39). -/
theorem buoyAct_old (hb : (buoy c (refLocal x.m.ref)).job = x.m.job) (hj : x.m.job ≠ 0) (ha : currentAttempt c x.m.job x.m.tick x.m.attempt = false) :
    buoyAct c x = countOld c := if_pos ⟨hb, hj, ha⟩

theorem buoyAct_present (h : ¬((buoy c (refLocal x.m.ref)).job = x.m.job ∧ x.m.job ≠ 0 ∧ currentAttempt c x.m.job x.m.tick x.m.attempt = false)) :
    buoyAct c x = buoyWake (buoyNoted c x) (refLocal x.m.ref) := by
  unfold buoyAct buoyNoted buoyEffect
  rw [if_neg h]
  simp only [buoyFault_raise]

/-- An operation is discarded and counted, or it has its effect and cores that wait are woken. -/
theorem buoyAct_cases (c : Chip) (x : BuoyIn) : buoyAct c x = countOld c ∨ buoyAct c x = buoyWake (buoyNoted c x) (refLocal x.m.ref) := by
  by_cases h : (buoy c (refLocal x.m.ref)).job = x.m.job ∧ x.m.job ≠ 0 ∧ currentAttempt c x.m.job x.m.tick x.m.attempt = false
  · exact .inl (buoyAct_old h.1 h.2.1 h.2.2)
  · exact .inr (buoyAct_present h)

theorem buoyEffect_stores {v : Word} (hb : (buoy c (refLocal x.m.ref)).job = x.m.job) (hj : x.m.job ≠ 0)
    (hv : buoyApply x.m.op (buoy c (refLocal x.m.ref)).val x.m.val = some v) :
    buoyEffect c x = { c with buoys := tset c.buoys (refLocal x.m.ref) { buoy c (refLocal x.m.ref) with val := v } } := by
  unfold buoyEffect buoyAt
  simp only [hv]
  exact if_neg (by rintro (h | h); exacts [hj (hb.symm.trans h), h hb])

theorem buoyEffect_range (h : (buoy c (refLocal x.m.ref)).job ≠ x.m.job ∨ (buoy c (refLocal x.m.ref)).job = 0) :
    buoyEffect c x = raise c (buoyFault c x .buoyRange) := if_pos h.symm

theorem buoyEffect_wrap (hb : (buoy c (refLocal x.m.ref)).job = x.m.job) (hj : x.m.job ≠ 0)
    (hv : buoyApply x.m.op (buoy c (refLocal x.m.ref)).val x.m.val = none) : buoyEffect c x = raise c (buoyFault c x .buoyWrap) := by
  unfold buoyEffect buoyAt
  simp only [hv]
  exact if_neg (by rintro (h | h); exacts [hj (hb.symm.trans h), h hb])

end Act

/-- No core waits for a release, and no barrier is about to fall. -/
structure NoneReleased (c : Chip) : Prop where
  cores : ∀ p ∈ c.cores, p.2.bFree = none
  bars : ∀ b ∈ c.bars, b.2.fall = none

theorem core_bFree_none {c : Chip} (h : ∀ p ∈ c.cores, p.2.bFree = none) (i : Nat) : (core c i).bFree = none :=
  Classical.byContradiction fun hf => hf (h _ (mem_cores hf))

theorem mem_tset {α : Type} {t : Tab α} {k : Nat} {v : α} {x : Nat × α} (h : x ∈ tset t k v) : x = (k, v) ∨ x ∈ t :=
  ((mem_tins _ k v x).mp h).imp_right fun hx => (List.mem_filter.mp hx).1

/-- Waking looks at cores that hold a WAIT. -/
theorem waitsOnly_buoyWake {c : Chip} (h : ∀ p ∈ c.cores, p.2.bFree = none) (n : Nat) : WaitsOnly (buoyWake c n) := by
  intro p hp hf
  obtain ⟨q, hq, rfl⟩ := List.mem_map.mp hp
  cases hb : q.2.b with
  | nil => simp [hb, h q hq] at hf
  | cons s r =>
    simp only [hb] at hf ⊢
    split at hf
    · next hcond =>
      rw [if_pos hcond]
      simp only [Bool.and_eq_true, beq_iff_eq] at hcond
      obtain ⟨_, ⟨hop, _⟩, _⟩ := hcond
      exact ⟨s, r, rfl, hop⟩
    · exact absurd (h q hq) hf

/-- What a map of the entries keeps of each value, it keeps of what is read. -/
theorem tget_map {α β : Type} {t : Tab α} {F : Nat × α → Nat × α} (g : α → β) (hk : ∀ p, (F p).1 = p.1) (hg : ∀ p, g (F p).2 = g p.2) (d : α) (k : Nat) :
    g (tget d (t.map F) k) = g (tget d t k) := by
  induction t with
  | nil => rfl
  | cons p r ih =>
    show g ((if (F p).1 = k then some (F p).2 else tfind (r.map F) k).getD d) = g ((if p.1 = k then some p.2 else tfind r k).getD d)
    rw [hk]
    split
    · exact hg p
    · exact ih

/-- Waking writes no predicate. -/
theorem buoyWake_preds (c : Chip) (n k : Nat) : (core (buoyWake c n) k).preds = (core c k).preds := by
  unfold core buoyWake
  refine tget_map Core.preds (fun p => ?_) (fun p => ?_) Core.idle k
  · exact (apply_ite Prod.fst _ _ _).trans (ite_self _)
  · exact (apply_ite (fun q : Nat × Core => q.2.preds) _ _ _).trans (ite_self _)

theorem coresOnly_buoyWake (c : Chip) (n : Nat) : c.CoresOnly (buoyWake c n) := rfl

/-- An effect at a buoy changes buoys, or raises a fault. -/
theorem buoyEffect_only (c : Chip) (x : BuoyIn) : buoyEffect c x = { c with buoys := (buoyEffect c x).buoys, raised := (buoyEffect c x).raised } := by
  unfold buoyEffect buoyAt
  simp only []
  split
  · rfl
  · split <;> rfl

theorem buoyEffect_on (c : Chip) (x : BuoyIn) {β : Type} (g : Chip → β) :
    g (buoyEffect c x) = g { c with buoys := (buoyEffect c x).buoys, raised := (buoyEffect c x).raised } := congrArg g (buoyEffect_only c x)

theorem buoyEffect_cores (c : Chip) (x : BuoyIn) : (buoyEffect c x).cores = c.cores := buoyEffect_on c x Chip.cores

theorem coresOnly_buoyNoted (c : Chip) (x : BuoyIn) : (buoyEffect c x).CoresOnly (buoyNoted c x) := by
  unfold buoyNoted; split <;> rfl

theorem buoyNoted_waits {c : Chip} {x : BuoyIn} (h : ∀ p ∈ c.cores, p.2.bFree = none) : ∀ p ∈ (buoyNoted c x).cores, p.2.bFree = none := by
  intro p hp
  unfold buoyNoted at hp
  split at hp
  · obtain rfl | hp := mem_tset hp
    · have hc : core (buoyEffect c x) (x.m.core % 1024) = core c (x.m.core % 1024) := congrArg (fun t => tget Core.idle t _) (buoyEffect_cores c x)
      exact (congrArg Core.bFree hc).trans (core_bFree_none h _)
    · exact h p (buoyEffect_cores c x ▸ hp)
  · exact h p (buoyEffect_cores c x ▸ hp)

theorem waitsOnly_buoyAct {c : Chip} {x : BuoyIn} (h : ∀ p ∈ c.cores, p.2.bFree = none) : WaitsOnly (buoyAct c x) := by
  obtain he | he := buoyAct_cases c x <;> rw [he]
  · exact fun p hp hf => absurd (h p hp) hf
  · exact waitsOnly_buoyWake (buoyNoted_waits h) _

theorem buoyAct_bars (c : Chip) (x : BuoyIn) : (buoyAct c x).bars = c.bars := by
  obtain h | h := buoyAct_cases c x <;> rw [h]
  · rfl
  · exact ((coresOnly_buoyWake _ _).on Chip.bars).trans (((coresOnly_buoyNoted _ _).on Chip.bars).trans (buoyEffect_on c x Chip.bars))

/-- The turn of one operation is its effect, where no barrier falls. -/
theorem syncTurn_one {c : Chip} {x : BuoyIn} (hq : c.buoyq = [x]) (hx : x.at_ ≤ c.now + 1) (hn : NoneReleased c) :
    syncTurn c = buoyAct { c with buoyq := [] } x := by
  have hpick : each (buoyPick c) { c with buoyq := c.buoyq.filter (fun x => !((buoyPick c).contains x)) } buoyAct = buoyAct { c with buoyq := [] } x := by
    rw [buoyPick_one hq hx, hq, each_one]
    congr 2
    simp
  rw [syncTurn_noFall hpick fun b hb => hn.bars b (buoyAct_bars { c with buoyq := [] } x ▸ hb)]
  exact barsFree_waits (waitsOnly_buoyAct (c := { c with buoyq := [] }) hn.cores)

/-! A cycle with one operation at hand. -/

/-- The chip at the turn of the operation: it has left the row of those to come. -/
def Chip.noneComing (c : Chip) : Chip := { c with buoyq := [] }

section Turn
variable {s : State} {x : BuoyIn}

/-- A cycle in which one operation has its turn. -/
structure OneTurn (s : State) (x : BuoyIn) : Prop where
  quiet : s.quiet
  still : s.onlyBusy []
  bars : ∀ b ∈ s.chip.bars, b.2.fall = none
  coming : s.chip.buoyq = [x]
  due : x.at_ ≤ s.chip.now + 1

theorem buoyAct_jobs (c : Chip) (x : BuoyIn) : (buoyAct c x).jobs = c.jobs := by
  obtain h | h := buoyAct_cases c x <;> rw [h]
  · rfl
  · exact ((coresOnly_buoyWake _ _).on Chip.jobs).trans (((coresOnly_buoyNoted _ _).on Chip.jobs).trans (buoyEffect_on c x Chip.jobs))

theorem OneTurn.step (h : OneTurn s x) :
    step s = .next (s.after { buoyAct s.chip.noneComing x with now := (buoyAct s.chip.noneComing x).now + 1 }) := by
  obtain ⟨_, _, _, hcores, _⟩ := h.still
  have hturn : syncTurn s.chip = buoyAct s.chip.noneComing x := syncTurn_one h.coming h.due ⟨fun p hp => (hcores p hp).2.2, h.bars⟩
  have hjobs : (syncTurn s.chip).jobs = s.chip.jobs := by rw [hturn]; exact buoyAct_jobs _ x
  rw [step_still h.still hjobs, hturn]

/-- An operation that is not of another attempt has its effect; besides it, at most cores are written, and of predicates the one that it notes. -/
theorem OneTurn.effect (h : OneTurn s x)
    (hp : ¬((buoy s.chip (refLocal x.m.ref)).job = x.m.job ∧ x.m.job ≠ 0 ∧ currentAttempt s.chip x.m.job x.m.tick x.m.attempt = false)) :
    ∃ c, Machine.step s = .next (s.after c) ∧ Chip.CoresOnly { buoyEffect s.chip.noneComing x with now := s.chip.now + 1 } c ∧
      ∀ k, (core c k).preds = (core (buoyNoted s.chip.noneComing x) k).preds := by
  have hact : buoyAct s.chip.noneComing x = buoyWake (buoyNoted s.chip.noneComing x) (refLocal x.m.ref) := buoyAct_present hp
  have hcores : (buoyEffect s.chip.noneComing x).CoresOnly (buoyAct s.chip.noneComing x) := by
    rw [hact]; exact (coresOnly_buoyNoted _ x).trans (coresOnly_buoyWake _ _)
  have hpreds : ∀ k, (core (buoyAct s.chip.noneComing x) k).preds = (core (buoyNoted s.chip.noneComing x) k).preds := by
    intro k; rw [hact]; exact buoyWake_preds _ _ k
  refine ⟨_, h.step, ?_, hpreds⟩
  have hnow : (buoyAct s.chip.noneComing x).now = s.chip.now := (hcores.on Chip.now).trans (buoyEffect_on _ x Chip.now)
  rw [hnow]
  generalize buoyAct s.chip.noneComing x = d at hcores ⊢
  unfold Chip.CoresOnly at hcores ⊢
  rw [hcores]

/-- A value is stored. -/
theorem OneTurn.stores (h : OneTurn s x) {v : Word} (hb : (buoy s.chip (refLocal x.m.ref)).job = x.m.job) (hj : x.m.job ≠ 0)
    (ha : currentAttempt s.chip x.m.job x.m.tick x.m.attempt = true) (hv : buoyApply x.m.op (buoy s.chip (refLocal x.m.ref)).val x.m.val = some v) :
    ∃ c, Machine.step s = .next (s.put c) ∧
      Chip.CoresOnly { s.chip with
        now := s.chip.now + 1, buoyq := [], buoys := tset s.chip.buoys (refLocal x.m.ref) { buoy s.chip (refLocal x.m.ref) with val := v } } c ∧
      ∀ k, (core c k).preds = (core (buoyNoted s.chip.noneComing x) k).preds := by
  obtain ⟨c, hstep, hc, hpreds⟩ := h.effect (by rw [ha]; simp)
  rw [show buoyEffect s.chip.noneComing x = _ from buoyEffect_stores (c := s.chip.noneComing) hb hj hv] at hc
  refine ⟨c, ?_, hc, hpreds⟩
  rw [hstep, State.after_sameHand s c h.quiet hc.sameHand]

/-- An operation that is a fault leaves every buoy as it was. -/
theorem OneTurn.faults (h : OneTurn s x) {f : FaultCode}
    (hp : ¬((buoy s.chip (refLocal x.m.ref)).job = x.m.job ∧ x.m.job ≠ 0 ∧ currentAttempt s.chip x.m.job x.m.tick x.m.attempt = false))
    (hf : buoyEffect s.chip.noneComing x = raise s.chip.noneComing (buoyFault s.chip.noneComing x f)) :
    ∃ c r, Machine.step s = .next (s.after c) ∧ c.raised = [r] ∧ r.code = faultNo f ∧ r.covers = true ∧ c.buoys = s.chip.buoys ∧ c.buoyq = [] ∧
      c.writes = [] ∧ (x.eng = engRx → r.receiver = true ∧ r.job = x.m.job) ∧ (x.eng ≠ engRx → r.receiver = false ∧ r.lw = x.lw) := by
  obtain ⟨hw, _, hr⟩ := h.quiet
  obtain ⟨c, hstep, hc, _⟩ := h.effect hp
  rw [hf] at hc
  obtain ⟨hcode, hcovers⟩ := buoyFault_code s.chip.noneComing x f
  exact ⟨c, buoyFault s.chip.noneComing x f, hstep, (hc.on Chip.raised).trans (congrArg (· ++ [buoyFault s.chip.noneComing x f]) hr), hcode, hcovers,
    hc.on Chip.buoys, hc.on Chip.buoyq, (hc.on Chip.writes).trans hw, buoyFault_receiver _ x f, buoyFault_issuer _ x f⟩

end Turn

/-- Settles O32: the operation's turn is its effect, and an ADD out of range has a fault for its effect. -/
theorem addOutOfRangeIsBuoyWrap : Obligations.AddOutOfRangeIsBuoyWrap := by
  intro x s hq hb hf hc hx hop ha b hj hbj hout
  have h : OneTurn s x := ⟨hq, hb, hf, hc, hx⟩
  have hv : buoyApply x.m.op b.val x.m.val = none := by
    rw [hop]; exact if_pos (by omega)
  have hp : ¬(b.job = x.m.job ∧ x.m.job ≠ 0 ∧ currentAttempt s.chip x.m.job x.m.tick x.m.attempt = false) := by rw [ha]; simp
  obtain ⟨c, r, hstep, hr, hcode, hcov, hbuoys, _, hw, hrx, hix⟩ := h.faults hp (buoyEffect_wrap (c := s.chip.noneComing) hbj (hbj ▸ hj) hv)
  exact ⟨c, r, hstep, hr, hcode, by rw [hcode]; rfl, hcov, hbuoys, hw, hrx, hix⟩

/-! O31: arrivals, turns and slots. -/

/-- A message for a buoy here takes its turn from the next cycle on (R37). -/
theorem exec_buoyOperation {m : BuoyMsg} {s : State} (hq : s.quiet) (hm : refPkg m.ref = s.chip.beacon.pkg) (hop : m.op ≠ .wait ∧ m.op ≠ .testAndSet) :
    exec (.buoyOperation m) s = .next (s.put { s.chip with buoyq := s.chip.buoyq ++ [⟨s.chip.now + 1, m, engRx, noLw, 0⟩] }) := by
  have harrive : buoyArrive s.chip 0 m = { s.chip with buoyq := s.chip.buoyq ++ [⟨s.chip.now + 1, m, engRx, noLw, 0⟩] } := by
    have hat : max (s.chip.now + 1) (s.chip.now + Config.ring * 0) = s.chip.now + 1 := by omega
    unfold buoyArrive; rw [hat]
    exact if_neg (by rintro (h | h | h); exacts [h hm, hop.1 h, hop.2 h])
  show Host.Outcome.next (s.after (buoyArrive s.chip 0 m)) = _
  rw [harrive]; exact congrArg Host.Outcome.next (State.after_sameHand s _ hq ⟨rfl, rfl, rfl⟩)

/-- The value that an operation stores (R34). -/
theorem buoyApply_of {op : BuoyOp} {v x w : Word} (h : op = .set ∧ w = x ∨ op = .clear ∧ w = 0 ∨
    op = .add ∧ 0 ≤ v.toNat + x.toInt ∧ v.toNat + x.toInt < 2 ^ 32 ∧ w = v + x) : buoyApply op v x = some w := by
  rcases h with ⟨rfl, rfl⟩ | ⟨rfl, rfl⟩ | ⟨rfl, h0, h1, rfl⟩
  · rfl
  · rfl
  · have hsum : BitVec.ofInt 32 (v.toNat + x.toInt) = v + x := by
      rw [BitVec.ofInt_add, BitVec.ofInt_natCast, BitVec.ofNat_toNat, BitVec.setWidth_eq, BitVec.ofInt_toInt]
    exact (if_neg (by omega)).trans (congrArg some hsum)

/-- The turn of an operation of another attempt (R39). -/
theorem OneTurn.stale {s : State} {x : BuoyIn} (h : OneTurn s x) (hb : (buoy s.chip (refLocal x.m.ref)).job = x.m.job) (hj : x.m.job ≠ 0)
    (ha : currentAttempt s.chip x.m.job x.m.tick x.m.attempt = false) :
    Machine.step s = .next (s.put { s.chip with
      now := s.chip.now + 1, buoyq := [], beacon := { s.chip.beacon with stale := s.chip.beacon.stale + 1 } }) := by
  rw [h.step, buoyAct_old (c := s.chip.noneComing) hb hj ha]
  exact congrArg Host.Outcome.next (State.after_sameHand s _ h.quiet ⟨rfl, rfl, rfl⟩)

section Slots
variable {s : State} {i : Nat} {sl : QSlot}

/-- The head slot of the B queue of a core meets its meaning. -/
theorem bSlot_of {op : Nat} (h : Head s i .b sl op) (ho : op ≤ 6) (hi : i < 1024) (f : Chip → Nat → QSlot → Chip) :
    bSlot op f i s.env s.chip = f (popHead s.chip i .b) i sl := by
  have hno : coreNo i = i := Nat.mod_eq_of_lt hi
  show issue s.env s.chip (coreNo i) .b op (fun c sl => f c (coreNo i) sl) = _
  rw [hno]; exact issue_of h ho _

/-- A slot that leaves its queue leaves its core's predicates. -/
theorem predOf_popHead (c : Chip) (i t p : Nat) : predOf (core (popHead c i .b) i) t p = predOf (core c i) t p := by
  have hcore : core (popHead c i .b) i = _ := (core_onCore c i i _).trans (if_pos rfl)
  rw [hcore]; rfl

theorem sameHand_popHead (c : Chip) (i : Nat) (q : Queue) : c.SameHand (popHead c i q) := ⟨rfl, rfl, rfl⟩

theorem sameHand_sendBuoy (c : Chip) (i eng lw pd : Nat) (m : BuoyMsg) : c.SameHand (sendBuoy c i eng lw pd m) := ⟨rfl, rfl, rfl⟩

theorem wireOnly_awayBuoy (c : Chip) (i : Nat) (m : BuoyMsg) : c.WireOnly (awayBuoy c i m) := wireOnly_sendTo c _ _ _ _ _

section Op
variable {op : BuoyOp} {v : Word} {c : Chip}

/-! What a SET, ADD or CLEAR does with its slot. -/

theorem bOp_disabled (h : predOf (core c i) c.now (sf sl.w 57 55) = false) : bOp op v c i sl = c := by unfold bOp; rw [h]; rfl

theorem bOp_here (h : predOf (core c i) c.now (sf sl.w 57 55) = true) (hp : refPkg (sf sl.w 51 22) = c.beacon.pkg)
    (hd : buoyDeclared c i (sf sl.w 51 22) = true) : bOp op v c i sl = sendBuoy c i engB sl.lw 0 (slotMsg c i op sl v) := by
  unfold bOp
  rw [h]
  simp only [show (slotMsg c i op sl v).ref = sf sl.w 51 22 from rfl, hd, hp]
  simp

theorem bOp_away (h : predOf (core c i) c.now (sf sl.w 57 55) = true) (hp : refPkg (sf sl.w 51 22) ≠ c.beacon.pkg)
    (hd : buoyDeclared c i (sf sl.w 51 22) = true) : bOp op v c i sl = awayBuoy c i (slotMsg c i op sl v) := by
  unfold bOp
  rw [h]
  simp only [show (slotMsg c i op sl v).ref = sf sl.w 51 22 from rfl, hd]
  simp [hp]

/-- A buoy that the job does not declare: one BUOY_RANGE here, perhaps a second at the buoy's end, perhaps a message that leaves. -/
theorem bOp_undeclared (h : predOf (core c i) c.now (sf sl.w 57 55) = true) (hd : buoyDeclared c i (sf sl.w 51 22) = false) (hr : c.raised = []) :
    ∃ l, Chip.WireOnly { c with raised := l } (bOp op v c i sl) ∧ l ≠ [] ∧ ∀ q ∈ l, q.code = 0x06 := by
  unfold bOp
  rw [h]
  simp only [show (slotMsg c i op sl v).ref = sf sl.w 51 22 from rfl, hd]
  have hone : ∃ r : Raise, bFault c i sl .buoyRange v = { c with raised := [r] } ∧ r.code = 0x06 := ⟨_, by unfold bFault coreFault raise; rw [hr]; rfl, rfl⟩
  obtain ⟨r, hb, hc⟩ := hone
  rw [hb]
  simp only [Bool.not_true, Bool.false_eq_true, Bool.not_false, if_true, if_false]
  split
  · exact ⟨[r, _], rfl, List.cons_ne_nil _ _, by simp [hc, faultNo]⟩
  · split
    · exact ⟨[r], wireOnly_awayBuoy _ i _, List.cons_ne_nil _ _, by simp [hc]⟩
    · exact ⟨[r], rfl, List.cons_ne_nil _ _, by simp [hc]⟩

end Op

/-- The rows of SET, ADD and CLEAR. -/
theorem exec_buoySlot (hi : i < 1024) :
    ∀ y ∈ [(Instr.set i, BuoyOp.set, bValue sl, 1), (.add i, .add, bSigned sl, 2), (.clear i, .clear, 0, 5)], Head s i .b sl y.2.2.2 →
      exec y.1 s = .next (s.after (bOp y.2.1 y.2.2.1 (popHead s.chip i .b) i sl)) := by
  intro y hy hh
  simp only [List.mem_cons, List.not_mem_nil, or_false] at hy
  rcases hy with rfl | rfl | rfl
  · exact congrArg (fun c => Host.Outcome.next (s.after c)) (bSlot_of (f := _) hh (Nat.le_of_ble_eq_true rfl) hi)
  · exact congrArg (fun c => Host.Outcome.next (s.after c)) (bSlot_of (f := _) hh (Nat.le_of_ble_eq_true rfl) hi)
  · exact congrArg (fun c => Host.Outcome.next (s.after c)) (bSlot_of (f := _) hh (Nat.le_of_ble_eq_true rfl) hi)

end Slots

/-- Settles O31: arrivals, turns and slots, each by the cases of the operation that it runs. -/
theorem buoyOperations : Obligations.BuoyOperations := by
  refine ⟨fun m s hq hm hop => exec_buoyOperation hq hm (by rcases hop with h | h | h <;> rw [h] <;> decide), ?_, ?_⟩
  · intro x s hq hb hf hc hx
    have h : OneTurn s x := ⟨hq, hb, hf, hc, hx⟩
    refine ⟨fun hbj hj ha v hv => ?_, fun hbj hj ha => h.stale hbj hj ha, fun hrange => ?_⟩
    · have hstore : buoyApply x.m.op (buoy s.chip (refLocal x.m.ref)).val x.m.val = some v := buoyApply_of hv
      obtain ⟨c, hstep, hcores, _⟩ := h.stores hbj hj ha hstore
      exact ⟨_, hstep, hcores.on Chip.buoys, hcores.on Chip.buoyq, hcores.on Chip.jobs, hcores.on Chip.beacon, rfl⟩
    · have hp : ¬((buoy s.chip (refLocal x.m.ref)).job = x.m.job ∧ x.m.job ≠ 0 ∧ currentAttempt s.chip x.m.job x.m.tick x.m.attempt = false) := by
        rintro ⟨hbj, hj, _⟩
        rcases hrange with h | h
        · exact h hbj
        · exact hj (hbj.symm.trans h)
      obtain ⟨c, r, hstep, hr, hcode, _, hbuoys, hnone, _, hrx, hix⟩ := h.faults hp (buoyEffect_range (c := s.chip.noneComing) hrange)
      exact ⟨c, r, hstep, hr, hcode, hbuoys, hnone, hrx, hix⟩
  · intro i sl s hq hi y hy hh
    have hquiet := hq
    obtain ⟨hw, _, hr⟩ := hquiet
    have hpred : predOf (core (popHead s.chip i .b) i) s.chip.now (sf sl.w 57 55) = predOf (core s.chip i) s.chip.now (sf sl.w 57 55) := predOf_popHead _ _ _ _
    have hexec := exec_buoySlot hi y hy hh
    refine ⟨fun hn => ?_, fun he hp hd => ?_, fun he hp hd => ?_, fun he hd => ?_⟩
    · rw [hexec, bOp_disabled (c := popHead s.chip i .b) (hpred.trans (Bool.eq_false_of_not_eq_true hn)), State.after_sameHand s _ hq (sameHand_popHead _ _ _)]
    · rw [hexec, bOp_here (c := popHead s.chip i .b) (hpred.trans he) hp hd]
      exact congrArg Host.Outcome.next (State.after_sameHand s _ hq (sameHand_sendBuoy _ _ _ _ _ _))
    · rw [hexec, bOp_away (c := popHead s.chip i .b) (hpred.trans he) hp hd,
        State.after_sameHand s _ hq ((sameHand_popHead s.chip i .b).trans (wireOnly_awayBuoy _ _ _).sameHand)]
      rfl
    · obtain ⟨l, hwire, hl, hcode⟩ := bOp_undeclared (op := y.2.1) (v := y.2.2.1) (c := popHead s.chip i .b) (hpred.trans he) hd hr
      exact ⟨_, hexec, fun h => hl ((hwire.on Chip.raised).symm.trans h), fun q hm => hcode q (by rwa [hwire.on Chip.raised] at hm), hwire.on Chip.buoys,
        hwire.on Chip.buoyq, (hwire.on Chip.writes).trans hw⟩

end Sys2Proof.Machine
end

section
/-! O33: barriers, waits and TEST_AND_SET (02_beacon.md R34, R35, R38, R41, R42; 09_keeper.md R230; log entry 67). -/

namespace Sys2Proof.Machine

/-! Arrival at the root (R41, R42). -/

/-- Whether no member of a group is missing once a core arrives. -/
def Bar.complete (b : Bar) (x : Nat) : Bool := (barMembers b).all (fun y => (x :: b.arrived).contains y)

theorem Bar.complete_missing {b : Bar} {x : Nat} (h : ∃ y ∈ barMembers b, y ≠ x ∧ b.arrived.contains y = false) : b.complete x = false := by
  obtain ⟨y, hy, hne, hout⟩ := h
  refine List.all_eq_false.mpr ⟨y, hy, ?_⟩
  rw [List.contains_cons, hout]
  simp [hne]

theorem Bar.complete_all {b : Bar} {x : Nat} (h : ∀ y ∈ barMembers b, y = x ∨ b.arrived.contains y = true) : b.complete x = true := by
  refine List.all_eq_true.mpr fun y hy => ?_
  rw [List.contains_cons]
  rcases h y hy with rfl | hin
  · simp
  · rw [hin, Bool.or_true]

/-- A group with one more arrival in cycle `t`: once no member is missing it falls 4 cycles after the latest. -/
def Bar.withArrival (b : Bar) (x t : Nat) : Bar :=
  { b with arrived := x :: b.arrived, rootAt := max b.rootAt t, fall := if b.complete x then some (max b.rootAt t + 4) else none }

theorem Bar.withArrival_waits {b : Bar} {x : Nat} (t : Nat) (h : ∃ y ∈ barMembers b, y ≠ x ∧ b.arrived.contains y = false) :
    b.withArrival x t = { b with arrived := x :: b.arrived, rootAt := max b.rootAt t, fall := none } := by
  unfold Bar.withArrival; rw [Bar.complete_missing h]; rfl

theorem Bar.withArrival_falls {b : Bar} {x : Nat} (t : Nat) (h : ∀ y ∈ barMembers b, y = x ∨ b.arrived.contains y = true) :
    b.withArrival x t = { b with arrived := x :: b.arrived, rootAt := max b.rootAt t, fall := some (max b.rootAt t + 4) } := by
  unfold Bar.withArrival; rw [Bar.complete_all h]; rfl

section Arrive
variable {c : Chip} {m : BarrierMsg} {t : Nat} {fault : Chip → Chip}

theorem arriveRoot_first (h : (barAt c m.group).arrived.contains m.core = false) :
    arriveRoot c m t fault = { c with bars := tset c.bars m.group ((barAt c m.group).withArrival m.core t) } := if_neg (by rw [h]; decide)

theorem arriveRoot_again (h : (barAt c m.group).arrived.contains m.core = true) : arriveRoot c m t fault = fault c := if_pos h

end Arrive

/-- The fault of a second arrival, at the root (R41). -/
def rearrival (c : Chip) (m : BarrierMsg) : Raise :=
  ⟨faultNo .barrierRearrive, engRx, m.core, none, noLw, m.job, some (m.tick, m.attempt), 0, m.core, m.group, (barAt c m.group).phase, true, true, false⟩

/-- A message of the present attempt arrives at the root in its cycle. -/
theorem exec_barrierArrival {m : BarrierMsg} {s : State} (hb : (barAt s.chip m.group).job ≠ 0) (hj : (barAt s.chip m.group).job = m.job)
    (hr : barRoot (barAt s.chip m.group) = s.chip.beacon.pkg) (ha : currentAttempt s.chip m.job m.tick m.attempt = true) :
    exec (.barrierArrival m) s = .next (s.after (arriveRoot s.chip m s.chip.now (fun c => raise c (rearrival s.chip m)))) := by
  have harrive : barArrive s.chip 0 m = arriveRoot s.chip m s.chip.now (fun c => raise c (rearrival s.chip m)) := by
    unfold barArrive
    simp only [ha]
    exact if_neg (by rintro (h | h | h); exacts [hb h, h hj, h hr])
  exact congrArg (fun c => Host.Outcome.next (s.after c)) harrive

/-! The release on a package that is not the root (R42). -/

/-- The members here that the barrier holds leave their queues. -/
def releaseHere (c : Chip) (g : Nat) : Chip := each (barHere c g) c (fun c i => if !(heldAt (core c i) g) then c else letGo c i c.now)

/-- A core that was held by a barrier of the group is let go. -/
def Core.released (g n : Nat) (k : Core) : Core := if heldAt k g then k.letGo n else k

theorem Core.released_released (g n : Nat) (k : Core) : (k.released g n).released g n = k.released g n := by
  by_cases h : heldAt k g = true
  · rw [show k.released g n = k.letGo n from if_pos h]
    exact if_neg (by unfold heldAt Core.letGo; simp)
  · rw [show k.released g n = k from if_neg h, show k.released g n = k from if_neg h]

theorem coresOnly_releaseHere (c : Chip) (g : Nat) : c.CoresOnly (releaseHere c g) :=
  coresOnly_each _ (fun d i => by split; exacts [rfl, coresOnly_letGo d i _]) c

theorem core_releaseHere {c : Chip} {g k : Nat} (hk : k ∈ barHere c g) : core (releaseHere c g) k = (core c k).released g c.now := by
  refine (core_each (G := fun _ k => k.released g c.now) (n := c.now) (fun d i => ?_) (fun d i k hd => ?_)
    (fun _ k => k.released_released g _) _ rfl k).trans (if_pos hk)
  · split <;> rfl
  · unfold Core.released
    cases hh : heldAt (core d i) g with
    | true => simp only [Bool.not_true, Bool.false_eq_true, if_true, if_false]; rw [core_letGo, hd]
    | false =>
      simp only [Bool.not_false, Bool.false_eq_true, if_true, if_false]
      split
      · next e => rw [e]
      · rfl

theorem exec_barrierRelease {m : BarrierMsg} {s : State} (hq : s.quiet) (hb : (barAt s.chip m.group).job ≠ 0) (hj : (barAt s.chip m.group).job = m.job)
    (hp : (barAt s.chip m.group).phase = m.phase) (hr : barRoot (barAt s.chip m.group) ≠ s.chip.beacon.pkg)
    (ha : currentAttempt s.chip m.job m.tick m.attempt = true) :
    exec (.barrierRelease m) s = .next (s.put { releaseHere s.chip m.group with
      bars := tset s.chip.bars m.group { barAt s.chip m.group with phase := (barAt s.chip m.group).phase + 1, arrived := [] } }) := by
  have hrel : barRelease s.chip (fun _ => 0) m = { releaseHere s.chip m.group with
      bars := tset (releaseHere s.chip m.group).bars m.group { barAt s.chip m.group with phase := (barAt s.chip m.group).phase + 1, arrived := [] } } := by
    unfold barRelease releaseHere
    simp only [ha, Bool.true_eq_false, if_true, if_false]
    exact if_neg (by rintro (h | h | h | h); exacts [hb h, h hj, h hp, hr h])
  have hbars : (releaseHere s.chip m.group).bars = s.chip.bars := (coresOnly_releaseHere _ _).on Chip.bars
  show Host.Outcome.next (s.after (barRelease s.chip (fun _ => 0) m)) = _
  rw [hrel, hbars]
  exact congrArg Host.Outcome.next (State.after_sameHand s _ hq (coresOnly_releaseHere s.chip m.group).sameHand)

/-! Waits (R38). -/

theorem exec_waitRelease {i : Nat} (hi : i < 1024) (s : State) : exec (.waitRelease i) s = .next (s.after (waitRelease s.chip i)) := by
  have hno : coreNo i = i := Nat.mod_eq_of_lt hi
  show Host.Outcome.next (s.after (waitRelease s.chip (coreNo i))) = _
  rw [hno]

section Wait
variable {c : Chip} {i t : Nat} {q : QSlot} {rest : List QSlot}

theorem waitRelease_due {t0 : Nat} (hb : (core c i).b = q :: rest) (hh : (core c i).bHeld = some t0) (hf : (core c i).bFree = some t) (ho : opOf q.w = 3)
    (ht : t ≤ c.now) : waitRelease c i = letGo c i t := by
  unfold waitRelease; simp only [hb, hh, hf]; exact if_pos ⟨ho, ht⟩

theorem waitRelease_early (hf : (core c i).bFree = some t) (ht : c.now < t) : waitRelease c i = c := by
  unfold waitRelease; simp only [hf]
  split
  · next h => cases h; exact if_neg fun h => by omega
  · rfl

theorem waitRelease_none (hf : (core c i).bFree = none) : waitRelease c i = c := by
  unfold waitRelease
  simp only [hf]
  split
  · next h => cases h
  · rfl

end Wait

/-! The fall of a barrier (R41, R42). -/

/-- The cycle in which the release of a group that falls in `t` reaches a core. -/
def reachAt (b : Bar) (t i : Nat) : Nat := t + Config.ring * ringHops (i / 256) (rootStack b)

/-- The members here that the barrier holds are told the cycle of their release. -/
def fallHere (c : Chip) (g t : Nat) : Chip :=
  each (barHere c g) c (fun d i => if heldAt (core d i) g then onCore d i (fun k => { k with bFree := some (reachAt (barAt c g) t i) }) else d)

/-- A core that a barrier of the group holds is told its release. -/
def Core.told (g r : Nat) (k : Core) : Core := if heldAt k g then { k with bFree := some r } else k

theorem Core.told_held {g : Nat} {k : Core} (r : Nat) (h : heldAt k g = true) : k.told g r = { k with bFree := some r } := if_pos h

theorem Core.told_told (g r : Nat) (k : Core) : (k.told g r).told g r = k.told g r := by
  cases h : heldAt k g with
  | true => rw [Core.told_held r h]; exact if_pos h
  | false =>
    have hk : k.told g r = k := if_neg (by rw [h]; decide)
    rw [hk, hk]

theorem coresOnly_fallHere (c : Chip) (g t : Nat) : c.CoresOnly (fallHere c g t) := coresOnly_each _ (fun d i => by split <;> rfl) c

theorem core_fallHere {c : Chip} {g k : Nat} (t : Nat) (hk : k ∈ barHere c g) :
    core (fallHere c g t) k = (core c k).told g (reachAt (barAt c g) t k) := by
  refine (core_each (G := fun i k => k.told g (reachAt (barAt c g) t i)) (n := c.now) (fun d i => ?_) (fun d i k _ => ?_)
    (fun i k => k.told_told g _) _ rfl k).trans (if_pos hk)
  · split <;> rfl
  · unfold Core.told
    cases hh : heldAt (core d i) g with
    | true => simp only [if_true]; exact core_onCore _ _ _ _
    | false =>
      simp only [Bool.false_eq_true, if_false]
      split
      · next e => rw [e]
      · rfl

/-- A group whose barrier has fallen. -/
def Bar.fallen (b : Bar) : Bar := { b with phase := b.phase + 1, arrived := [], rootAt := 0, fall := none }

/-- The fall: members here are told, the phase advances, and messages leave for the other packages. -/
theorem barFall_due {c : Chip} {g t : Nat} (hf : (barAt c g).fall = some t) (ht : t ≤ c.now + 1) :
    Chip.WireOnly { fallHere c g t with bars := tset c.bars g (barAt c g).fallen } (barFall c g) := by
  have hbars : (fallHere c g t).bars = c.bars := (coresOnly_fallHere c g t).on Chip.bars
  rw [← hbars]
  unfold barFall
  simp only [hf]
  rw [if_neg (Nat.not_lt.mpr ht)]
  exact wireOnly_foldl _ _ (fun d n => wireOnly_sendTo d _ _ _ _ _) _

/-- A group that is not about to fall. -/
theorem barFall_none {c : Chip} {g : Nat} (hf : (barAt c g).fall = none) : barFall c g = c := by
  unfold barFall; simp only [hf]

section Fall
variable {c : Chip} {g t : Nat}

theorem barAt_barFall (hf : (barAt c g).fall = some t) (ht : t ≤ c.now + 1) : barAt (barFall c g) g = (barAt c g).fallen := by
  have hbars : (barFall c g).bars = tset c.bars g (barAt c g).fallen := (barFall_due hf ht).on Chip.bars
  unfold barAt at hbars ⊢
  rw [hbars, tget_tset, if_pos rfl]

/-- A group with something in it stands in the table. -/
theorem mem_bars (hf : (barAt c g).fall ≠ none) : (g, barAt c g) ∈ c.bars := by
  unfold barAt tget at hf ⊢
  cases h : tfind c.bars g with
  | none => rw [h] at hf; exact absurd rfl hf
  | some b => exact mem_of_tfind h

/-- The turn of a cycle in which one barrier falls and no operation is at hand. -/
theorem syncTurn_falls (hq : c.buoyq = []) (hother : ∀ b ∈ c.bars, b.1 ≠ g → b.2.fall = none) (hf : (barAt c g).fall = some t) (ht : t ≤ c.now + 1) :
    syncTurn c = barsFree (barFall c g) := by
  have hcoming : { c with buoyq := c.buoyq.filter (fun x => !((buoyPick c).contains x)) } = c := by rw [hq]; exact congrArg (fun l => { c with buoyq := l }) hq.symm
  have hsome : (barAt c g).fall ≠ none := by rw [hf]; exact Option.some_ne_none _
  have hmem : g ∈ (c.bars.filter (fun b => b.2.fall.isSome)).map Prod.fst :=
    List.mem_map.mpr ⟨_, List.mem_filter.mpr ⟨mem_bars hsome, Option.isSome_iff_ne_none.mpr hsome⟩, rfl⟩
  have hall : ∀ x ∈ (c.bars.filter (fun b => b.2.fall.isSome)).map Prod.fst, x = g := by
    intro x hx
    obtain ⟨b, hb, rfl⟩ := List.mem_map.mp hx
    obtain ⟨hb, hs⟩ := List.mem_filter.mp hb
    by_contra hne
    rw [hother b hb hne] at hs; cases hs
  have htwice : barFall (barFall c g) g = barFall c g := barFall_none (by rw [barAt_barFall hf ht]; rfl)
  rw [syncTurn_eq, hcoming, buoyPick_none hq]
  simp only [each_nil]
  rw [each_copies hall hmem htwice]

theorem core_barFall {i : Nat} (hf : (barAt c g).fall = some t) (ht : t ≤ c.now + 1) (hi : i ∈ barHere c g) :
    core (barFall c g) i = (core c i).told g (reachAt (barAt c g) t i) := by
  have hcores : (barFall c g).cores = (fallHere c g t).cores := (barFall_due hf ht).on Chip.cores
  exact (congrArg (fun l => tget Core.idle l i) hcores).trans (core_fallHere t hi)

/-- A core that a BARRIER holds has it at the head of its queue. -/
theorem heldAt_head {k : Core} (h : heldAt k g = true) : ∃ q r, k.b = q :: r ∧ opOf q.w = 6 := by
  unfold heldAt at h
  cases hb : k.b with
  | nil => rw [hb] at h; simp at h
  | cons q r => rw [hb] at h; simp only [Bool.and_eq_true, beq_iff_eq] at h; exact ⟨q, r, rfl, h.2.1⟩

/-- A member whose release has come by the end of the cycle has left its queue; any other waits for it. -/
theorem core_fall {i : Nat} (hf : (barAt c g).fall = some t) (ht : t ≤ c.now + 1) (hi : i ∈ barHere c g) (hh : heldAt (core c i) g = true) :
    (reachAt (barAt c g) t i ≤ c.now + 1 →
      (core (barsFree (barFall c g)) i).b = (core c i).b.tail ∧ (core (barsFree (barFall c g)) i).bHeld = none) ∧
    (c.now + 1 < reachAt (barAt c g) t i →
      (core (barsFree (barFall c g)) i).b = (core c i).b ∧ (core (barsFree (barFall c g)) i).bFree = some (reachAt (barAt c g) t i)) := by
  have hcore := core_barFall hf ht hi
  have hnow : (barFall c g).now = c.now := ((barFall_due hf ht).on Chip.now).trans ((coresOnly_fallHere c g t).on Chip.now)
  generalize reachAt (barAt c g) t i = r at hcore ⊢
  have htold := Core.told_held r hh
  have hfree : ((core c i).told g r).bFree = some r := by rw [htold]
  have hqueue : ((core c i).told g r).b = (core c i).b := by rw [htold]
  have hlast : core (barsFree (barFall c g)) i = ((core c i).told g r).barFreed c.now := by
    rw [core_barsFree (by rw [hcore, hfree]; exact Option.some_ne_none _), hcore, hnow]
  obtain ⟨q, l, hb, ho⟩ := heldAt_head hh
  refine ⟨fun hdue => ?_, fun hearly => ?_⟩
  · rw [hlast, Core.barFreed_due (hqueue.trans hb) hfree ho hdue]
    exact ⟨congrArg List.tail hqueue, rfl⟩
  · rw [hlast, Core.barFreed_early hfree hearly]
    exact ⟨hqueue, hfree⟩

/-- What the turn of a cycle leaves in which the barrier of group `g` falls, due in cycle `t`. -/
structure Falls (c : Chip) (g t : Nat) : Prop where
  jobs : (syncTurn c).jobs = c.jobs
  hand : c.SameHand (syncTurn c)
  buoys : (syncTurn c).buoys = c.buoys
  bar : barAt (syncTurn c) g = (barAt c g).fallen
  cores : ∀ i ∈ barHere c g, heldAt (core c i) g = true →
    (reachAt (barAt c g) t i ≤ c.now + 1 → (core (syncTurn c) i).b = (core c i).b.tail ∧ (core (syncTurn c) i).bHeld = none) ∧
    (c.now + 1 < reachAt (barAt c g) t i →
      (core (syncTurn c) i).b = (core c i).b ∧ (core (syncTurn c) i).bFree = some (reachAt (barAt c g) t i))

theorem falls_of (hq : c.buoyq = []) (hother : ∀ b ∈ c.bars, b.1 ≠ g → b.2.fall = none) (hf : (barAt c g).fall = some t) (ht : t ≤ c.now + 1) :
    Falls c g t := by
  have hturn := syncTurn_falls hq hother hf ht
  have htold := coresOnly_fallHere c g t
  have hfall := barFall_due hf ht
  have hlast := coresOnly_barsFree (barFall c g)
  rw [← hturn] at hlast
  have hbars : (syncTurn c).bars = (barFall c g).bars := hlast.on Chip.bars
  refine ⟨(hlast.on Chip.jobs).trans ((hfall.on Chip.jobs).trans (htold.on Chip.jobs)),
    Chip.SameHand.trans htold.sameHand (Chip.SameHand.trans hfall.sameHand hlast.sameHand),
    (hlast.on Chip.buoys).trans ((hfall.on Chip.buoys).trans (htold.on Chip.buoys)),
    (congrArg (fun l => tget Bar.free l g) hbars).trans (barAt_barFall hf ht), fun i hi hh => ?_⟩
  rw [hturn]
  exact core_fall hf ht hi hh

end Fall

/-! Slots of the B queue (R230). -/

/-- The low 22 bits of a slot as a word are themselves (R230). -/
theorem bValue_toNat (sl : QSlot) : (bValue sl).toNat = sf sl.w 21 0 := by
  unfold bValue sf bitsOf
  rw [BitVec.toNat_ofNat]
  omega

theorem ringHops_self (a : Nat) : ringHops a a = 0 := by unfold ringHops; simp

/-- A buoy of the core's own stack is 2 cycles away (R38). -/
theorem buoyLat_own {c : Chip} {i r : Nat} (h : ownBuoy c i r = true) : buoyLat i (refLocal r) = 2 := by
  unfold ownBuoy at h
  simp only [Bool.and_eq_true, beq_iff_eq] at h
  obtain ⟨⟨_, hstack⟩, _⟩ := h
  unfold buoyLat
  rw [hstack, ringHops_self]; rfl

/-- The head of the B queue that may issue is its first slot. -/
theorem headNow_b {c : Chip} {i : Nat} {sl : QSlot} (h : headNow c i .b = some sl) : sl :: (core c i).b.tail = (core c i).b := by
  unfold headNow queueOf at h
  simp only [] at h
  split at h
  · cases h
  · next q r hb =>
    split at h
    · cases h; rw [hb]; rfl
    · cases h

section Slots
variable {s : State} {i : Nat} {sl : QSlot}

/-- A slot that is put back at the head of its queue: the queue is as before the issue. -/
theorem core_holdB (h : headNow s.chip i .b = some sl) :
    (core (holdB (popHead s.chip i .b) i sl) i).b = (core s.chip i).b ∧ (core (holdB (popHead s.chip i .b) i sl) i).bHeld = some s.chip.now ∧
      (core (holdB (popHead s.chip i .b) i sl) i).bFree = none := by
  have hpop : (core (popHead s.chip i .b) i).b = (core s.chip i).b.tail :=
    congrArg Core.b ((core_onCore s.chip i i _).trans (if_pos rfl))
  have hhold : core (holdB (popHead s.chip i .b) i sl) i = _ := (core_onCore (popHead s.chip i .b) i i _).trans (if_pos rfl)
  rw [hhold]
  exact ⟨(congrArg (sl :: ·) hpop).trans (headNow_b h), rfl, rfl⟩

theorem coresOnly_holdB (c : Chip) (i : Nat) (sl : QSlot) : c.CoresOnly (holdB c i sl) := rfl

section Ops
variable {c : Chip}

theorem bTestAndSet_own (hpd : sf sl.w 54 52 ≠ 0) (he : predOf (core c i) c.now (sf sl.w 57 55) = true) (ho : ownBuoy c i (sf sl.w 51 22) = true) :
    bTestAndSet c i sl = sendBuoy c i engB sl.lw (sf sl.w 54 52) (slotMsg c i .testAndSet sl (bValue sl)) := by
  unfold bTestAndSet; simp [hpd, he, ho]

/-- A WAIT on a reached threshold is released 2 cycles after its issue (R38). -/
theorem bWait_reached (he : predOf (core c i) c.now (sf sl.w 57 55) = true) (ho : ownBuoy c i (sf sl.w 51 22) = true)
    (hv : sf sl.w 21 0 ≤ (buoy c (refLocal (sf sl.w 51 22))).val.toNat) :
    bWait c i sl = onCore (holdB c i sl) i (fun k => { k with bFree := some (c.now + 2) }) := by
  unfold bWait; simp [he, ho, bValue_toNat, hv]

theorem bWait_waits (he : predOf (core c i) c.now (sf sl.w 57 55) = true) (ho : ownBuoy c i (sf sl.w 51 22) = true)
    (hv : (buoy c (refLocal (sf sl.w 51 22))).val.toNat < sf sl.w 21 0) : bWait c i sl = holdB c i sl := by
  unfold bWait; simp [he, ho, bValue_toNat, Nat.not_le.mpr hv]

/-- The message of an arrival from a core here (R42). -/
def arrivalMsg (c : Chip) (i g : Nat) : BarrierMsg :=
  let a := (coreJob c i).bind newest
  ⟨g, (barAt c g).phase, 1, jobOfCore c i, (a.map (fun a => a.tick)).getD 0, (a.map (fun a => a.ord)).getD 0, gca c i⟩

/-- A member that arrives for the first time at a root here holds, and its arrival is noted after its path (R41, R42). -/
theorem bBarrier_here {g : Nat} (hg : sf sl.w 31 22 = g) (he : predOf (core c i) c.now (sf sl.w 57 55) = true) (hj : (barAt c g).job ≠ 0)
    (hc : (barAt c g).job = jobOfCore c i) (hm : (barMembers (barAt c g)).contains (gca c i) = true) (hr : barRoot (barAt c g) = c.beacon.pkg)
    (ha : (barAt c g).arrived.contains (gca c i) = false) :
    bBarrier c i sl = arriveRoot (holdB c i sl) (arrivalMsg c i g) (c.now + Config.ring * ringHops (i / 256) (rootStack (barAt c g)))
      (fun d => coreFault d i engB sl.lw .barrierRearrive 0 g (barAt c g).phase) := by
  subst hg
  have hturn : ¬((barAt c (sf sl.w 31 22)).job = 0 ∨ (barAt c (sf sl.w 31 22)).job ≠ jobOfCore c i ∨
      (barMembers (barAt c (sf sl.w 31 22))).contains (gca c i) = false ∨ (barAt c (sf sl.w 31 22)).arrived.contains (gca c i) = true) := by
    rintro (h | h | h | h)
    · exact hj h
    · exact h hc
    · rw [hm] at h; cases h
    · rw [ha] at h; cases h
  unfold bBarrier
  simp only [he, Bool.not_true, Bool.false_eq_true, if_false]
  rw [if_neg hturn, if_pos hr]
  rfl

end Ops

/-! The rows of the slots, where the predicate holds. -/

theorem exec_testAndSet (hq : s.quiet) (hi : i < 1024) (he : Enabled s i sl) (ho : ownBuoy s.chip i (sf sl.w 51 22) = true) (h : Head s i .b sl 4)
    (hpd : sf sl.w 54 52 ≠ 0) : exec (.testAndSet i) s = .next (s.put { popHead s.chip i .b with
      buoyq := s.chip.buoyq ++ [⟨s.chip.now + 2, slotMsg s.chip i .testAndSet sl (bValue sl), engB, sl.lw, sf sl.w 54 52⟩] }) := by
  have hrow : bSlot 4 bTestAndSet i s.env s.chip = _ := (bSlot_of h (by decide) hi bTestAndSet).trans
    (bTestAndSet_own (c := popHead s.chip i .b) hpd ((predOf_popHead _ _ _ _).trans he) ho)
  have hsend : sendBuoy (popHead s.chip i .b) i engB sl.lw (sf sl.w 54 52) (slotMsg (popHead s.chip i .b) i .testAndSet sl (bValue sl)) =
      { popHead s.chip i .b with
        buoyq := s.chip.buoyq ++ [⟨s.chip.now + 2, slotMsg s.chip i .testAndSet sl (bValue sl), engB, sl.lw, sf sl.w 54 52⟩] } := by
    rw [← buoyLat_own ho]; rfl
  exact congrArg Host.Outcome.next ((congrArg s.after (hrow.trans hsend)).trans (State.after_sameHand s _ hq ⟨rfl, rfl, rfl⟩))

theorem exec_wait (hi : i < 1024) (h : Head s i .b sl 3) : exec (.wait i) s = .next (s.after (bWait (popHead s.chip i .b) i sl)) :=
  congrArg (fun c => Host.Outcome.next (s.after c)) (bSlot_of h (by decide) hi bWait)

/-- What a WAIT that holds leaves: the queue with its slot, held since now, released in the cycle `f` if there is one. -/
def WaitHeld (s : State) (i : Nat) (f : Option Nat) : Prop :=
  ∃ t, exec (.wait i) s = .next t ∧ (core t.chip i).b = (core s.chip i).b ∧ (core t.chip i).bHeld = some s.chip.now ∧ (core t.chip i).bFree = f ∧
    t.chip.buoys = s.chip.buoys ∧ t.mem = s.mem

theorem waitHeld_reached (hq : s.quiet) (hi : i < 1024) (he : Enabled s i sl) (ho : ownBuoy s.chip i (sf sl.w 51 22) = true) (h : Head s i .b sl 3)
    (hv : sf sl.w 21 0 ≤ (buoy s.chip (refLocal (sf sl.w 51 22))).val.toNat) : WaitHeld s i (some (s.chip.now + 2)) := by
  have hrow := exec_wait hi h
  rw [bWait_reached (c := popHead s.chip i .b) ((predOf_popHead _ _ _ _).trans he) ho hv,
    State.after_sameHand s (onCore (holdB (popHead s.chip i .b) i sl) i _) hq ⟨rfl, rfl, rfl⟩] at hrow
  have hcore := (core_onCore (holdB (popHead s.chip i .b) i sl) i i (fun k => { k with bFree := some (s.chip.now + 2) })).trans (if_pos rfl)
  obtain ⟨hb, hh, _⟩ := core_holdB h.1
  exact ⟨_, hrow, (congrArg Core.b hcore).trans hb, (congrArg Core.bHeld hcore).trans hh, congrArg Core.bFree hcore, rfl, rfl⟩

theorem waitHeld_waits (hq : s.quiet) (hi : i < 1024) (he : Enabled s i sl) (ho : ownBuoy s.chip i (sf sl.w 51 22) = true) (h : Head s i .b sl 3)
    (hv : (buoy s.chip (refLocal (sf sl.w 51 22))).val.toNat < sf sl.w 21 0) : WaitHeld s i none := by
  have hrow := exec_wait hi h
  rw [bWait_waits (c := popHead s.chip i .b) ((predOf_popHead _ _ _ _).trans he) ho hv,
    State.after_sameHand s _ hq (coresOnly_holdB (popHead s.chip i .b) i sl).sameHand] at hrow
  obtain ⟨hb, hh, hf⟩ := core_holdB h.1
  exact ⟨_, hrow, hb, hh, hf, rfl, rfl⟩

/-- A BARRIER that arrives at a root here. -/
theorem exec_barrier {g : Nat} (hi : i < 1024) (he : Enabled s i sl) (hg : sf sl.w 31 22 = g) (h : Head s i .b sl 6) (hj : (barAt s.chip g).job ≠ 0)
    (hc : (barAt s.chip g).job = jobOfCore s.chip i) (hm : (barMembers (barAt s.chip g)).contains (gca s.chip i) = true)
    (hr : barRoot (barAt s.chip g) = s.chip.beacon.pkg) (ha : (barAt s.chip g).arrived.contains (gca s.chip i) = false) :
    exec (.barrier i) s = .next (s.after (arriveRoot (holdB (popHead s.chip i .b) i sl) (arrivalMsg s.chip i g)
      (s.chip.now + Config.ring * ringHops (i / 256) (rootStack (barAt s.chip g)))
      (fun d => coreFault d i engB sl.lw .barrierRearrive 0 g (barAt s.chip g).phase))) :=
  congrArg (fun c => Host.Outcome.next (s.after c)) ((bSlot_of h (by decide) hi bBarrier).trans
    (bBarrier_here (c := popHead s.chip i .b) hg ((predOf_popHead _ _ _ _).trans he) hj hc hm hr ha))

end Slots

theorem barAt_tset (c : Chip) (g : Nat) (b : Bar) : barAt { c with bars := tset c.bars g b } g = b := (tget_tset _ _ _ _ _).trans (if_pos rfl)

/-- A TEST_AND_SET in its turn stores its value where the buoy is zero and leaves any other (R34). -/
theorem buoyApply_testAndSet (v x : Word) : buoyApply .testAndSet v x = some (if v = 0 then x else v) := (apply_ite some (v = 0) x v).symm

/-- It notes whether the buoy was zero (R230). -/
theorem buoyNoted_testAndSet {c : Chip} {x : BuoyIn} (h : x.m.op = .testAndSet) :
    (core (buoyNoted c x) (x.m.core % 1024)).preds =
      (core c (x.m.core % 1024)).preds ++ [⟨c.now + 1, 4, x.pd, (buoy c (refLocal x.m.ref)).val == 0⟩] := by
  have hcore : core (buoyEffect c x) (x.m.core % 1024) = core c (x.m.core % 1024) := congrArg (fun t => tget Core.idle t _) (buoyEffect_cores c x)
  unfold buoyNoted
  rw [if_pos h, core_onCore, if_pos rfl, hcore]
  rfl

/-- Settles O33: arrivals, releases and waits by the cases of their rows; the fall by the turn of its cycle; the slots by their meanings. -/
theorem barriersAndWaits : Obligations.BarriersAndWaits := by
  refine ⟨fun m i s hq hi => ⟨?_, ?_, ?_, ?_⟩, ?_, ?_, ?_⟩
  · intro b hb hj hr ha
    have hrow := exec_barrierArrival hb hj hr ha
    refine ⟨fun hin hw => ?_, fun hin hw => ?_, fun hin => ?_⟩
    · rw [hrow, arriveRoot_first hin, Bar.withArrival_waits _ hw]; exact congrArg Host.Outcome.next (State.after_sameHand s _ hq ⟨rfl, rfl, rfl⟩)
    · rw [hrow, arriveRoot_first hin, Bar.withArrival_falls _ hw]; exact congrArg Host.Outcome.next (State.after_sameHand s _ hq ⟨rfl, rfl, rfl⟩)
    · rw [arriveRoot_again hin] at hrow
      exact ⟨_, _, hrow, congrArg (fun l => { s.chip with raised := l ++ [rearrival s.chip m] }) hq.2.2, rfl⟩
  · intro b hb hj hp hr ha
    refine ⟨_, exec_barrierRelease hq hb hj hp hr ha, barAt_tset _ _ _, fun k hk hh => ?_, (coresOnly_releaseHere s.chip m.group).on Chip.buoys, rfl⟩
    have hcore : core (releaseHere s.chip m.group) k = (core s.chip k).letGo s.chip.now := (core_releaseHere hk).trans (if_pos hh)
    exact ⟨congrArg Core.b hcore, congrArg Core.bHeld hcore⟩
  · intro q rest t0 t hb hh hf ho
    have hrow := exec_waitRelease hi s
    refine ⟨fun ht => ?_, fun ht => ?_⟩
    · rw [hrow, waitRelease_due hb hh hf ho ht, State.after_sameHand s _ hq (coresOnly_letGo s.chip i t).sameHand]; rfl
    · rw [hrow, waitRelease_early hf ht, State.after_self s hq]
  · intro hf
    rw [exec_waitRelease hi s, waitRelease_none hf, State.after_self s hq]
  · intro g t s hq hb hnone hother b hf ht
    obtain ⟨hjobs, hhand, hbuoys, hbar, hcores⟩ := falls_of hnone hother hf ht
    have hstep := step_still hb hjobs
    rw [State.after_sameHand s { syncTurn s.chip with now := (syncTurn s.chip).now + 1 } hq hhand] at hstep
    exact ⟨_, hstep, hbar, fun i hi hh => hcores i hi hh, hbuoys, hjobs, rfl⟩
  · intro x s hq hb hbars hc hx n b hop hj hne ha
    have h : OneTurn s x := ⟨hq, hb, hbars, hc, hx⟩
    have hv : buoyApply x.m.op b.val x.m.val = some (if b.val = 0 then x.m.val else b.val) := by rw [hop]; exact buoyApply_testAndSet _ _
    obtain ⟨c, hstep, hcores, hpreds⟩ := h.stores hj hne ha hv
    exact ⟨_, hstep, hcores.on Chip.buoys, (hpreds _).trans (buoyNoted_testAndSet (c := s.chip.noneComing) hop), rfl⟩
  · intro i sl s hq hi he
    refine ⟨fun ho => ⟨fun h hpd => exec_testAndSet hq hi he ho h hpd, fun h hv => waitHeld_reached hq hi he ho h hv,
      fun h hv => waitHeld_waits hq hi he ho h hv⟩, ?_⟩
    intro g b at_ h hj hc hm hr ha
    obtain ⟨hqueue, hheld, _⟩ := core_holdB h.1
    have hrow := exec_barrier hi he rfl h hj hc hm hr ha
    rw [arriveRoot_first (c := holdB (popHead s.chip i .b) i sl) (m := arrivalMsg s.chip i g) ha] at hrow
    refine ⟨_, hrow.trans (congrArg Host.Outcome.next (State.after_sameHand s _ hq ⟨rfl, rfl, rfl⟩)), hqueue, hheld, rfl, fun hw => ?_, fun hw => ?_⟩
    · exact (barAt_tset _ _ _).trans (Bar.withArrival_waits _ hw)
    · exact (barAt_tset _ _ _).trans (Bar.withArrival_falls _ hw)

end Sys2Proof.Machine
end

section
/-! SUPPORT. A command that came by a ring, and the sections of an image that it names (04_weights.md R90-R93; 12_host.md R308, R309). -/

namespace Sys2Proof.Machine

/-! By a ring. -/

/-- A ring is of one of the 16 partitions, and a relayed command of none. -/
theorem isRelay_ring {m : Cmd} (h : m.id.part < 16) : isRelay m = false := beq_eq_false_iff_ne.mpr (Nat.ne_of_lt h)

/-- A command from a ring is held to the rules of the partition that submitted it. -/
theorem cmdPart_ring {m : Cmd} (h : m.id.part < 16) (j : Job) : cmdPart j m = m.id.part := by simp [cmdPart, isRelay_ring h]

/-! Sections. -/

theorem Carried.digestOk_eq_true {x : Carried} (h : sha384 x.body = x.sec.digest) : x.digestOk = true := beq_iff_eq.mpr h

theorem Carried.digestOk_eq_false {x : Carried} (h : sha384 x.body ≠ x.sec.digest) : x.digestOk = false := beq_eq_false_iff_ne.mpr h

section Here
variable {e : Env} {c : Chip} {x : Sec} {ts : List TilePlace}

theorem Carried.here_digestOk_eq_true (h : sha384 (coveredBytes e c x ts) = x.digest) : (Carried.here e c x ts).digestOk = true :=
  Carried.digestOk_eq_true (x := Carried.here e c x ts) h

theorem Carried.here_digestOk_eq_false (h : sha384 (coveredBytes e c x ts) ≠ x.digest) : (Carried.here e c x ts).digestOk = false :=
  Carried.digestOk_eq_false (x := Carried.here e c x ts) h

end Here

/-- The sections of an image with some indices. -/
def secsAt (e : Env) (c : Chip) (a : Nat) (ks : List Nat) : List Sec := ks.map (fun k => readSec e c (secAddr e c a k))

/-- Those of this package among them, with what the image carries for them. -/
def ownCarried (e : Env) (c : Chip) (j : Job) (a : Nat) (ks : List Nat) : List Carried :=
  (ownSecs e c j a ks).map (fun x => Carried.here e c x.2.1 x.2.2)

/-- Where the image and these sections of it lie. -/
def extentsAt (e : Env) (c : Chip) (j : Job) (a : Nat) (ks : List Nat) : List (Nat × Nat) :=
  imageExtents j.place.layout a (readWImg e c j a).count (secsAt e c a ks)

/-- An uncorrectable word of the host store lies in what a command that names these sections reads here (R355). -/
def imageStruck (e : Env) (c : Chip) (j : Job) (a : Nat) (ks : List Nat) : Bool :=
  spansBad c (readExtents j.place.layout a (readWImg e c j a).count (secsAt e c a ks) ((ownSecs e c j a ks).map (fun x => x.2.1)))

end Sys2Proof.Machine
end

section
/-! O51: LOAD_IMAGE and the sections of a load (04_weights.md R92-R95; 15_safety.md R355; 17_power.md R405). -/

namespace Sys2Proof.Machine

/-! The rows, each by the chip that it settles. -/

theorem exec_loadImage (id : CmdId) (el : Bool) (s : State) :
    exec (.loadImage id el) s = .next (s.after (withStarted s.chip id 0x02 (loadImage s.env el))) := rfl
theorem exec_sectionVerified (id : CmdId) (inp : SectionIn) (s : State) :
    exec (.sectionVerified id inp) s = .next (s.after (lampReviews (sectionVerified s.env s.chip id inp))) := rfl

/-! LOAD_IMAGE (R93). -/

/-- The indices that a LOAD_IMAGE names. -/
def loadKeys (m : Cmd) : List Nat := (List.range (arg m 0x1C 4)).map (arg m 0x18 4 + ·)

/-- A LOAD_IMAGE that is refused: no section was written, and none is named. -/
def loadRefused (c : Chip) (m : Cmd) (st : Status) : Chip := finalCmd c m.id st 0 (2 ^ 32 - 1) 0

/-- The load that a LOAD_IMAGE begins: the sections of this package are left. -/
def loadBegun (e : Env) (c : Chip) (m : Cmd) (j : Job) : Load :=
  let own := ownSecs e c j (arg m 0x10 8) (loadKeys m)
  ⟨m.id, arg m 0x10 8, own.map Prod.fst, 0, none, arg m 0x20 1 == 1, bitOf m.flags 2, own.any (fun x => x.2.1.tables != 0)⟩

/-- The image, or a peer that an UP port faces, is a source (R95). -/
theorem loadSource_ok {e : Env} {c : Chip} {m : Cmd} (h : arg m 0x20 1 = 0 ∨ (arg m 0x20 1 = 1 ∧ facesPeer e c (arg m 0x22 2) = true)) :
    ¬(1 < arg m 0x20 1 ∨ (arg m 0x20 1 = 1 ∧ facesPeer e c (arg m 0x22 2) = false)) := by
  obtain h0 | ⟨h1, hf⟩ := h
  · simp [h0]
  · simp [h1, hf]

/-- The chip with a LOAD_IMAGE accepted and its load in hand. -/
def loadAccepted (e : Env) (c : Chip) (m : Cmd) (t : Nat) (j : Job) : Chip :=
  onJob (noteExtents (acceptCmd c m.id (cmdHandle m.id)) m.id (extentsAt e c j (arg m 0x10 8) (loadKeys m))) t (fun i =>
    { i with wts := { i.wts with loads := i.wts.loads ++ [loadBegun e c m j] } })

/-- What the checks of an image that can be read decide. -/
def loadDecision (e : Env) (c : Chip) (el : Bool) (m : Cmd) (t : Nat) (j : Job) : Chip :=
  let a := arg m 0x10 8
  let ks := loadKeys m
  if imageStruck e c j a ks then loadRefused c m .hwFault
  else match secStatus e c j m.id.part (readWImg e c j a).version el (secsAt e c a ks) (ownCarried e c j a ks) with
    | some st => loadRefused c m st
    | none => if ownSecs e c j a ks = [] then loadFinal (loadAccepted e c m t j) t (loadBegun e c m j) .ok none else lampReviews (loadAccepted e c m t j)

section Decision
variable {e : Env} {c : Chip} {el : Bool} {m : Cmd} {j : Job} (t : Nat)

theorem loadDecision_struck (h : imageStruck e c j (arg m 0x10 8) (loadKeys m) = true) : loadDecision e c el m t j = loadRefused c m .hwFault := if_pos h

variable (h : imageStruck e c j (arg m 0x10 8) (loadKeys m) = false)
include h

theorem loadDecision_refused {st : Status} (hs : secStatus e c j m.id.part (readWImg e c j (arg m 0x10 8)).version el
    (secsAt e c (arg m 0x10 8) (loadKeys m)) (ownCarried e c j (arg m 0x10 8) (loadKeys m)) = some st) :
    loadDecision e c el m t j = loadRefused c m st := by
  simp only [loadDecision, h, hs, Bool.false_eq_true, if_false]

theorem loadDecision_accepted (hs : secStatus e c j m.id.part (readWImg e c j (arg m 0x10 8)).version el
    (secsAt e c (arg m 0x10 8) (loadKeys m)) (ownCarried e c j (arg m 0x10 8) (loadKeys m)) = none) :
    loadDecision e c el m t j = if ownSecs e c j (arg m 0x10 8) (loadKeys m) = [] then
      loadFinal (loadAccepted e c m t j) t (loadBegun e c m j) .ok none else lampReviews (loadAccepted e c m t j) := by
  simp only [loadDecision, h, hs, Bool.false_eq_true, if_false]

end Decision

section Load
variable {s : State} {m : Cmd} {t : Nat} {j : Job} (el : Bool)
  (ht : jobOf s.chip m.target = some (t, j)) (hc : j.place.parts.contains m.id.part = true) (hp : programHere j = true)
include ht hc hp

theorem loadImage_busy (h : jobRunning j = true ∨ j.clearing = true) : loadImage s.env el m s.chip = loadRefused s.chip m .busy := by
  have hbusy : (jobRunning j || j.clearing) = true := by simpa using h
  unfold loadImage; rw [onJobTarget_any ht hc]
  exact (if_neg (by simp [hp])).trans (if_pos hbusy)

variable (hr : jobRunning j = false) (hl : j.clearing = false)
include hr hl

/-- The source is neither the image nor a peer that an UP port faces (R95). -/
theorem loadImage_noSource (h : 1 < arg m 0x20 1 ∨ (arg m 0x20 1 = 1 ∧ facesPeer s.env s.chip (arg m 0x22 2) = false)) :
    loadImage s.env el m s.chip = loadRefused s.chip m .invalidArg := by
  unfold loadImage; rw [onJobTarget_any ht hc]
  exact (if_neg (by simp [hp])).trans ((if_neg (by simp [hr, hl])).trans (if_pos h))

variable (hs : arg m 0x20 1 = 0 ∨ (arg m 0x20 1 = 1 ∧ facesPeer s.env s.chip (arg m 0x22 2) = true))
include hs

theorem loadImage_nothing (h : arg m 0x1C 4 = 0) : loadImage s.env el m s.chip = doneCmd s.chip m.id .ok 0 (2 ^ 32 - 1) := by
  unfold loadImage; rw [onJobTarget_any ht hc]
  exact (if_neg (by simp [hp])).trans ((if_neg (by simp [hr, hl])).trans ((if_neg (loadSource_ok hs)).trans (if_pos h)))

/-- An image that lies in the job's host tier, with the sections that are named, is checked. -/
theorem loadImage_checked (h : 0 < arg m 0x1C 4) (ha : tierStatus s.chip j.place.parts .invalidArg (arg m 0x10 8) 256 = none)
    (hg : (readWImg s.env s.chip j (arg m 0x10 8)).ok = true) (hn : arg m 0x18 4 + arg m 0x1C 4 ≤ (readWImg s.env s.chip j (arg m 0x10 8)).count)
    (hx : (extentsAt s.env s.chip j (arg m 0x10 8) (loadKeys m)).findSome? (fun x => tierStatus s.chip j.place.parts .invalidArg x.1 x.2) = none) :
    loadImage s.env el m s.chip = loadDecision s.env s.chip el m t j := by
  have himg : ¬((readWImg s.env s.chip j (arg m 0x10 8)).ok = false ∨ (readWImg s.env s.chip j (arg m 0x10 8)).count < arg m 0x18 4 + arg m 0x1C 4) := by
    simp [hg, Nat.not_lt.mpr hn]
  unfold extentsAt secsAt loadKeys at hx
  unfold loadImage; rw [onJobTarget_any ht hc]
  refine (if_neg (by simp [hp])).trans ((if_neg (by simp [hr, hl])).trans ((if_neg (loadSource_ok hs)).trans ((if_neg (Nat.ne_of_gt h)).trans ?_)))
  simp only [ha, if_neg himg, hx]
  rfl

end Load

/-! The next section of a load (R94, R95). -/

/-- The section of an image that a load takes next. -/
def nextSec (e : Env) (c : Chip) (l : Load) (k : Nat) : Sec := readSec e c (secAddr e c l.image k)

/-- The same with its tiles and what the image or the peer carries for it. -/
def nextCarried (e : Env) (c : Chip) (j : Job) (l : Load) (k : Nat) (inp : SectionIn) : Carried :=
  let x := nextSec e c l k
  if l.peer then ⟨x, tileList j x.layer, inp.bytes⟩ else Carried.here e c x (tileList j x.layer)

theorem nextCarried_sec (e : Env) (c : Chip) (j : Job) (l : Load) (k : Nat) (inp : SectionIn) : (nextCarried e c j l k inp).sec = nextSec e c l k := by
  simp only [nextCarried]; split <;> rfl

theorem nextCarried_digestOk {e : Env} {c : Chip} {j : Job} {l : Load} {k : Nat} {inp : SectionIn}
    (h : sha384 (nextCarried e c j l k inp).body = (nextSec e c l k).digest) : (nextCarried e c j l k inp).digestOk = true :=
  Carried.digestOk_eq_true (by rwa [nextCarried_sec])

/-- The load keeps a section that is resident with its digest and version. -/
def keepsSec (j : Job) (l : Load) (x : Sec) : Bool :=
  l.skip && (tfind j.wts.sections x.layer).any (fun y => y.ok && y.digest == x.digest && y.version == x.version)

/-- An uncorrectable word lies in what the load reads of a section (R355). -/
def secStruck (c : Chip) (j : Job) (l : Load) (x : Sec) : Bool := spansBad c (imageExtents j.place.layout l.image 0 [x])

/-- The chip without a section whose digest differs. -/
def sectionGone (c : Chip) (t : Nat) (j : Job) (x : Sec) : Chip :=
  onJob (clearTiles c (tileList j x.layer)) t (fun i => { i with wts := { i.wts with sections := tdel i.wts.sections x.layer } })

section Next
variable {e : Env} {c : Chip} {id : CmdId} {inp : SectionIn} {t : Nat} {j : Job} {l : Load} {k : Nat} {rest : List Nat}
  (hl : loadOf c id = some (t, j, l)) (hk : l.left = k :: rest)
  (hlit : (nextSec e c l k).tables = 0 ∨ jobLit c j = true) (hlink : l.peer = true ∨ linkWaits c l.image = false)
include hl hk hlit hlink

/-- What becomes of the next section, once nothing makes the load wait. -/
theorem sectionVerified_eq : sectionVerified e c id inp =
    if keepsSec j l (nextSec e c l k) = true then loadNext (takeVersion c t (nextSec e c l k)) t { l with left := rest, done := l.done + 1 }
    else if (l.peer && !inp.peerHolds) = true then loadNext c t { l with left := rest, firstMissing := l.firstMissing.or (some k) }
    else if l.peer = false ∧ secStruck c j l (nextSec e c l k) = true then loadFinal c t l .hwFault (some k)
    else if (nextCarried e c j l k inp).digestOk = false then loadFinal (sectionGone c t j (nextSec e c l k)) t l .invalidArg (some k)
    else if (!(termsOk c j (nextCarried e c j l k inp).tables (nextCarried e c j l k inp))) = true then loadFinal c t l .invalidArg (some k)
    else loadNext (writeSection c t j (nextCarried e c j l k inp)) t { l with left := rest, done := l.done + 1 } := by
  have hgo : ¬(((nextSec e c l k).tables ≠ 0 ∧ jobLit c j = false) ∨ (l.peer = false ∧ linkWaits c l.image = true)) := by
    rintro (⟨h0, h1⟩ | ⟨h0, h1⟩)
    · exact hlit.elim h0 (ne_true_of_eq_false h1)
    · exact hlink.elim (ne_true_of_eq_false h0) (fun h => Bool.false_ne_true (h.symm.trans h1))
  unfold sectionVerified; rw [hl]; simp only [hk]
  exact if_neg hgo

theorem sectionVerified_kept (h : keepsSec j l (nextSec e c l k) = true) :
    sectionVerified e c id inp = loadNext (takeVersion c t (nextSec e c l k)) t { l with left := rest, done := l.done + 1 } := by
  rw [sectionVerified_eq hl hk hlit hlink, if_pos h]

variable (h : keepsSec j l (nextSec e c l k) = false)
include h

theorem sectionVerified_missing (hp : l.peer = true) (hm : inp.peerHolds = false) :
    sectionVerified e c id inp = loadNext c t { l with left := rest, firstMissing := l.firstMissing.or (some k) } := by
  rw [sectionVerified_eq hl hk hlit hlink, if_neg (ne_true_of_eq_false h), if_pos (by simp [hp, hm])]

theorem sectionVerified_struck (hp : l.peer = false) (hb : secStruck c j l (nextSec e c l k) = true) :
    sectionVerified e c id inp = loadFinal c t l .hwFault (some k) := by
  rw [sectionVerified_eq hl hk hlit hlink, if_neg (ne_true_of_eq_false h), if_neg (by simp [hp]), if_pos ⟨hp, hb⟩]

variable (hp : l.peer = true → inp.peerHolds = true) (hb : l.peer = true ∨ secStruck c j l (nextSec e c l k) = false)
include hp hb

/-- A section that is there and can be read is written or refused. -/
theorem sectionVerified_read : sectionVerified e c id inp =
    if (nextCarried e c j l k inp).digestOk = false then loadFinal (sectionGone c t j (nextSec e c l k)) t l .invalidArg (some k)
    else if (!(termsOk c j (nextCarried e c j l k inp).tables (nextCarried e c j l k inp))) = true then loadFinal c t l .invalidArg (some k)
    else loadNext (writeSection c t j (nextCarried e c j l k inp)) t { l with left := rest, done := l.done + 1 } := by
  have hthere : ¬((l.peer && !inp.peerHolds) = true) := by
    cases hpeer : l.peer with
    | false => simp
    | true => simp [hp hpeer]
  have hreads : ¬(l.peer = false ∧ secStruck c j l (nextSec e c l k) = true) := fun ⟨h0, h1⟩ =>
    hb.elim (ne_true_of_eq_false h0) (fun h => Bool.false_ne_true (h.symm.trans h1))
  rw [sectionVerified_eq hl hk hlit hlink, if_neg (ne_true_of_eq_false h), if_neg hthere, if_neg hreads]

theorem sectionVerified_differs (hd : sha384 (nextCarried e c j l k inp).body ≠ (nextSec e c l k).digest) :
    sectionVerified e c id inp = loadFinal (sectionGone c t j (nextSec e c l k)) t l .invalidArg (some k) := by
  rw [sectionVerified_read hl hk hlit hlink h hp hb, if_pos (Carried.digestOk_eq_false (by rwa [nextCarried_sec]))]

variable (hd : sha384 (nextCarried e c j l k inp).body = (nextSec e c l k).digest)
include hd

theorem sectionVerified_badTerms (hm : termsOk c j (nextCarried e c j l k inp).tables (nextCarried e c j l k inp) = false) :
    sectionVerified e c id inp = loadFinal c t l .invalidArg (some k) := by
  rw [sectionVerified_read hl hk hlit hlink h hp hb, if_neg (by simp [nextCarried_digestOk hd]), if_pos (by simp [hm])]

theorem sectionVerified_written (hm : termsOk c j (nextCarried e c j l k inp).tables (nextCarried e c j l k inp) = true) :
    sectionVerified e c id inp = loadNext (writeSection c t j (nextCarried e c j l k inp)) t { l with left := rest, done := l.done + 1 } := by
  rw [sectionVerified_read hl hk hlit hlink h hp hb, if_neg (by simp [nextCarried_digestOk hd]), if_neg (by simp [hm])]

end Next

/-- Settles O51: LOAD_IMAGE by the first check that fails, the next section of a load by the first of its conditions that holds. -/
theorem imagesLoad : Obligations.ImagesLoad := by
  refine ⟨?load, ?sections⟩
  case load =>
    intro id el m t j s _ h ht hc hp a n ks g own secs xs l bad c
    rw [exec_loadImage, withStarted_of h]
    refine ⟨fun hb => by rw [loadImage_busy el ht hc hp hb]; rfl, fun hr hl hs => by rw [loadImage_noSource el ht hc hp hr hl hs]; rfl,
      fun hr hl hs => ⟨fun hn => by rw [loadImage_nothing el ht hc hp hr hl hs hn], fun hn ha hg hk hx => ?_⟩⟩
    rw [loadImage_checked el ht hc hp hr hl hs hn ha hg hk hx]
    exact ⟨fun hb => by rw [loadDecision_struck t hb]; rfl, fun st hb hst => by rw [loadDecision_refused t hb hst]; rfl,
      fun hb hst => by rw [loadDecision_accepted t hb hst]; rfl⟩
  case sections =>
    intro id inp t j l k rest s _ hl hk x ts y kept hlit hlink
    rw [exec_sectionVerified]
    refine ⟨fun h => by rw [sectionVerified_kept hl hk hlit hlink h]; rfl, fun h hp hm => by rw [sectionVerified_missing hl hk hlit hlink h hp hm],
      fun h hp hb => by rw [sectionVerified_struck hl hk hlit hlink h hp hb], fun h hp hb => ⟨fun hd => ?differs, fun hd hm => ?badTerms, fun hd hm => ?written⟩⟩
    case differs => rw [sectionVerified_differs hl hk hlit hlink h hp hb hd]; rfl
    case badTerms => rw [sectionVerified_badTerms hl hk hlit hlink h hp hb hd hm]
    case written => rw [sectionVerified_written hl hk hlit hlink h hp hb hd hm]; rfl

end Sys2Proof.Machine
end

section
/-! O52: SWAP_LAYERS and the rewrites of a swap wave (04_weights.md R98-R101, R129, R130; 15_safety.md R355). -/

namespace Sys2Proof.Machine

/-! The rows, each by the chip that it settles. -/

theorem exec_swapLayers (id : CmdId) (others : List PkgCheck) (s : State) :
    exec (.swapLayers ⟨.ring id, others⟩) s = .next (s.after (withStarted s.chip id 0x03 (swapLayers s.env others))) := rfl
theorem exec_layerRewrite (t layer sym : Nat) (s : State) :
    exec (.layerRewrite t ⟨layer, sym⟩) s = .next (s.after (layerRewrite s.env s.chip t layer sym)) := rfl

/-! SWAP_LAYERS (R98, R99). -/

/-- The indices of an image's sections. -/
def imageKeys (e : Env) (c : Chip) (j : Job) (a : Nat) : List Nat := List.range (readWImg e c j a).count

/-- The wave that a SWAP_LAYERS begins, its barrier before tick `n`. -/
def swapBegun (e : Env) (c : Chip) (m : Cmd) (j : Job) (n : Nat) : Swap :=
  let a := arg m 0x10 8
  ⟨m.id, a, arg m 0x18 1 == 1, (readWImg e c j a).version, some n, [], [], 0, 0, [], [],
    (((ownSecs e c j a (imageKeys e c j a)).map (fun x => x.2.1)).filter (fun y => y.tables != 0)).map (fun y => y.layer), []⟩

/-- The chip with a SWAP_LAYERS accepted and its wave in hand, which waits for the job's next tick (R99). -/
def swapAccepted (e : Env) (c : Chip) (m : Cmd) (t : Nat) (j : Job) : Chip :=
  onJob (noteExtents (acceptCmd c m.id (cmdHandle m.id)) m.id (extentsAt e c j (arg m 0x10 8) (imageKeys e c j (arg m 0x10 8)))) t (fun i =>
    { i with wts := { i.wts with swap := some (swapBegun e c m j i.ticks.next) } })

/-- The checks that an image passes on this package, before any other one is asked (R92, R93, R98, R355). -/
structure SwapPasses (e : Env) (c : Chip) (j : Job) (p a : Nat) : Prop where
  named : tierStatus c j.place.parts .invalidArg a 256 = none
  image : (readWImg e c j a).ok = true
  other : (readWImg e c j a).version ≠ j.wts.version
  extents : (extentsAt e c j a (imageKeys e c j a)).findSome? (fun x => tierStatus c j.place.parts .invalidArg x.1 x.2) = none
  whole : oneEach j (secsAt e c a (imageKeys e c j a)) = true
  readable : imageStruck e c j a (imageKeys e c j a) = false
  agree : tablesAgree ((ownCarried e c j a (imageKeys e c j a)).flatMap Carried.tables) = true
  sections : secStatus e c j p (readWImg e c j a).version j.args.elasticLen (secsAt e c a (imageKeys e c j a)) (ownCarried e c j a (imageKeys e c j a)) = none
  terms : (ownCarried e c j a (imageKeys e c j a)).all (termsOk c j ((ownCarried e c j a (imageKeys e c j a)).flatMap Carried.tables)) = true

section Swap
variable {s : State} {m : Cmd} {t : Nat} {j : Job} {others : List PkgCheck} (ht : Aimed s m t j)
include ht

theorem swapLayers_stopped (hr : jobRunning j = false) : swapLayers s.env others m s.chip = final s.chip m.id .invalidArg := by
  unfold swapLayers; rw [onJobTarget_of ht]
  exact if_pos (.inl hr)

variable (hr : jobRunning j = true) (hf : arg m 0x18 1 ≤ 1)
include hr hf

theorem swapLayers_busy (hw : j.wts.swap ≠ none) : swapLayers s.env others m s.chip = final s.chip m.id .busy := by
  unfold swapLayers; rw [onJobTarget_of ht]
  exact (if_neg (by simp [hr, hf])).trans (if_pos (Option.isSome_iff_ne_none.mpr hw))

variable (hp : m.id.part < 16) (hw : j.wts.swap = none) (h : SwapPasses s.env s.chip j m.id.part (arg m 0x10 8))
include hp hw h

/-- Of what passes here the other packages decide. -/
theorem swapLayers_passes : swapLayers s.env others m s.chip =
    match deciding s.chip.beacon.pkg (0, .ok) others with
    | some (_, st) => final s.chip m.id st
    | none => lampReviews (swapAccepted s.env s.chip m t j) := by
  obtain ⟨hnamed, himage, hother, hextents, hwhole, hread, hagree, hsecs, hterms⟩ := h
  simp only [extentsAt, imageStruck, ownCarried, secsAt, imageKeys] at hextents hwhole hread hagree hsecs hterms
  have himg : ¬((readWImg s.env s.chip j (arg m 0x10 8)).ok = false ∨ (readWImg s.env s.chip j (arg m 0x10 8)).version = j.wts.version) := by
    simp [himage, hother]
  unfold swapLayers; rw [onJobTarget_of ht]
  refine (if_neg (by simp [hr, hf])).trans ((if_neg (by simp [hw])).trans ?_)
  simp only [hnamed, if_neg himg, hextents, hread, hwhole, hagree, cmdPart_ring hp, hsecs, hterms, Bool.false_eq_true, Bool.not_true, Bool.or_self,
    if_false, if_true]
  rfl

theorem swapLayers_refused {p : Nat} {st : Status} (hd : deciding s.chip.beacon.pkg (0, .ok) others = some (p, st)) :
    swapLayers s.env others m s.chip = final s.chip m.id st := by
  rw [swapLayers_passes ht hr hf hp hw h, hd]

theorem swapLayers_accepted (hd : deciding s.chip.beacon.pkg (0, .ok) others = none) :
    swapLayers s.env others m s.chip = lampReviews (swapAccepted s.env s.chip m t j) := by
  rw [swapLayers_passes ht hr hf hp hw h, hd]

end Swap

/-! The rewrite of a layer (R100, R101). -/

/-- The job with another state of its wave. -/
def withSwap (w : Swap) (j : Job) : Job := { j with wts := { j.wts with swap := some w } }

/-- Digests that differed in a row on a layer. -/
def misses (w : Swap) (layer : Nat) : Nat := if w.misLayer = layer then w.mism else 0

/-- A section written as the layer's new one, its tables at once or held. -/
def layerWritten (c : Chip) (t layer : Nat) (j : Job) (x : Carried) : Chip :=
  let h := tablesHeld (writeTiles c t x) t x.tables
  putSection h.2 t layer ⟨layer, true, x.sec.digest, x.sec.version, excessOf j.decl.tiles x, splitRefs h.1 (refsOf x), h.1⟩

/-- Every package ends a job whose layer missed three times (R101). -/
def rewriteFailed (c : Chip) (t : Nat) (j : Job) : Chip :=
  endJob (flood c ⟨t, j.ticks.committed, 0, .kill, [], c.beacon.pkg, 0, statusCode .hwFault, []⟩) t .halted .hwFault

section Rewrite
variable {e : Env} {c : Chip} {t layer : Nat} {j : Job} {w : Swap} (hj : tfind c.jobs t = some j) (hw : j.wts.swap = some w)
include hj hw

/-- Of a layer of another package it is noted that it was verified. -/
theorem layerRewrite_far {sym : Nat} (hs : sym ≠ j.place.sym) (hl : layerClear c t j w sym layer = true)
    (hp : j.place.layout.any (fun x => x.sym == sym && x.layer == layer) = true) (hf : w.far.contains (sym, layer) = false) :
    layerRewrite e c t layer sym = onJob c t (withSwap { w with far := w.far ++ [(sym, layer)] }) := by
  unfold layerRewrite; simp only [hj, hw]
  rw [if_pos hs, if_pos (by rw [hl, hp, hf]; rfl)]
  rfl

theorem layerRewrite_far_waits {sym : Nat} (hs : sym ≠ j.place.sym) (hl : layerClear c t j w sym layer = false) : layerRewrite e c t layer sym = c := by
  unfold layerRewrite; simp only [hj, hw]
  rw [if_pos hs, if_neg (by simp [hl])]

variable {k : Nat} {x : Sec} {ts : List TilePlace}
  (hx : (ownSecs e c j w.image (imageKeys e c j w.image)).find? (fun y => y.2.1.layer == layer) = some (k, x, ts))
include hx

/-- An old-version step has still to pass the layer. -/
theorem layerRewrite_waits (hl : layerClear c t j w j.place.sym layer = false) : layerRewrite e c t layer j.place.sym = c := by
  unfold imageKeys at hx
  unfold layerRewrite; simp only [hj, hw, hx]
  rw [if_neg (not_not_intro rfl), if_pos (by simp [hl])]

variable (hr : jobRunning j = true) (ho : layerOpen j w layer = true) (hlit : x.tables = 0 ∨ jobLit c j = true)
  (hh : heldClash c j (Carried.here e c x ts).tables = false) (hl : layerClear c t j w j.place.sym layer = true)
include hr ho hlit hh hl

/-- A layer that may be rewritten is, or counts a miss. -/
theorem layerRewrite_eq : layerRewrite e c t layer j.place.sym =
    if (Carried.here e c x ts).digestOk = false then
      (if 3 ≤ misses w layer + 1 then rewriteFailed c t j else onJob c t (withSwap { w with mism := misses w layer + 1, misLayer := layer }))
    else onJob (layerWritten c t layer j (Carried.here e c x ts)) t
      (withSwap { w with mism := 0, misLayer := layer, verified := w.verified.filter (· != layer) ++ [layer] }) := by
  have hgo : ¬((!jobRunning j || !layerClear c t j w j.place.sym layer || !layerOpen j w layer || (x.tables != 0 && !jobLit c j)) = true) := by
    obtain h0 | h1 := hlit
    · simp [hr, ho, hl, h0]
    · simp [hr, ho, hl, h1]
  unfold imageKeys at hx
  unfold layerRewrite; simp only [hj, hw, hx]
  rw [if_neg (not_not_intro rfl), if_neg hgo, if_neg (ne_true_of_eq_false hh)]
  rfl

section Missed
variable (hd : sha384 (coveredBytes e c x ts) ≠ x.digest)
include hd

theorem layerRewrite_ends (hm : 2 ≤ misses w layer) : layerRewrite e c t layer j.place.sym = rewriteFailed c t j := by
  rw [layerRewrite_eq hj hw hx hr ho hlit hh hl, if_pos (Carried.here_digestOk_eq_false hd), if_pos (Nat.succ_le_succ hm)]

theorem layerRewrite_misses (hm : misses w layer < 2) :
    layerRewrite e c t layer j.place.sym = onJob c t (withSwap { w with mism := misses w layer + 1, misLayer := layer }) := by
  rw [layerRewrite_eq hj hw hx hr ho hlit hh hl, if_pos (Carried.here_digestOk_eq_false hd), if_neg (Nat.not_le.mpr (Nat.succ_lt_succ hm))]

end Missed

theorem layerRewrite_verified (hd : sha384 (coveredBytes e c x ts) = x.digest) : layerRewrite e c t layer j.place.sym =
    onJob (layerWritten c t layer j (Carried.here e c x ts)) t
      (withSwap { w with mism := 0, misLayer := layer, verified := w.verified.filter (· != layer) ++ [layer] }) := by
  rw [layerRewrite_eq hj hw hx hr ho hlit hh hl, if_neg (by simp [Carried.here_digestOk_eq_true hd])]

end Rewrite

/-- Settles O52: SWAP_LAYERS by the checks here and then the other packages', a rewrite by its layer's package, what stands before it and its digest. -/
theorem layersSwap : Obligations.LayersSwap := by
  refine ⟨?swap, ?rewrite, ?far⟩
  case swap =>
    intro id others m t j s _ h hp ht a g ks own secs xs tabs
    rw [exec_swapLayers, withStarted_of h]
    refine ⟨fun hr => by rw [swapLayers_stopped ht hr], fun hr hf hw => by rw [swapLayers_busy ht hr hf hw],
      fun hr hf hw hnamed himage hother hextents hwhole hread hagree hsecs hterms => ?_⟩
    have hpass : SwapPasses s.env s.chip j m.id.part (arg m 0x10 8) := ⟨hnamed, himage, hother, hextents, hwhole, hread, hagree, hsecs, hterms⟩
    exact ⟨fun p st hd => by rw [swapLayers_refused ht hr hf hp hw hpass hd], fun hd => by rw [swapLayers_accepted ht hr hf hp hw hpass hd]; rfl⟩
  case rewrite =>
    intro t layer k j w x ts s hq hj hw hx hr ho hlit y hh
    rw [exec_layerRewrite]
    refine ⟨fun hl => by rw [layerRewrite_waits hj hw hx hl, s.after_self hq], fun hl => ⟨fun hd => ⟨fun hm => ?ends, fun hm => ?misses⟩, fun hd => ?verified⟩⟩
    case ends => rw [layerRewrite_ends hj hw hx hr ho hlit hh hl hd hm]; rfl
    case misses => rw [layerRewrite_misses hj hw hx hr ho hlit hh hl hd hm, State.after_sameHand s _ hq (sameHand_onJob _ _ _)]; rfl
    case verified => rw [layerRewrite_verified hj hw hx hr ho hlit hh hl hd]; rfl
  case far =>
    intro t layer sym j w s hq hj hw hs
    rw [exec_layerRewrite]
    exact ⟨fun hl hp hf => by rw [layerRewrite_far hj hw hs hl hp hf, State.after_sameHand s _ hq (sameHand_onJob _ _ _)]; rfl,
      fun hl => by rw [layerRewrite_far_waits hj hw hs hl, s.after_self hq]⟩

end Sys2Proof.Machine
end

section
/-! O57: the copy of a parked session (04_weights.md R111; 11_serving.md R270). Its row tells the size of the copy (R111) from what is kept under the
request's index; the statement tells it from the entry that the row found by the command. The two part where the table of sides holds an index twice. -/

namespace Sys2Proof.Machine

/-- The row, by the chip that it settles. -/
theorem exec_parkCopy (id : CmdId) (s : State) : exec (.parkCopy ⟨id, false⟩) s = .next (s.after (parkCopy s.env s.chip id)) := rfl

/-- The chip with the entry, the key-value entries and the tokens of request `i` in the buffer of its park. -/
def sessionWritten (e : Env) (c : Chip) (i : Nat) (d : ReqSide) (j : Job) : Chip :=
  let k := kvSpan j (req c i).kvSlot (req c i).kvLen
  wr (wr (wr c d.parkAddr (parkHead j (req c i) d)) (d.parkAddr + 128) (rdBytes e c k.1 k.2)) (d.parkAddr + 128 + k.2)
    (d.toks.flatMap (fun w => leBytes 4 w.toNat))

/-- A park that has copied `n` bytes. -/
def ReqSide.copiedBytes (n : Nat) (d : ReqSide) : ReqSide := { d with parkCopied := true, parkBytes := n }

/-- The bytes of the copy are those of the side under the request's index. -/
theorem parkCopy_copies {e : Env} {c : Chip} {id : CmdId} {i : Nat} {d : ReqSide} {j : Job}
    (hd : c.sides.find? (fun x => x.2.parkCmd == some id && !x.2.parkCopied) = some (i, d)) (hj : tfind c.jobs (req c i).job = some j)
    (hf : inFlight j i = false) (hl : linkWaits c d.parkAddr = false) (hn : parkSize j (req c i) d ≤ d.parkLen) :
    parkCopy e c id = onSide (sessionWritten e c i d j) i (fun x => x.copiedBytes (parkSize j (req c i) x)) := by
  unfold parkCopy; simp only [hd, hj]
  exact (if_neg (by simp [hf, hl])).trans (if_neg (Nat.not_lt.mpr hn))

/-- Only what is made of the side that stands there counts. -/
theorem onSide_congr {c : Chip} {i : Nat} {f g : ReqSide → ReqSide} (h : f (side c i) = g (side c i)) : onSide c i f = onSide c i g := by
  have hget : f (tget ReqSide.none c.sides i) = g (tget ReqSide.none c.sides i) := h
  unfold onSide tupd; rw [hget]

section Written
variable (e : Env) (c : Chip) (i : Nat) (d : ReqSide) (j : Job)

theorem sessionWritten_sides : (sessionWritten e c i d j).sides = c.sides := by simp [sessionWritten]
theorem sessionWritten_raised : (sessionWritten e c i d j).raised = c.raised := by simp [sessionWritten]

theorem side_sessionWritten (k : Nat) : side (sessionWritten e c i d j) k = side c k := by unfold side; rw [sessionWritten_sides]

end Written

/-- Where the side that the row finds is the one under its index, the row is as the statement says. -/
theorem parkCopy_copies_once {e : Env} {c : Chip} {id : CmdId} {i : Nat} {d : ReqSide} {j : Job} (hs : side c i = d)
    (hd : c.sides.find? (fun x => x.2.parkCmd == some id && !x.2.parkCopied) = some (i, d)) (hj : tfind c.jobs (req c i).job = some j)
    (hf : inFlight j i = false) (hl : linkWaits c d.parkAddr = false) (hn : parkSize j (req c i) d ≤ d.parkLen) :
    parkCopy e c id = onSide (sessionWritten e c i d j) i (ReqSide.copiedBytes (parkSize j (req c i) d)) :=
  (parkCopy_copies hd hj hf hl hn).trans (onSide_congr (by simp only [side_sessionWritten, hs]))

/-- What a row that ends with a side and raises nothing leaves of that side. -/
theorem side_after_onSide (s : State) (c : Chip) (i : Nat) (f : ReqSide → ReqSide) (h : c.raised = []) :
    side (s.after (onSide c i f)).chip i = f (side c i) := by
  have hside : side (onSide c i f) i = f (side c i) := (side_onSide c i i f).trans (if_pos rfl)
  rw [State.after_chip_of_unraised s _ (by rw [onSide_raised, h])]
  exact hside

/-- By the statement, the side under the index of a request has as many tokens as the side that the copy's row finds. -/
theorem toks_of_sessionsPark (h : Obligations.SessionsPark) {s : State} {id : CmdId} {i : Nat} {d : ReqSide} {j : Job} (hq : s.quiet)
    (hd : s.chip.sides.find? (fun x => x.2.parkCmd == some id && !x.2.parkCopied) = some (i, d)) (hj : tfind s.chip.jobs (req s.chip i).job = some j)
    (hf : inFlight j i = false) (hl : linkWaits s.chip d.parkAddr = false) (hn : parkSize j (req s.chip i) d ≤ d.parkLen) :
    (side s.chip i).toks.length = d.toks.length := by
  obtain ⟨-, hcopy, -⟩ := h
  have ⟨_, _, hraised⟩ := hq
  have hclean : (sessionWritten s.env s.chip i d j).raised = [] := by rw [sessionWritten_raised]; exact hraised
  have hstated : exec (.parkCopy ⟨id, false⟩) s =
      .next (s.after (onSide (sessionWritten s.env s.chip i d j) i (ReqSide.copiedBytes (parkSize j (req s.chip i) d)))) := hcopy id i d j s hq hd hj hf hl hn
  rw [exec_parkCopy, parkCopy_copies hd hj hf hl hn] at hstated
  have hbytes := congrArg (fun t => (side t.chip i).parkBytes) (Host.Outcome.next.inj hstated)
  simp only [side_after_onSide s _ i _ hclean] at hbytes
  have hsize : parkSize j (req s.chip i) (side (sessionWritten s.env s.chip i d j) i) = parkSize j (req s.chip i) d := hbytes
  rw [side_sessionWritten] at hsize
  unfold parkSize at hsize
  omega

/-! A state in which the two sides differ. -/

/-- A job of one package, with no key-value area and no attempt. -/
def bareJob : Job where
  gen := 1
  part := 0
  seq := 1
  st := .running
  tenant := 0
  hdr := ⟨1, 1, 0, 0, 0, 0, false, 0, 0, 0, []⟩
  place := ⟨[0], 0, 0, 0, 1, [0], [0], [], [], [], [], [], [], 0, 0, 64, [], [], [], [], [], [], [], []⟩
  decl := ⟨[], [], [], [], [], [], ⟨0, 0, 0, 0, 0, []⟩, []⟩
  args := RunArgs.none
  cnt := JobCnt.zero
  ticks := Ticks.zero
  wts := Weights.none
  loadCmd := none
  stop := none
  endSt := .ok
  killCmds := []
  clearAll := false
  clearing := false
  capture := none
  captureRun := none
  pair := none
  log := []
  slotNo := []
  promptAt := 0

/-- A side whose park is to be copied, with one token, for a buffer that just holds it. -/
def parkingSide : ReqSide := { ReqSide.none with parkCmd := some ⟨0, 8⟩, parkLen := 132, toks := [0] }

/-- Two sides under index 0, of which the second is to be copied. -/
def twoSides : State := { State.reset with chip := { Chip.reset with jobs := [(0, bareJob)], sides := [(0, ReqSide.none), (0, parkingSide)] } }

/-- Refutes O57: in `twoSides` the copy of one token ends with the number of bytes of a session that has none (128), and not with those that it wrote (132).
Where an index stands once, the row and the statement agree (`parkCopy_copies_once`). -/
theorem not_sessionsPark : ¬ Obligations.SessionsPark := by
  intro h
  have htoks : (side twoSides.chip 0).toks.length = parkingSide.toks.length :=
    toks_of_sessionsPark h (id := ⟨0, 8⟩) (j := bareJob) (by decide) (by decide) rfl (by decide) (by decide) (by decide)
  exact absurd htoks (by decide)

end Sys2Proof.Machine
end

section
/-! O58: adapters, their fills and their training (04_weights.md R94, R105, R106, R108, R110; 11_serving.md R285, R286). -/

namespace Sys2Proof.Machine

/-! The rows, each by the chip that it settles. -/

theorem exec_putAdapter (id : CmdId) (others : List PkgCheck) (s : State) :
    exec (.putAdapter ⟨.ring id, others⟩) s = .next (s.after (withStarted s.chip id 0x20 (putAdapter s.env others none))) := rfl
theorem exec_dropAdapter (id : CmdId) (s : State) : exec (.dropAdapter (.ring id)) s = .next (s.after (withStarted s.chip id 0x21 dropAdapter)) := rfl
theorem exec_trainAdapter (id : CmdId) (s : State) :
    exec (.trainAdapter (.ring id)) s = .next (s.after (withStarted s.chip id 0x22 (trainAdapter s.env none))) := rfl
theorem exec_fill (t d : Nat) (others : FarFill) (s : State) :
    exec (.fill t ⟨d, others, none⟩) s = .next (s.after (lampReviews (fillEnd s.env s.chip t d others))) := rfl
theorem exec_trainedParameterWrite (t : Nat) (v : Bool) (s : State) :
    exec (.trainedParameterWrite t v) s = .next (s.after (trainedWrite s.chip t v)) := rfl

section Target
variable {s : State} {m : Cmd} {t : Nat} {j : Job} (ht : Aimed s m t j)
include ht

/-! PUT_ADAPTER (R106, R285). -/

/-- The chip with a PUT_ADAPTER accepted and its drawer FILLING. -/
def putAccepted (e : Env) (c : Chip) (m : Cmd) (t : Nat) (j : Job) (d rank : Nat) : Chip :=
  lampReviews (beginFill (noteExtents (acceptCmd c m.id (mkHandle m.id.part 2 d (nextGen (tget 0 j.wts.gens (arg m 0x10 4))) m.id.seq)) m.id
    (adapterExtents e c j (arg m 0x18 8))) t d (arg m 0x10 4) rank (bitOf m.flags 2) .put (some m.id) (arg m 0x18 8) (fillTabled e c j (arg m 0x18 8) d))

section Put
variable {others : List PkgCheck} (hp : programHere j = true) (hn : training j (arg m 0x10 4) = false) (hc : j.clearing = false)
include hp hn hc

/-- What a drawer to take, the checks here and those elsewhere decide. -/
theorem putAdapter_eq : putAdapter s.env others none m s.chip =
    match takeDrawer j with
    | none => final s.chip m.id .noRoom
    | some d =>
      match adapterStatus s.env s.chip j (cmdPart j m) (arg m 0x18 8) d, deciding s.chip.beacon.pkg (0, .ok) others with
      | .inl st, _ => final s.chip m.id st
      | .inr _, some (_, st) => final s.chip m.id st
      | .inr rank, none => putAccepted s.env s.chip m t j d rank := by
  unfold putAdapter; rw [onJobTarget_of ht]
  exact (if_neg (by simp [hp])).trans (if_neg (by simp [hn, hc]))

theorem putAdapter_noRoom (hd : takeDrawer j = none) : putAdapter s.env others none m s.chip = final s.chip m.id .noRoom := by
  rw [putAdapter_eq ht hp hn hc, hd]

variable (hq : m.id.part < 16) {d : Nat} (hd : takeDrawer j = some d)
include hq hd

theorem putAdapter_refused {st : Status} (hs : adapterStatus s.env s.chip j m.id.part (arg m 0x18 8) d = .inl st) :
    putAdapter s.env others none m s.chip = final s.chip m.id st := by
  rw [putAdapter_eq ht hp hn hc, hd]; simp only [cmdPart_ring hq, hs]

variable {rank : Nat} (hs : adapterStatus s.env s.chip j m.id.part (arg m 0x18 8) d = .inr rank)
include hs

theorem putAdapter_refusedFar {p : Nat} {st : Status} (ho : deciding s.chip.beacon.pkg (0, .ok) others = some (p, st)) :
    putAdapter s.env others none m s.chip = final s.chip m.id st := by
  rw [putAdapter_eq ht hp hn hc, hd]; simp only [cmdPart_ring hq, hs, ho]

theorem putAdapter_accepted (ho : deciding s.chip.beacon.pkg (0, .ok) others = none) :
    putAdapter s.env others none m s.chip = putAccepted s.env s.chip m t j d rank := by
  rw [putAdapter_eq ht hp hn hc, hd]; simp only [cmdPart_ring hq, hs, ho]

end Put

/-! DROP_ADAPTER (R108, R285). -/

theorem dropAdapter_absent (hw : putPending j (arg m 0x10 4) = false) (hd : tfind j.wts.dir (arg m 0x10 4) = none) :
    dropAdapter m s.chip = final s.chip m.id .invalidArg := by
  unfold dropAdapter; rw [onJobTarget_of ht]
  exact if_pos (.inr (by simp [hw, hd]))

/-- An adapter that is put or resident, and whose drop does not wait already, is dropped at the next commit. -/
theorem dropAdapter_accepted (hp : programHere j = true) (hw : putPending j (arg m 0x10 4) = true ∨
    ((tfind j.wts.dir (arg m 0x10 4)).isSome = true ∧ dropPending j (arg m 0x10 4) = false)) (hn : training j (arg m 0x10 4) = false) :
    dropAdapter m s.chip = onJob (acceptCmd s.chip m.id (cmdHandle m.id)) t (fun i =>
      { i with wts := { i.wts with drops := i.wts.drops ++ [(arg m 0x10 4, m.id)] } }) := by
  have hres : (putPending j (arg m 0x10 4) || ((tfind j.wts.dir (arg m 0x10 4)).isSome && !(dropPending j (arg m 0x10 4)))) = true := by
    obtain h | ⟨h, h'⟩ := hw
    · simp [h]
    · simp [h, h']
  unfold dropAdapter; rw [onJobTarget_of ht]
  exact (if_neg (by simp only [hp, hres]; decide)).trans (if_neg (ne_true_of_eq_false hn))

/-! TRAIN_ADAPTER (R285). -/

theorem trainAdapter_absent (h : canTrain s.env j = false) : trainAdapter s.env none m s.chip = final s.chip m.id .engineAbsent := by
  unfold trainAdapter; rw [onJobTarget_of ht]
  exact if_pos h

/-- The training that a TRAIN_ADAPTER asks for, in drawer `d`. -/
def trainBegun (m : Cmd) (d : Nat) : Train :=
  ⟨m.id, arg m 0x10 4, d, arg m 0x14 2, arg m 0x20 4, arg m 0x18 8, arg m 0x24 4, 0, arg m 0x28 8, arg m 0x30 8, 0, 0⟩

/-- The chip with a TRAIN_ADAPTER accepted, its drawer held and its training waiting. -/
def trainAccepted (e : Env) (c : Chip) (m : Cmd) (t : Nat) (j : Job) (d rank : Nat) : Chip :=
  startFills e (onJob (beginFill (acceptCmd c m.id (mkHandle m.id.part 2 d (nextGen (tget 0 j.wts.gens (arg m 0x10 4))) m.id.seq)) t d (arg m 0x10 4) rank
    (bitOf m.flags 2) .train (some m.id) 0 false) t (fun i => { i with wts := { i.wts with trains := i.wts.trains ++ [trainBegun m d] } })) t false

/-- A resident adapter is trained where nothing else of the job is in the way. -/
theorem trainAdapter_accepted {w d : Nat} (h : canTrain s.env j = true) (hn : training j (arg m 0x10 4) = false)
    (hu : putPending j (arg m 0x10 4) = false) (hr : dropPending j (arg m 0x10 4) = false) (hc : j.clearing = false)
    (hk : bufferOk s.chip j.place.parts (arg m 0x28 8) 256 = true) (hx : bufferOk s.chip j.place.parts (arg m 0x18 8) (min 1 (arg m 0x20 4)) = true)
    (hp : programHere j = true) (hw : tfind j.wts.dir (arg m 0x10 4) = some w) (hs : 0 < arg m 0x24 4) (hb : 0 < arg m 0x14 2)
    (hb' : arg m 0x14 2 ≤ 4096) (hd : takeDrawer j = some d) :
    trainAdapter s.env none m s.chip = trainAccepted s.env s.chip m t j d (tget Drawer.free j.wts.drawers w).rank := by
  have hargs : ¬(programHere j = false ∨ some (tget Drawer.free j.wts.drawers w).rank = none ∨ arg m 0x24 4 = 0 ∨ arg m 0x14 2 = 0 ∨ 4096 < arg m 0x14 2) := by
    simp [hp, Nat.ne_of_gt hs, Nat.ne_of_gt hb, hb']
  unfold trainAdapter; rw [onJobTarget_of ht]
  refine (if_neg (by simp [h])).trans ((if_neg (by simp [hn, hu, hr, hc])).trans ((if_neg (by simp [hk, hx])).trans ?_))
  simp only [hw, if_neg hargs, drawerFor, hd]
  rfl

end Target

/-! The end of a fill (R94, R105, R106, R110). -/

/-- This package and the others have the whole of a fill. -/
def filledFar (j : Job) (others : FarFill) : Bool := others == .verified || decide (j.place.pkgs.length ≤ 1)

/-- The sections of the image that drawer `d` is filled from, as the image carries them. -/
def fillCarried (e : Env) (c : Chip) (j : Job) (image d : Nat) : List Carried := (adapterSecs e c j image d).map (fun x => Carried.here e c x.1 x.2)

/-- Every section that a fill brings has its digest. -/
def fillDigests (e : Env) (c : Chip) (j : Job) (image d : Nat) : Bool :=
  (adapterSecs e c j image d).all (fun x => sha384 (coveredBytes e c x.1 x.2) == x.1.digest)

theorem all_digestOk_fillCarried (e : Env) (c : Chip) (j : Job) (image d : Nat) :
    (fillCarried e c j image d).all Carried.digestOk = fillDigests e c j image d := List.all_map

/-- The chip without what a fill wrote whose digests differ. -/
def fillGone (e : Env) (c : Chip) (t : Nat) (j : Job) (image d : Nat) : Chip :=
  let own := adapterSecs e c j image d
  layersGone (each own c (fun c x => clearTiles c x.2)) t d (fun l => own.any (fun x => x.1.layer == l))

/-- The chip with the sections of a fill written and its drawer verified here. -/
def fillWritten (e : Env) (c : Chip) (t : Nat) (j : Job) (d : Nat) (w : Drawer) (all : Bool) : Chip :=
  onJob (each (fillCarried e c j w.image d) c (writeDrawerSec j t d)) t (fun i => { i with wts := { i.wts with
    drawers := tset i.wts.drawers d { w with verified := true, elsewhere := all, st := if all && drawerTabled i d then .ready else .filling } } })

/-- A drawer verified here, with what is heard of the other packages. -/
def fillHeard (c : Chip) (t d : Nat) (w : Drawer) (all : Bool) : Chip :=
  onJob c t (fun i => { i with wts := { i.wts with
    drawers := tset i.wts.drawers d { w with st := if all && drawerTabled i d then .ready else .filling, elsewhere := w.elsewhere || all } } })

section Here
variable {e : Env} {c : Chip} {t d : Nat} {j : Job} {w : Drawer} {all : Bool}
  (hl : (adapterSecs e c j w.image d).any (fun x => x.1.tables != 0) = false ∨ jobLit c j = true) (hk : linkWaits c w.image = false)
include hl hk

theorem fillHere_eq : fillHere e c t d j w all =
    if spansBad c (adapterReads e c j w.image d) = true then fillFailed c t d w .hwFault .hwFault
    else if heldClash c j ((fillCarried e c j w.image d).flatMap Carried.tables) = true then fillFailed c t d w .invalidArg .invalidArg
    else if (!((fillCarried e c j w.image d).all Carried.digestOk)) = true then fillFailed (fillGone e c t j w.image d) t d w .invalidArg .hwFault
    else fillWritten e c t j d w all := by
  have hgo : ¬(((adapterSecs e c j w.image d).any (fun x => x.1.tables != 0) = true ∧ jobLit c j = false) ∨ linkWaits c w.image = true) := by
    obtain h | h := hl <;> simp [h, hk]
  exact if_neg hgo

theorem fillHere_struck (hb : spansBad c (adapterReads e c j w.image d) = true) : fillHere e c t d j w all = fillFailed c t d w .hwFault .hwFault := by
  rw [fillHere_eq hl hk, if_pos hb]

variable (hb : spansBad c (adapterReads e c j w.image d) = false) (hh : heldClash c j ((fillCarried e c j w.image d).flatMap Carried.tables) = false)
include hb hh

theorem fillHere_verified (hd : fillDigests e c j w.image d = true) : fillHere e c t d j w all = fillWritten e c t j d w all := by
  rw [fillHere_eq hl hk, if_neg (ne_true_of_eq_false hb), if_neg (ne_true_of_eq_false hh), all_digestOk_fillCarried, hd, if_neg (by decide)]

theorem fillHere_differs (hd : fillDigests e c j w.image d = false) :
    fillHere e c t d j w all = fillFailed (fillGone e c t j w.image d) t d w .invalidArg .hwFault := by
  rw [fillHere_eq hl hk, if_neg (ne_true_of_eq_false hb), if_neg (ne_true_of_eq_false hh), all_digestOk_fillCarried, hd, if_pos (by decide)]

end Here

section Fill
variable {e : Env} {c : Chip} {t d : Nat} {j : Job} {others : FarFill} (hj : tfind c.jobs t = some j)
  (hf : (tget Drawer.free j.wts.drawers d).st = .filling)
  (hb : (tget Drawer.free j.wts.drawers d).by_ = .put ∨ (tget Drawer.free j.wts.drawers d).by_ = .demand)
include hj hf hb

/-- A drawer that a PUT_ADAPTER or a fill on demand fills goes by what is heard of the other packages. -/
theorem fillEnd_eq : fillEnd e c t d others =
    match others with
    | .failed => fillFailed c t d (tget Drawer.free j.wts.drawers d) .invalidArg .hwFault
    | .refused st => if (tget Drawer.free j.wts.drawers d).verified then c else fillFailed c t d (tget Drawer.free j.wts.drawers d) st st
    | _ => if (tget Drawer.free j.wts.drawers d).verified then fillHeard c t d (tget Drawer.free j.wts.drawers d) (filledFar j others)
      else fillHere e c t d j (tget Drawer.free j.wts.drawers d) (filledFar j others) := by
  have hgo : ¬((tget Drawer.free j.wts.drawers d).st ≠ .filling ∨
      ((tget Drawer.free j.wts.drawers d).by_ ≠ .put ∧ (tget Drawer.free j.wts.drawers d).by_ ≠ .demand)) := by
    obtain h | h := hb <;> simp [hf, h]
  unfold fillEnd; simp only [hj]
  exact if_neg hgo

theorem fillEnd_failed : fillEnd e c t d .failed = fillFailed c t d (tget Drawer.free j.wts.drawers d) .invalidArg .hwFault := fillEnd_eq hj hf hb

theorem fillEnd_refused (hv : (tget Drawer.free j.wts.drawers d).verified = false) (st : Status) :
    fillEnd e c t d (.refused st) = fillFailed c t d (tget Drawer.free j.wts.drawers d) st st :=
  (fillEnd_eq hj hf hb).trans (if_neg (ne_true_of_eq_false hv))

variable (ho : others = .waiting ∨ others = .verified)
include ho

theorem fillEnd_heard (hv : (tget Drawer.free j.wts.drawers d).verified = true) :
    fillEnd e c t d others = fillHeard c t d (tget Drawer.free j.wts.drawers d) (filledFar j others) := by
  obtain rfl | rfl := ho <;> exact (fillEnd_eq hj hf hb).trans (if_pos hv)

theorem fillEnd_here (hv : (tget Drawer.free j.wts.drawers d).verified = false) :
    fillEnd e c t d others = fillHere e c t d j (tget Drawer.free j.wts.drawers d) (filledFar j others) := by
  obtain rfl | rfl := ho <;> exact (fillEnd_eq hj hf hb).trans (if_neg (ne_true_of_eq_false hv))

end Fill

/-! The trained parameters (R286). -/

/-- The steps of a training are done, and its drawer is still held. -/
def trainDone (j : Job) (x : Train) : Bool := x.step == x.steps && (tget Drawer.free j.wts.drawers x.drawer).st == .filling

/-- The chip with the trained parameters in a drawer, which holds no section any more. -/
def trainWritten (c : Chip) (t : Nat) (j : Job) (d : Nat) : Chip := layersGone (writeTrained c j d) t d (fun _ => true)

theorem trainedWrite_eq {c : Chip} {t : Nat} {j : Job} {w : Train} (hj : tfind c.jobs t = some j) (hw : j.wts.trains.find? (trainDone j) = some w)
    (v : Bool) : trainedWrite c t v =
      if (!v) = true then trainWritten c t j w.drawer
      else onJob (trainWritten c t j w.drawer) t (fun i => { i with wts := { i.wts with
        drawers := tupd Drawer.free i.wts.drawers w.drawer (fun w => { w with st := .ready, verified := true }) } }) := by
  unfold trainDone at hw
  unfold trainedWrite; simp only [hj, hw]
  rfl

/-- Settles O58: each command by the first of its conditions that holds, a fill by what is heard of the other packages and by its digests here. -/
theorem adapterCommands : Obligations.AdapterCommands := by
  refine ⟨⟨?put, ?drop, ?train⟩, ?fill, ?trained⟩
  case put =>
    intro id others m t j s _ h hq ht hp hn hc
    rw [exec_putAdapter, withStarted_of h]
    exact ⟨fun hd => by rw [putAdapter_noRoom ht hp hn hc hd], fun d st hd hs => by rw [putAdapter_refused ht hp hn hc hq hd hs],
      fun d rank p st hd hs ho => by rw [putAdapter_refusedFar ht hp hn hc hq hd hs ho],
      fun d rank hd hs ho => by rw [putAdapter_accepted ht hp hn hc hq hd hs ho]; rfl⟩
  case drop =>
    intro id m t j s _ h ht hp a
    rw [exec_dropAdapter, withStarted_of h]
    exact ⟨fun hw hd => by rw [dropAdapter_absent ht hw hd], fun hw hn => by rw [dropAdapter_accepted ht hp hw hn]⟩
  case train =>
    intro id m t j s _ h _ ht a
    rw [exec_trainAdapter, withStarted_of h]
    exact ⟨fun hn => by rw [trainAdapter_absent ht hn],
      fun w d hy hn hu hr hc hk hx hp hw hs hb hb' hd => by rw [trainAdapter_accepted ht hy hn hu hr hc hk hx hp hw hs hb hb' hd]; rfl⟩
  case fill =>
    intro t d others j s _ hj w own xs all fail hf hb
    rw [exec_fill]
    refine ⟨fun ho hv hl hk => ?here, fun ho hv => by rw [fillEnd_heard hj hf hb ho hv]; rfl,
      fun ho => by rw [ho, fillEnd_failed hj hf hb]; rfl,
      fun st ho hv => by rw [ho, fillEnd_refused hj hf hb hv]; rfl⟩
    rw [fillEnd_here hj hf hb ho hv]
    exact ⟨fun hs => by rw [fillHere_struck hl hk hs]; rfl, fun hs hh => ⟨fun hd => by rw [fillHere_verified hl hk hs hh hd]; rfl,
      fun hd => by rw [fillHere_differs hl hk hs hh hd]; rfl⟩⟩
  case trained =>
    intro t j w s _ hj hw c
    simp only [exec_trainedParameterWrite, trainedWrite_eq hj hw]
    exact ⟨rfl, rfl⟩

end Sys2Proof.Machine
end

section
/-! O53: PUT_CODE_TABLE and its withdraw flag (05_expander.md R119, R120, R129; 17_power.md R393; R129 is silent on a record that is the held one: log entry 38). -/

namespace Sys2Proof.Machine

/-! The rows, each by the chip that it settles. -/

theorem exec_putCodeTable (id : CmdId) (s : State) :
    exec (.putCodeTable (.ring id)) s = .next (s.after (withFlag s.chip (.ring id) 0x23 false (putTable s.env))) := rfl
theorem exec_withdraw (id : CmdId) (s : State) :
    exec (.withdraw (.ring id)) s = .next (s.after (withFlag s.chip (.ring id) 0x23 true withdrawTable)) := rfl

/-- A started command runs the row that its flag bit 2 picks. -/
theorem withFlag_of {s : State} {id : CmdId} {op : Nat} {m : Cmd} {on : Bool} (h : Started s id op m) (hf : bitOf m.flags 2 = on)
    (f : Cmd → Chip → Chip) : withFlag s.chip (.ring id) op on f = f m s.chip :=
  (withStarted_of h _).trans (if_pos hf)

/-- The code-table record that a PUT_CODE_TABLE names (R119). -/
def putRecord (e : Env) (c : Chip) (m : Cmd) : List Byte := rdBytes e c (arg m 0x18 8) 64

/-- The chip with a PUT_CODE_TABLE accepted and its record held for the slot; `wake`: it waits for LIT, not for the blocks of the slot (R129, R393). -/
def tableKept (c : Chip) (m : Cmd) (t : Nat) (b : List Byte) (wake : Bool) : Chip :=
  onJob (acceptCmd c m.id (cmdHandle m.id)) t (fun j => { j with wts := { j.wts with held := tset j.wts.held (arg m 0x10 1) ⟨b, some m.id, wake⟩ } })

/-- The chip with nothing held for a slot of the job. -/
def heldDropped (c : Chip) (t rel : Nat) : Chip := onJob c t (fun j => { j with wts := { j.wts with held := tdel j.wts.held rel } })

section Target
variable {s : State} {m : Cmd} {t : Nat} {j : Job} (ht : Aimed s m t j)
include ht

/-! PUT_CODE_TABLE (R119, R129, R393). -/

section Put
variable (hq : m.id.part < 16) (hb : bufferOk s.chip j.place.parts (arg m 0x18 8) 64 = true)
include hq hb

theorem putTable_invalid (hv : ctValid (putRecord s.env s.chip m) = false) : putTable s.env m s.chip = final s.chip m.id .invalidArg := by
  unfold putTable; rw [onJobTarget_of ht]
  simp only [isRelay_ring hq, hb, Bool.not_true, Bool.and_false, Bool.false_eq_true, if_false]
  exact if_pos (.inr (.inr (.inl hv)))

section Valid
variable (hp : programHere j = true) (hr : arg m 0x10 1 < j.hdr.ctSlots) (hv : ctValid (putRecord s.env s.chip m) = true)
  (hf : field (putRecord s.env s.chip m) 3 1 = 0)
include hp hr hv hf

/-- A valid record is compared with the table that is there, then with the one that is held for the slot. -/
theorem putTable_valid : putTable s.env m s.chip =
    if tableBody (curTable s.chip j (arg m 0x10 1)) = tableBody (putRecord s.env s.chip m) then doneCmd s.chip m.id .ok 0 0
    else match tfind j.wts.held (arg m 0x10 1) with
      | some h => if tableBody h.bytes = tableBody (putRecord s.env s.chip m) then doneCmd s.chip m.id .ok 0 0 else final s.chip m.id .invalidArg
      | none =>
        if tableRefs j (arg m 0x10 1) ≠ 0 then tableKept s.chip m t (putRecord s.env s.chip m) false
        else if jobLit s.chip j then doneCmd (setTable s.chip t j (arg m 0x10 1) (putRecord s.env s.chip m)) m.id .ok 0 0
        else lampReviews (tableKept s.chip m t (putRecord s.env s.chip m) true) := by
  have hpass : ¬(programHere j = false ∨ j.hdr.ctSlots ≤ arg m 0x10 1 ∨ ctValid (putRecord s.env s.chip m) = false ∨
      field (putRecord s.env s.chip m) 3 1 ≠ 0) := by simp [hp, hr, hv, hf]
  unfold putTable; rw [onJobTarget_of ht]
  simp only [isRelay_ring hq, hb, Bool.not_true, Bool.and_false, Bool.false_eq_true, if_false]
  exact if_neg hpass

theorem putTable_there (hc : tableBody (curTable s.chip j (arg m 0x10 1)) = tableBody (putRecord s.env s.chip m)) :
    putTable s.env m s.chip = doneCmd s.chip m.id .ok 0 0 := by
  rw [putTable_valid ht hq hb hp hr hv hf, if_pos hc]

variable (hc : tableBody (curTable s.chip j (arg m 0x10 1)) ≠ tableBody (putRecord s.env s.chip m))
include hc

theorem putTable_meets_held {h : HeldTable} (hh : tfind j.wts.held (arg m 0x10 1) = some h) : putTable s.env m s.chip =
    if tableBody h.bytes = tableBody (putRecord s.env s.chip m) then doneCmd s.chip m.id .ok 0 0 else final s.chip m.id .invalidArg := by
  rw [putTable_valid ht hq hb hp hr hv hf, if_neg hc, hh]

variable (hh : tfind j.wts.held (arg m 0x10 1) = none)
include hh

theorem putTable_waits (hn : tableRefs j (arg m 0x10 1) ≠ 0) :
    putTable s.env m s.chip = tableKept s.chip m t (putRecord s.env s.chip m) false := by
  rw [putTable_valid ht hq hb hp hr hv hf, if_neg hc, hh]; exact if_pos hn

variable (hn : tableRefs j (arg m 0x10 1) = 0)
include hn

theorem putTable_lit (hl : jobLit s.chip j = true) :
    putTable s.env m s.chip = doneCmd (setTable s.chip t j (arg m 0x10 1) (putRecord s.env s.chip m)) m.id .ok 0 0 := by
  rw [putTable_valid ht hq hb hp hr hv hf, if_neg hc, hh]; exact (if_neg (not_not_intro hn)).trans (if_pos hl)

theorem putTable_unlit (hl : jobLit s.chip j = false) :
    putTable s.env m s.chip = lampReviews (tableKept s.chip m t (putRecord s.env s.chip m) true) := by
  rw [putTable_valid ht hq hb hp hr hv hf, if_neg hc, hh]; exact (if_neg (not_not_intro hn)).trans (if_neg (by simp [hl]))

end Valid
end Put

/-! The withdraw flag (R129). -/

section Withdraw
variable (hp : programHere j = true) (hr : arg m 0x10 1 < j.hdr.ctSlots)
include hp hr

theorem withdrawTable_unheld (hh : tfind j.wts.held (arg m 0x10 1) = none) :
    withdrawTable m s.chip = doneCmd (heldDropped s.chip t (arg m 0x10 1)) m.id .ok 0 0 := by
  unfold withdrawTable; rw [onJobTarget_of ht]
  simp only [hh, Option.bind_none]
  exact if_neg (by simp [hp, hr])

theorem withdrawTable_cancels {h : HeldTable} {x : CmdId} (hh : tfind j.wts.held (arg m 0x10 1) = some h) (hx : h.cmd = some x) :
    withdrawTable m s.chip = doneCmd (heldDropped (final s.chip x .cancelled) t (arg m 0x10 1)) m.id .ok 0 0 := by
  unfold withdrawTable; rw [onJobTarget_of ht]
  simp only [hh, Option.bind_some, hx]
  exact if_neg (by simp [hp, hr])

end Withdraw
end Target

/-- Settles O53: a record by the first check that fails, then by the table there, the held write, the blocks of the slot and the lamps; a withdrawal by what
is held. -/
theorem codeTablesPut : Obligations.CodeTablesPut := by
  intro id m t j s _ h hq ht hp rel b hold hr
  rw [exec_putCodeTable, exec_withdraw]
  refine ⟨fun hfl hb => ?put, fun hfl => ?withdraw⟩
  case put =>
    rw [withFlag_of h hfl]
    refine ⟨fun hv => by rw [putTable_invalid ht hq hb hv], fun hv hf => ⟨fun hc => by rw [putTable_there ht hq hb hp hr hv hf hc],
      fun x hc hh => by rw [putTable_meets_held ht hq hb hp hr hv hf hc hh]; rfl, fun hc hh => ⟨fun hn => ?waits, fun hn hl => ?lit, fun hn hl => ?unlit⟩⟩⟩
    case waits => rw [putTable_waits ht hq hb hp hr hv hf hc hh hn]; rfl
    case lit => rw [putTable_lit ht hq hb hp hr hv hf hc hh hn hl]; rfl
    case unlit => rw [putTable_unlit ht hq hb hp hr hv hf hc hh hn hl]; rfl
  case withdraw =>
    rw [withFlag_of h hfl]
    exact ⟨fun hh => by rw [withdrawTable_unheld ht hp hr hh]; rfl, fun x k hh hx => by rw [withdrawTable_cancels ht hp hr hh hx]; rfl⟩

end Sys2Proof.Machine
end

section
/-! SUPPORT. Slots of a core: how a row reaches the issue of its queue, and what a head that is dropped leaves (07_matrix.md R180; 09_keeper.md R225;
10_contract.md R262). -/

namespace Sys2Proof.Machine

theorem coreNo_of {i : Nat} (h : i < 1024) : coreNo i = i := Nat.mod_eq_of_lt h

theorem arrNo_of {a : Nat} (h : a < 2) : arrNo a = a := Nat.mod_eq_of_lt h

/-! The queues' rows. -/

section Rows
variable {i a : Nat} {s : State}

theorem mSlot_eq (hi : i < 1024) (ha : a < 2) (op : Nat) (f : Env → Nat → Chip → Nat → QSlot → Chip) (e : Env) (c : Chip) :
    mSlot op f i a e c = issue e c i (mq a) op (fun c s => f e a c i s) := by
  unfold mSlot; rw [coreNo_of hi, arrNo_of ha]

theorem vSlot_eq (hi : i < 1024) (op : Nat) (f : Env → Chip → Nat → QSlot → Chip) (e : Env) (c : Chip) :
    vSlot op f i e c = issue e c i .v op (fun c s => f e c i s) := by
  unfold vSlot; rw [coreNo_of hi]

theorem bSlot_eq (hi : i < 1024) (op : Nat) (f : Chip → Nat → QSlot → Chip) (e : Env) (c : Chip) :
    bSlot op f i e c = issue e c i .b op (fun c s => f c i s) := by
  unfold bSlot; rw [coreNo_of hi]

theorem sSlot_eq (hi : i < 1024) (op : Nat) (f : Env → Chip → Nat → QSlot → Chip) (e : Env) (c : Chip) :
    sSlot op f i e c = issue e c i .s op (fun c s => f e c i s) := by
  unfold sSlot; rw [coreNo_of hi]

/-- Where no head may issue, a row of the queue leaves a quiet state as it was (R225). -/
theorem lift_issue_none {q : Queue} {op : Nat} {g : Env → Chip → Chip} {f : Chip → QSlot → Chip} (hq : s.quiet) (h : headNow s.chip i q = none)
    (hg : g s.env s.chip = issue s.env s.chip i q op f) : lift g s = .next s :=
  lift_same g s (hg.trans (issue_none h f)) hq

/-- A head of the row's opcode leaves its queue and runs its meaning (R225). -/
theorem lift_issue_of {q : Queue} {op : Nat} {sl : QSlot} {g : Env → Chip → Chip} {f : Chip → QSlot → Chip} (h : Head s i q sl op)
    (ho : op ≤ queueTop q) (hg : g s.env s.chip = issue s.env s.chip i q op f) : lift g s = .next (s.after (f (popHead s.chip i q) sl)) := by
  rw [lift_eq, hg, issue_of h ho]

end Rows

/-! Faults of a slot. -/

/-- `d` is `c` with one fault in hand: of the code `f`, of long word `lw`, and covering the attempt of the core's job (R249). -/
def Chip.FaultsOnce (c d : Chip) (f : FaultCode) (lw : Nat) : Prop :=
  ∃ r, d = { c with raised := [r] } ∧ r.code = faultNo f ∧ r.lw = lw ∧ r.covers = true

theorem faultsOnce_coreFault {c : Chip} (h : c.raised = []) (i eng lw : Nat) (f : FaultCode) (addr x y : Nat) :
    c.FaultsOnce (coreFault c i eng lw f addr x y) f lw := by
  unfold coreFault raise; rw [h]; exact ⟨_, rfl, rfl, rfl, rfl⟩

section Issue
variable {i : Nat} {q : Queue} {sl : QSlot} {s : State}

theorem popHead_raised (hq : s.quiet) : (popHead s.chip i q).raised = [] := hq.2.2

/-- A slot whose predicate is false is no fault of an absent engine; M slots have no predicate (R225, R262). -/
theorem issue_absent {op : Nat} {f : Chip → QSlot → Chip} (hq : s.quiet) (hh : headNow s.chip i q = some sl) (he : Enabled s i sl)
    (hp : enginePresent s.env s.chip i q = false) : (popHead s.chip i q).FaultsOnce (issue s.env s.chip i q op f) .engineAbsent sl.lw := by
  have hissue : issue s.env s.chip i q op f = coreFault (popHead s.chip i q) i (queueEng q) sl.lw .engineAbsent 0 0 0 := by
    unfold issue; rw [hh]; simp only [hp]; rw [he]; simp
  rw [hissue]; exact faultsOnce_coreFault (popHead_raised hq) _ _ _ _ _ _ _

theorem issue_unlisted {op : Nat} {f : Chip → QSlot → Chip} (hq : s.quiet) (hh : headNow s.chip i q = some sl)
    (hp : enginePresent s.env s.chip i q = true) (ho : queueTop q < opOf sl.w) :
    (popHead s.chip i q).FaultsOnce (issue s.env s.chip i q op f) (queueFault q) sl.lw := by
  have hissue : issue s.env s.chip i q op f = coreFault (popHead s.chip i q) i (queueEng q) sl.lw (queueFault q) 0 0 0 := by
    unfold issue; rw [hh]; simp [hp, ho]
  rw [hissue]; exact faultsOnce_coreFault (popHead_raised hq) _ _ _ _ _ _ _

/-- The queues with the NOPs that are their rows (R180, R208, R230, R235). -/
abbrev nopRows (i : Nat) : List (Queue × Instr) := [(.m0, .mnop i 0), (.m1, .mnop i 1), (.v, .vnop i), (.b, .bnop i), (.s, .snop i)]

/-- The row of the NOP of each queue issues its head and does nothing more (R180, R208, R230, R235). -/
theorem exec_nop {x : Instr} (hi : i < 1024) (h : (q, x) ∈ nopRows i) :
    exec x s = .next (s.after (issue s.env s.chip i q 0 (fun c _ => c))) := by
  have hrow {c d : Chip} (hc : c = d) : (.next (s.after c) : Host.Outcome State Fault Refusal) = .next (s.after d) := hc ▸ rfl
  simp only [List.mem_cons, Prod.mk.injEq, List.not_mem_nil, or_false] at h
  rcases h with ⟨rfl, rfl⟩ | ⟨rfl, rfl⟩ | ⟨rfl, rfl⟩ | ⟨rfl, rfl⟩ | ⟨rfl, rfl⟩
  · exact hrow (mSlot_eq hi (a := 0) (by decide) 0 _ _ _)
  · exact hrow (mSlot_eq hi (a := 1) (by decide) 0 _ _ _)
  · exact hrow (vSlot_eq hi 0 _ _ _)
  · exact hrow (bSlot_eq hi 0 _ _ _)
  · exact hrow (sSlot_eq hi 0 _ _ _)

/-- A NOP at the head only leaves its queue. -/
theorem exec_nop_of {x : Instr} (hq : s.quiet) (hi : i < 1024) (h : (q, x) ∈ nopRows i) (hh : Head s i q sl 0) :
    exec x s = .next (s.put (popHead s.chip i q)) := by
  rw [exec_nop hi h, issue_of hh (Nat.zero_le _), State.after_sameHand s _ hq (sameHand_popHead _ _ _)]

end Issue

end Sys2Proof.Machine
end

section
/-! O42: idle slots, waiting heads, unlisted opcodes and absent engines (07_matrix.md R180; 08_vector.md R208; 09_keeper.md R225, R230, R235;
10_contract.md R262). -/

namespace Sys2Proof.Machine

section Waits
variable {i a : Nat} {s : State}

/-! No row of a queue does anything while the queue's head may not issue. -/

theorem exec_mSlots_wait (hq : s.quiet) (hi : i < 1024) (ha : a < 2) (h : headNow s.chip i (mq a) = none) :
    ∀ x ∈ [Instr.mnop i a, .mload i a, .muse i a, .mouter i a, .mdrain i a, .mmerge i a], exec x s = .next s := by
  have hrow : ∀ op f, lift (mSlot op f i a) s = .next s := fun op f => lift_issue_none hq h (mSlot_eq hi ha op f _ _)
  simp only [List.forall_mem_cons]
  exact ⟨hrow 0 _, hrow 1 _, hrow 2 _, hrow 3 _, hrow 4 _, hrow 5 _, fun _ hx => nomatch hx⟩

theorem exec_vSlots_wait (hq : s.quiet) (hi : i < 1024) (h : headNow s.chip i .v = none) :
    ∀ x ∈ [Instr.vnop i, .vchain i, .vprog i, .vred i, .vperm i, .vdraw i, .vflag i, .vtest i], exec x s = .next s := by
  have hrow : ∀ op f, lift (vSlot op f i) s = .next s := fun op f => lift_issue_none hq h (vSlot_eq hi op f _ _)
  simp only [List.forall_mem_cons]
  exact ⟨hrow 0 _, hrow 1 _, hrow 2 _, hrow 3 _, hrow 4 _, hrow 5 _, hrow 6 _, hrow 7 _, fun _ hx => nomatch hx⟩

theorem exec_bSlots_wait (hq : s.quiet) (hi : i < 1024) (h : headNow s.chip i .b = none) :
    ∀ x ∈ [Instr.bnop i, .set i, .add i, .wait i, .testAndSet i, .clear i, .barrier i], exec x s = .next s := by
  have hrow : ∀ op f, lift (bSlot op f i) s = .next s := fun op f => lift_issue_none hq h (bSlot_eq hi op f _ _)
  simp only [List.forall_mem_cons]
  exact ⟨hrow 0 _, hrow 1 _, hrow 2 _, hrow 3 _, hrow 4 _, hrow 5 _, hrow 6 _, fun _ hx => nomatch hx⟩

/-- An SMOVE may wait for the move unit besides (R264). -/
theorem exec_sSlots_wait (hq : s.quiet) (hi : i < 1024) (h : headNow s.chip i .s = none) :
    ∀ x ∈ [Instr.snop i, .sbind i, .sshelf i, .smove i], exec x s = .next s := by
  have hslot : ∀ op f, sSlot op f i s.env s.chip = s.chip := fun op f => (sSlot_eq hi op f _ _).trans (issue_none h _)
  have hrow : ∀ op f, lift (sSlot op f i) s = .next s := fun op f => lift_same _ _ (hslot op f) hq
  have hmove : exec (.smove i) s = .next s := by
    refine lift_same (fun e c => if needsUnit c (coreNo i) && decide (c.now < (core c (coreNo i)).moveReady) then c else sSlot 3 smove i e c) s ?_ hq
    rw [hslot]; exact ite_self _
  simp only [List.forall_mem_cons]
  exact ⟨hrow 0 _, hrow 1 _, hrow 2 _, hmove, fun _ hx => nomatch hx⟩

end Waits

/-- The NOP of the M queue of array `a`. -/
theorem mnop_mem {i a : Nat} (ha : a < 2) : (mq a, Instr.mnop i a) ∈ nopRows i := by
  obtain rfl | rfl : a = 0 ∨ a = 1 := by omega
  · exact List.mem_cons_self
  · exact List.mem_cons_of_mem _ List.mem_cons_self

/-- Settles O42: a NOP leaves its queue; a row with no head to issue is `issue_none`; a bad head is one fault. -/
theorem idleAndBadSlots : Obligations.IdleAndBadSlots := by
  refine ⟨fun i a sl s hq hi ha => ⟨exec_nop_of hq hi (mnop_mem ha), exec_nop_of hq hi (by simp), exec_nop_of hq hi (by simp), exec_nop_of hq hi (by simp),
    exec_mSlots_wait hq hi ha, exec_vSlots_wait hq hi, exec_bSlots_wait hq hi, exec_sSlots_wait hq hi⟩,
    fun i q sl x s hq hi hh he hx => ⟨fun hp => ?_, fun hp ho => ?_⟩⟩
  · obtain ⟨r, hc, hcode, hlw, hcov⟩ := issue_absent (op := 0) (f := fun c _ => c) hq hh he hp
    exact ⟨_, r, exec_nop hi hx, hc, hcode, hlw, hcov⟩
  · obtain ⟨r, hc, hcode, hlw, hcov⟩ := issue_unlisted (op := 0) (f := fun c _ => c) hq hh hp ho
    exact ⟨_, r, exec_nop hi hx, hc, hcode, hlw, hcov⟩

end Sys2Proof.Machine
end

section
/-! SUPPORT. M slots that issue: the array and the slots in flight of a core after each operation of an issue (07_matrix.md R159-R165, R175,
R180-R182; 09_keeper.md R225, R233, R234). -/

namespace Sys2Proof.Machine

/-! The array of a core. -/

@[simp] theorem arrOf_setArr (k : Core) (a : Nat) (m : MArray) : arrOf (setArr k a m) a = m := by
  unfold arrOf setArr; split <;> rfl

@[simp] theorem setArr_flights (k : Core) (a : Nat) (m : MArray) : (setArr k a m).flights = k.flights := by
  unfold setArr; split <;> rfl

theorem core_onArr (c : Chip) (i a : Nat) (f : MArray → MArray) : core (onArr c i a f) i = setArr (core c i) a (f (arrOf (core c i) a)) :=
  (core_onCore c i i _).trans (if_pos rfl)

@[simp] theorem arrOf_onArr (c : Chip) (i a : Nat) (f : MArray → MArray) : arrOf (core (onArr c i a f) i) a = f (arrOf (core c i) a) := by
  rw [core_onArr, arrOf_setArr]

theorem setReady_mq (k : Core) (a t : Nat) : setReady k (mq a) t = setArr k a { arrOf k a with ready := t } := by
  unfold mq setArr arrOf
  by_cases ha : a = 0
  · rw [if_pos ha, if_pos ha, if_pos ha]; rfl
  · rw [if_neg ha, if_neg ha, if_neg ha]; rfl

/-! What an issue leaves as it was. -/

/-- The arrays of core `i` and its slots in flight are the same, at the same cycle, and no write is added. -/
structure Chip.SameSlots (i : Nat) (c d : Chip) : Prop where
  arr : ∀ a, arrOf (core d i) a = arrOf (core c i) a
  flights : (core d i).flights = (core c i).flights
  now : d.now = c.now
  writes : d.writes = c.writes

section Same
variable {i : Nat} {c d e : Chip}

theorem Chip.SameSlots.refl (i : Nat) (c : Chip) : c.SameSlots i c := ⟨fun _ => rfl, rfl, rfl, rfl⟩

theorem Chip.SameSlots.trans (h : c.SameSlots i d) (k : d.SameSlots i e) : c.SameSlots i e :=
  ⟨fun a => (k.arr a).trans (h.arr a), k.flights.trans h.flights, k.now.trans h.now, k.writes.trans h.writes⟩

theorem Chip.SameSlots.ite {p : Prop} [Decidable p] (h : c.SameSlots i d) (k : c.SameSlots i e) : c.SameSlots i (if p then d else e) := by
  split
  · exact h
  · exact k

theorem sameSlots_onCore (c : Chip) (i : Nat) {f : Core → Core} (h0 : ∀ k, (f k).a0 = k.a0) (h1 : ∀ k, (f k).a1 = k.a1)
    (hf : ∀ k, (f k).flights = k.flights) : c.SameSlots i (onCore c i f) := by
  have hcore : core (onCore c i f) i = f (core c i) := (core_onCore c i i f).trans (if_pos rfl)
  refine ⟨fun a => ?_, ?_, rfl, rfl⟩
  · rw [hcore]; unfold arrOf; rw [h0, h1]
  · rw [hcore, hf]

/-- The cursors of streams advance (R234). -/
theorem sameSlots_advance (c : Chip) (i sid w : Nat) (mx : Option Nat) (n : Nat) : c.SameSlots i (advance c i sid w mx n) := by
  unfold advance
  split
  · exact .refl i c
  · refine sameSlots_onCore c i (fun k => ?_) (fun k => ?_) (fun k => ?_) <;> simp only [] <;> split <;> rfl

/-- The expander is booked (R122). -/
theorem sameSlots_expandPlan (e : Env) (c : Chip) (j : Job) (i fmt n : Nat) (b : Bind) : c.SameSlots i (expandPlan e c j i fmt n b).2.2 :=
  sameSlots_onCore c i (fun _ => rfl) (fun _ => rfl) (fun _ => rfl)

end Same

/-! What an issue brings. -/

/-- One slot more is in flight at core `i`, and its array `a` is `m` now; no write is added. -/
structure Chip.Launches (i a : Nat) (c d : Chip) (m : MArray) : Prop where
  arr : arrOf (core d i) a = m
  flights : (core d i).flights.length = (core c i).flights.length + 1
  now : d.now = c.now
  writes : d.writes = c.writes

section Launch
variable {i a : Nat} {c d e : Chip} {m : MArray}

theorem launches_takeOff (a eng : Nat) (s : QSlot) (ops : List OpStr) (outs : Nat) (todo : List Todo) (carry : List (List Nat)) (tile : Nat)
    (h : c.SameSlots i d) : c.Launches i a (takeOff d i eng s ops outs todo carry tile) (arrOf (core c i) a) := by
  have hcore : core (takeOff d i eng s ops outs todo carry tile) i = _ := (core_onCore d i i _).trans (if_pos rfl)
  refine ⟨?_, ?_, h.now, h.writes⟩
  · rw [hcore]; exact h.arr a
  · rw [hcore, ← h.flights]; exact List.length_append

theorem Chip.Launches.onArr (h : c.Launches i a d m) (f : MArray → MArray) : c.Launches i a (onArr d i a f) (f m) := by
  refine ⟨?_, ?_, h.now, h.writes⟩
  · rw [arrOf_onArr, h.arr]
  · rw [core_onArr, setArr_flights, h.flights]

theorem Chip.Launches.same (h : c.Launches i a d m) (k : d.SameSlots i e) : c.Launches i a e m :=
  ⟨(k.arr a).trans h.arr, by rw [k.flights, h.flights], k.now.trans h.now, k.writes.trans h.writes⟩

/-- The array is occupied (R160). -/
theorem Chip.Launches.occupy (h : c.Launches i a d m) (n : Nat) : c.Launches i a (Machine.occupy d i (mq a) n) { m with ready := c.now + max n 1 } := by
  have hready : Machine.occupy d i (mq a) n = Machine.onArr d i a (fun m => { m with ready := d.now + max n 1 }) := by
    unfold Machine.occupy; simp only [setReady_mq]; rfl
  rw [hready, ← h.now]; exact h.onArr _

end Launch

/-! The head that has left its queue. -/

section Pop
variable {s : State} {i a : Nat}

theorem core_popHead (c : Chip) (i : Nat) (q : Queue) : core (popHead c i q) i =
    let k := countIssue (setNext (setQueue (core c i) q (queueOf (core c i) q).tail) q (c.now + 1)) (queueEng q)
    { k with retireAt := max k.retireAt c.now } := (core_onCore c i i _).trans (if_pos rfl)

/-- The next slot of the queue issues no earlier than the next cycle; else the array is as it was (R225). -/
theorem arrOf_popHead (c : Chip) (i a : Nat) :
    arrOf (core (popHead c i (mq a)) i) a = { arrOf (core c i) a with next := max (arrOf (core c i) a).next (c.now + 1) } := by
  rw [core_popHead]; unfold mq arrOf
  split <;> rfl

theorem queueTop_mq (a : Nat) : queueTop (mq a) = 5 := by unfold mq; split <;> rfl

/-- A head of an M queue runs the meaning of its opcode (R180). -/
theorem lift_mSlot_of {sl : QSlot} {op : Nat} (hi : i < 1024) (ha : a < 2) (h : Head s i (mq a) sl op) (ho : op ≤ 5)
    (f : Env → Nat → Chip → Nat → QSlot → Chip) : lift (mSlot op f i a) s = .next (s.after (f s.env a (popHead s.chip i (mq a)) i sl)) :=
  lift_issue_of h (ho.trans_eq (queueTop_mq a).symm) (mSlot_eq hi ha op f _ _)

theorem flights_popHead (c : Chip) (i : Nat) (q : Queue) : (core (popHead c i q) i).flights = (core c i).flights := by
  rw [core_popHead]; cases q <;> rfl

theorem nextId_popHead (c : Chip) (i : Nat) (q : Queue) : (core (popHead c i q) i).nextId = (core c i).nextId := by
  rw [core_popHead]; cases q <;> rfl

/-- What is launched by a head that has left its queue. -/
theorem Chip.Launches.unpop {c d : Chip} {m : MArray} {q : Queue} (h : (popHead c i q).Launches i a d m) : c.Launches i a d m :=
  ⟨h.arr, by rw [h.flights, flights_popHead], h.now, h.writes⟩

/-- The first of a slot's streams that it cannot claim (R233, R234). -/
def claimStopper (k : Core) (now : Nat) (sids : List Nat) : Option Nat :=
  let all := claimed k now sids
  let buffer := k.streams.any (fun p => busy k p.1 && transposed k now p.1)
  all.zipIdx.findSome? (fun s =>
    if busy k s.1 || (transposed k now s.1 && (buffer || (all.take s.2).any (transposed k now))) then some s.1 else none)

theorem claim_eq (c : Chip) (i eng lw n : Nat) (sids : List Nat) : claim c i eng lw n sids =
    ((claimStopper (core c i) c.now sids).map (fun x => (false, coreFault c i eng lw .streamBusy 0 x n))).getD (true, c) := by
  unfold claim claimStopper
  simp only []
  split
  · next h => rw [h]; rfl
  · next h => rw [h]; rfl

theorem claimStopper_congr {k k' : Core} (hs : k'.streams = k.streams) (hf : k'.flights = k.flights) (hm : k'.moves = k.moves) (now : Nat) (sids : List Nat) :
    claimStopper k' now sids = claimStopper k now sids := by
  unfold claimStopper claimed transposed busy streamOf; rw [hs, hf, hm]

theorem claimStopper_popHead (c : Chip) (i now : Nat) (q : Queue) (sids : List Nat) :
    claimStopper (core (popHead c i q) i) now sids = claimStopper (core c i) now sids := by
  rw [core_popHead]
  refine claimStopper_congr ?_ ?_ ?_ now sids <;> cases q <;> rfl

/-- Streams that nothing holds are claimed by the head that has left its queue. -/
theorem claim_popHead {n : Nat} {sids : List Nat} (h : Claimed s i n sids) (q : Queue) (eng lw m : Nat) :
    claim (popHead s.chip i q) i eng lw m sids = (true, popHead s.chip i q) := by
  have hnone : claimStopper (core s.chip i) s.chip.now sids = none := by
    unfold Claimed at h; rw [claim_eq] at h
    cases hx : claimStopper (core s.chip i) s.chip.now sids with
    | none => rfl
    | some x => rw [hx] at h; exact absurd h Bool.false_ne_true
  rw [claim_eq, claimStopper_popHead, show (popHead s.chip i q).now = s.chip.now from rfl, hnone]; rfl

end Pop

end Sys2Proof.Machine
end

section
/-! O43: MLOAD, MUSE and MOUTER (07_matrix.md R159-R165, R174, R175). -/

namespace Sys2Proof.Machine

/-! Loads (R163-R165). -/

/-- Group `g` of a load is in hand after `t g`, and after the group before it. -/
def handStep (t : Nat → Nat) (acc : List Nat × Nat) (g : Nat) : List Nat × Nat :=
  (acc.1 ++ [max (t g + 1) (acc.2 + 1)], max (t g + 1) (acc.2 + 1))

/-- A list of times that rises, none later than the last group's, rises still after each group. -/
theorem foldl_handStep_rising (t : Nat → Nat) (gs : List Nat) {acc : List Nat × Nat} (hp : acc.1.Pairwise (· < ·)) (hv : ∀ x ∈ acc.1, x ≤ acc.2) :
    (gs.foldl (handStep t) acc).1.length = acc.1.length + gs.length ∧ (gs.foldl (handStep t) acc).1.Pairwise (· < ·) := by
  induction gs generalizing acc with
  | nil => exact ⟨rfl, hp⟩
  | cons g gs ih =>
    have hlt : ∀ x ∈ acc.1, x < max (t g + 1) (acc.2 + 1) := fun x hx => by have := hv x hx; omega
    obtain ⟨hlen, hrise⟩ := ih (acc := handStep t acc g)
      (List.pairwise_append.mpr ⟨hp, List.pairwise_singleton _ _, fun x hx y hy => by rw [List.mem_singleton.mp hy]; exact hlt x hx⟩)
      (fun x hx => by
        rcases List.mem_append.mp hx with hx | hx
        · exact Nat.le_of_lt (hlt x hx)
        · exact Nat.le_of_eq (List.mem_singleton.mp hx))
    refine ⟨hlen.trans ?_, hrise⟩
    show (acc.1 ++ [_]).length + gs.length = acc.1.length + (gs.length + 1)
    rw [List.length_append, List.length_singleton]; omega

/-- A load's six groups come in hand one after another (R165). -/
theorem handTimes_rising (fmt : Nat) (runs : List (Nat × Nat × Nat)) : (handTimes fmt runs).length = 6 ∧ (handTimes fmt runs).Pairwise (· < ·) := by
  have hfold : ∃ t, handTimes fmt runs = ((List.range 6).foldl (handStep t) ([], 0)).1 :=
    ⟨fun g =>
      match runs.find? (fun r => decide (r.1 ≤ groupNeed fmt g - 1) && decide (groupNeed fmt g - 1 < r.1 + r.2.1)) with
      | some r => r.2.2
      | none => 0, rfl⟩
  obtain ⟨t, ht⟩ := hfold
  rw [ht]
  exact foldl_handStep_rising t (List.range 6) List.Pairwise.nil (fun x hx => nomatch hx)

section Load
variable {e : Env} {a i : Nat} {c : Chip} {sl : QSlot} {j : Job}

/-- The fields of an MLOAD are valid (R180). -/
abbrev LoadOk (w : Dword) : Prop := sf w 57 54 < 14 ∧ sf w 53 52 ≠ 3 ∧ (sf w 53 52 = 1 → sf w 57 54 < 2)

theorem loadOk_iff (w : Dword) : LoadOk w ↔ ¬(14 ≤ sf w 57 54 ∨ sf w 53 52 = 3 ∨ (sf w 53 52 = 1 ∧ 2 ≤ sf w 57 54)) := by
  unfold LoadOk; omega

theorem mload_invalid (h : ¬LoadOk sl.w) : mload e a c i sl = coreFault c i a sl.lw .mEncoding 0 0 0 := by
  unfold mload
  exact if_pos (Decidable.not_not.mp (mt (loadOk_iff _).mpr h))

theorem mload_full (h : LoadOk sl.w) (hs : (arrOf (core c i) a).shadow ≠ none) : mload e a c i sl = coreFault c i a sl.lw .shadowFull 0 0 0 := by
  unfold mload
  exact (if_neg ((loadOk_iff _).mp h)).trans (if_pos (Option.isSome_iff_ne_none.mpr hs))

/-- An MLOAD with a free shadow puts a tile of its format there and its load wave behind the waves before it. -/
theorem mload_launches (h : LoadOk sl.w) (hs : (arrOf (core c i) a).shadow = none) (hj : coreJob c i = some j)
    (hc : ∀ eng lw m, claim c i eng lw m (if sf sl.w 53 52 = 2 then [sf sl.w 51 47, sf sl.w 46 42] else [sf sl.w 51 47]) = (true, c)) :
    ∃ hand, c.Launches i a (mload e a c i sl) { arrOf (core c i) a with
        shadow := some (core c i).nextId, tiles := tset (arrOf (core c i) a).tiles (core c i).nextId ⟨sf sl.w 57 54, [], [], [], -128⟩,
        loads := (arrOf (core c i) a).loads ++ [⟨(core c i).nextId, hand, 0, 0⟩] } ∧
      (sf sl.w 53 52 ≠ 1 → hand.length = 6 ∧ hand.Pairwise (· < ·)) := by
  unfold mload
  extract_lets w fmt src ls ts arr k b w1 n id os f t0
  rw [if_neg ((loadOk_iff _).mp h), if_neg (by simp [arr, hs])]
  have hk : k = (true, c) := hc _ _ _
  rw [hk, hj]
  simp -zeta only [Bool.not_true, Bool.false_eq_true, if_false]
  extract_lets x lines runs lat r done c1
  have hr : c.SameSlots i r.2.2 := by
    unfold r; split
    · exact sameSlots_expandPlan e c j i fmt 1536 b
    · exact .ite (sameSlots_onCore c i (fun _ => rfl) (fun _ => rfl) (fun _ => rfl)) (.refl i c)
  have h1 : c.SameSlots i c1 :=
    .ite ((hr.trans (sameSlots_advance _ _ _ _ _ _)).trans (sameSlots_advance _ _ _ _ _ _)) (hr.trans (sameSlots_advance _ _ _ _ _ _))
  refine ⟨r.2.1, (launches_takeOff a _ _ _ _ _ _ _ h1).onArr _, fun hsrc => ?_⟩
  have hrising : r.2.1 = handTimes fmt (runs.zipIdx.map (fun x => (x.1.1, x.1.2, t0 + x.2 + lat))) := by unfold r; rw [if_neg hsrc]
  rw [hrising]; exact handTimes_rising _ _

end Load

/-! Uses (R159-R163, R174). -/

section Use
variable {e : Env} {a i : Nat} {c : Chip} {sl : QSlot}

/-- The tile that a MUSE names: the shadow with SWAP, else the active one (R163). -/
def usedTile (m : MArray) (w : Dword) : Option Nat := if sf w 50 50 = 1 then m.shadow else m.active

/-- Its format. -/
def usedFmt (m : MArray) (w : Dword) : Nat := match (usedTile m w).bind (tfind m.tiles) with | some t => t.fmt | none => 0

theorem usedFmt_of {m : MArray} {w : Dword} {t : Nat} {tile : Tile} (ht : usedTile m w = some t) (h : tfind m.tiles t = some tile) :
    usedFmt m w = tile.fmt := by
  unfold usedFmt; rw [ht, Option.bind_some, h]

/-- The array with the shadow as its active tile, where the use swaps (R163). -/
def swapped (m : MArray) (w : Dword) : MArray := if sf w 50 50 = 1 then { m with active := m.shadow, shadow := none } else m

theorem swapped_spec (m : MArray) (w : Dword) : (swapped m w).active = usedTile m w ∧ (swapped m w).shadow = (if sf w 50 50 = 1 then none else m.shadow) ∧
    (swapped m w).acc = m.acc ∧ (swapped m w).wave = m.wave := by
  unfold swapped usedTile
  by_cases h : sf w 50 50 = 1
  · simp only [if_pos h, and_self]
  · simp only [if_neg h, and_self]

/-- Streams that a MUSE claims (R163, R234). -/
abbrev useStreams (w : Dword) : List Nat :=
  [sf w 31 27, sf w 24 20] ++ (if sf w 47 47 = 1 then [sf w 19 15] else []) ++ (if sf w 47 47 = 1 ∧ sf w 45 45 = 1 then [sf w 14 10] else [])

/-- The fields of a MUSE on a tile of format `fmt` are valid, and the datapath of transposed reading is there where it reads so (R174, R176, R180). -/
structure UseOk (e : Env) (c : Chip) (i fmt : Nat) (w : Dword) : Prop where
  format : sf w 57 54 < 14
  source : sf w 26 25 ≠ 3
  output : sf w 47 47 = 1 → sf w 53 51 ≠ 7
  trans : sf w 49 49 = 1 → pathAbsent e c i 4 = false ∧ cellQ fmt ≠ 2
  count : sf w 38 32 ≤ 64

theorem UseOk.path {fmt : Nat} {w : Dword} (h : UseOk e c i fmt w) : ¬((sf w 49 49 == 1) && pathAbsent e c i 4) = true := by
  rw [Bool.and_eq_true, beq_iff_eq]
  rintro ⟨ht, hp⟩
  rw [(h.trans ht).1] at hp; exact Bool.false_ne_true hp

theorem UseOk.fields {fmt : Nat} {w : Dword} (h : UseOk e c i fmt w) : ¬(14 ≤ sf w 57 54 ∨ sf w 26 25 = 3 ∨ 65 ≤ sf w 38 32 ∨
    ((sf w 47 47 == 1) = true ∧ sf w 53 51 = 7) ∨ ((sf w 49 49 == 1) = true ∧ cellQ fmt = 2)) := by
  obtain ⟨hformat, hsource, houtput, htrans, hcount⟩ := h
  simp only [beq_iff_eq]
  rintro (h | h | h | ⟨h, ho⟩ | ⟨h, hq⟩)
  · omega
  · exact hsource h
  · omega
  · exact houtput h ho
  · exact (htrans h).2 hq

/-- A MUSE of no vectors only leaves its queue (R181). -/
theorem muse_zero (h : UseOk e c i (usedFmt (arrOf (core c i) a) sl.w) sl.w) (hn : sf sl.w 38 32 = 0) : muse e a c i sl = c := by
  unfold muse
  exact (if_neg h.path).trans ((if_neg h.fields).trans (if_pos hn))

/-- A MUSE that is valid enters its vectors into the wave two cycles from now, behind those there; with SWAP the shadow is the active tile (R160, R163). -/
theorem muse_launches {j : Job} {t : Nat} (hj : coreJob c i = some j) (ht : usedTile (arrOf (core c i) a) sl.w = some t)
    (h : UseOk e c i (usedFmt (arrOf (core c i) a) sl.w) sl.w) (hn : 0 < sf sl.w 38 32)
    (hc : ∀ eng lw m, claim c i eng lw m (useStreams sl.w) = (true, c)) :
    c.Launches i a (muse e a c i sl) (enterWave (swapped (arrOf (core c i) a) sl.w) (core c i).nextId (c.now + 2)
      (useCycle (cellQ (usedFmt (arrOf (core c i) a) sl.w)) (widest (usedFmt (arrOf (core c i) a) sl.w) (sf sl.w 57 54))) (sf sl.w 38 32)) := by
  unfold muse
  extract_lets w afmt ofmt swap trans fin fpl n fs fsrc ts os ps arr tid tfmt sids k q len fmt mx kk lanes ow xs tg tags b id
  have hfields : ¬(14 ≤ afmt ∨ fsrc = 3 ∨ 65 ≤ n ∨ (fin = true ∧ ofmt = 7) ∨ (trans = true ∧ cellQ tfmt = 2)) := h.fields
  rw [if_neg h.path, if_neg hfields, if_neg (Nat.ne_of_gt hn), show tid = some t from ht, hj]
  have hk : k = (true, c) := by
    unfold k sids fin fpl
    simp only [Bool.and_eq_true, beq_iff_eq]
    exact hc _ _ _
  rw [hk]
  simp -zeta only [Bool.not_true, Bool.false_eq_true, if_false]
  extract_lets x feed c1 c2 c3 c4
  have hfeed : c.SameSlots i feed.2.2 := by
    unfold feed; split
    · exact sameSlots_expandPlan e c j i fmt (n * len) b
    · split <;> exact .refl i c
  have h2 : c.Launches i a c2 _ := (launches_takeOff a _ _ _ _ _ _ _ hfeed).onArr _
  have h3 : c2.SameSlots i c3 := (sameSlots_advance _ _ _ _ _ _).trans (sameSlots_advance _ _ _ _ _ _)
  have h4 : c3.SameSlots i c4 := sameSlots_advance _ _ _ _ _ _
  exact h2.same (.ite (h3.trans (.ite (h4.trans (sameSlots_advance _ _ _ _ _ _)) h4)) h3)

end Use

/-! Outer products (R175). -/

section Outer
variable {e : Env} {a i : Nat} {c : Chip} {sl : QSlot}

/-- The fields of an MOUTER are valid, and the backward datapath is there (R175, R176, R180). -/
abbrev OuterOk (e : Env) (c : Chip) (i : Nat) (w : Dword) : Prop :=
  pathAbsent e c i 5 = false ∧ sf w 57 54 < 14 ∧ sf w 53 50 < 14 ∧ sf w 48 42 ≤ 64

theorem mouter_of (h : OuterOk e c i sl.w) : ¬pathAbsent e c i 5 = true ∧ ¬(14 ≤ sf sl.w 57 54 ∨ 14 ≤ sf sl.w 53 50 ∨ 65 ≤ sf sl.w 48 42) := by
  obtain ⟨hp, _, _, _⟩ := h
  exact ⟨by rw [hp]; exact Bool.false_ne_true, by omega⟩

theorem mouter_zero (h : OuterOk e c i sl.w) (hn : sf sl.w 48 42 = 0) : mouter e a c i sl = c := by
  obtain ⟨hpath, hfields⟩ := mouter_of h
  unfold mouter
  exact (if_neg hpath).trans ((if_neg hfields).trans (if_pos hn))

theorem mouter_launches (h : OuterOk e c i sl.w) (hn : 0 < sf sl.w 48 42)
    (hc : ∀ eng lw m, claim c i eng lw m [sf sl.w 41 37, sf sl.w 36 32, sf sl.w 31 27] = (true, c)) :
    c.Launches i a (mouter e a c i sl) (enterWave (arrOf (core c i) a) (core c i).nextId (c.now + 2)
      (if 8 < widest (sf sl.w 57 54) (sf sl.w 53 50) then 2 else 1) (sf sl.w 48 42)) := by
  obtain ⟨hpath, hfields⟩ := mouter_of h
  unfold mouter
  extract_lets w af df n fs cs ts k mx kk xs acts id c1 c2
  rw [if_neg hpath, if_neg hfields, if_neg (Nat.ne_of_gt hn), show k = (true, c) from hc _ _ _]
  simp -zeta only [Bool.not_true, Bool.false_eq_true, if_false]
  have h2 : c.Launches i a c2 _ := (launches_takeOff a _ _ _ _ _ _ _ (.refl i c)).onArr _
  exact h2.same (((sameSlots_advance _ _ _ _ _ _).trans (sameSlots_advance _ _ _ _ _ _)).trans (sameSlots_advance _ _ _ _ _ _))

end Outer

/-- Vectors that enter the wave of an array stand behind those there, and occupy it (R160). -/
theorem enterWave_wave (m : MArray) (id now kk n : Nat) :
    (enterWave m id (now + 2) kk n).wave.length = m.wave.length + n ∧ (enterWave m id (now + 2) kk n).ready = now + n * kk := by
  refine ⟨?_, ?_⟩
  · show (m.wave ++ List.map _ (List.range n)).length = _
    rw [List.length_append, List.length_map, List.length_range]
  · rfl

section Rows
variable {s : State} {i a : Nat} {sl : QSlot}

theorem mload_row (hi : i < 1024) (ha : a < 2) (h : Head s i (mq a) sl 1) :
    exec (.mload i a) s = .next (s.after (mload s.env a (popHead s.chip i (mq a)) i sl)) :=
  lift_mSlot_of hi ha h (by decide) mload

theorem muse_row (hi : i < 1024) (ha : a < 2) (h : Head s i (mq a) sl 2) :
    exec (.muse i a) s = .next (s.after (muse s.env a (popHead s.chip i (mq a)) i sl)) :=
  lift_mSlot_of hi ha h (by decide) muse

theorem mouter_row (hi : i < 1024) (ha : a < 2) (h : Head s i (mq a) sl 3) :
    exec (.mouter i a) s = .next (s.after (mouter s.env a (popHead s.chip i (mq a)) i sl)) :=
  lift_mSlot_of hi ha h (by decide) mouter

/-- A MUSE names a tile of the same format once its slot has left the queue. -/
theorem usedFmt_popHead (c : Chip) (w : Dword) : usedFmt (arrOf (core (popHead c i (mq a)) i) a) w = usedFmt (arrOf (core c i) a) w := by
  rw [arrOf_popHead]; rfl

end Rows

/-- Settles O43: each row reaches its meaning, which faults by its fields or launches its slot. -/
theorem matrixLoadsAndUses : Obligations.MatrixLoadsAndUses := by
  refine ⟨fun i a sl j s hq hi ha hh hj => ⟨fun hf hs hm hfree hc => ?_, fun hf hs hm hfull => ?_, fun hbad => ?_⟩,
    fun i a sl s hq hi ha => ⟨?_, ?_⟩⟩
  · have hshadow : (arrOf (core (popHead s.chip i (mq a)) i) a).shadow = none := by rw [arrOf_popHead]; exact hfree
    obtain ⟨hand, hl, hrise⟩ := mload_launches (e := s.env) ⟨hf, hs, hm⟩ hshadow hj (claim_popHead hc _)
    have hl := hl.unpop
    rw [arrOf_popHead, nextId_popHead] at hl
    exact ⟨_, _, hand, mload_row hi ha hh, by rw [hl.arr], by rw [hl.arr, tfind_tset, if_pos rfl], rfl, by rw [hl.arr], hrise, by rw [hl.arr],
      by rw [hl.arr], hl.flights, hl.writes.trans hq.1⟩
  · have hshadow : (arrOf (core (popHead s.chip i (mq a)) i) a).shadow ≠ none := by rw [arrOf_popHead]; exact hfull
    obtain ⟨r, hr, hcode, _⟩ := faultsOnce_coreFault (popHead_raised (i := i) (q := mq a) hq) i a sl.lw .shadowFull 0 0 0
    exact ⟨_, r, mload_row hi ha hh, (mload_full ⟨hf, hs, hm⟩ hshadow).trans hr, hcode⟩
  · have hfields : ¬LoadOk sl.w := fun h => (loadOk_iff _).mp h hbad
    obtain ⟨r, hr, hcode, _⟩ := faultsOnce_coreFault (popHead_raised (i := i) (q := mq a) hq) i a sl.lw .mEncoding 0 0 0
    exact ⟨_, r, mload_row hi ha hh, (mload_invalid hfields).trans hr, hcode⟩
  · intro k swap trans fin n j t tile hh hj ht htile hf hsrc hfin htrans hn hmax hc
    have hfmt : usedFmt k sl.w = tile.fmt := usedFmt_of ht htile
    have hok : UseOk s.env (popHead s.chip i (mq a)) i (usedFmt (arrOf (core (popHead s.chip i (mq a)) i) a) sl.w) sl.w := by
      rw [usedFmt_popHead, hfmt]; exact ⟨hf, hsrc, hfin, htrans, hmax⟩
    have hused : usedTile (arrOf (core (popHead s.chip i (mq a)) i) a) sl.w = some t := by rw [arrOf_popHead]; exact ht
    have hl := (muse_launches (c := popHead s.chip i (mq a)) hj hused hok hn (claim_popHead hc _)).unpop
    rw [usedFmt_popHead, hfmt, arrOf_popHead] at hl
    obtain ⟨hactive, hshadow, hacc, hwave⟩ := swapped_spec { k with next := max k.next (s.chip.now + 1) } sl.w
    obtain ⟨hlen, hready⟩ := enterWave_wave (swapped { k with next := max k.next (s.chip.now + 1) } sl.w) (core (popHead s.chip i (mq a)) i).nextId
      s.chip.now (useCycle (cellQ tile.fmt) (widest tile.fmt (sf sl.w 57 54))) n
    refine ⟨_, muse_row hi ha hh, ?_, ?_, ?_, ?_, ?_, hl.flights, hl.writes.trans hq.1⟩
    all_goals rw [hl.arr]
    · exact hlen.trans (by rw [hwave])
    · exact hready
    · exact hactive.trans ht
    · exact hshadow
    · exact hacc
  · intro k n hh hp hf hd hn hmax hc
    have hl := (mouter_launches (a := a) (c := popHead s.chip i (mq a)) ⟨hp, hf, hd, hmax⟩ hn (claim_popHead hc _)).unpop
    rw [arrOf_popHead] at hl
    obtain ⟨hwave, hready⟩ := enterWave_wave k (core (popHead s.chip i (mq a)) i).nextId s.chip.now
      (if 8 < widest (sf sl.w 57 54) (sf sl.w 53 50) then 2 else 1) n
    exact ⟨_, mouter_row hi ha hh, by rw [hl.arr]; exact hwave, by rw [hl.arr]; exact hready, by rw [hl.arr]; rfl,
      by rw [hl.arr]; rfl, hl.flights, hl.writes.trans hq.1⟩

end Sys2Proof.Machine
end

section
/-! SUPPORT. A cycle in which nothing but cores is at work, and what happens at a core beside its arrays (02_beacon.md R44, R47;
03_memory.md R63-R71; 07_matrix.md R161; log entry 1). -/

namespace Sys2Proof.Machine

/-! Chips on which only cores are at work. -/

/-- No write is in hand, no buoy operation and no fall of a barrier is to come, no vote is held, and every core that has ended has said so. -/
structure Chip.CoresAlone (c : Chip) : Prop where
  writes : c.writes = []
  coming : c.buoyq = []
  falling : ∀ b ∈ c.bars, b.2.fall = none
  said : ∀ p ∈ c.cores, p.2.ended = true → p.2.doneSaid = true
  votes : ∀ q ∈ c.jobs, q.2.ticks.votes = []

theorem State.onlyBusy.coresAlone {s : State} {l : List Nat} (hb : s.onlyBusy l) (hq : s.quiet) (hs : s.syncStill) : s.chip.CoresAlone := by
  obtain ⟨_, _, _, hcores, hvotes⟩ := hb
  exact ⟨hq.1, hs.1, hs.2, fun p hp => (hcores p hp).2.1, hvotes⟩

/-- The cores that are busy have their cycle; then nothing follows but the release of held cores and the turn of the clock. -/
theorem cycle_cores {s : State} {l : List Nat} {d : Chip} (hb : s.onlyBusy l) (hd : each l s.chip (coreCycle s.env) = d) (hk : d.CoresAlone) :
    cycle s.env s.chip = { barsFree d with now := d.now + 1 } := by
  obtain ⟨_, ⟨hheld, hslots⟩, hbusy, hcores, _⟩ := hb
  obtain ⟨_, hcoming, hfalling, hsaid, hvotes⟩ := hk
  have hfifo : s.chip.cores.filter (fun p => p.2.fifo.any (fun w => decide (w.arrive ≤ s.chip.now) && !w.checked)) = [] :=
    List.filter_eq_nil_iff.mpr fun p hp => by
      obtain ⟨hchecked, _, _⟩ := hcores p hp
      simpa using fun w hw _ => hchecked w hw
  have hend : d.cores.filter (fun p => p.2.ended && !p.2.doneSaid) = [] :=
    List.filter_eq_nil_iff.mpr fun p hp => by simpa using hsaid p hp
  have hturn : syncTurn d = barsFree d := by
    refine syncTurn_noFall ?_ hfalling
    rw [buoyPick_none hcoming, each_nil, hcoming, List.filter_nil, ← hcoming]
  have hjobs : (barsFree d).jobs = d.jobs := (coresOnly_barsFree d).on Chip.jobs
  have hdecide : (barsFree d).jobs.filter (fun p => jobRunning p.2 && p.2.ticks.votes != [] && p.2.ticks.commitAt.isSome) = [] := by
    rw [hjobs]; exact List.filter_eq_nil_iff.mpr fun p hp => by simp [hvotes p hp]
  have hnow : (barsFree d).now = d.now := (coresOnly_barsFree d).on Chip.now
  unfold cycle closeCycle decideHeld
  rw [releaseMsgs_still s.env hheld, slotWords_still hslots]
  simp only [hfifo, List.map_nil, each_nil, hbusy, hd, hend, hturn, hnow]
  rw [hdecide]; rfl

/-! What happens beside the arrays. -/

/-- The arrays of every core are the same, and still only cores are at work. -/
structure Chip.Aside (c d : Chip) : Prop where
  arr : ∀ k a, arrOf (core d k) a = arrOf (core c k) a
  alone : c.CoresAlone → d.CoresAlone

/-- A core with the same arrays, whose end is as it was. -/
abbrev Core.Keeps (k k' : Core) : Prop := k'.a0 = k.a0 ∧ k'.a1 = k.a1 ∧ k'.ended = k.ended ∧ k'.doneSaid = k.doneSaid

section Aside
variable {c d e : Chip}

theorem Chip.Aside.refl (c : Chip) : c.Aside c := ⟨fun _ _ => rfl, id⟩

theorem Chip.Aside.trans (h : c.Aside d) (k : d.Aside e) : c.Aside e := ⟨fun n a => (k.arr n a).trans (h.arr n a), k.alone ∘ h.alone⟩

theorem Chip.Aside.ite {p : Prop} [Decidable p] (h : c.Aside d) (k : c.Aside e) : c.Aside (if p then d else e) := by
  split
  · exact h
  · exact k

theorem aside_each {α : Type} (l : List α) {f : Chip → α → Chip} (h : ∀ (c : Chip) x, c.Aside (f c x)) (c : Chip) : c.Aside (each l c f) :=
  each_keeps (P := c.Aside) (fun d x hd => hd.trans (h d x)) l (.refl c)

theorem Chip.CoresAlone.core_said (h : c.CoresAlone) {i : Nat} (he : (core c i).ended = true) : (core c i).doneSaid = true := by
  unfold core tget at he ⊢
  cases hf : tfind c.cores i with
  | none => rw [hf] at he; exact absurd he Bool.false_ne_true
  | some k => rw [hf] at he; exact h.said _ (mem_of_tfind hf) he

theorem Chip.CoresAlone.onCore (h : c.CoresAlone) {i : Nat} {f : Core → Core} (he : ∀ k, (f k).ended = k.ended) (hd : ∀ k, (f k).doneSaid = k.doneSaid) :
    (onCore c i f).CoresAlone := by
  refine ⟨h.writes, h.coming, h.falling, fun p hp hend => ?_, h.votes⟩
  rcases mem_tset hp with rfl | hp
  · exact (hd _).trans (h.core_said ((he _).symm.trans hend))
  · exact h.said p hp hend

theorem aside_onCore (c : Chip) (i : Nat) {f : Core → Core} (h : ∀ k : Core, k.Keeps (f k)) : c.Aside (onCore c i f) := by
  refine ⟨fun k a => ?_, fun ha => ha.onCore (fun k => let ⟨_, _, he, _⟩ := h k; he) (fun k => let ⟨_, _, _, hd⟩ := h k; hd)⟩
  rw [core_onCore]
  split
  · next hk =>
    obtain ⟨h0, h1, _, _⟩ := h (core c i)
    subst hk; unfold arrOf; rw [h0, h1]
  · rfl

theorem aside_onFlight (c : Chip) (i id : Nat) (g : Flight → Flight) : c.Aside (onFlight c i id g) := aside_onCore c i fun _ => ⟨rfl, rfl, rfl, rfl⟩

theorem aside_addTodo (c : Chip) (i id : Nat) (ts : List Todo) : c.Aside (addTodo c i id ts) := aside_onFlight c i id _

theorem aside_raise (c : Chip) (r : Raise) : c.Aside (raise c r) := ⟨fun _ _ => rfl, fun h => ⟨h.writes, h.coming, h.falling, h.said, h.votes⟩⟩

theorem aside_coreFault (c : Chip) (i eng lw : Nat) (f : FaultCode) (addr x y : Nat) : c.Aside (coreFault c i eng lw f addr x y) := aside_raise c _

theorem aside_queueFrames (c : Chip) (fs : List Frame) : c.Aside (queueFrames c fs) :=
  ⟨fun _ _ => rfl, fun h => ⟨h.writes, h.coming, h.falling, h.said, h.votes⟩⟩

theorem aside_onJob (c : Chip) (t : Nat) {f : Job → Job} (hf : ∀ j, (f j).ticks.votes = j.ticks.votes) : c.Aside (onJob c t f) := by
  refine ⟨fun k a => by unfold core; rw [onJob_cores], fun h => ?_⟩
  unfold onJob
  split
  · exact h
  · next j hj =>
    refine ⟨h.writes, h.coming, h.falling, h.said, fun q hq => ?_⟩
    rcases mem_tset hq with rfl | hq
    · exact (hf j).trans (h.votes _ (mem_of_tfind hj))
    · exact h.votes q hq

/-! The parts of a core's cycle. -/

/-- Rows that come out of a slice are answered (R66). -/
theorem aside_answerRead (c : Chip) (i : Nat) (r : RemoteRead) (data : List Byte) : c.Aside (answerRead c i r data) :=
  .ite (aside_onCore c _ fun _ => ⟨rfl, rfl, rfl, rfl⟩) (aside_queueFrames c _)

theorem aside_sendReplies (c : Chip) (i : Nat) : c.Aside (sendReplies c i) := by
  unfold sendReplies
  refine .ite (.refl c) (.trans ?_ (aside_each _ (fun d (x : Nat × RemoteRead × List Byte) => aside_answerRead d i x.2.1 x.2.2) _))
  exact aside_onCore c i fun _ => ⟨rfl, rfl, rfl, rfl⟩

/-- Slots that are done retire (R229, R347). -/
theorem aside_endFlights (c : Chip) (i : Nat) : c.Aside (endFlights c i) := by
  have hrecord : ∀ (d : Chip) (f : Flight), d.Aside (addRecord d i f.eng f.slot.lw f.ord f.out) := fun d f =>
    .ite (.refl d) (aside_onCore d i fun _ => ⟨rfl, rfl, rfl, rfl⟩)
  unfold endFlights
  extract_lets c1 k gone c2
  have h1 : c.Aside c1 := aside_onCore c i fun _ => ⟨rfl, rfl, rfl, rfl⟩
  exact .ite h1 ((h1.trans (aside_each _ hrecord _)).trans (aside_onCore c2 i fun _ => ⟨rfl, rfl, rfl, rfl⟩))

/-- A block of cycles ends (R85, R86). -/
theorem aside_blockEnd (c : Chip) (i : Nat) : c.Aside (blockEnd c i) := by
  have hused : c.Aside (onCore c i (fun k => { k with used := 0 })) := aside_onCore c i fun _ => ⟨rfl, rfl, rfl, rfl⟩
  unfold blockEnd
  refine .ite (.refl c) (.ite (hused.trans ⟨fun _ _ => rfl, fun h => ⟨h.writes, h.coming, h.falling, h.said, h.votes⟩⟩) hused)

/-- Outputs that the drain counts, with their faults (R145, R149). -/
theorem aside_drainNotes (c : Chip) (i : Nat) (f : Flight) (ofmt : Nat) (sat : Bool) (lanes : List Lane) : c.Aside (drainNotes c i f ofmt sat lanes) := by
  unfold drainNotes
  extract_lets c1
  have h1 : c.Aside c1 := aside_onJob c _ fun _ => rfl
  exact .ite (.refl c) (.ite h1 (h1.trans (aside_each _ (fun d (p : Lane × Nat) => aside_coreFault d i f.eng f.slot.lw _ 0 p.2 _) _)))

/-- The arrays of cores whose BARRIER is released (R41). -/
theorem arrOf_barsFree (c : Chip) (k a : Nat) : arrOf (core (barsFree c) k) a = arrOf (core c k) a := by
  refine each_field (fun d => arrOf (core d k) a) (fun d i => ?_) _ c
  simp only [core_barFree]
  split
  · next hk =>
    subst hk
    obtain h | ⟨t, h⟩ := (core d k).barFreed_cases d.now
    · rw [h]
    · rw [h]; rfl
  · rfl

/-- A step in which only cores are at work: their arrays are as their cycle leaves them, and no write is in hand. -/
theorem step_cores {s : State} {l : List Nat} (hb : s.onlyBusy l) (hd : each l s.chip (coreCycle s.env) = d) (hk : d.CoresAlone) :
    ∃ c, step s = .next (s.after c) ∧ (∀ k a, arrOf (core c k) a = arrOf (core d k) a) ∧ c.writes = [] := by
  refine ⟨{ barsFree d with now := d.now + 1 }, ?_, fun k a => arrOf_barsFree d k a, ((coresOnly_barsFree d).on Chip.writes).trans hk.writes⟩
  rw [step_idle hb.1, cycle_cores hb hd hk]

end Aside

end Sys2Proof.Machine
end

section
/-! O44: MDRAIN, MMERGE and M slots of count zero (07_matrix.md R160-R162, R175, R181). -/

namespace Sys2Proof.Machine

/-! Drains (R161, R175). -/

section Drain
variable {e : Env} {a i : Nat} {c : Chip} {sl : QSlot}

/-- The fields of an MDRAIN are valid, and the backward datapath is there where it drains rows of cells (R175, R176, R180). -/
abbrev DrainOk (e : Env) (c : Chip) (i : Nat) (w : Dword) : Prop :=
  (sf w 54 54 = 1 → pathAbsent e c i 5 = false) ∧ sf w 57 55 ≠ 7 ∧ sf w 45 39 ≤ (if sf w 54 54 = 1 then 48 else 64)

theorem mdrain_of (h : DrainOk e c i sl.w) : ¬(sf sl.w 54 54 = 1 ∧ pathAbsent e c i 5 = true) ∧
    ¬(sf sl.w 57 55 = 7 ∨ (if sf sl.w 54 54 = 1 then 48 else 64) < sf sl.w 45 39) := by
  obtain ⟨hp, hf, hn⟩ := h
  refine ⟨fun ⟨h, hx⟩ => ?_, ?_⟩
  · rw [hp h] at hx; exact Bool.false_ne_true hx
  · rintro (h | h)
    · exact hf h
    · exact Nat.not_le.mpr h hn

theorem mdrain_zero (h : DrainOk e c i sl.w) (hn : sf sl.w 45 39 = 0) : mdrain e a c i sl = c := by
  obtain ⟨hpath, hfields⟩ := mdrain_of h
  unfold mdrain
  exact (if_neg hpath).trans ((if_neg hfields).trans (if_pos hn))

/-- The vectors that an MDRAIN in flight as number `id` queues for the drain, in order (R161, R175). -/
def drainsOf (w : Dword) (id : Nat) : List Drain :=
  (List.range (sf w 45 39)).map (fun t => ⟨id, t, if sf w 54 54 = 1 then t else (sf w 51 46 + t) % 64, decide (sf w 54 54 = 1), none, 0⟩)

/-- A valid MDRAIN queues its vectors behind the drains before it, and occupies the array (R161). -/
theorem mdrain_launches (h : DrainOk e c i sl.w) (hn : 0 < sf sl.w 45 39)
    (hc : ∀ eng lw m, claim c i eng lw m ([sf sl.w 38 34] ++ (if sf sl.w 52 52 = 1 then [sf sl.w 33 29] else [])) = (true, c)) :
    c.Launches i a (mdrain e a c i sl) { arrOf (core c i) a with
      drains := (arrOf (core c i) a).drains ++ drainsOf sl.w (core c i).nextId
      ready := c.now + max (sf sl.w 45 39 * (if sf sl.w 57 55 = 6 then 3 else 1)) 1 } := by
  obtain ⟨hpath, hfields⟩ := mdrain_of h
  unfold mdrain
  extract_lets w ofmt cells fpl n os ps k ow xs id place outs c1 c2 c3 c4
  have hk : k = (true, c) := by
    unfold k fpl
    simp only [beq_iff_eq]
    exact hc _ _ _
  rw [if_neg hpath, if_neg hfields, if_neg (Nat.ne_of_gt hn), hk]
  simp -zeta only [Bool.not_true, Bool.false_eq_true, if_false]
  have h3 : c.Launches i a c3 _ := ((launches_takeOff a _ _ _ _ _ _ _ (.refl i c)).onArr _).occupy _
  have h4 : c3.SameSlots i c4 := sameSlots_advance _ _ _ _ _ _
  exact h3.same (.ite (h4.trans (sameSlots_advance _ _ _ _ _ _)) h4)

end Drain

/-! Merges (R162). -/

section Merge
variable {e : Env} {a i : Nat} {c : Chip} {sl : QSlot}

/-- The fields of an MMERGE are valid (R180). -/
abbrev MergeOk (w : Dword) : Prop := sf w 45 39 ≤ 64 ∧ (sf w 57 57 = 1 → sf w 56 54 ≠ 7)

theorem mmerge_of {w : Dword} (h : MergeOk w) : ¬(65 ≤ sf w 45 39 ∨ ((sf w 57 57 == 1) = true ∧ sf w 56 54 = 7)) := by
  obtain ⟨hn, hf⟩ := h
  simp only [beq_iff_eq]
  rintro (h | ⟨h, hx⟩)
  · omega
  · exact hf h hx

theorem mmerge_zero (h : MergeOk sl.w) (hn : sf sl.w 45 39 = 0) : mmerge e a c i sl = c := by
  unfold mmerge
  exact (if_neg (mmerge_of h)).trans (if_pos hn)

/-- A valid MMERGE occupies the array for the lines of its records (R162). -/
theorem mmerge_launches (h : MergeOk sl.w) (hn : 0 < sf sl.w 45 39)
    (hc : ∀ eng lw m, claim c i eng lw m ([sf sl.w 37 33] ++ (if sf sl.w 57 57 = 1 then [sf sl.w 32 28] else []) ++
      (if sf sl.w 57 57 = 1 ∧ sf sl.w 52 52 = 1 then [sf sl.w 27 23] else [])) = (true, c)) :
    c.Launches i a (mmerge e a c i sl) { arrOf (core c i) a with
      ready := c.now + max (cdiv (sf sl.w 45 39 * (if sf sl.w 38 38 = 1 then 48 else 32) * 24) 256) 1 } := by
  unfold mmerge
  extract_lets w fin ofmt fpl n wide rs os ps k ow xs total cut reads adds c1 c2 c3
  have hk : k = (true, c) := by
    unfold k fin fpl
    simp only [Bool.and_eq_true, beq_iff_eq]
    exact hc _ _ _
  rw [if_neg (mmerge_of h), if_neg (Nat.ne_of_gt hn), hk]
  simp -zeta only [Bool.not_true, Bool.false_eq_true, if_false]
  have h2 : c.Launches i a c2 _ := ((launches_takeOff a _ _ _ _ _ _ _ (.refl i c)).same (sameSlots_advance _ _ _ _ _ _)).occupy _
  have h3 : c2.SameSlots i c3 := sameSlots_advance _ _ _ _ _ _
  exact h2.same (.ite (.ite (h3.trans (sameSlots_advance _ _ _ _ _ _)) h3) (.refl i c2))

end Merge

section Rows
variable {s : State} {i a : Nat} {sl : QSlot}

theorem mdrain_row (hi : i < 1024) (ha : a < 2) (h : Head s i (mq a) sl 4) :
    exec (.mdrain i a) s = .next (s.after (mdrain s.env a (popHead s.chip i (mq a)) i sl)) :=
  lift_mSlot_of hi ha h (by decide) mdrain

theorem mmerge_row (hi : i < 1024) (ha : a < 2) (h : Head s i (mq a) sl 5) :
    exec (.mmerge i a) s = .next (s.after (mmerge s.env a (popHead s.chip i (mq a)) i sl)) :=
  lift_mSlot_of hi ha h (by decide) mmerge

/-- A slot that does nothing but leave its queue leaves a quiet state. -/
theorem after_popHead (hq : s.quiet) {q : Queue} {d : Chip} (h : d = popHead s.chip i q) : s.after d = s.put (popHead s.chip i q) := by
  rw [h]; exact State.after_sameHand s _ hq (sameHand_popHead _ _ _)

end Rows

/-! The drain of one entry (R160, R161). -/

theorem drainFields_mdrain {w : Dword} (h : opOf w = 4) : drainFields w = (sf w 57 55, sf w 53 53 == 1, sf w 52 52 == 1) := by
  unfold drainFields; rw [h]; rfl

/-- An output that is no record is 1, 2 or 4 bytes (R148, R180). -/
theorem outBits_bytes {ofmt : Nat} (h : ofmt < 6) : 0 < outBits ofmt / 8 ∧ outBits ofmt / 8 ≤ 4 := by
  have hall : ∀ o < 6, 0 < outBits o / 8 ∧ outBits o / 8 ≤ 4 := by decide
  exact hall ofmt h

/-- An entry leaves its lanes, or 32 zeros where it holds none (log entry 80). -/
theorem drainLanes_entry {m : MArray} {d : Drain} (h : d.cells = false) : (tget [] m.acc d.place).length ≤ (drainLanes m d).length ∧
    ((tget [] m.acc d.place).length ≤ 48 → (drainLanes m d).length ≤ 48) := by
  unfold drainLanes
  rw [if_neg (by rw [h]; exact Bool.false_ne_true)]
  split
  · next hl => rw [hl]; exact ⟨Nat.zero_le _, fun _ => by simp⟩
  · exact ⟨Nat.le_refl _, id⟩

/-- The accumulators once the lanes of entry `place` from `lo` up to `hi` are clear: an entry that holds nothing more is gone (R161). -/
def clearEntry (acc : Tab (List Lane)) (place lo hi : Nat) : Tab (List Lane) :=
  let l := (tget [] acc place).zipIdx.map (fun p => if lo ≤ p.2 ∧ p.2 < hi then Lane.zero else p.1)
  if l.all (fun y => !y.live) then tdel acc place else tset acc place l

/-- With all its lanes clear, the entry is gone. -/
theorem clearEntry_whole {acc : Tab (List Lane)} {place hi : Nat} (h : (tget [] acc place).length ≤ hi) : clearEntry acc place 0 hi = tdel acc place := by
  refine if_pos ?_
  rw [List.all_map, List.all_eq_true]
  intro p hp
  have hlt : p.2 < hi := Nat.lt_of_lt_of_le (by simpa using List.snd_lt_of_mem_zipIdx hp) h
  simp only [Function.comp_apply]
  rw [if_pos ⟨Nat.zero_le _, hlt⟩]; rfl

/-- An MDRAIN in flight alone at its core, whose one entry waits at the drain of an array with nothing else in hand. -/
structure DrainAlone (k : Core) (m : MArray) (f : Flight) (d : Drain) : Prop where
  flight : k.flights = [f]
  number : f.id = d.fl
  op : opOf f.slot.w = 4
  format : sf f.slot.w 57 55 < 6
  wave : m.wave = []
  drains : m.drains = [d]
  entry : d.cells = false
  beat : d.beat = 0
  ins : d.ins = none
  lanes : (tget [] m.acc d.place).length ≤ 48

/-- Nothing comes before such a drain (R182). -/
theorem DrainAlone.free {k : Core} {m : MArray} {f : Flight} {d : Drain} (h : DrainAlone k m f d) (now hi : Nat) : beatFree k m now hi d = true := by
  unfold beatFree drainBehind
  rw [h.ins, h.wave, h.flight]
  simp [h.number]

/-- Its entry goes in one beat: it has left the drain, and its lanes are clear. -/
theorem drainStep_alone {c : Chip} {i a : Nat} {f : Flight} {d : Drain} (h : DrainAlone (core c i) (arrOf (core c i) a) f d) :
    ∃ e g, drainStep c i a = onArr e i a g ∧ c.Aside e ∧ (g (arrOf (core c i) a)).drains = [] ∧
      (g (arrOf (core c i) a)).acc = tdel (arrOf (core c i) a).acc d.place := by
  have hflight : flightOf (core c i) d.fl = some f := by
    unfold flightOf; rw [h.flight]; exact List.find?_cons_of_pos (by simp [h.number])
  obtain ⟨hsize, hsmall⟩ := outBits_bytes h.format
  obtain ⟨hlanes, hshort⟩ := drainLanes_entry (m := arrOf (core c i) a) h.entry
  have hcount := hshort h.lanes
  unfold drainStep
  extract_lets k m
  rw [show m.drains = [d] from h.drains]
  simp -zeta only []
  rw [show flightOf k d.fl = some f from hflight]
  simp -zeta only []
  extract_lets x size lanes count total lo n sent gone flags last sh first c1 clear po psh c2 chk c3 c4
  have hx : x.1 = sf f.slot.w 57 55 := by unfold x; rw [drainFields_mdrain h.op]
  have hsz : size = outBits (sf f.slot.w 57 55) / 8 := by unfold size; rw [hx]
  have hlo : lo = 0 := by unfold lo; rw [h.beat]
  have hlen : count = lanes.length := by unfold count; rw [h.ins]
  have hwhole : lo + n = count * size := by
    have hle : count * size ≤ 48 * 4 := Nat.mul_le_mul (by rw [hlen]; exact hcount) (by rw [hsz]; exact hsmall)
    unfold n total; omega
  have hall : (lo + n) / size = lanes.length := by rw [hwhole, hlen]; exact Nat.mul_div_cancel _ (by rw [hsz]; exact hsize)
  have hlast : last = true := decide_eq_true (Nat.le_of_eq hwhole.symm)
  rw [if_neg (by rw [show beatFree k m c.now _ d = true from h.free _ _]; decide), if_neg (by rw [hlast]; decide)]
  have h2 : c.Aside c2 := .ite ((aside_addTodo c i f.id _).trans (aside_addTodo c1 i f.id _)) (aside_addTodo c i f.id _)
  have h3 : c.Aside c3 := by unfold c3; rw [if_neg (by rw [h.entry]; decide)]; exact h2
  have h4 : c.Aside c4 := h3.trans (aside_drainNotes c3 i f _ _ _)
  have hclear : ∀ y : MArray, clear y = { y with acc := clearEntry y.acc d.place (lo / size) ((lo + n) / size) } := fun y => if_neg (by rw [h.entry]; decide)
  refine ⟨_, _, rfl, h4.trans (aside_onFlight c4 i f.id _), ?_, ?_⟩
  · rw [hclear]
  · rw [hclear, hall, hlo, Nat.zero_div]; exact clearEntry_whole hlanes

/-! A cycle of the array and of its core. -/

theorem arrOf_setArr_other {k : Core} {a : Nat} (ha : a < 2) (m : MArray) : arrOf (setArr k a m) (1 - a) = arrOf k (1 - a) := by
  obtain rfl | rfl : a = 0 ∨ a = 1 := by omega
  · rfl
  · rfl

theorem setArr_ended (k : Core) (a : Nat) (m : MArray) : (setArr k a m).ended = k.ended ∧ (setArr k a m).doneSaid = k.doneSaid := by
  unfold setArr; split <;> exact ⟨rfl, rfl⟩

/-- From `c` to `d` the entry `place` has left array `a` of core `i` by the drain, which is empty; no other entry and not the other array has
changed, and still only cores are at work. -/
structure Chip.Drained (i a place : Nat) (c d : Chip) : Prop where
  drains : (arrOf (core d i) a).drains = []
  acc : (arrOf (core d i) a).acc = tdel (arrOf (core c i) a).acc place
  other : arrOf (core d i) (1 - a) = arrOf (core c i) (1 - a)
  alone : c.CoresAlone → d.CoresAlone

theorem Chip.Aside.drained {c d e : Chip} {i a place : Nat} (h : c.Aside d) (k : d.Drained i a place e) : c.Drained i a place e :=
  ⟨k.drains, k.acc.trans (by rw [h.arr]), k.other.trans (h.arr i _), k.alone ∘ h.alone⟩

theorem Chip.Drained.aside {c d e : Chip} {i a place : Nat} (h : c.Drained i a place d) (k : d.Aside e) : c.Drained i a place e :=
  ⟨by rw [k.arr]; exact h.drains, by rw [k.arr]; exact h.acc, (k.arr i _).trans h.other, k.alone ∘ h.alone⟩

theorem arrayCycle_still {c : Chip} {i a : Nat} (h : (arrOf (core c i) a).still) : arrayCycle c i a = c := if_pos h

section Cycle
variable {c : Chip} {i a : Nat} {f : Flight} {d : Drain}

/-- A change of one array leaves the other, and what goes on beside the arrays. -/
theorem setArr_beside (ha : a < 2) (c : Chip) (i : Nat) (g : Core → MArray) :
    arrOf (core (onCore c i (fun k => setArr k a (g k))) i) (1 - a) = arrOf (core c i) (1 - a) ∧
      (c.CoresAlone → (onCore c i (fun k => setArr k a (g k))).CoresAlone) :=
  ⟨by rw [core_onCore, if_pos rfl]; exact arrOf_setArr_other ha _, fun h => h.onCore (fun k => (setArr_ended k a _).1) (fun k => (setArr_ended k a _).2)⟩

/-- Tiles that nothing names go with no change of entries. -/
theorem Chip.Drained.tidy {c d : Chip} {place : Nat} (ha : a < 2) (h : c.Drained i a place d) :
    c.Drained i a place (onCore d i (fun k => setArr k a (tidyTiles k (arrOf k a)))) := by
  have harr : arrOf (core (onCore d i (fun k => setArr k a (tidyTiles k (arrOf k a)))) i) a = tidyTiles (core d i) (arrOf (core d i) a) := by
    rw [core_onCore, if_pos rfl, arrOf_setArr]
  obtain ⟨hother, halone⟩ := setArr_beside ha d i (fun k => tidyTiles k (arrOf k a))
  exact ⟨by rw [harr]; exact h.drains, by rw [harr]; exact h.acc, hother.trans h.other, halone ∘ h.alone⟩

theorem frozen_noWave {k : Core} (h : (arrOf k a).wave = []) (now : Nat) : frozen k a now = false := by
  unfold frozen
  extract_lets m
  rw [show m.wave = [] from h]; rfl

theorem waveOut_noWave (h : (arrOf (core c i) a).wave = []) : waveOut c i a = c := by
  unfold waveOut; rw [h]; rfl

/-- An array with nothing in hand but an entry that may leave: the entry leaves. -/
theorem arrayCycle_drained (ha : a < 2) (h : DrainAlone (core c i) (arrOf (core c i) a) f d) : c.Drained i a d.place (arrayCycle c i a) := by
  unfold arrayCycle
  extract_lets k m c1
  have hbusy : ¬(m.wave = [] ∧ m.loads = [] ∧ m.drains = [] ∧ m.frozeAt = none) := fun ⟨_, _, hnone, _⟩ =>
    List.cons_ne_nil d [] (h.drains.symm.trans hnone)
  rw [if_neg hbusy, if_neg (by rw [frozen_noWave h.wave]; exact Bool.false_ne_true)]
  have harr : arrOf (core c1 i) a = { stepRows k c.now m with loads := stepLoads k m c.now, frozeAt := none } := arrOf_onArr c i a _
  have hone : DrainAlone (core c1 i) (arrOf (core c1 i) a) f d := by
    have hflights : (core c1 i).flights = (core c i).flights := by unfold c1; rw [core_onArr, setArr_flights]
    rw [harr]
    refine { h with flight := hflights.trans h.flight, wave := ?_ }
    show (m.wave.zip _).map _ = []
    rw [show m.wave = [] from h.wave]; rfl
  obtain ⟨e, g, hstep, haside, hdrains, hacc⟩ := drainStep_alone hone
  have hbeside : arrOf (core c1 i) (1 - a) = arrOf (core c i) (1 - a) ∧ (c.CoresAlone → c1.CoresAlone) := setArr_beside ha c i _
  obtain ⟨hother, halone⟩ := hbeside
  obtain ⟨hother', halone'⟩ := setArr_beside (a := a) ha e i (fun k => g (arrOf k a))
  rw [waveOut_noWave hone.wave, hstep]
  refine Chip.Drained.tidy ha ⟨?_, ?_, (hother'.trans (haside.arr i _)).trans hother, halone' ∘ haside.alone ∘ halone⟩
  · rw [arrOf_onArr, haside.arr]; exact hdrains
  · rw [arrOf_onArr, haside.arr, hacc, harr]; rfl

end Cycle

/-- An MDRAIN alone at core `i`, all of whose vectors wait at the drain; nothing waits at the core's port or in its remote queue. -/
structure DrainOnly (c : Chip) (i : Nat) (f : Flight) : Prop where
  flight : (core c i).flights = [f]
  op : opOf f.slot.w = 4
  todo : f.todo = [⟨0, .stay⟩]
  eject : (core c i).eject = []
  remq : (core c i).remq = []

section Core
variable {c : Chip} {i a : Nat} {f : Flight} {d : Drain}

/-- Such a slot accesses nothing. -/
theorem DrainOnly.noActs (h : DrainOnly c i f) (now : Nat) : coreActs (core c i) now = [] := by
  have hdue : dueActs f now = [] := by unfold dueActs; rw [h.todo]; simp
  unfold coreActs
  rw [h.flight]
  refine List.flatMap_eq_nil_iff.mpr fun e _ => List.flatMap_eq_nil_iff.mpr fun g hg => ?_
  rw [List.mem_singleton.mp (List.mem_filter.mp hg).1, hdue]; rfl

/-- It waits for no read and no fill. -/
theorem DrainOnly.holdBack (h : DrainOnly c i f) : holdBack c i = c := by
  unfold Machine.holdBack
  refine each_same fun g hg => ?_
  rw [h.flight] at hg
  obtain rfl := List.mem_singleton.mp hg
  have hsource : sourceWaits c i g = false := by
    unfold sourceWaits; rw [h.todo]
    split <;> simp
  have hfill : fillWaits (core c i) c.now g = false := by unfold fillWaits; rw [h.op]; simp
  rw [hsource, hfill]; rfl

theorem DrainOnly.doCalcs (h : DrainOnly c i f) : doCalcs c i = c := by
  unfold Machine.doCalcs
  refine each_same fun g hg => each_same fun t ht => ?_
  rw [h.flight] at hg
  obtain rfl := List.mem_singleton.mp hg
  have hstay := (List.mem_filter.mp ht).1
  rw [h.todo] at hstay
  rw [List.mem_singleton.mp hstay]

/-- The core's cycle: its port and its remote queue are idle; rows that it has read for others leave, its arrays have their cycle, the block may end. -/
theorem DrainOnly.coreCycle (h : DrainOnly c i f) (e : Env) : coreCycle e c i = blockEnd (endFlights (arrayCycle (arrayCycle (sendReplies
    (if c.now < (core c i).bundle then onCore c i (fun k => { k with used := k.used + 1 }) else c) i) i 0) i 1) i) i := by
  have hfull : bypassFull c i = false := by
    unfold bypassFull
    extract_lets k
    rw [show k.eject = [] from h.eject]
  have hbeat : ejectBeat c i = (c, none) := by unfold ejectBeat; rw [h.eject]
  have hserve : serveRemote e c i = c := by unfold serveRemote; rw [h.remq]
  unfold Machine.coreCycle
  simp only [h.holdBack, h.noActs, List.foldl_nil, h.doCalcs, hfull, Bool.false_eq_true, if_false, hbeat, hserve, each_nil]

/-- What leaves by the mesh leaves the slots in flight. -/
theorem flights_sendReplies (c : Chip) (i k : Nat) : (core (sendReplies c i) k).flights = (core c k).flights := by
  have hcore : ∀ (c : Chip) (n : Nat) (f : Core → Core), (∀ x, (f x).flights = x.flights) → (core (onCore c n f) k).flights = (core c k).flights := by
    intro c n f hf
    rw [core_onCore]; split
    · next hk => rw [hf, hk]
    · rfl
  unfold sendReplies
  extract_lets due
  split
  · rfl
  · refine (each_field (fun d => (core d k).flights) (fun d x => ?_) _ _).trans (hcore c i _ fun _ => rfl)
    unfold answerRead
    split
    · exact hcore d _ _ fun _ => rfl
    · rfl

/-- The array's entry leaves in the cycle of its core. -/
theorem coreCycle_drained (ha : a < 2) (h : DrainOnly c i f) (hd : DrainAlone (core c i) (arrOf (core c i) a) f d) (hs : (arrOf (core c i) (1 - a)).still)
    (e : Env) : c.Drained i a d.place (coreCycle e c i) := by
  rw [h.coreCycle]
  generalize hc3 : (if c.now < (core c i).bundle then onCore c i (fun k => { k with used := k.used + 1 }) else c) = c3
  have hused : c.Aside c3 := by rw [← hc3]; exact .ite (aside_onCore c i fun _ => ⟨rfl, rfl, rfl, rfl⟩) (.refl c)
  have hflights : (core c3 i).flights = (core c i).flights := by
    rw [← hc3]; split
    · rw [core_onCore, if_pos rfl]
    · rfl
  have haside : c.Aside (sendReplies c3 i) := hused.trans (aside_sendReplies c3 i)
  have hone : DrainAlone (core (sendReplies c3 i) i) (arrOf (core (sendReplies c3 i) i) a) f d := by
    rw [haside.arr]
    exact { hd with flight := ((flights_sendReplies c3 i i).trans hflights).trans hd.flight }
  have hstill : (arrOf (core (sendReplies c3 i) i) (1 - a)).still := by rw [haside.arr]; exact hs
  have harrays : (sendReplies c3 i).Drained i a d.place (arrayCycle (arrayCycle (sendReplies c3 i) i 0) i 1) := by
    have hdrained := arrayCycle_drained ha hone
    obtain rfl | rfl : a = 0 ∨ a = 1 := by omega
    · rw [arrayCycle_still (a := 1) (by rw [hdrained.other]; exact hstill)]; exact hdrained
    · rw [arrayCycle_still (a := 0) hstill]; exact hdrained
  exact (haside.drained harrays).aside ((aside_endFlights _ i).trans (aside_blockEnd _ i))

end Core

section Zero
variable {s : State} {i a : Nat} {sl : QSlot}

/-- M slots of a count of zero only leave their queue (R181). -/
theorem exec_mSlots_zero (hq : s.quiet) (hi : i < 1024) (ha : a < 2) (hp : pathAbsent s.env s.chip i 5 = false) :
    (Head s i (mq a) sl 2 → sf sl.w 57 54 < 14 → sf sl.w 26 25 ≠ 3 → sf sl.w 53 51 ≠ 7 → sf sl.w 49 49 = 0 → sf sl.w 38 32 = 0 →
      exec (.muse i a) s = .next (s.put (popHead s.chip i (mq a)))) ∧
    (Head s i (mq a) sl 3 → sf sl.w 57 54 < 14 → sf sl.w 53 50 < 14 → sf sl.w 48 42 = 0 →
      exec (.mouter i a) s = .next (s.put (popHead s.chip i (mq a)))) ∧
    (Head s i (mq a) sl 4 → sf sl.w 57 55 ≠ 7 → sf sl.w 45 39 = 0 → exec (.mdrain i a) s = .next (s.put (popHead s.chip i (mq a)))) ∧
    (Head s i (mq a) sl 5 → sf sl.w 56 54 ≠ 7 → sf sl.w 45 39 = 0 → exec (.mmerge i a) s = .next (s.put (popHead s.chip i (mq a)))) := by
  refine ⟨fun hh hf hs ho ht hn => ?_, fun hh hf hd hn => ?_, fun hh hf hn => ?_, fun hh hf hn => ?_⟩
  · have hok : UseOk s.env (popHead s.chip i (mq a)) i (usedFmt (arrOf (core (popHead s.chip i (mq a)) i) a) sl.w) sl.w :=
      ⟨hf, hs, fun _ => ho, fun h => absurd (ht.symm.trans h) Nat.zero_ne_one, by omega⟩
    rw [muse_row hi ha hh, after_popHead hq (muse_zero hok hn)]
  · rw [mouter_row hi ha hh, after_popHead hq (mouter_zero (c := popHead s.chip i (mq a)) ⟨hp, hf, hd, by omega⟩ hn)]
  · rw [mdrain_row hi ha hh, after_popHead hq (mdrain_zero (c := popHead s.chip i (mq a)) ⟨fun _ => hp, hf, by rw [hn]; exact Nat.zero_le _⟩ hn)]
  · rw [mmerge_row hi ha hh, after_popHead hq (mmerge_zero (c := popHead s.chip i (mq a)) ⟨by omega, fun _ => hf⟩ hn)]

end Zero

/-- Settles O44: a count of zero by the fields alone; a drain and a merge by what they launch; the one beat by the cycle of the core. -/
theorem matrixDrains : Obligations.MatrixDrains := by
  refine ⟨fun i a sl s hq hi ha _ hp => exec_mSlots_zero hq hi ha hp, fun i a sl s hq hi ha => ⟨?_, ?_⟩, ?_⟩
  · intro cells hh hp hf hn hmax hc
    have hl := (mdrain_launches (a := a) (c := popHead s.chip i (mq a)) ⟨hp, hf, hmax⟩ hn (claim_popHead hc _)).unpop
    rw [arrOf_popHead, nextId_popHead] at hl
    have hbusy : 1 ≤ sf sl.w 45 39 * (if sf sl.w 57 55 = 6 then 3 else 1) := Nat.mul_pos hn (by split <;> decide)
    refine ⟨_, mdrain_row hi ha hh, by rw [hl.arr]; rfl, ?_, by rw [hl.arr], by rw [hl.arr], by rw [hl.arr], hl.writes.trans hq.1⟩
    rw [hl.arr]; exact congrArg (s.chip.now + ·) (Nat.max_eq_left hbusy)
  · intro fin hh hf hn hmax hc
    have hl := (mmerge_launches (e := s.env) (a := a) (c := popHead s.chip i (mq a)) ⟨hmax, hf⟩ hn (claim_popHead hc _)).unpop
    rw [arrOf_popHead] at hl
    have hbusy : 1 ≤ cdiv (sf sl.w 45 39 * (if sf sl.w 38 38 = 1 then 48 else 32) * 24) 256 := by
      have hrecords : 0 < sf sl.w 45 39 * (if sf sl.w 38 38 = 1 then 48 else 32) := Nat.mul_pos hn (by split <;> decide)
      unfold cdiv; omega
    refine ⟨_, mmerge_row hi ha hh, ?_, hl.flights, by rw [hl.arr], by rw [hl.arr], hl.writes.trans hq.1⟩
    rw [hl.arr]; exact congrArg (s.chip.now + ·) (Nat.max_eq_left hbusy)
  · intro i a f d s hq hs hb ha k m heject hremq hflight hnumber hop htodo hformat hstill hwave _ _ hdrains hcells hbeat hins hlanes
    have hdrained : s.chip.Drained i a d.place (coreCycle s.env s.chip i) := coreCycle_drained ha ⟨hflight, hop, htodo, heject, hremq⟩
      ⟨hflight, hnumber, hop, hformat, hwave, hdrains, hcells, hbeat, hins, hlanes⟩ hstill s.env
    have halone := hdrained.alone (hb.coresAlone hq hs)
    obtain ⟨c, hstep, harr, hwrites⟩ := step_cores hb (each_one s.chip i (coreCycle s.env)) halone
    refine ⟨c, hstep, ?_, ?_, fun p hp => ?_, hwrites⟩
    · rw [harr]; exact hdrained.drains
    · rw [harr, hdrained.acc, tfind_tdel, if_pos rfl]
    · rw [harr, hdrained.acc, tfind_tdel, if_neg hp]

end Sys2Proof.Machine
end

section
/-! O49: takes, credits, broadcast CRC and stalls of the queues (08_vector.md R206; 09_keeper.md R221-R228; 15_safety.md R355, R356; log entry 75). -/

namespace Sys2Proof.Machine

/-! Errors that strike a core with its take (R206, R355, R356). -/

/-- The core's errors once those of `us` that no stored word takes wait there for the checks that meet them. -/
def Core.struck (us : List Upset) (k : Core) : Core :=
  { k with upsets := k.upsets ++ (us.filter (fun u => !(storedUpset u))).map (fun u => (u, false)) }

/-- From `c` to `d` the errors `us` have struck core `i` and stored words; nothing else of the core, no job and nothing in hand has changed. -/
structure Chip.Struck (i : Nat) (us : List Upset) (c d : Chip) : Prop where
  core : core d i = (core c i).struck us
  now : d.now = c.now
  jobs : d.jobs = c.jobs
  injCtl : d.safe.injCtl = c.safe.injCtl
  hand : c.SameHand d

theorem Core.struck_struck (us vs : List Upset) (k : Core) : (k.struck us).struck vs = k.struck (us ++ vs) := by
  unfold Core.struck
  rw [List.filter_append, List.map_append, ← List.append_assoc]

theorem Chip.Struck.trans {i : Nat} {us vs : List Upset} {c d e : Chip} (h : c.Struck i us d) (k : d.Struck i vs e) : c.Struck i (us ++ vs) e :=
  ⟨by rw [k.core, h.core, Core.struck_struck], k.now.trans h.now, k.jobs.trans h.jobs, k.injCtl.trans h.injCtl, h.hand.trans k.hand⟩

theorem struck_one (c : Chip) (i : Nat) (u : Upset) : c.Struck i [u] (strike c i [u]) := by
  cases u with
  | word w bits => exact ⟨congrArg (fun l => { core c i with upsets := l }) (List.append_nil _).symm, rfl, rfl, rfl, rfl, rfl, rfl⟩
  | _ => exact ⟨(core_onCore c i i _).trans (if_pos rfl), rfl, rfl, rfl, rfl, rfl, rfl⟩

theorem struck_strike (i : Nat) (us : List Upset) (c : Chip) : c.Struck i us (strike c i us) := by
  induction us generalizing c with
  | nil => exact ⟨congrArg (fun l => { core c i with upsets := l }) (List.append_nil _).symm, rfl, rfl, rfl, rfl, rfl, rfl⟩
  | cons u us ih => exact (struck_one c i u).trans (ih (strike c i [u]))

/-- With INJ_CTL 0 no injection is armed (R367). -/
theorem armedFor_clear {c : Chip} (h : c.safe.injCtl = 0) (k i : Nat) : armedFor c k i = false := by
  unfold armedFor
  rw [h]; rfl

theorem takeInjections_clear {c : Chip} (h : c.safe.injCtl = 0) (i : Nat) : takeInjections c i = c := by
  unfold takeInjections
  rw [armedFor_clear h, armedFor_clear h]
  exact ite_self _

/-- A TAKE with no injection armed: errors strike, then the core looks at its FIFO. -/
theorem take_row {s : State} {i : Nat} (hi : i < 1024) (hinj : s.chip.safe.injCtl = 0) (ok : Bool) (us : List Upset) :
    exec (.take i ⟨ok, us⟩) s = .next (s.after (takeWord (strike s.chip i us) i ok)) := by
  have hrow : exec (.take i ⟨ok, us⟩) s =
      .next (s.after (takeWord (takeInjections (strike s.chip (i % 1024) us) (i % 1024)) (i % 1024) ok)) := rfl
  rw [hrow, Nat.mod_eq_of_lt hi, takeInjections_clear ((struck_strike i us s.chip).injCtl.trans hinj)]

/-! The word at the head of a FIFO (R221, R222, R224). -/

theorem queueOf_struck (us : List Upset) (k : Core) (q : Queue) : queueOf (k.struck us) q = queueOf k q := by cases q <;> rfl

theorem hasRoom_struck (us : List Upset) (k : Core) (w : FWord) : hasRoom (k.struck us) w = hasRoom k w := by
  unfold hasRoom
  simp only [queueOf_struck]

theorem setQueue_struck (us : List Upset) (k : Core) (q : Queue) (l : List QSlot) : setQueue (k.struck us) q l = (setQueue k q l).struck us := by
  cases q <;> rfl

/-- The slots of a word go to the queues and to nothing else that an error strikes. -/
theorem enqueue_struck (us : List Upset) (now : Nat) (w : FWord) (k : Core) : enqueue now w (k.struck us) = (enqueue now w k).struck us := by
  refine List.foldl_hom (Core.struck us) fun k p => ?_
  cases presentQueue p.1 with
  | none => rfl
  | some q => simp only [queueOf_struck, setQueue_struck]

theorem setQueue_upsets (k : Core) (q : Queue) (l : List QSlot) : (setQueue k q l).upsets = k.upsets := by cases q <;> rfl

theorem enqueue_upsets (now : Nat) (w : FWord) (k : Core) : (enqueue now w k).upsets = k.upsets := by
  unfold enqueue
  generalize wordSlots w = l
  induction l generalizing k with
  | nil => rfl
  | cons p l ih =>
    rw [List.foldl_cons, ih]
    split
    · exact setQueue_upsets _ _ _
    · rfl

/-- A word whose bit 5 of PRESENT is clear has no C slot (R219). -/
theorem wordSlots_noC {w : FWord} (h : w.hdr.getLsbD 5 = false) : (wordSlots w).find? (fun p => p.1 == 5) = none := by
  refine List.find?_eq_none.mpr fun p hp hp5 => ?_
  have hpresent : w.hdr.getLsbD p.1 = true := (List.mem_filter.mp (List.of_mem_zip hp).1).2
  rw [beq_iff_eq.mp hp5, h] at hpresent
  exact Bool.false_ne_true hpresent

/-- A core that has taken the head `w` of its FIFO whole, and has `rest` left there. -/
def Core.took (now : Nat) (w : FWord) (rest : List FWord) (k : Core) : Core :=
  { (enqueue now w k) with
    fifo := rest, lastTake := now, lastWait := bitsOf w.hdr.toNat 15 8, lastLw := some w.lw
    takeTimes := k.takeTimes ++ [now], retireAt := max k.retireAt now
    idleTill := if w.hdr.getLsbD 16 then now + bitsOf w.hdr.toNat 15 8 else k.idleTill }

/-- The word at the head of a core's FIFO may be taken in cycle `now` (R222, R224). -/
structure Core.MayTake (k : Core) (now : Nat) (w : FWord) : Prop where
  intact : w.intact = true
  come : w.arrive + 1 ≤ now
  turn : k.lastLw.isSome → k.lastTake + 1 + k.lastWait ≤ now
  room : hasRoom k w = true

section Take
variable {c : Chip} {i : Nat} {w x : FWord} {rest : List FWord}

/-- What a core that is at work does with the head of its FIFO. -/
theorem takeWord_eq (hf : (core c i).fifo = w :: rest) (hd : (core c i).dead = false) (he : (core c i).ended = false) (ok : Bool) :
    takeWord c i ok =
      if !ok then (match damaged (core c i) c.now with | some x => crcFail c i x | none => c)
      else if w.arrive ≤ c.now ∧ w.intact = false then crcFail c i w
      else if c.now < w.arrive + 1 ∨ ((core c i).lastLw.isSome ∧ c.now < (core c i).lastTake + 1 + (core c i).lastWait) ∨ hasRoom (core c i) w = false then c
      else (match (wordSlots w).find? (fun p => p.1 == 5) with
        | some p => coreOp (onCore c i (Core.took c.now w rest)) i p.2 w.lw
        | none => onCore c i (Core.took c.now w rest)) := by
  unfold takeWord
  simp only [hf, hd, he, Bool.or_self, Bool.false_eq_true, if_false]
  rfl

variable (hf : (core c i).fifo = w :: rest) (hd : (core c i).dead = false) (he : (core c i).ended = false)
include hf hd he

theorem takeWord_damaged (hx : damaged (core c i) c.now = some x) : takeWord c i false = crcFail c i x := by
  rw [takeWord_eq hf hd he, hx]; rfl

theorem takeWord_broken (hcome : w.arrive ≤ c.now) (hw : w.intact = false) : takeWord c i true = crcFail c i w := by
  rw [takeWord_eq hf hd he, if_neg (by decide), if_pos ⟨hcome, hw⟩]

theorem takeWord_early (hw : c.now < w.arrive) : takeWord c i true = c := by
  rw [takeWord_eq hf hd he, if_neg (by decide), if_neg (fun h => Nat.not_le.mpr hw h.1)]
  exact if_pos (.inl (Nat.lt_succ_of_lt hw))

theorem takeWord_takes (h : (core c i).MayTake c.now w) : takeWord c i true =
    match (wordSlots w).find? (fun p => p.1 == 5) with
    | some p => coreOp (onCore c i (Core.took c.now w rest)) i p.2 w.lw
    | none => onCore c i (Core.took c.now w rest) := by
  have hintact : ¬(w.arrive ≤ c.now ∧ w.intact = false) := fun ⟨_, hbad⟩ => Bool.false_ne_true (hbad.symm.trans h.intact)
  have htime : ¬(c.now < w.arrive + 1 ∨ ((core c i).lastLw.isSome ∧ c.now < (core c i).lastTake + 1 + (core c i).lastWait) ∨ hasRoom (core c i) w = false) := by
    rintro (hearly | ⟨hlast, hearly⟩ | hfull)
    · exact Nat.not_le.mpr hearly h.come
    · exact Nat.not_le.mpr hearly (h.turn hlast)
    · exact Bool.false_ne_true (hfull.symm.trans h.room)
  rw [takeWord_eq hf hd he, if_neg (by decide), if_neg hintact, if_neg htime]

end Take

/-- END ends the core (R228). -/
theorem coreOp_end (c : Chip) (i lw : Nat) {w : Dword} (ho : opOf w = 1) (hp : sf w 57 55 = 0) :
    coreOp c i w lw = onCore c i (fun k => { k with ended := true }) := by
  unfold coreOp
  rw [ho]
  exact if_neg (not_not.mpr hp)

/-- A word that has come may be the damaged one. -/
theorem damaged_some {k : Core} {now : Nat} {w : FWord} {rest : List FWord} (hf : k.fifo = w :: rest) (h : w.arrive ≤ now) : ∃ x, damaged k now = some x := by
  unfold damaged
  cases k.fifo.find? (fun w => w.arrive == now) with
  | some x => exact ⟨x, rfl⟩
  | none => exact ⟨w, by rw [hf]; exact if_pos h⟩

/-- A failed CRC check discards what has come and is one fault (R221). -/
theorem crcFail_spec {c : Chip} (hr : c.raised = []) (i : Nat) (x : FWord) :
    core (crcFail c i x) i = discardWords c.now (core c i) ∧
    ∃ r, (crcFail c i x).raised = [r] ∧ r.code = 0x44 ∧ r.lw = x.lw ∧ r.covers = true := by
  refine ⟨(core_onCore c i i _).trans (if_pos rfl), ?_⟩
  unfold crcFail raise
  rw [(sameHand_onCore c i _).2.2, hr]
  exact ⟨_, rfl, rfl, rfl, rfl⟩

/-! Credits and stalls (R222, R223, R226). -/

/-- A core that has returned the credit of its oldest take. -/
def Core.credited (k : Core) : Core := { k with takeTimes := k.takeTimes.tail }

/-- Once every core of the context owes a credit of a take ten cycles ago, each returns one and the context has one more. -/
theorem creditBack_of {c : Chip} {x : Nat} (hs : (ctx c x).back < (ctx c x).sent) (hne : ctxCores (ctx c x) ≠ [])
    (hk : ∀ k ∈ ctxCores (ctx c x), ∃ t0 more, (core c k).takeTimes = t0 :: more ∧ t0 + 10 ≤ c.now) :
    creditBack c x = onCtx (each (ctxCores (ctx c x)) c (fun c i => onCore c i Core.credited)) x (fun t => { t with back := t.back + 1 }) := by
  unfold creditBack
  refine if_pos ⟨hs, hne, List.all_eq_true.mpr fun k hmem => ?_⟩
  obtain ⟨t0, more, htimes, hage⟩ := hk k hmem
  rw [htimes]; exact decide_eq_true hage

theorem queueStallCheck_of {c : Chip} {i q t0 lw : Nat} {j : Job} (hj : coreJob c i = some j) (hh : holdSince (core c i) c.now q = some (t0, lw)) :
    queueStallCheck c i q = if j.hdr.stall < c.now + 1 - t0 then coreFault c i (if q = 5 then engC else q) lw .queueStall 0 (c.now + 1 - t0) 0 else c := by
  unfold queueStallCheck
  rw [hj, hh]

/-- Settles O49: errors strike, then the head of the FIFO is taken, refused or waits; a credit and a stall by their conditions. -/
theorem takesAndCredits : Obligations.TakesAndCredits := by
  intro i us w rest s hq hi hinj hf hd he
  have hstruck := struck_strike i us s.chip
  have hnow := hstruck.now
  have hf' : (core (strike s.chip i us) i).fifo = w :: rest := by rw [hstruck.core]; exact hf
  have hd' : (core (strike s.chip i us) i).dead = false := by rw [hstruck.core]; exact hd
  have he' : (core (strike s.chip i us) i).ended = false := by rw [hstruck.core]; exact he
  have hraised : (strike s.chip i us).raised = [] := hstruck.hand.2.2.trans hq.2.2
  refine ⟨fun hintact hcome hturn hroom => ?_, fun hcome => ?_, fun hbroken hcome => ?_, fun hearly => ?_, fun x hsent hx hne hk => ?_,
    fun j q t0 lw hj hhold => ⟨fun hlong => ?_, fun hshort => ?_⟩⟩
  · have hmay : (core (strike s.chip i us) i).MayTake (strike s.chip i us).now w := by
      rw [hstruck.core, hnow]; exact ⟨hintact, hcome, hturn, (hasRoom_struck us _ w).trans hroom⟩
    have htake := takeWord_takes hf' hd' he' hmay
    have htook := sameHand_onCore (strike s.chip i us) i (Core.took (strike s.chip i us).now w rest)
    have hcore : core (onCore (strike s.chip i us) i (Core.took (strike s.chip i us).now w rest)) i = Core.took s.chip.now w rest ((core s.chip i).struck us) := by
      rw [core_onCore, if_pos rfl, hstruck.core, hnow]
    refine ⟨fun hno => ?_, fun p hp hop hpred => ?_⟩
    · rw [wordSlots_noC hno] at htake
      refine ⟨_, by rw [take_row hi hinj, htake, State.after_sameHand s _ hq (hstruck.hand.trans htook)], ?_⟩
      rw [State.put_chip, hcore]
      unfold Core.took
      rw [enqueue_struck]
      refine ⟨rfl, rfl, rfl, rfl, rfl, rfl, ?_, rfl, hstruck.jobs⟩
      exact congrArg (· ++ _) (enqueue_upsets _ _ _)
    · rw [hp] at htake
      rw [take_row hi hinj, htake.trans (coreOp_end _ _ _ hop hpred)]
      refine ⟨_, congrArg _ (State.after_sameHand s _ hq ((hstruck.hand.trans htook).trans (sameHand_onCore _ i _))), ?_⟩
      rw [State.put_chip, core_onCore, if_pos rfl, hcore]
      exact ⟨rfl, rfl⟩
  · obtain ⟨x, hx⟩ := damaged_some hf hcome
    have hx' : damaged (core (strike s.chip i us) i) (strike s.chip i us).now = some x := by rw [hstruck.core, hnow]; exact hx
    obtain ⟨hcore, r, hr, hcode, hlw, hcov⟩ := crcFail_spec hraised i x
    rw [hstruck.core, hnow] at hcore
    refine ⟨_, r, x, by rw [take_row hi hinj, takeWord_damaged hf' hd' he' hx'], hx, hr, hcode, hlw, hcov, ?_⟩
    rw [hcore, ← hf]
    exact ⟨rfl, rfl, rfl, rfl⟩
  · obtain ⟨hcore, r, hr, hcode, hlw, _⟩ := crcFail_spec hraised i w
    refine ⟨_, r, by rw [take_row hi hinj, takeWord_broken hf' hd' he' (by rw [hnow]; exact hcome) hbroken], hr, hcode, hlw, ?_⟩
    rw [hcore]; rfl
  · rw [take_row hi hinj]
    show Host.Outcome.next (s.after (takeWord s.chip i true)) = _
    rw [takeWord_early hf hd he hearly, State.after_self s hq]
  · have hrow : exec (.credit x) s = .next (s.after (creditBack s.chip (x % 16))) := rfl
    rw [hrow, Nat.mod_eq_of_lt hx, creditBack_of hsent hne hk]
    refine ⟨_, congrArg _ (State.after_sameHand s _ hq ((sameHand_each _ _ (fun c k => sameHand_onCore c k _) _).trans (sameHand_onCtx _ x _))), ?_, rfl, ?_⟩
    · rw [State.put_chip, ctx_onCtx, if_pos rfl]
      exact congrArg (fun t : Ctx => t.back + 1) (each_field (f := fun c i => onCore c i Core.credited) (fun c => ctx c x) (fun _ _ => rfl) _ _)
    · exact each_field (f := fun c i => onCore c i Core.credited) Chip.jobs (fun _ _ => rfl) _ _
  · have hrow : exec (.queueStall i q) s = .next (s.after (queueStallCheck s.chip (coreNo i) q)) := rfl
    rw [hrow, coreNo_of hi, queueStallCheck_of hj hhold, if_pos hlong]
    unfold coreFault raise
    rw [hq.2.2]
    exact ⟨_, _, rfl, rfl, rfl, rfl, rfl⟩
  · have hrow : exec (.queueStall i q) s = .next (s.after (queueStallCheck s.chip (coreNo i) q)) := rfl
    rw [hrow, coreNo_of hi, queueStallCheck_of hj hhold, if_neg (Nat.not_lt.mpr hshort), State.after_self s hq]

end Sys2Proof.Machine
end

section
/-! SUPPORT. V slots that issue: how a row reaches its meaning, what an issue leaves of a core's vector engine, and what it brings (08_vector.md R183-R209;
09_keeper.md R225, R234). -/

namespace Sys2Proof.Machine

/-! What an operation leaves as it was. -/

/-- The V queue of core `i`, its slots in flight, its predicates and its lane flags are the same, and so are the jobs, at the same cycle; no write is added. -/
structure Chip.SameVector (i : Nat) (c d : Chip) : Prop where
  v : (core d i).v = (core c i).v
  flights : (core d i).flights = (core c i).flights
  preds : (core d i).preds = (core c i).preds
  flags : (core d i).flags = (core c i).flags
  now : d.now = c.now
  jobs : d.jobs = c.jobs
  writes : d.writes = c.writes

/-- A core with the same V queue, slots in flight, predicates and lane flags. -/
abbrev Core.SameVector (k k' : Core) : Prop := k'.v = k.v ∧ k'.flights = k.flights ∧ k'.preds = k.preds ∧ k'.flags = k.flags

section Same
variable {i : Nat} {c d e : Chip}

theorem Chip.SameVector.refl (i : Nat) (c : Chip) : c.SameVector i c := ⟨rfl, rfl, rfl, rfl, rfl, rfl, rfl⟩

theorem Chip.SameVector.trans (h : c.SameVector i d) (k : d.SameVector i e) : c.SameVector i e :=
  ⟨k.v.trans h.v, k.flights.trans h.flights, k.preds.trans h.preds, k.flags.trans h.flags, k.now.trans h.now, k.jobs.trans h.jobs, k.writes.trans h.writes⟩

theorem Chip.SameVector.ite {p : Prop} [Decidable p] (h : c.SameVector i d) (k : c.SameVector i e) : c.SameVector i (if p then d else e) := by
  split
  · exact h
  · exact k

theorem sameVector_each {α : Type} (l : List α) {f : Chip → α → Chip} (h : ∀ (c : Chip) x, c.SameVector i (f c x)) (c : Chip) : c.SameVector i (each l c f) :=
  each_keeps (P := c.SameVector i) (fun d x hd => hd.trans (h d x)) l (.refl i c)

theorem sameVector_onCore (c : Chip) (i n : Nat) {f : Core → Core} (h : ∀ k : Core, k.SameVector (f k)) : c.SameVector i (onCore c n f) := by
  have hcore : (core c i).SameVector (core (onCore c n f) i) := by
    rw [core_onCore]
    split
    · next hi => subst hi; exact h _
    · exact ⟨rfl, rfl, rfl, rfl⟩
  obtain ⟨hv, hflights, hpreds, hflags⟩ := hcore
  exact ⟨hv, hflights, hpreds, hflags, rfl, rfl, rfl⟩

theorem sameVector_coreFault (c : Chip) (i eng lw : Nat) (f : FaultCode) (addr x y : Nat) : c.SameVector i (coreFault c i eng lw f addr x y) :=
  ⟨rfl, rfl, rfl, rfl, rfl, rfl, rfl⟩

/-- The cursors of streams advance (R234). -/
theorem sameVector_advance (c : Chip) (i sid w : Nat) (mx : Option Nat) (n : Nat) : c.SameVector i (advance c i sid w mx n) := by
  unfold advance
  split
  · exact .refl i c
  · refine sameVector_onCore c i i fun k => ?_
    simp only []
    split <;> exact ⟨rfl, rfl, rfl, rfl⟩

/-- The checks of a V slot count and report errors (R206). -/
theorem sameVector_residueCheck (c : Chip) (i lw : Nat) (adds : Bool) (x : VecUse) : c.SameVector i (residueCheck c i lw adds x) := by
  unfold residueCheck
  extract_lets c1 hits
  have h1 : c.SameVector i c1 := .ite ⟨rfl, rfl, rfl, rfl, rfl, rfl, rfl⟩ (.refl i c)
  refine .ite h1 ((h1.trans ?_).trans (sameVector_each _ (fun d _ => sameVector_coreFault d i _ _ _ _ _ _) _))
  exact sameVector_onCore c1 i i fun _ => ⟨rfl, rfl, rfl, rfl⟩

end Same

/-! What an issue brings. -/

/-- The slot in flight that takes off at core `i`. -/
def launched (c : Chip) (i eng : Nat) (s : QSlot) (ops : List OpStr) (outs : Nat) (todo : List Todo) (carry : List (List Nat)) (tile : Nat) : Flight :=
  ⟨(core c i).nextId, s, tget 0 (core c i).issued eng, eng, c.now, ops, outs, todo, [], [], carry, tile⟩

/-- From `c` to `d` slot `f` has taken off at core `i`; its V queue, predicates and lane flags and the jobs are the same, at the same cycle, and no write is added. -/
structure Chip.VLaunches (i : Nat) (c d : Chip) (f : Flight) : Prop where
  v : (core d i).v = (core c i).v
  flights : (core d i).flights = (core c i).flights ++ [f]
  preds : (core d i).preds = (core c i).preds
  flags : (core d i).flags = (core c i).flags
  now : d.now = c.now
  jobs : d.jobs = c.jobs
  writes : d.writes = c.writes

section Launch
variable {i n : Nat} {c d e : Chip} {f : Flight} {s : State} {sl : QSlot}

theorem core_takeOff (c : Chip) (i eng : Nat) (s : QSlot) (ops : List OpStr) (outs : Nat) (todo : List Todo) (carry : List (List Nat)) (tile : Nat) :
    core (takeOff c i eng s ops outs todo carry tile) i =
      { core c i with nextId := (core c i).nextId + 1, flights := (core c i).flights ++ [launched c i eng s ops outs todo carry tile] } :=
  (core_onCore c i i _).trans (if_pos rfl)

theorem vLaunches_takeOff (c : Chip) (i eng : Nat) (s : QSlot) (ops : List OpStr) (outs : Nat) (todo : List Todo) (carry : List (List Nat)) (tile : Nat) :
    c.VLaunches i (takeOff c i eng s ops outs todo carry tile) (launched c i eng s ops outs todo carry tile) := by
  have hcore := core_takeOff c i eng s ops outs todo carry tile
  exact ⟨by rw [hcore], by rw [hcore], by rw [hcore], by rw [hcore], rfl, rfl, rfl⟩

theorem Chip.VLaunches.same (h : c.VLaunches i d f) (k : d.SameVector i e) : c.VLaunches i e f :=
  ⟨k.v.trans h.v, k.flights.trans h.flights, k.preds.trans h.preds, k.flags.trans h.flags, k.now.trans h.now, k.jobs.trans h.jobs, k.writes.trans h.writes⟩

theorem core_occupy_v (c : Chip) (i n : Nat) : core (occupy c i .v n) i = { core c i with vReady := c.now + max n 1 } :=
  (core_onCore c i i _).trans (if_pos rfl)

theorem sameHand_occupy (c : Chip) (i : Nat) (q : Queue) (n : Nat) : c.SameHand (occupy c i q n) := sameHand_onCore c i _

/-- The V queue without its head, where all else of the vector engine but its next issue is as it was. -/
theorem popHead_v (c : Chip) (i : Nat) : (core (popHead c i .v) i).v = (core c i).v.tail ∧ (core (popHead c i .v) i).flights = (core c i).flights ∧
    (core (popHead c i .v) i).preds = (core c i).preds ∧ (core (popHead c i .v) i).flags = (core c i).flags := by
  rw [core_popHead]; exact ⟨rfl, rfl, rfl, rfl⟩

theorem predOf_popHead_v (c : Chip) (i t p : Nat) : predOf (core (popHead c i .v) i) t p = predOf (core c i) t p := by
  rw [core_popHead]; rfl

theorem flagsBefore_popHead_v (c : Chip) (i t l : Nat) : flagsBefore (core (popHead c i .v) i) t l = flagsBefore (core c i) t l := by
  rw [core_popHead]; rfl

/-- What the head of the V queue leaves of core `i` when it has taken off as `f` and occupies the engine for `n` cycles. -/
structure State.VRuns (s : State) (i n : Nat) (f : Flight) (c : Chip) : Prop where
  ready : (core c i).vReady = s.chip.now + n
  v : (core c i).v = (core s.chip i).v.tail
  flights : (core c i).flights = (core s.chip i).flights ++ [f]
  preds : (core c i).preds = (core s.chip i).preds
  flags : (core c i).flags = (core s.chip i).flags
  jobs : c.jobs = s.chip.jobs
  writes : c.writes = []

theorem Chip.VLaunches.occupied (h : (popHead s.chip i .v).VLaunches i d f) (hq : s.quiet) (hn : 0 < n) : s.VRuns i n f (occupy d i .v n) := by
  obtain ⟨hv, hflights, hpreds, hflags⟩ := popHead_v s.chip i
  have hcore := core_occupy_v d i n
  refine ⟨?_, ?_, ?_, ?_, ?_, h.jobs, h.writes.trans hq.1⟩
  all_goals rw [hcore]
  · show d.now + max n 1 = _
    rw [h.now, Nat.max_eq_left hn]; rfl
  · exact h.v.trans hv
  · exact h.flights.trans (congrArg (· ++ [f]) hflights)
  · exact h.preds.trans hpreds
  · exact h.flags.trans hflags

theorem State.VRuns.length {f : Flight} (h : s.VRuns i n f c) : (core c i).flights.length = (core s.chip i).flights.length + 1 := by
  rw [h.flights]; exact List.length_append

/-! The rows. -/

/-- A head of the V queue runs the meaning of its opcode (R208). -/
theorem lift_vSlot_of {op : Nat} (hi : i < 1024) (h : Head s i .v sl op) (ho : op ≤ 7) (f : Env → Chip → Nat → QSlot → Chip) :
    lift (vSlot op f i) s = .next (s.after (f s.env (popHead s.chip i .v) i sl)) :=
  lift_issue_of h ho (vSlot_eq hi op f _ _)

/-- A slot that only occupies the engine leaves nothing in hand. -/
theorem lift_vSlot_occupies {op : Nat} (hq : s.quiet) (hi : i < 1024) (h : Head s i .v sl op) (ho : op ≤ 7) {f : Env → Chip → Nat → QSlot → Chip}
    (hf : f s.env (popHead s.chip i .v) i sl = occupy (popHead s.chip i .v) i .v n) :
    lift (vSlot op f i) s = .next (s.put (occupy (popHead s.chip i .v) i .v n)) := by
  rw [lift_vSlot_of hi h ho, hf, State.after_sameHand s _ hq ((sameHand_popHead _ _ _).trans (sameHand_occupy _ _ _ _))]

/-- A slot that takes off and occupies the engine for `n` cycles. -/
theorem lift_vSlot_runs {op : Nat} (hq : s.quiet) (hi : i < 1024) (h : Head s i .v sl op) (ho : op ≤ 7) {f : Env → Chip → Nat → QSlot → Chip} (hn : 0 < n)
    (hf : ∃ d g, f s.env (popHead s.chip i .v) i sl = occupy d i .v n ∧ (popHead s.chip i .v).VLaunches i d g) :
    ∃ c g, lift (vSlot op f i) s = .next (s.after c) ∧ s.VRuns i n g c := by
  obtain ⟨d, g, heq, hl⟩ := hf
  exact ⟨_, g, by rw [lift_vSlot_of hi h ho, heq], hl.occupied hq hn⟩

end Launch

end Sys2Proof.Machine
end

section
/-! O45: V slots, their times, predicates and flags (08_vector.md R186-R208; 09_keeper.md R227). -/

namespace Sys2Proof.Machine

theorem cdiv_pos {n d : Nat} (hn : 0 < n) (hd : 0 < d) : 0 < cdiv n d := Nat.div_pos (by omega) hd

/-- The predicate of a slot `w` is true at core `i` now (R227). -/
abbrev PredOn (c : Chip) (i : Nat) (w : Dword) : Prop := predOf (core c i) c.now (sf w 57 55) = true

theorem predOn_popHead {s : State} {i : Nat} {sl : QSlot} : PredOn (popHead s.chip i .v) i sl.w ↔ Enabled s i sl := by
  unfold PredOn Enabled
  rw [predOf_popHead_v]; rfl

/-! VCHAIN (R186-R189, R208). -/

section Chain
variable {e : Env} {c : Chip} {i : Nat} {sl : QSlot} {ch : Chain}

/-- Cycles that a group of a chain takes (R188). -/
abbrev chainCycles (ch : Chain) : Nat := if ch.complex then 2 else 1

theorem chainCycles_pos {n : Nat} (hn : 0 < n) : 0 < chainCycles ch * cdiv n 64 :=
  Nat.mul_pos (by unfold chainCycles; split <;> decide) (cdiv_pos hn (by decide))

/-- Streams that a VCHAIN claims (R186, R234). -/
abbrev chainStreams (ch : Chain) (w : Dword) : List Nat :=
  (chainIns ch [sf w 30 26, sf w 25 21, sf w 20 16]).map (fun x => x.2.1) ++ ([sf w 15 11] ++ if ch.eEn then [sf w 10 6] else [])

theorem vchain_stray (hch : chainOf c i (sf sl.w 54 49) = some ch) (hs : strayFormat ch false = true) :
    vchain e c i sl = coreFault c i engV sl.lw .vEncoding 0 0 0 := by
  unfold vchain
  extract_lets w n
  rw [show chainOf c i (sf w 54 49) = some ch from hch]
  exact if_pos hs

theorem vchain_zero (hch : chainOf c i (sf sl.w 54 49) = some ch) (hs : strayFormat ch false = false) (hn : sf sl.w 48 31 = 0) :
    vchain e c i sl = occupy c i .v 1 := by
  unfold vchain
  extract_lets w n
  rw [show chainOf c i (sf w 54 49) = some ch from hch]
  exact (if_neg (by rw [hs]; decide)).trans (if_pos hn)

theorem vchain_skipped (hch : chainOf c i (sf sl.w 54 49) = some ch) (hs : strayFormat ch false = false) (hn : 0 < sf sl.w 48 31) (hp : ¬PredOn c i sl.w) :
    vchain e c i sl = occupy c i .v (chainCycles ch * cdiv (sf sl.w 48 31) 64) := by
  unfold vchain
  extract_lets w n
  rw [show chainOf c i (sf w 54 49) = some ch from hch]
  exact (if_neg (by rw [hs]; decide)).trans ((if_neg hn.ne').trans (if_pos (by simpa using hp)))

theorem vchain_launches (hch : chainOf c i (sf sl.w 54 49) = some ch) (hs : strayFormat ch false = false) (hn : 0 < sf sl.w 48 31) (hp : PredOn c i sl.w)
    (hc : ∀ eng lw m, claim c i eng lw m (chainStreams ch sl.w) = (true, c)) :
    ∃ d f, vchain e c i sl = occupy d i .v (chainCycles ch * cdiv (sf sl.w 48 31) 64) ∧ c.VLaunches i d f := by
  unfold vchain
  extract_lets w n
  rw [show chainOf c i (sf w 54 49) = some ch from hch]
  simp -zeta only []
  extract_lets kk ins outs k xs m acts c1 c2 c3 ops
  have hk : k = (true, c) := by
    have houts : outs.map Prod.fst = [sf sl.w 15 11] ++ if ch.eEn then [sf sl.w 10 6] else [] := by
      unfold outs; split <;> rfl
    unfold k; rw [houts]; exact hc _ _ _
  rw [if_neg (by rw [hs]; decide), if_neg hn.ne', if_neg (by simpa using hp), hk]
  have h1 : c.VLaunches i c1 _ := vLaunches_takeOff c i _ _ _ _ _ _ _
  have h2 : c1.SameVector i c2 := sameVector_each _ (fun d x => sameVector_advance d i _ _ _ _) c1
  have h3 : c2.SameVector i c3 := sameVector_each _ (fun d x => sameVector_advance d i _ _ _ _) c2
  exact ⟨_, _, rfl, ((h1.same h2).same h3).same (sameVector_residueCheck _ _ _ _ _)⟩

end Chain

/-! VPROG (R191-R194). -/

section Prog
variable {e : Env} {c : Chip} {i : Nat} {sl : QSlot} {p : EProg}

theorem vprog_zero (hpr : progOf c i (sf sl.w 54 51) = some p) (hn : sf sl.w 50 33 = 0) : vprog e c i sl = occupy c i .v 1 := by
  unfold vprog
  extract_lets w n
  rw [show progOf c i (sf w 54 51) = some p from hpr]
  exact if_pos hn

theorem vprog_skipped (hpr : progOf c i (sf sl.w 54 51) = some p) (hn : 0 < sf sl.w 50 33) (hp : ¬PredOn c i sl.w) :
    vprog e c i sl = occupy c i .v (16 * p.words.length * cdiv (sf sl.w 50 33) 1024) := by
  unfold vprog
  extract_lets w n
  rw [show progOf c i (sf w 54 51) = some p from hpr]
  exact (if_neg hn.ne').trans (if_pos (by simpa using hp))

theorem vprog_launches (hpr : progOf c i (sf sl.w 54 51) = some p) (hn : 0 < sf sl.w 50 33) (hp : PredOn c i sl.w)
    (hc : ∀ eng lw m, claim c i eng lw m ((progIns p sl.w).map Prod.fst ++ (progOuts p sl.w).map Prod.fst) = (true, c)) :
    ∃ d f, vprog e c i sl = occupy d i .v (16 * p.words.length * cdiv (sf sl.w 50 33) 1024) ∧ c.VLaunches i d f := by
  unfold vprog
  extract_lets w n
  rw [show progOf c i (sf w 54 51) = some p from hpr]
  simp -zeta only []
  extract_lets len ins outs k xs acts c1 c2 c3 ops
  rw [if_neg hn.ne', if_neg (by simpa using hp), show k = (true, c) from hc _ _ _]
  have h1 : c.VLaunches i c1 _ := vLaunches_takeOff c i _ _ _ _ _ _ _
  have h2 : c1.SameVector i c2 := sameVector_each _ (fun d x => sameVector_advance d i _ _ _ _) c1
  have h3 : c2.SameVector i c3 := sameVector_each _ (fun d x => sameVector_advance d i _ _ _ _) c2
  exact ⟨_, _, rfl, ((h1.same h2).same h3).same (sameVector_residueCheck _ _ _ _ _)⟩

end Prog

/-! VRED (R197, R198). -/

section Red
variable {e : Env} {c : Chip} {i : Nat} {sl : QSlot} {ch : Chain}

/-- The fields of a VRED with chain `ch` are valid (R197, R208). -/
structure RedOk (ch : Chain) (w : Dword) : Prop where
  plain : ch.complex = false
  formats : strayFormat ch true = false
  kind : sf w 48 46 < 5

theorem RedOk.fields {w : Dword} (h : RedOk ch w) : ¬(5 ≤ sf w 48 46 ∨ ch.complex = true ∨ strayFormat ch true = true) := by
  rintro (hk | hx | hs)
  · exact Nat.not_le.mpr h.kind hk
  · exact Bool.false_ne_true (h.plain.symm.trans hx)
  · exact Bool.false_ne_true (h.formats.symm.trans hs)

/-- Cycles of a VRED (R198). -/
abbrev redCycles (w : Dword) : Nat := sf w 23 15 * segCycles (sf w 48 46) (sf w 45 40 + 1) (sf w 39 24 + 1)

theorem redCycles_pos {w : Dword} (hn : 0 < sf w 23 15) : 0 < redCycles w := by
  have hgroups : 0 < cdiv (sf w 39 24 + 1) 64 := cdiv_pos (Nat.succ_pos _) (by decide)
  refine Nat.mul_pos hn ?_
  unfold segCycles
  split
  · exact lt_max_of_lt_left hgroups
  · exact hgroups

theorem vred_zero (hch : chainOf c i (sf sl.w 54 49) = some ch) (h : RedOk ch sl.w) (hn : sf sl.w 23 15 = 0) : vred e c i sl = occupy c i .v 1 := by
  unfold vred
  extract_lets w kind k len segs os seg
  rw [show chainOf c i (sf w 54 49) = some ch from hch]
  exact (if_neg h.fields).trans (if_pos hn)

theorem vred_skipped (hch : chainOf c i (sf sl.w 54 49) = some ch) (h : RedOk ch sl.w) (hn : 0 < sf sl.w 23 15) (hp : ¬PredOn c i sl.w) :
    vred e c i sl = occupy c i .v (redCycles sl.w) := by
  unfold vred
  extract_lets w kind k len segs os seg
  rw [show chainOf c i (sf w 54 49) = some ch from hch]
  exact (if_neg h.fields).trans ((if_neg hn.ne').trans (if_pos (by simpa using hp)))

theorem vred_launches (hch : chainOf c i (sf sl.w 54 49) = some ch) (h : RedOk ch sl.w) (hn : 0 < sf sl.w 23 15) (hp : PredOn c i sl.w)
    (hc : ∀ eng lw m, claim c i eng lw m ((chainIns ch [sf sl.w 14 10, sf sl.w 9 5]).map (fun x => x.2.1) ++ [sf sl.w 4 0]) = (true, c)) :
    ∃ d f, vred e c i sl = occupy d i .v (redCycles sl.w) ∧ c.VLaunches i d f := by
  unfold vred
  extract_lets w kind k len segs os seg
  rw [show chainOf c i (sf w 54 49) = some ch from hch]
  simp -zeta only []
  extract_lets ins kl xs acts c1 c2 c3 ops
  rw [if_neg h.fields, if_neg hn.ne', if_neg (by simpa using hp), show kl = (true, c) from hc _ _ _]
  have h1 : c.VLaunches i c1 _ := vLaunches_takeOff c i _ _ _ _ _ _ _
  have h2 : c1.SameVector i c2 := sameVector_each _ (fun d x => sameVector_advance d i _ _ _ _) c1
  have h3 : c2.SameVector i c3 := sameVector_advance _ _ _ _ _ _
  exact ⟨_, _, rfl, ((h1.same h2).same h3).same (sameVector_residueCheck _ _ _ _ _)⟩

end Red

/-! VPERM (R195, R196). -/

section Perm
variable {e : Env} {c : Chip} {i : Nat} {sl : QSlot}

/-- The fields of a VPERM are valid (R195, R208). -/
structure PermOk (w : Dword) : Prop where
  mode : sf w 54 53 ≠ 3
  width : sf w 52 51 ≠ 3
  rows : sf w 54 53 = 2 → (sf w 50 39 + 1) % (sf w 38 27 + 1) = 0
  group : let g := sf w 50 39 + 1
    g = 2 ∨ g = 4 ∨ g = 8 ∨ g = 16 ∨ g = 32 ∨ g = 64 ∨ g = 128 ∨ g = 256 ∨ g = 512 ∨ g = 1024 ∨ g = 2048 ∨ g = 4096 ∨ (sf w 54 53 ≠ 1 ∧ g % 64 = 0)

/-- Sizes of a permutation group that VPERM takes (R195). -/
def groupOk (g : Nat) : Bool := (isPow2 g && decide (2 ≤ g) && decide (g ≤ 64)) || (g % 64 == 0 && decide (g ≤ 4096))

theorem sf_lt (w : Dword) (hi lo : Nat) : sf w hi lo < 2 ^ (hi + 1 - lo) := Nat.mod_lt _ (Nat.two_pow_pos _)

/-- A valid size is one that VPERM takes, and in bit-reversed order a power of 2. -/
theorem PermOk.sizes {w : Dword} (h : PermOk w) : groupOk (sf w 50 39 + 1) = true ∧ (sf w 54 53 = 1 → isPow2 (sf w 50 39 + 1) = true) := by
  have hpow : ∀ g ∈ [2, 4, 8, 16, 32, 64, 128, 256, 512, 1024, 2048, 4096], groupOk g = true ∧ isPow2 g = true := by decide
  have hmax : sf w 50 39 < 4096 := sf_lt w 50 39
  by_cases hg : sf w 50 39 + 1 ∈ [2, 4, 8, 16, 32, 64, 128, 256, 512, 1024, 2048, 4096]
  · exact ⟨(hpow _ hg).1, fun _ => (hpow _ hg).2⟩
  · have hmult : sf w 54 53 ≠ 1 ∧ (sf w 50 39 + 1) % 64 = 0 := by
      have hgroup := h.group
      simp only [List.mem_cons, List.not_mem_nil, or_false, not_or] at hg
      tauto
    refine ⟨?_, fun hm => absurd hm hmult.1⟩
    unfold groupOk
    rw [hmult.2, decide_eq_true (show sf w 50 39 + 1 ≤ 4096 by omega)]
    exact Bool.or_true _

theorem PermOk.fields {w : Dword} (h : PermOk w) : ¬(sf w 54 53 = 3 ∨ sf w 52 51 = 3 ∨ groupOk (sf w 50 39 + 1) = false ∨
    (sf w 54 53 = 1 ∧ isPow2 (sf w 50 39 + 1) = false) ∨ (sf w 54 53 = 2 ∧ (sf w 50 39 + 1) % (sf w 38 27 + 1) ≠ 0)) := by
  obtain ⟨hsize, hpow⟩ := h.sizes
  rintro (hm | hw | hg | ⟨hm, hg⟩ | ⟨hm, hr⟩)
  · exact h.mode hm
  · exact h.width hw
  · exact Bool.false_ne_true (hg.symm.trans hsize)
  · exact Bool.false_ne_true (hg.symm.trans (hpow hm))
  · exact hr (h.rows hm)

theorem vperm_launches (h : PermOk sl.w) (hn : 0 < sf sl.w 26 15) (hp : PredOn c i sl.w)
    (hc : ∀ eng lw m, claim c i eng lw m ([sf sl.w 14 10, sf sl.w 4 0] ++ if sf sl.w 54 53 = 0 then [sf sl.w 9 5] else []) = (true, c)) :
    ∃ d f, vperm e c i sl = occupy d i .v (cdiv (sf sl.w 26 15 * (sf sl.w 50 39 + 1)) 64) ∧ c.VLaunches i d f := by
  unfold vperm
  extract_lets w mode ew g rows n as is_ os okG kl wd xs groups unit ixs reads calcs c1 c2 c3
  have hfields : ¬(mode = 3 ∨ ew = 3 ∨ okG = false ∨ (mode = 1 ∧ isPow2 g = false) ∨ (mode = 2 ∧ g % rows ≠ 0)) := h.fields
  rw [if_neg hfields, if_neg hn.ne', if_neg (by simpa using hp), show kl = (true, c) from hc _ _ _]
  have h1 : c.VLaunches i c1 _ := vLaunches_takeOff c i _ _ _ _ _ _ _
  have h2 : c1.SameVector i c2 := .ite (sameVector_advance _ _ _ _ _ _) (.refl i c1)
  have h3 : c2.SameVector i c3 := (sameVector_advance _ _ _ _ _ _).trans (sameVector_advance _ _ _ _ _ _)
  exact ⟨_, _, rfl, ((h1.same h2).same h3).same (sameVector_residueCheck _ _ _ _ _)⟩

end Perm

/-! VDRAW (R201, R202). -/

section Draw
variable {e : Env} {c : Chip} {i : Nat} {sl : QSlot}

/-- Cycles of a VDRAW (R202). -/
abbrev drawCycles (w : Dword) : Nat := sf w 34 26 * (2 * cdiv (sf w 50 35 + 1) 64 + 72)

theorem vdraw_zero (hn : sf sl.w 34 26 = 0) : vdraw e c i sl = occupy c i .v 1 := if_pos hn

theorem vdraw_skipped (hn : 0 < sf sl.w 34 26) (hp : ¬PredOn c i sl.w) : vdraw e c i sl = occupy c i .v (drawCycles sl.w) :=
  (if_neg hn.ne').trans (if_pos (by simpa using hp))

theorem vdraw_launches (hn : 0 < sf sl.w 34 26) (hp : PredOn c i sl.w)
    (hc : ∀ eng lw m, claim c i eng lw m [sf sl.w 25 21, sf sl.w 20 16, sf sl.w 15 11] = (true, c)) :
    ∃ d f, vdraw e c i sl = occupy d i .v (drawCycles sl.w) ∧ c.VLaunches i d f := by
  unfold vdraw
  extract_lets w fmt n segs as ts os g seg kl xs acts c1 c2
  rw [if_neg hn.ne', if_neg (by simpa using hp), show kl = (true, c) from hc _ _ _]
  have h1 : c.VLaunches i c1 _ := vLaunches_takeOff c i _ _ _ _ _ _ _
  have h2 : c1.SameVector i c2 :=
    ((sameVector_advance _ _ _ _ _ _).trans (sameVector_advance _ _ _ _ _ _)).trans (sameVector_advance _ _ _ _ _ _)
  exact ⟨_, _, rfl, (h1.same h2).same (sameVector_residueCheck _ _ _ _ _)⟩

end Draw

/-! VFLAG (R203). -/

section Flag
variable {e : Env} {c d : Chip} {i : Nat} {sl : QSlot}

/-- A core without the lane flags set before cycle `now`. -/
def Core.cleared (now : Nat) (k : Core) : Core := { k with flags := k.flags.filter (fun f => decide (now ≤ f.at_)) }

/-- The lane flags set before cycle `now`, four bits a lane from lane 0 up. -/
def laneCapture (k : Core) (now : Nat) : Nat := (List.range 64).foldr (fun l acc => acc * 16 + (flagsBefore k now l).toNat) 0

/-- A number put together of digits below `b`, the first lowest, has these digits. -/
theorem foldr_digit {b : Nat} (g : Nat → Nat) (hg : ∀ x, g x < b) (xs : List Nat) {l : Nat} (hl : l < xs.length) :
    xs.foldr (fun x acc => acc * b + g x) 0 / b ^ l % b = g xs[l] := by
  induction xs generalizing l with
  | nil => exact absurd hl (Nat.not_lt_zero l)
  | cons x xs ih =>
    have hb : 0 < b := Nat.zero_lt_of_lt (hg x)
    rw [List.foldr_cons]
    cases l with
    | zero => rw [Nat.pow_zero, Nat.div_one, Nat.mul_add_mod_of_lt (hg x)]; rfl
    | succ l =>
      rw [Nat.pow_succ', ← Nat.div_div_eq_div_mul, Nat.mul_comm, Nat.mul_add_div hb, Nat.div_eq_of_lt (hg x), Nat.add_zero]
      exact ih (Nat.lt_of_succ_lt_succ hl)

theorem laneCapture_digit (k : Core) (now : Nat) {l : Nat} (hl : l < 64) : laneCapture k now / 16 ^ l % 16 = (flagsBefore k now l).toNat := by
  have h := foldr_digit (fun l => (flagsBefore k now l).toNat) (fun l => (flagsBefore k now l).isLt) (List.range 64) (l := l) (by simpa using hl)
  rw [List.getElem_range] at h
  exact h

theorem vflag_skipped (hm : sf sl.w 54 53 ≠ 3) (hp : ¬PredOn c i sl.w) : vflag e c i sl = occupy c i .v 1 :=
  (if_neg hm).trans (if_pos (by simpa using hp))

/-- A VFLAG of mode 2 only clears. -/
theorem vflag_clears (hm : sf sl.w 54 53 = 2) (hp : PredOn c i sl.w) : vflag e c i sl = occupy (onCore c i (Core.cleared c.now)) i .v 1 := by
  unfold vflag
  extract_lets mode os kl cap c1 c2
  have hmode : mode = 2 := hm
  have hkl : kl = (true, c) := if_pos hmode
  have hc1 : c1 = c := if_pos hmode
  have hc2 : c2 = onCore c i (Core.cleared c.now) := (if_neg (by rw [hmode]; decide)).trans (by rw [hc1]; rfl)
  rw [if_neg (by rw [hmode]; decide), if_neg (by simpa using hp), hkl, hc2]
  rfl

/-- A VFLAG of mode 0 or 1 writes what it captures, and in mode 1 clears. -/
theorem vflag_captures (hm : sf sl.w 54 53 < 2) (hp : PredOn c i sl.w) (hc : ∀ eng lw m, claim c i eng lw m [sf sl.w 52 48] = (true, c)) :
    ∃ d f, vflag e c i sl = occupy (if sf sl.w 54 53 = 0 then d else onCore d i (Core.cleared c.now)) i .v 1 ∧ c.VLaunches i d f ∧
      f.todo = [⟨c.now, .write 0 0 [laneCapture (core c i) c.now]⟩] := by
  unfold vflag
  extract_lets mode os kl cap c1 c2
  have hmode : mode < 2 := hm
  have hkl : kl = (true, c) := (if_neg (by omega)).trans (hc _ _ _)
  rw [if_neg (by omega), if_neg (by simpa using hp), hkl]
  refine ⟨c1, launched c i engV sl (opList (core c i) c.now [(os, 256, none, .nearOnly)]).1 0 [⟨c.now, .write 0 0 [cap]⟩] [] 0, rfl, ?_, rfl⟩
  unfold c1
  rw [if_neg (show ¬mode = 2 by omega)]
  exact (vLaunches_takeOff c i engV sl _ 0 _ [] 0).same (sameVector_advance _ _ _ _ _ _)

theorem core_occupy_cleared (d : Chip) (i t n : Nat) : core (occupy (onCore d i (Core.cleared t)) i .v n) i = (core (occupy d i .v n) i).cleared t := by
  rw [core_occupy_v, core_occupy_v, core_onCore, if_pos rfl]; rfl

end Flag

/-! VTEST (R205). -/

section Test
variable {e : Env} {c : Chip} {i : Nat} {sl : QSlot}

/-- The reads of elements of an operand end with the one of the operand itself (R232). -/
theorem mem_readsOf (ops : List OpStr) (o at_ k : Nat) {n : Nat} (hn : n ≠ 0) : ⟨at_, .read o k n⟩ ∈ readsOf ops o at_ k n := by
  unfold readsOf
  rw [if_neg hn]
  exact List.mem_append_right _ (List.mem_singleton_self _)

theorem vtest_skipped (hd : sf sl.w 54 52 ≠ 0) (hp : ¬PredOn c i sl.w) : vtest e c i sl = occupy c i .v 1 :=
  (if_neg hd).trans (if_pos (by simpa using hp))

/-- A VTEST reads its element and computes its condition in the cycle of its issue. -/
theorem vtest_launches (hd : sf sl.w 54 52 ≠ 0) (hp : PredOn c i sl.w) (hc : ∀ eng lw m, claim c i eng lw m [sf sl.w 49 45] = (true, c)) :
    ∃ d f, vtest e c i sl = occupy d i .v 1 ∧ c.VLaunches i d f ∧ f.slot = sl ∧ f.start = c.now ∧ ⟨c.now, .read 0 0 1⟩ ∈ f.todo ∧
      ⟨c.now, .calc 0⟩ ∈ f.todo := by
  unfold vtest
  extract_lets pd as kl xs
  rw [if_neg hd, if_neg (by simpa using hp), show kl = (true, c) from hc _ _ _]
  refine ⟨_, _, rfl, (vLaunches_takeOff c i engV sl _ _ _ [] 0).same (sameVector_advance _ _ _ _ _ _), rfl, rfl, ?_, ?_⟩
  · exact List.mem_append_left _ (mem_readsOf _ _ _ _ (by decide))
  · exact List.mem_append_right _ (List.mem_singleton_self _)

end Test

/-! A unit that is computed (R190, R205). -/

/-- From `c` to `d` a unit of a V slot at core `i` has been computed: the arrays, what waits at the core's port and in its remote queue, and the jobs are as
they were, at the same cycle. -/
structure Chip.Computes (i : Nat) (c d : Chip) : Prop where
  aside : c.Aside d
  eject : (core d i).eject = (core c i).eject
  remq : (core d i).remq = (core c i).remq
  now : d.now = c.now
  jobs : d.jobs = c.jobs

section Unit
variable {c d e : Chip} {i : Nat} {f : Flight}

theorem Chip.Computes.trans (h : c.Computes i d) (k : d.Computes i e) : c.Computes i e :=
  ⟨h.aside.trans k.aside, k.eject.trans h.eject, k.remq.trans h.remq, k.now.trans h.now, k.jobs.trans h.jobs⟩

theorem computes_each {α : Type} (l : List α) {g : Chip → α → Chip} (h : ∀ (c : Chip) x, c.Computes i (g c x)) (c : Chip) : c.Computes i (each l c g) :=
  each_keeps (P := c.Computes i) (fun d x hd => hd.trans (h d x)) l ⟨.refl c, rfl, rfl, rfl, rfl⟩

theorem computes_onCore (c : Chip) (i : Nat) {g : Core → Core} (h : ∀ k : Core, k.Keeps (g k)) (he : ∀ k, (g k).eject = k.eject)
    (hr : ∀ k, (g k).remq = k.remq) : c.Computes i (onCore c i g) := by
  have hcore : core (onCore c i g) i = g (core c i) := (core_onCore c i i g).trans (if_pos rfl)
  exact ⟨aside_onCore c i h, by rw [hcore, he], by rw [hcore, hr], rfl, rfl⟩

theorem computes_onFlight (c : Chip) (i id : Nat) (g : Flight → Flight) : c.Computes i (onFlight c i id g) :=
  computes_onCore c i (fun _ => ⟨rfl, rfl, rfl, rfl⟩) (fun _ => rfl) (fun _ => rfl)

theorem computes_testCalc (c : Chip) (i : Nat) (f : Flight) : c.Computes i (testCalc c i f) :=
  computes_onCore c i (fun _ => ⟨rfl, rfl, rfl, rfl⟩) (fun _ => rfl) (fun _ => rfl)

theorem computes_chainCalc (c : Chip) (i : Nat) (f : Flight) (g : Nat) : c.Computes i (chainCalc c i f g) := by
  unfold chainCalc
  extract_lets w n cnt fin
  split
  · exact ⟨.refl c, rfl, rfl, rfl, rfl⟩
  · extract_lets kk pos rs at_ val out d z c1 c2
    have h1 : c.Computes i c1 := computes_onFlight c i f.id _
    have h2 : c1.Computes i c2 := computes_each _ (fun d p => computes_onFlight d i f.id _) c1
    exact (h1.trans h2).trans (computes_onCore c2 i (fun _ => ⟨rfl, rfl, rfl, rfl⟩) (fun _ => rfl) (fun _ => rfl))

/-- One slot is in flight at core `i`, of number `id` and with the acts `todo` to come. -/
def Chip.OneFlight (i id : Nat) (todo : List Todo) (c : Chip) : Prop := ∃ g, (core c i).flights = [g] ∧ g.id = id ∧ g.todo = todo

theorem flights_onFlight (c : Chip) (i id : Nat) (g : Flight → Flight) :
    (core (onFlight c i id g) i).flights = (core c i).flights.map (fun f => if f.id = id then g f else f) := by
  have hcore : core (onFlight c i id g) i = _ := (core_onCore c i i _).trans (if_pos rfl)
  rw [hcore]

theorem Chip.OneFlight.onFlight {id : Nat} {t t' : List Todo} (h : c.OneFlight i id t) {g : Flight → Flight} (hid : ∀ x, (g x).id = x.id)
    (ht : ∀ x, x.todo = t → (g x).todo = t') : (onFlight c i id g).OneFlight i id t' := by
  obtain ⟨f, hf, hfid, hft⟩ := h
  refine ⟨g f, ?_, (hid f).trans hfid, ht f hft⟩
  rw [flights_onFlight, hf, List.map_singleton, if_pos hfid]

/-- An operand forgets elements with no change of what is to come. -/
theorem Chip.OneFlight.forget {id : Nat} {t : List Todo} (h : c.OneFlight i id t) (on k : Nat) : (forget c i id on k).OneFlight i id t := by
  refine h.onFlight (fun x => ?_) (fun x hx => ?_)
  · split <;> rfl
  · split
    · exact hx
    · exact hx

/-- Lane flags are raised with no change of what is to come. -/
theorem Chip.OneFlight.addFlags {id : Nat} {t : List Todo} (h : c.OneFlight i id t) (fs : List FlagSet) : (addFlags c i fs).OneFlight i id t := by
  have hcore : core (Machine.addFlags c i fs) i = _ := (core_onCore c i i _).trans (if_pos rfl)
  unfold Chip.OneFlight
  rw [hcore]
  exact h

theorem flat_plain (xs : List Cx) : flat false xs = xs.map Prod.fst := List.map_eq_flatMap.symm

/-- The write of the first group of a plain chain with binary32 output: Λ cycles on, each element with its stage's value (R186, R189, R190). -/
def plainWrite (c : Chip) (i : Nat) (ch : Chain) (f : Flight) : Todo :=
  ⟨c.now + 3 + chainLat (profileOf c i) ch, .write f.outs 0
    ((chainElems ch f (inPos f (chainIns ch [sf f.slot.w 30 26, sf f.slot.w 25 21, sf f.slot.w 20 16])) 0 (min 64 (sf f.slot.w 48 31)) 0).map
      (fun x => ((runChain ch x).1.getD ch.dSel (0, 0)).1))⟩

/-- The computation of that group adds that write and no other act. -/
theorem chainCalc_plain {ch : Chain} {o : OpStr} (hf : (core c i).flights = [f]) (hch : chainOf c i (sf f.slot.w 54 49) = some ch) (hc : ch.complex = false)
    (he : ch.eEn = false) (ho : ch.ofmt.getD 0 0 = 14) (hout : f.ops[f.outs]? = some o) :
    (chainCalc c i f 0).OneFlight i f.id (f.todo ++ [plainWrite c i ch f]) := by
  unfold chainCalc
  extract_lets w n cnt fin
  rw [show chainOf c i (sf w 54 49) = some ch from hch]
  simp -zeta only []
  extract_lets kk pos rs at_ val out d z c1 c2
  have hval : val ch.dSel = (chainElems ch f pos 0 (min 64 n) 0).map (fun x => ((runChain ch x).1.getD ch.dSel (0, 0)).1) := by
    unfold val rs
    rw [hc, flat_plain, List.map_map, List.map_map]
    rfl
  have hd : d = ([⟨at_, .write f.outs 0 (val ch.dSel)⟩], [], []) := by
    unfold d out
    rw [hout, ho]
    rfl
  have hz : z = ([], [], []) := by unfold z; rw [he]; rfl
  have h1 : c1.OneFlight i f.id (f.todo ++ [⟨at_, .write f.outs 0 (val ch.dSel)⟩]) := by
    unfold c1
    rw [hd, hz]
    exact Chip.OneFlight.onFlight (t := f.todo) ⟨f, hf, rfl, rfl⟩ (fun _ => rfl) (fun _ hx => by rw [hx]; rfl)
  have h2 : c2.OneFlight i f.id _ := each_keeps (P := Chip.OneFlight i f.id _) (fun d p hd => hd.forget _ _) _ h1
  rw [hval] at h2
  exact h2.addFlags _

end Unit

/-! The cycle of a core at which one unit is computed. -/

/-- The one slot in flight at core `i` is a V slot whose one act computes its first unit now; nothing waits at the core's port or in its remote queue, and its
arrays are still. -/
structure Chip.UnitOnly (c : Chip) (i : Nat) (f : Flight) : Prop where
  flight : (core c i).flights = [f]
  eng : f.eng = 2
  todo : f.todo = [⟨c.now, .calc 0⟩]
  eject : (core c i).eject = []
  remq : (core c i).remq = []
  still0 : (core c i).a0.still
  still1 : (core c i).a1.still

/-- A slot in flight without the acts that are done in cycle `now`. -/
def Flight.left (now : Nat) (f : Flight) : Flight := { f with todo := f.todo.filter (fun t => t.act == .stay || decide (now < t.at_)) }

section Cycle
variable {c d : Chip} {i : Nat} {f g : Flight}

/-- It accesses nothing. -/
theorem Chip.UnitOnly.noActs (h : c.UnitOnly i f) : coreActs (core c i) c.now = [] := by
  have hdue : dueActs f c.now = [] := by unfold dueActs; rw [h.todo]; simp
  unfold coreActs
  rw [h.flight]
  refine List.flatMap_eq_nil_iff.mpr fun e _ => List.flatMap_eq_nil_iff.mpr fun g hg => ?_
  rw [List.mem_singleton.mp (List.mem_filter.mp hg).1, hdue]; rfl

/-- It waits for no source and no fill, which only moves and uses do. -/
theorem Chip.UnitOnly.holdBack (h : c.UnitOnly i f) : holdBack c i = c := by
  unfold Machine.holdBack
  refine each_same fun g hg => ?_
  rw [h.flight] at hg
  obtain rfl := List.mem_singleton.mp hg
  have hsource : sourceWaits c i g = false := by unfold sourceWaits; rw [h.eng]; rfl
  have hfill : fillWaits (core c i) c.now g = false := by unfold fillWaits; rw [h.eng]; rfl
  rw [hsource, hfill]; rfl

/-- Its unit is computed. -/
theorem Chip.UnitOnly.doCalcs (h : c.UnitOnly i f) : doCalcs c i = vCalc c i f 0 := by
  have hflight : flightOf (core c i) f.id = some f := by
    unfold flightOf; rw [h.flight]; exact List.find?_cons_of_pos (by simp)
  have hcalc : doCalc c i f 0 = vCalc c i f 0 := by
    unfold doCalc; rw [hflight]; exact if_pos h.eng
  have hdue : f.todo.filter (fun t => decide (t.at_ ≤ c.now)) = [⟨c.now, .calc 0⟩] := by rw [h.todo]; simp
  unfold Machine.doCalcs
  rw [h.flight, each_one, hdue, each_one, ← hcalc]
  exact if_neg fun hx => by rw [h.eng] at hx; exact absurd hx.1 (by decide)

theorem sameVector_sendReplies (c : Chip) (i : Nat) : c.SameVector i (sendReplies c i) := by
  have hanswer : ∀ (d : Chip) (r : RemoteRead) (data : List Byte), d.SameVector i (answerRead d i r data) := fun d r data =>
    .ite (sameVector_onCore d i _ fun _ => ⟨rfl, rfl, rfl, rfl⟩) ⟨rfl, rfl, rfl, rfl, rfl, rfl, rfl⟩
  unfold sendReplies
  refine .ite (.refl i c) (.trans ?_ (sameVector_each _ (fun d (x : Nat × RemoteRead × List Byte) => hanswer d x.2.1 x.2.2) _))
  exact sameVector_onCore c i i fun _ => ⟨rfl, rfl, rfl, rfl⟩

theorem sameVector_blockEnd (c : Chip) (i : Nat) : c.SameVector i (blockEnd c i) := by
  have hused : c.SameVector i (onCore c i (fun k => { k with used := 0 })) := sameVector_onCore c i i fun _ => ⟨rfl, rfl, rfl, rfl⟩
  unfold blockEnd
  exact .ite (.refl i c) (.ite (hused.trans ⟨rfl, rfl, rfl, rfl, rfl, rfl, rfl⟩) hused)

/-- The core's cycle: once the unit is computed, rows read for others leave and acts that are done end. -/
theorem Chip.UnitOnly.coreCycle (h : c.UnitOnly i f) (hd : c.Computes i (vCalc c i f 0)) (e : Env) :
    ∃ d, coreCycle e c i = blockEnd (endFlights d i) i ∧ (vCalc c i f 0).SameVector i d ∧ c.Aside d := by
  have hcalc := h.doCalcs
  generalize vCalc c i f 0 = c1 at hd hcalc
  have hport : (core c1 i).eject = [] := hd.eject.trans h.eject
  have hfull : bypassFull c1 i = false := by
    unfold bypassFull
    extract_lets k
    rw [show k.eject = [] from hport]
  have hbeat : ejectBeat c1 i = (c1, none) := by unfold ejectBeat; rw [hport]
  have hserve : serveRemote e c1 i = c1 := by unfold serveRemote; rw [hd.remq.trans h.remq]
  generalize hc3 : (if c.now < (core c1 i).bundle then onCore c1 i (fun k => { k with used := k.used + 1 }) else c1) = c3
  have hsame : c1.SameVector i (sendReplies c3 i) := by
    refine .trans ?_ (sameVector_sendReplies c3 i)
    rw [← hc3]; exact .ite (sameVector_onCore c1 i i fun _ => ⟨rfl, rfl, rfl, rfl⟩) (.refl i c1)
  have haside : c.Aside (sendReplies c3 i) := by
    refine hd.aside.trans (.trans ?_ (aside_sendReplies c3 i))
    rw [← hc3]; exact .ite (aside_onCore c1 i fun _ => ⟨rfl, rfl, rfl, rfl⟩) (.refl c1)
  have h0 : arrayCycle (sendReplies c3 i) i 0 = sendReplies c3 i := arrayCycle_still (by rw [haside.arr]; exact h.still0)
  have h1 : arrayCycle (sendReplies c3 i) i 1 = sendReplies c3 i := arrayCycle_still (by rw [haside.arr]; exact h.still1)
  refine ⟨_, ?_, hsame, haside⟩
  unfold Machine.coreCycle
  simp only [h.holdBack, h.noActs, List.foldl_nil, hcalc, hfull, Bool.false_eq_true, if_false, hbeat, hserve, each_nil, hc3, h0, h1]

/-- From `c` to `d` the slots that are done have ended at core `i`, and `fs` are in flight there; its predicates and the jobs are the same. -/
structure Chip.Ends (i : Nat) (c d : Chip) (fs : List Flight) : Prop where
  flights : (core d i).flights = fs
  preds : (core d i).preds = (core c i).preds
  jobs : d.jobs = c.jobs

theorem noArray {k : Core} (h0 : k.a0.still) (h1 : k.a1.still) (id : Nat) : inArray k id = false := by
  obtain ⟨hw0, _, hd0, _⟩ := h0
  obtain ⟨hw1, _, hd1, _⟩ := h1
  unfold inArray
  simp [hw0, hw1, hd0, hd1]

/-- The acts that are done leave the one slot in flight; it retires if none is left to come, and if one is to come it stays (R229). -/
theorem endFlights_one (hf : (core c i).flights = [g]) (h0 : (core c i).a0.still) (h1 : (core c i).a1.still) :
    ((g.left c.now).todo = [] → c.Ends i (endFlights c i) []) ∧
    (∀ t ∈ (g.left c.now).todo, t.act ≠ .stay → c.Ends i (endFlights c i) [g.left c.now]) := by
  have hrecord : ∀ (d : Chip) (f : Flight), d.SameVector i (addRecord d i f.eng f.slot.lw f.ord f.out) := fun d f =>
    .ite (.refl i d) (sameVector_onCore d i i fun _ => ⟨rfl, rfl, rfl, rfl⟩)
  unfold endFlights
  extract_lets c1 k gone c2
  have hk : k = { core c i with flights := [g.left c.now] } := by
    have hcore : k = { core c i with flights := (core c i).flights.map (Flight.left c.now) } := (core_onCore c i i _).trans (if_pos rfl)
    rw [hcore, hf]; rfl
  have hflights : (core c1 i).flights = [g.left c.now] := by rw [show core c1 i = _ from hk]
  have hpreds : (core c1 i).preds = (core c i).preds := by rw [show core c1 i = _ from hk]
  have hgone : gone = [g.left c.now].filter (flightDone k c.now) := congrArg (List.filter _) hflights
  have harray : inArray k (g.left c.now).id = false := noArray (by rw [hk]; exact h0) (by rw [hk]; exact h1) _
  refine ⟨fun hnone => ?_, fun t ht hact => ?_⟩
  · have hdone : flightDone k c.now (g.left c.now) = true := by
      unfold flightDone; rw [hnone, harray]; rfl
    have hall : gone = [g.left c.now] := hgone.trans (List.filter_cons_of_pos hdone)
    have h2 : c1.SameVector i c2 := sameVector_each _ hrecord c1
    rw [if_neg (by rw [hall]; exact List.cons_ne_nil _ _)]
    have hcore : core (onCore c2 i _) i = _ := (core_onCore c2 i i (fun k => { k with
      flights := k.flights.filter (fun f => !(gone.any (fun g => g.id == f.id))), retireAt := max k.retireAt c.now })).trans (if_pos rfl)
    refine ⟨?_, ?_, h2.jobs⟩
    · rw [hcore]
      show (core c2 i).flights.filter _ = []
      rw [h2.flights, hflights, hall]
      simp
    · rw [hcore]
      exact h2.preds.trans hpreds
  · have hkeep : ¬flightDone k c.now (g.left c.now) = true := by
      unfold flightDone
      rw [Bool.and_eq_true, List.all_eq_true]
      rintro ⟨hall, _⟩
      have hstays := hall t ht
      split at hstays
      · next hs => exact hact hs
      · exact Bool.false_ne_true hstays
    have hnone : gone = [] := hgone.trans (List.filter_cons_of_neg hkeep)
    rw [if_pos hnone]
    exact ⟨hflights, hpreds, rfl⟩

theorem sameVector_barsFree (c : Chip) (i : Nat) : c.SameVector i (barsFree c) := by
  refine sameVector_each _ (fun d n => ?_) c
  obtain ⟨h, _⟩ | ⟨t, h, _⟩ := barFree_cases d n <;> rw [h]
  · exact .refl i d
  · exact sameVector_onCore d i n fun _ => ⟨rfl, rfl, rfl, rfl⟩

/-- A step in which only core `i` is at work: its slots in flight and its predicates, and the jobs, are as its cycle leaves them, and no write is in hand. -/
theorem step_core {s : State} (hb : s.onlyBusy [i]) (hd : coreCycle s.env s.chip i = d) (hk : d.CoresAlone) :
    ∃ c, step s = .next (s.after c) ∧ (core c i).flights = (core d i).flights ∧ (core c i).preds = (core d i).preds ∧ c.jobs = d.jobs ∧ c.writes = [] := by
  have hsame := sameVector_barsFree d i
  refine ⟨{ barsFree d with now := d.now + 1 }, ?_, hsame.flights, hsame.preds, hsame.jobs, hsame.writes.trans hk.writes⟩
  rw [step_idle hb.1, cycle_cores hb ((each_one s.chip i (coreCycle s.env)).trans hd) hk]

/-- A step in which one unit of a V slot is computed at core `i`, after which the slot is `g`: it retires if no act is left to come, else it stays. -/
theorem step_unit {s : State} (hq : s.quiet) (hs : s.syncStill) (hb : s.onlyBusy [i]) (h : s.chip.UnitOnly i f)
    (hd : s.chip.Computes i (vCalc s.chip i f 0)) (hg : (core (vCalc s.chip i f 0) i).flights = [g]) {fs : List Flight}
    (hfs : ((g.left s.chip.now).todo = [] ∧ fs = []) ∨ ((∃ t ∈ (g.left s.chip.now).todo, t.act ≠ .stay) ∧ fs = [g.left s.chip.now])) :
    ∃ c, step s = .next (s.after c) ∧ (core c i).flights = fs ∧ (core c i).preds = (core (vCalc s.chip i f 0) i).preds ∧ c.jobs = s.chip.jobs ∧ c.writes = [] := by
  obtain ⟨d, hcycle, hsame, haside⟩ := h.coreCycle hd s.env
  have halone : (blockEnd (endFlights d i) i).CoresAlone := ((haside.trans (aside_endFlights d i)).trans (aside_blockEnd _ i)).alone (hb.coresAlone hq hs)
  obtain ⟨c, hstep, hflights, hpreds, hjobs, hwrites⟩ := step_core hb hcycle halone
  have hblock := sameVector_blockEnd (endFlights d i) i
  have hnow : d.now = s.chip.now := hsame.now.trans hd.now
  have hends : d.Ends i (endFlights d i) fs := by
    have h0 : (core d i).a0 = (core s.chip i).a0 := haside.arr i 0
    have h1 : (core d i).a1 = (core s.chip i).a1 := haside.arr i 1
    obtain ⟨hnone, hsome⟩ := endFlights_one (hsame.flights.trans hg) (by rw [h0]; exact h.still0) (by rw [h1]; exact h.still1)
    rw [hnow] at hnone hsome
    obtain ⟨ht, rfl⟩ | ⟨⟨t, ht, hact⟩, rfl⟩ := hfs
    · exact hnone ht
    · exact hsome t ht hact
  refine ⟨c, hstep, ?_, ?_, ?_, hwrites⟩
  · rw [hflights, hblock.flights, hends.flights]
  · rw [hpreds, hblock.preds, hends.preds, hsame.preds]
  · rw [hjobs, hblock.jobs, hends.jobs, hsame.jobs, hd.jobs]

end Cycle

/-! Heads of the V queue that run, and the units of R205 and R190. -/

section Heads
variable {s : State} {i n : Nat} {sl : QSlot} {d : Chip} {f : Flight}

/-- A VFLAG of mode 2 clears the lane flags set before its issue (R203). -/
theorem exec_vflag_clears (hq : s.quiet) (hi : i < 1024) (he : Enabled s i sl) (hh : Head s i .v sl 6) (hm : sf sl.w 54 53 = 2) :
    ∃ t, exec (.vflag i) s = .next t ∧ (core t.chip i).flags = (core s.chip i).flags.filter (fun f => decide (s.chip.now ≤ f.at_)) ∧
      (core t.chip i).vReady = s.chip.now + 1 ∧ t.mem = s.mem ∧ t.chip.jobs = s.chip.jobs := by
  have hclears := vflag_clears (e := s.env) (c := popHead s.chip i .v) hm (predOn_popHead.mpr he)
  have hhand : s.chip.SameHand (occupy (onCore (popHead s.chip i .v) i (Core.cleared s.chip.now)) i .v 1) :=
    ((sameHand_popHead _ _ _).trans (sameHand_onCore _ _ _)).trans (sameHand_occupy _ _ _ _)
  obtain ⟨_, _, _, hflags⟩ := popHead_v s.chip i
  refine ⟨_, (lift_vSlot_of hi hh (by decide) vflag).trans (congrArg _ ((congrArg s.after hclears).trans (State.after_sameHand s _ hq hhand))), ?_, ?_, rfl, rfl⟩
  all_goals rw [State.put_chip, core_occupy_cleared, core_occupy_v]
  · exact congrArg (List.filter _) hflags
  · rfl

/-- A VFLAG of mode 0 or 1 writes the lane flags set before its issue, and in mode 1 clears them (R203). -/
theorem exec_vflag_captures (hq : s.quiet) (hi : i < 1024) (he : Enabled s i sl) (hh : Head s i .v sl 6) (hm : sf sl.w 54 53 < 2)
    (hc : Claimed s i 1 [sf sl.w 52 48]) :
    ∃ c f, exec (.vflag i) s = .next (s.after c) ∧ (core c i).flights = (core s.chip i).flights ++ [f] ∧
      f.todo = [⟨s.chip.now, .write 0 0 [laneCapture (core s.chip i) s.chip.now]⟩] ∧
      (core c i).flags = (if sf sl.w 54 53 = 1 then (core s.chip i).flags.filter (fun f => decide (s.chip.now ≤ f.at_)) else (core s.chip i).flags) ∧
      (core c i).vReady = s.chip.now + 1 ∧ c.writes = [] ∧ c.jobs = s.chip.jobs := by
  obtain ⟨d, f, heq, hl, htodo⟩ := vflag_captures (e := s.env) (c := popHead s.chip i .v) hm (predOn_popHead.mpr he) (claim_popHead hc _)
  have hr := hl.occupied hq Nat.one_pos
  have hcapture : laneCapture (core (popHead s.chip i .v) i) s.chip.now = laneCapture (core s.chip i) s.chip.now := by
    unfold laneCapture; simp only [flagsBefore_popHead_v]
  refine ⟨_, f, (lift_vSlot_of hi hh (by decide) vflag).trans (by rw [heq]), ?_⟩
  obtain hmode | hmode : sf sl.w 54 53 = 0 ∨ sf sl.w 54 53 = 1 := by omega
  · rw [if_pos hmode, if_neg (by rw [hmode]; decide)]
    exact ⟨hr.flights, htodo.trans (by rw [← hcapture]; rfl), hr.flags, hr.ready, hr.writes, hr.jobs⟩
  · rw [if_neg (by rw [hmode]; decide), if_pos hmode, core_occupy_cleared]
    exact ⟨hr.flights, htodo.trans (by rw [← hcapture]; rfl), congrArg (List.filter _) hr.flags, hr.ready, hr.writes, hr.jobs⟩

/-- The predicate that a VTEST writes: its condition on the element it has read, as of the second cycle after its issue (R205). -/
def testedPred (f : Flight) : PredW :=
  let v := ((taken f 0 0 1).headD Opnd.zero).code
  ⟨f.start + 2, 2, sf f.slot.w 54 52, (match sf f.slot.w 51 50 with
    | 0 => valIsNaN (b32 v) || fabs v != 0 | 1 => valIsNaN (b32 v) | 2 => anySpecial [b32 v] | _ => v != 0)⟩

theorem core_testCalc (c : Chip) (i : Nat) (f : Flight) : core (testCalc c i f) i = { core c i with preds := (core c i).preds ++ [testedPred f] } :=
  (core_onCore c i i _).trans (if_pos rfl)

section Units
variable (hq : s.quiet) (hs : s.syncStill) (hb : s.onlyBusy [i]) (h : s.chip.UnitOnly i f)
include hq hs hb h

theorem step_testUnit (hop : opOf f.slot.w = 7) : ∃ c, step s = .next (s.after c) ∧ (core c i).preds = (core s.chip i).preds ++ [testedPred f] ∧
    (core c i).flights = [] ∧ c.writes = [] := by
  have hcalc : vCalc s.chip i f 0 = testCalc s.chip i f := by unfold vCalc; rw [hop]; rfl
  have hcore := core_testCalc s.chip i f
  have hleft : (f.left s.chip.now).todo = [] := by unfold Flight.left; rw [h.todo]; simp
  obtain ⟨c, hstep, hflights, hpreds, _, hwrites⟩ := step_unit hq hs hb h (hcalc ▸ computes_testCalc s.chip i f) (g := f)
    (by rw [hcalc, hcore]; exact h.flight) (.inl ⟨hleft, rfl⟩)
  exact ⟨c, hstep, by rw [hpreds, hcalc, hcore], hflights, hwrites⟩

theorem step_chainUnit {ch : Chain} {o : OpStr} (hop : opOf f.slot.w = 1) (hch : chainOf s.chip i (sf f.slot.w 54 49) = some ch) (hc : ch.complex = false)
    (he : ch.eEn = false) (ho : ch.ofmt.getD 0 0 = 14) (hout : f.ops[f.outs]? = some o) :
    ∃ c g, step s = .next (s.after c) ∧ (core c i).flights = [g] ∧
      g.todo = [plainWrite s.chip i ch f] ∧ c.writes = [] ∧ c.jobs = s.chip.jobs := by
  have hcalc : vCalc s.chip i f 0 = chainCalc s.chip i f 0 := by unfold vCalc; rw [hop]; rfl
  obtain ⟨g, hg, _, htodo⟩ := chainCalc_plain h.flight hch hc he ho hout
  have hlater : s.chip.now < (plainWrite s.chip i ch f).at_ := by unfold plainWrite; simp only []; omega
  have hleft : (g.left s.chip.now).todo = [plainWrite s.chip i ch f] := by
    unfold Flight.left
    rw [htodo, h.todo]
    simp [hlater]
  obtain ⟨c, hstep, hflights, _, hjobs, hwrites⟩ := step_unit hq hs hb h (hcalc ▸ computes_chainCalc s.chip i f 0) (g := g) (by rw [hcalc]; exact hg)
    (.inr ⟨⟨_, by rw [hleft]; exact List.mem_singleton_self _, Act.noConfusion⟩, rfl⟩)
  exact ⟨c, _, hstep, hflights, hleft, hwrites, hjobs⟩

end Units

end Heads

/-- Settles O45: each row reaches its meaning, which only occupies the engine, faults by its fields or launches its slot; a unit by the cycle of the core. -/
theorem vectorSlots : Obligations.VectorSlots := by
  refine ⟨fun i sl s hq hi => ⟨?_, ?_, ?_, ?_, ?_, ?_, ?_⟩, fun i sl s hq hi he => ?_, fun i sl s hq hi he => ⟨?_, ?_, ?_⟩, ?_⟩
  · exact fun ch hh hch hs => ⟨fun hn => lift_vSlot_occupies hq hi hh (by decide) (vchain_zero hch hs hn),
      fun hn hp => lift_vSlot_occupies hq hi hh (by decide) (vchain_skipped hch hs hn (mt predOn_popHead.mp hp))⟩
  · intro ch hh hch hs
    obtain ⟨r, hr, hcode, hlw, _⟩ := faultsOnce_coreFault (popHead_raised (i := i) (q := .v) hq) i engV sl.lw .vEncoding 0 0 0
    exact ⟨_, r, lift_vSlot_of hi hh (by decide) vchain, (vchain_stray (c := popHead s.chip i .v) hch hs).trans hr, hcode, hlw⟩
  · exact fun p hh hpr => ⟨fun hn => lift_vSlot_occupies hq hi hh (by decide) (vprog_zero hpr hn),
      fun hn hp => lift_vSlot_occupies hq hi hh (by decide) (vprog_skipped hpr hn (mt predOn_popHead.mp hp))⟩
  · exact fun ch hh hch hx hs hk => ⟨fun hn => lift_vSlot_occupies hq hi hh (by decide) (vred_zero hch ⟨hx, hs, hk⟩ hn),
      fun hn hp => lift_vSlot_occupies hq hi hh (by decide) (vred_skipped hch ⟨hx, hs, hk⟩ hn (mt predOn_popHead.mp hp))⟩
  · exact fun hh => ⟨fun hn => lift_vSlot_occupies hq hi hh (by decide) (vdraw_zero hn),
      fun hn hp => lift_vSlot_occupies hq hi hh (by decide) (vdraw_skipped hn (mt predOn_popHead.mp hp))⟩
  · exact fun hh hm hp => lift_vSlot_occupies hq hi hh (by decide) (vflag_skipped hm (mt predOn_popHead.mp hp))
  · exact fun hh hd hp => lift_vSlot_occupies hq hi hh (by decide) (vtest_skipped hd (mt predOn_popHead.mp hp))
  · have hp : PredOn (popHead s.chip i .v) i sl.w := predOn_popHead.mpr he
    refine ⟨fun ch hh hch hs hn hc => ?_, fun p hh hpr hn hlen hc => ?_, fun ch hh hch hx hs hk hn hc => ?_,
      fun hh hm hw hrows hgroup hn hc => ?_, fun hh hn hc => ?_⟩
    · obtain ⟨c, f, hexec, hr⟩ := lift_vSlot_runs hq hi hh (by decide) (chainCycles_pos hn) (vchain_launches hch hs hn hp (claim_popHead hc _))
      exact ⟨c, hexec, hr.ready, hr.v, hr.length, hr.writes⟩
    · obtain ⟨c, f, hexec, hr⟩ := lift_vSlot_runs hq hi hh (by decide) (Nat.mul_pos (Nat.mul_pos (by decide) hlen) (cdiv_pos hn (by decide)))
        (vprog_launches hpr hn hp (claim_popHead hc _))
      exact ⟨c, hexec, hr.ready, hr.v, hr.length, hr.writes⟩
    · obtain ⟨c, f, hexec, hr⟩ := lift_vSlot_runs hq hi hh (by decide) (redCycles_pos hn) (vred_launches hch ⟨hx, hs, hk⟩ hn hp (claim_popHead hc _))
      exact ⟨c, hexec, hr.v, hr.ready, hr.length, hr.writes⟩
    · obtain ⟨c, f, hexec, hr⟩ := lift_vSlot_runs hq hi hh (by decide) (cdiv_pos (Nat.mul_pos hn (Nat.succ_pos _)) (by decide))
        (vperm_launches ⟨hm, hw, hrows, hgroup⟩ hn hp (claim_popHead hc _))
      exact ⟨c, hexec, hr.ready, hr.v, hr.length, hr.writes⟩
    · obtain ⟨c, f, hexec, hr⟩ := lift_vSlot_runs hq hi hh (by decide) (Nat.mul_pos hn (Nat.succ_pos _)) (vdraw_launches hn hp (claim_popHead hc _))
      exact ⟨c, hexec, hr.ready, hr.v, hr.length, hr.writes⟩
  · exact exec_vflag_clears hq hi he
  · intro hh hm hc
    obtain ⟨c, f, hexec, hflights, htodo, hrest⟩ := exec_vflag_captures hq hi he hh hm hc
    exact ⟨c, f, _, hexec, hflights, htodo, fun l hl => laneCapture_digit _ _ hl, hrest⟩
  · intro hh hd hc
    obtain ⟨d, f, heq, hl, hslot, hstart, hread, hcalc⟩ := vtest_launches (e := s.env) (c := popHead s.chip i .v) hd (predOn_popHead.mpr he) (claim_popHead hc _)
    have hr := hl.occupied hq Nat.one_pos
    exact ⟨_, f, (lift_vSlot_of hi hh (by decide) vtest).trans (by rw [heq]), hr.flights, hslot, hstart, hread, hcalc, hr.preds, hr.writes, hr.ready⟩
  · intro i f s hq hs hb hi k heject hremq hflight h0 h1 heng htodo
    have hunit : s.chip.UnitOnly i f := ⟨hflight, heng, htodo, heject, hremq, h0, h1⟩
    exact ⟨step_testUnit hq hs hb hunit, fun ch o hop hch hx he ho hout => step_chainUnit hq hs hb hunit hop hch hx he ho hout⟩

end Sys2Proof.Machine
end

section
/-! O48: long words fetched and broadcast, and the copies of a Keeper that differ (09_keeper.md R213, R215-R223). -/

namespace Sys2Proof.Machine

/-! Folds whose steps are known where an invariant holds. -/

/-- Two folds agree where their steps agree on the chips that an invariant holds of. -/
theorem each_congr {α : Type} {f g : Chip → α → Chip} {P : Chip → Prop} (h : ∀ c x, P c → f c x = g c x) (hP : ∀ c x, P c → P (g c x)) (l : List α)
    {c : Chip} (hc : P c) : each l c f = each l c g := by
  induction l generalizing c with
  | nil => rfl
  | cons x l ih =>
    have htail : each l (f c x) f = each l (g c x) g := by rw [h c x hc]; exact ih (hP c x hc)
    exact htail

/-- Every core of a list without repeats is written once. -/
theorem core_each_onCore {l : List Nat} (hl : l.Nodup) (f : Core → Core) (c : Chip) (k : Nat) :
    core (each l c (fun c i => onCore c i f)) k = if k ∈ l then f (core c k) else core c k := by
  induction l generalizing c with
  | nil => rfl
  | cons i l ih =>
    obtain ⟨hi, hd⟩ := List.nodup_cons.mp hl
    refine (ih hd _).trans ?_
    rw [core_onCore]
    by_cases hk : k = i
    · subst hk; simp [hi]
    · simp [hk]

/-! Cores of a context (R210, R211). -/

/-- Bands share no core. -/
theorem coresOf_nodup (bands : BitVec 16) : (coresOf bands).Nodup := by
  have hbands : ((List.range 16).filter (fun b => bands.getLsbD b)).Nodup := List.nodup_range.filter _
  refine List.nodup_flatMap.mpr ⟨fun b _ => List.nodup_range.map fun j k hjk => Nat.add_left_cancel hjk, hbands.imp fun {a b} hab i hia hib => ?_⟩
  obtain ⟨j, hj, rfl⟩ := List.mem_map.mp hia
  obtain ⟨k, hk, heq⟩ := List.mem_map.mp hib
  have hj64 : j < 64 := List.mem_range.mp hj
  have hk64 : k < 64 := List.mem_range.mp hk
  have heq64 : b * 64 + k = a * 64 + j := heq
  exact hab (by omega)

/-! Reads of the program store (R9, R214). -/

theorem leNat_lt (bs : List Byte) : leNat bs < 256 ^ bs.length := by
  induction bs with
  | nil => exact Nat.one_pos
  | cons b bs ih =>
    have hb : b.toNat < 256 := b.isLt
    rw [List.length_cons, Nat.pow_succ, leNat]
    omega

theorem rdLE_lt (e : Env) (c : Chip) (a n : Nat) : rdLE e c a n < 256 ^ n := by
  have h := leNat_lt (rdBytes e c a n)
  unfold rdBytes at h
  rw [List.length_map, List.length_range] at h
  exact h

/-- Between commands, and with no codeword in error, a read finds the bytes of memory. -/
theorem rdLE_plain {s : State} (hq : s.quiet) (hecc : s.chip.safe.ecc = []) (a n : Nat) :
    rdLE s.env s.chip a n = leNat ((List.range n).map (fun k => s.byte (a + k))) := by
  have hbyte : ∀ k, rdByte s.env s.chip k = s.byte k := fun k => by
    unfold rdByte
    rw [hq.1, if_pos hecc]; rfl
  unfold rdLE rdBytes
  simp only [hbyte]

/-! The word at a context's address (R219, R221). -/

section Word
variable (e : Env) (c : Chip) (x : Nat)

/-- Where the word stands in the address space. -/
def wordBase : Nat := Config.progBase (x / 4) + (ctx c x).pc

def wordHeader : Nat := rdLE e c (wordBase c x) 4

def wordSlotCount : Nat := slotCount (bitsOf (wordHeader e c x) 5 0)

/-- The address of the word behind it. -/
def wordEnd : Nat := (ctx c x).pc + 4 + 8 * wordSlotCount e c x

def storedSlots : List Dword := (List.range (wordSlotCount e c x)).map (fun s => BitVec.ofNat 64 (rdLE e c (wordBase c x + 4 + 8 * s) 8))

/-- The word as its cores receive it, ten cycles on (R222). -/
def sentWord : FWord :=
  let hdr := BitVec.ofNat 32 (wordHeader e c x)
  ⟨hdr, storedSlots e c x, (ctx c x).pc, c.now + 10, wordCrc hdr (storedSlots e c x), false⟩

/-- The context once the word is sent (R215, R223). -/
def sentCtx : Ctx :=
  { ctx c x with pc := wordEnd e c x, sent := (ctx c x).sent + 1, nextAt := c.now + 1 + bitsOf (wordHeader e c x) 15 8, run := true }

/-- The context may fetch now (R215, R223), and its next word lies in its region and has no C slot. -/
structure FetchesPlain : Prop where
  run : (ctx c x).run = true
  due : (ctx c x).nextAt ≤ c.now
  credit : (ctx c x).sent - (ctx c x).back < 32
  inside : inRegion (ctx c x) (ctx c x).pc = true
  fits : wordEnd e c x ≤ (ctx c x).region.1 + (ctx c x).region.2
  noC : bitOf (wordHeader e c x) 5 = false
  noLoop : (ctx c x).loops = []

@[simp] theorem wordHeader_toNat : (BitVec.ofNat 32 (wordHeader e c x)).toNat = wordHeader e c x := by
  rw [BitVec.toNat_ofNat]
  exact Nat.mod_eq_of_lt (rdLE_lt e c _ 4)

@[simp] theorem storedSlots_length : (storedSlots e c x).length = wordSlotCount e c x := by
  unfold storedSlots
  rw [List.length_map, List.length_range]

end Word

/-! The broadcast (R212, R222). -/

/-- A core whose FIFO has received a word. -/
def Core.received (w : FWord) (k : Core) : Core := { k with fifo := k.fifo ++ [w] }

/-- With INJ_CTL 0 every core of the context receives the same word. -/
theorem broadcast_clear {c : Chip} (h : c.safe.injCtl = 0) (x : Nat) (w : FWord) :
    broadcast c x w = each (ctxCores (ctx c x)) c (fun c i => onCore c i (Core.received w)) := by
  refine each_congr (P := fun d => d.safe.injCtl = 0) (g := fun c i => onCore c i (Core.received w)) (fun d i hd => ?_) (fun _ _ hd => hd) _ h
  rw [armedFor_clear hd]; rfl

/-- With INJ_CTL 0 no injection is armed at a context (R367). -/
theorem armedCtx_clear {c : Chip} (h : c.safe.injCtl = 0) (k x : Nat) : armedCtx c k x = false := by
  unfold armedCtx
  rw [h]; rfl

/-! The fetch (R213, R215, R223). -/

section Fetch
variable {e : Env} {c : Chip} {x : Nat}

theorem fetchLongWord_differs : fetchLongWord e c x false = stopCtx (keeperFault c x (ctx c x).pc .keeperLockstep 0 0 0 false) x := rfl

theorem fetchLongWord_waits (h : (ctx c x).run = false ∨ c.now < (ctx c x).nextAt ∨ 32 ≤ (ctx c x).sent - (ctx c x).back) :
    fetchLongWord e c x true = c := by
  have hwait : (!(ctx c x).run || decide (c.now < (ctx c x).nextAt) || decide (32 ≤ (ctx c x).sent - (ctx c x).back)) = true := by
    simpa [or_assoc] using h
  exact if_pos hwait

/-- A word without C slot, outside every loop, is sent as it is stored. -/
theorem fetchLongWord_plain (h : FetchesPlain e c x) (hecc : c.safe.ecc = []) (hinj : c.safe.injCtl = 0) :
    fetchLongWord e c x true = broadcast (onCtx c x (fun _ => sentCtx e c x)) x (sentWord e c x) := by
  obtain ⟨hrun, hdue, hcredit, hinside, hfits, hnoC, hnoLoop⟩ := h
  have hready : ¬(!(ctx c x).run || decide (c.now < (ctx c x).nextAt) || decide (32 ≤ (ctx c x).sent - (ctx c x).back)) = true := by
    simp [hrun, hdue, hcredit]
  have hplace : ¬(!(inRegion (ctx c x) (ctx c x).pc) || decide ((ctx c x).region.1 + (ctx c x).region.2 < wordEnd e c x)) = true := by
    simp [hinside, hfits]
  have harmed : ¬armedCtx c 6 x = true := by rw [armedCtx_clear hinj]; decide
  refine (if_neg hready).trans ((if_neg hplace).trans ((if_neg harmed).trans ?_))
  have hcheck : progCheck c x (ctx c x).pc (wordBase c x) (4 + 8 * wordSlotCount e c x) = c := if_pos hecc
  have hloops : closeLoops (wordEnd e c x) (ctx c x).loops = (wordEnd e c x, (ctx c x).loops) := by rw [hnoLoop]; rfl
  unfold sentWord sentCtx storedSlots
  simp only [wordEnd, wordSlotCount, wordHeader, wordBase] at hcheck hnoC hloops ⊢
  simp only [hcheck, hnoC, hloops, Bool.false_eq_true, if_false]
  rfl

end Fetch

/-- How a fetch at one of the package's 16 contexts reaches its meaning (R211). -/
theorem longWord_row {s : State} {x : Nat} (hx : x < 16) (agree : Bool) :
    exec (.longWord x agree) s = .next (s.after (fetchLongWord s.env s.chip x agree)) := by
  have hrow : exec (.longWord x agree) s = .next (s.after (fetchLongWord s.env s.chip (x % 16) agree)) := rfl
  rw [hrow, Nat.mod_eq_of_lt hx]

/-- A context that is stopped fetches nothing more (R213). -/
theorem stopCtx_run (c : Chip) (x : Nat) : (ctx (stopCtx c x) x).run = false := by
  have hctx : ctx (stopCtx c x) x = ctx (onCtx c x (fun t => { t with run := false })) x :=
    each_field (f := fun d i => onCore d i (stopCore d.now)) (fun d => ctx d x) (fun _ _ => rfl) _ _
  rw [hctx, ctx_onCtx, if_pos rfl]

/-- A fault of a context is one fault of its long word, and covers the attempt (R213, R218). -/
theorem keeperFault_raised {c : Chip} (h : c.raised = []) (x lw : Nat) (f : FaultCode) (addr a b : Nat) (inj : Bool) :
    ∃ r, (keeperFault c x lw f addr a b inj).raised = [r] ∧ r.code = faultNo f ∧ r.lw = lw ∧ r.covers = true := by
  unfold keeperFault raise
  rw [h]
  exact ⟨_, rfl, rfl, rfl, rfl⟩

/-- In `d` context `x` has become `t` and every core of its bands has received `w`; the jobs and what is in hand are those of `c`. -/
structure Chip.Sends (c : Chip) (x : Nat) (t : Ctx) (w : FWord) (d : Chip) : Prop where
  past : ctx d x = t
  received : ∀ i ∈ ctxCores (ctx c x), core d i = (core c i).received w
  jobs : d.jobs = c.jobs
  hand : c.SameHand d

theorem sends_broadcast {c : Chip} (h : c.safe.injCtl = 0) (x : Nat) {t : Ctx} (ht : t.bands = (ctx c x).bands) (w : FWord) :
    c.Sends x t w (broadcast (onCtx c x (fun _ => t)) x w) := by
  have hctx : ctx (onCtx c x (fun _ => t)) x = t := (ctx_onCtx c x x _).trans (if_pos rfl)
  have hcores : ctxCores t = ctxCores (ctx c x) := congrArg coresOf ht
  have honly := coresOnly_each (ctxCores t) (f := fun d i => onCore d i (Core.received w)) (fun _ _ => rfl) (onCtx c x (fun _ => t))
  rw [broadcast_clear (c := onCtx c x (fun _ => t)) h, hctx]
  refine ⟨?_, fun i hi => ?_, honly.on Chip.jobs, honly.sameHand⟩
  · exact (each_field (f := fun d i => onCore d i (Core.received w)) (fun d => ctx d x) (fun _ _ => rfl) _ _).trans hctx
  · exact (core_each_onCore (coresOf_nodup t.bands) _ _ i).trans (if_pos (hcores.symm ▸ hi : i ∈ ctxCores t))

theorem exec_longWord_plain {s : State} {x : Nat} (hq : s.quiet) (hx : x < 16) (h : FetchesPlain s.env s.chip x) (hecc : s.chip.safe.ecc = [])
    (hinj : s.chip.safe.injCtl = 0) :
    ∃ d, exec (.longWord x true) s = .next (s.put d) ∧ s.chip.Sends x (sentCtx s.env s.chip x) (sentWord s.env s.chip x) d := by
  have hsends := sends_broadcast hinj x (t := sentCtx s.env s.chip x) rfl (sentWord s.env s.chip x)
  exact ⟨_, by rw [longWord_row hx, fetchLongWord_plain h hecc hinj, State.after_sameHand s _ hq hsends.hand], hsends⟩

/-- Settles O48: a plain word is broadcast as it is stored; copies that differ stop the context; a context whose time or credit has not come is left as it is. -/
theorem longWordBroadcast : Obligations.LongWordBroadcast := by
  intro x s hq hx
  refine ⟨?_, ?_, fun hwait => ?_⟩
  · intro t h n hrun hdue hcredit hinside hfits hecc hinj hnoC hnoLoop
    have hh : wordHeader s.env s.chip x = h := rdLE_plain hq hecc _ 4
    have hn : wordSlotCount s.env s.chip x = n := congrArg (fun h => slotCount (bitsOf h 5 0)) hh
    have hend : wordEnd s.env s.chip x = t.pc + 4 + 8 * n := congrArg (fun n => t.pc + 4 + 8 * n) hn
    obtain ⟨d, hexec, hsends⟩ := exec_longWord_plain hq hx ⟨hrun, hdue, hcredit, hinside, hend.trans_le hfits, hh ▸ hnoC, hnoLoop⟩ hecc hinj
    refine ⟨s.put d, hexec, ?_, fun i hi => ⟨sentWord s.env s.chip x, ?_, ?_, ?_, rfl, rfl, rfl, rfl⟩, rfl, hsends.jobs⟩
    · rw [State.put_chip, hsends.past]
      unfold sentCtx
      rw [hend, hh]
    · rw [State.put_chip, hsends.received i hi]; rfl
    · exact (wordHeader_toNat s.env s.chip x).trans hh
    · exact (storedSlots_length s.env s.chip x).trans hn
  · obtain ⟨r, hr, hcode, hlw, hcov⟩ := keeperFault_raised hq.2.2 x (ctx s.chip x).pc .keeperLockstep 0 0 0 false
    have hstop := (coresOnly_stopCtx (keeperFault s.chip x (ctx s.chip x).pc .keeperLockstep 0 0 0 false) x).sameHand
    exact ⟨_, r, longWord_row hx false, hstop.2.2.trans hr, hcode, hlw, hcov, stopCtx_run _ x⟩
  · rw [longWord_row hx, fetchLongWord_waits hwait, State.after_self s hq]

end Sys2Proof.Machine
end

section
/-! O55: ADMIT and the input copy (11_serving.md R264, R269-R271, R283; where a token stands in the prompt area is the model's choice: log entry 90). -/

namespace Sys2Proof.Machine

/-! The rows, each by the chip that it settles. -/

theorem exec_admitReq (id : CmdId) (s : State) : exec (.admitReq id) s = .next (s.after (withStarted s.chip id 0x10 (admitReq s.env))) := rfl
theorem exec_inputCopy (i : Nat) (s : State) : exec (.inputCopy i) s = .next (s.after (inputCopy s.env s.chip i)) := rfl

/-! ADMIT to one job (R271). -/

section ToJob
variable {e : Env} {c : Chip} {t : Nat} {j : Job} {m : Cmd}

theorem admitTo_refused {st : Status} (h : admitCheck e c t j m = some st) : admitTo e m t j c = final c m.id st := by
  unfold admitTo; rw [h]

theorem admitTo_placed {i : Nat} (h : admitCheck e c t j m = none) (hf : freeEntry c t = some i) : admitTo e m t j c =
    placeReq c t i m (newReq j m t (req c i)) { ReqSide.none with cmd := m.id, inAddr := (admitArgs m).input, outAddr := (admitArgs m).output } := by
  unfold admitTo; rw [h, hf]

end ToJob

/-! The job that an ADMIT goes to (R271, R283). -/

section Admit
variable {s : State} {m : Cmd} {t : Nat} {j : Job}

theorem admitReq_job (h0 : m.target ≠ 0) (hg : (admitArgs m).group = 0) (ht : Aimed s m t j) : admitReq s.env m s.chip = admitTo s.env m t j s.chip := by
  unfold admitReq
  rw [if_neg h0, if_neg (not_not_intro hg), onJobTarget_of ht]

theorem admitReq_group (h0 : m.target = 0) (hg : (admitArgs m).group ≠ 0)
    (hp : pickMember s.chip (members s.chip (admitArgs m).group (part s.chip m.id.part).tenant.toNat) = some (t, j)) :
    admitReq s.env m s.chip = admitTo s.env m t j s.chip := by
  unfold admitReq
  rw [if_pos h0, if_neg hg, hp]

end Admit

/-! The input copy (R270). -/

/-- Length of the input of an entry, as its ADMIT gives it (R309). -/
def inputLen (c : Chip) (i : Nat) : Nat := ((findCmd c (side c i).cmd).map (fun m => arg m 0x20 4)).getD 0

/-- Tokens that an input copy brings: those of the buffer, or the start token for an empty prompt (R264). -/
def inputToks (e : Env) (c : Chip) (i : Nat) (j : Job) : List Word :=
  if inputLen c i = 0 then [BitVec.ofNat 32 j.hdr.startToken] else readToks e c (side c i).inAddr (inputLen c i)

/-- The chip with the input of an entry copied, into the prompt area too, and the request READY. -/
def inputReady (e : Env) (c : Chip) (i : Nat) (j : Job) : Chip :=
  writePrompt (onSide (onReq c i (fun q => { q with st := .ready })) i (fun x => { x with
    copied := true, toks := inputToks e c i j ++ x.toks, looks := readLooks e c (side c i).inAddr (inputLen c i) (req c i).lookups })) (req c i).job
    (inputToks e c i j)

/-- A copy that may end, of a request that waits for no adapter. -/
theorem inputCopy_ready {e : Env} {c : Chip} {i : Nat} {j : Job} (hj : tfind c.jobs (req c i).job = some j) (hl : isLead c j = true)
    (hq : (req c i).st = .queued) (hc : (side c i).copied = false) (hr : (side c i).resuming = false) (hw : linkWaits c (side c i).inAddr = false)
    (ha : (req c i).adapter = false ∨ (tfind j.wts.dir (req c i).adapterId).isSome = true) : inputCopy e c i = inputReady e c i j := by
  have hmay : ¬((req c i).st ≠ .queued ∨ (side c i).copied = true ∨ (side c i).resuming = true ∨ isLead c j = false ∨
      linkWaits c (side c i).inAddr = true) := by simp [hl, hq, hc, hr, hw]
  have hwait : ((req c i).adapter && (tfind j.wts.dir (req c i).adapterId).isNone) = false := by
    rcases ha with ha | ha
    · rw [ha]; rfl
    · rw [Option.isNone_eq_false_iff.mpr ha, Bool.and_false]
  unfold inputCopy
  simp only [hj, if_neg hmay, hwait, Bool.false_eq_true, if_false]
  rfl

/-- Settles O55: an ADMIT reaches one job, by its handle or as the member picked, and there ends by the first check that fails or takes the free entry; an
input copy of a request that waits for no adapter makes it READY. -/
theorem requestsAdmitted : Obligations.RequestsAdmitted := by
  refine ⟨fun id m t j s _ h => ?admission, fun i j s _ => ?copy⟩
  case admission =>
    intro a hto
    have hone : admitReq s.env m s.chip = admitTo s.env m t j s.chip := by
      rcases hto with ⟨h0, hg, ht⟩ | ⟨h0, hg, hp⟩
      · exact admitReq_job h0 hg ht
      · exact admitReq_group h0 hg hp
    rw [exec_admitReq, withStarted_of h, hone]
    exact ⟨fun st hst => by rw [admitTo_refused hst], fun i hnone hf => by rw [admitTo_placed hnone hf]⟩
  case copy =>
    intro q d n hj hl hq hc hr hw ha
    rw [exec_inputCopy, inputCopy_ready hj hl hq hc hr hw ha]
    rfl

end Sys2Proof.Machine
end

section
/-! O56: APPEND, CANCEL, QUERY and transfers that the link never served (11_serving.md R266, R272, R282; 12_host.md R311; 17_power.md R405; where an appended
token stands in the prompt area is the model's choice: log entry 90). -/

namespace Sys2Proof.Machine

/-! The rows, each by the chip that it settles. -/

theorem exec_append (id : CmdId) (s : State) : exec (.append id) s = .next (s.after (withStarted s.chip id 0x11 append)) := rfl
theorem exec_appendCopy (id : CmdId) (s : State) : exec (.appendCopy id) s = .next (s.after (appendCopy s.env s.chip id)) := rfl
theorem exec_cancel (id : CmdId) (s : State) : exec (.cancel id) s = .next (s.after (withStarted s.chip id 0x12 cancel)) := rfl
theorem exec_query (id : CmdId) (s : State) : exec (.query id) s = .next (s.after (withStarted s.chip id 0x13 query)) := rfl
theorem exec_apertureTimeout (id : CmdId) (s : State) : exec (.apertureTimeout id) s = .next (s.after (apertureTimeout s.chip id)) := rfl

/-! APPEND (R272). -/

/-- The context that a request would need with its appends and the tokens of one more command (R272). -/
def appendNeed (c : Chip) (m : Cmd) (i : Nat) (q : Req) : Nat := q.promptLen + appendWaiting c (side c i) + arg m 0x18 4 + q.maxNew

section Append
variable {s : State} {m : Cmd} {i : Nat} {q : Req} {j : Job} (ht : AimedReq s m i q j) (hp : q.st ≠ .parking)
include ht hp

theorem append_refused (h : q.encodeOnly = true ∨ contextLimit j < appendNeed s.chip m i q) : append m s.chip = final s.chip m.id .invalidArg := by
  unfold append; rw [onReqTarget_of ht]
  exact (if_neg hp).trans (if_pos h)

theorem append_accepted (he : q.encodeOnly = false) (hl : appendNeed s.chip m i q ≤ contextLimit j)
    (hb : bufferOk s.chip j.place.parts (arg m 0x10 8) (4 * arg m 0x18 4) = true) (hn : 0 < arg m 0x18 4) : append m s.chip =
      onSide (acceptCmd s.chip m.id (cmdHandle m.id)) i (fun d => { d with appends := d.appends ++ [⟨m.id, [], false⟩] }) := by
  have hfits : ¬(q.encodeOnly = true ∨ contextLimit j < appendNeed s.chip m i q) := by
    rw [he]; exact not_or_intro Bool.false_ne_true hl.not_gt
  unfold append; rw [onReqTarget_of ht]
  exact (if_neg hp).trans ((if_neg hfits).trans ((if_neg (by simp [hb])).trans (if_neg hn.ne')))

end Append

/-! The copy of an append (R272). -/

/-- The appends of a request with the tokens of one of them here. -/
def appendsWith (id : CmdId) (toks : List Word) (d : ReqSide) : ReqSide :=
  { d with appends := d.appends.map (fun a => if a.cmd = id then { a with toks := toks, copied := true } else a) }

/-- Tokens of the buffer that an APPEND names (R309). -/
def appendToks (e : Env) (c : Chip) (m : Cmd) : List Word := readToks e c (arg m 0x10 8) (arg m 0x18 4)

theorem appendCopy_of {e : Env} {c : Chip} {id : CmdId} {m : Cmd} {i : Nat} {d : ReqSide} (hm : findCmd c id = some m)
    (hx : c.sides.find? (fun x => (x.2.appends.find? (fun a => !a.copied)).any (fun a => a.cmd == id)) = some (i, d))
    (hw : linkWaits c (arg m 0x10 8) = false) :
    appendCopy e c id = writePrompt (onSide c i (appendsWith id (appendToks e c m))) (req c i).job (appendToks e c m) := by
  unfold appendCopy; rw [hx, hm]
  exact if_neg (by simp [hw])

/-! CANCEL (R282). -/

/-- The chip with a CANCEL accepted: the flag of its request is set, and its FINAL waits for the request's end. -/
def cancelNoted (c : Chip) (m : Cmd) (i : Nat) : Chip :=
  onSide (onReq (acceptCmd c m.id (cmdHandle m.id)) i (fun q => { q with cancel := true })) i (fun d => { d with cancels := d.cancels ++ [m.id] })

section Cancel
variable {s : State} {m : Cmd} {i : Nat} {q : Req} {j : Job} (ht : AimedReq s m i q j)
include ht

theorem cancel_running (hr : jobRunning j = true) : cancel m s.chip = cancelNoted s.chip m i :=
  (onReqTarget_of ht _).trans (if_pos hr)

theorem cancel_stopped (hr : jobRunning j = false) : cancel m s.chip = endReqNow (cancelNoted s.chip m i) i .cancelled :=
  (onReqTarget_of ht _).trans (if_neg (by simp [hr]))

end Cancel

/-! The record of a QUERY, and its size (R266, R311). -/

@[simp] theorem leBytes_length (n v : Nat) : (leBytes n v).length = n := by
  induction n generalizing v with
  | zero => rfl
  | succ n ih => exact congrArg (· + 1) (ih (v / 256))

theorem reqBytes_length (q : Req) : (reqBytes q).length = 64 := by
  unfold reqBytes; simp only [List.length_append, leBytes_length]

theorem adapterBytes_length (c : Chip) (t a d : Nat) (w : Drawer) : (adapterBytes c t a d w).length = 16 := by
  unfold adapterBytes; simp only [List.length_append, leBytes_length]

/-- An adapter that is in no drawer has a record too. -/
theorem adapterById_length (c : Chip) (t : Nat) (j : Job) (a : Nat) : (adapterById c t j a).length = 16 := by
  unfold adapterById; simp only []
  split
  · exact adapterBytes_length _ _ _ _ _
  · simp only [List.length_append, leBytes_length]

section Out
variable {m : Cmd} {parts : List Nat} {bs : List Byte} {c : Chip}

theorem queryOut_fits (h : bs.length ≤ arg m 0x18 4) (hb : bufferOk c parts (arg m 0x10 8) (arg m 0x18 4) = true) :
    queryOut m parts bs c = doneCmd (wr c (arg m 0x10 8) bs) m.id .ok bs.length 0 := by
  unfold queryOut
  exact (if_neg h.not_gt).trans (if_neg (by simp [hb]))

theorem queryOut_short (h : arg m 0x18 4 < bs.length) : queryOut m parts bs c = finalCmd c m.id .invalidArg bs.length 0 0 := if_pos h

end Out

/-! What a QUERY asks for (R311). -/

section Query
variable {s : State} {m : Cmd} {j : Job}

theorem query_req {i : Nat} {q : Req} (ht : AimedReq s m i q j) : query m s.chip = queryOut m j.place.parts (reqBytes q) s.chip := by
  unfold query; rw [ht.1]
  exact onReqTarget_of ht _

/-- A job handle asks for the job's record, or with flag bit 2 for that of one of its adapters. -/
theorem query_jobHandle {t : Nat} (hk : hKind m.target = 3) (ht : Aimed s m t j) : query m s.chip =
    queryOut m j.place.parts (if bitOf m.flags 2 then adapterById s.chip t j (arg m 0x1C 4) else jobBytes s.chip t j) s.chip := by
  unfold query; rw [hk]
  exact onJobTarget_of ht true _

theorem query_job {t : Nat} (hk : hKind m.target = 3) (ht : Aimed s m t j) (hf : bitOf m.flags 2 = false) :
    query m s.chip = queryOut m j.place.parts (jobBytes s.chip t j) s.chip := by
  rw [query_jobHandle hk ht, hf]; rfl

theorem query_adapter {t : Nat} (hk : hKind m.target = 3) (ht : Aimed s m t j) (hf : bitOf m.flags 2 = true) :
    query m s.chip = queryOut m j.place.parts (adapterById s.chip t j (arg m 0x1C 4)) s.chip := by
  rw [query_jobHandle hk ht, hf]; rfl

end Query

/-! A transfer that the link never served (R405). -/

section Timeout
variable {c : Chip} {id : CmdId} {m : Cmd} (hm : findCmd c id = some m)
include hm

theorem apertureTimeout_waits (h : apertureWaited c m = false) : apertureTimeout c id = c := by
  unfold apertureTimeout; rw [hm]
  exact if_pos (by rw [h]; rfl)

variable (h : apertureWaited c m = true)
include h

theorem apertureTimeout_request {x : Nat × ReqSide} (hx : c.sides.find? (fun y => y.2.cmd == id) = some x) :
    apertureTimeout c id = endReqNow c x.1 .hwFault := by
  unfold apertureTimeout; rw [hm, hx]
  exact if_neg (by simp [h])

theorem apertureTimeout_command (hx : c.sides.find? (fun y => y.2.cmd == id) = none) :
    apertureTimeout c id = final (dropCopies (dropWork c id) id) id .hwFault := by
  unfold apertureTimeout; rw [hm, hx]
  exact if_neg (by simp [h])

end Timeout

/-- Settles O56: each command by what its target, its request and its buffer are; a timeout by whether the link was down for the second, and by whether the
command admitted a request. -/
theorem requestCommands : Obligations.RequestCommands := by
  refine ⟨⟨?append, ?appendCopy, ?cancel, ?query⟩, ?timeout⟩
  case append =>
    intro id m i q j s _ h ht hp n
    rw [exec_append, withStarted_of h]
    exact ⟨fun hbad => by rw [append_refused ht hp hbad], fun he hl hb hn => by rw [append_accepted ht hp he hl hb hn]⟩
  case appendCopy =>
    intro id m i d s _ hm hx hw toks
    rw [exec_appendCopy, appendCopy_of hm hx hw]
    rfl
  case cancel =>
    intro id m i q j s _ h ht c
    rw [exec_cancel, withStarted_of h]
    exact ⟨fun hr => by rw [cancel_running ht hr]; rfl, fun hr => by rw [cancel_stopped ht hr]; rfl⟩
  case query =>
    intro id m i t q j s _ h n a
    rw [exec_query, withStarted_of h]
    refine ⟨fun ht => ?request, fun hk ht hf hn hb => ?job, fun hk ht hf hn hb => ?adapter⟩
    case request =>
      rw [query_req ht, ← reqBytes_length q]
      exact ⟨fun hn hb => by rw [queryOut_fits hn hb], fun hn => by rw [queryOut_short hn]⟩
    case job => rw [query_job hk ht hf, queryOut_fits hn hb]
    case adapter =>
      rw [← adapterById_length s.chip t j (arg m 0x1C 4)] at hn ⊢
      rw [query_adapter hk ht hf, queryOut_fits hn hb]
  case timeout =>
    intro id m s hq hm
    rw [exec_apertureTimeout]
    refine ⟨fun h => by rw [apertureTimeout_waits hm h, State.after_self s hq], fun h => ⟨fun x hx => ?_, fun hx => ?_⟩⟩
    · rw [apertureTimeout_request hm h hx]
    · rw [apertureTimeout_command hm h hx]

end Sys2Proof.Machine
end

section
/-! O16: the fetch of a descriptor and the order of FENCE (12_host.md R295-R298, R303, R304). -/

namespace Sys2Proof.Machine

/-! The rows, each by the chip that it settles. -/

theorem exec_descriptorFetch (p n : Nat) (s : State) :
    exec (.descriptorFetch p n) s = .next (s.after (fetchDescriptor s.env s.chip (p % 16) n)) := rfl
theorem exec_fence (p n : Nat) (s : State) : exec (.fence p n) s = .next (s.after (releaseFence s.chip (p % 16) n)) := rfl

/-! A command that starts (R295). -/

/-- A command past its fence. -/
def Cmd.begun (m : Cmd) : Cmd := { m with phase := .started }

/-- The chip with a command started. -/
def cmdBegun (c : Chip) (m : Cmd) : Chip := updCmd c m.id Cmd.begun

theorem sameHand_cmdBegun (c : Chip) (m : Cmd) : c.SameHand (cmdBegun c m) := ⟨rfl, rfl, rfl⟩

/-- In a partition in state 1, a well-formed descriptor that reads no uncorrectable word starts. -/
theorem startCmd_begins {c : Chip} {m : Cmd} (hs : (part c m.id.part).state = 1) (hd : descriptorOk m = true) (hb : hostBad c m = false) :
    startCmd c m = cmdBegun c m := by
  have hopen : ¬((part c m.id.part).state = 3 ∧ m.opcode ≠ 0x13 ∧ m.opcode ≠ 0x40) := fun h => absurd (hs.symm.trans h.1) (by decide)
  have hformed : ¬((!descriptorOk m) = true) := by simp [hd]
  have hread : ¬(hostBad (cmdBegun c m) m = true) := fun h => absurd (hb.symm.trans h) (by decide)
  exact (if_neg hopen).trans ((if_neg hformed).trans (if_neg hread))

section Newest
variable {c : Chip} {before : List Cmd} {m : Cmd} (hc : c.cmds = before ++ [m]) (hid : ∀ y ∈ before, y.id ≠ m.id)
include hc hid

/-- The newest command of the package starts; the others stay as they are. -/
theorem cmdBegun_cmds : (cmdBegun c m).cmds = before ++ [m.begun] := by
  have hbefore : before.map (fun x => if x.id = m.id then x.begun else x) = before :=
    (List.map_congr_left fun y hy => if_neg (hid y hy)).trans (List.map_id before)
  unfold cmdBegun
  rw [updCmd_cmds, hc, List.map_append, hbefore, List.map_singleton, if_pos rfl]

theorem findCmd_cmdBegun : findCmd (cmdBegun c m) m.id = some m.begun := by
  have hbefore : before.find? (fun y => y.id == m.id) = none := List.find?_eq_none.mpr fun y hy => by simp [hid y hy]
  unfold findCmd
  rw [cmdBegun_cmds hc hid, List.find?_append, hbefore, Option.none_or]
  exact List.find?_cons_of_pos (beq_self_eq_true m.id)

end Newest

/-! The fetch (R295, R296, R298). -/

/-- The commands in hand that came by submission ring `n` of a partition, in the order of the ring. -/
def cmdsOf (c : Chip) (p n : Nat) : List Cmd := c.cmds.filter (fun y => y.id.part == p && y.sq == n)

/-- A command waits behind a held one of its ring, and with FENCE behind one that does not count as final (R304). -/
def mustWait (c : Chip) (p n : Nat) (m : Cmd) : Prop :=
  (cmdsOf c p n).any (fun y => y.phase == .held) = true ∨ (bitOf m.flags 0 = true ∧ (cmdsOf c p n).any (fun y => !(fenceFinal y)) = true)

/-- The 64 bytes at the fetch position of a submission ring. -/
def nextDesc (e : Env) (c : Chip) (p n : Nat) : List Byte :=
  let r := ring c (ringKey p n)
  rdBytes e c (ringAddr r + r.fetch % ringSize r * 64) 64

/-- The command of a descriptor, not started yet. -/
def cmdOfDesc (c : Chip) (p n : Nat) (d : List Byte) : Cmd :=
  ⟨⟨p, (part c p).seq⟩, n, field d 0 1, field d 1 1, field d 2 1, field d 3 1, field d 4 4, field d 8 8, d.drop 16, .held,
    cmdHandle ⟨p, (part c p).seq⟩, []⟩

/-- The chip with a fetched command in hand, not started: fetch position, handle sequence and turn of the rings have advanced. -/
def cmdFetched (c : Chip) (p n : Nat) (m : Cmd) : Chip :=
  { onPart (onRing c (ringKey p n) (fun r => { r with fetch := (r.fetch + 1) % 2 ^ 32 })) p
      (fun x => { x with seq := nextSeq x.seq, rot := (n + 1) % 32 }) with cmds := c.cmds ++ [m] }

section Fetch
variable {e : Env} {c : Chip} {p n : Nat}

theorem sameHand_cmdFetched (m : Cmd) : c.SameHand (cmdFetched c p n m) := ⟨rfl, rfl, rfl⟩

theorem cmdFetched_fetch (m : Cmd) :
    (ring (cmdFetched c p n m) (ringKey p n)).fetch = ((ring c (ringKey p n)).fetch + 1) % 2 ^ 32 :=
  congrArg Ring.fetch ((ring_onRing c (ringKey p n) (ringKey p n) (fun r => { r with fetch := (r.fetch + 1) % 2 ^ 32 })).trans (if_pos rfl))

theorem part_cmdFetched (m : Cmd) :
    part (cmdFetched c p n m) p = { part c p with seq := nextSeq (part c p).seq, rot := (n + 1) % 32 } :=
  (part_onPart c p p (fun x => { x with seq := nextSeq x.seq, rot := (n + 1) % 32 })).trans (if_pos rfl)

/-- What is fetched where it is the ring's turn and the descriptor names an enabled completion ring. -/
theorem fetchDescriptor_named (hs : doorbellsServed c p = true) (ht : nextRing e c p = some n) (hcq : field (nextDesc e c p n) 2 1 ≤ 31)
    (hq : (ring c (ringKey p (32 + field (nextDesc e c p n) 2 1))).enable = true) {m : Cmd} (hm : cmdOfDesc c p n (nextDesc e c p n) = m) :
    (mustWait c p n m → fetchDescriptor e c p n = cmdFetched c p n m) ∧
      (¬ mustWait c p n m → fetchDescriptor e c p n = startCmd (cmdFetched c p n m) m) := by
  have hturn : ¬((!(doorbellsServed c p)) = true ∨ nextRing e c p ≠ some n) := by simp [hs, ht]
  have hnamed : ¬(31 < field (nextDesc e c p n) 2 1 ∨ (!(ring c (ringKey p (32 + field (nextDesc e c p n) 2 1))).enable) = true) := by simp [hq, hcq]
  subst hm
  exact ⟨fun hw => (if_neg hturn).trans ((if_neg hnamed).trans (if_pos hw)), fun hw => (if_neg hturn).trans ((if_neg hnamed).trans (if_neg hw))⟩

end Fetch

/-! FENCE (R304). -/

/-- The held command of a submission ring that is next to start. -/
def firstHeld (c : Chip) (p n : Nat) : Option Cmd := (cmdsOf c p n).find? (fun y => y.phase == .held)

section Fence
variable {c : Chip} {p n : Nat}

theorem startHeld_none (h : firstHeld c p n = none) (fuel : Nat) : startHeld fuel c p n = c := by
  unfold firstHeld cmdsOf at h
  cases fuel with
  | zero => rfl
  | succ fuel => unfold startHeld; simp only [h]

/-- A held command starts where those before it on its ring count as final. -/
theorem startHeld_first {m : Cmd} (h : firstHeld c p n = some m)
    (hf : ((cmdsOf c p n).takeWhile (fun y => y.id != m.id)).any (fun y => !(fenceFinal y)) = false) (fuel : Nat) :
    startHeld (fuel + 1) c p n = startHeld fuel (startCmd c m) p n := by
  unfold firstHeld cmdsOf at h
  unfold cmdsOf at hf
  rw [startHeld]; simp only [h]
  exact if_neg (by simp [hf])

/-- Where nothing in hand is held, nothing is held on a ring. -/
theorem firstHeld_none (h : ∀ y ∈ c.cmds, y.phase ≠ .held) : firstHeld c p n = none :=
  List.find?_eq_none.mpr fun y hy => by simp [h y (List.mem_of_mem_filter hy)]

section Newest
variable {before : List Cmd} {m : Cmd} (hc : c.cmds = before ++ [m]) (hp : m.id.part = p) (hn : m.sq = n)
include hc hp hn

theorem cmdsOf_newest : cmdsOf c p n = before.filter (fun y => y.id.part == p && y.sq == n) ++ [m] := by
  unfold cmdsOf; rw [hc, List.filter_append]; simp [hp, hn]

theorem firstHeld_newest (hh : m.phase = .held) (hb : ∀ y ∈ before, y.phase ≠ .held) : firstHeld c p n = some m := by
  have hnone : (before.filter (fun y => y.id.part == p && y.sq == n)).find? (fun y => y.phase == .held) = none :=
    List.find?_eq_none.mpr fun y hy => by simp [hb y (List.mem_of_mem_filter hy)]
  unfold firstHeld
  rw [cmdsOf_newest hc hp hn, List.find?_append, hnone, Option.none_or]
  exact List.find?_cons_of_pos (by simp [hh])

/-- What stands before the newest command of a ring counts as final if each of it does. -/
theorem beforeNewest_final (hid : ∀ y ∈ before, y.id ≠ m.id) (hf : ∀ y ∈ before, y.id.part = p → y.sq = n → fenceFinal y = true) :
    ((cmdsOf c p n).takeWhile (fun y => y.id != m.id)).any (fun y => !(fenceFinal y)) = false := by
  rw [cmdsOf_newest hc hp hn, List.takeWhile_append_of_pos fun y hy => by simp [hid y (List.mem_of_mem_filter hy)]]
  simpa using hf

end Newest
end Fence

/-- Settles O16: a fetched command waits or starts by `mustWait`; a release starts the one held command and finds no other. -/
theorem fetchAndFence : Obligations.FetchAndFence := by
  intro p n s hq hp _ hs hone
  rw [exec_descriptorFetch, exec_fence, Nat.mod_eq_of_lt hp]
  refine ⟨?fetch, fun m before hc hmp hmn hh hd hb hbefore hf => ?fence, fun hnone => ?idle⟩
  case fetch =>
    intro r d q m earlier ht _ _ hcq hqe _ hid hb
    obtain ⟨hwaits, hstarts⟩ := fetchDescriptor_named hs ht hcq hqe (m := m) rfl
    refine ⟨fun hd hheld hfence => ?starts, fun hwait => ?waits⟩
    case starts =>
      have hfree : ¬ mustWait s.chip p n m := by
        rintro (h | ⟨hflag, h⟩)
        · exact absurd (hheld.symm.trans h) (by decide)
        · exact absurd ((hfence hflag).symm.trans h) (by decide)
      have hstate : (part (cmdFetched s.chip p n m) p).state = 1 := by rw [part_cmdFetched]; exact hone
      have hbegins : startCmd (cmdFetched s.chip p n m) m = cmdBegun (cmdFetched s.chip p n m) m := startCmd_begins hstate hd hb
      rw [hstarts hfree, hbegins, State.after_sameHand s _ hq ((sameHand_cmdFetched m).trans (sameHand_cmdBegun _ m))]
      exact ⟨_, rfl, findCmd_cmdBegun rfl hid, cmdFetched_fetch m, congrArg Part.seq (part_cmdFetched m), rfl, rfl⟩
    case waits =>
      rw [hwaits hwait, State.after_sameHand s _ hq (sameHand_cmdFetched m)]
      exact ⟨_, rfl, rfl, cmdFetched_fetch m, rfl⟩
  case fence =>
    have hid : ∀ y ∈ before, y.id ≠ m.id := fun y hy => (hbefore y hy).1
    have hlen : s.chip.cmds.length = before.length + 1 := by simp [hc]
    have hbegins : startCmd s.chip m = cmdBegun s.chip m := startCmd_begins (by rw [hmp]; exact hone) hd hb
    have hrest : ∀ y ∈ (cmdBegun s.chip m).cmds, y.phase ≠ .held := by
      rw [cmdBegun_cmds hc hid]
      intro y hy
      rcases List.mem_append.mp hy with hy | hy
      · exact (hbefore y hy).2
      · rw [List.mem_singleton.mp hy]; exact CmdPhase.noConfusion
    have hreleased : releaseFence s.chip p n = cmdBegun s.chip m := by
      unfold releaseFence
      rw [hlen, startHeld_first (firstHeld_newest hc hmp hmn hh fun y hy => (hbefore y hy).2) (beforeNewest_final hc hmp hmn hid hf), hbegins,
        startHeld_none (firstHeld_none hrest)]
    rw [hreleased, State.after_sameHand s _ hq (sameHand_cmdBegun _ m)]
    exact ⟨_, rfl, findCmd_cmdBegun hc hid, rfl⟩
  case idle =>
    have hfree : ∀ y ∈ s.chip.cmds, y.phase ≠ .held := by simpa using hnone
    unfold releaseFence
    rw [startHeld_none (firstHeld_none hfree), s.after_self hq]

end Sys2Proof.Machine
end

section
/-! O10: RING_CTL_p_i (12_host.md R291; 18_registers.md R416, R417). -/

namespace Sys2Proof.Machine

/-! The rows, each by the chip that it settles. -/

theorem exec_ringEnable (x : Src) (p i : Nat) (v : Word) (s : State) :
    exec (.ringEnable x p i v) s = .next (s.after (putReg x (ringCtlOff p i) 4 (v ||| 0x80000000#32).toNat s.env s.chip)) := rfl
theorem exec_ringDisable (x : Src) (p i : Nat) (v : Word) (s : State) :
    exec (.ringDisable x p i v) s = .next (s.after (putReg x (ringCtlOff p i) 4 (v &&& 0x7FFFFFFF#32).toNat s.env s.chip)) := rfl

/-! The register (R407, R412, R416). -/

section Reg
variable {p i : Nat} (hp : p < 16) (hi : i < 130)
include hp hi

theorem regAt_ringCtl : regAt (ringCtlOff p i) = some (.ringCtl p i, ringCtlOff p i, 4) := by
  have hoff : ringCtlOff p i = 0x20000 + p * 0x1000 + i * 16 := by
    unfold ringCtlOff; rw [Nat.mod_eq_of_lt hp, Nat.mod_eq_of_lt hi]
  have hrow : ringRegAt (ringCtlOff p i) = some (.ringCtl p i, ringCtlOff p i, 4) := by
    have hpart : (ringCtlOff p i - 0x20000) / 0x1000 = p := by omega
    have hring : ringCtlOff p i % 0x1000 / 16 = i := by omega
    have hword : ringCtlOff p i % 0x1000 % 16 / 4 = 0 := by omega
    have hself : ringCtlOff p i / 4 * 4 = ringCtlOff p i := by omega
    unfold ringRegAt
    simp only [hpart, hring, hword, hself]
    rw [if_pos (by omega), if_pos hi]
  unfold regAt; rw [hrow]

/-- A hart's write of RING_CTL_p_i after READY. -/
theorem putReg_ringCtl {x : Src} {e : Env} {c : Chip} (hx : HartSrc x) (hr : c.boot.ready = true) (v : Word) :
    putReg x (ringCtlOff p i) 4 v.toNat e c = writeRingCtl c p i v.toNat := by
  have hn : ringCtlOff p i ≠ 0x31000 := by unfold ringCtlOff; omega
  have hi3c : x = .i3c → i3cAwake c = true := by rcases hx with rfl | rfl <;> exact Src.noConfusion
  have hv : v.toNat % 2 ^ (8 * 4) = v.toNat := Nat.mod_eq_of_lt v.isLt
  rw [putReg_whole (regAt_ringCtl hp hi) (mayWrite_h hx) (.inl hr) hn hi3c, hv]
  rfl

end Reg

/-! ENABLE, bit 31 of the value written (R416). -/

theorem bitOf_eq_testBit (n k : Nat) : bitOf n k = n.testBit k := by
  unfold bitOf; rw [Nat.testBit_eq_decide_div_mod_eq]; rfl

theorem bitOf_enable (v : Word) : bitOf (v ||| 0x80000000#32).toNat 31 = true := by
  rw [bitOf_eq_testBit, BitVec.toNat_or, Nat.testBit_or]
  exact Bool.or_true _

theorem bitOf_disable (v : Word) : bitOf (v &&& 0x7FFFFFFF#32).toNat 31 = false := by
  rw [bitOf_eq_testBit, BitVec.toNat_and, Nat.testBit_and]
  exact Bool.and_false _

/-! What a write makes of its ring (R417). -/

/-- A pending FINAL or a request that is not FREE needs the ring. -/
def ringTaken (c : Chip) (p i : Nat) : Prop :=
  (32 ≤ i ∧ i < 64 ∧ pendingOn c p (i - 32) ≠ 0) ∨
    (64 ≤ i ∧ i < 128 ∧ c.reqs.any (fun q => q.2.st != .free && q.2.part == p && q.2.tokenRing == i - 64) = true)

/-- The partition, the size and the extent with which a ring may be enabled (R291). -/
abbrev ringFits (c : Chip) (p i l : Nat) : Prop :=
  (part c p).state = 1 ∧ 4 ≤ l ∧ l ≤ 16 ∧ tierOk c [p] (ringAddr (ring c (ringKey p i))) (2 ^ l * recSize (kindOf i)) = true

/-- A ring with the settings of a value. -/
def Ring.settings (r : Ring) (v : Nat) : Ring := { r with log2 := bitsOf v 26 22, msix := bitOf v 21, hart := bitsOf v 20 17 }

/-- A ring that starts with the settings of a value: all indices 0, nothing pending. -/
def Ring.started (r : Ring) (i v : Nat) : Ring :=
  { r.settings v with enable := true, err := false, prod := 0, cons := 0, fetch := 0, armed := decide (32 ≤ i), pend := [] }

/-- A ring with ERR as a write leaves it. -/
def Ring.withErr (r : Ring) (b : Bool) : Ring := { r with err := b }

section Write
variable {c : Chip} {p i v : Nat}

/-- ENABLE = 1, on a ring that is enabled, on one that may be, and on any other. -/
theorem writeRingCtl_on (h1 : bitOf v 31 = true) : writeRingCtl c p i v = onRing c (ringKey p i) (fun r =>
    if (ring c (ringKey p i)).enable = true then r.withErr false
    else if ringFits c p i (bitsOf v 26 22) then r.started i v else r.withErr true) := by
  by_cases he : (ring c (ringKey p i)).enable = true
  · simp only [if_pos he]
    exact (if_pos he).trans (if_pos h1)
  · simp only [if_neg he]
    have hoff : writeRingCtl c p i v = _ := (if_neg he).trans (if_pos h1)
    by_cases hf : ringFits c p i (bitsOf v 26 22)
    · simp only [if_pos hf]; exact hoff.trans (if_pos hf)
    · simp only [if_neg hf]; exact hoff.trans (if_neg hf)

variable (h0 : bitOf v 31 = false)
include h0

theorem writeRingCtl_off_disabled (he : (ring c (ringKey p i)).enable = false) :
    writeRingCtl c p i v = onRing c (ringKey p i) (fun r => (r.settings v).withErr false) :=
  (if_neg (Bool.eq_false_iff.mp he)).trans (if_neg (Bool.eq_false_iff.mp h0))

theorem writeRingCtl_off_taken (he : (ring c (ringKey p i)).enable = true) (ht : ringTaken c p i) :
    writeRingCtl c p i v = onRing c (ringKey p i) (fun r => r.withErr true) :=
  (if_pos he).trans ((if_neg (Bool.eq_false_iff.mp h0)).trans (if_pos ht))

theorem writeRingCtl_off_free (he : (ring c (ringKey p i)).enable = true) (ht : ¬ ringTaken c p i) :
    writeRingCtl c p i v = onRing c (ringKey p i) (fun r => { r with enable := false, err := false }) :=
  (if_pos he).trans ((if_neg (Bool.eq_false_iff.mp h0)).trans (if_neg ht))

/-- ENABLE = 0 writes the ring alone. -/
theorem writeRingCtl_off_cases : ∃ f, writeRingCtl c p i v = onRing c (ringKey p i) f := by
  cases he : (ring c (ringKey p i)).enable
  · exact ⟨_, writeRingCtl_off_disabled h0 he⟩
  · by_cases ht : ringTaken c p i
    · exact ⟨_, writeRingCtl_off_taken h0 he ht⟩
    · exact ⟨_, writeRingCtl_off_free h0 he ht⟩

end Write

/-- A write of one ring reaches no other ring, no partition and no memory. -/
theorem State.after_onRing {s : State} (hq : s.quiet) (k : Nat) (f : Ring → Ring) :
    let t := s.after (onRing s.chip k f)
    ring t.chip k = f (ring s.chip k) ∧ (∀ j, j ≠ k → ring t.chip j = ring s.chip j) ∧ t.mem = s.mem ∧ t.chip = { s.chip with rings := t.chip.rings } := by
  intro t
  have ht : t = s.put (onRing s.chip k f) := State.after_sameHand s _ hq (sameHand_onRing _ _ _)
  rw [ht]
  exact ⟨(ring_onRing s.chip k k f).trans (if_pos rfl), fun j hj => (ring_onRing s.chip k j f).trans (if_neg hj), rfl, rfl⟩

/-- Settles O10: a write is that of its ring alone, by ENABLE and by what the ring and the package hold. -/
theorem ringEnableDisable : Obligations.RingEnableDisable := by
  intro x p i v s hq hr hx hp hi r
  rw [exec_ringEnable, exec_ringDisable, putReg_ringCtl hp hi hx hr, putReg_ringCtl hp hi hx hr]
  refine ⟨?enable, ?disable⟩
  case enable =>
    intro w l
    refine ⟨_, rfl, ?_⟩
    rw [writeRingCtl_on (bitOf_enable v)]
    exact State.after_onRing hq _ _
  case disable =>
    intro w taken
    have h0 : bitOf w 31 = false := bitOf_disable v
    obtain ⟨f, hf⟩ := writeRingCtl_off_cases (c := s.chip) (p := p) (i := i) h0
    refine ⟨_, rfl, fun he => ?_, fun he ht => ?_, fun he ht => ?_, ?frame⟩
    · rw [writeRingCtl_off_disabled h0 he]; exact (State.after_onRing hq _ _).1
    · rw [writeRingCtl_off_free h0 he ht]; exact (State.after_onRing hq _ _).1
    · rw [writeRingCtl_off_taken h0 he ht]; exact (State.after_onRing hq _ _).1
    case frame => rw [hf]; exact (State.after_onRing hq _ f).2

end Sys2Proof.Machine
end

section
/-! O14: what a hart reads and writes in memory (12_host.md R288, R289; 16_tenancy.md R371). -/

namespace Sys2Proof.Machine

/-! Bytes written and read between commands. -/

theorem leBytes_getD (n v k : Nat) (hk : k < n) : (leBytes n v).getD k 0 = BitVec.ofNat 8 (v / 2 ^ (8 * k)) := by
  induction n generalizing v k with
  | zero => exact absurd hk (Nat.not_lt_zero k)
  | succ n ih =>
    cases k with
    | zero => simp [leBytes]
    | succ k =>
      have hpow : 256 * 2 ^ (8 * k) = 2 ^ (8 * (k + 1)) := by rw [Nat.mul_succ, pow_add, Nat.mul_comm]; rfl
      rw [leBytes, List.getD_cons_succ, ih _ _ (Nat.lt_of_succ_lt_succ hk), Nat.div_div_eq_div_mul, hpow]

section Quiet
variable {s : State} (hq : s.quiet)
include hq

/-- With no write in hand and no flipped bit in memory, what is read is what memory holds. -/
theorem rdBytes_quiet (he : s.chip.safe.ecc = []) (a n : Nat) : rdBytes s.env s.chip a n = (List.range n).map (fun i => s.byte (a + i)) := by
  have hbyte (b : Nat) : rdByte s.env s.chip b = s.byte b := by
    unfold rdByte; rw [hq.1, if_pos he]; rfl
  unfold rdBytes; simp only [hbyte]

theorem byte_after_wr (a : Nat) (bs : List Byte) (b : Nat) :
    (s.after (wr s.chip a bs)).byte b = if a ≤ b ∧ b < a + bs.length then bs.getD (b - a) 0 else s.byte b := by
  obtain ⟨hw, hc, hr⟩ := hq
  have hmem : memAfter s.mem (wr s.chip a bs) = s.mem.writeBytes a bs := by
    unfold memAfter wr
    split
    · next h => rw [h, hw, hc]; rfl
    · rw [hw, hc]; rfl
  unfold State.byte
  rw [State.after_mem_of_unraised s _ ((wr_raised s.chip a bs).trans hr), hmem, Memory.read_writeBytes]

/-- The bytes of a value, and the bytes beside them, after its write. -/
theorem bytes_after_write (a size v : Nat) :
    (∀ k, k < size → (s.after (wr s.chip a (leBytes size v))).byte (a + k) = BitVec.ofNat 8 (v / 2 ^ (8 * k))) ∧
      (∀ b, b < a ∨ a + size ≤ b → (s.after (wr s.chip a (leBytes size v))).byte b = s.byte b) := by
  refine ⟨fun k hk => ?_, fun b hb => ?_⟩
  · rw [byte_after_wr hq, leBytes_length, if_pos ⟨Nat.le_add_right a k, by omega⟩, Nat.add_sub_cancel_left, leBytes_getD size v k hk]
  · rw [byte_after_wr hq, leBytes_length, if_neg (by omega)]

theorem chip_after_wr (a : Nat) (bs : List Byte) : (s.after (wr s.chip a bs)).chip = (wr s.chip a bs).rest :=
  State.after_chip_of_unraised s _ ((wr_raised s.chip a bs).trans hq.2.2)

end Quiet

theorem wr_denied (c : Chip) (a : Nat) (bs : List Byte) : (wr c a bs).safe.denied = c.safe.denied := by
  unfold wr; split <;> rfl

/-! An access of a hart past the windows of the host die (R289, R371, R406). -/

/-- What an access does where it is let through. -/
def touched (e : Env) (c : Chip) (a size : Nat) : Option Dword → Chip
  | some v => wr c a (leBytes size v.toNat)
  | none => answer c a size (rdLE e c a size)

theorem sameHand_touched_read (e : Env) (c : Chip) (a size : Nat) : c.SameHand (touched e c a size none) := ⟨rfl, rfl, rfl⟩

/-- What the source of an access sees where it is not: a write does nothing, a read returns zeros. -/
def turnedAway (c : Chip) (a size : Nat) : Option Dword → Chip
  | some _ => c
  | none => answer c a size 0

theorem sameHand_turnedAway (c : Chip) (a size : Nat) (w : Option Dword) : c.SameHand (turnedAway c a size w) := by
  cases w <;> exact ⟨rfl, rfl, rfl⟩

/-- Every byte of an access lies in the store region, in a declared range that harts may touch (R371). -/
def hostMayReach (c : Chip) (a size : Nat) : Bool := (List.range size).all (fun i => (inStore (a + i) || inAnyNear (a + i)) && hostMayTouch c (a + i))

theorem hostMayReach_iff {c : Chip} {a size : Nat} :
    hostMayReach c a size = true ↔ ∀ k < size, (inStore (a + k) || inAnyNear (a + k)) = true ∧ hostMayTouch c (a + k) = true := by
  simp [hostMayReach]

/-- Status window, doorbells and set-up registers lie elsewhere. -/
abbrev pastWindows (a : Nat) : Prop := a < Config.statusBase ∨ Config.setupBase + Config.setupSize ≤ a

section Hart
variable {e : Env} {c : Chip} {x : Src} {a size : Nat} {w : Option Dword}

theorem exec_hostAccess_past {s : State} (ha : pastWindows a) (w : Option Dword) :
    exec (.hostAccess x a size w) s = .next (s.after (hostAccess s.env s.chip x a size w)) := by
  have hlamp : ¬(x ≠ .server ∧ a = Config.setupBase + 0x31000) := by
    have ha : a < 0x500000000 ∨ 0x500200000 ≤ a := ha
    rintro ⟨-, h⟩
    have h : a = 0x500131000 := h
    omega
  cases w with
  | none => rfl
  | some v =>
    have hrow : exec (.hostAccess x a size (some v)) s = .next (s.after
      (if x ≠ .server ∧ a = Config.setupBase + 0x31000 then putReg x 0x31000 size v.toNat s.env s.chip
        else hostAccess s.env s.chip x a size (some v))) := rfl
    rw [hrow, if_neg hlamp]

theorem hostAccess_past (hx : HartSrc x) (ha : pastWindows a) : hostAccess e c x a size w =
    if (inHostStore a && inHostStore (a + size - 1)) = true then touched e c a size w
    else if (inAperture a && inAperture (a + size - 1)) = true then (if c.boot.pcieUp = true then touched e c a size w else c)
    else if (inStore a || inAnyNear a) = true then
      (if hostMayReach c a size = true then touched e c a size w else turnedAway (countDenied c) a size w)
    else turnedAway (countUnmapped c) a size w := by
  have ha : a < 0x500000000 ∨ 0x500200000 ≤ a := ha
  have haway (lo n : Nat) (h : a < lo ∨ lo + n ≤ a) : (decide (lo ≤ a) && decide (a < lo + n)) = false := by
    simp only [Bool.and_eq_false_iff, decide_eq_false_iff_not]; omega
  have hsetup : (decide (Config.setupBase ≤ a) && decide (a < Config.setupBase + Config.setupSize)) = false := haway 0x500100000 0x100000 (by omega)
  have hstatus : (decide (Config.statusBase ≤ a) && decide (a < Config.statusBase + 0x10000)) = false := haway 0x500000000 0x10000 (by omega)
  have hdoor : (decide (Config.doorbellBase ≤ a) && decide (a < Config.doorbellBase + 0x10000)) = false := haway 0x500010000 0x10000 (by omega)
  have hserver : x ≠ .server := by rcases hx with rfl | rfl <;> exact Src.noConfusion
  have hi3c : x ≠ .i3c := by rcases hx with rfl | rfl <;> exact Src.noConfusion
  unfold hostAccess
  simp only [hsetup, hstatus, hdoor, hserver, hi3c, false_and, or_self, Bool.false_eq_true, if_false]
  cases w <;> rfl

/-! The host store (R288). -/

theorem pastWindows_of_hostStore (h : inHostStore a = true) : pastWindows a := by
  have hlow : 0x8000000000 ≤ a := of_decide_eq_true (Bool.and_eq_true_iff.mp h).1
  exact .inr (show 0x500200000 ≤ a by omega)

theorem exec_hostAccess_hostStore {s : State} (hx : HartSrc x) (h : inHostStore a = true) (hend : inHostStore (a + size - 1) = true) :
    exec (.hostAccess x a size w) s = .next (s.after (touched s.env s.chip a size w)) := by
  have hpast := pastWindows_of_hostStore h
  rw [exec_hostAccess_past hpast, hostAccess_past hx hpast, if_pos (Bool.and_eq_true_iff.mpr ⟨h, hend⟩)]

/-! The store region (R371). -/

/-- The store region lies below the windows, and the host tier above them. -/
theorem storeRegion_below (h : (inStore a || inAnyNear a) = true) : a < 0x480000000 := by
  rcases Bool.or_eq_true_iff.mp h with h | h
  · have hstore : a < 2 ^ 34 := of_decide_eq_true h
    omega
  · have hnear : a < 0x400000000 + 2 ^ 31 := of_decide_eq_true (Bool.and_eq_true_iff.mp h).2
    omega

theorem exec_hostAccess_storeRegion {s : State} (hx : HartSrc x) (h : (inStore a || inAnyNear a) = true) : exec (.hostAccess x a size w) s =
    .next (s.after (if hostMayReach s.chip a size = true then touched s.env s.chip a size w else turnedAway (countDenied s.chip) a size w)) := by
  have hlow := storeRegion_below h
  have hpast : pastWindows a := .inl (show a < 0x500000000 by omega)
  have hhost : ¬((inHostStore a && inHostStore (a + size - 1)) = true) := fun hin => by
    have : 0x8000000000 ≤ a := of_decide_eq_true (Bool.and_eq_true_iff.mp (Bool.and_eq_true_iff.mp hin).1).1
    omega
  have haper : ¬((inAperture a && inAperture (a + size - 1)) = true) := fun hin => by
    have : 0x9000000000 ≤ a := of_decide_eq_true (Bool.and_eq_true_iff.mp (Bool.and_eq_true_iff.mp hin).1).1
    omega
  rw [exec_hostAccess_past hpast, hostAccess_past hx hpast, if_neg hhost, if_neg haper, if_pos h]

end Hart

/-- Settles O14: an access of the host store goes through, one of the store region by whether harts may touch each of its bytes. -/
theorem hostAccessMemory : Obligations.HostAccessMemory := by
  intro x a size v s hq hx hpos _
  refine ⟨fun h hend => ?write, fun h hend he => ?read, fun hall => ?declared, fun hin hbad => ?denied⟩
  case write =>
    obtain ⟨hbytes, hrest⟩ := bytes_after_write hq a size v.toNat
    have hchip := chip_after_wr hq a (leBytes size v.toNat)
    refine ⟨_, exec_hostAccess_hostStore hx h hend, hbytes, hrest, ?_, ?_⟩
    · exact (congrArg Chip.jobs hchip).trans (wr_jobs _ _ _)
    · exact (congrArg Chip.rings hchip).trans (wr_rings _ _ _)
  case read =>
    rw [exec_hostAccess_hostStore hx h hend, State.after_sameHand s _ hq (sameHand_touched_read _ _ _ _)]
    refine ⟨_, rfl, ?_, rfl⟩
    rw [← rdBytes_quiet hq he]; rfl
  case declared =>
    have hin : (inStore a || inAnyNear a) = true := (hall 0 hpos).1
    obtain ⟨hbytes, hrest⟩ := bytes_after_write hq a size v.toNat
    refine ⟨_, (exec_hostAccess_storeRegion hx hin).trans (by rw [if_pos (hostMayReach_iff.mpr hall)]; rfl), hbytes, hrest, ?_⟩
    exact (congrArg (fun c => c.safe.denied) (chip_after_wr hq a (leBytes size v.toNat))).trans (wr_denied _ _ _)
  case denied =>
    have hin : (inStore a || inAnyNear a) = true := Bool.or_eq_true_iff.mpr hin
    have hno : ¬(hostMayReach s.chip a size = true) := fun hall => by
      obtain ⟨k, hk, hout⟩ := hbad
      obtain ⟨hregion, htouch⟩ := hostMayReach_iff.mp hall k hk
      rcases hout with h | h
      · exact absurd (hregion.symm.trans h) (by decide)
      · exact absurd (htouch.symm.trans h) (by decide)
    have haway (w : Option Dword) : exec (.hostAccess x a size w) s = .next (s.put (turnedAway (countDenied s.chip) a size w)) := by
      have hhand : s.chip.SameHand (turnedAway (countDenied s.chip) a size w) := sameHand_turnedAway (countDenied s.chip) a size w
      rw [exec_hostAccess_storeRegion hx hin, if_neg hno, State.after_sameHand s _ hq hhand]
    exact ⟨haway (some v), haway none⟩

end Sys2Proof.Machine
end

section
/-! O15: doorbells that write the index held (12_host.md R292, R294). An index is a number modulo 2^32 and a doorbell writes one of 32 bits; the statement also
speaks of states that hold a larger one, which a doorbell brings below 2^32. -/

namespace Sys2Proof.Machine

/-! The rows, each by the chip that it settles. -/

theorem exec_submissionDoorbell (p n v : Nat) (s : State) :
    exec (.submissionDoorbell p n v) s = .next (s.after (submissionBell s.chip (p % 16) (n % 32) (v % 2 ^ 32))) := rfl
theorem exec_consumerDoorbell (p i v : Nat) (s : State) :
    exec (.consumerDoorbell p i v) s = .next (s.after (consumerBell s.chip (p % 16) (consumerNo i) (v % 2 ^ 32))) := rfl

theorem consumerNo_of {i : Nat} (hl : 32 ≤ i) (hu : i < 130) : consumerNo i = i := by unfold consumerNo; omega

/-! A doorbell (R294). -/

section Bell
variable {c : Chip} {p n v : Nat}

theorem submissionBell_held (hv : v = (ring c (ringKey p n)).prod) : submissionBell c p n v = c := if_pos (by simp [hv])

theorem consumerBell_held (hv : v = (ring c (ringKey p n)).cons) : consumerBell c p n v = c := if_pos (by simp [hv])

theorem submissionBell_moves (hs : doorbellsServed c p = true) (he : (ring c (ringKey p n)).enable = true) (hv : v ≠ (ring c (ringKey p n)).prod)
    (hsize : dist32 v (ring c (ringKey p n)).fetch ≤ ringSize (ring c (ringKey p n)))
    (hback : dist32 (ring c (ringKey p n)).prod (ring c (ringKey p n)).fetch ≤ dist32 v (ring c (ringKey p n)).fetch) :
    submissionBell c p n v = onRing c (ringKey p n) (fun r => { r with prod := v }) :=
  (if_neg (by simp [hs, he, hv])).trans (if_pos ⟨hsize, hback⟩)

end Bell

/-- Distances do not tell an index from its value modulo 2^32 (R292). -/
theorem dist32_mod (a b : Nat) : dist32 (a % 2 ^ 32) b = dist32 a b := by unfold dist32; omega

/-! The index held, as a doorbell's value. -/

section Held
variable {s : State} {p : Nat} (hq : s.quiet) (hp : p < 16)
include hq hp

theorem submissionDoorbell_held {n : Nat} (hn : n < 32) (hr : (ring s.chip (ringKey p n)).prod < 2 ^ 32) :
    exec (.submissionDoorbell p n (ring s.chip (ringKey p n)).prod) s = .next s := by
  rw [exec_submissionDoorbell, Nat.mod_eq_of_lt hp, Nat.mod_eq_of_lt hn, Nat.mod_eq_of_lt hr, submissionBell_held rfl, s.after_self hq]

theorem consumerDoorbell_held {i : Nat} (hl : 32 ≤ i) (hu : i < 130) (hr : (ring s.chip (ringKey p i)).cons < 2 ^ 32) :
    exec (.consumerDoorbell p i (ring s.chip (ringKey p i)).cons) s = .next s := by
  rw [exec_consumerDoorbell, Nat.mod_eq_of_lt hp, consumerNo_of hl hu, Nat.mod_eq_of_lt hr, consumerBell_held rfl, s.after_self hq]

/-- A producer index of more than 32 bits does not stay as it is. -/
theorem submissionDoorbell_wide {n : Nat} (hn : n < 32) (hs : doorbellsServed s.chip p = true) (he : (ring s.chip (ringKey p n)).enable = true)
    (hwide : 2 ^ 32 ≤ (ring s.chip (ringKey p n)).prod)
    (hsize : dist32 (ring s.chip (ringKey p n)).prod (ring s.chip (ringKey p n)).fetch ≤ ringSize (ring s.chip (ringKey p n))) :
    exec (.submissionDoorbell p n (ring s.chip (ringKey p n)).prod) s =
      .next (s.put (onRing s.chip (ringKey p n) (fun r => { r with prod := (ring s.chip (ringKey p n)).prod % 2 ^ 32 }))) := by
  have hmoved : (ring s.chip (ringKey p n)).prod % 2 ^ 32 ≠ (ring s.chip (ringKey p n)).prod := by omega
  rw [exec_submissionDoorbell, Nat.mod_eq_of_lt hp, Nat.mod_eq_of_lt hn,
    submissionBell_moves hs he hmoved (by rwa [dist32_mod]) (by rw [dist32_mod]), State.after_sameHand s _ hq (sameHand_onRing _ _ _)]

/-- By the statement, the producer index of a served ring that holds no more than its size has 32 bits. -/
theorem prod_lt_of_doorbellsAndInterrupts (h : Obligations.DoorbellsAndInterrupts) {n : Nat} (hn : n < 32) (hs : doorbellsServed s.chip p = true)
    (he : (ring s.chip (ringKey p n)).enable = true)
    (hsize : dist32 (ring s.chip (ringKey p n)).prod (ring s.chip (ringKey p n)).fetch ≤ ringSize (ring s.chip (ringKey p n))) :
    (ring s.chip (ringKey p n)).prod < 2 ^ 32 := by
  by_contra hwide
  obtain ⟨hbells, -⟩ := h
  obtain ⟨-, -, -, -, -, hheld, -⟩ := hbells p n 32 0 s hq hp hn (by decide) (by decide) (by decide)
  rw [submissionDoorbell_wide hq hp hn hs he (Nat.le_of_not_lt hwide) hsize] at hheld
  have hprod := congrArg (fun t : State => (ring t.chip (ringKey p n)).prod) (Host.Outcome.next.inj hheld)
  simp only [State.put_chip, ring_onRing, if_true] at hprod
  omega

end Held

/-- A served ring whose producer index is 2^32. -/
def wideIndex : State := { State.reset with chip := { Chip.reset with
  boot := { Boot.reset with ready := true }
  parts := [(0, { Part.reset with state := 1 })]
  rings := [(0, { Ring.reset with enable := true, prod := 2 ^ 32 })] } }

/-- Refutes O15: in `wideIndex` a doorbell with the value held, 2^32, writes 0. For an index of 32 bits the value held has no effect, as the statement says
(`submissionDoorbell_held`, `consumerDoorbell_held`). -/
theorem not_doorbellsAndInterrupts : ¬ Obligations.DoorbellsAndInterrupts := by
  intro h
  have hprod : (ring wideIndex.chip (ringKey 0 0)).prod < 2 ^ 32 :=
    prod_lt_of_doorbellsAndInterrupts (by decide) (by decide) h (by decide) (by decide) (by decide) (by decide)
  exact absurd hprod (by decide)

end Sys2Proof.Machine
end

section
/-! SUPPORT. Ports: the entry of a port that this part has, writes of one port, a port that goes down (13_ihlan.md R331, R333, R440; 00_scope.md R2). -/

namespace Sys2Proof.Machine

/-! The entry of a port (R2). -/

/-- This part has port `n`: ports 12 to 15 are absent from an NZU40-C. -/
abbrev hasPort (e : Env) (n : Nat) : Prop := (e.fuses.gradeC && decide (12 ≤ n)) = false

theorem hasPort_of_present {e : Env} {c : Chip} {n : Nat} (h : (port e c n).st ≠ .absent) : hasPort e n := by
  unfold port at h
  by_contra hf
  exact h (by simp only [Bool.not_eq_false] at hf; simp [hf])

theorem port_of_hasPort {e : Env} {n : Nat} (h : hasPort e n) (c : Chip) : port e c n = tget Port.reset c.ports n := by
  unfold port; simp [h]

theorem port_present {e : Env} {c : Chip} {n : Nat} (h : (port e c n).st ≠ .absent) : port e c n = tget Port.reset c.ports n :=
  port_of_hasPort (hasPort_of_present h) c

/-- What the fuses leave out of a port is its enable bit and its state. -/
theorem port_hold (e : Env) (c : Chip) (n : Nat) : (port e c n).hold = (tget Port.reset c.ports n).hold := by
  unfold port; dsimp only; split <;> rfl
theorem port_xfers (e : Env) (c : Chip) (n : Nat) : (port e c n).xfers = (tget Port.reset c.ports n).xfers := by
  unfold port; dsimp only; split <;> rfl

theorem port_up {e : Env} {c : Chip} {n : Nat} (h : (port e c n).st = .up) : port e c n = tget Port.reset c.ports n :=
  port_present (by rw [h]; exact PortSt.noConfusion)

theorem portOpen_present {e : Env} {c : Chip} {n : Nat} (h : portOpen e c n = true) : port e c n = tget Port.reset c.ports n :=
  port_up (eq_of_beq (Bool.and_eq_true_iff.mp h).1)

/-! Writes of one port. -/

theorem tdel_tins {α : Type} (t : Tab α) (k : Nat) (v : α) : tdel (tins t k v) k = tdel t k := by
  induction t with
  | nil => simp [tins, tdel]
  | cons a r ih =>
    unfold tins
    split
    · simp [tdel]
    · unfold tdel at ih ⊢
      rw [List.filter_cons, List.filter_cons, ih]

theorem tdel_tdel {α : Type} (t : Tab α) (k : Nat) : tdel (tdel t k) k = tdel t k := by
  unfold tdel; rw [List.filter_filter]; simp

theorem tset_tset {α : Type} (t : Tab α) (k : Nat) (v w : α) : tset (tset t k v) k w = tset t k w := by
  unfold tset; rw [tdel_tins, tdel_tdel]

/-- Two writes of a port are one. -/
theorem onPort_onPort (c : Chip) (n : Nat) (f g : Port → Port) : onPort (onPort c n f) n g = onPort c n (fun p => g (f p)) := by
  unfold onPort tupd
  simp only [tset_tset, tget_tset, if_pos]

/-- Only what is made of the port that stands there counts. -/
theorem onPort_congr {c : Chip} {n : Nat} {f g : Port → Port} (h : f (tget Port.reset c.ports n) = g (tget Port.reset c.ports n)) :
    onPort c n f = onPort c n g := by
  unfold onPort tupd; rw [h]

theorem tget_onPort_self (c : Chip) (n : Nat) (f : Port → Port) :
    tget Port.reset (onPort c n f).ports n = f (tget Port.reset c.ports n) := by rw [tget_onPort, if_pos rfl]

/-! A port after a command. -/

section After
variable {s : State} {c : Chip} {n : Nat}

theorem port_put (h : hasPort s.env n) (c : Chip) : port (s.put c).env (s.put c).chip n = tget Port.reset c.ports n := port_of_hasPort h c

theorem port_after (h : hasPort s.env n) (hr : c.raised = []) : port (s.after c).env (s.after c).chip n = tget Port.reset c.ports n := by
  rw [State.after_chip_of_unraised s c hr]; exact port_of_hasPort h c

end After

/-! A range pair that ends (R349) reaches neither the ports nor the faults in hand. -/

/-- `d` is `c` but for records, commands and jobs. -/
def Chip.AnswersOnly (c d : Chip) : Prop :=
  d = { c with parts := d.parts, rings := d.rings, safe := d.safe, out := d.out, writes := d.writes, cmds := d.cmds, jobs := d.jobs }

section
variable {c d e : Chip}

theorem Chip.AnswersOnly.refl (c : Chip) : c.AnswersOnly c := rfl

theorem Chip.AnswersOnly.trans (h : c.AnswersOnly d) (k : d.AnswersOnly e) : c.AnswersOnly e := by
  unfold Chip.AnswersOnly at *
  rw [k, h]

theorem Chip.AnswersOnly.on (h : c.AnswersOnly d) {β : Type} (g : Chip → β) : g d = g
    { c with parts := d.parts, rings := d.rings, safe := d.safe, out := d.out, writes := d.writes, cmds := d.cmds, jobs := d.jobs } := congrArg g h

theorem Chip.RecordsOnly.answersOnly (h : c.RecordsOnly d) : c.AnswersOnly d := by
  unfold Chip.RecordsOnly at h; unfold Chip.AnswersOnly
  rw [h]

end

theorem answersOnly_onJob (c : Chip) (t : Nat) (f : Job → Job) : c.AnswersOnly (onJob c t f) := by
  unfold onJob; split <;> rfl

theorem answersOnly_final (c : Chip) (id : CmdId) (st : Status) : c.AnswersOnly (final c id st) := by
  unfold final finalCmd; split
  · exact .refl c
  · exact Chip.AnswersOnly.trans (d := { c with cmds := c.cmds.filter (fun x => x.id != id) }) rfl (recordsOnly_postRecord _ _ _ _).answersOnly

theorem answersOnly_jobEvent (c : Chip) (tag tick ev flags : Nat) (body : List Byte) : c.AnswersOnly (jobEvent c tag tick ev flags body) := by
  unfold jobEvent; split
  · exact .refl c
  · exact (recordsOnly_event _ _ _).answersOnly

theorem answersOnly_pairEnds (c : Chip) (tag : Nat) (p : Pair) : c.AnswersOnly (pairEnds c tag p) := by
  have hstart : c.AnswersOnly (if p.answered = true then c else final c p.cmd .notReady) := by
    split
    · exact .refl c
    · exact answersOnly_final _ _ _
  unfold pairEnds
  cases p.drill with
  | none => exact hstart.trans (answersOnly_onJob _ _ _)
  | some d => exact (hstart.trans (answersOnly_final _ _ _)).trans (answersOnly_onJob _ _ _)

theorem answersOnly_rangeLost (c : Chip) (tag cause : Nat) : c.AnswersOnly (rangeLost c tag cause) := by
  unfold rangeLost
  cases tfind c.jobs tag with
  | none => exact .refl c
  | some j =>
    dsimp only
    cases j.pair with
    | none => exact .refl c
    | some p =>
      dsimp only
      split
      · exact (answersOnly_pairEnds _ _ _).trans (answersOnly_jobEvent _ _ _ _ _ _)
      · exact answersOnly_pairEnds _ _ _

/-! A port that goes down, and one that begins training (R331, R333, R440). -/

/-- A port that has gone down: not joined, with nothing held, kept to send again, relayed or exchanged. -/
def Port.fallen (p : Port) : Port :=
  { p with st := .down, cause := 0, joined := false, hold := [], again := [], relay := [], relayAgain := [], swapTx := none, swapRx := none, waiting := [], shift := 0 }

/-- A port in training since cycle `t`, at the width that was asked for. -/
def Port.training (p : Port) (t : Nat) : Port := { p with st := .training, cause := 0, trainAt := t, width := p.cfgWidth }

theorem portDown_answers (c : Chip) (n : Nat) : (onPort c n Port.fallen).AnswersOnly (portDown c n) := by
  refine each_keeps (P := (onPort c n Port.fallen).AnswersOnly) (fun d t hd => ?_) _ (Chip.AnswersOnly.refl _)
  split
  · split
    · exact hd.trans (answersOnly_rangeLost _ _ _)
    · exact hd
  · exact hd

theorem portDown_ports (c : Chip) (n : Nat) : (portDown c n).ports = (onPort c n Port.fallen).ports := (portDown_answers c n).on Chip.ports
theorem portDown_now (c : Chip) (n : Nat) : (portDown c n).now = c.now := (portDown_answers c n).on Chip.now
theorem portDown_raised (c : Chip) (n : Nat) : (portDown c n).raised = c.raised := (portDown_answers c n).on Chip.raised

theorem tget_portDown (c : Chip) (n : Nat) : tget Port.reset (portDown c n).ports n = (tget Port.reset c.ports n).fallen := by
  rw [portDown_ports, tget_onPort_self]

/-- An enabled port with media it trains on begins training. -/
theorem startTraining_of {e : Env} {c : Chip} {n : Nat} (hp : hasPort e n) {p : Port} (h : tget Port.reset c.ports n = p)
    (he : p.enable = true) (hs : p.st ≠ .absent) (hm : p.media < 2) : startTraining e c n = onPort c n (fun p => p.training c.now) := by
  unfold startTraining
  rw [port_of_hasPort hp, h]
  simp [he, hs, hm, Port.training]

end Sys2Proof.Machine
end

section
/-! O12: LINK_CFG_n (13_ihlan.md R333, R440; 18_registers.md R423). -/

namespace Sys2Proof.Machine

/-! The rows, each by the chip that it settles. -/

theorem exec_linkEnable (x : Src) (n : Nat) (v : Word) (s : State) :
    exec (.linkEnable x n v) s = .next (s.after (putReg x (linkCfgOff n) 4 (v ||| 0x80000000#32).toNat s.env s.chip)) := rfl
theorem exec_linkDisable (x : Src) (n : Nat) (v : Word) (s : State) :
    exec (.linkDisable x n v) s = .next (s.after (putReg x (linkCfgOff n) 4 (v &&& 0x7FFFFFFF#32).toNat s.env s.chip)) := rfl
theorem exec_retrain (x : Src) (n : Nat) (s : State) : exec (.retrain x n) s =
    .next (s.after (putReg x (linkCfgOff n) 4 (regValue s.env s.chip (.linkCfg (n % 16)) ||| 1) s.env s.chip)) := rfl
theorem exec_cntClear (x : Src) (n : Nat) (s : State) : exec (.cntClear x n) s =
    .next (s.after (putReg x (linkCfgOff n) 4 (regValue s.env s.chip (.linkCfg (n % 16)) ||| 2) s.env s.chip)) := rfl

/-- LINK_CFG_n stands at its offset in the map (R412). -/
theorem regAt_linkCfg : ∀ n < 16, regAt (linkCfgOff n) = some (.linkCfg n, linkCfgOff n, 4) := by decide

theorem putReg_linkCfg {x : Src} {s : State} {n : Nat} (hr : s.chip.boot.ready = true) (hx : MachineSrc x) (hi : I3cUp s x) (hn : n < 16) {v : Nat}
    (hv : v < 2 ^ 32) : putReg x (linkCfgOff n) 4 v s.env s.chip = writeLink s.env s.chip n v := by
  have hoff : linkCfgOff n ≠ 0x31000 := by unfold linkCfgOff; omega
  rw [putReg_machine hr hx hi (regAt_linkCfg n hn) rfl hoff, Nat.mod_eq_of_lt hv]
  rfl

/-! What a value makes of its port (R423). -/

/-- A port with the settings of a value. -/
def Port.configured (p : Port) (v : Nat) : Port :=
  { p with enable := bitOf v 31, cfgWidth := bitOf v 30, media := bitsOf v 29 28, part := bitsOf v 27 24, partEn := bitOf v 23 }

/-- A port whose four counters are zero. -/
def Port.zeroed (p : Port) : Port := { p with unc := 0, crc := 0, resent := 0, droppedF := 0 }

/-- A port with the settings of a value, and CNT_CLEAR done where the value asks for it. -/
def Port.written (p : Port) (v : Nat) : Port := if bitOf v 1 then (p.configured v).zeroed else p.configured v

theorem Port.written_kept {β : Type} (p : Port) (g : Port → β) (hz : ∀ p, g (Port.zeroed p) = g p) (v : Nat) :
    g (p.written v) = g (p.configured v) := by
  unfold Port.written; split
  · exact hz _
  · rfl

section
variable (p : Port) (v : Nat)
@[simp] theorem Port.written_enable : (p.written v).enable = bitOf v 31 := p.written_kept Port.enable (fun _ => rfl) v
@[simp] theorem Port.written_st : (p.written v).st = p.st := p.written_kept Port.st (fun _ => rfl) v
@[simp] theorem Port.written_width : (p.written v).width = p.width := p.written_kept Port.width (fun _ => rfl) v
@[simp] theorem Port.written_cfgWidth : (p.written v).cfgWidth = bitOf v 30 := p.written_kept Port.cfgWidth (fun _ => rfl) v
@[simp] theorem Port.written_media : (p.written v).media = bitsOf v 29 28 := p.written_kept Port.media (fun _ => rfl) v
end

section Write
variable {e : Env} {c : Chip} {n v : Nat} (hp : (port e c n).st ≠ .absent)
include hp

/-- A write of LINK_CFG_n: the settings and the counters first, then what ENABLE and RETRAIN ask for. -/
theorem writeLink_eq : writeLink e c n v =
    if bitOf v 31 = false then (if (port e c n).enable = true then portDown (onPort c n (fun p => p.written v)) n else onPort c n (fun p => p.written v))
    else if bitOf v 0 = true then startTraining e (portDown (onPort c n (fun p => p.written v)) n) n
    else if (port e c n).enable = false then startTraining e (onPort c n (fun p => p.written v)) n
    else onPort c n (fun p => p.written v) := by
  have hset : (if bitOf v 1 = true then onPort (onPort c n (fun p => p.configured v)) n Port.zeroed else onPort c n (fun p => p.configured v)) =
      onPort c n (fun p => p.written v) := by
    unfold Port.written
    split
    · rw [onPort_onPort]
    · rfl
  rw [← hset]
  unfold writeLink
  rw [if_neg hp]
  simp only [Bool.not_eq_true']
  rfl

/-- RETRAIN of a port that is enabled by the write: it goes down, and trains. -/
theorem writeLink_retrains (h31 : bitOf v 31 = true) (h0 : bitOf v 0 = true) (hm : bitsOf v 29 28 < 2) :
    tget Port.reset (writeLink e c n v).ports n = ((tget Port.reset c.ports n).written v).fallen.training c.now ∧ (writeLink e c n v).raised = c.raised := by
  have hq : tget Port.reset (portDown (onPort c n (fun p => p.written v)) n).ports n = ((tget Port.reset c.ports n).written v).fallen := by
    rw [tget_portDown, tget_onPort_self]
  have htrain := startTraining_of (hasPort_of_present hp) hq ((Port.written_enable _ v).trans h31) PortSt.noConfusion (by rwa [Port.fallen, Port.written_media])
  rw [writeLink_eq hp, if_neg (by simp [h31]), if_pos h0, htrain, tget_onPort_self, hq, portDown_now, onPort_raised, portDown_raised]
  exact ⟨rfl, rfl⟩

/-- ENABLE of a port that was disabled: it trains from the state it was in. -/
theorem writeLink_trains (h31 : bitOf v 31 = true) (h0 : bitOf v 0 = false) (he : (port e c n).enable = false) (hm : bitsOf v 29 28 < 2) :
    writeLink e c n v = onPort c n (fun p => (p.written v).training c.now) := by
  have hst : ((tget Port.reset c.ports n).written v).st ≠ .absent := by rw [Port.written_st, ← port_present hp]; exact hp
  have htrain := startTraining_of (hasPort_of_present hp) (tget_onPort_self c n (fun p => p.written v)) ((Port.written_enable _ v).trans h31) hst
    (by rwa [Port.written_media])
  rw [writeLink_eq hp, if_neg (by simp [h31]), if_neg (by simp [h0]), if_pos he, htrain, onPort_onPort]
  rfl

theorem writeLink_falls (h31 : bitOf v 31 = false) (he : (port e c n).enable = true) :
    writeLink e c n v = portDown (onPort c n (fun p => p.written v)) n := by
  rw [writeLink_eq hp, if_pos h31, if_pos he]

/-- A write that neither enables, disables nor retrains its port. -/
theorem writeLink_keeps (h31 : bitOf v 31 = (port e c n).enable) (h0 : bitOf v 0 = false ∨ (port e c n).enable = false) :
    writeLink e c n v = onPort c n (fun p => p.written v) := by
  rw [writeLink_eq hp, h31]
  cases he : (port e c n).enable
  · rfl
  · have h0 : bitOf v 0 = false := h0.resolve_right (by simp [he])
    simp [h0]

end Write

/-! The value that a port's register reads as, with a low bit set (R423). -/

/-- The settings of a port as LINK_CFG_n reads them. -/
def Port.settings (p : Port) : Nat := b2n p.enable * 2 ^ 31 + b2n p.cfgWidth * 2 ^ 30 + p.media * 2 ^ 28 + p.part * 2 ^ 24 + b2n p.partEn * 2 ^ 23

theorem regValue_linkCfg {e : Env} {c : Chip} {n : Nat} (hp : (port e c n).st ≠ .absent) : regValue e c (.linkCfg n) = (port e c n).settings := if_neg hp

/-- Bits below 23 read 0, so that a command bit is added. -/
theorem Port.settings_or (p : Port) {k : Nat} (hk : k < 2 ^ 23) : p.settings ||| k = p.settings + k := by
  have hsplit : p.settings = 2 ^ 23 * (b2n p.enable * 2 ^ 8 + b2n p.cfgWidth * 2 ^ 7 + p.media * 2 ^ 5 + p.part * 2 + b2n p.partEn) := by
    unfold Port.settings; omega
  rw [hsplit, ← Nat.two_pow_add_eq_or_of_lt hk]

theorem b2n_le (b : Bool) : b2n b ≤ 1 := by cases b <;> decide

theorem bitOf_of_b2n {n i : Nat} {b : Bool} (h : n / 2 ^ i % 2 = b2n b) : bitOf n i = b := by
  unfold bitOf; rw [h]; cases b <;> rfl

/-- A port is written back as it stood, whatever low bits are set. -/
theorem Port.configured_settings {p : Port} (hm : p.media < 4) (ha : p.part < 16) {k : Nat} (hk : k < 2 ^ 23) :
    p.settings + k < 2 ^ 32 ∧ p.configured (p.settings + k) = p := by
  have he := b2n_le p.enable
  have hw := b2n_le p.cfgWidth
  have hb := b2n_le p.partEn
  have h31 : bitOf (p.settings + k) 31 = p.enable := bitOf_of_b2n (by unfold Port.settings; omega)
  have h30 : bitOf (p.settings + k) 30 = p.cfgWidth := bitOf_of_b2n (by unfold Port.settings; omega)
  have h23 : bitOf (p.settings + k) 23 = p.partEn := bitOf_of_b2n (by unfold Port.settings; omega)
  have hmedia : bitsOf (p.settings + k) 29 28 = p.media := by unfold bitsOf Port.settings; omega
  have hpart : bitsOf (p.settings + k) 27 24 = p.part := by unfold bitsOf Port.settings; omega
  refine ⟨by unfold Port.settings; omega, ?_⟩
  unfold Port.configured
  rw [h31, h30, h23, hmedia, hpart]

/-- A command bit of a port's register, and no other, is set. -/
theorem bitOf_settings_low (p : Port) (k : Nat) {i : Nat} (hi : i < 2) : bitOf (p.settings + k) i = bitOf k i := by
  unfold bitOf Port.settings
  have : i = 0 ∨ i = 1 := by omega
  rcases this with rfl | rfl
  · congr 1; omega
  · congr 1; omega

theorem Port.written_settings {p : Port} (hm : p.media < 4) (ha : p.part < 16) :
    p.written (p.settings + 1) = p ∧ p.written (p.settings + 2) = p.zeroed := by
  obtain ⟨-, h1⟩ := p.configured_settings hm ha (k := 1) (by decide)
  obtain ⟨-, h2⟩ := p.configured_settings hm ha (k := 2) (by decide)
  constructor
  · rw [Port.written, bitOf_settings_low p _ (by decide), h1]; rfl
  · rw [Port.written, bitOf_settings_low p _ (by decide), h2]; rfl

/-- Bit 31 set or cleared leaves WIDTH as it stands in the value. -/
theorem bitOf_width (v : Word) : bitOf (v ||| 0x80000000#32).toNat 30 = bitOf v.toNat 30 ∧ bitOf (v &&& 0x7FFFFFFF#32).toNat 30 = bitOf v.toNat 30 := by
  simp only [bitOf_eq_testBit, BitVec.toNat_or, BitVec.toNat_and, Nat.testBit_or, Nat.testBit_and]
  exact ⟨Bool.or_false _, Bool.and_true _⟩

/-- Settles O12: a write is that of its port's settings, and of what ENABLE and RETRAIN ask for. -/
theorem linkRegisterWrites : Obligations.LinkRegisterWrites := by
  intro x n v s hq hr hx hi hn hp
  have hhas := hasPort_of_present hp
  have hport := port_present hp
  refine ⟨fun he hm => ?enable, fun he => ?disable, fun he => ?disabled, fun he hm ha => ?retrain, fun hm ha => ?clear⟩
  case enable =>
    rw [exec_linkEnable, putReg_linkCfg hr hx hi hn (BitVec.isLt _)]
    refine ⟨_, rfl, ?_⟩
    generalize hw : (v ||| 0x80000000#32).toNat = w at hm ⊢
    have h31 : bitOf w 31 = true := hw ▸ bitOf_enable v
    have h30 : bitOf w 30 = bitOf v.toNat 30 := hw ▸ (bitOf_width v).1
    cases h0 : bitOf w 0
    · have hwrite := writeLink_trains hp h31 h0 he hm
      rw [port_after hhas (by rw [hwrite]; exact hq.2.2), hwrite, tget_onPort_self]
      simp [Port.training, h31, h30]
    · obtain ⟨hwrite, hraised⟩ := writeLink_retrains hp h31 h0 hm
      rw [port_after hhas (hraised.trans hq.2.2), hwrite]
      simp [Port.training, Port.fallen, h31, h30]
  case disable =>
    rw [exec_linkDisable, putReg_linkCfg hr hx hi hn (BitVec.isLt _), writeLink_falls hp (bitOf_disable v) he]
    refine ⟨_, rfl, ?_⟩
    rw [port_after hhas (by rw [portDown_raised]; exact hq.2.2), tget_portDown, tget_onPort_self, hport]
    exact ⟨(Port.written_enable _ _).trans (bitOf_disable v), rfl, rfl, rfl, Port.written_width _ _, (Port.written_cfgWidth _ _).trans (bitOf_width v).2⟩
  case disabled =>
    rw [exec_linkDisable, putReg_linkCfg hr hx hi hn (BitVec.isLt _), writeLink_keeps hp ((bitOf_disable v).trans he.symm) (.inr he),
      State.after_sameHand s _ hq (sameHand_onPort _ _ _)]
    refine ⟨_, rfl, ?_⟩
    rw [port_put hhas, tget_onPort_self, hport]
    exact ⟨(Port.written_enable _ _).trans (bitOf_disable v), Port.written_st _ _, rfl⟩
  case retrain =>
    obtain ⟨hlt, hsame⟩ := (port s.env s.chip n).configured_settings (by omega) ha (k := 1) (by decide)
    have h31 : bitOf ((port s.env s.chip n).settings + 1) 31 = true := (congrArg Port.enable hsame).trans he
    have hmedia : bitsOf ((port s.env s.chip n).settings + 1) 29 28 < 2 := (congrArg Port.media hsame).trans_lt hm
    obtain ⟨hwrite, hraised⟩ := writeLink_retrains hp h31 (bitOf_settings_low _ _ (by decide)) hmedia
    rw [exec_retrain, Nat.mod_eq_of_lt hn, regValue_linkCfg hp, Port.settings_or _ (by decide), putReg_linkCfg hr hx hi hn hlt]
    refine ⟨_, rfl, ?_⟩
    rw [port_after hhas (hraised.trans hq.2.2), hwrite, ← hport, (Port.written_settings (by omega) ha).1]
    exact ⟨rfl, he, rfl, rfl, rfl⟩
  case clear =>
    obtain ⟨hlt, hsame⟩ := (port s.env s.chip n).configured_settings hm ha (k := 2) (by decide)
    have h31 : bitOf ((port s.env s.chip n).settings + 2) 31 = (port s.env s.chip n).enable := congrArg Port.enable hsame
    rw [exec_cntClear, Nat.mod_eq_of_lt hn, regValue_linkCfg hp, Port.settings_or _ (by decide), putReg_linkCfg hr hx hi hn hlt,
      writeLink_keeps hp h31 (.inl (bitOf_settings_low _ _ (by decide))), State.after_sameHand s _ hq (sameHand_onPort _ _ _)]
    refine congrArg (fun c => Host.Outcome.next (s.put c)) (onPort_congr ?_)
    rw [← hport, (Port.written_settings hm ha).2]
    rfl

end Sys2Proof.Machine
end

section
/-! O34: training, joining and loss of a port (13_ihlan.md R314, R315, R331, R333, R440; a partner with this package's own ID: 18_registers.md R418; the
destination of a join: log entry 44). -/

namespace Sys2Proof.Machine

/-! The rows, each by the chip that it settles. -/

theorem exec_trainingDone (n : Nat) (tr : Training) (s : State) :
    exec (.trainingDone n tr) s = .next (s.after (trained s.env s.chip (n % 16) tr)) := rfl
theorem exec_trainingTimeout (n : Nat) (tr : Training) (s : State) :
    exec (.trainingTimeout n tr) s = .next (s.after (trainTimeout s.env s.chip (n % 16) tr)) := rfl
theorem exec_join (n : Nat) (m : JoinMsg) (s : State) : exec (.join n m) s = .next (s.after (joinArrive s.env s.chip (n % 16) m)) := rfl
theorem exec_signalLoss (n : Nat) (s : State) : exec (.signalLoss n) s = .next (s.after (signalLost s.env s.chip (n % 16))) := rfl
theorem exec_signalAppears (n : Nat) (s : State) : exec (.signalAppears n) s = .next (s.after (signalBack s.env s.chip (n % 16))) := rfl

/-! A message that leaves a port without transmit fog (R321, R323, R336). -/

/-- A fog that is off touches no frame of any class. -/
theorem fogPick_off {f : Fog} (h : f.action = 0) (cls : Nat) : fogPick f cls = (false, 0, f) := if_pos (.inl h)

/-- Without fog both copies leave intact, and the message waits at its port for the next slot boundary. -/
theorem portBeacon_clear {c : Chip} {n : Nat} (h : (tget Port.reset c.ports n).fogTx.action = 0) (dest src at_ : Nat) (m : BeaconMsg) :
    portBeacon c n dest src at_ m =
      emit (onPort c n (fun p => { p with waiting := sortBy id (p.waiting ++ [at_]) })) (.beacon (some n) dest m (cleanCopies dest src m)) := by
  have hport : onPort c n (fun p => { p with fogTx := (tget Port.reset c.ports n).fogTx, waiting := sortBy id (p.waiting ++ [at_]) }) =
      onPort c n (fun p => { p with waiting := sortBy id (p.waiting ++ [at_]) }) := onPort_congr rfl
  unfold portBeacon
  simp only [fogPick_off h, fogCopy]
  rw [← hport]
  rfl

/-! The end of a training (R314, R331, R440). -/

/-- A port that is UP and has not joined, with what its training found. -/
def Port.up (p : Port) (tr : Training) : Port :=
  { p with st := .up, cause := 0, laneRev := tr.laneRev, polarity := tr.polarity % 16, joined := false, rxAny := false, txSeq := 0 }

/-- A port that is FAILED, with its cause. -/
def Port.failed (p : Port) (cause : Nat) : Port := { p with st := .failed, cause := cause }

section Trained
variable {e : Env} {c : Chip} {n : Nat} {tr : Training} (hs : (port e c n).st = .training)
include hs

theorem trained_up (hc : trainCause (port e c n) tr = 0) : trained e c n tr = sendJoin (onPort c n (fun p => p.up tr)) n := by
  unfold trained; rw [if_neg (not_not_intro hs), hc]; rfl

theorem trained_failed (hc : trainCause (port e c n) tr ≠ 0) : trained e c n tr = onPort c n (fun p => p.failed (trainCause (port e c n) tr)) := by
  unfold trained; rw [if_neg (not_not_intro hs)]; exact if_neg hc

theorem trainTimeout_due (ht : (port e c n).trainAt + 200 * Config.ms ≤ c.now) :
    trainTimeout e c n tr = onPort c n (fun p => p.failed (max 1 (trainCause (port e c n) tr))) := if_pos ⟨hs, ht⟩

end Trained

theorem trained_idle {e : Env} {c : Chip} {n : Nat} (hs : (port e c n).st ≠ .training) (tr : Training) : trained e c n tr = c := if_pos hs
theorem trainTimeout_idle {e : Env} {c : Chip} {n : Nat} (hs : (port e c n).st ≠ .training) (tr : Training) : trainTimeout e c n tr = c :=
  if_neg fun h => hs h.1

/-! Joining (R314, R331, R418). -/

section Join
variable {e : Env} {c : Chip} {n : Nat} {m : JoinMsg} (hs : (port e c n).st = .up)
include hs

theorem joinArrive_domain (h : m.domain ≠ c.beacon.domain.toNat ∨ m.pkg = c.beacon.pkg) :
    joinArrive e c n m = onPort (portDown c n) n (fun p => p.failed 4) := by
  unfold joinArrive; rw [if_neg (not_not_intro hs), if_pos h]; rfl

variable (hd : m.domain = c.beacon.domain.toNat) (hp : m.pkg ≠ c.beacon.pkg)
include hd hp

theorem joinArrive_width (hw : m.width ≠ (port e c n).width) : joinArrive e c n m = onPort (portDown c n) n (fun p => p.failed 5) := by
  unfold joinArrive; rw [if_neg (not_not_intro hs), if_neg (by simp [hd, hp]), if_pos hw]; rfl

theorem joinArrive_joins (hw : m.width = (port e c n).width) :
    joinArrive e c n m = onPort c n (fun p => { p with joined := true, nbrPkg := m.pkg, nbrPort := m.port }) := by
  unfold joinArrive; rw [if_neg (not_not_intro hs), if_neg (by simp [hd, hp]), if_neg (not_not_intro hw)]

end Join

/-- A port that goes down and is FAILED. -/
theorem port_after_failed {s : State} (hq : s.quiet) {n : Nat} (hp : hasPort s.env n) (cause : Nat) :
    let t := s.after (onPort (portDown s.chip n) n (fun p => p.failed cause))
    port t.env t.chip n = (tget Port.reset s.chip.ports n).fallen.failed cause := by
  intro t
  rw [port_after hp (by rw [onPort_raised, portDown_raised]; exact hq.2.2), tget_onPort_self, tget_portDown]

/-- Settles O34: each row by the state of its port and what it brings. -/
theorem portsTrainAndJoin : Obligations.PortsTrainAndJoin := by
  intro n tr m s hq hn hp p
  have hhas := hasPort_of_present hp
  have hport : p = tget Port.reset s.chip.ports n := port_present hp
  rw [exec_trainingDone, exec_trainingTimeout, exec_join, exec_signalLoss, exec_signalAppears, Nat.mod_eq_of_lt hn]
  refine ⟨fun hs hc hf => ?up, fun hs hc => ?failed, fun hs ht => ?timeout, fun hs => ?idle, fun hs hd hk hw => ?joins, fun hs hd => ?domain,
    fun hs hd hk hw => ?width, fun hs => ?loss, fun hs => ?unlost, fun hs hw he hm => ?signal⟩
  case up =>
    have hclear : (tget Port.reset (onPort s.chip n (fun p => p.up tr)).ports n).fogTx.action = 0 := by rw [tget_onPort_self, ← hport]; exact hf
    rw [trained_up hs hc, sendJoin, portBeacon_clear hclear, onPort_onPort, tget_onPort_self, ← hport]
    refine ⟨_, rfl, ?_⟩
    rw [State.after_sameHand s _ hq ((sameHand_onPort _ _ _).trans (sameHand_emit _ _)), port_put hhas, emit_ports, tget_onPort_self]
    exact ⟨rfl, rfl, rfl, rfl, rfl⟩
  case failed =>
    rw [trained_failed hs hc, State.after_sameHand s _ hq (sameHand_onPort _ _ _)]
    refine ⟨_, rfl, ?_⟩
    rw [port_put hhas, tget_onPort_self]
    exact ⟨rfl, rfl, rfl⟩
  case timeout =>
    rw [trainTimeout_due hs ht, State.after_sameHand s _ hq (sameHand_onPort _ _ _)]
    refine ⟨_, rfl, ?_⟩
    rw [port_put hhas, tget_onPort_self]
    exact ⟨rfl, Nat.le_max_left _ _⟩
  case idle => rw [trained_idle hs, trainTimeout_idle hs, s.after_self hq]; exact ⟨rfl, rfl⟩
  case joins => rw [joinArrive_joins hs hd hk hw, State.after_sameHand s _ hq (sameHand_onPort _ _ _)]
  case domain =>
    rw [joinArrive_domain hs hd]
    refine ⟨_, rfl, ?_⟩
    rw [port_after_failed hq hhas]
    exact ⟨rfl, rfl, rfl⟩
  case width =>
    rw [joinArrive_width hs hd hk hw]
    refine ⟨_, rfl, ?_⟩
    rw [port_after_failed hq hhas]
    exact ⟨rfl, rfl⟩
  case loss =>
    rw [signalLost, if_pos hs]
    refine ⟨_, rfl, ?_⟩
    rw [port_after hhas (by rw [portDown_raised]; exact hq.2.2), tget_portDown]
    exact ⟨rfl, rfl, rfl⟩
  case unlost => rw [signalLost, if_neg hs, s.after_self hq]
  case signal =>
    have hback : signalBack s.env s.chip n = startTraining s.env s.chip n := if_pos (by rw [hw]; simp [show (port s.env s.chip n).st = .down from hs])
    rw [hback, startTraining_of hhas hport.symm he hp hm, State.after_sameHand s _ hq (sameHand_onPort _ _ _)]
    refine ⟨_, rfl, ?_⟩
    rw [port_put hhas, tget_onPort_self]
    exact ⟨rfl, rfl, rfl⟩

end Sys2Proof.Machine
end

section
/-! SUPPORT. Frames at a port: what leaves where no fog touches it, the sequences that a port misses, faults of a link (13_ihlan.md R317-R320, R329, R330, R336). -/

namespace Sys2Proof.Machine

/-! What leaves (R320, R336). -/

/-- With no transmit fog and no frame to exchange, a frame leaves intact with its CRC-32, and a control word of its kind behind it. -/
theorem putFrame_clear {c : Chip} {n : Nat} {g : Port → Port} (hf : (g (tget Port.reset c.ports n)).fogTx.action = 0)
    (hw : (g (tget Port.reset c.ports n)).swapTx = none) (slot kind : Nat) (f : Frame) : ∃ ctl : ControlWord, ctl.kind = kind ∧
    putFrame (onPort c n g) n slot kind f = emit (emit (onPort c n g) (.frame n slot f (frameCrc f) true 0)) (.control n ctl (controlCrc ctl)) := by
  have hport : onPort (onPort c n g) n (fun p => { p with fogTx := (g (tget Port.reset c.ports n)).fogTx }) = onPort c n g := by
    rw [onPort_onPort]; exact onPort_congr rfl
  unfold putFrame
  simp only [tget_onPort_self, fogPick_off hf, hport, hw]
  exact ⟨_, rfl, rfl⟩

/-! Sequences that a port misses (R329). -/

/-- `q` is `p` but for the frames it misses. -/
def Port.NacksOnly (p q : Port) : Prop := q = { p with nacks := q.nacks }

theorem Port.NacksOnly.trans {p q r : Port} (h : p.NacksOnly q) (k : q.NacksOnly r) : p.NacksOnly r := by
  unfold Port.NacksOnly at *
  rw [k, h]

theorem Port.NacksOnly.on {p q : Port} (h : p.NacksOnly q) {β : Type} (g : Port → β) : g q = g { p with nacks := q.nacks } := congrArg g h

theorem nacksOnly_missing (again origin : Nat) (p : Port) (seq slot : Nat) : p.NacksOnly (missing again origin p seq slot) := by
  unfold missing; split <;> rfl

theorem nacksOnly_gapTo (again origin : Nat) (p : Port) (seq slot : Nat) : p.NacksOnly (gapTo again origin p seq slot) := by
  unfold gapTo; dsimp only
  split
  · rfl
  · have hfold (l : List Nat) (q : Port) : q.NacksOnly (l.foldl (fun q k => missing again origin q (nextRx p + k) slot) q) := by
      induction l generalizing q with
      | nil => rfl
      | cons k l ih => exact (nacksOnly_missing _ _ q _ _).trans (ih _)
    exact hfold _ p

/-- What is missing is asked for. -/
theorem missing_asks (again origin : Nat) (p : Port) (seq slot : Nat) :
    (missing again origin p seq slot).nacks.any (fun x => x.seq == seq % 1024) = true := by
  unfold missing; split
  · assumption
  · simp

/-! Faults of a link (R363). -/

/-- A fault of a link is one fault in hand, of its code and its job. -/
theorem linkFault_spec {c : Chip} (h : c.raised = []) (f : FaultCode) (n seq slot tag : Nat) (att : Option (Nat × Nat)) :
    ∃ r, linkFault c f n seq slot tag att = { c with raised := [r] } ∧ r.code = faultNo f ∧ r.job = tag := by
  unfold linkFault raise; rw [h]; exact ⟨_, rfl, rfl, rfl⟩

end Sys2Proof.Machine
end

section
/-! O35: frames that leave, are kept, and leave again (13_ihlan.md R316-R320, R323, R324, R326, R329, R330, R333; the booking of a frame comes with its
departure: log entry 91; resends of frames: log entry 73). -/

namespace Sys2Proof.Machine

/-! The rows, each by the chip that it settles. -/

theorem exec_frameDeparture (n slot pick : Nat) (s : State) :
    exec (.frameDeparture n slot pick) s = .next (s.after (depart s.env s.chip (n % 16) slot pick)) := rfl
theorem exec_controlWord (n : Nat) (x : ControlIn) (s : State) : exec (.controlWord n x) s = .next (s.after (control s.env s.chip (n % 16) x)) := rfl
theorem exec_resend (n slot : Nat) (s : State) : exec (.resend n slot) s = .next (s.after (resend s.env s.chip (n % 16) slot)) := rfl
theorem exec_linkRetry (n seq : Nat) (s : State) : exec (.linkRetry n seq) s = .next (s.after (retryWatch s.chip (n % 16) seq)) := rfl

/-! Departure (R318, R323, R326). -/

/-- A port that has sent frame `f` in a slot: the next sequence, the frame kept, the delay `d` of the insertions counted up to the slot after. -/
def Port.sent (p : Port) (slot origin : Nat) (d : Nat × Bool × List Nat) (f : Frame) : Port :=
  { p with txSeq := (p.txSeq + 1) % 1024, kept := p.kept ++ [⟨p.txSeq % 1024, slot, { f with seq := p.txSeq % 1024 }, 0⟩],
           waiting := d.2.2, shift := d.1, grid := (origin, slot + 1) }

section Depart
variable {e : Env} {c : Chip} {n slot pick : Nat} {f : Frame} (ho : portOpen e c n = true) (hr : (port e c n).relay = []) (hf : c.egress[pick]? = some f)
include ho hr hf

theorem depart_waits (h : c.now < frameTime c n (slot + (displaced c n slot).1) f ∨ (f.cls ≤ 3 ∧ portHolder c n ≠ some f.tag)) :
    depart e c n slot pick = c := by
  unfold depart
  simp only [ho, hr, hf, List.find?_nil]
  refine (if_neg (by simp)).trans (if_pos ?_)
  rw [decide_eq_true_eq]
  exact h.imp_right .inl

theorem depart_leaves (ht : frameTime c n (slot + (displaced c n slot).1) f ≤ c.now) (h5 : f.cls ≠ 5) (hh : f.cls ≤ 3 → portHolder c n = some f.tag) :
    depart e c n slot pick = putFrame (onPort { c with egress := c.egress.eraseIdx pick } n (fun p => p.sent slot (slotOrigin c n) (displaced c n slot) f))
      n slot (if (displaced c n slot).2.1 = true then 2 else 1) { f with seq := (tget Port.reset c.ports n).txSeq % 1024 } := by
  have hport : port e c n = tget Port.reset c.ports n := portOpen_present ho
  have hgo : ¬(decide (c.now < frameTime c n (slot + (displaced c n slot).1) f) = true ∨ (f.cls ≤ 3 ∧ portHolder c n ≠ some f.tag) ∨
      (f.cls = 5 ∧ (portHolder c n).isSome = true ∧ ((displaced c n slot).1 ≠ 0 ∨ (port e c n).reserve = slot + 1))) := by
    rintro (h | ⟨h3, h⟩ | ⟨h, -⟩)
    · exact absurd (of_decide_eq_true h) (Nat.not_lt.mpr ht)
    · exact h (hh h3)
    · exact h5 h
  unfold depart
  simp only [ho, hr, hf, List.find?_nil]
  refine (if_neg (by simp)).trans ((if_neg hgo).trans ?_)
  rw [hport]
  refine congrArg (fun d => putFrame d n slot _ _) (onPort_congr ?_)
  rfl

end Depart

/-! Control words (R320, R329). -/

theorem control_ignored (e : Env) {c : Chip} {n : Nat} {x : ControlIn} (h : x.crc ≠ controlCrc x.word) : control e c n x = c := if_pos (.inl h)

/-- A port whose frames up to a sequence are acknowledged, in cycle `now`. -/
def Port.acked (p : Port) (ack now : Nat) : Port :=
  { p with kept := p.kept.filter (fun k => 512 ≤ seqDist ack k.seq), again := p.again.filter (fun k => 512 ≤ seqDist ack k.seq),
           ackAt := if p.kept.filter (fun k => decide (seqDist ack k.seq < 512)) = [] then p.ackAt else now }

/-- A port that hears how far its neighbour has sent: what lies between is missing. -/
def Port.heard (p : Port) (again origin upTo slot : Nat) : Port :=
  if seqDist upTo (nextRx p) = 0 ∨ 512 ≤ seqDist upTo (nextRx p) then p
  else { gapTo again origin p upTo slot with rxSeq := (upTo + 1023) % 1024, rxAny := true }

theorem Port.heard_kept (p : Port) (again origin upTo slot : Nat) : (p.heard again origin upTo slot).kept = p.kept := by
  unfold Port.heard; split
  · rfl
  · exact (nacksOnly_gapTo again origin p upTo slot).on Port.kept

/-- A word that asks for nothing writes its port alone. -/
theorem control_acks {e : Env} {c : Chip} {n : Nat} {x : ControlIn} (ho : portOpen e c n = true) (hc : x.crc = controlCrc x.word) (hk : x.word.nackV = false) :
    control e c n x = onPort c n (fun p => (p.acked x.word.ackSeq c.now).heard (resendFrom c n x.word.slot) (slotOrigin c n)
      (if x.word.kind ≠ 0 then x.word.txSeq % 1024 else (x.word.txSeq + 1) % 1024) x.word.slot) := by
  have hport : port e c n = tget Port.reset c.ports n := portOpen_present ho
  unfold control
  dsimp only
  rw [if_neg (by simp [hc, ho]), hk, if_neg Bool.false_ne_true, onPort_onPort, hport]
  refine onPort_congr ?_
  unfold Port.heard Port.acked
  rfl

/-! Resends (R329, R330). -/

/-- The reserve slot of a link in which the one lost frame of a port may leave again. -/
structure ResendDue (e : Env) (c : Chip) (n slot : Nat) (l : LinkDecl) (k : SentFrame) : Prop where
  isOpen : portOpen e c n = true
  link : linkOf c n = some l
  period : 0 < l.period
  last : slot % l.period = l.period - 1
  free : (tget Port.reset c.ports n).reserve ≤ slot
  begun : slotTime c n slot ≤ c.now
  lost : (tget Port.reset c.ports n).again = [k]
  gap : frameTime c n (k.slot + resendGap (hopOf c k.f.tag) (tget Port.reset c.ports n).width) k.f ≤ slotTime c n slot
  window : slotTime c n slot ≤ frameTime c n (k.slot + l.window) k.f

/-- A lost frame leaves with RETX. Its port has nothing left to send again, has counted it and has used the reserve slot. -/
theorem resend_leaves {e : Env} {c : Chip} {n slot : Nat} {l : LinkDecl} {k : SentFrame} (h : ResendDue e c n slot l k) :
    ∃ g : Port → Port, resend e c n slot = putFrame (onPort c n g) n slot 1 { k.f with retx := true } ∧
      (let p := tget Port.reset c.ports n
       (g p).again = [] ∧ (g p).resent = satAdd 8 p.resent 1 ∧ (g p).reserve = slot + 1 ∧ (g p).fogTx = p.fogTx ∧ (g p).swapTx = p.swapTx) := by
  obtain ⟨ho, hl, hp, hlast, hfree, hbegun, hlost, hgap, hwindow⟩ := h
  have hport : port e c n = tget Port.reset c.ports n := portOpen_present ho
  unfold resend
  rw [hport, hl]
  -- Only the order of the times counts: the arithmetic of slots must not be unfolded.
  generalize slotTime c n slot = begins at hbegun hgap hwindow ⊢
  generalize frameTime c n = time at hgap hwindow ⊢
  generalize resendGap = gap at hgap ⊢
  have hnow : (!portOpen e c n || l.period == 0 || slot % l.period != l.period - 1 || decide (slot < (tget Port.reset c.ports n).reserve) ||
      decide (c.now < begins)) = false := by
    simp [ho, hlast, Nat.pos_iff_ne_zero.mp hp, hfree, hbegun]
  have hagain : (tget Port.reset c.ports n).again.filter (fun x => !decide (time (x.slot + l.window) x.f < begins)) = [k] := by
    rw [hlost, List.filter_cons_of_pos (by simpa using hwindow), List.filter_nil]
  have hfind : [k].find? (fun x => decide (time (x.slot + gap (hopOf c x.f.tag) (tget Port.reset c.ports n).width) x.f ≤ begins)) = some k :=
    List.find?_cons_of_pos (decide_eq_true hgap)
  simp only [hnow, Bool.false_eq_true, if_false, tget_onPort_self, hagain, hfind, onPort_onPort]
  refine ⟨_, rfl, ?_⟩
  simp [hagain]

/-! Losses (R330, R333). -/

/-- A port that no longer misses a sequence. -/
def Port.forgets (p : Port) (seq : Nat) : Port := { p with nacks := p.nacks.filter (fun y => y.seq != seq) }

section Retry
variable {c : Chip} {n seq tag : Nat} {l : LinkDecl} (hl : linkOf c n = some l) (ht : portHolder c n = some tag)
include hl ht

theorem retryWatch_due {x : Nack} (hx : (tget Port.reset c.ports n).nacks.find? (fun y => y.seq == seq % 1024) = some x)
    (hd : retryDue c n tag l x = true) : ∃ att, retryWatch c n seq =
      linkFault (onPort c n (fun p => p.forgets x.seq)) .linkRetry n x.seq x.slot tag att := by
  unfold retryWatch; simp only [hl, ht, hx, hd]; exact ⟨_, rfl⟩

theorem retryWatch_waits {x : Nack} (hx : (tget Port.reset c.ports n).nacks.find? (fun y => y.seq == seq % 1024) = some x)
    (hd : retryDue c n tag l x = false) : retryWatch c n seq = c := by
  unfold retryWatch; simp only [hl, ht, hx, hd]; rfl

/-- A frame booked on a port that is down is lost in the same way (R333). -/
theorem retryWatch_down {j : Job} {a : Attempt} (hk : (tget Port.reset c.ports n).nacks = []) (hs : (tget Port.reset c.ports n).st ≠ .up)
    (hj : tfind c.jobs tag = some j) (ha : newest j = some a) (hr : a.st = .running) :
    ∃ att, retryWatch c n seq = linkFault c .linkRetry n seq 0 tag att := by
  unfold retryWatch; simp only [hl, ht, hk, hj, List.find?_nil, Option.bind_some, ha]
  exact ⟨_, if_pos (by simp [hs, hr])⟩

end Retry

/-- Settles O35: departures by their time and their holder, resends in the reserve slot, control words by their CRC, losses by their window. -/
theorem framesLeave : Obligations.FramesLeave := by
  intro n slot pick seq f x s hq hn
  rw [exec_frameDeparture, exec_controlWord, exec_resend, exec_linkRetry, Nat.mod_eq_of_lt hn]
  refine ⟨?opened, fun l tag x hl ht hx => ⟨fun hd => ?due, fun hd => ?notDue⟩, fun l tag j a hl ht hk hs hj ha hr => ?down⟩
  case opened =>
    intro p d ho
    have hport : p = tget Port.reset s.chip.ports n := portOpen_present ho
    refine ⟨fun ht hr hf hfog hswap h5 hh => ?leaves, fun hr hf h => ?waits, fun hc hk => ?acks, fun hc => ?ignored,
      fun l k hl hp hlast hfree hbegun hlost hgap hwin hfog hswap => ?again⟩
    case leaves =>
      obtain ⟨ctl, hkind, hput⟩ := putFrame_clear (c := { s.chip with egress := s.chip.egress.eraseIdx pick }) (n := n)
        (g := fun p => p.sent slot (slotOrigin s.chip n) d f) (hport ▸ hfog) (hport ▸ hswap) slot (if d.2.1 = true then 2 else 1)
        { f with seq := (tget Port.reset s.chip.ports n).txSeq % 1024 }
      rw [depart_leaves ho hr hf ht h5 hh, hput]
      refine ⟨_, ctl, rfl, ?_⟩
      rw [State.after_sameHand s _ hq (by exact ⟨rfl, rfl, rfl⟩)]
      simp only [State.put_chip, emit_ports, tget_onPort_self, ← hport]
      exact ⟨rfl, rfl, rfl, List.append_assoc _ _ _, hkind, rfl, rfl, rfl⟩
    case waits => rw [depart_waits ho hr hf h, s.after_self hq]
    case acks =>
      rw [control_acks ho hc hk, State.after_sameHand s _ hq (sameHand_onPort _ _ _)]
      refine ⟨_, rfl, ?_⟩
      rw [State.put_chip, tget_onPort_self, Port.heard_kept, ← hport]
      exact ⟨rfl, rfl, rfl⟩
    case ignored => rw [control_ignored s.env hc, s.after_self hq]
    case again =>
      rw [hport] at hfree hlost hgap hfog hswap
      obtain ⟨g, hg, hnone, hcount, hused, hfogs, hswaps⟩ := resend_leaves ⟨ho, hl, hp, hlast, hfree, hbegun, hlost, hgap, hwin⟩
      obtain ⟨ctl, -, hput⟩ := putFrame_clear (hfogs ▸ hfog) (hswaps.trans hswap) slot 1 { k.f with retx := true }
      rw [hg, hput]
      refine ⟨_, ctl, rfl, ?_⟩
      rw [State.after_sameHand s _ hq (by exact ⟨rfl, rfl, rfl⟩)]
      simp only [State.put_chip, emit_ports, tget_onPort_self, hport]
      exact ⟨hnone, hcount, hused, List.append_assoc _ _ _, rfl⟩
  case due =>
    obtain ⟨att, hw⟩ := retryWatch_due hl ht hx hd
    obtain ⟨r, hr, hcode, hjob⟩ := linkFault_spec (c := onPort s.chip n (fun p => p.forgets x.seq)) hq.2.2
      .linkRetry n x.seq x.slot tag att
    rw [hw, hr]
    refine ⟨_, r, rfl, rfl, hcode, hjob, ?_⟩
    exact congrArg Port.nacks (tget_onPort_self s.chip n (fun p => p.forgets x.seq))
  case notDue => rw [retryWatch_waits hl ht hx hd, s.after_self hq]
  case down =>
    obtain ⟨att, hw⟩ := retryWatch_down hl ht hk hs hj ha hr
    obtain ⟨r, hr, hcode, hjob⟩ := linkFault_spec hq.2.2 .linkRetry n seq 0 tag att
    rw [hw, hr]
    exact ⟨_, r, rfl, rfl, hcode, hjob⟩

end Sys2Proof.Machine
end

section
/-! O36: data frames that arrive, are held to their release, and land (13_ihlan.md R318, R319, R322, R329; the place of a port in the mesh of its die: log
entry 77). -/

namespace Sys2Proof.Machine

/-! The rows, each by the chip that it settles. -/

theorem exec_dataFrame (n slot : Nat) (f : Frame) (fecOk : Bool) (crc : Nat) (s : State) :
    exec (.dataFrame n slot f fecOk crc) s = .next (s.after (frameArrive s.env s.chip (n % 16) slot f fecOk crc)) := rfl
theorem exec_release (n : Nat) (s : State) : exec (.release n) s = .next (s.after (releaseFrame s.env s.chip (n % 16))) := rfl

/-! Arrival (R318, R319, R329). -/

/-- Where a port stands in its slot grid depends on the width of the port and on the jobs. -/
theorem frameTime_onPort {c : Chip} {n : Nat} {g : Port → Port} (h : (g (tget Port.reset c.ports n)).width = (tget Port.reset c.ports n).width)
    (slot : Nat) (f : Frame) : frameTime (onPort c n g) n slot f = frameTime c n slot f := by
  have horigin : frameOrigin (onPort c n g) n f = frameOrigin c n f := rfl
  unfold frameTime
  rw [horigin, tget_onPort_self, h]

/-- On an open port without receive fog a frame is taken as it comes. -/
theorem frameArrive_clear {e : Env} {c : Chip} {n : Nat} (hs : (port e c n).st = .up) (hr : c.boot.ready = true) (hj : (port e c n).joined = true)
    (hf : (port e c n).fogRx.action = 0) (hw : (port e c n).swapRx = none) (slot : Nat) (f : Frame) (fecOk : Bool) (crc : Nat) :
    frameArrive e c n slot f fecOk crc = takeFrame (onPort c n (fun p => p)) n slot 0 f fecOk (crc == frameCrc f) := by
  have hport : onPort c n (fun p => { p with fogRx := (port e c n).fogRx }) = onPort c n (fun p => p) := onPort_congr (by rw [port_up hs])
  unfold frameArrive
  simp only [hs, hr, hj, fogPick_off hf, hw, hport]
  simp

/-- Before READY a data frame is dropped and counted (R331). -/
theorem frameArrive_unready {e : Env} {c : Chip} {n : Nat} (hs : (port e c n).st = .up) (hr : c.boot.ready = false) (slot : Nat) (f : Frame) (fecOk : Bool)
    (crc : Nat) : frameArrive e c n slot f fecOk crc = onPort c n (fun p => { p with droppedF := satAdd 8 p.droppedF 1 }) := by
  unfold frameArrive
  simp only [hs, hr]
  rfl

/-- A port that holds a new frame to cycle `due`; what lies between it and the last is missing. -/
def Port.holds (p : Port) (again origin slot due : Nat) (f : Frame) : Port :=
  { gapTo again origin p f.seq slot with
    rxSeq := f.seq % 1024, rxAny := true, hold := p.hold ++ [⟨f, due, slot⟩] }

/-- A new frame that comes in time is held to its release one hop after its slot. -/
theorem takeFrame_holds {c : Chip} {n slot : Nat} {f : Frame} (hc : f.cls < 5) (hx : f.retx = false)
    (ht : c.now ≤ frameTime c n slot f + hopOf c f.tag) : takeFrame c n slot 0 f true true =
      onPort c n (fun p => p.holds (resendFrom c n slot) (frameOrigin c n f) slot (frameTime c n slot f + hopOf c f.tag) f) := by
  have hfree : (f.retx || f.cls == 5 || f.cls == 7) = false := by
    simp only [hx, Bool.false_or, Bool.or_eq_false_iff, beq_eq_false_iff_ne]; omega
  have htake : takeFrame c n slot 0 f true true = hold c n slot 0 f := by
    unfold takeFrame
    exact (if_neg (by decide)).trans ((if_neg (by decide)).trans (if_neg (by omega)))
  rw [htake]
  unfold hold
  rw [hfree, hx]
  generalize frameTime c n slot f + hopOf c f.tag = due at ht ⊢
  have hlate : decide (due < c.now) = false := decide_eq_false (Nat.not_lt.mpr ht)
  simp only [Bool.false_eq_true, if_false, Nat.add_zero, hlate, Bool.and_false, Bool.false_and, Nat.max_eq_left ht]
  refine onPort_congr ?_
  unfold Port.holds
  rw [(nacksOnly_gapTo (resendFrom c n slot) (frameOrigin c n f) (tget Port.reset c.ports n) f.seq slot).on Port.hold]

/-- A port that discards a new frame, counted as `q`: the sequence expected is missing. -/
def Port.discards (q : Port) (again origin slot : Nat) : Port :=
  { missing again origin q (nextRx q) slot with rxSeq := nextRx q, rxAny := true }

theorem Port.discards_spec (q : Port) (again origin slot : Nat) : (q.discards again origin slot).hold = q.hold ∧
    (q.discards again origin slot).unc = q.unc ∧ (q.discards again origin slot).crc = q.crc ∧
    ((q.discards again origin slot).nacks.any fun y => y.seq == nextRx q % 1024) = true :=
  have hmissing := nacksOnly_missing again origin q (nextRx q) slot
  ⟨hmissing.on Port.hold, hmissing.on Port.unc, hmissing.on Port.crc, missing_asks again origin q (nextRx q) slot⟩

/-- A frame that its FEC could not mend, and one that fails its CRC. -/
theorem takeFrame_uncorrected {c : Chip} {n slot d : Nat} {f : Frame} (hx : f.retx = false) (crc : Bool) : takeFrame c n slot d f false crc =
    onPort c n (fun p => Port.discards { p with unc := satAdd 8 p.unc 1 } (resendFrom c n slot) (frameOrigin c n f) slot) := by
  have htake : takeFrame c n slot d f false crc = discard c n slot f true := rfl
  rw [htake]; unfold discard
  rw [hx]; rfl

theorem takeFrame_badCrc {c : Chip} {n slot d : Nat} {f : Frame} (hx : f.retx = false) : takeFrame c n slot d f true false =
    onPort c n (fun p => Port.discards { p with crc := satAdd 8 p.crc 1 } (resendFrom c n slot) (frameOrigin c n f) slot) := by
  have htake : takeFrame c n slot d f true false = discard c n slot f false := rfl
  rw [htake]; unfold discard
  rw [hx]; rfl

/-! Release (R318, R322). -/

/-- A port that has released a frame. -/
def Port.releases (p : Port) (h : HeldFrame) : Port := { p with hold := p.hold.erase h }

/-- A port at which a transfer has landed or is refused. -/
def Port.lands (p : Port) (key : Nat) : Port := { p with xfers := p.xfers.filter (fun x => x.1 != key) }

theorem releaseFrame_none {e : Env} {c : Chip} {n : Nat} (h : (port e c n).hold = []) : releaseFrame e c n = c := by
  unfold releaseFrame; rw [h]; rfl

/-- A window write of one frame for this package goes to its core with the first frame to be released, its own. -/
theorem releaseFrame_write {e : Env} {c : Chip} {n : Nat} {h : HeldFrame} (hh : (port e c n).hold.find? (fun h => decide (h.at_ ≤ c.now)) = some h)
    (hp : h.f.destPkg = c.beacon.pkg) (hc : h.f.cls = 0)
    (hd : dropped c h.f.tag ((frameAttempt c h.f).getD (h.f.tick, h.f.attempt)).1 ((frameAttempt c h.f).getD (h.f.tick, h.f.attempt)).2 = false) :
    releaseFrame e c n = landWrite (onPort c n (fun p => p.releases h)) n h.f ((frameAttempt c h.f).getD (h.f.tick, h.f.attempt)).1
      ((frameAttempt c h.f).getD (h.f.tick, h.f.attempt)).2 := by
  have hdeliver : releaseFrame e c n = deliverFrame (onPort c n (fun p => p.releases h)) n h.f := by
    unfold releaseFrame; rw [hh]; exact if_pos hp
  have hatt : frameAttempt (onPort c n (fun p => p.releases h)) h.f = frameAttempt c h.f := rfl
  have hlive : dropped (onPort c n (fun p => p.releases h)) h.f.tag ((frameAttempt c h.f).getD (h.f.tick, h.f.attempt)).1
      ((frameAttempt c h.f).getD (h.f.tick, h.f.attempt)).2 = false := hd
  rw [hdeliver]
  unfold deliverFrame
  dsimp only
  rw [hatt, if_neg (by simp [hlive]), hc]
  rfl

section Land
variable {c : Chip} {n : Nat} {f : Frame} (hx : (tget Port.reset c.ports n).xfers = []) (hl : f.wlen < 512)
include hx hl

/-- A transfer of one frame, where none is under way: it is checked, and lands whole where it is admitted. -/
theorem xferStep_single (check : Chip → Bool × Chip) (land : Chip → Bool → Chip) : xferStep c n f check land =
    (let c1 := onPort (check c).2 n (fun p => p.lands (xferKey f))
     if (check c).1 = true then land c1 true else c1) := by
  have hone : xferFrames f = 1 := by unfold xferFrames cdiv; omega
  unfold xferStep
  simp [hx, hone, Port.lands]

variable (tick att : Nat)

theorem landWrite_admitted (hd : dropped c f.tag tick att = false) (hm : meshOff c (coreAt f.destAddr) = false)
    (hw : windowTakes c (coreAt f.destAddr) f.destAddr (f.wlen + 1) f.tag = true)
    (ho : landOk c (coreAt f.destAddr) f.tag f.destAddr (f.wlen + 1) = true) :
    landWrite c n f tick att = atPortAt (onPort c n (fun p => p.lands (xferKey f))) (coreAt f.destAddr)
      (fromPort c n (coreAt f.destAddr)) (.piece (f.destAddr + 512 * f.idx) (frameData f) none) := by
  have hadmit : admitWrite c (coreAt f.destAddr) f.destAddr (f.wlen + 1) f.src f.tag tick att noLw = (true, c) := by
    unfold admitWrite; simp [hd, hm, hw, ho]
  unfold landWrite
  dsimp only
  rw [xferStep_single hx hl, hadmit]
  rfl

theorem landWrite_refused (hd : dropped c f.tag tick att = false) (hm : meshOff c (coreAt f.destAddr) = false)
    (hw : windowTakes c (coreAt f.destAddr) f.destAddr (f.wlen + 1) f.tag = false) : ∃ own, landWrite c n f tick att =
      onPort (violation c (coreAt f.destAddr) f.destAddr (f.wlen + 1) f.src f.tag tick att noLw own) n
        (fun p => p.lands (xferKey f)) := by
  have hadmit : admitWrite c (coreAt f.destAddr) f.destAddr (f.wlen + 1) f.src f.tag tick att noLw =
      (false, violation c (coreAt f.destAddr) f.destAddr (f.wlen + 1) f.src f.tag tick att noLw
        (jobOfCore c (coreAt f.destAddr) == f.tag && f.tag != 0)) := by
    unfold admitWrite; simp [hd, hm, hw]
  unfold landWrite
  dsimp only
  rw [xferStep_single hx hl, hadmit]
  exact ⟨_, rfl⟩

end Land

/-- A frame that carries all bytes of its transfer. -/
theorem frameData_whole {f : Frame} (hi : f.idx = 0) (hl : f.wlen < 512) (hp : f.payload.length = f.wlen + 1) : frameData f = f.payload := by
  unfold frameData
  rw [hi]
  exact List.take_of_length_le (by omega)

/-- WINDOW_VIOLATION at both ends is one or two faults in hand, and nothing else. -/
theorem violation_raises {c : Chip} (h : c.raised = []) (i addr n src tag tick att lw : Nat) (own : Bool) :
    ∃ rs, violation c i addr n src tag tick att lw own = { c with raised := rs } ∧ rs ≠ [] ∧ ∀ r ∈ rs, r.code = 0x05 := by
  unfold violation
  dsimp only
  split
  · exact ⟨_, rfl, by simp, by simp [raise, h, faultNo]⟩
  · exact ⟨_, rfl, by simp [h], by simp [h, faultNo]⟩

/-- Settles O36: arrivals by READY and by the checks of the frame, releases by the window that admits the write. -/
theorem framesArrive : Obligations.FramesArrive := by
  intro n slot crc f s hq hn
  have hdata (fec : Bool) (crc : Nat) : exec (.dataFrame n slot f fec crc) s = .next (s.after (frameArrive s.env s.chip n slot f fec crc)) := by
    rw [exec_dataFrame, Nat.mod_eq_of_lt hn]
  rw [exec_release, Nat.mod_eq_of_lt hn]
  refine ⟨?arrival, ?release, fun hh => ?idle⟩
  case arrival =>
    intro p hs hc
    have hport : p = tget Port.reset s.chip.ports n := port_up hs
    refine ⟨fun hr hj hf hw hx => ⟨fun hc ht => ?held, fun hcrc => ?badCrc, ?uncorrected⟩, fun hr => ?unready⟩
    case held =>
      have htime : frameTime (onPort s.chip n (fun p => p)) n slot f = frameTime s.chip n slot f := frameTime_onPort rfl slot f
      have hhop : hopOf (onPort s.chip n (fun p => p)) f.tag = hopOf s.chip f.tag := rfl
      rw [hdata, frameArrive_clear hs hr hj hf hw, beq_self_eq_true, takeFrame_holds hc hx (by rw [htime, hhop]; exact ht), htime, hhop, onPort_onPort,
        State.after_sameHand s _ hq (sameHand_onPort _ _ _)]
      refine ⟨_, rfl, ?_⟩
      rw [State.put_chip, tget_onPort_self, hport]
      exact ⟨rfl, rfl, rfl, rfl⟩
    case badCrc =>
      rw [hdata, frameArrive_clear hs hr hj hf hw, beq_eq_false_iff_ne.mpr hcrc, takeFrame_badCrc hx, onPort_onPort,
        State.after_sameHand s _ hq (sameHand_onPort _ _ _)]
      refine ⟨_, rfl, ?_⟩
      rw [State.put_chip, tget_onPort_self, hport]
      obtain ⟨hhold, -, hcount, hasks⟩ := Port.discards_spec { tget Port.reset s.chip.ports n with crc := satAdd 8 (tget Port.reset s.chip.ports n).crc 1 }
        (resendFrom (onPort s.chip n (fun p => p)) n slot) (frameOrigin (onPort s.chip n (fun p => p)) n f) slot
      exact ⟨hcount, hhold, hasks, rfl⟩
    case uncorrected =>
      rw [hdata, frameArrive_clear hs hr hj hf hw, takeFrame_uncorrected hx, onPort_onPort, State.after_sameHand s _ hq (sameHand_onPort _ _ _)]
      refine ⟨_, rfl, ?_⟩
      rw [State.put_chip, tget_onPort_self, hport]
      obtain ⟨hhold, hcount, -⟩ := Port.discards_spec { tget Port.reset s.chip.ports n with unc := satAdd 8 (tget Port.reset s.chip.ports n).unc 1 }
        (resendFrom (onPort s.chip n (fun p => p)) n slot) (frameOrigin (onPort s.chip n (fun p => p)) n f) slot
      exact ⟨hcount, hhold⟩
    case unready =>
      rw [hdata, frameArrive_unready hs hr, State.after_sameHand s _ hq (sameHand_onPort _ _ _)]
      rfl
  case release =>
    intro p h hh hp hc hl hi hlen hd i hm hx
    have hfree : (tget Port.reset (onPort s.chip n (fun p => p.releases h)).ports n).xfers = [] := by
      rw [tget_onPort_self, ← hx]; exact (port_xfers _ _ _).symm
    have herase : (tget Port.reset s.chip.ports n).hold.erase h = p.hold.erase h := congrArg (fun l => l.erase h) (port_hold s.env s.chip n).symm
    rw [releaseFrame_write hh hp hc hd]
    refine ⟨fun hw ho => ?admitted, fun hw => ?refused⟩
    case admitted =>
      rw [landWrite_admitted hfree hl _ _ hd hm hw ho, frameData_whole hi hl hlen, hi, onPort_onPort, State.after_sameHand s _ hq (by exact ⟨rfl, rfl, rfl⟩)]
      refine ⟨_, rfl, ?_, ?_, rfl, rfl⟩
      · exact (congrArg Port.hold (tget_onPort_self s.chip n (fun p => (p.releases h).lands (xferKey h.f)))).trans herase
      · rw [State.put_chip, atPortAt, core_onCore, if_pos rfl]
        rfl
    case refused =>
      obtain ⟨own, hland⟩ := landWrite_refused hfree hl _ _ hd hm hw
      obtain ⟨rs, hviol, hne, hcodes⟩ := violation_raises (c := onPort s.chip n (fun p => p.releases h)) hq.2.2 i h.f.destAddr (h.f.wlen + 1) h.f.src h.f.tag
        ((frameAttempt s.chip h.f).getD (h.f.tick, h.f.attempt)).1 ((frameAttempt s.chip h.f).getD (h.f.tick, h.f.attempt)).2 noLw own
      rw [hland, hviol]
      refine ⟨_, rfl, ?_, rfl, hne, hcodes⟩
      rw [tget_onPort_self]
      exact (congrArg Port.hold (tget_onPort_self s.chip n (fun p => p.releases h))).trans herase
  case idle => rw [releaseFrame_none hh, s.after_self hq]

end Sys2Proof.Machine
end

section
/-! O37: Beacon frames, their release, and the FOG command (13_ihlan.md R321-R323, R335-R337; the port of a message to one package and the header under the
CRC-32 of a copy: log entry 44). -/

namespace Sys2Proof.Machine

/-! The rows, each by the chip that it settles. -/

theorem exec_beaconFrame (n copy : Nat) (msg : BeaconMsg) (h : BeaconHead) (job : Nat) (fecOk : Bool) (crc : Nat) (s : State) :
    exec (.beaconFrame n copy msg h job fecOk crc) s = .next (s.after (beaconArrive s.env s.chip (n % 16) copy msg h job fecOk crc)) := rfl
theorem exec_fog (id : CmdId) (s : State) : exec (.fog id) s = .next (s.after (withStarted s.chip id 0x50 (fogSet s.env))) := rfl

/-! A copy that arrives (R321, R323). -/

/-- The outcome of the first copy of a message at a port is noted: twice its identifier, and one more where it was intact. -/
def noteCopy (c : Chip) (n v : Nat) : Chip := onBeacon c (fun b => { b with copies := tset b.copies n v })

/-- A port that takes Beacon messages, and no fog touches them as they arrive. -/
structure BeaconOpen (e : Env) (c : Chip) (n : Nat) (msg : BeaconMsg) : Prop where
  up : (port e c n).st = .up
  joined : (port e c n).joined = true
  clear : (port e c n).fogRx.action = 0
  ready : c.boot.ready = true ∨ isJoin msg = true

section Arrive
variable {e : Env} {c : Chip} {n : Nat} {msg : BeaconMsg} (ho : BeaconOpen e c n msg) (h : BeaconHead) (job : Nat)
include ho

/-- What a copy does is decided by its number, its checks and what is known of the first copy. -/
theorem beaconArrive_clear (copy : Nat) (fecOk : Bool) (crc : Nat) : beaconArrive e c n copy msg h job fecOk crc =
    (let c1 := onPort c n (fun p => p)
     let ok := fecOk && crc == beaconCrc copy h.dest h.src msg
     if copy % 2 = 0 then (if ok = true then holdMsg (noteCopy c1 n (h.ident * 2 + 1)) n h.slot 0 job h msg else noteCopy c1 n (h.ident * 2))
     else if tfind c.beacon.copies n = some (h.ident * 2 + 1) then c1
     else if ok = true then holdMsg (noteCopy c1 n (h.ident * 2 + 1)) n h.slot 0 job h msg
     else if job = 0 then onPort c1 n (fun p => { p with droppedF := satAdd 8 p.droppedF 1 })
     else linkFault c1 .beaconLoss n 0 0 job (((tfind c.jobs job).bind newest).map (fun a => (a.tick, a.ord)))) := by
  have hport : onPort c n (fun p => { p with fogRx := (port e c n).fogRx }) = onPort c n (fun p => p) := onPort_congr (by rw [port_up ho.up])
  have hready : ¬(c.boot.ready = false ∧ isJoin msg = false) := by
    rintro ⟨hr, hj⟩
    rcases ho.ready with h | h
    · rw [hr] at h; cases h
    · rw [hj] at h; cases h
  unfold beaconArrive
  simp only [ho.up, ho.joined, hready, fogPick_off ho.clear, ne_eq, not_true_eq_false, if_false, Bool.true_eq_false, Bool.false_eq_true, false_and,
    Bool.false_and, Bool.not_false, Bool.and_true, hport]
  rfl

/-- The first copy, intact, is held. -/
theorem beaconArrive_first : beaconArrive e c n 0 msg h job true (beaconCrc 0 h.dest h.src msg) =
    holdMsg (noteCopy (onPort c n (fun p => p)) n (h.ident * 2 + 1)) n h.slot 0 job h msg := by
  rw [beaconArrive_clear ho]; simp

/-- The second copy of a message whose first was intact. -/
theorem beaconArrive_again (hk : tfind c.beacon.copies n = some (h.ident * 2 + 1)) (fecOk : Bool) (crc : Nat) :
    beaconArrive e c n 1 msg h job fecOk crc = onPort c n (fun p => p) := by
  rw [beaconArrive_clear ho]; simp [hk]

/-- A message of a job that is lost in both copies. -/
theorem beaconArrive_lost (hk : tfind c.beacon.copies n = some (h.ident * 2)) (hj : job ≠ 0) {crc : Nat} (hc : crc ≠ beaconCrc 1 h.dest h.src msg)
    (fecOk : Bool) : ∃ att, beaconArrive e c n 1 msg h job fecOk crc = linkFault (onPort c n (fun p => p)) .beaconLoss n 0 0 job att := by
  have hbad : (fecOk && crc == beaconCrc 1 h.dest h.src msg) = false := by rw [beq_eq_false_iff_ne.mpr hc, Bool.and_false]
  rw [beaconArrive_clear ho]
  dsimp only
  rw [hbad, hk]
  exact ⟨_, (if_neg (by decide)).trans ((if_neg (by simp)).trans ((if_neg Bool.false_ne_true).trans (if_neg hj)))⟩

end Arrive

/-! Held to the release (R253, R322, R323). -/

/-- A message that comes in time is held to its sending time plus the hop. -/
theorem holdMsg_onTime {c : Chip} {n slot job : Nat} (h : BeaconHead) (m : BeaconMsg) (ht : c.now ≤ slotTime c n slot + msgHop c job) :
    holdMsg c n slot 0 job h m = onBeacon c (fun b => { b with held := b.held ++ [⟨slotTime c n slot + msgHop c job, n, h.dest, h.src, m⟩] }) := by
  unfold holdMsg
  generalize slotTime c n slot + msgHop c job = due at ht ⊢
  simp only [Nat.add_zero, Nat.max_eq_left ht, if_neg (Nat.not_lt.mpr ht)]

/-- One that comes after that is released as it comes. -/
theorem holdMsg_late {c : Chip} {n slot job : Nat} (h : BeaconHead) (m : BeaconMsg) (ht : slotTime c n slot + msgHop c job < c.now) :
    holdMsg c n slot 0 job h m = lateBeacon (onBeacon c (fun b => { b with held := b.held ++ [⟨c.now, n, h.dest, h.src, m⟩] })) n job := by
  unfold holdMsg
  generalize slotTime c n slot + msgHop c job = due at ht ⊢
  simp only [Nat.add_zero, Nat.max_eq_right (Nat.le_of_lt ht), if_pos ht]

/-- Where a port stands in its slot grid, as the note of a copy leaves it. -/
theorem slotTime_noteCopy (c : Chip) (n v slot : Nat) : slotTime (noteCopy (onPort c n (fun p => p)) n v) n slot = slotTime c n slot := by
  have horigin : slotOrigin (noteCopy (onPort c n (fun p => p)) n v) n = slotOrigin c n := rfl
  have hwidth : (tget Port.reset (noteCopy (onPort c n (fun p => p)) n v).ports n).width = (tget Port.reset c.ports n).width :=
    congrArg Port.width (tget_onPort_self c n (fun p => p))
  unfold slotTime
  rw [horigin, hwidth]

/-! The release (R321, R322). -/

section Release
variable {c : Chip} {h : HeldMsg} (hh : c.beacon.held = [h])
include hh

theorem releaseMsgs_early (e : Env) (ht : c.now < h.at_) : releaseMsgs e c = c := by
  have hwaits : c.beacon.held.filter (fun h => decide (c.now < h.at_)) = c.beacon.held := by simp [hh, ht]
  have hkept : onBeacon c (fun b => { b with held := b.held.filter (fun h => decide (c.now < h.at_)) }) = c := by
    unfold onBeacon; dsimp only; rw [hwaits]
  have hnone : c.beacon.held.filter (fun h => decide (h.at_ ≤ c.now)) = [] := by simp [hh, ht]
  unfold releaseMsgs
  rw [hkept, hnone]
  rfl

theorem releaseMsgs_due (e : Env) (ht : h.at_ ≤ c.now) :
    releaseMsgs e c = releaseMsg e { c with beacon := { c.beacon with held := [] } } h := by
  have hgoes : c.beacon.held.filter (fun h => decide (c.now < h.at_)) = [] := by simp [hh, ht]
  have hdue : c.beacon.held.filter (fun h => decide (h.at_ ≤ c.now)) = [h] := by simp [hh, ht]
  have hnone : onBeacon c (fun b => { b with held := b.held.filter (fun h => decide (c.now < h.at_)) }) =
      { c with beacon := { c.beacon with held := [] } } := by
    unfold onBeacon; dsimp only; rw [hgoes]
  unfold releaseMsgs
  rw [hnone, hdue]
  rfl

end Release

/-- A message for another package goes on by the port of its route. -/
theorem releaseMsg_forwards {e : Env} {c : Chip} {h : HeldMsg} (ha : h.dest ≠ everyPkg) (hd : h.dest ≠ c.beacon.pkg) {j : Job} {out : Nat}
    (hj : tfind c.jobs (msgTagOf h.msg) = some j) (ho : tfind j.place.toward h.dest = some out) :
    releaseMsg e c h = portBeacon c out h.dest h.src (c.now + Config.ring * portHops h.port out) h.msg := by
  unfold releaseMsg sendTo
  rw [if_neg (by simp [ha, hd]), hj, Option.bind_some, ho]

/-! FOG (R335-R337). -/

theorem fogSet_denied {c : Chip} (e : Env) (m : Cmd) (h : c.boot.test = false) : fogSet e m c = final c m.id .denied := if_pos h

/-- A fog whose frames a pattern picks, for one direction of a port. -/
theorem fogSet_done {e : Env} {c : Chip} {m : Cmd} (ht : c.boot.test = true) (hn : arg m 0x10 1 ≤ 15) (hp : (port e c (arg m 0x10 1)).st ≠ .absent)
    (hb : portBelongs c (arg m 0x10 1) m.id.part = true) (hdir : arg m 0x11 1 ≤ 1) (h1 : 1 ≤ arg m 0x12 1) (h3 : arg m 0x12 1 ≤ 3) (hl : arg m 0x14 1 = 0) :
    fogSet e m c = doneCmd (onPort c (arg m 0x10 1) (fun p =>
      let f : Fog := ⟨arg m 0x12 1, arg m 0x13 1, false, arg m 0x16 2, BitVec.ofNat 64 (arg m 0x18 8), BitVec.ofNat 32 (arg m 0x20 4), arg m 0x24 4, 0⟩
      if arg m 0x11 1 = 0 then { p with fogTx := f } else { p with fogRx := f })) m.id .ok 0 0 := by
  have hvalid : ¬(1 < arg m 0x11 1 ∨ 4 < arg m 0x12 1 ∨ 1 < arg m 0x14 1 ∨ (arg m 0x12 1 = 4 ∧ (arg m 0x24 4 = 0 ∨ 10000 < arg m 0x24 4)) ∨
      (arg m 0x14 1 = 1 ∧ arg m 0x20 4 = 0)) := by omega
  have hact : arg m 0x12 1 ≠ 0 := by omega
  unfold fogSet
  simp only [ht, if_neg (Nat.not_lt.mpr hn), if_neg hp, hb, if_neg hvalid, if_neg hact, Bool.true_eq_false, if_false]
  rw [hl]
  rfl

/-- Settles O37: a copy by its number and its checks, a held message by its time and its destination, a FOG by the test state. -/
theorem beaconFramesAndFog : Obligations.BeaconFramesAndFog := by
  refine ⟨?arrival, ?release, ?fog⟩
  case arrival =>
    intro n job crc msg h s hq hn hs hj hf hr due held
    have ho : BeaconOpen s.env s.chip n msg := ⟨hs, hj, hf, hr⟩
    have hexec (copy crc : Nat) : exec (.beaconFrame n copy msg h job true crc) s = .next (s.after (beaconArrive s.env s.chip n copy msg h job true crc)) := by
      rw [exec_beaconFrame, Nat.mod_eq_of_lt hn]
    have hport : onPort s.chip n (fun p => p) = { s.chip with ports := tset s.chip.ports n (port s.env s.chip n) } := by rw [port_up hs]; rfl
    have hdue : slotTime (noteCopy (onPort s.chip n (fun p => p)) n (h.ident * 2 + 1)) n h.slot +
        msgHop (noteCopy (onPort s.chip n (fun p => p)) n (h.ident * 2 + 1)) job = due := by rw [slotTime_noteCopy]; rfl
    have hcopies : tfind (tset s.chip.beacon.copies n (h.ident * 2 + 1)) n = some (h.ident * 2 + 1) := by rw [tfind_tset, if_pos rfl]
    refine ⟨fun ht => ⟨tset s.chip.beacon.copies n (h.ident * 2 + 1), ?inTime, hcopies⟩, fun ht => ⟨tset s.chip.beacon.copies n (h.ident * 2 + 1), ?late⟩,
      fun hk => ?again, fun hk hjob hc => ?lost⟩
    case inTime =>
      rw [hexec, beaconArrive_first ho, holdMsg_onTime h msg (by rw [hdue]; exact ht), hdue, hport, State.after_sameHand s _ hq (by exact ⟨rfl, rfl, rfl⟩)]
      rfl
    case late =>
      rw [hexec, beaconArrive_first ho, holdMsg_late h msg (by rw [hdue]; exact ht), hport]
      rfl
    case again =>
      rw [hexec, beaconArrive_again ho h job hk, State.after_sameHand s _ hq (sameHand_onPort _ _ _)]
      exact ⟨_, rfl, rfl, rfl, rfl, rfl, rfl⟩
    case lost =>
      obtain ⟨att, hlost⟩ := beaconArrive_lost ho h job hk hjob hc true
      obtain ⟨r, hr, hcode, htag⟩ := linkFault_spec (c := onPort s.chip n (fun p => p)) hq.2.2 .beaconLoss n 0 0 job att
      rw [hexec, hlost, hr]
      exact ⟨_, r, rfl, rfl, hcode, htag, rfl, rfl⟩
  case release =>
    intro h e c hh
    refine ⟨fun ht => releaseMsgs_early hh e ht, fun ht hd => ?here, fun ht ha hd tag j out htag hj hout => ?forward⟩
    case here => rw [releaseMsgs_due hh e ht]; exact if_pos hd
    case forward =>
      subst htag
      rw [releaseMsgs_due hh e ht]
      exact releaseMsg_forwards (c := { c with beacon := { c.beacon with held := [] } }) ha hd hj hout
  case fog =>
    intro id m s hq hst n act
    rw [exec_fog, withStarted_of hst]
    refine ⟨fun ht => ?denied, fun ht hn hp hb hdir h1 h3 hl => ?done⟩
    case denied => rw [fogSet_denied s.env m ht]
    case done => rw [fogSet_done ht hn hp hb hdir h1 h3 hl]

end Sys2Proof.Machine
end

section
/-! O3: every step keeps the invariant (03_memory.md). -/

namespace Sys2Proof.Machine

/-- What a lifted meaning settles to keeps the canonical form, and nothing is left in hand. -/
theorem State.after_inv {s : State} (h : s.mem.wf = true) (c : Chip) : (s.after c).inv := ⟨State.after_wf s c h, State.after_quiet s c⟩

/-- A command that settles some chip keeps the invariant. -/
theorem inv_of_after {o : Host.Outcome State Fault Refusal} {s t : State} {c : Chip} (h : s.mem.wf = true) (ho : o = .next (s.after c))
    (ht : o = .next t) : t.inv := by
  obtain rfl : s.after c = t := Host.Outcome.next.inj (ho.symm.trans ht)
  exact State.after_inv h c

/-- The fall of power-good keeps entries of memory, and a chip as reset leaves it has nothing in hand. -/
theorem pwrgoodFall_inv {s t : State} (h : s.mem.wf = true) (ht : exec .pwrgoodFall s = .next t) : t.inv := by
  obtain rfl := Host.Outcome.next.inj ht
  exact ⟨Memory.wf_filter s.mem _ h, rfl, rfl, rfl⟩

theorem exec_inv {s t : State} (c : Instr) (h : s.mem.wf = true) (ht : exec c s = .next t) : t.inv := by
  cases c
  case pwrgoodFall => exact pwrgoodFall_inv h ht
  all_goals exact inv_of_after h rfl ht

/-- Settles O3: an idle cycle and every command but the fall of power-good are lifted meanings; the fall keeps a part of memory and resets the chip. -/
theorem stepKeepsInvariant : Obligations.StepKeepsInvariant := by
  intro s t ⟨hmem, _⟩ ht
  cases hp : s.pending with
  | nil => exact inv_of_after hmem (step_idle hp) ht
  | cons c r =>
    have hstep : step s = exec c { s with pending := r } := by unfold step; rw [hp]
    exact exec_inv (s := { s with pending := r }) c hmem (hstep.symm.trans ht)

end Sys2Proof.Machine
end

section
/-! O1: the step (log entry 1). -/

namespace Sys2Proof.Machine

/-- With no operation on its way and no barrier about to fall, the turn of a cycle changes nothing. -/
theorem syncTurn_idle {c : Chip} (hq : c.buoyq = []) (hf : ∀ b ∈ c.bars, b.2.fall = none) (hb : ∀ p ∈ c.cores, p.2.bFree = none) : syncTurn c = c := by
  have hrest : { c with buoyq := c.buoyq.filter (fun x => !((buoyPick c).contains x)) } = c := by rw [hq, List.filter_nil, ← hq]
  have hacts : each (buoyPick c) { c with buoyq := c.buoyq.filter (fun x => !((buoyPick c).contains x)) } buoyAct = c := by
    rw [hrest, buoyPick_none hq, each_nil]
  rw [syncTurn_noFall hacts hf]
  exact barsFree_waits fun p hp hw => absurd (hb p hp) hw

/-- Settles O1: a step by its queue, an idle one as a cycle, and a cycle in which nothing acts as the clock alone. -/
theorem stepTakesFrontCommand : Obligations.StepTakesFrontCommand := by
  refine ⟨fun c r s => rfl, fun s hp => step_idle hp, fun s hq hb hsync => ?_⟩
  have hcores : ∀ p ∈ s.chip.cores, p.2.bFree = none := fun p hp => by
    obtain ⟨_, _, _, hall, _⟩ := hb
    obtain ⟨_, _, hfree⟩ := hall p hp
    exact hfree
  have hturn : syncTurn s.chip = s.chip := syncTurn_idle hsync.1 hsync.2 hcores
  rw [step_still hb (congrArg Chip.jobs hturn), hturn]
  exact congrArg _ (State.after_put s _ hq.1 hq.2.1 hq.2.2)

end Sys2Proof.Machine
end

section
/-! O4: the state after reset (16_tenancy.md R368; 17_power.md R397, R403; 18_registers.md R412). A byte that nothing has written reads as the model's choice: log entry 2. -/

namespace Sys2Proof.Machine

theorem bootStage_reset : bootStage State.reset.env Chip.reset = 0 := by decide

theorem partCfgRead_reset : partCfgRead Part.reset = 0 := by decide

/-- Settles O4: no register of the state after reset is written, and no byte is listed. -/
theorem resetMeetsInvariant : Obligations.ResetMeetsInvariant :=
  ⟨⟨rfl, rfl, rfl, rfl⟩, bootStage_reset, rfl, rfl, rfl, rfl, fun _ => ⟨rfl, partCfgRead_reset⟩, rfl, fun _ => rfl⟩

end Sys2Proof.Machine
end

section
/-! O5, O6: writes to the set-up region (17_power.md R390, R404; 18_registers.md R406-R409). -/

namespace Sys2Proof.Machine

/-! The row. -/

theorem exec_registerWrite {off : Nat} (h : off < 2 ^ 20) (x : Src) (size : Nat) (v : Dword) (s : State) :
    exec (.registerWrite x off size v) s = .next (s.after (putReg x off size v.toNat s.env s.chip)) := by
  show Host.Outcome.next (s.after (putReg x (off % 2 ^ 20) size v.toNat s.env s.chip)) = _
  rw [Nat.mod_eq_of_lt h]

/-- A write reaches the registers, and after one at LAMP_CFG's place the power controller looks at the stacks. -/
theorem putReg_up {x : Src} {s : State} (h : I3cUp s x) (off size v : Nat) (e : Env) :
    putReg x off size v e s.chip = (if off = 0x31000 then lampReviews else id) (regWrite e s.chip x off size v) := by
  have hup : ¬(x = .i3c ∧ i3cAwake s.chip = false) := fun hx => by rw [h hx.1] at hx; exact absurd hx.2 (by decide)
  unfold putReg
  rw [if_neg hup]
  by_cases hl : off = 0x31000
  · rw [if_pos hl, if_pos hl]
  · rw [if_neg hl, if_neg hl]; rfl

/-! Writes that no register takes (R404, R406, R407). -/

section
variable {e : Env} {c : Chip} {x : Src} {off size v : Nat}

theorem regWrite_unmapped (h : regAt off = none) : regWrite e c x off size v = countUnmapped c := by unfold regWrite; rw [h]

variable {r : Reg} {b w : Nat} (h : regAt off = some (r, b, w))
include h

/-- A write whose source may not write the register, or that comes before READY. -/
theorem regWrite_barred (hb : mayWrite (regWriters r) x = false ∨ (c.boot.ready = false ∧ r ≠ .bootCtl)) :
    regWrite e c x off size v = countUnmapped c := by unfold regWrite; rw [h]; exact if_pos hb

/-- What an allowed write does, by its size and its place (R408, R409). -/
theorem regWrite_allowed (hb : ¬(mayWrite (regWriters r) x = false ∨ (c.boot.ready = false ∧ r ≠ .bootCtl))) :
    regWrite e c x off size v =
      if size = w ∧ off = b then regPut e c r (v % 2 ^ (8 * w))
      else if w = 8 ∧ size = 4 ∧ off = b then { c with halves := tset c.halves (halfKey x b) (v % 2 ^ 32) }
      else if w = 8 ∧ size = 4 ∧ off = b + 4 then regPut e { c with halves := tdel c.halves (halfKey x b) } r
        (v % 2 ^ 32 * 2 ^ 32 + (tfind c.halves (halfKey x b)).getD (regValue e c r % 2 ^ 32))
      else countUnmapped c := by unfold regWrite; rw [h]; exact if_neg hb

/-- A write of another size or alignment. -/
theorem regWrite_misfit (hs : ¬(size = w ∧ off = b) ∧ ¬(w = 8 ∧ size = 4 ∧ (off = b ∨ off = b + 4))) :
    regWrite e c x off size v = countUnmapped c := by
  by_cases hb : mayWrite (regWriters r) x = false ∨ (c.boot.ready = false ∧ r ≠ .bootCtl)
  · exact regWrite_barred h hb
  · obtain ⟨hwhole, hhalf⟩ := hs
    rw [regWrite_allowed h hb, if_neg hwhole, if_neg fun k => hhalf ⟨k.1, k.2.1, .inl k.2.2⟩, if_neg fun k => hhalf ⟨k.1, k.2.1, .inr k.2.2⟩]

end

/-- LAMP_CFG is a register of 4 bytes. -/
theorem regAt_wide {off b : Nat} {r : Reg} (h : regAt off = some (r, b, 8)) : off ≠ 0x31000 := by
  have hlamp : regAt 0x31000 = some (.lampCfg, 0x31000, 4) := by decide
  rintro rfl
  cases hlamp.symm.trans h

/-- Settles O5: a write that no register takes is counted, and nothing else of the chip is written before the controller looks. -/
theorem refusedWriteIsCounted : Obligations.RefusedWriteIsCounted := by
  intro x off size v s hq hi hoff hrefused c
  have hcount : regWrite s.env s.chip x off size v.toNat = c := by
    obtain h | ⟨r, b, w, h, hbar | hearly | hsize⟩ := hrefused
    · exact regWrite_unmapped h
    · exact regWrite_barred h (.inl hbar)
    · exact regWrite_barred h (.inr hearly)
    · exact regWrite_misfit h hsize
  have hput : s.after c = s.put c := State.after_sameHand s c hq ⟨rfl, rfl, rfl⟩
  rw [exec_registerWrite hoff, putReg_up hi, hcount]
  by_cases hl : off = 0x31000
  · rw [if_pos hl, if_pos hl]
  · rw [if_neg hl, if_neg hl]; exact congrArg _ hput

/-- Settles O6: an allowed write by its size and its place. -/
theorem acceptedWriteApplies : Obligations.AcceptedWriteApplies := by
  intro x off size v s r b w hq hi hoff hreg hmay hready
  have hb : ¬(mayWrite (regWriters r) x = false ∨ (s.chip.boot.ready = false ∧ r ≠ .bootCtl)) := by
    rintro (h | ⟨h, hr⟩)
    · rw [hmay] at h; cases h
    · exact hready.elim (fun k => by rw [k] at h; cases h) hr
  have hput := regWrite_allowed (e := s.env) (size := size) (v := v.toNat) hreg hb
  rw [exec_registerWrite hoff, putReg_up hi]
  refine ⟨fun hsize hplace => ?whole, fun hw hsize hplace => ?low, fun hw hsize hplace => ?high⟩
  case whole => rw [hput, if_pos (c := size = w ∧ off = b) ⟨hsize, hplace⟩]
  case low =>
    subst hw hsize
    rw [if_neg (regAt_wide hreg), hput, if_neg (by omega), if_pos ⟨rfl, rfl, hplace⟩]
    exact congrArg _ (State.after_sameHand s _ hq ⟨rfl, rfl, rfl⟩)
  case high =>
    subst hw hsize
    rw [if_neg (regAt_wide hreg), hput, if_neg (by omega), if_neg (by omega), if_pos ⟨rfl, rfl, hplace⟩]
    rfl

end Sys2Proof.Machine
end

section
/-! O13: BOOT_CTL through BAR0 in recovery (12_host.md R305; 18_registers.md R411). -/

namespace Sys2Proof.Machine

/-- An access of the server, over its link, at the place of BOOT_CTL in the status window. -/
theorem hostAccess_bootCtl (e : Env) {c : Chip} (h : c.boot.pcieUp = true) (v : Dword) :
    hostAccess e c .server (Config.statusBase + 0xFFFC) 4 (some v) = if c.boot.code = 3 then writeBootCtl c v.toNat else countUnmapped c := by
  unfold hostAccess
  simp [h, Config.statusBase, Config.setupBase, Config.setupSize]

/-- Settles O13: by the code that BOOT_STAGE reads. -/
theorem recoveryThroughBar0 : Obligations.RecoveryThroughBar0 := by
  intro v s hq hup
  have hexec : exec (.hostAccess .server (Config.statusBase + 0xFFFC) 4 (some v)) s =
      .next (s.after (if s.chip.boot.code = 3 then writeBootCtl s.chip v.toNat else countUnmapped s.chip)) :=
    congrArg (fun c => Host.Outcome.next (s.after c)) (hostAccess_bootCtl s.env hup v)
  refine ⟨fun h => ?waiting, fun h => ?other⟩
  case waiting => rw [hexec, if_pos h]; rfl
  case other => rw [hexec, if_neg h]; exact congrArg _ (State.after_sameHand s _ hq ⟨rfl, rfl, rfl⟩)

end Sys2Proof.Machine
end

section
/-! O8: PART_CFG_n, the assignment of a partition and its key (16_tenancy.md R369, R386; 18_registers.md R415). -/

namespace Sys2Proof.Machine

/-! The rows, each by the chip that it settles. -/

theorem exec_assign (x : Src) (n : Nat) (bands : BitVec 16) (op so kv : Bool) (s : State) :
    exec (.assign x n bands op so kv) s = .next (s.after (putReg x (partCfgOff n) 4 (partCfgWord bands true op so kv) s.env s.chip)) := rfl
theorem exec_unassign (x : Src) (n : Nat) (bands : BitVec 16) (op so kv : Bool) (s : State) :
    exec (.unassign x n bands op so kv) s = .next (s.after (putReg x (partCfgOff n) 4 (partCfgWord bands false op so kv) s.env s.chip)) := rfl

/-! PART_CFG_n: the register and the fields of a value (R369). -/

theorem regAt_partCfg : ∀ n < 16, regAt (partCfgOff n) = some (.partCfg n, partCfgOff n, 4) := by decide

theorem partCfgWord_lt (bands : BitVec 16) (a op so kv : Bool) : partCfgWord bands a op so kv < 2 ^ 32 := by
  have hb := bands.isLt
  have h1 := b2n_le a; have h2 := b2n_le op; have h3 := b2n_le so; have h4 := b2n_le kv
  unfold partCfgWord; omega

theorem putReg_partCfg {x : Src} {s : State} {n : Nat} (hr : s.chip.boot.ready = true) (hx : MachineSrc x) (hi : I3cUp s x) (hn : n < 16)
    (bands : BitVec 16) (a op so kv : Bool) :
    putReg x (partCfgOff n) 4 (partCfgWord bands a op so kv) s.env s.chip = writePartCfg s.chip n (partCfgWord bands a op so kv) := by
  have hoff : partCfgOff n ≠ 0x31000 := by unfold partCfgOff; omega
  rw [putReg_machine hr hx hi (regAt_partCfg n hn) rfl hoff, Nat.mod_eq_of_lt (partCfgWord_lt bands a op so kv)]
  rfl

/-- The fields that a write of PART_CFG_n reads from its value. -/
theorem partCfgWord_fields (bands : BitVec 16) (a op so kv : Bool) :
    let v := partCfgWord bands a op so kv
    bitsOf v 31 16 = bands.toNat ∧ bitOf v 15 = a ∧ bitOf v 14 = op ∧ bitOf v 13 = so ∧ bitOf v 12 = kv := by
  have hb := bands.isLt
  have h1 := b2n_le a; have h2 := b2n_le op; have h3 := b2n_le so; have h4 := b2n_le kv
  refine ⟨?_, bitOf_of_b2n ?_, bitOf_of_b2n ?_, bitOf_of_b2n ?_, bitOf_of_b2n ?_⟩
  · unfold bitsOf partCfgWord; omega
  all_goals unfold partCfgWord; omega

/-! What a write makes of its partition: first the assignment (R369), then SIGNED_ONLY and the key (R415). -/

/-- A partition with the bands and the operator flag of a value, which a partition in state 0 takes. -/
def Part.offered (p : Part) (bands : BitVec 16) (op : Bool) : Part := { p with bands := bands, operator := op }

/-- The key of a partition is a point of the curve (R386). -/
def Part.onCurve (p : Part) : Bool := ecOn (beNat ((beBytes 96 p.key.toNat).take 48)) (beNat ((beBytes 96 p.key.toNat).drop 48))

/-- A partition after a write of KEY_VALID. -/
def Part.keyed (p : Part) (kv : Bool) : Part :=
  if kv == p.keyValid then p
  else if kv then (if p.state = 1 ∧ p.onCurve = true then { p with keyValid := true } else { p with err := true })
  else if p.state = 1 then { p with keyValid := false } else p

/-- A partition with SIGNED_ONLY and KEY_VALID written. -/
def Part.settled (so kv : Bool) (p : Part) : Part := Part.keyed { p with signedOnly := so } kv

theorem Part.keyed_same {p : Part} {kv : Bool} (h : kv = p.keyValid) : p.keyed kv = p := if_pos (by rw [h]; exact beq_self_eq_true _)

/-- Outside state 1 a key is not accepted, and stays accepted. -/
theorem Part.keyed_unassigned {p : Part} (h : p.state ≠ 1) (kv : Bool) : p.keyed kv = { p with err := p.err || (kv && !p.keyValid) } := by
  unfold Part.keyed
  cases kv <;> cases hk : p.keyValid <;> simp [h] <;> rw [← hk]

/-- A write of KEY_VALID keeps all but KEY_VALID and ERR, and clears no ERR. -/
theorem Part.keyed_keeps (p : Part) (kv : Bool) : ∃ k e, p.keyed kv = { p with keyValid := k, err := e } ∧ (p.err = true → e = true) := by
  unfold Part.keyed
  split_ifs
  · exact ⟨p.keyValid, p.err, rfl, id⟩
  · exact ⟨true, p.err, rfl, id⟩
  · exact ⟨p.keyValid, true, rfl, fun _ => rfl⟩
  · exact ⟨false, p.err, rfl, id⟩
  · exact ⟨p.keyValid, p.err, rfl, id⟩

theorem Part.keyed_accepts {p : Part} (hs : p.state = 1) (hk : p.keyValid = false) (hc : p.onCurve = true) : p.keyed true = { p with keyValid := true } := by
  unfold Part.keyed; simp [hs, hk, hc]

theorem Part.keyed_refuses {p : Part} (hk : p.keyValid = false) (hc : p.onCurve = false) : p.keyed true = { p with err := true } := by
  unfold Part.keyed; simp [hk, hc]

theorem Part.keyed_clears {p : Part} (hs : p.state = 1) (hk : p.keyValid = true) : p.keyed false = { p with keyValid := false } := by
  unfold Part.keyed; simp [hs, hk]

section Settled
variable {p : Part} (so : Bool) {kv : Bool}

theorem Part.settled_same (h : kv = p.keyValid) : Part.settled so kv p = { p with signedOnly := so } := Part.keyed_same h

theorem Part.settled_unassigned (h : p.state ≠ 1) (kv : Bool) :
    Part.settled so kv p = { p with signedOnly := so, err := p.err || (kv && !p.keyValid) } :=
  Part.keyed_unassigned (p := { p with signedOnly := so }) h kv

theorem Part.settled_keeps (p : Part) (kv : Bool) :
    ∃ k e, Part.settled so kv p = { p with signedOnly := so, keyValid := k, err := e } ∧ (p.err = true → e = true) := Part.keyed_keeps _ kv

end Settled

/-- Two writes of a partition are one. -/
theorem onPart_onPart (c : Chip) (n : Nat) (f g : Part → Part) : onPart (onPart c n f) n g = onPart c n (fun p => g (f p)) := by
  unfold onPart tupd
  simp only [tset_tset, tget_tset, if_pos]

/-- Only what is made of the partition that stands there counts. -/
theorem onPart_congr {c : Chip} {n : Nat} {f g : Part → Part} (h : f (part c n) = g (part c n)) : onPart c n f = onPart c n g := by
  unfold part at h; unfold onPart tupd; rw [h]

/-- What the assignment makes of the package. -/
def assignStage (c : Chip) (n : Nat) (bands : BitVec 16) (a op : Bool) : Chip :=
  let c1 := if (part c n).state = 0 then onPart c n (fun p => p.offered bands op) else c
  if a == ((part c n).state != 0) then c1
  else if a then assignPart c1 n
  else if (part c n).state = 1 ∧ programOn c1 n = false then onPart c1 n (fun p => { p with state := 0 })
  else onPart c1 n (fun p => { p with err := true })

/-- What KEY_VALID makes of the package. -/
def keyStage (c : Chip) (n : Nat) (kv : Bool) : Chip :=
  let q := part c n
  if kv == q.keyValid then c
  else if kv then (if q.state = 1 ∧ q.onCurve = true then onPart c n (fun p => { p with keyValid := true }) else onPart c n (fun p => { p with err := true }))
  else if q.state = 1 then onPart c n (fun p => { p with keyValid := false })
  else c

theorem keyStage_onPart (c : Chip) (n : Nat) (f : Part → Part) (kv : Bool) : keyStage (onPart c n f) n kv = onPart c n (fun p => (f p).keyed kv) := by
  have hq : part (onPart c n f) n = f (part c n) := by rw [part_onPart, if_pos rfl]
  unfold keyStage
  simp only [hq, onPart_onPart]
  split_ifs with hsame hkv hok hst
  all_goals refine onPart_congr (Eq.symm ?_)
  · exact if_pos hsame
  · exact (if_neg hsame).trans ((if_pos hkv).trans (if_pos hok))
  · exact (if_neg hsame).trans ((if_pos hkv).trans (if_neg hok))
  · exact (if_neg hsame).trans ((if_neg hkv).trans (if_pos hst))
  · exact (if_neg hsame).trans ((if_neg hkv).trans (if_neg hst))

/-- A write of PART_CFG_n is the assignment, and then SIGNED_ONLY and KEY_VALID of the partition. -/
theorem writePartCfg_eq (c : Chip) (n : Nat) (bands : BitVec 16) (a op so kv : Bool) :
    writePartCfg c n (partCfgWord bands a op so kv) = onPart (assignStage c n bands a op) n (Part.settled so kv) := by
  obtain ⟨h31, h15, h14, h13, h12⟩ := partCfgWord_fields bands a op so kv
  have hstages : writePartCfg c n (partCfgWord bands a op so kv) =
      keyStage (onPart (assignStage c n bands a op) n (fun p => { p with signedOnly := so })) n kv := by
    unfold writePartCfg
    simp only [h31, h15, h14, h13, h12, BitVec.ofNat_toNat, BitVec.setWidth_eq]
    rfl
  exact hstages.trans (keyStage_onPart _ _ _ _)

/-! The assignment, by what it asks and what the partition and the others are (R369). -/

section Stage
variable {c : Chip} {n : Nat} {bands : BitVec 16} (op : Bool)

/-- An ASSIGN that is what it reads, on an assigned partition. -/
theorem assignStage_keeps (bands : BitVec 16) (h : (part c n).state ≠ 0) : assignStage c n bands true op = c := by
  unfold assignStage; simp [h]

/-- An ASSIGN that is what it reads, on a free partition, which takes the bands. -/
theorem assignStage_offers (bands : BitVec 16) (h : (part c n).state = 0) :
    assignStage c n bands false op = onPart c n (fun p => p.offered bands op) := by unfold assignStage; simp [h]

/-- The band of no other assigned partition is asked for. -/
def bandsFree (c : Chip) (n : Nat) (bands : BitVec 16) : Prop :=
  ∀ m < 16, m ≠ n → (part c m).state ≠ 0 → (part c m).bands &&& bands = 0

/-- An assigned partition: state 1, the handle sequence at 1. -/
def Part.assigned (p : Part) : Part := { p with state := 1, err := false, seq := 1 }

/-- The rings of a partition disabled. -/
def ringsOff (c : Chip) (n : Nat) : Chip :=
  { c with rings := c.rings.map (fun r => if r.1 / 256 = n then (r.1, { r.2 with enable := false }) else r) }

theorem sameHand_ringsOff (c : Chip) (n : Nat) : c.SameHand (ringsOff c n) := ⟨rfl, rfl, rfl⟩

theorem assignStage_asks (h : (part c n).state = 0) : assignStage c n bands true op = assignPart (onPart c n (fun p => p.offered bands op)) n := by
  unfold assignStage; simp [h]

theorem bandsTaken_iff : ((List.range 16).any (fun m => m != n && (part (onPart c n (fun p => p.offered bands op)) m).state != 0 &&
    (part (onPart c n (fun p => p.offered bands op)) m).bands &&& bands != 0) = true) ↔
    ∃ m < 16, m ≠ n ∧ (part c m).state ≠ 0 ∧ (part c m).bands &&& bands ≠ 0 := by
  rw [List.any_eq_true]
  constructor
  · rintro ⟨m, hm, h⟩
    simp only [Bool.and_eq_true, bne_iff_ne, part_onPart] at h
    obtain ⟨⟨hne, hs⟩, hb⟩ := h
    rw [if_neg hne] at hs hb
    exact ⟨m, List.mem_range.mp hm, hne, hs, hb⟩
  · rintro ⟨m, hm, hne, hs, hb⟩
    refine ⟨m, List.mem_range.mpr hm, ?_⟩
    simp only [Bool.and_eq_true, bne_iff_ne, part_onPart, if_neg hne]
    exact ⟨⟨hne, hs⟩, hb⟩

theorem assignStage_assigns (h : (part c n).state = 0) (hb : bands ≠ 0) (ht : (part c n).tenant ≠ 0) (hf : bandsFree c n bands) :
    assignStage c n bands true op = ringsOff (onPart c n (fun p => (p.offered bands op).assigned)) n := by
  have hp : part (onPart c n (fun p => p.offered bands op)) n = (part c n).offered bands op := by rw [part_onPart, if_pos rfl]
  rw [assignStage_asks op h]
  unfold assignPart
  rw [hp, if_neg]
  · simp only [onPart_onPart]; rfl
  · rintro (hz | htaken | hten)
    · exact hb hz
    · obtain ⟨m, hm, hne, hs, hx⟩ := (bandsTaken_iff op).mp htaken
      exact hx (hf m hm hne hs)
    · exact ht hten

theorem assignStage_refuses (h : (part c n).state = 0)
    (hr : bands = 0 ∨ (part c n).tenant = 0 ∨ ∃ m < 16, m ≠ n ∧ (part c m).state ≠ 0 ∧ (part c m).bands &&& bands ≠ 0) :
    assignStage c n bands true op = onPart c n (fun p => { p.offered bands op with err := true }) := by
  have hp : part (onPart c n (fun p => p.offered bands op)) n = (part c n).offered bands op := by rw [part_onPart, if_pos rfl]
  rw [assignStage_asks op h]
  unfold assignPart
  rw [hp, if_pos, onPart_onPart]
  obtain hz | hten | htaken := hr
  · exact .inl hz
  · exact .inr (.inr hten)
  · exact .inr (.inl ((bandsTaken_iff op).mpr htaken))

/-- A partition in state 1 with no program on its bands is free again. -/
theorem assignStage_frees (bands : BitVec 16) (h : (part c n).state = 1) (hp : programOn c n = false) :
    assignStage c n bands false op = onPart c n (fun p => { p with state := 0 }) := by unfold assignStage; simp [h, hp]

/-- Any other assigned partition keeps its state, with ERR. -/
theorem assignStage_stays (bands : BitVec 16) (h : (part c n).state ≠ 0) (hp : (part c n).state = 1 → programOn c n = true) :
    assignStage c n bands false op = onPart c n (fun p => { p with err := true }) := by
  have hno : ¬((part c n).state = 1 ∧ programOn c n = false) := fun hx => by rw [hp hx.1] at hx; exact absurd hx.2 (by decide)
  unfold assignStage; simp [h, hno]

end Stage

/-! Rings disabled (R369). -/

theorem tfind_map {α : Type} (F : Nat × α → Nat × α) (g : Nat → α → α) (hF : ∀ x, F x = (x.1, g x.1 x.2)) (t : Tab α) (k : Nat) :
    tfind (t.map F) k = (tfind t k).map (g k) := by
  induction t with
  | nil => rfl
  | cons a r ih =>
    rw [List.map_cons, hF a]
    by_cases h : a.1 = k
    · simp [tfind, h]
    · simp only [tfind, if_neg h]; exact ih

theorem ringsOff_disabled (c : Chip) (n : Nat) {i : Nat} (hi : i < 256) : (ring (ringsOff c n) (ringKey n i)).enable = false := by
  have hkey : ringKey n i / 256 = n := by unfold ringKey; omega
  have hmap := tfind_map (fun r : Nat × Ring => if r.1 / 256 = n then (r.1, { r.2 with enable := false }) else r)
    (fun k r => if k / 256 = n then { r with enable := false } else r) (fun x => by split <;> simp_all) c.rings (ringKey n i)
  unfold ring tget ringsOff
  rw [hmap]
  cases tfind c.rings (ringKey n i) with
  | none => rfl
  | some r => simp [hkey]

/-- A write of one partition, as the state shows it. -/
theorem State.after_onPart {s : State} {c : Chip} (hq : s.quiet) (h : s.chip.SameHand c) (n : Nat) (f : Part → Part) :
    s.after (onPart c n f) = s.put (onPart c n f) := State.after_sameHand s _ hq (h.trans (sameHand_onPart c n f))

/-- Settles O8: the assignment by what it asks and what the partition is, and then the key. -/
theorem partitionAssignment : Obligations.PartitionAssignment := by
  intro x n bands op so kv s hq hr hx hi hn
  have hassign : exec (.assign x n bands op so kv) s = .next (s.after (onPart (assignStage s.chip n bands true op) n (Part.settled so kv))) := by
    rw [exec_assign, putReg_partCfg hr hx hi hn, writePartCfg_eq]
  have hunassign : exec (.unassign x n bands op so kv) s = .next (s.after (onPart (assignStage s.chip n bands false op) n (Part.settled so kv))) := by
    rw [exec_unassign, putReg_partCfg hr hx hi hn, writePartCfg_eq]
  have hone (f : Part → Part) : part (s.after (onPart s.chip n f)).chip n = f (part s.chip n) ∧
      (∀ m, m ≠ n → part (s.after (onPart s.chip n f)).chip m = part s.chip m) := by
    rw [State.after_onPart hq (.refl s.chip)]
    exact ⟨(part_onPart s.chip n n f).trans (if_pos rfl), fun m hm => (part_onPart s.chip n m f).trans (if_neg hm)⟩
  refine ⟨fun h0 hb ht hf => ?assigned, fun h0 hbad => ?refused, fun h1 hp => ?freed, fun h => ?stays, fun hkv => ⟨fun h => ?kept, fun h0 => ?offered⟩⟩
  case assigned =>
    obtain ⟨k, e, hset, _⟩ := Part.settled_keeps so ((part s.chip n).offered bands op).assigned kv
    have hpart (m : Nat) : part (ringsOff (onPart s.chip n (fun p => (p.offered bands op).assigned)) n) m =
        part (onPart s.chip n (fun p => (p.offered bands op).assigned)) m := rfl
    rw [hassign, assignStage_assigns op h0 hb ht hf, State.after_onPart hq ((sameHand_onPart _ _ _).trans (sameHand_ringsOff _ _))]
    refine ⟨_, rfl, ?_⟩
    simp only [State.put_chip, State.put_mem, part_onPart, hpart, if_pos]
    exact ⟨congrArg Part.state hset, congrArg Part.bands hset, congrArg Part.operator hset, congrArg Part.signedOnly hset, congrArg Part.seq hset,
      fun hkv => congrArg Part.err (Part.settled_same (p := ((part s.chip n).offered bands op).assigned) so hkv),
      fun i hi => ringsOff_disabled _ n hi, fun m hm => by rw [if_neg hm, if_neg hm], trivial⟩
  case refused =>
    obtain ⟨k, e, hset, herr⟩ := Part.settled_keeps so { (part s.chip n).offered bands op with err := true } kv
    rw [hassign, assignStage_refuses op h0 hbad, onPart_onPart]
    refine ⟨_, rfl, ?_, ?_, ?_⟩
    · rw [(hone _).1, hset]; exact h0
    · rw [(hone _).1, hset]; exact herr rfl
    · rw [State.after_onPart hq (.refl s.chip)]; rfl
  case freed =>
    rw [hunassign, assignStage_frees op bands h1 hp, onPart_onPart]
    exact ⟨_, rfl, (hone _).1.trans (Part.settled_unassigned so Nat.zero_ne_one kv), (hone _).2⟩
  case stays =>
    have hne : (part s.chip n).state ≠ 0 := by omega
    have hprog : (part s.chip n).state = 1 → programOn s.chip n = true := fun h1 => by
      obtain ⟨_, hp, _⟩ | h2 | h3 := h
      · exact hp
      · omega
      · omega
    rw [hunassign, assignStage_stays op bands hne hprog, onPart_onPart]
    refine ⟨_, rfl, (hone _).1.trans ?_⟩
    obtain ⟨_, _, hkv⟩ | h23 := h
    · exact Part.settled_same so hkv
    · exact Part.settled_unassigned (p := { part s.chip n with err := true }) so (show (part s.chip n).state ≠ 1 by omega) kv
  case kept =>
    rw [hassign, assignStage_keeps op bands h]
    refine ⟨_, rfl, (hone _).1.trans (Part.settled_same so hkv), (hone _).2, ?_⟩
    rw [State.after_onPart hq (.refl s.chip)]; rfl
  case offered =>
    rw [hunassign, assignStage_offers op bands h0, onPart_onPart]
    exact ⟨_, rfl, (hone _).1.trans (Part.settled_same so hkv), (hone _).2⟩

end Sys2Proof.Machine
end

section
/-! O9: partition keys, adapter catalogues and aperture windows (16_tenancy.md R369, R386; 18_registers.md R413-R415). -/

namespace Sys2Proof.Machine

/-! The rows, each by the chip that it settles. -/

theorem exec_keyValid (x : Src) (n : Nat) (so : Bool) (s : State) :
    exec (.keyValid x n so) s = .next (s.after (keyWrite x n so true s.env s.chip)) := rfl
theorem exec_keyValidClear (x : Src) (n : Nat) (so : Bool) (s : State) :
    exec (.keyValidClear x n so) s = .next (s.after (keyWrite x n so false s.env s.chip)) := rfl
theorem exec_partCatalog {n : Nat} (h : n < 16) (x : Src) (v : Dword) (s : State) :
    exec (.partCatalog x n v) s = .next (s.after (putReg x (0x10080 + 8 * n) 8 v.toNat s.env s.chip)) := by
  show Host.Outcome.next (s.after (putReg x (0x10080 + 8 * (n % 16)) 8 v.toNat s.env s.chip)) = _
  rw [Nat.mod_eq_of_lt h]
theorem exec_partAper {w : Nat} (h : w < 448) (x : Src) (v : Dword) (s : State) :
    exec (.partAper x w v) s = .next (s.after (putReg x (0x11000 + 8 * w) 8 v.toNat s.env s.chip)) := by
  show Host.Outcome.next (s.after (putReg x (0x11000 + 8 * (w % 448)) 8 v.toNat s.env s.chip)) = _
  rw [Nat.mod_eq_of_lt h]

/-! The registers (R407, R412). -/

theorem rowAt_outside {off : Nat} {r : RegRow} (h : off < r.base ∨ r.base + r.stride * r.count ≤ off) : rowAt off r = none := if_neg (by omega)

/-- An entry of a row whose entries stand without gaps. -/
theorem rowAt_entry {r : RegRow} {i : Nat} (hi : i < r.count) (hs : r.stride = r.width) (hw : 0 < r.width) :
    rowAt (r.base + r.stride * i) r = some (r.reg i, r.base + r.stride * i, r.width) := by
  have hlt : r.stride * i < r.stride * r.count := Nat.mul_lt_mul_of_pos_left hi (hs ▸ hw)
  have hidx : (r.base + r.stride * i - r.base) / r.stride = i := by rw [Nat.add_sub_cancel_left, Nat.mul_div_cancel_left _ (hs ▸ hw)]
  unfold rowAt
  rw [if_pos ⟨by omega, by omega⟩]
  simp only [hidx]
  exact if_pos (by omega)

theorem regAt_partCatalog : ∀ n < 16, regAt (0x10080 + 8 * n) = some (.partCatalog n, 0x10080 + 8 * n, 8) := by decide

/-- No row before that of the aperture windows holds the place of one, and no ring register does. -/
theorem regAt_partAper {w : Nat} (h : w < 448) : regAt (0x11000 + 8 * w) = some (.partAper w, 0x11000 + 8 * w, 8) := by
  have hring : ringRegAt (0x11000 + 8 * w) = none := if_neg (by omega)
  have hrow : rowAt (0x11000 + 8 * w) ⟨0x11000, 8, 448, 8, .partAper⟩ = some (.partAper w, 0x11000 + 8 * w, 8) :=
    rowAt_entry (r := ⟨0x11000, 8, 448, 8, .partAper⟩) h rfl (by decide)
  unfold regAt
  rw [hring]
  simp only [regRowsA, List.cons_append, List.findSome?_cons, hrow]
  repeat rw [rowAt_outside (by right; simp only []; omega)]

/-- A whole write of a register of 8 bytes that a machine-mode hart or the I3C port may write. -/
theorem putReg_machine8 {x : Src} {s : State} {r : Reg} {off : Nat} (hr : s.chip.boot.ready = true) (hx : MachineSrc x) (hi : I3cUp s x)
    (hreg : regAt off = some (r, off, 8)) (hw : regWriters r = .m) (v : Dword) : putReg x off 8 v.toNat s.env s.chip = regPut s.env s.chip r v.toNat := by
  have hv : v.toNat % 2 ^ (8 * 8) = v.toNat := Nat.mod_eq_of_lt v.isLt
  rw [putReg_whole hreg (by rw [hw]; exact mayWrite_m hx) (.inl hr) (regAt_wide hreg) hi, hv]

/-! Keys (R386, R415). -/

/-- A write of KEY_VALID with the other fields as they read, in state 1. -/
theorem keyWrite_assigned {x : Src} {s : State} {n : Nat} (hr : s.chip.boot.ready = true) (hx : MachineSrc x) (hi : I3cUp s x) (hn : n < 16)
    (h1 : (part s.chip n).state = 1) (so kv : Bool) : keyWrite x n so kv s.env s.chip = onPart s.chip n (Part.settled so kv) := by
  have hassigned : ((part s.chip n).state != 0) = true := by rw [h1]; rfl
  unfold keyWrite
  simp only [Nat.mod_eq_of_lt hn, hassigned]
  rw [putReg_partCfg hr hx hi hn, writePartCfg_eq, assignStage_keeps _ _ (by rw [h1]; decide)]

/-! Catalogues (R413). -/

/-- The extent that a value names. -/
abbrev catalogOk (c : Chip) (n v : Nat) : Prop := bitsOf v 63 40 = 0 ∨ tierOk c [n] (bitsOf v 39 5 * 32) (32 * bitsOf v 63 40) = true

theorem writeCatalog_eq (c : Chip) (n v : Nat) : writeCatalog c n v =
    if (part c n).state = 1 ∧ catalogOk c n v then onPart c n (fun p => { p with catalog := BitVec.ofNat 64 (v / 32 * 32) }) else countDenied c := by
  have hcount : bitsOf (v / 32 * 32) 63 40 = bitsOf v 63 40 := by unfold bitsOf; omega
  have hplace : bitsOf (v / 32 * 32) 39 5 = bitsOf v 39 5 := by unfold bitsOf; omega
  unfold writeCatalog
  simp only [hcount, hplace]

/-! Aperture windows (R414). -/

/-- The word of a window. -/
def aperWord (c : Chip) (w : Nat) : Nat := (tget 0#64 c.aper w).toNat

/-- The fields of a value that a window keeps. -/
def aperKept (v : Nat) : Nat := v / 2 ^ 30 * 2 ^ 30 + v % 32

theorem aperKept_fields (v : Nat) : bitOf (aperKept v) 4 = bitOf v 4 ∧ aperKept v % 16 = v % 16 := by
  unfold aperKept bitOf
  have : (v / 2 ^ 30 * 2 ^ 30 + v % 32) / 2 ^ 4 % 2 = v / 2 ^ 4 % 2 := by omega
  exact ⟨by rw [this], by omega⟩

theorem aperPart_eq (c : Chip) (w : Nat) : aperPart c w = if bitOf (aperWord c w) 4 then some (aperWord c w % 16) else none := rfl

section Aper
variable {c : Chip} {w v : Nat}

theorem writeAper_eq : writeAper c w v =
    if bitOf (aperWord c w) 4 then
      if bitOf v 4 then (if aperKept v = aperWord c w then c else countDenied c)
      else if windowUsed c w (aperWord c w % 16) then countDenied c
      else { c with aper := tset c.aper w (BitVec.ofNat 64 (aperWord c w - 16)) }
    else if bitOf v 4 && (part c (v % 16)).state != 1 then countDenied c
    else { c with aper := tset c.aper w (BitVec.ofNat 64 (aperKept v)) } := by
  obtain ⟨h4, h16⟩ := aperKept_fields v
  unfold writeAper
  show (if bitOf (aperWord c w) 4 = true then (if bitOf (aperKept v) 4 = true then _ else _) else _) = _
  rw [← h4, ← h16]; rfl

/-- A package with another word in a window. -/
def aperSet (c : Chip) (w x : Nat) : Chip := { c with aper := tset c.aper w (BitVec.ofNat 64 x) }

theorem writeAper_takes (h : bitOf (aperWord c w) 4 = false) (hv : bitOf v 4 = true) (hs : (part c (v % 16)).state = 1) :
    writeAper c w v = aperSet c w (aperKept v) := by rw [writeAper_eq]; simp [h, hv, hs, aperSet]

theorem writeAper_leaves (h : bitOf (aperWord c w) 4 = true) (hv : bitOf v 4 = false) (hu : windowUsed c w (aperWord c w % 16) = false) :
    writeAper c w v = aperSet c w (aperWord c w - 16) := by rw [writeAper_eq]; simp [h, hv, hu, aperSet]

/-- A window for a partition that may not have it, one that is used, and one that is valid with another word. -/
theorem writeAper_denied (h : bitOf (aperWord c w) 4 = false ∧ bitOf v 4 = true ∧ (part c (v % 16)).state ≠ 1 ∨
    bitOf (aperWord c w) 4 = true ∧ bitOf v 4 = false ∧ windowUsed c w (aperWord c w % 16) = true ∨
    bitOf (aperWord c w) 4 = true ∧ bitOf v 4 = true ∧ aperWord c w ≠ aperKept v) : writeAper c w v = countDenied c := by
  rw [writeAper_eq]
  obtain ⟨h4, hv, hs⟩ | ⟨h4, hv, hu⟩ | ⟨h4, hv, hne⟩ := h
  · simp [h4, hv, hs]
  · simp [h4, hv, hu]
  · simp [h4, hv, hne.symm]

theorem aperPart_none_iff : aperPart c w = none ↔ bitOf (aperWord c w) 4 = false := by
  rw [aperPart_eq]; cases bitOf (aperWord c w) 4 <;> simp

theorem aperPart_some_iff {n : Nat} : aperPart c w = some n ↔ bitOf (aperWord c w) 4 = true ∧ aperWord c w % 16 = n := by
  rw [aperPart_eq]; cases bitOf (aperWord c w) 4 <;> simp

/-- A window after its word is written, and the others. -/
theorem aperPart_aperSet (c : Chip) (w : Nat) {x : Nat} (hx : x < 2 ^ 64) :
    aperPart (aperSet c w x) w = (if bitOf x 4 then some (x % 16) else none) ∧ ∀ u, u ≠ w → aperPart (aperSet c w x) u = aperPart c u := by
  have hw : (BitVec.ofNat 64 x).toNat = x := by rw [BitVec.toNat_ofNat]; exact Nat.mod_eq_of_lt hx
  refine ⟨?_, fun u hu => ?_⟩
  · unfold aperPart aperSet; simp only [tget_tset, if_pos, hw]
  · unfold aperPart aperSet; simp only [tget_tset, if_neg hu]

end Aper

/-- Settles O9: the key by the partition alone, catalogue and window by the conditions of their writes. -/
theorem partitionKeyAndWindows : Obligations.PartitionKeyAndWindows := by
  refine ⟨?keys, ?catalogs, ?windows⟩
  case keys =>
    intro x n so s hq hr hx hi hn h1
    have hpart (kv : Bool) : part (s.after (keyWrite x n so kv s.env s.chip)).chip n = Part.settled so kv (part s.chip n) := by
      rw [keyWrite_assigned hr hx hi hn h1, State.after_onPart hq (.refl s.chip)]
      exact (part_onPart s.chip n n _).trans (if_pos rfl)
    refine ⟨fun hk hc => ⟨_, exec_keyValid x n so s, (hpart true).trans ?_⟩, fun hk hc => ⟨_, exec_keyValid x n so s, (hpart true).trans ?_⟩,
      fun hk => ⟨_, exec_keyValidClear x n so s, (hpart false).trans ?_⟩⟩
    · exact Part.keyed_accepts (p := { part s.chip n with signedOnly := so }) h1 hk hc
    · exact Part.keyed_refuses (p := { part s.chip n with signedOnly := so }) hk hc
    · exact Part.keyed_clears (p := { part s.chip n with signedOnly := so }) h1 hk
  case catalogs =>
    intro x n v s hq hr hx hi hn
    have hexec : exec (.partCatalog x n v) s = .next (s.after (if (part s.chip n).state = 1 ∧ catalogOk s.chip n v.toNat then
        onPart s.chip n (fun p => { p with catalog := BitVec.ofNat 64 (v.toNat / 32 * 32) }) else countDenied s.chip)) := by
      rw [exec_partCatalog hn, putReg_machine8 hr hx hi (regAt_partCatalog n hn) rfl, ← writeCatalog_eq]; rfl
    refine ⟨fun h1 hok => ?_, fun hbad => ?_⟩
    · rw [hexec, if_pos ⟨h1, hok⟩, State.after_onPart hq (.refl s.chip)]
      exact ⟨_, rfl, (part_onPart s.chip n n _).trans (if_pos rfl), rfl⟩
    · have hno : ¬((part s.chip n).state = 1 ∧ catalogOk s.chip n v.toNat) := by
        rintro ⟨h1, h0 | hok⟩ <;> obtain hs | ⟨hc, ht⟩ := hbad
        · exact hs h1
        · exact hc h0
        · exact hs h1
        · rw [hok] at ht; cases ht
      rw [hexec, if_neg hno]; exact congrArg _ (State.after_sameHand s (countDenied s.chip) hq ⟨rfl, rfl, rfl⟩)
  case windows =>
    intro x w v s hq hr hx hi hw
    have hexec {d : Chip} (h : writeAper s.chip w v.toNat = d) (hd : s.chip.SameHand d) : exec (.partAper x w v) s = .next (s.put d) := by
      rw [exec_partAper hw, putReg_machine8 hr hx hi (regAt_partAper hw) rfl, ← State.after_sameHand s d hq hd, ← h]; rfl
    have hset (y : Nat) (h : writeAper s.chip w v.toNat = aperSet s.chip w y) : exec (.partAper x w v) s = .next (s.put (aperSet s.chip w y)) :=
      hexec h ⟨rfl, rfl, rfl⟩
    obtain ⟨hk4, hk16⟩ := aperKept_fields v.toNat
    refine ⟨fun hnone hv hst => ?taken, fun n hsome hv hu => ?left, fun hbad => ?denied⟩
    case taken =>
      have hkept : aperKept v.toNat < 2 ^ 64 := by have := v.isLt; unfold aperKept; omega
      obtain ⟨hself, hothers⟩ := aperPart_aperSet s.chip w hkept
      rw [hk4, hv, hk16] at hself
      exact ⟨_, hset _ (writeAper_takes (aperPart_none_iff.mp hnone) hv hst), hself, hothers, rfl⟩
    case left =>
      obtain ⟨h4, rfl⟩ := aperPart_some_iff.mp hsome
      have hlt : aperWord s.chip w < 2 ^ 64 := (tget 0#64 s.chip.aper w).isLt
      have hclear : bitOf (aperWord s.chip w - 16) 4 = false := by
        have hbit : aperWord s.chip w / 2 ^ 4 % 2 = 1 := by simpa [bitOf] using h4
        have hnext : (aperWord s.chip w - 16) / 2 ^ 4 % 2 = 0 := by omega
        unfold bitOf; rw [hnext]; rfl
      obtain ⟨hself, hothers⟩ := aperPart_aperSet s.chip w (x := aperWord s.chip w - 16) (by omega)
      rw [hclear] at hself
      exact ⟨_, hset _ (writeAper_leaves h4 hv hu), hself, hothers⟩
    case denied =>
      refine hexec (d := countDenied s.chip) (writeAper_denied ?_) ⟨rfl, rfl, rfl⟩
      obtain ⟨hnone, hbits⟩ | ⟨n, hsome, hv, hu⟩ | ⟨hsome, hbits⟩ := hbad
      · exact .inl ⟨aperPart_none_iff.mp hnone, hbits⟩
      · obtain ⟨h4, rfl⟩ := aperPart_some_iff.mp hsome
        exact .inr (.inl ⟨h4, hv, hu⟩)
      · obtain ⟨n, hn⟩ := Option.isSome_iff_exists.mp hsome
        exact .inr (.inr ⟨(aperPart_some_iff.mp hn).1, hbits⟩)

end Sys2Proof.Machine
end
section
/-! O11: the lamp, safety, injection and management registers (15_safety.md R367; 16_tenancy.md R383; 17_power.md R390, R392, R396; 18_registers.md R421, R422, R424). -/

namespace Sys2Proof.Machine

/-! The rows, each by the chip that it settles. -/

theorem exec_maxCap (x : Src) (cap : BitVec 2) (s : State) : exec (.maxCap x cap) s = .next (s.after (putReg x 0x31000 4 cap.toNat s.env s.chip)) := rfl
theorem exec_statClear (x : Src) (cap : BitVec 2) (s : State) :
    exec (.statClear x cap) s = .next (s.after (putReg x 0x31000 4 (cap.toNat + 4) s.env s.chip)) := rfl
theorem exec_safeCntClear (x : Src) (v : Word) (s : State) : exec (.safeCntClear x v) s = .next (s.after (putReg x 0x3200C 4 v.toNat s.env s.chip)) := rfl
theorem exec_arm (x : Src) (k : BitVec 4) (i : BitVec 10) (tag : BitVec 16) (s : State) : exec (.arm x k i tag) s =
    .next (s.after (putReg x 0x32010 4 (2 ^ 31 + k.toNat * 2 ^ 26 + i.toNat * 2 ^ 16 + tag.toNat) s.env s.chip)) := rfl
theorem exec_enterTestState (x : Src) (s : State) : exec (.enterTestState x) s = .next (s.after (putReg x 0x34000 4 1 s.env s.chip)) := rfl
theorem exec_leaveTestState (x : Src) (s : State) : exec (.leaveTestState x) s = .next (s.after (putReg x 0x34000 4 0 s.env s.chip)) := rfl
theorem exec_mgmtLogSel (x : Src) (v : Word) (s : State) : exec (.mgmtLogSel x v) s = .next (s.after (putReg x 0x37004 4 v.toNat s.env s.chip)) := rfl
theorem exec_recoveryGo (x : Src) (s : State) : exec (.recoveryGo x) s = .next (s.after (putReg x 0x02004 4 1 s.env s.chip)) := rfl

/-! LAMP_CFG (R390, R392, R396). -/

/-- A lamp with its counts at zero. -/
def LampSt.cleared (l : LampSt) : LampSt := { l with late := 0, deep := 0, deepRem := 0 }

/-- A write of LAMP_CFG by a source that may write it: the cap, the counts, and the look of the power controller. -/
theorem putReg_lampCfg {x : Src} {s : State} (hr : s.chip.boot.ready = true) (hx : MachineSrc x) (hi : I3cUp s x) {v : Nat} (hv : v < 2 ^ 32) :
    putReg x 0x31000 4 v s.env s.chip = lampReviews (regPut s.env s.chip .lampCfg v) := by
  have hreg : regAt 0x31000 = some (.lampCfg, 0x31000, 4) := by decide
  have hmay : ¬(mayWrite (regWriters .lampCfg) x = false ∨ (s.chip.boot.ready = false ∧ Reg.lampCfg ≠ .bootCtl)) := by
    rw [show mayWrite (regWriters .lampCfg) x = true from mayWrite_m hx, hr]; decide
  rw [putReg_up hi, if_pos rfl, regWrite_allowed hreg hmay, if_pos ⟨rfl, rfl⟩, Nat.mod_eq_of_lt hv]

/-- A package with another cap, and one with its lamp counts at zero. -/
def Chip.capped (c : Chip) (m : Nat) : Chip := { c with maxCap := m }
def Chip.statCleared (c : Chip) : Chip := { c with lamps := c.lamps.map (fun l => (l.1, l.2.cleared)) }

theorem sameHand_capped (c : Chip) (m : Nat) : c.SameHand (c.capped m) := ⟨rfl, rfl, rfl⟩
theorem sameHand_statCleared (c : Chip) : c.SameHand c.statCleared := ⟨rfl, rfl, rfl⟩

theorem regPut_lampCfg_cap (e : Env) (c : Chip) {v : Nat} (h : v < 4) : regPut e c .lampCfg v = c.capped v := by
  have hbit : ¬ bitOf v 2 = true := by
    have h0 : v / 2 ^ 2 % 2 = 0 := by omega
    unfold bitOf; rw [h0]; decide
  have hcap : v % 4 = v := Nat.mod_eq_of_lt h
  unfold regPut; simp only [if_neg hbit, hcap]; rfl

theorem regPut_lampCfg_clear (e : Env) (c : Chip) {m : Nat} (h : m < 4) : regPut e c .lampCfg (m + 4) = (c.capped m).statCleared := by
  have hbit : bitOf (m + 4) 2 = true := by
    have h1 : (m + 4) / 2 ^ 2 % 2 = 1 := by omega
    unfold bitOf; rw [h1]; rfl
  have hcap : (m + 4) % 4 = m := by omega
  unfold regPut; simp only [if_pos hbit, hcap]; rfl

theorem lamp_statCleared (c : Chip) (k : Nat) : (lamp c.statCleared k).late = 0 := by
  have hmap := tfind_map (fun l : Nat × LampSt => (l.1, l.2.cleared)) (fun _ l => l.cleared) (fun _ => rfl) c.lamps k
  unfold lamp tget Chip.statCleared
  rw [hmap]
  cases tfind c.lamps k <;> rfl

@[simp] theorem lampReviews_cores (c : Chip) : (lampReviews c).cores = c.cores := (lampsOnly_lampReviews c).on Chip.cores
@[simp] theorem lampReviews_maxCap (c : Chip) : (lampReviews c).maxCap = c.maxCap := (lampsOnly_lampReviews c).on Chip.maxCap

/-! SAFE_INJECT_CTL and FOG_CTL (R367, R422). -/

theorem deviceState_eq_one {c : Chip} (h : deviceState c = 1) :
    c.boot.failed = false ∧ c.boot.ready = true ∧ c.boot.halted = false ∧ c.boot.test = false := by
  unfold deviceState at h
  cases hf : c.boot.failed <;> cases hr : c.boot.ready <;> cases hh : c.boot.halted <;> cases ht : c.boot.test <;> simp_all

theorem writeFogCtl_enters {c : Chip} (h : deviceState c = 1) : writeFogCtl c 1 = onBoot c (fun b => { b with test := true }) := if_pos h
theorem writeFogCtl_barred {c : Chip} (h : deviceState c ≠ 1) : writeFogCtl c 1 = c := if_neg h
theorem writeFogCtl_leaves {c : Chip} (h : c.boot.test = true) : writeFogCtl c 0 = leaveTest c := if_pos h

theorem leaveTest_fogActive (c : Chip) : fogActive (leaveTest c) = false := by
  unfold fogActive leaveTest
  simp [List.any_map, Fog.off]

/-- The word of an injection after a write, where a write of ARM counts in test state alone. -/
def armWord (test : Bool) (old v : Nat) : Nat :=
  b2n (if test then bitOf v 31 else bitOf old 31) * 2 ^ 31 + b2n (bitOf old 30 && !(bitOf v 30)) * 2 ^ 30 + v % 2 ^ 30

theorem writeInject_injCtl (c : Chip) (v : Nat) : (writeInject c v).safe.injCtl.toNat = armWord c.boot.test c.safe.injCtl.toNat v := by
  have h1 := b2n_le (if c.boot.test then bitOf v 31 else bitOf c.safe.injCtl.toNat 31)
  have h2 := b2n_le (bitOf c.safe.injCtl.toNat 30 && !(bitOf v 30))
  show (BitVec.ofNat 32 (armWord c.boot.test c.safe.injCtl.toNat v)).toNat = _
  rw [BitVec.toNat_ofNat]
  unfold armWord
  exact Nat.mod_eq_of_lt (by omega)

/-- A package with another injection word. -/
def Chip.injected (c : Chip) (w : Word) : Chip := { c with safe := { c.safe with injCtl := w } }

theorem sameHand_injected (c : Chip) (w : Word) : c.SameHand (c.injected w) := ⟨rfl, rfl, rfl⟩
theorem sameHand_writeInject (c : Chip) (v : Nat) : c.SameHand (writeInject c v) := sameHand_injected c _

theorem injected_jobs (c : Chip) (w : Word) : (c.injected w).jobs = c.jobs := rfl
theorem writeInject_jobs (c : Chip) (v : Nat) : (writeInject c v).jobs = c.jobs := injected_jobs c _

theorem armWord_fields (test : Bool) (old v : Nat) :
    bitOf (armWord test old v) 31 = (if test then bitOf v 31 else bitOf old 31) ∧ armWord test old v % 2 ^ 30 = v % 2 ^ 30 := by
  have h2 := b2n_le (bitOf old 30 && !(bitOf v 30))
  have h1 := b2n_le (if test then bitOf v 31 else bitOf old 31)
  refine ⟨bitOf_of_b2n ?_, ?_⟩ <;> unfold armWord <;> omega

/-- The fields of an injection word: KIND, core and TAG. -/
theorem injFields {n k i t : Nat} (h : n % 2 ^ 30 = k * 2 ^ 26 + i * 2 ^ 16 + t) (hi : i < 1024) (ht : t < 65536) :
    bitsOf n 29 26 = k ∧ bitsOf n 25 16 = i ∧ bitsOf n 15 0 = t := by unfold bitsOf; omega

/-! MGMT_LOG_SEL (R424). -/

theorem logSel_present (b : Bool) (n : Nat) : bitOf (BitVec.ofNat 32 (b2n b * 2 ^ 31 + n % 2 ^ 16)).toNat 30 = false := by
  have h := b2n_le b
  have hbit : (b2n b * 2 ^ 31 + n % 2 ^ 16) % 2 ^ 32 / 2 ^ 30 % 2 = b2n false := by show _ = 0; omega
  rw [BitVec.toNat_ofNat]
  exact bitOf_of_b2n hbit

theorem logSel_gone (b : Bool) (n : Nat) : bitOf (BitVec.ofNat 32 (b2n b * 2 ^ 31 + 2 ^ 30 + n % 2 ^ 16)).toNat 30 = true := by
  have h := b2n_le b
  have hbit : (b2n b * 2 ^ 31 + 2 ^ 30 + n % 2 ^ 16) % 2 ^ 32 / 2 ^ 30 % 2 = b2n true := by show _ = 1; omega
  rw [BitVec.toNat_ofNat]
  exact bitOf_of_b2n hbit

/-- The half of the log that a value names (R424). -/
def logHalf (c : Chip) (v : Nat) : List LogEntry := if bitOf v 31 then c.safe.events else c.safe.faults

/-- A package whose log window names `sel` and holds `bs`. -/
def Chip.logLatched (c : Chip) (sel : Word) (bs : List Byte) : Chip := { c with safe := { c.safe with logSel := sel, latch := bs } }

theorem sameHand_logLatched (c : Chip) (sel : Word) (bs : List Byte) : c.SameHand (c.logLatched sel bs) := ⟨rfl, rfl, rfl⟩

theorem faults_logLatched (c : Chip) (sel : Word) (bs : List Byte) : (c.logLatched sel bs).safe.faults = c.safe.faults := rfl
theorem events_logLatched (c : Chip) (sel : Word) (bs : List Byte) : (c.logLatched sel bs).safe.events = c.safe.events := rfl

theorem regValue_logLatched (e : Env) (c : Chip) (sel : Word) (bs : List Byte) (k : Nat) :
    regValue e (c.logLatched sel bs) (.logData k) = field bs (4 * k) 4 := rfl

theorem writeLogSel_found {c : Chip} {v : Nat} {r : LogEntry} (h : (logHalf c v).find? (fun y => y.seq == v % 2 ^ 16) = some r) :
    writeLogSel c v = c.logLatched (BitVec.ofNat 32 (b2n (bitOf v 31) * 2 ^ 31 + v % 2 ^ 16)) r.bytes := by
  unfold logHalf at h; unfold writeLogSel; simp only [h]; rfl

theorem writeLogSel_missing {c : Chip} {v : Nat} (h : (logHalf c v).find? (fun y => y.seq == v % 2 ^ 16) = none) :
    writeLogSel c v = c.logLatched (BitVec.ofNat 32 (b2n (bitOf v 31) * 2 ^ 31 + 2 ^ 30 + v % 2 ^ 16)) [] := by
  unfold logHalf at h; unfold writeLogSel; simp only [h]; rfl

theorem field_nil (o n : Nat) : field [] o n = 0 := by simp [field, leNat]

/-! BOOT_CTL (R383), which any source may write at any time. -/

theorem putReg_bootCtl {x : Src} {s : State} (hi : I3cUp s x) : putReg x 0x02004 4 1 s.env s.chip = writeBootCtl s.chip 1 := by
  have hreg : regAt 0x02004 = some (.bootCtl, 0x02004, 4) := by decide
  exact putReg_whole hreg (by cases x <;> rfl) (.inr rfl) (by decide) hi

theorem writeBootCtl_waiting {c : Chip} (hr : c.boot.recovering = true) (hc : c.boot.code = 3) :
    writeBootCtl c 1 = onBoot c (fun b => { b with code := 4 }) := by
  unfold writeBootCtl; rw [hr, hc]; rfl

theorem writeBootCtl_other {c : Chip} (hc : c.boot.code ≠ 3) (v : Nat) : writeBootCtl c v = c := by
  unfold writeBootCtl; simp [hc]

/-- Settles O11: each write is its register's own effect, by the conditions that it names. -/
theorem houseRegisterWrites : Obligations.HouseRegisterWrites := by
  refine ⟨?lamps, ?safety, ?management⟩
  case lamps =>
    intro x cap s hq hr hx hi
    have hcap := cap.isLt
    refine ⟨⟨_, exec_maxCap x cap s, ?_⟩, ⟨_, exec_statClear x cap s, ?_⟩⟩
    · rw [putReg_lampCfg hr hx hi (by omega), regPut_lampCfg_cap _ _ hcap, after_lampReviews s hq (sameHand_capped _ _)]
      exact ⟨rfl, lampReviews_maxCap _, rfl⟩
    · rw [putReg_lampCfg hr hx hi (by omega), regPut_lampCfg_clear _ _ hcap,
        after_lampReviews s hq ((sameHand_capped _ _).trans (sameHand_statCleared _))]
      exact ⟨lampReviews_maxCap _, fun k => (lampReviews_late _ k).trans (lamp_statCleared _ k), rfl, lampReviews_jobs _, lampReviews_cores _⟩
  case safety =>
    intro x s hq hr hx hi
    have hput {o : Host.Outcome State Fault Refusal} {c d : Chip} (h : o = .next (s.after c)) (hc : c = d) (hd : s.chip.SameHand d) : o = .next (s.put d) := by
      rw [h, hc, State.after_sameHand s d hq hd]
    have hreg {off : Nat} {r : Reg} (h : regAt off = some (r, off, 4)) (hw : regWriters r = .m) (hn : off ≠ 0x31000) {v : Nat} (hv : v < 2 ^ 32) :
        putReg x off 4 v s.env s.chip = regPut s.env s.chip r v := by rw [putReg_machine hr hx hi h hw hn, Nat.mod_eq_of_lt hv]
    have hinj (v : Nat) (hv : v < 2 ^ 32) : putReg x 0x32010 4 v s.env s.chip = writeInject s.chip v := hreg (r := .injCtl) (by decide) rfl (by decide) hv
    have hfog (v : Nat) (hv : v < 2 ^ 32) : putReg x 0x34000 4 v s.env s.chip = writeFogCtl s.chip v := hreg (r := .fogCtl) (by decide) rfl (by decide) hv
    have harm (k : BitVec 4) (i : BitVec 10) (tag : BitVec 16) := hinj (2 ^ 31 + k.toNat * 2 ^ 26 + i.toNat * 2 ^ 16 + tag.toNat)
      (by have := k.isLt; have := i.isLt; have := tag.isLt; omega)
    refine ⟨fun v => ?clears, fun h1 => ?enters, fun h1 => ?barred, fun k i tag ht => ?arms, fun k i tag ht => ?unarmed, fun ht => ?leaves⟩
    case clears => exact hput (exec_safeCntClear x v s) (hreg (r := .cntClear) (by decide) rfl (by decide) v.isLt) ⟨rfl, rfl, rfl⟩
    case enters =>
      obtain ⟨hf, hrdy, hh, _⟩ := deviceState_eq_one h1
      refine ⟨_, hput (exec_enterTestState x s) ((hfog 1 (by decide)).trans (writeFogCtl_enters h1)) ⟨rfl, rfl, rfl⟩, rfl, ?_⟩
      unfold deviceState; simp [hf, hrdy, hh]
    case barred =>
      rw [exec_enterTestState, hfog 1 (by decide), writeFogCtl_barred h1, State.after_self s hq]
    case arms =>
      have hk := k.isLt; have hin := i.isLt; have htag := tag.isLt
      obtain ⟨h31, hlow⟩ := armWord_fields s.chip.boot.test s.chip.safe.injCtl.toNat (2 ^ 31 + k.toNat * 2 ^ 26 + i.toNat * 2 ^ 16 + tag.toNat)
      obtain ⟨hkind, hcore, htg⟩ := injFields (k := k.toNat) (hlow.trans (by omega)) hin htag
      refine ⟨_, hput (exec_arm x k i tag s) (harm k i tag) (sameHand_writeInject _ _), ?_⟩
      rw [State.put_chip, writeInject_injCtl]
      refine ⟨?_, hkind, hcore, htg, writeInject_jobs _ _, State.put_mem _ _⟩
      have hset : (2 ^ 31 + k.toNat * 2 ^ 26 + i.toNat * 2 ^ 16 + tag.toNat) / 2 ^ 31 % 2 = b2n true := by show _ = 1; omega
      rw [h31, ht, if_pos rfl]
      exact bitOf_of_b2n hset
    case unarmed =>
      refine ⟨_, hput (exec_arm x k i tag s) (harm k i tag) (sameHand_writeInject _ _), ?_⟩
      rw [State.put_chip, writeInject_injCtl, (armWord_fields _ _ _).1, ht]; rfl
    case leaves =>
      refine ⟨_, hput (exec_leaveTestState x s) ((hfog 0 (by decide)).trans (writeFogCtl_leaves ht)) ⟨rfl, rfl, rfl⟩, rfl, leaveTest_fogActive _, ?_, rfl, rfl⟩
      exact bitOf_disable s.chip.safe.injCtl
  case management =>
    intro x v s hq hi
    have hsel (hr : s.chip.boot.ready = true) (hx : MachineSrc x) : putReg x 0x37004 4 v.toNat s.env s.chip = writeLogSel s.chip v.toNat := by
      rw [putReg_machine (r := .logSel) hr hx hi (by decide) rfl (by decide), Nat.mod_eq_of_lt v.isLt]; rfl
    refine ⟨fun hr hx r hfind => ?found, fun hr hx hfind => ?gone, fun hw hc => ?go, fun hc => ?ignored⟩
    case found =>
      rw [exec_mgmtLogSel, hsel hr hx, writeLogSel_found hfind, State.after_sameHand s _ hq (sameHand_logLatched _ _ _)]
      refine ⟨_, rfl, fun k => regValue_logLatched _ _ _ _ k, ?_, faults_logLatched _ _ _, events_logLatched _ _ _⟩
      exact logSel_present (bitOf v.toNat 31) v.toNat
    case gone =>
      rw [exec_mgmtLogSel, hsel hr hx, writeLogSel_missing hfind, State.after_sameHand s _ hq (sameHand_logLatched _ _ _)]
      exact ⟨_, rfl, fun k => field_nil (4 * k) 4, logSel_gone (bitOf v.toNat 31) v.toNat⟩
    case go => 
      rw [exec_recoveryGo, putReg_bootCtl hi, writeBootCtl_waiting hw hc, State.after_sameHand s (onBoot s.chip _) hq ⟨rfl, rfl, rfl⟩]
      rfl
    case ignored => rw [exec_recoveryGo, putReg_bootCtl hi, writeBootCtl_other hc, State.after_self s hq]

end Sys2Proof.Machine
end
section
/-! O18: the ROM's check of the boot image (16_tenancy.md R382, R383; 17_power.md R402). -/

namespace Sys2Proof.Machine

theorem exec_verifyBootImage (img : BootImage) (s : State) : exec (.verifyBootImage img) s = .next (s.after (verifyImage s.env s.chip img)) := rfl

/-- The records of a flash image, kept whatever its check says. -/
def Chip.flashRecords (c : Chip) (img : BootImage) : Chip :=
  onBoot c (fun b => { b with portRec := img.portRec, identRec := img.identRec, cert := img.cert.take 65536 })

/-- How late an image of the flash runs (R402): beyond 3 MiB, 13.65 ms for each MiB begun. -/
def flashDelay (img : BootImage) : Nat := cdiv (img.head.length + img.body.length - 3 * 2 ^ 20) (2 ^ 20) * 13650000

theorem verifyImage_flash_accepted {e : Env} {c : Chip} {img : BootImage} (hp : c.boot.pwrgood = true) (hc : c.boot.code = 1 ∨ c.boot.code = 2)
    (hok : imageOk e.fuses c.boot.arb img.head img.body = true) (hn : img.head.length + img.body.length ≤ 0x1800000) :
    verifyImage e c img = acceptImage e.fuses (c.flashRecords img) img.head (flashDelay img) := by
  have hon : ¬ c.boot.pwrgood = false := by rw [hp]; decide
  unfold verifyImage
  rw [if_neg hon, if_pos hc, if_pos ⟨hok, hn⟩]
  rfl

theorem verifyImage_flash_refused {e : Env} {c : Chip} {img : BootImage} (hp : c.boot.pwrgood = true) (hc : c.boot.code = 1 ∨ c.boot.code = 2)
    (hok : imageOk e.fuses c.boot.arb img.head img.body = false) :
    verifyImage e c img = onBoot (c.flashRecords img) (fun b => { b with code := 3, recovering := true }) := by
  have hon : ¬ c.boot.pwrgood = false := by rw [hp]; decide
  have hno : ¬(imageOk e.fuses c.boot.arb img.head img.body = true ∧ img.head.length + img.body.length ≤ 0x1800000) := by
    rintro ⟨h, -⟩; rw [hok] at h; cases h
  unfold verifyImage
  rw [if_neg hon, if_pos hc]
  exact if_neg hno

/-- The head and the body of a pushed image, as the ROM reads them from the host store (R383). -/
def pushedHead (e : Env) (c : Chip) : List Byte := rdBytes e c Config.hostStore 512
def pushedBody (e : Env) (c : Chip) : List Byte := rdBytes e c (Config.hostStore + 512) (min (field (pushedHead e c) 8 4) (2 ^ 25 - 512))

theorem verifyImage_pushed_refused {e : Env} {c : Chip} {img : BootImage} (hp : c.boot.pwrgood = true) (hc : c.boot.code = 4)
    (hok : imageOk e.fuses c.boot.arb (pushedHead e c) (pushedBody e c) = false) :
    verifyImage e c img = onBoot c (fun b => { b with code := 3 }) := by
  have hon : ¬ c.boot.pwrgood = false := by rw [hp]; decide
  have hno : ¬(c.boot.code = 1 ∨ c.boot.code = 2) := by omega
  have hbad : ¬ imageOk e.fuses c.boot.arb (pushedHead e c) (pushedBody e c) = true := by rw [hok]; decide
  unfold verifyImage
  rw [if_neg hon, if_neg hno, if_pos hc]
  exact if_neg hbad

/-- An image that passes has a security version not below the fuse counter's (R382). -/
theorem imageOk_svn {fu : Fuses} {f : Nat} {head body : List Byte} (h : imageOk fu f head body = true) : f ≤ field head 2 1 := by
  unfold imageOk at h
  simp only [Bool.and_eq_true, decide_eq_true_eq] at h
  obtain ⟨⟨⟨⟨⟨-, hsvn⟩, -⟩, -⟩, -⟩, -⟩ := h
  exact hsvn

theorem sameHand_onBoot (c : Chip) (f : Boot → Boot) : c.SameHand (onBoot c f) := ⟨rfl, rfl, rfl⟩

theorem sameHand_acceptImage (fu : Fuses) (c : Chip) (img : BootImage) (late : Nat) : c.SameHand (acceptImage fu (c.flashRecords img) img.head late) :=
  (sameHand_onBoot c _).trans (sameHand_onBoot _ _)

/-- What an accepted flash image leaves in the boot state (R382 to R384). -/
theorem acceptImage_flash (fu : Fuses) (c : Chip) (img : BootImage) (late : Nat) :
    let b := (acceptImage fu (c.flashRecords img) img.head late).boot
    b.code = 5 ∧ b.accepted = true ∧ b.udsLocked = true ∧ b.arb = max c.boot.arb (field img.head 2 1) ∧ b.headDigest = sha384 img.head :=
  ⟨rfl, rfl, rfl, rfl, rfl⟩

/-- Settles O18: the two forms of the flash image and the refused pushed image, each by its branch of the ROM's check. -/
theorem bootImageChecked : Obligations.BootImageChecked := by
  intro img s hq hp
  refine ⟨fun hc hok hn => ?accepted, fun hc hok => ?refused, fun hc hok => ?pushed⟩
  case accepted =>
    rw [exec_verifyBootImage, verifyImage_flash_accepted hp hc hok hn, State.after_sameHand s _ hq (sameHand_acceptImage _ _ _ _)]
    obtain ⟨hcode, hacc, hlocked, harb, hdigest⟩ := acceptImage_flash s.fuses s.chip img (flashDelay img)
    exact ⟨_, rfl, hcode, hacc, hlocked, harb, imageOk_svn hok, hdigest, State.put_mem _ _⟩
  case refused =>
    rw [exec_verifyBootImage, verifyImage_flash_refused hp hc hok, State.after_sameHand s (onBoot (s.chip.flashRecords img) _) hq ((sameHand_onBoot _ _).trans (sameHand_onBoot _ _))]
    exact ⟨_, rfl, rfl, rfl, rfl, rfl⟩
  case pushed =>
    rw [exec_verifyBootImage, verifyImage_pushed_refused hp hc hok, State.after_sameHand s (onBoot s.chip _) hq (sameHand_onBoot _ _)]
    rfl

end Sys2Proof.Machine
end
section
/-! O21: SPDM requests (16_tenancy.md R384, R385; log entry 30). -/

namespace Sys2Proof.Machine

/-! The rows, each by the answer that it gives. -/

theorem exec_getVersion (s : State) : exec .getVersion s = .next (s.after (spdmAnswer s.chip 0x04 0 1 (0, leBytes 2 1 ++ leBytes 2 0x1300))) := rfl
theorem exec_getCapabilities (s : State) : exec .getCapabilities s = .next (s.after (spdmAnswer s.chip 0x61 1 2 (0, leBytes 4 0 ++ leBytes 4 0x16))) := rfl
theorem exec_negotiateAlgorithms (s : State) :
    exec .negotiateAlgorithms s = .next (s.after (spdmAnswer s.chip 0x63 2 3 (0, leBytes 4 0x80 ++ leBytes 4 0x02))) := rfl
theorem exec_getDigests (s : State) :
    exec .getDigests s = .next (s.after (spdmAnswer s.chip 0x01 3 3 (0, digestBytes (sha384 (certChain s.fuses s.chip))))) := rfl
theorem exec_getCertificate (off len : Nat) (s : State) :
    exec (.getCertificate off len) s = .next (s.after (spdmAnswer s.chip 0x02 3 3 (0, ((certChain s.fuses s.chip).drop off).take len))) := rfl
theorem exec_getMeasurements (i : Nat) (s : State) : exec (.getMeasurements i) s = .next (s.after (measurementsAnswer s.env s.chip i)) := rfl

/-- A package whose next free value is another: a signature drew one (log entry 4). -/
def Chip.drawn (c : Chip) (n : Nat) : Chip := { c with free := n }

theorem exec_challenge (nonce : BitVec 256) (s : State) :
    exec (.challenge nonce) s = .next (s.after ((spdmAnswer s.chip 0x03 3 3 (0, challengeBody s.chip nonce)).drawn (s.chip.free + 1))) := rfl

theorem sameHand_onMgmt (c : Chip) (f : Mgmt → Mgmt) : c.SameHand (onMgmt c f) := ⟨rfl, rfl, rfl⟩
theorem sameHand_drawn (c : Chip) (n : Nat) : c.SameHand (c.drawn n) := ⟨rfl, rfl, rfl⟩

/-! The answer: Busy, or the response in its order. -/

/-- ERROR Busy. -/
def spdmBusy : Out := .spdm [0x13#8, 0x7F#8, 0x03#8, 0x00#8]

/-- The state of SPDM after a response `m` of the code `code` (R385: GET_VERSION begins again). -/
def Mgmt.replied (g : Mgmt) (code next : Nat) (m : List Byte) : Mgmt :=
  { g with spdm := max next (if code = 4 then 0 else g.spdm), transcript := if code = 4 then m else g.transcript ++ m }

/-- A package that has sent a response. -/
def Chip.replied (c : Chip) (code next : Nat) (m : List Byte) : Chip := emit (onMgmt c (fun g => g.replied code next m)) (.spdm m)

theorem sameHand_replied (c : Chip) (code next : Nat) (m : List Byte) : c.SameHand (c.replied code next m) :=
  (sameHand_onMgmt c _).trans (sameHand_emit _ _)

theorem replied_out (c : Chip) (code next : Nat) (m : List Byte) : (c.replied code next m).out = c.out ++ [.spdm m] := rfl

theorem le_replied_spdm (c : Chip) (code next : Nat) (m : List Byte) : next ≤ (c.replied code next m).mgmt.spdm := Nat.le_max_left _ _

theorem spdmAnswer_busy {c : Chip} (hi : i3cAwake c = true) (ha : c.boot.accepted = false) (code need next : Nat) (body : Nat × List Byte) :
    spdmAnswer c code need next body = emit c spdmBusy := by
  unfold spdmAnswer
  rw [hi, ha]
  rfl

theorem spdmAnswer_inOrder {c : Chip} (hi : i3cAwake c = true) (ha : c.boot.accepted = true) {need : Nat} (hn : need ≤ c.mgmt.spdm)
    (code next : Nat) (body : Nat × List Byte) :
    spdmAnswer c code need next body = c.replied code next (spdmMsg code body.1 0 body.2) := by
  unfold spdmAnswer
  rw [hi, ha, if_neg (by simp), if_neg (by simp), if_neg (by omega)]
  rfl

/-- Every form of GET_MEASUREMENTS is one answer. -/
theorem measurementsAnswer_eq (e : Env) (c : Chip) (i : Nat) : ∃ code body, measurementsAnswer e c i = spdmAnswer c code 3 3 body := by
  unfold measurementsAnswer
  by_cases h0 : i % 256 = 0
  · exact ⟨_, _, if_pos h0⟩
  · by_cases hn : i % 256 ≠ 0xFF ∧ measurement e c (i % 256) = none
    · exact ⟨_, _, (if_neg h0).trans (if_pos hn)⟩
    · exact ⟨_, _, (if_neg h0).trans (if_neg hn)⟩

theorem measurementBlocks_one {e : Env} {c : Chip} {i : Nat} (hi : i ≠ 0xFF) {b : List Byte} (hb : measurement e c i = some b) :
    measurementBlocks e c i = leBytes 1 i ++ leBytes 2 b.length ++ b := by
  unfold measurementBlocks
  simp [hi, hb]

/-- A measurement that the package holds is answered with its block. -/
theorem measurementsAnswer_one {e : Env} {c : Chip} {i : Nat} (h1 : 1 ≤ i) (hi : i < 0xFF) {b : List Byte} (hb : measurement e c i = some b) :
    measurementsAnswer e c i = spdmAnswer c 0x60 3 3 (0, leBytes 1 i ++ leBytes 2 b.length ++ b) := by
  have hmod : i % 256 = i := Nat.mod_eq_of_lt (by omega)
  have hheld : ¬(i ≠ 0xFF ∧ measurement e c i = none) := by rw [hb]; rintro ⟨-, h⟩; cases h
  unfold measurementsAnswer
  simp only [hmod]
  rw [if_neg (by omega), if_neg hheld, measurementBlocks_one (by omega) hb]

/-! A request by the answer of its row. -/

/-- A package that has said Busy, whatever number of free values it drew. -/
theorem after_busy {s : State} (hq : s.quiet) {o : Host.Outcome State Fault Refusal} {c : Chip} (h : o = .next (s.after c))
    (hc : c = emit s.chip spdmBusy ∨ ∃ n, c = (emit s.chip spdmBusy).drawn n) :
    ∃ t, o = .next t ∧ t.chip.out = s.chip.out ++ [spdmBusy] ∧ t.chip.mgmt = s.chip.mgmt ∧ t.mem = s.mem := by
  rcases hc with rfl | ⟨n, rfl⟩
  · rw [h, State.after_sameHand s _ hq (sameHand_emit _ _)]
    exact ⟨_, rfl, rfl, rfl, rfl⟩
  · rw [h, State.after_sameHand s _ hq ((sameHand_emit _ _).trans (sameHand_drawn _ _))]
    exact ⟨_, rfl, rfl, rfl, rfl⟩

/-- A request in its order sends its response and the order goes on to `next`. -/
theorem after_inOrder {s : State} (hq : s.quiet) (hi : i3cAwake s.chip = true) (ha : s.chip.boot.accepted = true)
    {o : Host.Outcome State Fault Refusal} {code need next : Nat} {bs : List Byte} (hn : need ≤ s.chip.mgmt.spdm)
    (h : o = .next (s.after (spdmAnswer s.chip code need next (0, bs)))) :
    ∃ t, o = .next t ∧ t.chip.out = s.chip.out ++ [.spdm (spdmMsg code 0 0 bs)] ∧ next ≤ t.chip.mgmt.spdm := by
  rw [h, spdmAnswer_inOrder hi ha hn, State.after_sameHand s _ hq (sameHand_replied _ _ _ _)]
  exact ⟨_, rfl, replied_out _ _ _ _, le_replied_spdm _ _ _ _⟩

/-- Settles O21: Busy for all seven before acceptance, and each in its order after it. -/
theorem spdmRequests : Obligations.SpdmRequests := by
  refine ⟨?busy, ?answered⟩
  case busy =>
    intro off len i nonce s hq hi ha q hmem
    have hbusy := spdmAnswer_busy hi ha
    simp only [List.mem_cons, List.not_mem_nil, or_false] at hmem
    rcases hmem with rfl | rfl | rfl | rfl | rfl | rfl | rfl
    case inr.inr.inr.inr.inr.inl => exact after_busy hq (exec_challenge nonce s) (.inr ⟨_, congrArg (Chip.drawn · _) (hbusy _ _ _ _)⟩)
    case inr.inr.inr.inr.inr.inr =>
      obtain ⟨code, body, hm⟩ := measurementsAnswer_eq s.env s.chip i
      exact after_busy hq (exec_getMeasurements i s) (.inl (hm.trans (hbusy _ _ _ _)))
    all_goals exact after_busy hq rfl (.inl (hbusy _ _ _ _))
  case answered =>
    intro off len i nonce s hq hi ha
    have hone {o : Out} {t : State} (h : t.chip.out = s.chip.out ++ [o]) : t.chip.out.length = s.chip.out.length + 1 := by
      rw [h, List.length_append]; rfl
    refine ⟨after_inOrder hq hi ha (Nat.zero_le _) (exec_getVersion s), fun h1 => ?_, fun h2 => ?_, fun h3 => ⟨?_, ?_, ?_, fun b hb1 hb hm => ?_⟩⟩
    · obtain ⟨t, ht, hout, hnext⟩ := after_inOrder hq hi ha h1 (exec_getCapabilities s)
      exact ⟨t, ht, hnext, hone hout⟩
    · obtain ⟨t, ht, hout, hnext⟩ := after_inOrder hq hi ha h2 (exec_negotiateAlgorithms s)
      exact ⟨t, ht, hnext, hone hout⟩
    · obtain ⟨t, ht, hout, -⟩ := after_inOrder hq hi ha h3 (exec_getDigests s)
      exact ⟨t, ht, hout⟩
    · obtain ⟨t, ht, hout, -⟩ := after_inOrder hq hi ha h3 (exec_getCertificate off len s)
      exact ⟨t, ht, hout⟩
    · rw [exec_challenge, spdmAnswer_inOrder hi ha h3, State.after_sameHand s _ hq ((sameHand_replied _ _ _ _).trans (sameHand_drawn _ _))]
      exact ⟨_, rfl, rfl, rfl⟩
    · have hrow := exec_getMeasurements i s
      rw [measurementsAnswer_one hb1 hb hm] at hrow
      obtain ⟨t, ht, hout, -⟩ := after_inOrder hq hi ha h3 hrow
      exact ⟨t, ht, hout⟩

end Sys2Proof.Machine
end
section
/-! O17: power-good, PERST#, the PCIe link and configuration requests (17_power.md R397, R402, R404, R405; 19_package.md R437). -/

namespace Sys2Proof.Machine

/-! The rows. -/

theorem exec_pwrgoodRise (s : State) : exec .pwrgoodRise s = .next (s.after (powerRise s.chip)) := rfl
theorem exec_pwrgoodFall (s : State) : exec .pwrgoodFall s = .next { s with mem := keepServer s.mem, chip := powerFall s.chip } := rfl
theorem exec_perstAssert (s : State) : exec .perstAssert s = .next (s.after (perstDown s.chip)) := rfl
theorem exec_perstDeassert (s : State) : exec .perstDeassert s = .next (s.after (perstUp s.chip)) := rfl
theorem exec_pcieLinkUp (cxl : Bool) (s : State) : exec (.pcieLinkUp cxl) s = .next (s.after (linkUp s.chip cxl)) := rfl
theorem exec_configurationRequest (s : State) : exec .configurationRequest s = .next (s.after (configRequest s.chip)) := rfl

/-! Each pin by its cases. -/

/-- A package that power-good has just reached (R397, R437). -/
def Chip.powered (c : Chip) : Chip :=
  { c with
    boot := { c.boot with pwrgood := true, riseAt := c.now, code := 1 }
    mgmt := { c.mgmt with tap := if c.mgmt.tap = .extest then .bypass else c.mgmt.tap } }

theorem sameHand_powered (c : Chip) : c.SameHand c.powered := ⟨rfl, rfl, rfl⟩

theorem powerRise_low {c : Chip} (h : c.boot.pwrgood = false) : powerRise c = c.powered := if_neg (by rw [h]; decide)

theorem perstUp_asserted {c : Chip} (h : c.boot.perst = true) : perstUp c = onBoot c (fun b => { b with perst := false, perstAt := c.now }) := if_pos h

/-- When the link may train (R402, R405). -/
def linkMayTrain (c : Chip) : Bool :=
  c.boot.pwrgood && !c.boot.perst && (c.boot.recovering || (c.boot.accepted && decide (c.boot.riseAt + 40 * Config.ms ≤ c.now)))

theorem linkUp_trains {c : Chip} (h : linkMayTrain c = true) (cxl : Bool) : linkUp c cxl = onBoot c (fun b => { b with pcieUp := true, cxl := cxl }) := if_pos h
theorem linkUp_waits {c : Chip} (h : linkMayTrain c = false) (cxl : Bool) : linkUp c cxl = c := by
  have hno : ¬ linkMayTrain c = true := by rw [h]; decide
  exact if_neg hno

theorem linkMayTrain_of {c : Chip} (hp : c.boot.pwrgood = true) (hr : c.boot.perst = false)
    (h : c.boot.recovering = true ∨ (c.boot.accepted = true ∧ c.boot.riseAt + 40 * Config.ms ≤ c.now)) : linkMayTrain c = true := by
  unfold linkMayTrain
  rcases h with h | ⟨ha, hd⟩
  · rw [hp, hr, h]; rfl
  · rw [hp, hr, ha, decide_eq_true hd, Bool.true_and, Bool.true_and, Bool.or_true]; rfl

theorem linkMayTrain_perst {c : Chip} (hr : c.boot.perst = true) : linkMayTrain c = false := by
  unfold linkMayTrain
  rw [hr, Bool.not_true, Bool.and_false, Bool.false_and]

/-- The status of a configuration request: Request Retry until the latest of the two times (R404, R405). -/
def cfgAnswer (c : Chip) : Out :=
  .cfgStatus (decide (c.now < max (c.boot.riseAt + c.boot.late + 140 * Config.ms) (c.boot.perstAt + 100 * Config.ms)))

theorem configRequest_up {c : Chip} (h : c.boot.pcieUp = true) : configRequest c = emit c (cfgAnswer c) := if_pos h
theorem configRequest_down {c : Chip} (h : c.boot.pcieUp = false) : configRequest c = c := if_neg (by rw [h]; decide)

/-- What the package leaves of memory at a fall: nothing but the server's, behind the aperture. -/
theorem keepServer_outside (m : Memory) {a : Nat} (h : inAperture a = false) : (keepServer m).read a = Config.unlisted := by
  have hfind := tfind_filter m inAperture a
  rw [h, if_neg Bool.false_ne_true] at hfind
  unfold Memory.read tget keepServer
  rw [hfind]
  rfl

/-- Settles O17: the two edges of power-good, PERST#, the link and the configuration request, by their branches. -/
theorem powerAndEndpoint : Obligations.PowerAndEndpoint := by
  refine ⟨fun s hq => ⟨fun hlow => ?rise, ?fall⟩,
    fun cxl s hq => ⟨?assert, fun hr => ?deassert, fun hp hr ht => ?trains, fun hr => ?held, fun hl => ?status, fun hl => ?silent⟩⟩
  case rise =>
    rw [exec_pwrgoodRise, powerRise_low hlow, State.after_sameHand s _ hq (sameHand_powered _)]
    rfl
  case fall =>
    exact ⟨_, exec_pwrgoodFall s, rfl, rfl, rfl, rfl, rfl, rfl, rfl, rfl, fun _ => rfl, fun _ => rfl, rfl, fun _ ha => keepServer_outside s.mem ha⟩
  case assert =>
    rw [exec_perstAssert, State.after_sameHand s (perstDown s.chip) hq (sameHand_onBoot _ _)]
    exact ⟨_, rfl, rfl, rfl, rfl, rfl⟩
  case deassert =>
    rw [exec_perstDeassert, perstUp_asserted hr, State.after_sameHand s (onBoot s.chip _) hq (sameHand_onBoot _ _)]
    rfl
  case trains =>
    rw [exec_pcieLinkUp, linkUp_trains (linkMayTrain_of hp hr ht), State.after_sameHand s (onBoot s.chip _) hq (sameHand_onBoot _ _)]
    rfl
  case held => rw [exec_pcieLinkUp, linkUp_waits (linkMayTrain_perst hr), State.after_self s hq]
  case status =>
    rw [exec_configurationRequest, configRequest_up hl, State.after_sameHand s _ hq (sameHand_emit _ _)]
    rfl
  case silent => rw [exec_configurationRequest, configRequest_down hl, State.after_self s hq]

end Sys2Proof.Machine
end
section
/-! O19: stacks, waves and READY (17_power.md R399 to R401; 18_registers.md R418). -/

namespace Sys2Proof.Machine

/-! The rows. -/

theorem exec_stackPowerUp (n : Nat) (s : State) : exec (.stackPowerUp n) s = .next (s.after (stackUp s.chip (n % 4))) := rfl
theorem exec_stackSelfTestDone (n f : Nat) (s : State) : exec (.stackSelfTestDone n f) s = .next (s.after (stackTested s.chip (n % 4) f)) := rfl
theorem exec_wave (w : Nat) (s : State) : exec (.wave w) s = .next (s.after (waveStart s.env s.chip (w % 4))) := rfl
theorem exec_ready (s : State) : exec .ready s = .next (s.after (becomeReady s.env s.chip)) := rfl

/-! A stack (R399). -/

section Stack
variable {c : Chip} {n f : Nat}

theorem stackUp_begins (hcode : c.boot.code = 5) (hdue : bootDue c ((60 + 85 * n) * Config.ms) = true) (hup : c.boot.stacksUp.getLsbD n = false)
    (hfail : c.boot.stacksFailed.getLsbD n = false) (hpow : c.boot.powering = 0) :
    stackUp c n = onBoot c (fun b => { b with powering := b.powering ||| BitVec.twoPow 4 n }) := if_pos ⟨hcode, hdue, hup, hfail, hpow⟩

theorem stackUp_early (hdue : bootDue c ((60 + 85 * n) * Config.ms) = false) : stackUp c n = c :=
  if_neg (fun ⟨_, h, _⟩ => by rw [hdue] at h; cases h)

/-- The first store byte of stack `n`, and the first byte of its near scratchpad. -/
def stackStore (n : Nat) : Nat := n * 2 ^ 32
def stackNear (n : Nat) : Nat := Config.nearBase + n * 2 ^ 29

/-- A package that clears the memories of stack `n`. -/
def Chip.stackCleared (c : Chip) (n : Nat) : Chip := clearRange (clearRange (onBoot c (fun b => { b with powering := 0 })) (stackStore n) (2 ^ 32)) (stackNear n) (2 ^ 29)

/-- A package whose stack `n` is up and DARK, with the scrub passes timed anew. -/
def Chip.stackLit (c : Chip) (now n : Nat) : Chip :=
  onLamp (onBoot { c with safe := { c.safe with storePass := now, nearPass := now } } (fun b => { b with stacksUp := b.stacksUp ||| BitVec.twoPow 4 n })) n
    (fun l => { l with st := .dark, goal := none, till := now })

theorem stackTested_passed (h : c.boot.powering.getLsbD n = true) : stackTested c n 0 = (c.stackCleared n).stackLit c.now n := by
  unfold stackTested; rw [if_pos h]; rfl

theorem stackTested_failed (h : c.boot.powering.getLsbD n = true) (hf : f ≠ 0) :
    stackTested c n f = onBoot c (fun b => { b with powering := 0, stacksFailed := b.stacksFailed ||| BitVec.twoPow 4 n, failCause := f % 256, failed := true }) := by
  unfold stackTested; rw [if_pos h]; exact if_neg hf

theorem clearRange_some (c : Chip) (lo : Nat) {len : Nat} (h : len ≠ 0) :
    clearRange c lo len = { c with clears := (lo, len) :: c.clears, safe := freshCheck c.safe lo len } := if_neg h

theorem stackCleared_clears (c : Chip) (n : Nat) : (c.stackCleared n).clears = (stackNear n, 2 ^ 29) :: (stackStore n, 2 ^ 32) :: c.clears := by
  unfold Chip.stackCleared
  rw [clearRange_some _ _ (by decide), clearRange_some _ _ (by decide)]
  rfl

theorem stackCleared_raised (c : Chip) (n : Nat) : (c.stackCleared n).raised = c.raised := (clearRange_raised _ _ _).trans (clearRange_raised _ _ _)
theorem stackCleared_writes (c : Chip) (n : Nat) : (c.stackCleared n).writes = c.writes := (clearRange_writes _ _ _).trans (clearRange_writes _ _ _)
theorem stackCleared_stacksUp (c : Chip) (n : Nat) : (c.stackCleared n).boot.stacksUp = c.boot.stacksUp := by
  unfold Chip.stackCleared
  rw [clearRange_boot, clearRange_boot]
  rfl

theorem stackLit_clears (c : Chip) (now n : Nat) : (c.stackLit now n).clears = c.clears := rfl
theorem stackLit_writes (c : Chip) (now n : Nat) : (c.stackLit now n).writes = c.writes := rfl
theorem stackLit_raised (c : Chip) (now n : Nat) : (c.stackLit now n).raised = c.raised := rfl
theorem stackLit_stacksUp (c : Chip) (now n : Nat) : (c.stackLit now n).boot.stacksUp = c.boot.stacksUp ||| BitVec.twoPow 4 n := rfl

theorem lamp_stackLit (c : Chip) (now n : Nat) : (lamp (c.stackLit now n) n).st = .dark := by
  unfold Chip.stackLit; rw [lamp_onLamp, if_pos rfl]

/-- A byte after a command that cleared two ranges and wrote nothing. -/
theorem read_memAfter_clears (m : Memory) {d : Chip} {lo len lo' len' : Nat} (hc : d.clears = [(lo, len), (lo', len')]) (hw : d.writes = []) (a : Nat) :
    (memAfter m d).read a =
      if lo' ≤ a ∧ a < lo' + len' then Config.unlisted else if lo ≤ a ∧ a < lo + len then Config.unlisted else m.read a := by
  unfold memAfter
  rw [hc, hw]
  exact (Memory.read_clear _ _ _ _).trans (by rw [Memory.read_clear])

/-- Memory after a passed self-test: the two ranges of the stack read zero and every other byte stays. -/
theorem read_stackLit (m : Memory) {c : Chip} (hw : c.writes = []) (hc : c.clears = []) (now n a : Nat) :
    (memAfter m ((c.stackCleared n).stackLit now n)).read a =
      if stackStore n ≤ a ∧ a < stackStore n + 2 ^ 32 then Config.unlisted
      else if stackNear n ≤ a ∧ a < stackNear n + 2 ^ 29 then Config.unlisted else m.read a := by
  refine read_memAfter_clears m ?_ ?_ a
  · rw [stackLit_clears, stackCleared_clears, hc]
  · rw [stackLit_writes, stackCleared_writes, hw]

end Stack

/-! The training of ports (R400, R423). -/

/-- Whether training begins at a port. -/
def Port.trainable (p : Port) : Bool := p.enable && p.st != .absent && decide (p.media < 2)

theorem startTraining_eq (e : Env) (c : Chip) (n : Nat) :
    startTraining e c n = if (port e c n).trainable = true then onPort c n (fun p => p.training c.now) else c := rfl

/-- A chip with other ports. -/
def Chip.PortsOnly (c d : Chip) : Prop := d = { c with ports := d.ports }

theorem Chip.PortsOnly.refl (c : Chip) : c.PortsOnly c := rfl
theorem Chip.PortsOnly.trans {c d e : Chip} (h : c.PortsOnly d) (k : d.PortsOnly e) : c.PortsOnly e := by
  unfold Chip.PortsOnly at *; rw [k, h]
theorem portsOnly_onPort (c : Chip) (n : Nat) (f : Port → Port) : c.PortsOnly (onPort c n f) := rfl

theorem Chip.PortsOnly.sameHand {c d : Chip} (h : c.PortsOnly d) : c.SameHand d := by
  unfold Chip.PortsOnly at h; rw [h]; exact ⟨rfl, rfl, rfl⟩
theorem Chip.PortsOnly.boot {c d : Chip} (h : c.PortsOnly d) : d.boot = c.boot := by unfold Chip.PortsOnly at h; rw [h]
theorem Chip.PortsOnly.beacon {c d : Chip} (h : c.PortsOnly d) : d.beacon = c.beacon := by unfold Chip.PortsOnly at h; rw [h]

theorem portsOnly_each {α : Type} {f : Chip → α → Chip} (h : ∀ (c : Chip) (x : α), c.PortsOnly (f c x)) (l : List α) (c : Chip) : c.PortsOnly (each l c f) :=
  each_keeps (P := c.PortsOnly) (fun d x hd => hd.trans (h d x)) l (Chip.PortsOnly.refl c)

theorem portsOnly_startTraining (e : Env) (c : Chip) (n : Nat) : c.PortsOnly (startTraining e c n) := by
  rw [startTraining_eq]
  split
  · exact portsOnly_onPort _ _ _
  · exact Chip.PortsOnly.refl _

section Training
variable {e : Env} {n : Nat}

theorem port_startTraining (hp : hasPort e n) (c : Chip) (m : Nat) :
    port e (startTraining e c m) n = if m = n ∧ (port e c n).trainable = true then (port e c n).training c.now else port e c n := by
  rw [startTraining_eq]
  by_cases hm : m = n
  · subst hm
    by_cases ht : (port e c m).trainable = true
    · rw [if_pos ht, if_pos ⟨rfl, ht⟩, port_of_hasPort hp, port_of_hasPort hp, tget_onPort_self]
    · have hno : ¬(m = m ∧ (port e c m).trainable = true) := fun h => ht h.2
      rw [if_neg ht, if_neg hno]
  · have hno : ¬(m = n ∧ (port e c n).trainable = true) := fun h => hm h.1
    rw [if_neg hno]
    split
    · rw [port_of_hasPort hp, port_of_hasPort hp, tget_onPort, if_neg (fun h => hm h.symm)]
    · rfl

/-- A port that trains, or may, keeps that through the training of others. -/
theorem trainable_training {p : Port} (t : Nat) (h : p.trainable = true) : (p.training t).trainable = true := by
  unfold Port.trainable at h ⊢
  simp only [Bool.and_eq_true, decide_eq_true_eq] at h ⊢
  exact ⟨⟨h.1.1, rfl⟩, h.2⟩

theorem trainable_startTraining (hp : hasPort e n) {c : Chip} (h : (port e c n).trainable = true) (m : Nat) :
    (port e (startTraining e c m) n).trainable = true := by
  rw [port_startTraining hp]
  split
  · exact trainable_training _ h
  · exact h

theorem training_startTraining (hp : hasPort e n) {c : Chip} (h : (port e c n).st = .training) (m : Nat) :
    (port e (startTraining e c m) n).st = .training := by
  rw [port_startTraining hp]
  split
  · rfl
  · exact h

/-- Every trainable port of a list trains when the list has been gone through. -/
theorem each_startTraining (hp : hasPort e n) {l : List Nat} (hn : n ∈ l) {c : Chip} (h : (port e c n).trainable = true) :
    (port e (each l c (startTraining e)) n).st = .training := by
  induction l generalizing c with
  | nil => cases hn
  | cons m l ih =>
    show (port e (each l (startTraining e c m) (startTraining e)) n).st = .training
    by_cases hm : m = n
    · have hst : (port e (startTraining e c m) n).st = .training := by rw [port_startTraining hp, if_pos ⟨hm, h⟩]; rfl
      exact each_keeps (P := fun d => (port e d n).st = .training) (fun _ x hd => training_startTraining hp hd x) l hst
    · exact ih ((List.mem_cons.mp hn).resolve_left (fun h => hm h.symm)) (trainable_startTraining hp h m)

end Training

/-! A wave (R400, R418). -/

/-- A package that has begun wave `w`. -/
def Chip.waved (c : Chip) (w : Nat) : Chip := onBoot c (fun b => { b with waving := b.waving ||| BitVec.twoPow 4 w })

theorem portsOnly_applyPortRec (c : Chip) (r : List Byte) : c.PortsOnly (applyPortRec c r) := by
  unfold applyPortRec
  split
  · exact portsOnly_each (fun d n => portsOnly_onPort d n _) _ _
  · exact Chip.PortsOnly.refl _

/-- Whether an identity record applies: its length, its package and its reserved field (R418). -/
abbrev identValid (r : List Byte) : Prop := r.length = 8 ∧ field r 4 2 < 4096 ∧ field r 6 2 = 0

theorem applyIdentRec_valid {r : List Byte} (h : identValid r) (c : Chip) :
    applyIdentRec c r = onBeacon c (fun b => { b with domain := BitVec.ofNat 32 (field r 0 4), pkg := field r 4 2 }) := if_pos h
theorem applyIdentRec_invalid {r : List Byte} (h : ¬ identValid r) (c : Chip) :
    applyIdentRec c r = onBeacon c (fun b => { b with domain := 0, pkg := 0 }) := if_neg h

theorem applyIdentRec_boot (c : Chip) (r : List Byte) : (applyIdentRec c r).boot = c.boot := by unfold applyIdentRec; split <;> rfl
theorem applyIdentRec_sameHand (c : Chip) (r : List Byte) : c.SameHand (applyIdentRec c r) := by
  unfold applyIdentRec; split <;> exact sameHand_onBeacon _ _

theorem field_lt (bs : List Byte) (o n : Nat) : field bs o n < 256 ^ n := by
  unfold field
  exact lt_of_lt_of_le (leNat_lt _) (Nat.pow_le_pow_right (by decide) (List.length_take_le _ _))

/-- The chip that wave `w` finds: at wave 0 the flash records have been applied. -/
def waveRecords (c : Chip) (w : Nat) : Chip := if w = 0 then applyIdentRec (applyPortRec c c.boot.portRec) c.boot.identRec else c

theorem waveStart_begins (e : Env) {c : Chip} {w : Nat} (hcode : c.boot.code = 5) (hdue : bootDue c ((300 + 40 * w) * Config.ms) = true)
    (hnew : c.boot.waving.getLsbD w = false) (hfirst : w = 0 ∨ c.boot.waving.getLsbD 0 = true) :
    waveStart e c w = each (wavePorts e w) ((waveRecords c w).waved w) (startTraining e) := if_pos ⟨hcode, hdue, hnew, hfirst⟩

theorem waveRecords_boot (c : Chip) (w : Nat) : (waveRecords c w).boot = c.boot := by
  unfold waveRecords
  split
  · exact (applyIdentRec_boot _ _).trans (portsOnly_applyPortRec _ _).boot
  · rfl

theorem waveRecords_sameHand (c : Chip) (w : Nat) : c.SameHand (waveRecords c w) := by
  unfold waveRecords
  split
  · exact (portsOnly_applyPortRec _ _).sameHand.trans (applyIdentRec_sameHand _ _)
  · exact Chip.SameHand.refl _

/-- What a wave leaves, whatever ports it trains. -/
theorem after_wave {s : State} (hq : s.quiet) {w : Nat} (hw : w < 4) (hcode : s.chip.boot.code = 5)
    (hdue : bootDue s.chip ((300 + 40 * w) * Config.ms) = true) (hnew : s.chip.boot.waving.getLsbD w = false)
    (hfirst : w = 0 ∨ s.chip.boot.waving.getLsbD 0 = true) :
    exec (.wave w) s = .next (s.put (each (wavePorts s.env w) ((waveRecords s.chip w).waved w) (startTraining s.env))) := by
  rw [exec_wave, Nat.mod_eq_of_lt hw, waveStart_begins s.env hcode hdue hnew hfirst, State.after_sameHand s _ hq]
  exact (waveRecords_sameHand _ _).trans ((sameHand_onBoot _ _).trans (portsOnly_each (portsOnly_startTraining s.env) _ _).sameHand)

theorem wave_boot (e : Env) (c : Chip) (w : Nat) (l : List Nat) :
    (each l ((waveRecords c w).waved w) (startTraining e)).boot.waving = c.boot.waving ||| BitVec.twoPow 4 w := by
  rw [(portsOnly_each (portsOnly_startTraining e) _ _).boot]
  exact congrArg (fun b : Boot => b.waving ||| BitVec.twoPow 4 w) (waveRecords_boot c w)

theorem wave_beacon (e : Env) (c : Chip) (w : Nat) (l : List Nat) :
    (each l ((waveRecords c w).waved w) (startTraining e)).beacon = (waveRecords c w).beacon :=
  (portsOnly_each (portsOnly_startTraining e) _ _).beacon

/-! READY (R401). -/

theorem becomeReady_ready {e : Env} {c : Chip} (hcode : c.boot.code = 5) (hacc : c.boot.accepted = true) (hok : c.boot.failed = false)
    (hup : c.boot.stacksUp = 0xF#4) (hj : allJoined e c = true) : becomeReady e c = onBoot c (fun b => { b with code := 6, ready := true }) :=
  if_pos ⟨hcode, hacc, hok, hup, hj⟩

theorem becomeReady_waits {e : Env} {c : Chip} (h : c.boot.code ≠ 5 ∨ c.boot.stacksUp ≠ 0xF#4 ∨ c.boot.failed = true ∨ allJoined e c = false) :
    becomeReady e c = c := by
  refine if_neg fun ⟨hcode, _, hok, hup, hj⟩ => ?_
  rcases h with h | h | h | h
  · exact h hcode
  · exact h hup
  · rw [hok] at h; cases h
  · rw [hj] at h; cases h

/-- Settles O19: a stack by the outcome of its test, a wave by what it applies and trains, READY by its conditions. -/
theorem stacksWavesAndReady : Obligations.StacksWavesAndReady := by
  refine ⟨fun n f s hq hn => ⟨fun hcode hdue hup hfail hpow => ?begins, fun hdue => ?early, fun hp hf => ?passed, fun hp hf => ?failed⟩,
    fun w s hq hw => ⟨fun hcode hdue hnew hpos h0 => ?wave, fun hcode hdue hnew => ?first, fun hcode hacc hok hup hj => ?ready, fun h => ?waits⟩⟩
  case begins =>
    rw [exec_stackPowerUp, Nat.mod_eq_of_lt hn, stackUp_begins hcode hdue hup hfail hpow, State.after_sameHand s (onBoot s.chip _) hq (sameHand_onBoot _ _)]
    simp only [onBoot, hpow]
    rw [show (0 : BitVec 4) ||| BitVec.twoPow 4 n = BitVec.twoPow 4 n from BitVec.zero_or]
  case early => rw [exec_stackPowerUp, Nat.mod_eq_of_lt hn, stackUp_early hdue, State.after_self s hq]
  case passed =>
    subst hf
    obtain ⟨hw, hc, hr⟩ := hq
    have hraised : ((s.chip.stackCleared n).stackLit s.chip.now n).raised = [] := by rw [stackLit_raised, stackCleared_raised, hr]
    have hchip := State.after_chip_of_unraised s _ hraised
    have hbyte (a : Nat) : (s.after ((s.chip.stackCleared n).stackLit s.chip.now n)).byte a = _ :=
      (congrArg (Memory.read · a) (State.after_mem_of_unraised s _ hraised)).trans (read_stackLit s.mem hw hc s.chip.now n a)
    rw [exec_stackSelfTestDone, Nat.mod_eq_of_lt hn, stackTested_passed hp]
    refine ⟨_, rfl, ?_, ?_, fun a h1 h2 => ?_, fun a h1 h2 => ?_, fun a h1 h2 => ?_⟩
    · rw [hchip]; exact (stackLit_stacksUp _ _ _).trans (by rw [stackCleared_stacksUp])
    · rw [hchip]; exact lamp_stackLit _ _ _
    · have hin : stackStore n ≤ a ∧ a < stackStore n + 2 ^ 32 := by unfold stackStore; omega
      rw [hbyte, if_pos hin]; rfl
    · have hin : stackNear n ≤ a ∧ a < stackNear n + 2 ^ 29 := by unfold stackNear; omega
      rw [hbyte, if_pos hin, ite_self]; rfl
    · have hstore : ¬(stackStore n ≤ a ∧ a < stackStore n + 2 ^ 32) := fun h => h1 (by unfold stackStore at h; omega)
      have hnear : ¬(stackNear n ≤ a ∧ a < stackNear n + 2 ^ 29) := fun h => h2 (by unfold stackNear at h; omega)
      rw [hbyte, if_neg hstore, if_neg hnear]
      rfl
  case failed =>
    rw [exec_stackSelfTestDone, Nat.mod_eq_of_lt hn, stackTested_failed hp hf, State.after_sameHand s (onBoot s.chip _) hq (sameHand_onBoot _ _)]
    exact ⟨_, rfl, rfl, rfl, rfl, rfl⟩
  case wave =>
    have hkept : waveRecords s.chip w = s.chip := if_neg (by omega)
    refine ⟨_, after_wave hq hw hcode hdue hnew (.inr h0), wave_boot _ _ _ _, fun n hn he hs hm => ?_,
      (wave_beacon s.env s.chip w _).trans (by rw [hkept]), rfl⟩
    have hport := hasPort_of_present hs
    have hready : (port s.env s.chip n).trainable = true := by
      unfold Port.trainable
      rw [he, decide_eq_true hm, bne_iff_ne.mpr hs]
      rfl
    rw [hkept, port_put hport, ← port_of_hasPort hport]
    exact each_startTraining hport hn hready
  case first =>
    have hbeacon := wave_beacon s.env s.chip 0 (wavePorts s.env 0)
    refine ⟨_, after_wave hq (by decide) hcode hdue hnew (.inl rfl), wave_boot _ _ _ _, fun h8 hp hr => ?_, fun h8 hbad => ?_⟩
    · have hrec : waveRecords s.chip 0 = onBeacon _ _ := applyIdentRec_valid ⟨h8, hp, hr⟩ _
      rw [State.put_chip, hbeacon, hrec]
      exact ⟨BitVec.toNat_ofNat .. |>.trans (Nat.mod_eq_of_lt (field_lt _ 0 4)), rfl⟩
    · have hrec : waveRecords s.chip 0 = onBeacon _ _ := applyIdentRec_invalid (fun h => by obtain ⟨_, h1, h2⟩ := h; omega) _
      rw [State.put_chip, hbeacon, hrec]
      exact ⟨rfl, rfl⟩
  case ready =>
    rw [exec_ready, becomeReady_ready hcode hacc hok hup hj, State.after_sameHand s (onBoot s.chip _) hq (sameHand_onBoot _ _)]
    rfl
  case waits => rw [exec_ready, becomeReady_waits h, State.after_self s hq]

end Sys2Proof.Machine
end
section
/-! O22: the transitions of the lamps (17_power.md R387, R389 to R391). -/

namespace Sys2Proof.Machine

theorem exec_lampExit (n : Nat) (s : State) : exec (.lampExit n) s = .next (s.after (lampReview s.chip (n % 4))) := rfl
theorem exec_lampTransitionDone (n : Nat) (s : State) : exec (.lampTransitionDone n) s = .next (s.after (lampDone s.env s.chip (n % 4))) := rfl

section Review
variable {c : Chip} {n : Nat}

/-- A lamp that begins a transition keeps its state, and takes the target and its end. -/
theorem lamp_beginLamp_self (c : Chip) (n : Nat) (g : Lamp) :
    (lamp (beginLamp c n g) n).goal = some g ∧ (lamp (beginLamp c n g) n).st = (lamp c n).st ∧
      (lamp (beginLamp c n g) n).till = c.now + (if g = .lit then lampExitTime (lamp c n).st else lampEntry g) := by
  unfold beginLamp
  rw [lamp_onLamp, if_pos rfl]
  exact ⟨rfl, rfl, rfl⟩

theorem lamp_beginLamp_other (c : Chip) {n k : Nat} (h : k ≠ n) (g : Lamp) : lamp (beginLamp c n g) k = lamp c k := by
  unfold beginLamp
  rw [lamp_onLamp, if_neg h]

theorem lampReview_st (c : Chip) (n : Nat) : (lamp (lampReview c n) n).st = (lamp c n).st := by
  obtain h | ⟨g, h⟩ := lampReview_cases c n <;> rw [h]
  exact (lamp_beginLamp_self c n g).2.1

variable (hup : c.boot.stacksUp.getLsbD n = true) (hok : c.boot.failed = false) (hg : (lamp c n).goal = none)
include hup hok hg

/-- The controller looks at a powered stack in no transition. -/
theorem reviewed : ¬(c.boot.stacksUp.getLsbD n = false ∨ c.boot.failed = true ∨ (lamp c n).goal.isSome = true) := by
  rw [hup, hok, hg]; decide

theorem lampReview_enters (hs : (lamp c n).st = .lit) (hw : chooseLamp c n ≠ .lit) : lampReview c n = beginLamp c n (chooseLamp c n) := by
  unfold lampReview
  simp only []
  rw [if_neg (reviewed hup hok hg), if_pos hs, if_neg hw]

theorem lampReview_exits (hs : (lamp c n).st ≠ .lit) (hw : chooseLamp c n = .lit) : lampReview c n = beginLamp c n .lit := by
  unfold lampReview
  simp only []
  rw [if_neg (reviewed hup hok hg), if_neg hs, if_pos (.inl hw)]

end Review

section Done
variable {e : Env} {c : Chip} {n : Nat}

/-- A stack that has reached the target of its transition. -/
def Chip.lampReached (c : Chip) (n : Nat) (g : Lamp) : Chip := onLamp c n (fun l => { l with st := g, goal := none })

theorem lampReached_st (c : Chip) (n : Nat) (g : Lamp) : (lamp (c.lampReached n g) n).st = g := by
  unfold Chip.lampReached; rw [lamp_onLamp, if_pos rfl]

theorem lampsOnly_lampReached (c : Chip) (n : Nat) (g : Lamp) : c.LampsOnly (lampReview (c.lampReached n g) n) :=
  Chip.LampsOnly.trans (show c.LampsOnly (c.lampReached n g) from rfl) (lampsOnly_lampReview _ _)

theorem lampDone_idle (e : Env) (h : (lamp c n).goal = none ∨ c.now < (lamp c n).till) : lampDone e c n = c := by
  unfold lampDone
  simp only []
  split
  · rfl
  · next g hg =>
    have hearly : c.now < (lamp c n).till := h.resolve_left (by rw [hg]; simp)
    exact if_pos hearly

theorem lampDone_deep {g : Lamp} (hg : (lamp c n).goal = some g) (hl : g ≠ .lit) (hdue : (lamp c n).till ≤ c.now) :
    lampDone e c n = lampReview (c.lampReached n g) n := by
  unfold lampDone
  simp only [hg]
  rw [if_neg (by omega), if_pos hl]
  rfl

/-- With no job edge and no table write that waits for LIT, the end of an exit moves nothing on. -/
theorem lampDone_lit (hg : (lamp c n).goal = some .lit) (hdue : (lamp c n).till ≤ c.now)
    (hidle : ∀ q ∈ c.jobs, q.2.wts.held = [] ∧ q.2.ticks.edge = none) : lampDone e c n = lampReview (c.lampReached n .lit) n := by
  unfold lampDone
  simp only [hg]
  rw [if_neg (by omega), if_neg (by simp)]
  refine congrArg (lampReview · n) (each_same fun t _ => ?_)
  split
  · rfl
  · next j hj =>
    obtain ⟨hheld, hedge⟩ := hidle (t, j) (mem_of_tfind hj)
    split
    · rfl
    · rw [applyHeld_none hj hheld, if_neg (by rw [hedge]; decide)]

/-- What a transition that has ended leaves: its target as the state, and nothing but lamps changed. -/
theorem after_lampDone {s : State} (hq : s.quiet) (hn : n < 4) {g : Lamp} (h : lampDone s.env s.chip n = lampReview (s.chip.lampReached n g) n) :
    ∃ t, exec (.lampTransitionDone n) s = .next t ∧ (lamp t.chip n).st = g ∧ t.chip.jobs = s.chip.jobs ∧ t.mem = s.mem := by
  have honly := lampsOnly_lampReached s.chip n g
  rw [exec_lampTransitionDone, Nat.mod_eq_of_lt hn, h, State.after_sameHand s _ hq honly.sameHand]
  exact ⟨_, rfl, (lampReview_st _ n).trans (lampReached_st _ _ _), honly.on Chip.jobs, rfl⟩

end Done

/-- Settles O22: an entry and an exit by the review of the controller, an end by the state reached. -/
theorem lampTransitions : Obligations.LampTransitions := by
  intro n s hq hn
  have hreview {g : Lamp} (h : lampReview s.chip n = beginLamp s.chip n g) : exec (.lampExit n) s = .next (s.put (beginLamp s.chip n g)) := by
    rw [exec_lampExit, Nat.mod_eq_of_lt hn, h, State.after_sameHand s (beginLamp s.chip n g) hq (sameHand_onLamp _ _ _)]
  refine ⟨fun hup hok hg hs hw => ?enters, fun hup hok hg hs hw => ?exits, fun g hg hl hdue => after_lampDone hq hn (lampDone_deep hg hl hdue),
    fun hg hdue hidle => after_lampDone hq hn (lampDone_lit hg hdue hidle), fun h => ?idle⟩
  case enters =>
    obtain ⟨hgoal, hst, htill⟩ := lamp_beginLamp_self s.chip n (chooseLamp s.chip n)
    exact ⟨_, hreview (lampReview_enters hup hok hg hs hw), hgoal, hst.trans hs, htill.trans (by rw [if_neg hw]),
      fun k hk => lamp_beginLamp_other s.chip hk _, rfl, rfl⟩
  case exits =>
    obtain ⟨hgoal, hst, htill⟩ := lamp_beginLamp_self s.chip n .lit
    exact ⟨_, hreview (lampReview_exits hup hok hg hs hw), hgoal, hst, htill⟩
  case idle => rw [exec_lampTransitionDone, Nat.mod_eq_of_lt hn, lampDone_idle s.env h, State.after_self s hq]

end Sys2Proof.Machine
end
section
/-! O59: kills from a relayed command (16_tenancy.md R372, R376; 12_host.md R308). -/

namespace Sys2Proof.Machine

theorem exec_killJob {s : State} {id : CmdId} {m : Cmd} (h : Started s id 0x40 m) : exec (.killJob id) s = .next (s.after (killJob m s.chip)) := by
  obtain ⟨hfind, hphase⟩ := h
  show Host.Outcome.next (s.after (withStarted s.chip id 0x40 killJob)) = _
  unfold withStarted
  rw [hfind]
  exact congrArg (fun c => Host.Outcome.next (s.after c)) (if_pos hphase)

/-- A KILL_JOB of a ring, of a partition that is not the job's, is DENIED; so is a relayed one at the lead. -/
theorem killJob_denied {c : Chip} {m : Cmd} {t : Nat} {j : Job} (hj : jobOf c m.target = some (t, j)) (hpart : j.place.parts.contains m.id.part = false)
    (h : m.id.part < 16 ∨ isLead c j = true) : killJob m c = final c m.id .denied := by
  have hring : ¬(isRelay m && !(isLead c j)) = true := by
    rcases h with h | h
    · have hno : isRelay m = false := beq_eq_false_iff_ne.mpr (by omega)
      rw [hno, Bool.false_and]; exact Bool.false_ne_true
    · rw [h, Bool.not_true, Bool.and_false]; exact Bool.false_ne_true
  unfold killJob onJobTarget
  rw [hj]
  simp only [hpart, Bool.not_false, if_true]
  exact if_neg hring

/-- A relayed command where the job's lead is another package is taken, whatever the job's partitions. -/
theorem killJob_relayed {c : Chip} {m : Cmd} {t : Nat} {j : Job} (hj : jobOf c m.target = some (t, j)) (hpart : j.place.parts.contains m.id.part = false)
    (hrelay : isRelay m = true) (hlead : isLead c j = false) :
    killJob m c = lampReviews (killFrom
      (onJob (acceptCmd c m.id (cmdHandle m.id)) t (fun j => { j with killCmds := j.killCmds ++ [m.id], clearAll := j.clearAll || bitOf m.flags 2 }))
      t (bitOf m.flags 2)) := by
  unfold killJob onJobTarget
  rw [hj]
  simp only [hpart, hrelay, hlead, Bool.not_false, Bool.and_self, if_true]

/-- Job 5, with no partition here, led by package 1. -/
def ledAway : Job where
  gen := 1
  part := 0
  seq := 1
  st := .running
  tenant := 0
  hdr := ⟨0, 0, 0, 0, 0, 0, false, 0, 0, 0, []⟩
  place := ⟨[1, 0], 1, 1, 0, 0, [], [], [], [], [], [], [], [], 0, 0, 0, [], [], [], [], [], [], [], []⟩
  decl := ⟨[], [], [], [], [], [], ⟨0, 0, 0, 0, 0, []⟩, []⟩
  args := RunArgs.none
  cnt := JobCnt.zero
  ticks := Ticks.zero
  wts := Weights.none
  loadCmd := none
  stop := none
  endSt := .ok
  killCmds := []
  clearAll := false
  clearing := false
  capture := none
  captureRun := none
  pair := none
  log := []
  slotNo := []
  promptAt := 0

/-- KILL_JOB of job 5 by a command whose partition is 16. -/
def relayedKill : Cmd := ⟨⟨16, 1⟩, 0, 0x40, 0, 0, 0, 0, mkHandle 0 3 5 1 1, [], .started, 0, []⟩

/-- Package 0 with the two in hand. -/
def killedAway : State := { State.reset with chip := { Chip.reset with jobs := [(5, ledAway)], cmds := [relayedKill] } }

/-- Refutes O59: its DENIED clause leaves out the relayed form. In `killedAway` a command of partition 16, which is how a relayed one reads, meets a job that
another package leads: it is taken and stays in hand, where `final` would end it. For a command of a ring, or at the lead, the clause holds
(`killJob_denied`). -/
theorem not_killsAndClearing : ¬ Obligations.KillsAndClearing := by
  rintro ⟨-, ⟨hkill, -⟩, -⟩
  have hstart : Started killedAway ⟨16, 1⟩ 0x40 relayedKill := by decide
  obtain ⟨hdenied, -⟩ := hkill ⟨16, 1⟩ relayedKill 5 ledAway killedAway (by decide) hstart rfl
  have hsame := hdenied (by decide)
  rw [exec_killJob hstart, killJob_relayed (t := 5) (j := ledAway) rfl (by decide) (by decide) (by decide)] at hsame
  have hcmds := congrArg (fun t : State => t.chip.cmds.length) (Host.Outcome.next.inj hsame)
  exact absurd hcmds (by decide)

end Sys2Proof.Machine
end
section
/-! SUPPORT. The entries of the management log (15_safety.md R364 to R366), and what the end of a job leaves of the other jobs and of the faults in hand
(16_tenancy.md R312, R373). -/

namespace Sys2Proof.Machine

/-! Posting a record on a ring leaves both halves of the management log. -/

/-- Both halves of the management log. -/
def Chip.logs (c : Chip) : List LogEntry × List LogEntry := (c.safe.faults, c.safe.events)

theorem logs_wr (c : Chip) (a : Nat) (bs : List Byte) : (wr c a bs).logs = c.logs := by unfold wr; split <;> rfl

theorem logs_checkIrq (c : Chip) (k : Nat) : (checkIrq c k).logs = c.logs := by unfold checkIrq sendIrq; split <;> rfl

theorem logs_postRecord (c : Chip) (k : Nat) (irq : Bool) (body : Nat → List Byte) : (postRecord c k irq body).logs = c.logs := by
  unfold postRecord
  rw [logs_checkIrq]
  exact logs_wr c _ _

theorem logs_postLossy (c : Chip) (p i : Nat) (body : Bool → Nat → List Byte) : (postLossy c p i body).logs = c.logs := by
  unfold postLossy
  dsimp only
  split
  · rfl
  · exact logs_postRecord _ _ _ _

theorem logs_postLossy_each (c : Chip) (ps : List Nat) (i : Nat) (body : Bool → Nat → List Byte) :
    (each ps c (fun c p => postLossy c p i body)).logs = c.logs := each_field Chip.logs (fun d p => logs_postLossy d p i body) ps c

/-- A package whose management log has taken a fault record. -/
def Chip.faultLogged (c : Chip) (r : FaultRec) : Chip :=
  emit { c with safe := { c.safe with
    faultSeq := (c.safe.faultSeq + 1) % 2 ^ 16
    faults := logPush c.safe.faults 256 ⟨c.safe.faultSeq, faultBytes r false 0⟩
    ibiDue := c.safe.ibiDue || faultClass r.code != 0 } } (.mgmt r)

theorem faultLogged_faults (c : Chip) (r : FaultRec) :
    (c.faultLogged r).safe.faults = logPush c.safe.faults 256 ⟨c.safe.faultSeq, faultBytes r false 0⟩ := by
  unfold Chip.faultLogged emit; dsimp only
theorem faultLogged_ibiDue (c : Chip) (r : FaultRec) : (c.faultLogged r).safe.ibiDue = (c.safe.ibiDue || faultClass r.code != 0) := by
  unfold Chip.faultLogged emit; dsimp only

theorem postFault_none (c : Chip) (r : FaultRec) : postFault c none r = c.faultLogged r := rfl
theorem postFault_some (c : Chip) (p : Nat) (r : FaultRec) : postFault c (some p) r = (postLossy c p 129 (faultBytes r)).faultLogged r := rfl

/-- A fault record enters the log under the sequence that stands (R366). -/
theorem postFault_faults (c : Chip) (p : Option Nat) (r : FaultRec) :
    (postFault c p r).safe.faults = logPush c.safe.faults 256 ⟨c.safe.faultSeq, faultBytes r false 0⟩ := by
  cases p with
  | none => rw [postFault_none, faultLogged_faults]
  | some p =>
    have hlogs : (postLossy c p 129 (faultBytes r)).safe.faults = c.safe.faults := congrArg Prod.fst (logs_postLossy c p 129 (faultBytes r))
    have hseq : (postLossy c p 129 (faultBytes r)).safe.faultSeq = c.safe.faultSeq := congrArg Prod.fst (logSeqs_postLossy c p 129 (faultBytes r))
    rw [postFault_some, faultLogged_faults, hlogs, hseq]

/-- A record of class D1 to D4 is due an in-band interrupt (R366). -/
theorem postFault_ibiDue (c : Chip) (p : Option Nat) {r : FaultRec} (h : faultClass r.code ≠ 0) : (postFault c p r).safe.ibiDue = true := by
  cases p with
  | none => rw [postFault_none, faultLogged_ibiDue, bne_iff_ne.mpr h, Bool.or_true]
  | some p => rw [postFault_some, faultLogged_ibiDue, bne_iff_ne.mpr h, Bool.or_true]

/-- A thermal warning enters the log's events, and leaves its faults (R366). -/
theorem event_thermal (c : Chip) (ps : List Nat) {r : EventRec} (h : r.event = 8) :
    (event c ps r).safe.events = logPush c.safe.events 64 ⟨c.safe.eventSeq, eventBytes r false 0⟩ ∧ (event c ps r).safe.faults = c.safe.faults := by
  have hlogs := logs_postLossy_each c ps 128 (eventBytes r)
  have hfaults : (each ps c (fun c p => postLossy c p 128 (eventBytes r))).safe.faults = c.safe.faults := congrArg Prod.fst hlogs
  have hevents : (each ps c (fun c p => postLossy c p 128 (eventBytes r))).safe.events = c.safe.events := congrArg Prod.snd hlogs
  have hseq : (each ps c (fun c p => postLossy c p 128 (eventBytes r))).safe.eventSeq = c.safe.eventSeq :=
    congrArg Prod.snd (logSeqs_postLossy_each c ps 128 (eventBytes r))
  unfold event
  dsimp only
  rw [if_pos (.inr (.inr (.inl h)))]
  dsimp only
  rw [hevents, hseq]
  exact ⟨rfl, hfaults⟩

/-! The end of one job. -/

/-- `d` has the faults in hand of `c`, and every job but `tag`. -/
structure Chip.WithinJob (tag : Nat) (c d : Chip) : Prop where
  raised : d.raised = c.raised
  others : ∀ u, u ≠ tag → tfind d.jobs u = tfind c.jobs u

section Within
variable {tag : Nat} {c d e : Chip}

theorem Chip.WithinJob.refl (c : Chip) : c.WithinJob tag c := ⟨rfl, fun _ _ => rfl⟩
theorem Chip.WithinJob.trans (h : c.WithinJob tag d) (k : d.WithinJob tag e) : c.WithinJob tag e :=
  ⟨k.raised.trans h.raised, fun u hu => (k.others u hu).trans (h.others u hu)⟩

theorem Chip.WithinJob.of_jobs (hr : d.raised = c.raised) (hj : d.jobs = c.jobs) : c.WithinJob tag d := ⟨hr, fun _ _ => by rw [hj]⟩
theorem Chip.CoresOnly.withinJob (h : c.CoresOnly d) : c.WithinJob tag d := .of_jobs (h.on Chip.raised) (h.on Chip.jobs)
theorem Chip.AnswersOnly.withinJob (h : c.AnswersOnly d) (hj : d.jobs = c.jobs) : c.WithinJob tag d := .of_jobs (h.on Chip.raised) hj

theorem withinJob_each {α : Type} {f : Chip → α → Chip} (h : ∀ (c : Chip) (x : α), c.WithinJob tag (f c x)) (l : List α) (c : Chip) :
    c.WithinJob tag (each l c f) := each_keeps (P := c.WithinJob tag) (fun d x hd => hd.trans (h d x)) l (.refl c)

theorem withinJob_onJob (c : Chip) (tag : Nat) (f : Job → Job) : c.WithinJob tag (onJob c tag f) :=
  ⟨onJob_raised _ _ _, fun u hu => by rw [tfind_onJob, if_neg hu]⟩

end Within

/-! Commands and requests of the job. -/

theorem answersOnly_finalCmd (c : Chip) (id : CmdId) (st : Status) (a b detail : Nat) : c.AnswersOnly (finalCmd c id st a b detail) := by
  unfold finalCmd
  split
  · exact .refl c
  · exact Chip.AnswersOnly.trans (d := { c with cmds := c.cmds.filter (fun x => x.id != id) }) rfl (recordsOnly_postRecord _ _ _ _).answersOnly

theorem withinJob_finalCmd (tag : Nat) (c : Chip) (id : CmdId) (st : Status) (a b detail : Nat) : c.WithinJob tag (finalCmd c id st a b detail) :=
  (answersOnly_finalCmd _ _ _ _ _ _).withinJob (finalCmd_jobs _ _ _ _ _ _)

theorem withinJob_final (tag : Nat) (c : Chip) (id : CmdId) (st : Status) : c.WithinJob tag (final c id st) := withinJob_finalCmd _ _ _ _ _ _ _

theorem withinJob_endCommands (tag : Nat) (c : Chip) (s : ReqSide) (st : Status) : c.WithinJob tag (endCommands c s st) := by
  have hfinals : c.WithinJob tag (each s.cancels (each s.appends c (fun c a => final c a.cmd .alreadyDone))
      (fun c x => final c x (if st = .cancelled then .ok else .alreadyDone))) :=
    (withinJob_each (fun _ _ => withinJob_final _ _ _ _) _ _).trans (withinJob_each (fun _ _ => withinJob_final _ _ _ _) _ _)
  unfold endCommands
  dsimp only
  split
  · exact hfinals.trans (withinJob_finalCmd _ _ _ _ _ _ _)
  · exact hfinals

theorem withinJob_endReqNow (tag : Nat) (c : Chip) (i : Nat) (st : Status) : c.WithinJob tag (endReqNow c i st) := by
  have hfreed : c.WithinJob tag { c with reqs := tset c.reqs i (freedReq (req c i).job (req c i)), sides := tdel c.sides i } := .of_jobs rfl rfl
  unfold endReqNow postEnd
  dsimp only
  split
  · exact hfreed
  · exact (hfreed.trans (withinJob_finalCmd _ _ _ _ _ _ _)).trans (withinJob_endCommands _ _ _ _)

/-! Its attempts, its pair and its capture. -/

theorem withinJob_uncountDeferred (c : Chip) (tag : Nat) (p : Plan) : c.WithinJob tag (uncountDeferred c tag p) :=
  (withinJob_each (fun d i => Chip.WithinJob.of_jobs (onReq_raised d i _) rfl) _ _).trans (withinJob_onJob _ _ _)

theorem withinJob_discardAttempts (c : Chip) (tag : Nat) (p : Attempt → Bool) : c.WithinJob tag (discardAttempts c tag p) := by
  unfold discardAttempts
  cases tfind c.jobs tag with
  | none => exact .refl c
  | some j =>
    dsimp only
    split
    · exact .refl c
    · refine Chip.WithinJob.trans ?_ (withinJob_onJob _ _ _)
      have hcount (l : List Attempt) := withinJob_each (fun c a => withinJob_uncountDeferred c tag a.plan) l c
      split
      · exact ((hcount _).trans (coresOnly_stopContexts _ j).withinJob).trans (coresOnly_endWindows _ j).withinJob
      · exact hcount _

theorem withinJob_pairEnds (c : Chip) (tag : Nat) (p : Pair) : c.WithinJob tag (pairEnds c tag p) := by
  have hstart : c.WithinJob tag (if p.answered = true then c else final c p.cmd .notReady) := by
    split
    · exact .refl c
    · exact withinJob_final _ _ _ _
  unfold pairEnds
  cases p.drill with
  | none => exact hstart.trans (withinJob_onJob _ _ _)
  | some d => exact (hstart.trans (withinJob_final _ _ _ _)).trans (withinJob_onJob _ _ _)

theorem withinJob_rangeLost (c : Chip) (tag cause : Nat) : c.WithinJob tag (rangeLost c tag cause) := by
  unfold rangeLost
  cases tfind c.jobs tag with
  | none => exact .refl c
  | some j =>
    dsimp only
    cases j.pair with
    | none => exact .refl c
    | some p =>
      dsimp only
      split
      · exact (withinJob_pairEnds _ _ _).trans ((answersOnly_jobEvent _ _ _ _ _ _).withinJob (jobEvent_jobs _ _ _ _ _ _))
      · exact withinJob_pairEnds _ _ _

theorem withinJob_captureBegins (c : Chip) (tag : Nat) (j : Job) (s : Snap) : c.WithinJob tag (captureBegins c tag j s) := by
  refine .of_jobs ?_ (captureBegins_jobs c tag j s)
  unfold captureBegins
  split
  · split
    · rfl
    · exact wr_raised _ _ _
  · rfl

/-- The end of a job leaves the other jobs and the faults in hand. -/
theorem withinJob_endJob (c : Chip) (tag : Nat) (st : JobSt) (status : Status) : c.WithinJob tag (endJob c tag st status) := by
  unfold endJob
  cases tfind c.jobs tag with
  | none => exact .refl c
  | some j =>
    dsimp only
    generalize snapshot c tag j (captureCause c j st status) = snap
    have hstop : c.WithinJob tag (stopContexts (captureBegins c tag j snap) j) := (withinJob_captureBegins _ _ _ _).trans (coresOnly_stopContexts _ j).withinJob
    have hdrop := hstop.trans (withinJob_discardAttempts _ tag (fun _ => true))
    generalize discardAttempts (stopContexts (captureBegins c tag j snap) j) tag (fun _ => true) = c1 at hdrop ⊢
    have hcmds (l : List CmdId) : c.WithinJob tag (each l c1 (fun c x => final c x status)) :=
      hdrop.trans (withinJob_each (fun d x => withinJob_final tag d x status) l c1)
    have hreqs (l : List Nat) {d : Chip} (hd : c.WithinJob tag d) : c.WithinJob tag (each l d (fun c i => endReqNow c i status)) :=
      hd.trans (withinJob_each (fun d i => withinJob_endReqNow tag d i status) l d)
    have hcores (l : List Nat) {d : Chip} (hd : c.WithinJob tag d) :
        c.WithinJob tag (each l d (fun c i => onCore c i (fun k => { k with wins := [], guards := [], moves := [] }))) :=
      hd.trans (coresOnly_each l (by intros; rfl) d).withinJob
    refine Chip.WithinJob.trans ?_ (withinJob_onJob _ _ _)
    refine Chip.WithinJob.trans (hcores _ ?_) (.of_jobs rfl rfl)
    exact (hreqs _ (hcmds _)).trans (withinJob_rangeLost _ tag 0)

end Sys2Proof.Machine
end
section
/-! O23: clock, voltage and thermal monitors (15_safety.md R358, R363, R364, R366). -/

namespace Sys2Proof.Machine

theorem exec_clockFault (m v : Nat) (s : State) : exec (.clockFault m v) s = .next (s.after (monitorFault s.chip .clockFault m v false)) := rfl
theorem exec_voltageFault (m v : Nat) (s : State) : exec (.voltageFault m v) s = .next (s.after (monitorFault s.chip .voltageFault m v false)) := rfl
theorem exec_thermalWarn (m v : Nat) (s : State) : exec (.thermalWarn m v) s = .next (s.after (thermalEvent s.chip m v false)) := rfl
theorem exec_thermalTrip (m v : Nat) (s : State) : exec (.thermalTrip m v) s = .next (s.after (thermalStop s.chip m v false)) := rfl

/-! A fault of a monitor, and its record. -/

/-- A monitor's fault that covers no attempt (R358). -/
def monitorRaise (code m v : Nat) : Raise := ⟨code, engNone, monitorLoc m, none, noLw, 0, none, 0, noCore, m, v, false, false, false⟩

/-- Its record (R363): class D4, the monitor's location, its number and its reading. -/
def monitorRec (c : Chip) (code m v : Nat) : FaultRec :=
  ⟨code, 4, engNone, 0, monitorLoc m, noLw, 0, c.beacon.pkg, 0, c.beacon.tick, 0, noCore + m % 2 ^ 32 * 2 ^ 32, m, v, 0⟩

/-- No attempt of any job is unresolved. -/
def Chip.Unattempted (c : Chip) : Prop := ∀ q ∈ c.jobs, q.2.ticks.attempts = []

theorem attemptOf_unattempted {c : Chip} (h : c.Unattempted) {r : Raise} (hr : r.attempt = none) : attemptOf c r = none := by
  unfold attemptOf
  rw [hr]
  cases hj : tfind c.jobs r.job with
  | none => rfl
  | some j =>
    have hnew : newest j = none := by unfold newest; rw [h _ (mem_of_tfind hj)]; rfl
    show ((newest j).map fun a => (a.tick, a.ord)) = none
    rw [hnew]; rfl

/-- The record of a fault that covers no attempt, where none is unresolved. -/
theorem recordOf_uncovering {c : Chip} {r : Raise} (ha : attemptOf c r = none) (hc : r.covers = false) :
    recordOf c r = ⟨r.code, faultClass r.code + 16 * b2n r.receiver + 32 * b2n r.injected, r.engine, 0, r.loc, r.lw, r.job, c.beacon.pkg, 0, c.beacon.tick,
      r.addr, r.other + r.itemA % 2 ^ 32 * 2 ^ 32, r.itemA, r.itemB, 0⟩ := by
  have hzero : b2n (decide (3 ≤ 0)) = 0 ∧ b2n false = 0 := by decide
  obtain ⟨hless, hfalse⟩ := hzero
  unfold recordOf
  simp only [ha, hc, Bool.false_and, Bool.false_eq_true, if_false, hless, hfalse, Nat.mul_zero, Nat.add_zero, Option.map_none, Option.getD_none]

theorem recordOf_monitor {c : Chip} (h : c.Unattempted) {code : Nat} (hclass : faultClass code = 4) (m v : Nat) :
    recordOf c (monitorRaise code m v) = monitorRec c code m v := by
  rw [recordOf_uncovering (attemptOf_unattempted h rfl) rfl]
  unfold monitorRaise monitorRec
  dsimp only
  rw [hclass]
  rfl

/-- One fault in hand that covers nothing is posted, and that is all. -/
theorem settleFaults_one (e : Env) {c : Chip} {r : Raise} (hr : c.raised = [r]) (hc : r.covers = false) :
    settleFaults e c = postFault { c with raised := [] } (faultPart { c with raised := [] } r) (recordOf { c with raised := [] } r) := by
  have hno : ¬ r.covers = true := by rw [hc]; exact Bool.false_ne_true
  unfold settleFaults
  rw [hr, each_one]
  exact if_neg hno

section After
variable {s : State} {c : Chip} {r : Raise} (hr : c.raised = [r]) (hc : r.covers = false)
include hr hc

/-- What is not of records stays as the command left it. -/
theorem after_one_records : { c with raised := [] }.RecordsOnly (settleFaults s.env c) := by
  rw [settleFaults_one s.env hr hc]
  exact recordsOnly_postFault _ _ _

theorem after_one_jobs : (s.after c).chip.jobs = c.jobs := (after_one_records hr hc).on Chip.jobs
theorem after_one_boot : (s.after c).chip.boot = c.boot := (after_one_records hr hc).on Chip.boot
theorem after_one_lamp (k : Nat) : lamp (s.after c).chip k = lamp c k := (after_one_records hr hc).on (fun d => lamp d k)

theorem after_one_safe : (s.after c).chip.safe =
    (postFault { c with raised := [] } (faultPart { c with raised := [] } r) (recordOf { c with raised := [] } r)).safe := by
  rw [State.after_chip, settleFaults_one s.env hr hc]
  rfl

end After

/-- A monitor's fault in hand, with no attempt unresolved, makes one D4 record in the management log. -/
theorem after_monitor {s : State} {c : Chip} {code m v : Nat} (hr : c.raised = [monitorRaise code m v]) (ha : c.Unattempted) (hclass : faultClass code = 4) :
    (s.after c).chip.safe.faults = logPush c.safe.faults 256 ⟨c.safe.faultSeq, faultBytes (monitorRec c code m v) false 0⟩ ∧
      (s.after c).chip.safe.faultSeq = (c.safe.faultSeq + 1) % 2 ^ 16 ∧ (s.after c).chip.safe.ibiDue = true := by
  have hrec : recordOf { c with raised := [] } (monitorRaise code m v) = monitorRec c code m v := recordOf_monitor (c := { c with raised := [] }) ha hclass m v
  have hdue : faultClass (monitorRec c code m v).code ≠ 0 := by show faultClass code ≠ 0; rw [hclass]; decide
  rw [after_one_safe hr rfl, hrec]
  exact ⟨postFault_faults _ _ _, postFault_faultSeq _ _ _, postFault_ibiDue _ _ hdue⟩

theorem monitorFault_unattempted {c : Chip} (h : c.Unattempted) {f : FaultCode} {code : Nat} (hf : faultNo f = code) (m v : Nat) :
    monitorFault c f m v false = raise c (monitorRaise code m v) := by
  have hnone : c.jobs.flatMap (fun p => p.2.ticks.attempts.map (fun a => (p.1, a.tick, a.ord))) = [] :=
    List.flatMap_eq_nil_iff.mpr fun q hq => by rw [h q hq]; rfl
  subst hf
  unfold monitorFault
  exact if_pos hnone

/-- Clock and voltage monitors. -/
theorem after_monitorFault {s : State} (hq : s.quiet) (ha : s.chip.Unattempted) {o : Host.Outcome State Fault Refusal} {f : FaultCode} {code m v : Nat}
    (h : o = .next (s.after (monitorFault s.chip f m v false))) (hf : faultNo f = code) (hclass : faultClass code = 4) :
    ∃ t, o = .next t ∧ t.chip.safe.faults = logPush s.chip.safe.faults 256 ⟨s.chip.safe.faultSeq, faultBytes (monitorRec s.chip code m v) false 0⟩ ∧
      t.chip.safe.faultSeq = (s.chip.safe.faultSeq + 1) % 2 ^ 16 ∧ t.chip.safe.ibiDue = true ∧ t.chip.jobs = s.chip.jobs ∧ t.chip.boot = s.chip.boot := by
  have hr : (raise s.chip (monitorRaise code m v)).raised = [monitorRaise code m v] := by rw [raise_raised, hq.2.2]; rfl
  rw [monitorFault_unattempted ha hf] at h
  obtain ⟨hfaults, hseq, hdue⟩ := after_monitor (s := s) (c := raise s.chip _) hr ha hclass
  exact ⟨_, h, hfaults, hseq, hdue, after_one_jobs hr rfl, after_one_boot hr rfl⟩

/-! The thermal trip. -/

/-- The verdict that tells the trip to the other packages of a job: of kind kill, for its newest attempt, or for the last committed tick. -/
def tripVerdict (m : Nat) (c : Chip) (t : Nat) : VerdictMsg :=
  let at_ := ((tfind c.jobs t).bind newest).map (fun a => (a.tick, a.ord))
  let tick := ((tfind c.jobs t).map (fun j => j.ticks.committed)).getD 0
  ⟨t, (at_.getD (tick, 0)).1, (at_.getD (tick, 0)).2, .kill, [faultNo .thermalTrip, monitorLoc m], c.beacon.pkg, 0, statusCode .hwFault, []⟩

/-- One job stops at the trip, on every package of it. -/
def tripJob (m : Nat) (c : Chip) (t : Nat) : Chip := endJob (flood c (tripVerdict m c t)) t .halted .hwFault

/-- The jobs that run. -/
def runningTags (c : Chip) : List Nat := (c.jobs.filter (fun p => jobRunning p.2)).map Prod.fst

/-- Every stack DARK. -/
def Chip.darkened (c : Chip) : Chip := each [0, 1, 2, 3] c (fun c s => onLamp c s (fun l => { l with st := .dark, goal := none, till := c.now }))

/-- A device that a trip has failed. -/
def Chip.tripped (c : Chip) : Chip := onBoot c.darkened (fun b => { b with failed := true, thermtrip := true })

theorem thermalStop_eq (c : Chip) (m v : Nat) :
    thermalStop c m v false = (raise (each (runningTags c) c (tripJob m)) (monitorRaise 0x7B m v)).tripped := rfl

theorem lampsOnly_darkened (c : Chip) : c.LampsOnly c.darkened := lampsOnly_each _ _ (fun d k => show d.LampsOnly (onLamp d k _) from rfl) c

theorem tripped_raised (c : Chip) : c.tripped.raised = c.raised := (lampsOnly_darkened c).on Chip.raised
theorem tripped_jobs (c : Chip) : c.tripped.jobs = c.jobs := (lampsOnly_darkened c).on Chip.jobs
theorem tripped_safe (c : Chip) : c.tripped.safe = c.safe := (lampsOnly_darkened c).on Chip.safe
theorem tripped_beacon (c : Chip) : c.tripped.beacon = c.beacon := (lampsOnly_darkened c).on Chip.beacon
theorem tripped_failed (c : Chip) : c.tripped.boot.failed = true := rfl
theorem tripped_thermtrip (c : Chip) : c.tripped.boot.thermtrip = true := rfl

theorem lamp_tripped (c : Chip) {k : Nat} (hk : k < 4) : (lamp c.tripped k).st = .dark := by
  show (lamp c.darkened k).st = .dark
  have hlit (d : Chip) (n : Nat) (h : (lamp d k).st = .dark ∨ n = k) :
      (lamp (onLamp d n (fun l => { l with st := .dark, goal := none, till := d.now })) k).st = .dark := by
    rw [lamp_onLamp]
    split
    · rfl
    · next hn => exact h.resolve_right (fun hn' => hn hn'.symm)
  have hmem : k ∈ [0, 1, 2, 3] := by simp; omega
  obtain ⟨l₁, l₂, hl⟩ := List.append_of_mem hmem
  unfold Chip.darkened
  rw [hl]
  unfold each
  rw [List.foldl_append, List.foldl_cons]
  exact each_keeps (P := fun d => (lamp d k).st = .dark) (fun d n hd => hlit d n (.inl hd)) l₂ (hlit _ k (.inr rfl))

/-- A job that the trip has stopped. -/
def Stopped (c : Chip) (tag : Nat) : Prop := ∃ j, tfind c.jobs tag = some j ∧ j.st = .halted ∧ j.endSt = .hwFault ∧ j.ticks.attempts = []

theorem withinJob_tripJob (m : Nat) (c : Chip) (t : Nat) : c.WithinJob t (tripJob m c t) := by
  have hwire := wireOnly_flood c (tripVerdict m c t)
  exact Chip.WithinJob.trans (d := flood c (tripVerdict m c t)) (.of_jobs (hwire.on Chip.raised) (hwire.on Chip.jobs)) (withinJob_endJob _ _ _ _)

theorem stopped_tripJob_self (m : Nat) {c : Chip} {t : Nat} {j : Job} (hj : tfind c.jobs t = some j) : Stopped (tripJob m c t) t :=
  endJob_job (((wireOnly_flood c _).on (fun d => tfind d.jobs t)).trans hj) .halted .hwFault

theorem stopped_tripJob (m : Nat) {c : Chip} {tag : Nat} (h : Stopped c tag) (t : Nat) : Stopped (tripJob m c t) tag := by
  obtain ⟨j, hj, hst⟩ := h
  by_cases ht : tag = t
  · subst ht; exact stopped_tripJob_self m hj
  · exact ⟨j, ((withinJob_tripJob m c t).others tag ht).trans hj, hst⟩

/-- Every job of a list stops. -/
theorem stopped_each (m : Nat) {l : List Nat} {tag : Nat} (hmem : tag ∈ l) {c : Chip} {j : Job} (hj : tfind c.jobs tag = some j) :
    Stopped (each l c (tripJob m)) tag := by
  induction l generalizing c j with
  | nil => cases hmem
  | cons t l ih =>
    show Stopped (each l (tripJob m c t) (tripJob m)) tag
    by_cases ht : tag = t
    · subst ht
      exact each_keeps (P := fun d => Stopped d tag) (fun _ u hd => stopped_tripJob m hd u) l (stopped_tripJob_self m hj)
    · exact ih ((List.mem_cons.mp hmem).resolve_left ht) (((withinJob_tripJob m c t).others tag ht).trans hj)

theorem each_tripJob_raised (m : Nat) (l : List Nat) (c : Chip) : (each l c (tripJob m)).raised = c.raised :=
  each_field Chip.raised (fun d t => (withinJob_tripJob m d t).raised) l c

theorem thermalStop_raised {c : Chip} (h : c.raised = []) (m v : Nat) :
    (thermalStop c m v false).raised = [monitorRaise 0x7B m v] := by
  rw [thermalStop_eq, tripped_raised, raise_raised, each_tripJob_raised, h]
  rfl

theorem thermalStop_idle {c : Chip} (h : ∀ q ∈ c.jobs, jobRunning q.2 = false) (m v : Nat) :
    thermalStop c m v false = (raise c (monitorRaise 0x7B m v)).tripped := by
  have hnone : runningTags c = [] := List.map_eq_nil_iff.mpr (List.filter_eq_nil_iff.mpr fun q hq => by rw [h q hq]; exact Bool.false_ne_true)
  rw [thermalStop_eq, hnone, each_nil]

theorem deviceState_failed {c : Chip} (h : c.boot.failed = true) : deviceState c = 4 := if_pos h

/-- A device after a trip has failed, and shows THERMTRIP#. -/
theorem after_trip_boot {s : State} (hq : s.quiet) (m v : Nat) :
    deviceState (s.after (thermalStop s.chip m v false)).chip = 4 ∧ (s.after (thermalStop s.chip m v false)).chip.boot.thermtrip = true := by
  have hboot := after_one_boot (s := s) (thermalStop_raised hq.2.2 m v) rfl
  rw [thermalStop_eq] at hboot ⊢
  refine ⟨deviceState_failed ?_, ?_⟩
  · rw [hboot, tripped_failed]
  · rw [hboot, tripped_thermtrip]

/-- Settles O23: the record of a monitor by the one fault in hand, the trip by the end of each job that runs. -/
theorem monitorFaults : Obligations.MonitorFaults := by
  intro m v s hq
  refine ⟨fun ha => ⟨?clock, ?voltage, fun hidle => ?idle⟩, fun tag j hj hrun => ?trip, ?warn⟩
  case clock => exact after_monitorFault hq ha (exec_clockFault m v s) (code := 0x78) rfl (by decide)
  case voltage => exact after_monitorFault hq ha (exec_voltageFault m v s) (code := 0x79) rfl (by decide)
  case idle =>
    have hraised := thermalStop_raised hq.2.2 m v
    have hstop := thermalStop_idle hidle m v
    have hjobs : (thermalStop s.chip m v false).jobs = s.chip.jobs := by rw [hstop, tripped_jobs]; rfl
    have hsafe : (thermalStop s.chip m v false).safe = s.chip.safe := by rw [hstop, tripped_safe]; rfl
    have hbeacon : (thermalStop s.chip m v false).beacon = s.chip.beacon := by rw [hstop, tripped_beacon]; rfl
    have hun : (thermalStop s.chip m v false).Unattempted := by unfold Chip.Unattempted; rw [hjobs]; exact ha
    have hrec : monitorRec (thermalStop s.chip m v false) 0x7B m v = monitorRec s.chip 0x7B m v := by
      unfold monitorRec; rw [hbeacon]
    obtain ⟨hfaults, -, -⟩ := after_monitor (s := s) hraised hun (by decide)
    obtain ⟨hfailed, htrip⟩ := after_trip_boot hq m v
    rw [hsafe, hrec] at hfaults
    refine ⟨_, exec_thermalTrip m v s, hfaults, fun k hk => ?_, hfailed, htrip, (after_one_jobs hraised rfl).trans hjobs⟩
    rw [after_one_lamp hraised rfl, hstop]
    exact lamp_tripped _ hk
  case trip =>
    have hmem : tag ∈ runningTags s.chip := List.mem_map.mpr ⟨(tag, j), List.mem_filter.mpr ⟨mem_of_tfind hj, hrun⟩, rfl⟩
    obtain ⟨j', hj', hst, hend, hatt⟩ := stopped_each m hmem hj
    obtain ⟨hfailed, -⟩ := after_trip_boot hq m v
    refine ⟨_, j', exec_thermalTrip m v s, ?_, hst, hend, hatt, hfailed⟩
    rw [after_one_jobs (thermalStop_raised hq.2.2 m v) rfl, thermalStop_eq, tripped_jobs]
    exact hj'
  case warn =>
    have honly := recordsOnly_event s.chip (assignedParts s.chip) (plainEvent s.chip 8 0 (leBytes 4 m ++ leBytes 4 v))
    obtain ⟨hevents, hfaults⟩ := event_thermal s.chip (assignedParts s.chip) (r := plainEvent s.chip 8 0 (leBytes 4 m ++ leBytes 4 v)) rfl
    have hchip := State.after_chip_of_unraised s (thermalEvent s.chip m v false) ((honly.on Chip.raised).trans hq.2.2)
    refine ⟨_, exec_thermalWarn m v s, ?_⟩
    rw [hchip]
    exact ⟨hevents, hfaults, honly.on Chip.boot, honly.on Chip.jobs⟩

end Sys2Proof.Machine
end
